-- ==== Sys2Proof/Word.lean ====
section
/-! DEFINITION. The word types of the part (00_scope R2): bytes, 32-bit and 64-bit words, lane words. -/

namespace Sys2Proof

/-- One byte. -/
abbrev Byte := BitVec 8
/-- A 32-bit word: a syllable, a lane of a vector register, a shape register. -/
abbrev W32 := BitVec 32
/-- A 64-bit word: a scalar register, a virtual address, a management register. -/
abbrev W64 := BitVec 64

end Sys2Proof
end

