-- ==== Sys2Proof/Config.lean ====
section
/-! DEFINITION. What an implementation fixes (counts stated by the spec) and the free values: constants without a body,
so that no proof can use what they are (log 2, 12, 13, 14, 15, 16). -/

namespace Sys2Proof.Config

/-- Compute dies (00 R1). -/
def dies : Nat := 8
/-- Cores of a die (00 R1). -/
def cores : Nat := 16
/-- Engines of a core (00 R1). -/
def engines : Nat := 16
/-- Contexts of a core (00 R1, 04 R91). -/
def contexts : Nat := 128
/-- Scalar registers in a core's pool (04 R91). -/
def scalarPool : Nat := 12288
/-- Bytes of one engine's scratchpad (06 R139). -/
def scratchBytes : Nat := 393216
/-- One past the highest physical address: 576 GiB (07 R185). -/
def memBytes : Nat := 0x9000000000
/-- Bytes of a die's home memory: 72 GiB (01 R5). -/
def homeBytes : Nat := 0x1200000000
/-- Launch slots (04 R86). -/
def launchSlots : Nat := 1024
/-- Layby entries of a core (06 R153). -/
def laybyEntries : Nat := 128
/-- Bytes of a context image, CI (11 R288). -/
def imageBytes : Nat := 0x2C000

/-- Log 2. A free 64-bit value: the n-th value that the spec leaves open. -/
opaque freeWord : Nat → W64
/-- Log 2. A free choice among k alternatives (its remainder by k): which agent, victim, stream. -/
opaque freeChoice : Nat → Nat
/-- Log 110. The bank and the row of a stack that hold a granule (01 R23, R24 name rows; the spec gives no map from addresses). -/
opaque dramBank : Nat → Nat
opaque dramRow : Nat → Nat
/-- Log 43. Banks of a stack, by which its bank-cycle capacity is counted (01 R20). -/
opaque stackBanks : Nat
/-- Log 12. Whether VRCP of this binary32 operand takes the upper of the two bracketing values (14 R356). -/
opaque rcpTakesUpper : W32 → Bool
/-- Log 12. Whether VRSQ of this binary32 operand takes the upper of the two bracketing values (14 R356). -/
opaque rsqTakesUpper : W32 → Bool
/-- Log 12. Which of the binary32 values within 2 units of the exact 2^a VEXP2 gives (14 R356). -/
opaque exp2Step : W32 → Nat
/-- Log 12. Which of the binary32 values within 2 units of the exact log2 a VLOG2 gives (14 R356). -/
opaque log2Step : W32 → Nat
/-- Log 13. The identity key's ML-DSA-44 signature over a byte string (03 R76); 2,420 bytes are taken of it. -/
opaque attestByte : List Byte → Nat → Byte
/-- Log 14. The MSGID of the n-th request that the part sends (02 R36: chosen by the sender). -/
opaque msgId : Nat → W32
/-- Log 15. A word of a read-out unit whose layout the spec does not give (03 R80 unit 0x10 and the ready queues of 0x07): unit, what
the unit holds as numbers, offset. -/
opaque readoutWord : Nat → List Nat → Nat → W64
/-- Log 16. The bits that the pins give the boundary scan register (03 R81). -/
opaque boundaryCapture : Nat → List Bool

end Sys2Proof.Config
end

