-- ==== Sys2Proof/Machine/Float.lean ====
section
/-! DEFINITION. Number formats and arithmetic (10 R248 to R262, R453, 09 R238): encodings of the floating formats as exact
dyadic values, rounding, the operations of the S and V slots, conversions. Encodings are natural numbers below 2^width. -/

namespace Sys2Proof.Machine

/-- The sticky IEEE flags in FSTAT's order: INV 4, DZ 3, OVF 2, UNF 1, INX 0 (10 R271). -/
abbrev Flags := BitVec 5

def Flags.none : Flags := 0
def Flags.inv : Flags := 16
def Flags.dz : Flags := 8
def Flags.ovf : Flags := 4
def Flags.unf : Flags := 2
def Flags.inx : Flags := 1

/-- The floating formats (R248). -/
inductive FFmt where
  | f64 | f32 | f16 | bf16 | e4m3 | e5m2
deriving DecidableEq, Repr

namespace FFmt
/-- Width of an encoding in bits. -/
def width : FFmt → Nat
  | f64 => 64 | f32 => 32 | f16 => 16 | bf16 => 16 | e4m3 => 8 | e5m2 => 8
/-- Width of the fraction field. -/
def frac : FFmt → Nat
  | f64 => 52 | f32 => 23 | f16 => 10 | bf16 => 7 | e4m3 => 3 | e5m2 => 2
def bias : FFmt → Nat
  | f64 => 1023 | f32 => 127 | f16 => 15 | bf16 => 127 | e4m3 => 7 | e5m2 => 15
/-- Width of the exponent field. -/
def expo (f : FFmt) : Nat := f.width - 1 - f.frac
/-- The canonical NaN. -/
def nan : FFmt → Nat
  | f64 => 0x7FF8000000000000 | f32 => 0x7FC00000 | f16 => 0x7E00 | bf16 => 0x7FC0 | e4m3 => 0x7F | e5m2 => 0x7E
/-- The encoding of the largest finite magnitude. -/
def maxEnc : FFmt → Nat
  | e4m3 => 0x7E
  | f => (2 ^ f.expo - 1) * 2 ^ f.frac - 1
/-- The encoding of +infinity (E4M3 has none; its entry is not used). -/
def infEnc (f : FFmt) : Nat := (2 ^ f.expo - 1) * 2 ^ f.frac
end FFmt

/-- The value of an encoding: a NaN (signalling or quiet), an infinity, a zero, or ±m × 2^e with m > 0. -/
inductive FVal where
  | nan (signalling : Bool)
  | inf (neg : Bool)
  | zero (neg : Bool)
  | fin (neg : Bool) (m : Nat) (e : Int)
deriving DecidableEq, Repr

/-- The rounding modes of R253; SR carries its draw. -/
inductive Rm where
  | rne | rtz | rup | rdn | rna
  | sr (x : W32)
deriving DecidableEq, Repr

/-- GMODE.RM as a mode; 5 to 7 cannot be held (R145). -/
def Rm.ofCode : Nat → Rm
  | 1 => .rtz | 2 => .rup | 3 => .rdn | 4 => .rna | _ => .rne

/-- An encoding's sign bit. -/
def fSign (f : FFmt) (x : Nat) : Bool := x.testBit (f.width - 1)

/-- The value of an encoding (R248). -/
def fDecode (f : FFmt) (x : Nat) : FVal :=
  let s := fSign f x
  let m := x % 2 ^ f.frac
  let e := x / 2 ^ f.frac % 2 ^ f.expo
  if f = .e4m3 ∧ e = 15 ∧ m = 7 then .nan false
  else if f ≠ .e4m3 ∧ e = 2 ^ f.expo - 1 then
    if m = 0 then .inf s
    else if f = .e5m2 then .nan false
    else .nan (!(m.testBit (f.frac - 1)))
  else if e = 0 then
    if m = 0 then .zero s else .fin s m (1 - (f.bias : Int) - f.frac)
  else .fin s (m + 2 ^ f.frac) ((e : Int) - f.bias - f.frac)

/-- True for a subnormal encoding. -/
def fSubnormal (f : FFmt) (x : Nat) : Bool :=
  decide (x / 2 ^ f.frac % 2 ^ f.expo = 0 ∧ x % 2 ^ f.frac ≠ 0)

def fWithSign (f : FFmt) (neg : Bool) (mag : Nat) : Nat := if neg then mag + 2 ^ (f.width - 1) else mag

/-- The encoding with the input flush of DM = 1 and 3 (R258). -/
def fFlushIn (f : FFmt) (dm : Nat) (x : Nat) : Nat :=
  if (dm = 1 ∨ dm = 3) ∧ fSubnormal f x then fWithSign f (fSign f x) 0 else x

/-- Whether m × 2^e is below a × 2^b. -/
def dyLt (m : Nat) (e : Int) (a : Nat) (b : Int) : Bool :=
  if e ≤ b then decide (m < a * 2 ^ (b - e).toNat) else decide (m * 2 ^ (e - b).toNat < a)

/-- A magnitude m × 2^e rounded to a multiple of 2^st: the number of steps and whether it was exact (R253 to R255). -/
def roundUnits (rm : Rm) (neg : Bool) (m : Nat) (e st : Int) : Nat × Bool :=
  if st ≤ e then (m * 2 ^ (e - st).toNat, true)
  else
    let sh := (st - e).toNat
    let q := m >>> sh
    let r := m - q <<< sh
    let half := 2 ^ (sh - 1)
    let up : Bool :=
      match rm with
      | .rne => decide (half < r) || (decide (r = half) && q % 2 == 1)
      | .rna => decide (half ≤ r)
      | .rtz => false
      | .rup => !neg && decide (r ≠ 0)
      | .rdn => neg && decide (r ≠ 0)
      | .sr x => decide (x.toNat < (r <<< 32) >>> sh)
    (if up then q + 1 else q, decide (r = 0))

/-- The exponent of the grid step at a magnitude m × 2^e, m > 0 (R254). -/
def gridStep (f : FFmt) (m : Nat) (e : Int) : Int :=
  max ((Nat.log2 m : Int) + e) (1 - (f.bias : Int)) - f.frac

/-- The magnitude encoding of n × 2^st, n > 0, a value on f's grid that is no larger than the largest finite value. -/
def encodeGrid (f : FFmt) (n : Nat) (st : Int) : Nat :=
  let k := Nat.log2 n
  -- the value's own grid step; n × 2^st is a multiple of it
  let st' := gridStep f n st
  let n' := if st' ≤ st then n * 2 ^ (st - st').toNat else n >>> (st' - st).toNat
  if (k : Int) + st < 1 - (f.bias : Int) then n'
  else (((k : Int) + st + f.bias).toNat) * 2 ^ f.frac + (n' - 2 ^ f.frac)

def infTo (f : FFmt) (neg sat : Bool) : Nat × Flags :=
  if f = .e4m3 then
    if sat then (fWithSign f neg f.maxEnc, .none) else (f.nan, .inv)
  else (fWithSign f neg f.infEnc, .none)

def overTo (f : FFmt) (rm : Rm) (neg sat : Bool) : Nat :=
  if sat then fWithSign f neg f.maxEnc
  else
    let toInf : Bool := match rm with
      | .rne => true | .rna => true | .sr _ => true
      | .rtz => false | .rup => !neg | .rdn => neg
    if !toInf then fWithSign f neg f.maxEnc
    else if f = .e4m3 then f.nan
    else fWithSign f neg f.infEnc

/-- round_to of R254: encoding and flags. -/
def roundTo (v : FVal) (f : FFmt) (rm : Rm) (sat : Bool) (dm : Nat) : Nat × Flags :=
  match v with
  | .nan _ => (f.nan, .none)
  | .inf s => infTo f s sat
  | .zero s => (fWithSign f s 0, .none)
  | .fin s m e =>
    let tiny := dyLt m e 1 (1 - (f.bias : Int))
    if tiny ∧ (dm = 2 ∨ dm = 3) then (fWithSign f s 0, Flags.unf ||| Flags.inx)
    else
      let st := gridStep f m e
      let (n, exact) := roundUnits rm s m e st
      let fl : Flags := (if exact then 0 else Flags.inx) ||| (if tiny ∧ ¬ exact then Flags.unf else 0)
      -- the largest finite value as mx × 2^me
      match fDecode f f.maxEnc with
      | .fin _ mx me =>
        if dyLt mx me n st then (overTo f rm s sat, fl ||| Flags.ovf ||| Flags.inx)
        else if n = 0 then (fWithSign f s 0, fl)
        else (fWithSign f s (encodeGrid f n st), fl)
      | _ => (f.nan, fl)

/-- A signed integer times 2^e as a value; a zero takes the sign zneg. -/
def FVal.ofInt (v : Int) (e : Int) (zneg : Bool) : FVal :=
  if v = 0 then .zero zneg else .fin (decide (v < 0)) v.natAbs e

def FVal.neg : FVal → FVal
  | .nan s => .nan s
  | .inf s => .inf (!s)
  | .zero s => .zero (!s)
  | .fin s m e => .fin (!s) m e

def FVal.signBit : FVal → Bool
  | .nan _ => false
  | .inf s => s
  | .zero s => s
  | .fin s _ _ => s

def FVal.isNan : FVal → Bool
  | .nan _ => true
  | _ => false

def FVal.isSnan : FVal → Bool
  | .nan s => s
  | _ => false

def sgnInt (neg : Bool) (m : Nat) : Int := if neg then -(m : Int) else m

/-- Exact sum of two values that are no NaN and not opposite infinities; an exact zero sum of nonzero or opposite-signed
operands is −0 under RDN, +0 otherwise (R259). -/
def FVal.addExact (rdn : Bool) : FVal → FVal → FVal
  | .inf s, _ => .inf s
  | _, .inf s => .inf s
  | .zero a, .zero b => if a = b then .zero a else .zero rdn
  | .zero _, y => y
  | x, .zero _ => x
  | .fin a m e, .fin b n g =>
    let lo := min e g
    let v := sgnInt a (m * 2 ^ (e - lo).toNat) + sgnInt b (n * 2 ^ (g - lo).toNat)
    FVal.ofInt v lo rdn
  | .nan s, _ => .nan s
  | x, .nan _ => x

/-- Exact product of two values that are no NaN and not zero times infinity. -/
def FVal.mulExact : FVal → FVal → FVal
  | .nan s, _ => .nan s
  | _, .nan s => .nan s
  | .inf a, y => .inf (a != y.signBit)
  | x, .inf b => .inf (x.signBit != b)
  | .zero a, y => .zero (a != y.signBit)
  | x, .zero b => .zero (x.signBit != b)
  | .fin a m e, .fin b n g => .fin (a != b) (m * n) (e + g)

/-- Invalid for signalling operands, and the canonical NaN, when an operand is a NaN. -/
def nanResult (f : FFmt) (vs : List FVal) : Option (Nat × Flags) :=
  if vs.any FVal.isNan then some (f.nan, if vs.any FVal.isSnan then Flags.inv else .none) else none

def isInf : FVal → Bool
  | .inf _ => true
  | _ => false
def isZero : FVal → Bool
  | .zero _ => true
  | _ => false

/-- Sum of two values of format f (R259). -/
def vAdd (f : FFmt) (rm : Rm) (dm : Nat) (x y : FVal) : Nat × Flags :=
  match nanResult f [x, y] with
  | some r => r
  | none =>
    if isInf x && isInf y && (x.signBit != y.signBit) then (f.nan, .inv)
    else roundTo (FVal.addExact (decide (rm = .rdn)) x y) f rm false dm

/-- Addition of encodings of format f (R259). -/
def fAdd (f : FFmt) (rm : Rm) (dm : Nat) (a b : Nat) : Nat × Flags :=
  vAdd f rm dm (fDecode f (fFlushIn f dm a)) (fDecode f (fFlushIn f dm b))

def fSub (f : FFmt) (rm : Rm) (dm : Nat) (a b : Nat) : Nat × Flags :=
  vAdd f rm dm (fDecode f (fFlushIn f dm a)) (fDecode f (fFlushIn f dm b)).neg

def fMul (f : FFmt) (rm : Rm) (dm : Nat) (a b : Nat) : Nat × Flags :=
  let x := fDecode f (fFlushIn f dm a)
  let y := fDecode f (fFlushIn f dm b)
  match nanResult f [x, y] with
  | some r => r
  | none =>
    if (isInf x && isZero y) || (isZero x && isInf y) then (f.nan, .inv)
    else roundTo (x.mulExact y) f rm false dm

/-- x × y + z rounded once (R259): the product 0 × ∞ is invalid even with a quiet NaN addend. -/
def vFma (f : FFmt) (rm : Rm) (dm : Nat) (x y z : FVal) : Nat × Flags :=
  if (isInf x && isZero y) || (isZero x && isInf y) then (f.nan, .inv)
  else
    match nanResult f [x, y, z] with
    | some r => r
    | none =>
      let p := x.mulExact y
      if isInf p && isInf z && (p.signBit != z.signBit) then (f.nan, .inv)
      else roundTo (FVal.addExact (decide (rm = .rdn)) p z) f rm false dm

def fFma (f : FFmt) (rm : Rm) (dm : Nat) (a b c : Nat) : Nat × Flags :=
  vFma f rm dm (fDecode f (fFlushIn f dm a)) (fDecode f (fFlushIn f dm b)) (fDecode f (fFlushIn f dm c))

/-- a × b − c rounded once. -/
def fFms (f : FFmt) (rm : Rm) (dm : Nat) (a b c : Nat) : Nat × Flags :=
  vFma f rm dm (fDecode f (fFlushIn f dm a)) (fDecode f (fFlushIn f dm b)) (fDecode f (fFlushIn f dm c)).neg

/-- Integer square root by bits: the largest r with r² ≤ n, r below 2^k. -/
def isqrtBits (n : Nat) : Nat → Nat → Nat
  | 0, r => r
  | k + 1, r =>
    let r' := r + 2 ^ k
    isqrtBits n k (if r' * r' ≤ n then r' else r)

def isqrt (n : Nat) : Nat := isqrtBits n (Nat.log2 n / 2 + 1) 0

/-- Square root (R259): the root is taken to 64 bits and more, with a last bit that says whether it is inexact. -/
def fSqrt (f : FFmt) (rm : Rm) (dm : Nat) (a : Nat) : Nat × Flags :=
  let x := fDecode f (fFlushIn f dm a)
  match x with
  | .nan s => (f.nan, if s then .inv else .none)
  | .zero s => (fWithSign f s 0, .none)
  | .inf s => if s then (f.nan, .inv) else (fWithSign f false f.infEnc, .none)
  | .fin s m e =>
    if s then (f.nan, .inv)
    else
      let e0 : Int := e - 140
      let e1 : Int := if e0 % 2 = 0 then e0 else e0 - 1
      let n := m * 2 ^ (e - e1).toNat
      let r := isqrt n
      roundTo (.fin false (2 * r + (if r * r = n then 0 else 1)) (e1 / 2 - 1)) f rm false dm

/-- Conversion between floating formats (R260). -/
def fConv (src dst : FFmt) (rm : Rm) (sat : Bool) (dm : Nat) (a : Nat) : Nat × Flags :=
  let x := fDecode src (fFlushIn src dm a)
  match x with
  | .nan s => (dst.nan, if s then .inv else .none)
  | _ => roundTo x dst rm sat dm

/-- The two's complement of an integer in w bits. -/
def intToBits (w : Nat) (v : Int) : Nat := (v % (2 ^ w : Int)).toNat

/-- The integer of the low w bits, signed or unsigned. -/
def bitsToInt (signed : Bool) (w : Nat) (x : Nat) : Int :=
  let y := x % 2 ^ w
  if signed ∧ y.testBit (w - 1) then (y : Int) - 2 ^ w else y

def intMin (signed : Bool) (w : Nat) : Int := if signed then -(2 ^ (w - 1) : Int) else 0
def intMax (signed : Bool) (w : Nat) : Int := if signed then 2 ^ (w - 1) - 1 else 2 ^ w - 1

/-- Clamp to the range of an integer type. -/
def intClamp (signed : Bool) (w : Nat) (v : Int) : Int := max (intMin signed w) (min (intMax signed w) v)

/-- Conversion of a value to an integer type (R260): bits of the result and flags. -/
def vToInt (signed : Bool) (w : Nat) (rm : Rm) (v : FVal) : Nat × Flags :=
  match v with
  | .nan _ => (0, .inv)
  | .inf s => (intToBits w (if s then intMin signed w else intMax signed w), .inv)
  | .zero _ => (0, .none)
  | .fin s m e =>
    let (n, exact) := roundUnits rm s m e 0
    let r := sgnInt s n
    if r < intMin signed w ∨ intMax signed w < r then (intToBits w (intClamp signed w r), .inv)
    else (intToBits w r, if exact then .none else .inx)

def fToInt (src : FFmt) (signed : Bool) (w : Nat) (rm : Rm) (dm : Nat) (a : Nat) : Nat × Flags :=
  vToInt signed w rm (fDecode src (fFlushIn src dm a))

/-- Conversion of an integer to a floating format (R260); zero gives +0. -/
def fOfInt (dst : FFmt) (rm : Rm) (sat : Bool) (dm : Nat) (v : Int) : Nat × Flags :=
  roundTo (FVal.ofInt v 0 false) dst rm sat dm

/-- Order of two values that are no NaN: −1, 0 or 1 (zeros of both signs are equal). -/
def vCmp : FVal → FVal → Int
  | .inf a, .inf b => if a = b then 0 else if a then -1 else 1
  | .inf a, _ => if a then -1 else 1
  | _, .inf b => if b then 1 else -1
  | .zero _, .zero _ => 0
  | .zero _, .fin b _ _ => if b then 1 else -1
  | .fin a _ _, .zero _ => if a then -1 else 1
  | .fin a m e, .fin b n g =>
    let lo := min e g
    let d := sgnInt a (m * 2 ^ (e - lo).toNat) - sgnInt b (n * 2 ^ (g - lo).toNat)
    if d < 0 then -1 else if d = 0 then 0 else 1
  | _, _ => 0

/-- The comparisons of R261. -/
inductive CmpOp where
  | eq | ne | lt | le | gt | ge
deriving DecidableEq, Repr

def CmpOp.holds : CmpOp → Int → Bool
  | .eq, d => d == 0
  | .ne, d => d != 0
  | .lt, d => decide (d < 0)
  | .le, d => decide (d ≤ 0)
  | .gt, d => decide (0 < d)
  | .ge, d => decide (0 ≤ d)

/-- A floating comparison (R261, R258): the equal and not-equal forms are quiet, the ordered forms signal on any NaN. -/
def fCompare (f : FFmt) (op : CmpOp) (dm : Nat) (a b : Nat) : Bool × Flags :=
  let x := fDecode f (fFlushIn f dm a)
  let y := fDecode f (fFlushIn f dm b)
  if x.isNan || y.isNan then
    let quiet := op = .eq || op = .ne
    (op = .ne, if x.isSnan || y.isSnan || !quiet then Flags.inv else .none)
  else (op.holds (vCmp x y), .none)

/-- minimumNumber and maximumNumber (R261): encodings of the selected operand unchanged, −0 below +0. -/
def fMinMax (f : FFmt) (wantMax : Bool) (dm : Nat) (a b : Nat) : Nat × Flags :=
  let a' := fFlushIn f dm a
  let b' := fFlushIn f dm b
  let x := fDecode f a'
  let y := fDecode f b'
  let fl : Flags := if x.isSnan || y.isSnan then .inv else .none
  if x.isNan && y.isNan then (f.nan, fl)
  else if x.isNan then (b', fl)
  else if y.isNan then (a', fl)
  else
    let d := vCmp x y
    let d := if d = 0 then (if x.signBit then (if y.signBit then (0 : Int) else -1) else if y.signBit then 1 else 0) else d
    ((if wantMax then (if d < 0 then b' else a') else (if 0 < d then b' else a')), fl)

/-- order_key of R262. -/
def orderKey (x w : Nat) : Nat := if x.testBit (w - 1) then 2 ^ w - 1 - x else x + 2 ^ (w - 1)

/-- add_rne32 (09 R238, 10 R453). -/
def addRne32 (a b : Nat) : Nat × Flags := fAdd .f32 .rne 0 a b

/-- max_total (09 R238, 10 R453): maximum with +0 above −0, any NaN gives the canonical NaN. -/
def maxTotal (f : FFmt) (a b : Nat) : Nat × Flags :=
  let x := fDecode f a
  let y := fDecode f b
  match nanResult f [x, y] with
  | some r => r
  | none => fMinMax f true 0 a b

/-- A binary32 literal read as .f64 (12 R301): widened exactly, a signalling NaN to the canonical NaN, without a flag.
A quiet NaN too becomes the canonical NaN (R249, R260). -/
def widenLiteral (x : Nat) : Nat := (fConv .f32 .f64 .rne false 0 x).1

/-- draw of R256: one xorshift step; the new state is the draw. -/
def drawStep (g : W32) : W32 :=
  let g := g ^^^ (g <<< 13)
  let g := g ^^^ (g >>> 17)
  g ^^^ (g <<< 5)

/-- seed(e) of R257. -/
def seedOf (w : W32) (e : Nat) : W32 :=
  let x := w ^^^ BitVec.ofNat 32 (0x9E3779B9 * (e + 1))
  if x = 0 then 0x6D2B79F5 else x

end Sys2Proof.Machine
end

