-- ==== Sys2Proof/Syntax/Irnov.lean ====
section
/-! DEFINITION. The Irnov instructions that a bundle's syllables decode to (12 R298 to R313, 13 to 17): one tree per slot
class, with operand fields pulled out. The bundle itself is issued by the step BUNDLE_ISSUE. -/

namespace Sys2Proof.Irnov

/-- The element types of R144. -/
inductive Ty where
  | ui8 | ui16 | ui32 | ui64 | si8 | si16 | si32 | si64 | f64 | f32 | f16 | bf16 | e4m3 | e5m2 | bp
deriving DecidableEq, Repr

/-- A scalar source: a register s0 to s159, an 8-bit immediate already extended, or a literal (12 R301, R302, 13 R322). -/
inductive Src where
  | reg (n : Nat)
  | imm (v : W64)
  | lit (v : W32)
deriving DecidableEq, Repr

/-- Integer and logic operations with two operands (13 R324 to R326). -/
inductive AluOp where
  | add | sub | mul | mulh | mulhu | div | divu | rem | remu | and | or | xor | andn | orn
  | shl | shr | sra | rot | min | max | minu | maxu | sext | zext | bfx | bfi | lea | ldi
deriving DecidableEq, Repr

/-- Integer operations with one operand. -/
inductive UnOp where
  | clz | ctz | popc | brev | mov
deriving DecidableEq, Repr

/-- Integer compares (13 R327). -/
inductive ICmp where
  | eq | ne | lt | ltu | ge | geu
deriving DecidableEq, Repr

/-- Scalar floating operations (13 R329). -/
inductive FOp where
  | add | sub | mul | fma | min | max
deriving DecidableEq, Repr

inductive FCmp where
  | eq | lt | le
deriving DecidableEq, Repr

inductive QOp where
  | and | or | xor
deriving DecidableEq, Repr

/-- S-class instructions (13). Branch displacements count bundles. -/
inductive SIns where
  | snop
  | alu (op : AluOp) (d : Nat) (a b : Src)
  | un (op : UnOp) (d : Nat) (a : Src)
  | sel (d : Nat) (a : Src) (c : Nat) (inv : Bool)
  | cmp (op : ICmp) (c : Nat) (a b : Src)
  | farith (op : FOp) (single : Bool) (d : Nat) (a b : Src)
  | fcmp (op : FCmp) (single : Bool) (c : Nat) (a b : Src)
  | fcvt (sr : Bool) (dst src : Ty) (d : Nat) (a : Src)
  | fclass (single : Bool) (d : Nat) (a : Src)
  | br (c : Nat) (neg : Bool) (disp : Int)
  | jmp (disp : Int)
  | call (disp : Int)
  | ret
  | jr (d : Nat) (a : Src)
  | loop (n : Nat) (disp : Int)
  | divg (q : Nat) (inv split : Bool) (elseN joinN : Nat)
  | dswitch (v n tab joinN : Nat)
  | endp
  | ekill (q : Nat)
  | wait (clear all : Bool) (m : Src)
  | exit
  | trap (m : Src)
  | resume (m : Src)
  | sysr (d reg : Nat)
  | sysw (reg : Nat) (a : Src)
  | ifence
  | bkpt
  | qset (q : Nat) (b : Src)
  | qlog (op : QOp) (q a b : Nat)
  | qnot (q a : Nat)
  | qk (all : Bool) (q k : Nat)
  | qpopc (d q : Nat)
  | qfirst (d q : Nat)
  | qmov (d q : Nat)
deriving DecidableEq, Repr

/-- Lane-by-lane operations on two sources (14 R349, R354). -/
inductive VBin where
  | add | sub | mul | fma | fms | min | max | and | or | xor | shl | shr | sra | extr
deriving DecidableEq, Repr

/-- Lane-by-lane operations on one source (14 R349, R353, R354, R356). -/
inductive VUn where
  | abs | neg | not | mov | rcp | rsq | sqrt | exp2 | log2 | clz | popc
deriving DecidableEq, Repr

inductive VCc where
  | eq | ne | lt | le | gt | ge | un
deriving DecidableEq, Repr

/-- Reduction operators of VRED, VSCAN, GRED and GVRED (14 R358, R363). -/
inductive RedOp where
  | sum | min | max | and | or | xor
deriving DecidableEq, Repr

inductive VoteMode where
  | any | all | eq | cnt | pre
deriving DecidableEq, Repr

/-- V-class instructions (14). flag is SAT, or HI for VMUL. -/
inductive VIns where
  | bin (op : VBin) (flag : Bool) (t : Ty) (k vd va vb : Nat)
  | un (op : VUn) (flag : Bool) (t : Ty) (k vd va : Nat)
  | cmp (cc : VCc) (t : Ty) (k kd va vb : Nat)
  | sel (t : Ty) (k vd va vb : Nat)
  | bcast (t : Ty) (k vd : Nat) (x : Src)
  | cvt (dst src : Ty) (sat sr : Bool) (k vd va : Nat)
  | iota (abs : Bool) (t : Ty) (k vd : Nat)
  | shuf (t : Ty) (k vd va vb : Nat)
  | red (scan : Bool) (op : RedOp) (t : Ty) (k vd va : Nat) (vi : Option Nat)
  | vote (m : VoteMode) (k vd ka : Nat)
  | topk (t : Ty) (k vd vi va log2K : Nat)
  | klog (op : QOp) (k kd ka kb : Nat)
  | knot (k kd ka : Nat)
deriving DecidableEq, Repr

inductive MulOp where
  | mma | mmas | lrma
deriving DecidableEq, Repr

inductive EwOp where
  | add | sub | mul | min | max
deriving DecidableEq, Repr

/-- M-class instructions (15). -/
inductive MIns where
  | mul (op : MulOp) (acc : Bool) (a b hA tA hB tB : Nat)
  | quant (sr : Bool) (tA hA tB hB : Nat)
  | deq (tA hA tB hB : Nat)
  | cvt (sat sr : Bool) (tA hA tB hB : Nat)
  | trans (tA hA tB hB : Nat)
  | zero (tA hA : Nat)
  | ew (op : EwOp) (brow : Bool) (tA hA tB hB : Nat)
  | aczero (a b hA : Nat)
  | acload (a b tA hA : Nat)
  | acdrain (sat sr : Bool) (a b tA hA : Nat)
  | acalloc (col : Bool) (a n c : Nat)
  | acfree (col : Bool) (a n : Nat)
  | acown (col : Bool) (a n b cnt m : Nat)
  | shsetH (h v : Nat)
  | shsetT (t v : Nat)
  | shgetH (v h : Nat)
  | shgetT (v t : Nat)
  | fmtset (x : W32)
deriving DecidableEq, Repr

/-- X-class instructions (14 R363). -/
inductive XIns where
  | gshuf (rot : Bool) (p q dst src : Nat)
  | gbcast (m q dst src : Nat)
  | gred (op : RedOp) (t : Ty) (q dst src : Nat)
  | gallg (p q dst src : Nat)
  | gvshuf (wide : Bool) (vi q dst src : Nat)
  | gvred (op : RedOp) (t : Ty) (q dst src : Nat)
deriving DecidableEq, Repr

/-- The base of a D-class address: a scalar, or the vector pair vN, vN+1 (16 R393). -/
inductive Base where
  | scalar (s : Src)
  | pair (n : Nat)
deriving DecidableEq, Repr

/-- An address: the base and the displacement, 0 when X = 0. -/
structure Addr where
  base : Base
  disp : W64
deriving DecidableEq, Repr

/-- How a vector load or store places its lanes: l, l mod 16, or per-lane addresses. -/
inductive Spread where
  | unit | same | indexed
deriving DecidableEq, Repr

inductive Scope where
  | gang | die | pkg | sys
deriving DecidableEq, Repr

inductive AtOp where
  | add | min | max | and | or | xor | xchg | fadd | cas
deriving DecidableEq, Repr

/-- The register that a value is returned in, or nothing. -/
inductive Dst where
  | none
  | s (n : Nat)
  | v (n : Nat)
deriving DecidableEq, Repr

/-- A value operand of a vector atomic: lanes of a vector, or one value for every lane. -/
inductive VSrc where
  | vec (n : Nat)
  | all (s : Src)
deriving DecidableEq, Repr

/-- The completion target of an async instruction: a flag of F or a barrier object (16 R399). -/
inductive Sync where
  | flag (n : Nat)
  | barrier (n : Nat)
deriving DecidableEq, Repr

inductive FenceKind where
  | acq | rel | ar
deriving DecidableEq, Repr

/-- D-class instructions (16, 17). f is the landing field. -/
inductive DIns where
  | ld (bytes : Nat) (signed : Bool) (d : Nat) (a : Addr) (f hint : Nat)
  | vld (sp : Spread) (d : Nat) (a : Addr) (f hint : Nat)
  | st (bytes : Nat) (data : Src) (a : Addr)
  | vst (sp : Spread) (d k : Nat) (a : Addr)
  | pref (a : Addr) (hint : Nat)
  | tile (store : Bool) (sy : Sync) (t h g : Nat) (a : Addr)
  | ptile (store : Bool) (b t h g : Nat) (a : Addr)
  | tcopy (b v : Nat)
  | tmcast (sy : Sync) (v : Nat)
  | tperm (sy : Sync) (v : Nat)
  | fence (k : FenceKind) (sc : Scope)
  | drain (sc : Scope)
  | at (op : AtOp) (sc : Scope) (d : Nat) (a : Addr) (o : Src)
  | vat (op : AtOp) (sc : Scope) (d : Dst) (a : Addr) (o : VSrc)
  | fget (d c : Nat) (a : Addr) (f : Nat)
  | fput (d : Nat) (a : Addr) (v : Src)
  | fpoll (d : Nat) (a : Addr) (f : Nat)
  | lock (d : Nat) (a : Addr)
  | trylock (d : Nat) (a : Addr)
  | unlock (d : Nat) (a : Addr)
  | qpush (d : Nat) (a : Addr) (v : Src)
  | qpop (d c : Nat) (a : Addr) (f : Nat)
  | qresv (d : Nat) (a : Addr)
  | barinit (d b : Nat) (v : Src)
  | bararr (d b : Nat) (v : Src)
  | barexp (d b : Nat) (v : Src)
  | dcset (d : Nat) (a : Addr) (v : Src)
  | dcdec (d : Nat) (a : Addr)
  | spawn (d : Nat) (a : Addr)
  | plset (d : Nat) (a : Addr) (v : Src)
  | plget (d : Nat) (a : Addr) (v : Src)
  | adpin (d : Nat) (v : Src)
  | adunpin (d : Nat) (v : Src)
  | harvest (d : Nat)
deriving DecidableEq, Repr

/-- One decoded syllable. -/
inductive Ins where
  | s (i : SIns)
  | v (i : VIns)
  | m (i : MIns)
  | x (i : XIns)
  | d (i : DIns)
deriving DecidableEq, Repr

end Sys2Proof.Irnov
end

