-- ==== Sys2Proof/Machine/BundleDecode.lean ====
section
/-! DEFINITION. Decoding a bundle (12 R298 to R311, R314 and the field rules of 13 to 17): header, literals, operand codes,
every opcode of the five slot classes, the registers an instruction writes (R205). -/

namespace Sys2Proof.Machine
open Sys2Proof.Irnov

/-- A fetched bundle: its eight syllables, header first (R298). -/
structure Bundle where
  words : Vector W32 8
deriving DecidableEq, Repr

namespace Bundle
def word (b : Bundle) (j : Nat) : W32 := b.words.getD j 0
/-- PRES as a mask over syllables: bit n − 1 for syllable n (R299). -/
def pres (b : Bundle) : BitVec 7 := (b.word 0).extractLsb' 0 7
def lit (b : Bundle) : BitVec 7 := (b.word 0).extractLsb' 7 7
def yields (b : Bundle) : Bool := (b.word 0).getLsbD 14
/-- A reserved header bit, or a LIT bit without its PRES bit (R314). -/
def badHeader (b : Bundle) : Bool := (b.word 0).extractLsb' 15 17 != 0 || (b.lit &&& ~~~ b.pres) != 0
def isLit (b : Bundle) (n : Nat) : Bool := 1 ≤ n && n ≤ 7 && b.lit.getLsbD (n - 1)
def isIns (b : Bundle) (n : Nat) : Bool := 1 ≤ n && n ≤ 7 && b.pres.getLsbD (n - 1) && !b.lit.getLsbD (n - 1)
/-- The literal in syllable n, if it is one. -/
def litAt (b : Bundle) (n : Nat) : Option W32 := if b.isLit n then some (b.word n) else none
/-- Literal syllables in ascending order. -/
def lits (b : Bundle) : List W32 := ((List.range 8).filter b.isLit).map b.word
def litLowest (b : Bundle) : Option W32 := b.lits.head?
def litHighest (b : Bundle) : Option W32 := b.lits.reverse.head?
def litSecond (b : Bundle) : Option W32 := b.lits.reverse.tail.head?
end Bundle

/-- What decoding needs beside the bundle: the scalar budget 16 × SREG (R91), NBAR, the crew's NT. -/
structure DecEnv where
  bundle : Bundle
  budget : Nat
  nbar : Nat
  nt : Nat
deriving DecidableEq, Repr

/-- Bits [lo+len−1:lo] of a syllable as a number. -/
def fld (w : W32) (lo len : Nat) : Nat := (w.extractLsb' lo len).toNat

def opcode (w : W32) : Nat := fld w 25 7

/-- Whether the context's budget holds s n (R91): s0 to s(16 × SREG − 17) and s144 to s159. -/
def inBudget (budget n : Nat) : Bool := (decide (n + 17 ≤ budget) || decide (144 ≤ n)) && decide (n ≤ 159)

/-- A scalar register named by an operand code. -/
def DecEnv.sreg (env : DecEnv) (code : Nat) : Option Nat := if inBudget env.budget code then some code else none

/-- An operand code read as a scalar or a literal (R302). -/
def DecEnv.src (env : DecEnv) (code : Nat) : Option Src :=
  if code ≤ 159 then (env.sreg code).map Src.reg
  else if 241 ≤ code ∧ code ≤ 247 then (env.bundle.litAt (code - 240)).map Src.lit
  else none

/-- A vector named by an operand code. -/
def vcode (code : Nat) : Option Nat := if 192 ≤ code ∧ code ≤ 223 then some (code - 192) else none

/-- A c, k or q number held in an 8-bit field (R303). -/
def num8 (x : Nat) : Option Nat := if x < 8 then some x else none

/-- A mask register held in a 5-bit field (R345). -/
def kfield (x : Nat) : Option Nat := if x < 8 then some x else none

/-- Type codes of R144; 0xF is reserved. -/
def tyOf : Nat → Option Ty
  | 0 => some .ui8 | 1 => some .ui16 | 2 => some .ui32 | 3 => some .ui64
  | 4 => some .si8 | 5 => some .si16 | 6 => some .si32 | 7 => some .si64
  | 8 => some .f64 | 9 => some .f32 | 10 => some .f16 | 11 => some .bf16
  | 12 => some .e4m3 | 13 => some .e5m2 | 14 => some .bp
  | _ => none

def tyWidth : Ty → Nat
  | .ui8 => 8 | .ui16 => 16 | .ui32 => 32 | .ui64 => 64 | .si8 => 8 | .si16 => 16 | .si32 => 32 | .si64 => 64
  | .f64 => 64 | .f32 => 32 | .f16 => 16 | .bf16 => 16 | .e4m3 => 8 | .e5m2 => 8 | .bp => 8

/-- The floating format of a type of class F or F8 (R346). -/
def tyF : Ty → Option FFmt
  | .f64 => some .f64 | .f32 => some .f32 | .f16 => some .f16 | .bf16 => some .bf16 | .e4m3 => some .e4m3
  | .e5m2 => some .e5m2 | _ => none
/-- The .ui and .si types. -/
def tyInt : Ty → Bool
  | .ui8 | .ui16 | .ui32 | .ui64 | .si8 | .si16 | .si32 | .si64 => true
  | _ => false
def tySigned : Ty → Bool
  | .si8 | .si16 | .si32 | .si64 => true
  | _ => false
/-- Class F of R346. -/
def tyClassF : Ty → Bool
  | .f64 | .f32 | .f16 | .bf16 => true
  | _ => false
def tyFI (t : Ty) : Bool := tyInt t || tyClassF t
/-- Class any: every type but .bp. -/
def tyAny (t : Ty) : Bool := t != .bp

/-- Keep x when the condition holds. -/
def must (b : Bool) (x : α) : Option α := if b then some x else none

/-! ## S class (13) -/

/-- Opcodes of the S class that are assigned (R307, R311). -/
def sAssigned (op : Nat) : Bool :=
  decide (op ≤ 0x28) || (decide (0x30 ≤ op) && decide (op ≤ 0x3A)) || (decide (0x40 ≤ op) && decide (op ≤ 0x51)) ||
    (decide (0x60 ≤ op) && decide (op ≤ 0x69))

/-- The S1-only group (R307). -/
def s1Only (op : Nat) : Bool := decide (0x40 ≤ op) && decide (op ≤ 0x51)

def sext21 (x : Nat) : Int := if x < 2 ^ 20 then x else (x : Int) - 2 ^ 21

/-- An SG or SW count taken from a literal: it must exist and be nonzero (R306, R314). -/
def litCount (l : Option W32) : Option Nat := l.bind fun w => must (w != 0) w.toNat

/-- The counts that fields elsedisp and joindisp stand for (R300). -/
def sgCounts (b : Bundle) (e j : Nat) : Option (Nat × Nat) := do
  let x ← if e = 0 then litCount b.litHighest else some e
  let y ← if j = 0 then litCount (if e = 0 then b.litSecond else b.litHighest) else some j
  return (x, y)

/-- The b operand of an SA integer instruction. -/
def decB (env : DecEnv) (w : W32) : Option Src :=
  if w.getLsbD 24 then some (Src.imm ((w.extractLsb' 0 8).signExtend 64)) else env.src (fld w 0 8)

/-- SA integer instruction: d, a and the b operand. -/
def decAlu (env : DecEnv) (w : W32) (op : AluOp) : Option SIns := do
  let d ← env.sreg (fld w 16 8)
  let a ← env.src (fld w 8 8)
  let b ← decB env w
  return .alu op d a b

def decUn (env : DecEnv) (w : W32) (op : UnOp) : Option SIns := do
  let d ← env.sreg (fld w 16 8)
  let a ← env.src (fld w 8 8)
  must (!w.getLsbD 24 && fld w 0 8 == 0) (.un op d a)

def decCmp (env : DecEnv) (w : W32) (op : ICmp) : Option SIns := do
  let c ← num8 (fld w 16 8)
  let a ← env.src (fld w 8 8)
  let b ← decB env w
  return .cmp op c a b

def decFArith (env : DecEnv) (w : W32) (op : FOp) : Option SIns := do
  let d ← env.sreg (fld w 16 8)
  let a ← env.src (fld w 8 8)
  let b ← env.src (fld w 0 8)
  return .farith op (w.getLsbD 24) d a b

def decFCmp (env : DecEnv) (w : W32) (op : FCmp) : Option SIns := do
  let c ← num8 (fld w 16 8)
  let a ← env.src (fld w 8 8)
  let b ← env.src (fld w 0 8)
  return .fcmp op (w.getLsbD 24) c a b

/-- The system registers of R313. -/
def sysListed (n : Nat) : Bool :=
  decide (n ≤ 9) || (decide (0x10 ≤ n) && decide (n ≤ 0x15)) || (decide (0x20 ≤ n) && decide (n ≤ 0x25)) ||
    (decide (0x100 ≤ n) && decide (n ≤ 0x106))

def decQ3 (w : W32) (op : QOp) : Option SIns := do
  let d ← num8 (fld w 16 8)
  let a ← num8 (fld w 8 8)
  let b ← num8 (fld w 0 8)
  must (!w.getLsbD 24) (.qlog op d a b)

/-- A Q-group instruction of two fields, b zero. -/
def decQ2 (w : W32) (f : Nat → Nat → SIns) : Option SIns := do
  let d ← num8 (fld w 16 8)
  let a ← num8 (fld w 8 8)
  must (!w.getLsbD 24 && fld w 0 8 == 0) (f d a)

/-- A Q-group instruction that writes a scalar. -/
def decQS (env : DecEnv) (w : W32) (f : Nat → Nat → SIns) : Option SIns := do
  let d ← env.sreg (fld w 16 8)
  let a ← num8 (fld w 8 8)
  must (!w.getLsbD 24 && fld w 0 8 == 0) (f d a)

/-- An assigned S-class syllable; none is ILLEGAL. -/
def decS (env : DecEnv) (w : W32) : Option SIns :=
  let i := w.getLsbD 24
  let zero := fld w 0 25 == 0
  match opcode w with
  | 0x00 => must zero .snop
  | 0x01 => decAlu env w .add
  | 0x02 => decAlu env w .sub
  | 0x03 => decAlu env w .mul
  | 0x04 => decAlu env w .mulh
  | 0x05 => decAlu env w .mulhu
  | 0x06 => decAlu env w .div
  | 0x07 => decAlu env w .divu
  | 0x08 => decAlu env w .rem
  | 0x09 => decAlu env w .remu
  | 0x0A => decAlu env w .and
  | 0x0B => decAlu env w .or
  | 0x0C => decAlu env w .xor
  | 0x0D => decAlu env w .andn
  | 0x0E => decAlu env w .orn
  | 0x0F => decAlu env w .shl
  | 0x10 => decAlu env w .shr
  | 0x11 => decAlu env w .sra
  | 0x12 => decAlu env w .rot
  | 0x13 => decAlu env w .min
  | 0x14 => decAlu env w .max
  | 0x15 => decAlu env w .minu
  | 0x16 => decAlu env w .maxu
  | 0x17 => decUn env w .clz
  | 0x18 => decUn env w .ctz
  | 0x19 => decUn env w .popc
  | 0x1A => decUn env w .brev
  | 0x1B => decAlu env w .sext
  | 0x1C => decAlu env w .zext
  | 0x1D => decAlu env w .bfx
  | 0x1E => decAlu env w .bfi
  | 0x1F => decAlu env w .lea
  | 0x20 => do
    let d ← env.sreg (fld w 16 8)
    let a ← env.src (fld w 8 8)
    must (!i && fld w 4 4 == 0) (.sel d a (fld w 0 3) (w.getLsbD 3))
  | 0x21 => decCmp env w .eq
  | 0x22 => decCmp env w .ne
  | 0x23 => decCmp env w .lt
  | 0x24 => decCmp env w .ltu
  | 0x25 => decCmp env w .ge
  | 0x26 => decCmp env w .geu
  | 0x27 => decUn env w .mov
  | 0x28 => decAlu env w .ldi
  | 0x30 => decFArith env w .add
  | 0x31 => decFArith env w .sub
  | 0x32 => decFArith env w .mul
  | 0x33 => decFArith env w .fma
  | 0x34 => decFArith env w .min
  | 0x35 => decFArith env w .max
  | 0x36 => decFCmp env w .eq
  | 0x37 => decFCmp env w .lt
  | 0x38 => decFCmp env w .le
  | 0x39 => do
    let d ← env.sreg (fld w 16 8)
    let a ← env.src (fld w 8 8)
    let src ← tyOf (fld w 4 4)
    let dst ← tyOf (fld w 0 4)
    must (tyAny src && tyAny dst && src != dst && !(tyInt src && tyInt dst)) (.fcvt i dst src d a)
  | 0x3A => do
    let d ← env.sreg (fld w 16 8)
    let a ← env.src (fld w 8 8)
    must (fld w 0 8 == 0) (.fclass i d a)
  | 0x40 => some (.br (fld w 22 3) (w.getLsbD 21) (sext21 (fld w 0 21)))
  | 0x41 => must (fld w 21 4 == 0) (.jmp (sext21 (fld w 0 21)))
  | 0x42 => must (fld w 21 4 == 0) (.call (sext21 (fld w 0 21)))
  | 0x43 => must zero .ret
  | 0x44 => do
    let d ← env.sreg (fld w 16 8)
    let a ← env.src (fld w 8 8)
    must (!i && fld w 0 8 == 0) (.jr d a)
  | 0x45 => must (!w.getLsbD 21) (.loop (144 + fld w 22 3) (sext21 (fld w 0 21)))
  | 0x46 => do
    let (e, j) ← sgCounts env.bundle (fld w 10 10) (fld w 0 10)
    return .divg (fld w 22 3) (w.getLsbD 20) (w.getLsbD 21) e j
  | 0x47 => do
    let j ← litCount env.bundle.litHighest
    must (fld w 0 12 != 0) (.dswitch (fld w 20 5) (fld w 12 8 + 1) (fld w 0 12) j)
  | 0x48 => must zero .endp
  | 0x49 => do
    let a ← num8 (fld w 8 8)
    must (!i && fld w 16 8 == 0 && fld w 0 8 == 0) (.ekill a)
  | 0x4A => do
    let m ← decB env w
    must (fld w 18 6 == 0 && fld w 8 8 == 0) (.wait (w.getLsbD 16) (w.getLsbD 17) m)
  | 0x4B => must zero .exit
  | 0x4C => do
    let m ← decB env w
    must (fld w 8 16 == 0) (.trap m)
  | 0x4D => do
    let m ← decB env w
    must (fld w 8 16 == 0) (.resume m)
  | 0x4E => do
    let d ← env.sreg (fld w 17 8)
    must (fld w 0 5 == 0 && sysListed (fld w 5 12)) (.sysr d (fld w 5 12))
  | 0x4F => do
    let a ← env.src (fld w 17 8)
    must (fld w 0 5 == 0 && sysListed (fld w 5 12)) (.sysw (fld w 5 12) a)
  | 0x50 => must zero .ifence
  | 0x51 => must zero .bkpt
  | 0x60 => do
    let d ← num8 (fld w 16 8)
    let b ← decB env w
    must (fld w 8 8 == 0) (.qset d b)
  | 0x61 => decQ3 w .and
  | 0x62 => decQ3 w .or
  | 0x63 => decQ3 w .xor
  | 0x64 => decQ2 w .qnot
  | 0x65 => decQ2 w (.qk false)
  | 0x66 => decQ2 w (.qk true)
  | 0x67 => decQS env w .qpopc
  | 0x68 => decQS env w .qfirst
  | 0x69 => decQS env w .qmov
  | _ => none

/-! ## V class (14) -/

def vAssigned (op : Nat) : Bool := decide (op ≤ 0x26)

structure VFields where
  k : Nat
  vd : Nat
  va : Nat
  vb : Nat
  ty : Nat
  mod : Nat
deriving DecidableEq, Repr

def vFields (w : W32) : VFields := ⟨fld w 22 3, fld w 17 5, fld w 12 5, fld w 7 5, fld w 3 4, fld w 0 3⟩

/-- A two-source instruction; flagOk says whether mod[0] may be set for the type. -/
def decVBin (f : VFields) (op : VBin) (tyOk : Ty → Bool) (flagOk : Ty → Bool) : Option VIns := do
  let t ← tyOf f.ty
  must (tyOk t && (f.mod == 0 || (f.mod == 1 && flagOk t))) (.bin op (f.mod == 1) t f.k f.vd f.va f.vb)

def decVUn (f : VFields) (op : VUn) (tyOk : Ty → Bool) (flagOk : Ty → Bool) : Option VIns := do
  let t ← tyOf f.ty
  must (tyOk t && f.vb == 0 && (f.mod == 0 || (f.mod == 1 && flagOk t))) (.un op (f.mod == 1) t f.k f.vd f.va)

def noFlag (_ : Ty) : Bool := false

def tyApprox (t : Ty) : Bool := t == .f32 || t == .f16 || t == .bf16

def ccOf : Nat → Option VCc
  | 0 => some .eq | 1 => some .ne | 2 => some .lt | 3 => some .le | 4 => some .gt | 5 => some .ge | 6 => some .un
  | _ => none

def voteOf : Nat → Option VoteMode
  | 0 => some .any | 1 => some .all | 2 => some .eq | 3 => some .cnt | 4 => some .pre
  | _ => none

/-- VRED and VSCAN (R358). -/
def decVRed (f : VFields) (scan : Bool) : Option VIns := do
  let t ← tyOf f.ty
  match f.mod with
  | 0 => must (tyFI t && f.vb == 0) (.red scan .sum t f.k f.vd f.va none)
  | 1 => must (tyFI t && f.vb == 0) (.red scan .min t f.k f.vd f.va none)
  | 2 => must (tyFI t && f.vb == 0) (.red scan .max t f.k f.vd f.va none)
  | 3 => must (tyFI t && !scan && f.vb != f.vd) (.red scan .min t f.k f.vd f.va (some f.vb))
  | 4 => must (tyFI t && !scan && f.vb != f.vd) (.red scan .max t f.k f.vd f.va (some f.vb))
  | 5 => must (tyInt t && f.vb == 0) (.red scan .and t f.k f.vd f.va none)
  | 6 => must (tyInt t && f.vb == 0) (.red scan .or t f.k f.vd f.va none)
  | _ => must (tyInt t && f.vb == 0) (.red scan .xor t f.k f.vd f.va none)

def decKlog (f : VFields) (op : QOp) : Option VIns := do
  let d ← kfield f.vd
  let a ← kfield f.va
  let b ← kfield f.vb
  must (f.ty == 0 && f.mod == 0) (.klog op f.k d a b)

def decV (env : DecEnv) (w : W32) : Option VIns :=
  let f := vFields w
  match opcode w with
  | 0x00 => decVBin f .add tyFI tyInt
  | 0x01 => decVBin f .sub tyFI tyInt
  | 0x02 => decVBin f .mul tyFI tyInt
  | 0x03 => decVBin f .fma tyFI noFlag
  | 0x04 => decVBin f .fms tyFI noFlag
  | 0x05 => decVBin f .min tyFI noFlag
  | 0x06 => decVBin f .max tyFI noFlag
  | 0x07 => decVUn f .abs tyFI tyInt
  | 0x08 => decVUn f .neg tyFI tyInt
  | 0x09 => decVBin f .and tyAny noFlag
  | 0x0A => decVBin f .or tyAny noFlag
  | 0x0B => decVBin f .xor tyAny noFlag
  | 0x0C => decVUn f .not tyAny noFlag
  | 0x0D => decVBin f .shl tyInt noFlag
  | 0x0E => decVBin f .shr tyInt noFlag
  | 0x0F => decVBin f .sra tyInt noFlag
  | 0x10 => do
    let t ← tyOf f.ty
    let cc ← ccOf f.mod
    let kd ← kfield f.vd
    must (tyFI t && (cc != .un || tyClassF t)) (.cmp cc t f.k kd f.va f.vb)
  | 0x11 => do
    let t ← tyOf f.ty
    must (tyAny t && f.mod == 0) (.sel t f.k f.vd f.va f.vb)
  | 0x12 => decVUn f .mov tyAny noFlag
  | 0x13 => do
    let t ← tyOf f.ty
    let x ← env.src (fld w 9 8)
    must (tyAny t && fld w 7 2 == 0 && f.mod == 0) (.bcast t f.k f.vd x)
  | 0x14 => decVBin f .extr tyInt noFlag
  | 0x15 => do
    let dst ← tyOf f.ty
    let src ← tyOf (f.vb % 16)
    let sat := f.mod % 2 == 1
    let sr := f.mod / 2 % 2 == 1
    must (f.vb < 16 && f.mod < 4 && tyAny dst && tyAny src && dst != src && !(sr && tyInt dst && tyInt src) &&
      !(sat && !tyInt src && tyInt dst)) (.cvt dst src sat sr f.k f.vd f.va)
  | 0x16 => decVUn f .rcp tyApprox noFlag
  | 0x17 => decVUn f .rsq tyApprox noFlag
  | 0x18 => decVUn f .sqrt tyClassF noFlag
  | 0x19 => decVUn f .exp2 tyApprox noFlag
  | 0x1A => decVUn f .log2 tyApprox noFlag
  | 0x1B => decVUn f .clz tyInt noFlag
  | 0x1C => decVUn f .popc tyInt noFlag
  | 0x1D => do
    let t ← tyOf f.ty
    must (tyInt t && f.va == 0 && f.vb == 0 && f.mod < 2) (.iota (f.mod == 1) t f.k f.vd)
  | 0x1E => do
    let t ← tyOf f.ty
    must (tyAny t && f.mod == 0) (.shuf t f.k f.vd f.va f.vb)
  | 0x1F => decVRed f false
  | 0x20 => decVRed f true
  | 0x21 => do
    let m ← voteOf f.mod
    let ka ← kfield f.va
    must (f.ty == 2 && f.vb == 0 && (m == .cnt || m == .pre || f.vd < 8)) (.vote m f.k f.vd ka)
  | 0x22 => do
    let t ← tyOf f.ty
    must (tyFI t && f.vb != f.vd) (.topk t f.k f.vd f.vb f.va f.mod)
  | 0x23 => decKlog f .and
  | 0x24 => decKlog f .or
  | 0x25 => decKlog f .xor
  | 0x26 => do
    let d ← kfield f.vd
    let a ← kfield f.va
    must (f.vb == 0 && f.ty == 0 && f.mod == 0) (.knot f.k d a)
  | _ => none

/-! ## M class (15) -/

def mAssigned (op : Nat) : Bool := decide (op ≤ 0x11)

structure MFields where
  acc : Nat
  hA : Nat
  tA : Nat
  hB : Nat
  tB : Nat
  mod : Nat
deriving DecidableEq, Repr

def mFields (w : W32) : MFields := ⟨fld w 19 6, fld w 16 3, fld w 12 4, fld w 9 3, fld w 5 4, fld w 0 5⟩

/-- The multiplies (R373): mod[4:2] band, mod[1] zero, mod[0] ACC. -/
def decMul (f : MFields) (op : MulOp) : Option MIns :=
  must (f.mod / 2 % 2 == 0) (.mul op (f.mod % 2 == 1) f.acc (f.mod / 4) f.hA f.tA f.hB f.tB)

def ewOf : Nat → Option EwOp
  | 0 => some .add | 1 => some .sub | 2 => some .mul | 3 => some .min | 4 => some .max
  | _ => none

/-- The bank set of ACALLOC, ACFREE and ACOWN (R386): .COL and n, when the set is legal. -/
def decBanks (f : MFields) : Option (Bool × Nat) :=
  let n := f.mod % 16 + 1
  let col := f.mod / 16 == 1
  must (if col then decide (n ≤ 4) else decide (f.acc + n ≤ 64)) (col, n)

def decM (env : DecEnv) (w : W32) : Option MIns :=
  let f := mFields w
  match opcode w with
  | 0x00 => decMul f .mma
  | 0x01 => decMul f .mmas
  | 0x02 => decMul f .lrma
  | 0x03 => must (f.acc == 0 && f.mod < 2) (.quant (f.mod == 1) f.tA f.hA f.tB f.hB)
  | 0x04 => must (f.acc == 0 && f.mod == 0) (.deq f.tA f.hA f.tB f.hB)
  | 0x05 => must (f.acc == 0 && f.mod < 4) (.cvt (f.mod % 2 == 1) (f.mod / 2 == 1) f.tA f.hA f.tB f.hB)
  | 0x06 => must (f.acc == 0 && f.mod == 0) (.trans f.tA f.hA f.tB f.hB)
  | 0x07 => must (f.acc == 0 && f.mod == 0 && f.hB == 0 && f.tB == 0) (.zero f.tA f.hA)
  | 0x08 => do
    let op ← ewOf (f.mod % 8)
    must (f.acc == 0 && f.mod < 16) (.ew op (f.mod / 8 == 1) f.tA f.hA f.tB f.hB)
  | 0x09 => must (f.tA == 0 && f.hB == 0 && f.tB == 0 && f.mod % 4 == 0) (.aczero f.acc (f.mod / 4) f.hA)
  | 0x0A => must (f.hB == 0 && f.tB == 0)
      (.acdrain (f.mod % 2 == 1) (f.mod / 2 % 2 == 1) f.acc (f.mod / 4) f.tA f.hA)
  | 0x0B => must (f.hB == 0 && f.tB == 0 && f.mod % 4 == 0) (.acload f.acc (f.mod / 4) f.tA f.hA)
  | 0x0C => do
    let (col, n) ← decBanks f
    must (f.tA == 0 && f.hB == 0 && f.tB == 0) (.acalloc col f.acc n f.hA)
  | 0x0D => do
    let (col, n) ← decBanks f
    must (f.hA == 0 && f.tA == 0 && f.hB == 0 && f.tB == 0) (.acfree col f.acc n)
  | 0x0E => do
    let (col, n) ← decBanks f
    let m := f.tA * 8 + f.tB % 8
    must (f.tB < 8 && f.hA + f.hB ≤ 7 && m < env.nt) (.acown col f.acc n f.hA (f.hB + 1) m)
  | 0x0F =>
    if f.acc < 32 then must (f.tA == 0 && f.hB == 0 && f.tB == 0 && f.mod == 0) (.shsetH f.hA f.acc)
    else must (f.hA == 0 && f.hB == 0 && f.tB == 0 && f.mod == 0) (.shsetT f.tA (f.acc - 32))
  | 0x10 =>
    if f.acc < 32 then must (f.tA == 0 && f.hB == 0 && f.tB == 0 && f.mod == 0) (.shgetH f.acc f.hA)
    else must (f.hA == 0 && f.hB == 0 && f.tB == 0 && f.mod == 0) (.shgetT (f.acc - 32) f.tA)
  | 0x11 => must (fld w 16 2 == 0) (.fmtset (BitVec.ofNat 32 (fld w 0 25)))
  | _ => none

/-! ## X class (14) -/

def xAssigned (op : Nat) : Bool := decide (op ≤ 0x05)

def redOf : Nat → Option RedOp
  | 0 => some .sum | 1 => some .min | 2 => some .max | 3 => some .and | 4 => some .or | 5 => some .xor
  | _ => none

def redTyOk (op : RedOp) (t : Ty) : Bool :=
  match op with
  | .sum => tyFI t | .min => tyFI t | .max => tyFI t
  | _ => tyInt t

def decX (w : W32) : Option XIns :=
  let q := fld w 22 3
  let dst := fld w 17 5
  let src := fld w 12 5
  let sel := fld w 4 8
  let mod := fld w 0 4
  match opcode w with
  | 0x00 => must (sel < 32 && mod == 0) (.gshuf (sel / 16 == 1) (sel % 16) q dst src)
  | 0x01 => must (sel < 16 && mod == 0) (.gbcast sel q dst src)
  | 0x02 => do
    let op ← redOf sel
    let t ← tyOf mod
    must (redTyOk op t) (.gred op t q dst src)
  | 0x03 => must (sel < 16 && mod == 0) (.gallg sel q dst src)
  | 0x04 => must (sel < 32 && mod < 2) (.gvshuf (mod == 1) sel q dst src)
  | 0x05 => do
    let op ← redOf sel
    let t ← tyOf mod
    must (redTyOk op t) (.gvred op t q dst src)
  | _ => none

/-! ## D class (16, 17) -/

def dAssigned (op : Nat) : Bool :=
  decide (op ≤ 0x1A) || (decide (0x20 ≤ op) && decide (op ≤ 0x43)) || (decide (0x50 ≤ op) && decide (op ≤ 0x63))

/-- The displacement: 0, or with X = 1 the lowest literal, sign-extended (R300, R301). -/
def decDisp (env : DecEnv) (w : W32) : Option W64 :=
  if w.getLsbD 0 then env.bundle.litLowest.map (·.signExtend 64) else some 0

/-- A base of either form (R393). -/
def decBase (env : DecEnv) (code : Nat) : Option Base :=
  match vcode code with
  | some n => must (n % 2 == 0) (.pair n)
  | none => (env.src code).map .scalar

def decAddr (env : DecEnv) (w : W32) (code : Nat) : Option Addr := do
  let b ← decBase env code
  let d ← decDisp env w
  return ⟨b, d⟩

/-- An address with a scalar base. -/
def decSAddr (env : DecEnv) (w : W32) (code : Nat) : Option Addr := do
  let s ← env.src code
  let d ← decDisp env w
  return ⟨.scalar s, d⟩

/-- An address with a vector-pair base. -/
def decVAddr (env : DecEnv) (w : W32) (code : Nat) : Option Addr := do
  let n ← vcode code
  let d ← decDisp env w
  must (n % 2 == 0) ⟨.pair n, d⟩

/-- The address of a memory object: a register base (R414). -/
def decObj (env : DecEnv) (w : W32) : Option Addr := do
  let n ← env.sreg (fld w 9 8)
  let d ← decDisp env w
  return ⟨.scalar (.reg n), d⟩

def decLd (env : DecEnv) (w : W32) (bytes : Nat) (signed : Bool) : Option DIns := do
  let d ← env.sreg (fld w 17 8)
  let a ← decSAddr env w (fld w 9 8)
  return .ld bytes signed d a (fld w 3 6) (fld w 1 2)

def decVld (env : DecEnv) (w : W32) (sp : Spread) : Option DIns := do
  let d ← vcode (fld w 17 8)
  let a ← if sp == .indexed then decVAddr env w (fld w 9 8) else decSAddr env w (fld w 9 8)
  return .vld sp d a (fld w 3 6) (fld w 1 2)

def decSt (env : DecEnv) (w : W32) (bytes : Nat) : Option DIns := do
  let d ← env.src (fld w 17 8)
  let a ← decSAddr env w (fld w 9 8)
  must (fld w 1 8 == 0) (.st bytes d a)

def decVst (env : DecEnv) (w : W32) (sp : Spread) : Option DIns := do
  let d ← vcode (fld w 17 8)
  let a ← if sp == .indexed then decVAddr env w (fld w 9 8) else decSAddr env w (fld w 9 8)
  must (fld w 4 5 == 0) (.vst sp d (fld w 1 3) a)

/-- The completion target of a DT syllable (R399). -/
def decSync (env : DecEnv) (w : W32) : Option Sync :=
  let n := fld w 20 5
  if w.getLsbD 4 then must (decide (n < env.nbar)) (.barrier n) else some (.flag n)

def decTile (env : DecEnv) (w : W32) (store : Bool) : Option DIns := do
  let sy ← decSync env w
  let a ← decAddr env w (fld w 5 8)
  return .tile store sy (fld w 16 4) (fld w 13 3) (fld w 1 3) a

def decPTile (env : DecEnv) (w : W32) (store : Bool) : Option DIns := do
  let sy ← decSync env w
  let a ← decAddr env w (fld w 5 8)
  match sy with
  | .barrier b => some (.ptile store b (fld w 16 4) (fld w 13 3) (fld w 1 3) a)
  | .flag _ => none

/-- The descriptor vector of TCOPY, TMCAST and TPERM: X, t, h and bits [3:1] zero (R404). -/
def decDesc (w : W32) : Option Nat := do
  let v ← vcode (fld w 5 8)
  must (fld w 13 7 == 0 && fld w 0 4 == 0) v

def scopeOf : Nat → Scope
  | 0 => .gang | 1 => .die | 2 => .pkg | _ => .sys

/-- The two forms of an atomic (R411). -/
def decAt (env : DecEnv) (w : W32) (op : AtOp) : Option DIns :=
  let sc := scopeOf (opcode w % 4)
  match vcode (fld w 9 8) with
  | some _ => do
    let a ← decVAddr env w (fld w 9 8)
    let d ← if fld w 17 8 = 0 then some Dst.none else (vcode (fld w 17 8)).map Dst.v
    let o ← match vcode (fld w 1 8) with
      | some n => some (VSrc.vec n)
      | none => (env.src (fld w 1 8)).map VSrc.all
    return .vat op sc d a o
  | none => do
    let a ← decSAddr env w (fld w 9 8)
    let d ← env.sreg (fld w 17 8)
    let o ← env.src (fld w 1 8)
    return .at op sc d a o

/-- A synchronisation instruction on a memory object without a value operand. -/
def decObj0 (env : DecEnv) (w : W32) (f : Nat → Addr → DIns) : Option DIns := do
  let d ← env.sreg (fld w 17 8)
  let a ← decObj env w
  must (fld w 1 8 == 0) (f d a)

/-- One with a value operand. -/
def decObjV (env : DecEnv) (w : W32) (f : Nat → Addr → Src → DIns) : Option DIns := do
  let d ← env.sreg (fld w 17 8)
  let a ← decObj env w
  let v ← env.src (fld w 1 8)
  return f d a v

/-- FGET and QPOP: C in val[7:5], L in val[4:0] (R417). -/
def decPop (env : DecEnv) (w : W32) (f : Nat → Nat → Addr → Nat → DIns) : Option DIns := do
  let d ← env.sreg (fld w 17 8)
  let a ← decObj env w
  return f d (fld w 6 3) a (fld w 1 5)

def decBar (env : DecEnv) (w : W32) (f : Nat → Nat → Src → DIns) : Option DIns := do
  let d ← env.sreg (fld w 17 8)
  let v ← env.src (fld w 1 8)
  must (!w.getLsbD 0 && fld w 9 8 < env.nbar && fld w 9 8 < 32) (f d (fld w 9 8) v)

def decTab (env : DecEnv) (w : W32) (f : Nat → Src → DIns) : Option DIns := do
  let d ← env.sreg (fld w 17 8)
  let v ← env.src (fld w 1 8)
  must (!w.getLsbD 0 && fld w 9 8 == 0) (f d v)

def atOpOf (op : Nat) : AtOp :=
  match (op - 0x20) / 4 with
  | 0 => .add | 1 => .min | 2 => .max | 3 => .and | 4 => .or | 5 => .xor | 6 => .xchg | 7 => .fadd | _ => .cas

def decD (env : DecEnv) (w : W32) : Option DIns :=
  match opcode w with
  | 0x00 => decLd env w 1 false
  | 0x01 => decLd env w 2 false
  | 0x02 => decLd env w 4 false
  | 0x03 => decLd env w 8 false
  | 0x04 => decLd env w 1 true
  | 0x05 => decLd env w 2 true
  | 0x06 => decLd env w 4 true
  | 0x07 => decSt env w 1
  | 0x08 => decSt env w 2
  | 0x09 => decSt env w 4
  | 0x0A => decSt env w 8
  | 0x0B => decVld env w .unit
  | 0x0C => decVld env w .same
  | 0x0D => decVld env w .indexed
  | 0x0E => decVst env w .unit
  | 0x0F => decVst env w .same
  | 0x10 => decVst env w .indexed
  | 0x11 => decTile env w false
  | 0x12 => decTile env w true
  | 0x13 => decPTile env w false
  | 0x14 => decPTile env w true
  | 0x15 => do
    let sy ← decSync env w
    let v ← decDesc w
    match sy with
    | .barrier b => some (.tcopy b v)
    | .flag _ => none
  | 0x16 => do
    let sy ← decSync env w
    let v ← decDesc w
    return .tmcast sy v
  | 0x17 => do
    let sy ← decSync env w
    let v ← decDesc w
    return .tperm sy v
  | 0x18 => do
    let a ← decSAddr env w (fld w 9 8)
    must (fld w 17 8 == 0 && fld w 3 6 == 0) (.pref a (fld w 1 2))
  | 0x19 =>
    let ok := fld w 9 16 == 0 && fld w 5 4 == 0 && !w.getLsbD 0
    match fld w 3 2 with
    | 1 => must ok (.fence .acq (scopeOf (fld w 1 2)))
    | 2 => must ok (.fence .rel (scopeOf (fld w 1 2)))
    | 3 => must ok (.fence .ar (scopeOf (fld w 1 2)))
    | _ => none
  | 0x1A => must (fld w 9 16 == 0 && fld w 3 6 == 0 && !w.getLsbD 0) (.drain (scopeOf (fld w 1 2)))
  | 0x50 => decPop env w .fget
  | 0x51 => decObjV env w .fput
  | 0x52 => do
    let d ← env.sreg (fld w 17 8)
    let _ ← env.sreg (d + 1)
    let a ← decObj env w
    must (fld w 7 2 == 0 && d % 2 == 0 && 2 ≤ d && d ≤ 158) (.fpoll d a (fld w 1 6))
  | 0x53 => decObj0 env w .lock
  | 0x54 => decObj0 env w .trylock
  | 0x55 => decObj0 env w .unlock
  | 0x56 => decObjV env w .qpush
  | 0x57 => decPop env w .qpop
  | 0x58 => decObj0 env w .qresv
  | 0x59 => decBar env w .barinit
  | 0x5A => decBar env w .bararr
  | 0x5B => decBar env w .barexp
  | 0x5C => decObjV env w .dcset
  | 0x5D => decObj0 env w .dcdec
  | 0x5E => decObj0 env w .spawn
  | 0x5F => decObjV env w .plset
  | 0x60 => decObjV env w .plget
  | 0x61 => decTab env w .adpin
  | 0x62 => decTab env w .adunpin
  | 0x63 => do
    let d ← env.sreg (fld w 17 8)
    must (fld w 0 17 == 0) (.harvest d)
  | op => if 0x20 ≤ op ∧ op ≤ 0x43 then decAt env w (atOpOf op) else none

/-! ## The bundle -/

/-- Whether the opcode of syllable n is assigned in its slot's class (R298, R311). -/
def slotAssigned (n op : Nat) : Bool :=
  match n with
  | 1 => sAssigned op | 2 => sAssigned op | 3 => vAssigned op | 4 => vAssigned op
  | 5 => mAssigned op | 6 => xAssigned op | _ => dAssigned op

/-- The instruction of word w as syllable n of the bundle; none is ILLEGAL (R314). -/
def decWord (env : DecEnv) (n : Nat) (w : W32) : Option Ins :=
  match n with
  | 1 => if s1Only (opcode w) then none else (decS env w).map .s
  | 2 => (decS env w).map .s
  | 3 => (decV env w).map .v
  | 4 => (decV env w).map .v
  | 5 => (decM env w).map .m
  | 6 => (decX w).map .x
  | _ => (decD env w).map .d

/-- An architectural register that a slot writes at retirement (R205). -/
inductive Loc where
  | s (n : Nat) | c (n : Nat) | q (n : Nat) | v (n : Nat) | k (n : Nat) | t (n : Nat) | h (n : Nat) | sys (n : Nat)
deriving DecidableEq, Repr

/-- Whether a write of the register is discarded and so is no writer (R304). -/
def Loc.discarded : Loc → Bool
  | .s n => n == 0
  | .c n => n == 0
  | .q n => n == 0
  | .k n => n == 0
  | _ => false

def sWrites : SIns → List Loc
  | .alu _ d _ _ => [.s d]
  | .un _ d _ => [.s d]
  | .sel d _ _ _ => [.s d]
  | .cmp _ c _ _ => [.c c]
  | .farith _ _ d _ _ => [.s d]
  | .fcmp _ _ c _ _ => [.c c]
  | .fcvt _ _ _ d _ => [.s d]
  | .fclass _ d _ => [.s d]
  | .call _ => [.s 158]
  | .jr d _ => [.s d]
  | .loop n _ => [.s n]
  | .endp => [.sys 1]
  | .sysr d _ => [.s d]
  | .sysw r _ => [.sys r]
  | .qset q _ => [.q q]
  | .qlog _ q _ _ => [.q q]
  | .qnot q _ => [.q q]
  | .qk _ q _ => [.q q]
  | .qpopc d _ => [.s d]
  | .qfirst d _ => [.s d]
  | .qmov d _ => [.s d]
  | .snop | .br .. | .jmp _ | .ret | .divg .. | .dswitch .. | .ekill _ | .wait .. | .exit | .trap _ | .resume _
  | .ifence | .bkpt => []

def vWrites : VIns → List Loc
  | .bin _ _ _ _ vd _ _ => [.v vd]
  | .un _ _ _ _ vd _ => [.v vd]
  | .cmp _ _ _ kd _ _ => [.k kd]
  | .sel _ _ vd _ _ => [.v vd]
  | .bcast _ _ vd _ => [.v vd]
  | .cvt _ _ _ _ _ vd _ => [.v vd]
  | .iota _ _ _ vd => [.v vd]
  | .shuf _ _ vd _ _ => [.v vd]
  | .red _ _ _ _ vd _ vi => .v vd :: vi.toList.map Loc.v
  | .vote m _ vd _ => if m = .cnt ∨ m = .pre then [.v vd] else [.k vd]
  | .topk _ _ vd vi _ _ => [.v vd, .v vi]
  | .klog _ _ kd _ _ => [.k kd]
  | .knot _ kd _ => [.k kd]

def mWrites : MIns → List Loc
  | .acalloc _ _ _ c => [.c c]
  | .shsetH h _ => [.h h]
  | .shsetT t _ => [.t t]
  | .shgetH v _ => [.v v]
  | .shgetT v _ => [.v v]
  | .fmtset _ => [.sys 1]
  | _ => []

def xWrites : XIns → List Loc
  | .gshuf _ _ _ d _ => [.v d]
  | .gbcast _ _ d _ => [.v d]
  | .gred _ _ _ d _ => [.v d]
  | .gallg _ _ d _ => [.v d]
  | .gvshuf _ _ _ d _ => [.v d]
  | .gvred _ _ _ d _ => [.v d]

/-- Registers that a D-class instruction writes at retirement; a landing is written later and is no slot's write
(log 17). -/
def dWrites : DIns → List Loc
  | .at _ _ d _ _ => [.s d]
  | .vat _ _ (.v n) _ _ => [.v n]
  | .fget _ c _ _ => [.c c]
  | .qpop _ c _ _ => [.c c]
  | .fput d _ _ | .lock d _ | .trylock d _ | .unlock d _ | .qpush d _ _ | .qresv d _ | .barinit d _ _ | .bararr d _ _
  | .barexp d _ _ | .dcset d _ _ | .dcdec d _ | .spawn d _ | .plset d _ _ | .plget d _ _ | .adpin d _ | .adunpin d _
  | .harvest d => [.s d]
  | _ => []

/-- The registers a slot writes, without the discarded ones. -/
def insWrites (i : Ins) : List Loc :=
  (match i with
   | .s x => sWrites x | .v x => vWrites x | .m x => mWrites x | .x x => xWrites x | .d x => dWrites x).filter
    (!·.discarded)

/-- A decode cause of a syllable (R314). -/
inductive DecCause where
  | unimpl | illegal
deriving DecidableEq, Repr

/-- Decoding of a word as syllable n: UNIMPL is found before ILLEGAL (R275). -/
def decodeSyllable (env : DecEnv) (n : Nat) (w : W32) : Except DecCause Ins :=
  if !slotAssigned n (opcode w) then .error .unimpl
  else match decWord env n w with
    | some i => .ok i
    | none => .error .illegal

/-- Decoding of syllable n of the bundle. -/
def decodeSlot (env : DecEnv) (n : Nat) : Except DecCause Ins := decodeSyllable env n (env.bundle.word n)

end Sys2Proof.Machine
end

