-- ==== Sys2Proof/Machine/Sparse.lean ====
section
/-! DEFINITION. Sparse data: maps from numbers to records as lists of pairs, and byte memories as lists of cells in one
canonical form (addresses strictly rising, no cell holding the value that an unlisted address reads as). -/

namespace Sys2Proof.Machine

/-- A map from numbers, keys rising. -/
abbrev AMap (α : Type) := List (Nat × α)

namespace AMap
variable {α : Type}

def find? (m : AMap α) (k : Nat) : Option α :=
  match m with
  | [] => none
  | (a, x) :: t => if a = k then some x else find? t k

def getD (m : AMap α) (k : Nat) (d : α) : α := (m.find? k).getD d

def insertSorted (m : AMap α) (k : Nat) (x : α) : AMap α :=
  match m with
  | [] => [(k, x)]
  | (a, y) :: t => if a < k then (a, y) :: insertSorted t k x else (k, x) :: (a, y) :: t

def del (m : AMap α) (k : Nat) : AMap α := m.filter (fun e => e.1 != k)

/-- The map with k bound to x. -/
def put (m : AMap α) (k : Nat) (x : α) : AMap α := (m.del k).insertSorted k x

def modify (m : AMap α) (k : Nat) (f : α → α) : AMap α :=
  match m.find? k with
  | some x => m.put k (f x)
  | none => m

def has (m : AMap α) (k : Nat) : Bool := (m.find? k).isSome

def keys (m : AMap α) : List Nat := m.map (·.1)
end AMap

/-- A byte memory. -/
abbrev Memory := List Host.Cell

namespace Memory

/-- The value at an address; dflt is what an unlisted address reads as. -/
def get (dflt : Byte) (m : Memory) (a : Nat) : Byte :=
  match m with
  | [] => dflt
  | (b, v) :: t => if b = a then v else get dflt t a

/-- The cells of bytes laid from an address upward; dflt is not listed. -/
def cellsOf (dflt : Byte) (a : Nat) (bs : List Byte) : Memory :=
  match bs with
  | [] => []
  | b :: t => if b = dflt then cellsOf dflt (a + 1) t else (a, b) :: cellsOf dflt (a + 1) t

/-- Bytes from an address upward. -/
def read (dflt : Byte) (m : Memory) (a n : Nat) : List Byte :=
  let w := m.filter fun c => decide (a ≤ c.1) && decide (c.1 < a + n)
  (List.range n).map fun i => get dflt w (a + i)

/-- Store bytes from an address upward: cells below and above stay. -/
def write (dflt : Byte) (m : Memory) (a : Nat) (bs : List Byte) : Memory :=
  m.filter (fun c => decide (c.1 < a)) ++ cellsOf dflt a bs ++ m.filter (fun c => decide (a + bs.length ≤ c.1))

/-- Store one byte. -/
def set (dflt : Byte) (m : Memory) (a : Nat) (v : Byte) : Memory := write dflt m a [v]

/-- The canonical form: addresses strictly rising and no listed byte equal to dflt. -/
def wf (dflt : Byte) (m : Memory) : Bool :=
  match m with
  | [] => true
  | (a, v) :: t =>
    v != dflt && (match t with
      | [] => true
      | (b, _) :: _ => decide (a < b)) && wf dflt t

end Memory

/-- Insertion before the first element with no smaller key. -/
def insertBy {α : Type} (key : α → Nat) (x : α) : List α → List α
  | [] => [x]
  | y :: t => if key x ≤ key y then x :: y :: t else y :: insertBy key x t

/-- A list in rising order of a key; elements of one key keep their order. -/
def sortBy {α : Type} (key : α → Nat) (l : List α) : List α := l.foldr (insertBy key) []

/-- The number whose low-order byte is first (00 R2: little-endian). -/
def leNat : List Byte → Nat
  | [] => 0
  | b :: t => b.toNat + 256 * leNat t

/-- The n low-order bytes of a number, lowest first. -/
def leBytes : Nat → Nat → List Byte
  | 0, _ => []
  | n + 1, x => BitVec.ofNat 8 x :: leBytes n (x / 256)

/-- The number with bit i set where f i holds, i below n. -/
def bitsOf (n : Nat) (f : Nat → Bool) : Nat :=
  (List.range n).foldl (fun acc i => if f i then acc + 2 ^ i else acc) 0

def mask16 (f : Nat → Bool) : BitVec 16 := BitVec.ofNat 16 (bitsOf 16 f)
def mask256 (f : Nat → Bool) : BitVec 256 := BitVec.ofNat 256 (bitsOf 256 f)

/-- 256 lanes from a function. -/
def laneTab (f : Nat → W32) : Vector W32 256 := ⟨⟨(List.range 256).map f⟩, by simp⟩

/-- The lowest set bit of a 16-bit mask. -/
def lowest16 (m : BitVec 16) : Option Nat := (List.range 16).find? m.getLsbD

def popcount (w n : Nat) : Nat := ((List.range w).filter n.testBit).length

end Sys2Proof.Machine
end

