-- ==== Sys2Proof/Machine/CoreState.lean ====
section
/-! DEFINITION. The state of a core as data: halves, contexts, landings, requests, crews, caches, store path, barrier
objects, accumulator banks (06 R143 to R171, 07 R180 to R202, 08 R207, 11 R277 to R290, 17 R423). -/

namespace Sys2Proof.Machine
open Sys2Proof.Irnov

/-- Kinds of reconvergence-stack entries (06 R162). -/
inductive StackKind where
  | divp | divj | split | swgrp | swjoin
deriving DecidableEq, Repr

/-- An entry of a reconvergence stack (06 R162). -/
structure StackEntry where
  kind : StackKind
  key : Nat
  pmask : BitVec 16
  smask : BitVec 16
  join : W64
  pend : W64
  fmt : W64
deriving DecidableEq, Repr

/-- One lane of an atomic: the lane, the physical address (or the scratchpad byte), operand and compare value, and the RRPV at which
the L2 takes the line (none: it does not; 07 R191). -/
structure AtLane where
  lane : Nat
  p : Nat
  o : Nat
  cmp : Nat
  rrpv : Option Nat
deriving DecidableEq, Repr

/-- Operations on sync objects at their home slices (05 R117, 17). qpush carries the index when it has one. -/
inductive SyncKind where
  | fget | fput | lock | trylock | unlock | qresv
  | qpush (idx : Option Nat)
  | qpop | dcset | dcdec
deriving DecidableEq, Repr

/-- A request that an instruction sends and whose answer it may be held for (05 R119, 16 R413, 17 R416). -/
inductive Req where
  | sync (k : SyncKind) (p : Nat) (va : W64) (v : W64) (rrpv : Option Nat)
  | atomic (op : AtOp) (width : Nat) (lanes : List AtLane)
  | spawn (p : Nat) (bytes : List Byte)
  | plset (p entry : Nat) (image : List Byte)
  | plget (p entry : Nat) (rrpv : Option Nat)
  | adpin (key : W64) (slot : Nat)
  | adunpin (tag : Nat)
  | harvest
  /-- PLSET or PLGET with a number above 255 (17 R430). -/
  | badnum (p : Nat)
deriving DecidableEq, Repr

/-- An answer: a status code of 17 R415 with INFO, a value, the values of a vector atomic's lanes, IEEE flags. -/
structure Answer where
  code : Nat
  info : Nat
  value : W64
  lanes : List (Nat × Nat)
  flags : Flags
  /-- The operation raises this trap cause at completion (UNDERFLOW), 0 for none (11 R275). -/
  trap : Nat
deriving DecidableEq, Repr

/-- The hold of a bundle at a waiting or held instruction: its request, the answer once it has come, and the bundle, which
stays in the sequencer. -/
structure Hold where
  req : Req
  answer : Option Answer
  bundle : Bundle
deriving DecidableEq, Repr

/-- A half blocked on a wait (05 R119, R121): operation, object, owner from the answer, whether it was deferred (else NACKed). -/
structure Block where
  kind : SyncKind
  va : W64
  p : Nat
  owner : Nat
  deferred : Bool
  /-- The chain walk has still to run (05 R121 step 3). -/
  walk : Bool
  /-- The waiting syllable and the bundle's syllables, which a trap at the walk reports (05 R123). -/
  word : W32
  resid : BitVec 7
  /-- The wait is satisfied, and the walk has still to end (05 R123, R126). -/
  done : Bool
deriving DecidableEq, Repr

/-- A fence that waits for earlier accesses (08 R216): variant, scope, and the place in the order of issue. -/
structure Fence where
  kind : FenceKind
  scope : Scope
  seq : Nat
deriving DecidableEq, Repr

/-- One sequencer's half of a context (06 R143, R166). While the gang is not split the main half is the context. -/
structure Half where
  /-- Address of the next bundle. -/
  pc : W64
  mask : BitVec 16
  /-- Engines killed by this half (06 R161, R170). -/
  killed : BitVec 16
  s : Vector W64 160
  /-- Which of s144 to s151 this half has written since the split (06 R170). -/
  sWritten : BitVec 8
  c : BitVec 8
  q : Vector (BitVec 16) 8
  t : Vector W64 16
  gmode : W64
  fmt : W64
  fstat : W64
  acstat : W64
  mesh : W64
  asid : W64
  tvec : W64
  stvec : W64
  tdeleg : W64
  cause : W64
  trapa : W64
  traps : W64
  trapx : W64
  trapv : W64
  /-- Reconvergence stack, top first. -/
  stack : List StackEntry
  /-- Program landing count and handler landing count (06 R152, 11 R281). -/
  count : Nat
  hcount : Nat
  /-- Syllables that a bundle re-issued by RESUME still holds (11 R282); none for an ordinary bundle. -/
  resid : Option (BitVec 7)
  /-- A RESUME with this slot mask has retired and waits for the handler's landings (11 R282). -/
  resuming : Option (BitVec 7)
  wake : Option Answer
  /-- That answer is of a wait made in handler mode (11 R296). -/
  wakeHnd : Bool
  hold : Option Hold
  block : Option Block
  /-- When the NACK retry timer expires (05 R128). -/
  retryAt : Option Nat
  fences : List Fence
  drain : Option Fence
  /-- An IFENCE still waits for the half's stores (13 R343). -/
  ifence : Option Nat
  /-- The first cycle of a freeze on a late landing (06 R155), by the count of cycles that are not throttled (01 R16). -/
  frozenAt : Option Nat
  /-- Arrived at the join, or ended by EXIT, in a split gang (06 R171). -/
  arrived : Bool
  ended : Bool
  /-- The cycle of the half's last retirement (06 R168). -/
  lastRetire : Nat
  /-- POISON of an async operation waits for the next bundle boundary: the granule's address (11 R285). -/
  poison : Option W64
  /-- WATCHDOG waits for the bundle held for its answer to complete (11 R286, R296). -/
  wdog : Bool
deriving DecidableEq, Repr

/-- A part of a load whose data has not arrived: the lane, the physical and the virtual address, the bytes, sign extension, a
64-bit destination, the RRPV at which the L2 takes the line (none: it does not), whether the L1 may take it, and whether it is read at the home slice
whatever the L1 holds (FPOLL, 17 R420). -/
structure LoadPart where
  lane : Nat
  p : Nat
  va : W64
  bytes : Nat
  signed : Bool
  wide : Bool
  rrpv : Option Nat
  fill : Bool
  home : Bool
deriving DecidableEq, Repr

/-- An open landing (06 R152 to R158, 11 R290). A scalar destination takes lanes 0 and 1, FPOLL lanes 0 to 3. -/
structure Landing where
  id : Nat
  spare : Bool
  hnd : Bool
  due : Nat
  dest : Nat
  lanes : BitVec 256
  emask : BitVec 16
  va : W64
  parts : List LoadPart
  data : Vector W32 256
  pois : Option W64
  spilled : Bool
  /-- Due at the bundle of a split join (06 R171). -/
  dueNow : Bool
  /-- Due when a half is frozen and its watchdog fires: the data is dropped (06 R155). -/
  dropped : Bool
  /-- Its data, fixed at issue, stands behind an array instruction's marks and has still to come (15 R370). -/
  behind : Bool
  /-- Place in the core's order of issue. -/
  seq : Nat
deriving DecidableEq, Repr

/-- Whether a landing's data is there. -/
def Landing.hasData (l : Landing) : Bool := l.parts.isEmpty && !l.behind

/-- A context (06 R143): what both halves share, and the halves. -/
structure Ctx where
  task : Nat
  member : Nat
  role : Nat
  roleMember : Nat
  /-- Scalar budget 16 × SREG (04 R91). -/
  budget : Nat
  spbase : Nat
  splim : Nat
  /-- The cycle from which the bound context may issue (04 R91). -/
  readyAt : Nat
  main : Half
  spare : Option Half
  /-- The engines B that the spare half was given at the split (06 R166, 10 R257). -/
  spareEngines : BitVec 16
  v : Vector (Vector W32 256) 32
  k : Vector (BitVec 256) 8
  /-- h0 to h7 of each engine. -/
  h : Vector (Vector W32 8) 16
  gens : Vector W32 16
  f : W32
  frozencc : W64
  landings : List Landing
  nextLanding : Nat
  /-- Stopped at a bundle boundary by PREEMPT or KILL (04 R101, 11 R297). -/
  stopped : Bool
  /-- The cycle of the context's last retirement (04 R107). -/
  lastRetire : Nat
deriving DecidableEq, Repr

/-- A crew bound on a core (04 R91). -/
structure Crew where
  task : Nat
  nt : Nat
  /-- Context number of each member, by member number. -/
  ctxs : List (Nat × Nat)
  /-- Members that have exited (11 R288). -/
  exited : BitVec 128
  winBase : Nat
  winBytes : Nat
  /-- Physical barrier objects of b0, b1, … -/
  bars : List Nat
  /-- Task of the helper whose context runs this crew, 0 for none (05 R124). -/
  host : Nat
  /-- Marked to be saved and moved to another core by an adoption: die, core (05 R125). -/
  moveTo : Option (Nat × Nat)
  /-- Bound when a PREEMPT of MODE 0 or 1 began, which saves it (04 R101). -/
  saving : Bool
deriving DecidableEq, Repr

/-- What a core sets aside for a crew: its contexts in member order, scalar registers, window, barrier objects and bank numbers
(04 R91, R104; 05 R122). -/
structure Reserved where
  task : Nat
  ctxs : List Nat
  scalars : Nat
  winBase : Nat
  winBytes : Nat
  bars : List Nat
  banks : List Nat
deriving DecidableEq, Repr

/-- The window of an ended crew, which is free once the operations that use it have ended, as its banks are once its array
instructions have (11 R292, 15 R371). -/
structure Leftover where
  task : Nat
  winBase : Nat
  winBytes : Nat
deriving DecidableEq, Repr

/-- A barrier object (17 R423). -/
structure Barrier where
  init : Bool
  phase : Bool
  failed : Bool
  err : Bool
  flag : Nat
  ecode : Nat
  erow : Nat
  exparr : Nat
  pendarr : Nat
  /-- Two's complement, modulo 2^40. -/
  pendb : BitVec 40
deriving DecidableEq, Repr

/-- Ownership of an accumulator bank (07 R181): owner context, crew, and the holding context of each band. -/
structure Bank where
  owner : Nat
  crew : Nat
  holders : Vector Nat 8
deriving DecidableEq, Repr

/-- A bank that has been freed, and is not free yet (15 R371): it has no OWNER. -/
def Bank.part (b : Bank) : Bank := { b with owner := 256, holders := Vector.replicate 8 256 }
def Bank.parted (b : Bank) : Bool := b.owner == 256

/-- An entry of a core's store path (08 R207). -/
inductive PathOp where
  /-- A store of a lane's bytes. -/
  | store (p : Nat) (bytes : List Byte) (rrpv : Option Nat)
  /-- The lanes of an atomic that returns nothing which address one word (R220). -/
  | atomic (op : AtOp) (width : Nat) (lanes : List AtLane)
  /-- A sync-object operation with d = s0. -/
  | sync (k : SyncKind) (p : Nat) (va v : W64) (rrpv : Option Nat)
  /-- A prefetch whose line a claim holds (16 R398); it orders nothing. -/
  | pref (p : Nat) (rrpv : Option Nat) (fill : Bool)
deriving DecidableEq, Repr

structure PathEntry where
  seq : Nat
  ctx : Nat
  spare : Bool
  task : Nat
  asid : Nat
  op : PathOp
  /-- Other contexts that may have read it while it is held (08 R215). -/
  seen : List Nat
deriving DecidableEq, Repr

/-- A line of an L1 data cache: line number P div 128 and its bytes (07 R188); most recently used first. -/
structure Line where
  tag : Nat
  bytes : List Byte
deriving DecidableEq, Repr

/-- A line of an instruction cache: address space, VA div 128, bytes (07 R190). -/
structure ILine where
  asid : Nat
  tag : Nat
  bytes : List Byte
deriving DecidableEq, Repr

/-- A TLB entry: page of an address space, the leaf entry and its address, page size, gathered A and D (07 R196, R199). -/
structure TlbEnt where
  asid : Nat
  vpn : Nat
  /-- Log2 of the page size. -/
  size : Nat
  pte : W64
  pteP : Nat
  /-- IMASKV when the walk was made (07 R187). -/
  imask : Nat
  gA : Bool
  gD : Bool
  since : Nat
deriving DecidableEq, Repr

/-- An array instruction in progress (15 R369 to R371): the issuing context, half and flags, when it ends on each engine, the
scratchpad bytes that it marks and the banks that it touches. -/
structure ArrayRun where
  ctx : Nat
  spare : Bool
  task : Nat
  ends : List (Nat × Nat)
  flags : Flags
  marks : List (Nat × Nat)
  banks : List Nat
deriving DecidableEq, Repr

/-- An entry of the adoption stack (05 R129). -/
structure AdoptEntry where
  hctx : Nat
  actx : Nat
  mig : Bool
  task : Nat
  /-- The adopted task has still to be chosen for the first time (05 R126). -/
  first : Bool
  /-- Its crew has still to be bound or moved (05 R126). -/
  pending : Bool
deriving DecidableEq, Repr

/-- A core (06 R139). -/
structure Core where
  ctxs : AMap Ctx
  crews : AMap Crew
  running : Option Nat
  /-- The context chosen last (04 R99). -/
  last : Nat
  wdCount : Nat
  wdLimit : Nat
  /-- A bundle has retired in this cycle (04 R107). -/
  retired : Bool
  /-- The main and the spare sequencer have issued in this cycle (06 R151). -/
  usedMain : Bool
  usedSpare : Bool
  /-- Order of issue of loads, stores and fences. -/
  seq : Nat
  path : List PathEntry
  l1 : List Line
  icache : List ILine
  dtlb : List TlbEnt
  itlb : List TlbEnt
  l1Hit : Nat
  reqLocal : Nat
  reqRemote : Nat
  tlbMiss : Nat
  walks : Nat
  bars : AMap Barrier
  banks : AMap Bank
  /-- Accumulator memory: bank × 32,768 + row × 128 + byte (07 R180). -/
  acc : Memory
  /-- Scratchpads: engine × 393,216 + offset (06 R139). -/
  scratch : Memory
  adopt : List AdoptEntry
  arrays : List ArrayRun
  /-- Resources of claimed crews that are still to be bound here (05 R122). -/
  reserved : List Reserved
  left : List Leftover
  /-- Landings of ended contexts, by context number, whose data has not come (06 R154). -/
  orphans : List (Nat × Landing)
deriving DecidableEq, Repr

/-- An entry of a die's adapter residency table (15 R377). -/
structure Adapter where
  v : Bool
  key : W64
  asid : Nat
  slot : Nat
  gen : Nat
  refcnt : Nat
deriving DecidableEq, Repr

def Adapter.empty : Adapter := ⟨false, 0, 0, 0, 0, 0⟩

/-- What a trap reports (11 R274, R279): cause code, DETAIL, TRAPV, the syllable and the lane. -/
structure Cause where
  code : Nat
  detail : Nat
  va : W64
  slot : Nat
  lane : Nat
deriving DecidableEq, Repr

/-- The cycle in which an array instruction ends on its last engine (R371). -/
def ArrayRun.endAt (r : ArrayRun) : Nat := r.ends.foldl (fun a x => max a x.2) 0

/-- A half whose every register reads as zero. -/
def Half.blank : Half :=
  { pc := 0, mask := 0, killed := 0, s := Vector.replicate 160 0, sWritten := 0, c := 1, q := Vector.replicate 8 0,
    t := Vector.replicate 16 0, gmode := 0, fmt := 0, fstat := 0, acstat := 0, mesh := 0, asid := 0, tvec := 0,
    stvec := 0, tdeleg := 0, cause := 0, trapa := 0, traps := 0, trapx := 0, trapv := 0, stack := [], count := 0,
    hcount := 0, resid := none, resuming := none, wake := none, wakeHnd := false, hold := none, block := none, retryAt := none, fences := [], drain := none,
    ifence := none, frozenAt := none, arrived := false, ended := false, lastRetire := 0, poison := none, wdog := false }

def Ctx.blank : Ctx :=
  { task := 0, member := 0, role := 0, roleMember := 0, budget := 160, spbase := 0, splim := 0, readyAt := 0,
    main := .blank, spare := none, spareEngines := 0, v := Vector.replicate 32 (Vector.replicate 256 0),
    k := Vector.replicate 8 0, h := Vector.replicate 16 (Vector.replicate 8 0), gens := Vector.replicate 16 0, f := 0,
    frozencc := 0, landings := [], nextLanding := 0, stopped := false, lastRetire := 0 }

/-- A core after reset: nothing bound, caches empty, scratchpads and accumulators zero (01 R19 phase 3, 04 R106). -/
def Core.init : Core :=
  { ctxs := [], crews := [], running := none, last := 127, wdCount := 0, wdLimit := 0x40000000, retired := false, usedMain := false,
    usedSpare := false, seq := 0, path := [], l1 := [], icache := [], dtlb := [], itlb := [], l1Hit := 0, reqLocal := 0, reqRemote := 0, tlbMiss := 0, walks := 0,
    bars := [], banks := [], acc := [], scratch := [], adopt := [], arrays := [],
    reserved := [], left := [], orphans := [] }

/-! ## Registers -/

/-- s n as read: s0 reads zero (06 R143). -/
def Half.rdS (h : Half) (n : Nat) : W64 := if n = 0 then 0 else h.s.getD n 0
/-- s n written: a write to s0 is discarded. -/
def Half.wrS (h : Half) (n : Nat) (x : W64) : Half :=
  if n = 0 then h
  else { h with s := h.s.setIfInBounds n x,
                sWritten := if 144 ≤ n ∧ n ≤ 151 then h.sWritten ||| BitVec.ofNat 8 (2 ^ (n - 144)) else h.sWritten }
/-- c n as read: c0 is true. -/
def Half.rdC (h : Half) (n : Nat) : Bool := if n = 0 then true else h.c.getLsbD n
def Half.wrC (h : Half) (n : Nat) (b : Bool) : Half :=
  if n = 0 then h
  else { h with c := if b then h.c ||| BitVec.ofNat 8 (2 ^ n) else h.c &&& ~~~ BitVec.ofNat 8 (2 ^ n) }
/-- q n as read: q0 is all true. -/
def Half.rdQ (h : Half) (n : Nat) : BitVec 16 := if n = 0 then 0xFFFF else h.q.getD n 0
def Half.wrQ (h : Half) (n : Nat) (x : BitVec 16) : Half := if n = 0 then h else { h with q := h.q.setIfInBounds n x }
def Half.rdT (h : Half) (n : Nat) : W64 := h.t.getD n 0
/-- t n written: OFFSET only (06 R149). -/
def Half.wrT (h : Half) (n : Nat) (x : W64) : Half := { h with t := h.t.setIfInBounds n (x &&& 0x7FFC0) }
def Ctx.rdV (c : Ctx) (n : Nat) : Vector W32 256 := c.v.getD n (Vector.replicate 256 0)
def Ctx.lane (c : Ctx) (n l : Nat) : W32 := (c.rdV n).getD l 0
/-- k n as read: k0 is all true. -/
def Ctx.rdK (c : Ctx) (n : Nat) : BitVec 256 := if n = 0 then BitVec.allOnes 256 else c.k.getD n 0
def Ctx.rdH (c : Ctx) (e n : Nat) : W32 := (c.h.getD e (Vector.replicate 8 0)).getD n 0
/-- The lanes of v n named by the mask, replaced. -/
def Ctx.wrV (c : Ctx) (n : Nat) (lanes : BitVec 256) (x : Vector W32 256) : Ctx :=
  { c with v := c.v.setIfInBounds n (laneTab fun l => if lanes.getLsbD l then x.getD l 0 else c.lane n l) }
/-- The bits of k n named by the mask, replaced; a write to k0 is discarded. -/
def Ctx.wrK (c : Ctx) (n : Nat) (lanes bits : BitVec 256) : Ctx :=
  if n = 0 then c else { c with k := c.k.setIfInBounds n ((c.k.getD n 0 &&& ~~~ lanes) ||| (bits &&& lanes)) }
/-- ROWS as written: rounded up to a multiple of 4, at most 64 (06 R150). -/
def shapeWrite (x : W32) : W32 :=
  let r := (x.toNat % 256 + 3) / 4 * 4
  let r := if r > 64 then 64 else r
  (x &&& 0xFFFFFF00) ||| BitVec.ofNat 32 r
def Ctx.wrH (c : Ctx) (e n : Nat) (x : W32) : Ctx :=
  { c with h := c.h.setIfInBounds e ((c.h.getD e (Vector.replicate 8 0)).setIfInBounds n (shapeWrite x)) }

/-- GMODE as written: reserved bits ignored, RM 5 to 7 writes 0 (06 R145). -/
def gmodeWrite (x : W64) : W64 :=
  let y := x &&& 0x1FFF
  if y.toNat % 8 ≥ 5 then y &&& 0x1FF8 else y
/-- FMT as written: reserved bits ignored, KPL held within 2 to 8 (06 R146). -/
def fmtWrite (x : W64) : W64 :=
  let y := x &&& 0x1FCFFFF
  let kpl := y.toNat / 2 ^ 20 % 16
  let kpl' := if kpl < 2 then 2 else if kpl > 8 then 8 else kpl
  (y &&& 0x10CFFFF) ||| BitVec.ofNat 64 (kpl' * 2 ^ 20)

/-- Writable bits of a handler address register (11 R280). -/
def vecMask : W64 := 0xFFFFFFFFFFE1
/-- Writable bits of TDELEG: bit 0x0D reads 0 (11 R280). -/
def delegMask : W64 := 0xFFFFFFFFFFFFDFFF
/-- Writable bits of MESH (09 R229). -/
def meshMask : W64 := 0xFFFFF0FFF0000000
/-- The bits of CAUSE and TRAPX that are not reserved (11 R277, R279). -/
def causeMask : W64 := 0xFF1FFF
def trapxMask : W64 := 0xFF0003FF0007FFFF

/-- GMODE.RM, DM, SEGW (segment width in lanes), FILL, TE (06 R145). -/
def gRm (g : W64) : Rm := Rm.ofCode (g.toNat % 8)
def gDm (g : W64) : Nat := g.toNat / 8 % 4
def gSegW (g : W64) : Nat := match g.toNat / 32 % 4 with | 0 => 16 | 1 => 32 | 2 => 64 | _ => 256
def gFill (g : W64) : Bool := g.getLsbD 7
def gTe (g : W64) : Flags := g.extractLsb' 8 5

/-- A half of a context: the spare half when asked for and present. -/
def Ctx.half (c : Ctx) (spare : Bool) : Half := if spare then c.spare.getD c.main else c.main
def Ctx.setHalf (c : Ctx) (spare : Bool) (h : Half) : Ctx :=
  if spare then (if c.spare.isSome then { c with spare := some h } else c) else { c with main := h }
/-- KILLED of the context: both halves' kills (06 R170). -/
def Ctx.killedAll (c : Ctx) : BitVec 16 := c.main.killed ||| (match c.spare with | some h => h.killed | none => 0)
/-- ACTIVE as read in a half (06 R147). -/
def Ctx.activeReg (c : Ctx) (spare : Bool) : W64 :=
  let h := c.half spare
  BitVec.ofNat 64 (h.mask.toNat + c.killedAll.toNat * 2 ^ 16 + c.main.stack.length * 2 ^ 32 +
    (match c.spare with | some x => x.stack.length * 2 ^ 37 + 2 ^ 41 | none => 0))

end Sys2Proof.Machine
end

