-- ==== Sys2Proof/Machine/ChipState.lean ====
section
/-! DEFINITION. The state of the compute part of the package as data: launches, dies, placement, async operations, claims,
memory, and what the cores have asked the ports to send (04, 05, 07, 08, 09). -/

namespace Sys2Proof.Machine
open Sys2Proof.Irnov

/-- An entry of the address-space table (07 R187, 11 R280). -/
structure ASpace where
  root : W64
  imaskv : Nat
  en : Bool
  dstvec : W64
  dtdeleg : W64
deriving DecidableEq, Repr

def ASpace.init : ASpace := ⟨0, 0xFF, false, 0, 0⟩

/-- A role entry of a launch descriptor (04 R84). -/
structure Role where
  entry : W64
  nctx : Nat
  sreg : Nat
  spb : Nat
  gmode0 : W64
  fmt0 : W64
deriving DecidableEq, Repr

/-- A live launch in its slot (04 R83 to R87, R105; 03 R60, R64). -/
structure Launch where
  id : Nat
  asid : Nat
  sup : Bool
  queue : Nat
  ring : Nat
  record : W64
  level : Nat
  aff : Nat
  dmask : Nat
  nbar : Nat
  gated : Bool
  port : Bool
  cmask : Nat
  gx : Nat
  gy : Nat
  gz : Nat
  argp : W64
  trbase : W64
  stkbase : W64
  spawncap : Nat
  stksz : Nat
  savebase : W64
  savesz : Nat
  roles : List Role
  /-- Tasks created by SPAWN and queue nodes. -/
  spawned : Nat
  held : Bool
  killed : Bool
  /-- PREEMPT MODE 0 (some false) or MODE 1 (some true) in progress. -/
  preempting : Option Bool
  startCc : Nat
  done : Nat
  faulted : Nat
  faultCount : Nat
  firstTask : Nat
  firstCause : Nat
  /-- Timestamp of that fault (03 R64). -/
  firstAt : Nat
  adoptions : Nat
  preempts : Nat
  nacks : Nat
  fstat : Flags
  bundles : Nat
  frozen : Nat
  /-- The end notices of ended tasks that slices have still to process (05 R132): die × 32 + slice, task. -/
  notices : List (Nat × Nat)
  /-- Tasks that have been counted as ended (04 R89). -/
  counted : List Nat
deriving DecidableEq, Repr

/-- Number of grid tasks. -/
def Launch.n (l : Launch) : Nat := l.gx * l.gy * l.gz
/-- Tasks created so far. -/
def Launch.created (l : Launch) : Nat := l.n + l.spawned
/-- NT of R84. -/
def Launch.nt (l : Launch) : Nat := l.roles.foldl (fun a r => a + r.nctx) 0
/-- W of R84, bytes per engine. -/
def Launch.window (l : Launch) : Nat := l.roles.foldl (fun a r => a + r.nctx * r.spb * 4096) 0

/-- Task ids (04 R86). -/
def taskId (slot i : Nat) : Nat := slot * 2 ^ 22 + 1 + i
def taskSlot (id : Nat) : Nat := (id - 1) / 2 ^ 22
def taskIndex (id : Nat) : Nat := (id - 1) % 2 ^ 22

/-- An entry of a ready queue (04 R94): one task, or the cursor of a launch's grid tasks with the indices not yet taken. -/
structure QEnt where
  cursor : Bool
  /-- Task id; for a cursor the launch slot. -/
  who : Nat
  todo : List Nat
  /-- Cycle of entry into this level, or of the last taking from a cursor (R96). -/
  since : Nat
  /-- ENQCC as R88 gives it: the cycle of entry into this level, or of the last rise. -/
  enq : Nat
  /-- It rose into this level by ageing (R96). -/
  rose : Bool
deriving DecidableEq, Repr

/-- The lowest task id of an entry, by which entries of one cycle are ordered (04 R95). -/
def QEnt.lowest (e : QEnt) : Nat := if e.cursor then taskId e.who (e.todo.headD 0) else e.who

/-- A deferred wait at a slice (05 R118). -/
structure Deferral where
  slice : Nat
  p : Nat
  va : W64
  kind : SyncKind
  die : Nat
  core : Nat
  ctx : Nat
  spare : Bool
  task : Nat
  asid : Nat
deriving DecidableEq, Repr

/-- A flush timer of a queue with a node (05 R115, R116). -/
structure FlushTimer where
  slice : Nat
  p : Nat
  va : W64
  asid : Nat
  fireAt : Nat
  /-- Waiting for one of the slice's 16 timers. -/
  waiting : Bool
deriving DecidableEq, Repr

/-- A line of an L2 slice: way, tag P div 128, RRPV (07 R191, R192). -/
structure L2Line where
  way : Nat
  tag : Nat
  rrpv : Nat
deriving DecidableEq, Repr

/-- An adoption whose claim has succeeded, at a cycle, and that waits for the bind slot (04 R98, 05 R125). -/
structure PendAdopt where
  since : Nat
  core : Nat
  helper : Nat
  task : Nat
  /-- The core that the task's crew is moved from, for a PARKED task of another core. -/
  moveFrom : Option (Nat × Nat)
  /-- A PREEMPT has begun since the claim, and saves the crew once it is bound (04 R101). -/
  saving : Bool
deriving DecidableEq, Repr

/-- A tile that a TLDP or TSTP moves on one engine: TOFF, scratchpad address of row 0, rows, row bytes, pitches. -/
structure PTile where
  engine : Nat
  toff : Nat
  sp : Nat
  rows : Nat
  len : Nat
  spPitch : Nat
  gPitch : Nat
deriving DecidableEq, Repr

/-- Who issued an async operation or conversion. -/
structure Issuer where
  die : Nat
  core : Nat
  ctx : Nat
  spare : Bool
  task : Nat
  member : Nat
  crew : Nat
deriving DecidableEq, Repr

/-- A change in the series of a placement entry (09 R232, R244). -/
inductive SeriesOp where
  /-- TLDP: barrier, demand codes [11:0], MESH, whether bits [23:20] of v are set, tiles. -/
  | tldp (bar demand : Nat) (mesh : W64) (bad : Bool) (tiles : List PTile)
  | tstp (bar declared : Nat) (mesh : W64) (bad : Bool) (tiles : List PTile)
  | plset (image : List Byte)
  | plget (p : Nat) (rrpv : Option Nat)
  /-- PLACE command of a queue: command number, image. -/
  | place (queue cmd : Nat) (image : List Byte)
deriving DecidableEq, Repr

structure SeriesItem where
  id : Nat
  asid : Nat
  entry : Nat
  who : Issuer
  op : SeriesOp
  /-- A step in progress: axis, source generation, local form read so far by member coordinate, pulls awaited. -/
  axis : Option Nat
  gen : Nat
  /-- Where the step in progress writes: (P, length), and the RRPV at which the L2 takes its lines. -/
  dst : List (Nat × Nat × Option Nat)
  /-- Lines under the step's read claims (08 R223). -/
  reads : List Nat
  /-- The bytes that the step is to write, once it has computed them, with the lines still to be written in claims. -/
  result : Option (List Byte)
  parts : List (Nat × List Byte)
  pulls : Nat
  /-- Status and NACK code and rank of a refusal. -/
  status : Nat
  nack : Nat
  rank : Nat
  /-- Destination lines claimed by the step in progress, and the number of the first async operation to come after. -/
  claims : List Nat
  claimAt : Nat
  /-- The physical barrier object that it counts against. -/
  bar : Option Nat
  /-- Translations of before a TLBINV that it was queued ahead of (07 R200, R201). -/
  old : List TlbEnt
deriving DecidableEq, Repr

/-- A piece of a byte range: global memory (at P) or a scratchpad of the issuing core (engine × 393,216 + offset); its virtual
address, its global view address, and the RRPV at which the L2 takes its lines (none: it does not). -/
structure Piece where
  glob : Bool
  addr : Nat
  len : Nat
  va : W64
  ga : Nat
  rrpv : Option Nat
deriving DecidableEq, Repr

/-- Bytes that an async operation or conversion is to store, of one row and within one line or scratchpad, and the RRPV at which
the L2 takes the line (none: it does not). -/
structure Chunk where
  glob : Bool
  addr : Nat
  row : Nat
  bytes : List Byte
  rrpv : Option Nat
deriving DecidableEq, Repr

/-- One row of an async copy: index, source and local destinations, destination ranks and address at a peer. -/
structure ARow where
  index : Nat
  src : List Piece
  dsts : List (List Piece)
  peers : List Nat
  addr : W64
deriving DecidableEq, Repr

/-- What an async operation does: copy rows with a reduce operator, or a TPERM over its ranges. -/
inductive APlan where
  | rows (op : Nat) (ord : Bool) (rs : List ARow)
  | perm (mode n nx rowBytes : Nat) (src dst tbl cnt inv : List Piece)
deriving DecidableEq, Repr

/-- An async operation in progress (16 R400, 08 R221 to R225). -/
structure Async where
  id : Nat
  who : Issuer
  engine : Nat
  sync : Sync
  plan : APlan
  /-- Lines of global memory claimed and not yet written, P div 128. -/
  claims : List Nat
  /-- The instruction's operations share a number; the flag is set once, when the last has completed (R400). -/
  group : Nat
  /-- Place in the core's order of issue. -/
  seq : Nat
  /-- The physical barrier object that the bytes count against; none once they are discarded (05 R135). -/
  bar : Option Nat
  /-- The bytes to store, once the sources have been read. -/
  out : Option (List Chunk)
  /-- Rows sent to peers and not yet acknowledged. -/
  unacked : Nat
  /-- Whether the rows bound for peers have been sent. -/
  sent : Bool
  /-- Bytes not yet counted against the barrier. -/
  bytes : Nat
  /-- Lines that its engine has been counted for (07 R202). -/
  seen : List Nat
  ecode : Nat
  erow : Nat
  poison : Option W64
deriving DecidableEq, Repr

/-- A message that a core, copy engine or placement engine asks the ports to send (02 R36, R37). -/
structure OutMsg where
  mtype : Nat
  rank : Nat
  /-- A stream, or none for any (08 R226). -/
  stream : Option Nat
  ord : Bool
  tspec : Nat
  addr : W64
  payload : List Byte
  /-- The async operation (some false) or conversion (some true) that the answer is for, with its number and row. -/
  conv : Bool
  opId : Nat
  row : Nat
deriving DecidableEq, Repr

/-- A die: task unit, placement engine, L2 slices, adapter table, translation block (00 R1, 04, 05, 07, 09, 15 R377). -/
structure Die where
  /-- Ready queues by level, head first. -/
  queues : AMap (List QEnt)
  lastAsk : Nat
  /-- The bind slot of this cycle has been used (04 R98). -/
  slotUsed : Bool
  adopting : List PendAdopt
  /-- ENTRY0 of tasks made by SPAWN with a nonzero ENTRY0 or by a queue node (17 R429). -/
  entry0 : AMap W64
  deferrals : List Deferral
  timers : List FlushTimer
  /-- L2 sets: slice × 1,024 + set. -/
  l2 : AMap (List L2Line)
  /-- Placement entries: ASID × 256 + entry, eight words (09 R233). -/
  place : AMap (Vector W64 8)
  series : List SeriesItem
  adapters : AMap Adapter
  stlb : List TlbEnt
deriving DecidableEq, Repr

/-- A die after reset; its ask pointer is such that core 0 is served first (log 11). -/
def Die.init : Die :=
  { queues := [], lastAsk := 15, slotUsed := false, adopting := [], entry0 := [], deferrals := [], timers := [], l2 := [], place := [],
    series := [], adapters := [], stlb := [] }

/-- An entry posted for an event ring by the task units: ring, record address (03 R65, R69). -/
structure RingPost where
  ring : Nat
  words : List W64
deriving DecidableEq, Repr

/-- What a save keeps of a half beside its image (log 24): the syllables of RESUME's bundle, a RESUME that waits, arrived or ended
in a split gang, the registers written since the split, whether the wake record holds an answer (and of a handler's wait), a POISON
that waits. -/
structure KeptHalf where
  resid : Option (BitVec 7)
  resuming : Option (BitVec 7)
  arrived : Bool
  ended : Bool
  sWritten : BitVec 8
  wake : Option Bool
  poison : Option W64
deriving DecidableEq, Repr

/-- What a save keeps of a context beside its image: its halves, and the first poisoned granule of each landing. -/
structure Kept where
  main : KeptHalf
  spare : KeptHalf
  pois : List (Option W64)
deriving DecidableEq, Repr

/-- A store of a task unit that its home slice holds because the line is claimed (08 R222): the task that it is for, the bytes. -/
structure HeldStore where
  task : Nat
  p : Nat
  bytes : List Byte
deriving DecidableEq, Repr

/-- A place that serves the requests of one cycle in an order the spec gives: a barrier (17 R424), a launch's records (17 R429), a
die's adapter table (17 R431). -/
inductive Turn where
  | barrier (die core bar : Nat)
  | launch (slot : Nat)
  | adapters (die : Nat)
deriving DecidableEq, Repr

/-- The compute part of the package. -/
structure Chip where
  /-- Core clock periods since PERST_N rose. -/
  now : Nat
  /-- Those of them that were not throttled (01 R16). -/
  active : Nat
  /-- The next free value (log 2). -/
  fresh : Nat
  /-- RANK of the part (02 R50), read by conversions. -/
  rank : Nat
  mem : Memory
  /-- Poisoned granules: P div 64, rising (01 R21). -/
  poison : List Nat
  cores : AMap Core
  dies : AMap Die
  aspace : AMap ASpace
  launches : AMap Launch
  nextLaunch : Nat
  /-- Saved contexts (log 24): task × 128 + member. -/
  kept : AMap Kept
  /-- Gathered bits that no TLB holds any more, still to be written back (07 R199). -/
  gathered : List TlbEnt
  /-- Stores of the task units that wait at their home slices, oldest first. -/
  held : List HeldStore
  asyncs : List Async
  nextAsync : Nat
  nextSeries : Nat
  outbox : List OutMsg
  /-- The places that have served a request in this cycle, each with the requester's rank in their order (log 128). -/
  turns : List (Turn × Nat)
deriving DecidableEq, Repr

def Chip.init : Chip :=
  { now := 0, active := 0, fresh := 0, rank := 0, mem := [], poison := [], cores := [], dies := [], aspace := [], launches := [],
    nextLaunch := 1, kept := [], gathered := [], held := [], asyncs := [], nextAsync := 0, nextSeries := 0, outbox := [], turns := [] }

namespace Chip
def core (s : Chip) (d c : Nat) : Core := s.cores.getD (16 * d + c) .init
def setCore (s : Chip) (d c : Nat) (x : Core) : Chip := { s with cores := s.cores.put (16 * d + c) x }
def die (s : Chip) (d : Nat) : Die := s.dies.getD d .init
def setDie (s : Chip) (d : Nat) (x : Die) : Chip := { s with dies := s.dies.put d x }
def space (s : Chip) (a : Nat) : ASpace := s.aspace.getD (a % 4096) .init
def ctx? (s : Chip) (d c x : Nat) : Option Ctx := (s.core d c).ctxs.find? x
def setCtx (s : Chip) (d c x : Nat) (k : Ctx) : Chip :=
  let co := s.core d c
  s.setCore d c { co with ctxs := co.ctxs.put x k }
def modCtx (s : Chip) (d c x : Nat) (f : Ctx → Ctx) : Chip :=
  match s.ctx? d c x with
  | some k => s.setCtx d c x (f k)
  | none => s
def modCore (s : Chip) (d c : Nat) (f : Core → Core) : Chip := s.setCore d c (f (s.core d c))
def modDie (s : Chip) (d : Nat) (f : Die → Die) : Chip := s.setDie d (f (s.die d))
/-- The launch that a task belongs to, while it is live and the task has been created (04 R86). -/
def launchOf (s : Chip) (task : Nat) : Option Launch :=
  if task = 0 then none
  else match s.launches.find? (taskSlot task) with
    | some l => if taskIndex task < l.created then some l else none
    | none => none
def modLaunch (s : Chip) (slot : Nat) (f : Launch → Launch) : Chip := { s with launches := s.launches.modify slot f }
/-- A request of a rank comes too late in this cycle: the place has served a later rank, and serves this one in the next. -/
def pastTurn (s : Chip) (t : Turn) (rank : Nat) : Bool := s.turns.any fun x => x.1 == t && decide (rank < x.2)
def takeTurn (s : Chip) (t : Turn) (rank : Nat) : Chip := { s with turns := (t, rank) :: s.turns }
/-- The package timebase in ns: 10 × n from core cycle ceil(8.5 × n) on (01 R13, R14). The copies of the compute dies have no delay
(log 37). -/
def timebase (s : Chip) : Nat := 10 * (2 * s.now / 17)
/-- A free choice among k alternatives (log 2). -/
def choose (s : Chip) (k : Nat) : Nat × Chip := (Config.freeChoice s.fresh % k, { s with fresh := s.fresh + 1 })
end Chip

/-! ## Memory of the package (07 R185) -/

/-- Memory that nothing has written reads zero: phase 3 of boot writes every byte of the stacks (01 R19). -/
def memDflt : Byte := 0

def Chip.rdMem (s : Chip) (p n : Nat) : List Byte := s.mem.read memDflt p n
/-- Store bytes; a granule written whole loses its poison (01 R21). -/
def Chip.wrMem (s : Chip) (p : Nat) (bs : List Byte) : Chip :=
  { s with mem := s.mem.write memDflt p bs,
           poison := s.poison.filter fun g => !(decide (p ≤ 64 * g) && decide (64 * g + 64 ≤ p + bs.length)) }
def Chip.rd64 (s : Chip) (p : Nat) : W64 := BitVec.ofNat 64 (leNat (s.rdMem p 8))
def Chip.wr64 (s : Chip) (p : Nat) (x : W64) : Chip := s.wrMem p (leBytes 8 x.toNat)
/-- The first poisoned granule that bytes p … p + n − 1 touch, as its address. -/
def Chip.poisoned (s : Chip) (p n : Nat) : Option Nat :=
  if n = 0 then none
  else (s.poison.find? fun g => decide (p / 64 ≤ g) && decide (g ≤ (p + n - 1) / 64)).map (64 * ·)

/-- home_hash and the homes of an address (07 R185). -/
def homeHash (a : Nat) : Nat := (a / 2 ^ 12 % 8) ^^^ (a / 2 ^ 15 % 8) ^^^ (a / 2 ^ 18 % 8) ^^^ (a / 2 ^ 21 % 8)
def homeDie (p : Nat) : Nat := homeHash p
def homeSlice (p : Nat) : Nat := (p / 2 ^ 7 % 32) ^^^ (p / 2 ^ 12 % 32)

/-! ## Die links (01 R8, R10) -/

/-- The die that port j of compute die d connects to (R8). -/
def linkPeer (d j : Nat) : Nat := if j = 3 then d ^^^ 7 else d ^^^ 2 ^ j

/-- The port by which a die connects to a neighbour: the difference of their numbers has one bit set, or is 7. -/
def portTo (m : Nat) : Nat := match m with | 1 => 0 | 2 => 1 | 4 => 2 | _ => 3

/-- The links that a message from die s to die t takes in order, each as the die that sends over it and its port (R10). -/
def dieRoute (s t : Nat) : List (Nat × Nat) :=
  let m := s ^^^ t
  let low := if m.testBit 0 then 1 else if m.testBit 1 then 2 else 4
  if m = 0 then []
  else if m = 1 ∨ m = 2 ∨ m = 4 ∨ m = 7 then [(s, portTo m)]
  else [(s, portTo low), (s ^^^ low, portTo (m ^^^ low))]

/-! ## Views -/

/-- from_local of R186. -/
def fromLocal (d x : Nat) : Nat :=
  let hi := x / 2 ^ 12 % 2 ^ 25
  let p14 := d ^^^ (hi % 8) ^^^ (hi / 8 % 8) ^^^ (hi / 64 % 8)
  x % 2 ^ 12 + p14 * 2 ^ 12 + hi * 2 ^ 15

/-- The k-th set bit of a mask of n bits, from bit 0. -/
def setBit (mask n k : Nat) : Nat := (((List.range n).filter mask.testBit).drop k).headD 0

/-- canonical of R186: P of address a under a leaf's PL and DIE; none is a translation fault. -/
def canonical (imask pl d a : Nat) : Option Nat :=
  match pl with
  | 0 => if a < Config.memBytes then some a else none
  | 1 => if a < Config.homeBytes then some (fromLocal d a) else none
  | 2 =>
    let c := popcount 8 imask
    if a < c * Config.homeBytes then
      let h := homeHash a
      let g := a / 32768 * (8 / c) + h / c
      some (fromLocal (setBit imask 8 (h % c)) (g * 4096 + a % 4096))
    else none
  | _ => none

end Sys2Proof.Machine
end

