-- ==== Sys2Proof/Machine/Translate.lean ====
section
/-! DEFINITION. Translation, TLBs, gathered accessed and dirty bits, caches, claims and request counters (07 R185 to R202,
08 R221, R222). -/

namespace Sys2Proof.Machine

/-! ## Page tables (07 R193 to R195) -/

def pteV (e : W64) : Bool := e.getLsbD 0
def pteR (e : W64) : Bool := e.getLsbD 1
def pteW (e : W64) : Bool := e.getLsbD 2
def pteX (e : W64) : Bool := e.getLsbD 3
def pteFut (e : W64) : Bool := e.getLsbD 7
def pteCp (e : W64) : Nat := e.toNat / 2 ^ 8 % 4
def ptePl (e : W64) : Nat := e.toNat / 2 ^ 10 % 4
def pteFrame (e : W64) : Nat := e.toNat / 2 ^ 12 % 2 ^ 40
def pteDie (e : W64) : Nat := e.toNat / 2 ^ 52 % 8
def pteReserved (e : W64) : Bool := e.getLsbD 4 || e.extractLsb' 55 9 != 0

/-- P of an address under a leaf entry. -/
def TlbEnt.phys (e : TlbEnt) (va : Nat) : Option Nat :=
  canonical e.imask (ptePl e.pte) (pteDie e.pte) (pteFrame e.pte * 4096 + va % 2 ^ e.size)

/-- The levels of a walk from the table at P t, spans 39, 30, 21, 12; none is a translation fault. A table that lies past
the end of memory faults (log 22). -/
def walkLevels (s : Chip) (asid va imask : Nat) : List Nat → Nat → Option TlbEnt
  | [], _ => none
  | span :: rest, t =>
    let p := t + 8 * (va / 2 ^ span % 512)
    if p + 8 > Config.memBytes then none
    else
      let e := s.rd64 p
      if !pteV e || pteReserved e then none
      else if !pteR e && !pteW e && !pteX e then
        (if rest.isEmpty || ptePl e != 0 then none else walkLevels s asid va imask rest (pteFrame e * 4096))
      else if span = 39 || (pteW e && !pteR e) then none
      else if pteFrame e % 2 ^ (span - 12) ≠ 0 then none
      else some { asid := asid, vpn := va / 2 ^ span, size := span, pte := e, pteP := p, imask := imask, gA := false,
                  gD := false, since := s.now }

/-- A walk of the tables of an address space; the view address must be in range (R195). -/
def walk (s : Chip) (asid va : Nat) : Option TlbEnt :=
  let a := s.space asid
  if !a.en ∨ va ≥ 2 ^ 48 then none
  else (walkLevels s (asid % 4096) va a.imaskv [39, 30, 21, 12] (pteFrame a.root * 4096)).bind fun e =>
    if (e.phys va).isSome then some e else none

/-! ## Lines of the L2 (R191, R192) -/

def lineOf (p : Nat) : Nat := p / 128
/-- The lines that bytes p … p + n − 1 touch. -/
def linesOf (p n : Nat) : List Nat := if n = 0 then [] else (List.range ((p + n - 1) / 128 - p / 128 + 1)).map (p / 128 + ·)

/-- Whether a line is claimed by an async operation or a conversion (08 R222). -/
def Chip.claimed (s : Chip) (line : Nat) : Bool :=
  s.asyncs.any (fun a => a.claims.contains line) ||
    (List.range Config.dies).any fun d => (s.die d).series.any fun i => i.claims.contains line

/-- Whether a line is under a read claim, which holds what writes it (08 R223). -/
def Chip.readClaimed (s : Chip) (line : Nat) : Bool :=
  (List.range Config.dies).any fun d => (s.die d).series.any fun i => i.reads.contains line

/-- Whether claims hold a store to a line by an agent that has none. -/
def Chip.storeHeld (s : Chip) (line : Nat) : Bool := s.claimed line || s.readClaimed line

/-- Whether a write claim holds an access of a core from a place in its order of issue: claims of its own later async operations do
not (08 R221), nor do claims that were registered after those, which wait for them (R224). -/
def Chip.claimedFor (s : Chip) (d c seq line : Nat) : Bool :=
  let mine := s.asyncs.filter fun (a : Async) => a.claims.contains line && a.who.die == d && a.who.core == c && decide (seq < a.seq)
  let before := fun (n : Nat) => mine.all fun (a : Async) => decide (n < a.id)
  s.asyncs.any (fun (a : Async) => a.claims.contains line && before a.id) ||
    (List.range Config.dies).any fun d => (s.die d).series.any fun i => i.claims.contains line && before i.claimAt

/-- Write claims with their places in the order of registration. -/
def Chip.claimList (s : Chip) : List (Nat × Nat) :=
  (s.asyncs.flatMap fun (a : Async) => a.claims.map fun l => (a.id, l)) ++
    (List.range Config.dies).flatMap fun d => (s.die d).series.flatMap fun (i : SeriesItem) => i.claims.map fun l => (i.claimAt, l)

/-- Two lines lie in one L2 set (R191). -/
def sameSet (a b : Nat) : Bool :=
  homeDie (128 * a) == homeDie (128 * b) && homeSlice (128 * a) == homeSlice (128 * b) && a / 256 % 1024 == b / 256 % 1024

/-- The claims of a line are granted: it is among the first 12 lines of its set that are claimed (R192). -/
def Chip.granted (s : Chip) (line : Nat) : Bool :=
  let ls := ((sortBy (·.1) (s.claimList.filter fun c => sameSet c.2 line)).map (·.2)).eraseDups
  (ls.take 12).contains line

/-- Raise every RRPV of a set until some way that no granted claim holds is at 3, and give that way (R192). -/
def l2Victim (claimed : Nat → Bool) : Nat → List L2Line → Nat × List L2Line
  | 0, ls => (0, ls)
  | fuel + 1, ls =>
    match (ls.filter fun l => l.rrpv == 3 && !claimed l.tag).map (·.way) with
    | [] => l2Victim claimed fuel (ls.map fun l => { l with rrpv := min 3 (l.rrpv + 1) })
    | w :: ws => (ws.foldl min w, ls)

/-- An access to a line at its home slice: a hit sets RRPV 0, a miss inserts at the given RRPV, if it allocates (R191, R192). -/
def Chip.l2Access (s : Chip) (p : Nat) (insert : Option Nat) : Chip :=
  let d := homeDie p
  let key := homeSlice p * 1024 + p / 2 ^ 15 % 1024
  let tag := lineOf p
  let set := (s.die d).l2.getD key []
  if set.any (·.tag == tag) then
    s.modDie d fun x => { x with l2 := x.l2.put key (set.map fun l => if l.tag == tag then { l with rrpv := 0 } else l) }
  else match insert with
    | none => s
    | some r =>
      let free := (List.range 16).find? fun w => !set.any (·.way == w)
      let (w, set) := match free with
        | some w => (w, set)
        | none => l2Victim s.granted 4 set
      s.modDie d fun x => { x with l2 := x.l2.put key (⟨w, tag, r⟩ :: set.filter (·.way != w)) }

/-- The table entries that a walk reads, in order. -/
def walkPath (s : Chip) (va : Nat) : List Nat → Nat → List Nat
  | [], _ => []
  | span :: rest, t =>
    let p := t + 8 * (va / 2 ^ span % 512)
    if p + 8 > Config.memBytes then []
    else
      let e := s.rd64 p
      p :: (if pteV e && !pteReserved e && !pteR e && !pteW e && !pteX e && ptePl e == 0 then walkPath s va rest (pteFrame e * 4096) else [])

/-- The table entries that a walk of an address reads. -/
def walkReads (s : Chip) (asid va : Nat) : List Nat :=
  let a := s.space asid
  if !a.en ∨ va ≥ 2 ^ 48 then [] else walkPath s va [39, 30, 21, 12] (pteFrame a.root * 4096)

/-- The L2 once a walk has read its entries: page-walk reads insert at RRPV 1 (R192). -/
def touchWalk (s : Chip) (asid va : Nat) : Chip := (walkReads s asid va).foldl (fun y p => y.l2Access p (some 1)) s

/-! ## TLBs -/

def TlbEnt.covers (e : TlbEnt) (asid va : Nat) : Bool := e.asid == asid % 4096 && va / 2 ^ e.size == e.vpn

def tlbFind (t : List TlbEnt) (asid va : Nat) : Option TlbEnt := t.find? fun e => e.covers asid va

/-- Translating an address has to read a claimed line of the tables, which holds the walk (08 R222); own is the requester's own
TLB. -/
def walkHeld (s : Chip) (d : Nat) (own : List TlbEnt) (asid va : Nat) : Bool :=
  (tlbFind own asid va).isNone && (tlbFind (s.die d).stlb asid va).isNone && (walkReads s asid va).any fun p => s.claimed (lineOf p)

/-- Write the gathered bits of an entry back: an OR, made only while the entry still has V, FRAME, PL and DIE (R199). -/
def writeBack (s : Chip) (e : TlbEnt) : Chip :=
  if !e.gA ∧ !e.gD then s
  else
    let x := s.rd64 e.pteP
    if pteV x ∧ pteFrame x = pteFrame e.pte ∧ ptePl x = ptePl e.pte ∧ pteDie x = pteDie e.pte then
      s.wr64 e.pteP (x ||| (if e.gA then 0x20 else 0) ||| (if e.gD then 0x40 else 0))
    else s

/-- An entry leaves its TLB: its gathered bits are written back at once, or, while a claim holds the line of its table entry, wait
(08 R222). -/
def Chip.giveUp (s : Chip) (e : TlbEnt) : Chip :=
  if (e.gA || e.gD) && s.storeHeld (lineOf e.pteP) then { s with gathered := e :: s.gathered } else writeBack s e

/-- Note that an access has been served by a translation that no TLB holds (R199). -/
def gatherInto (e : TlbEnt) (store : Bool) : List TlbEnt → List TlbEnt
  | [] => [{ e with gA := true, gD := store }]
  | x :: t => if x.pteP = e.pteP ∧ x.pte = e.pte then { x with gD := x.gD || store } :: t else x :: gatherInto e store t

def Chip.gatherLoose (s : Chip) (asid va : Nat) (store : Bool) : Chip :=
  match walk s asid va with
  | some e => { s with gathered := gatherInto e store s.gathered }
  | none => s

/-- Put an entry into a TLB of cap entries; a full TLB gives up an entry of free choice. -/
def tlbInsert (s : Chip) (t : List TlbEnt) (cap : Nat) (e : TlbEnt) : List TlbEnt × Chip :=
  if t.length < cap then (e :: t, s)
  else
    let (k, s) := s.choose t.length
    match t[k]? with
    | some v => (e :: t.eraseIdx k, s.giveUp v)
    | none => (e :: t, s)

/-- Kinds of access for permission (R195). -/
inductive Acc where
  | load | store | atomic | fetch | sync
deriving DecidableEq, Repr

/-- The failed check of a leaf: 5 permission, 6 future attribute (R195, R197). -/
def permFail (e : W64) (a : Acc) : Option Nat :=
  match a with
  | .load => if pteR e then none else some 5
  | .store => if pteW e then none else some 5
  | .atomic => if pteR e && pteW e then none else some 5
  | .fetch => if pteX e then none else some 5
  | .sync => if !(pteR e && pteW e) then some 5 else if pteFut e then none else some 6

/-- The translation that a core finds for an access: its own TLB, the die's shared TLB, or a walk; a walk that ends in a fault enters
no TLB (R196). -/
def xlCore (s : Chip) (d c : Nat) (a : Acc) (asid va : Nat) : Option TlbEnt × Chip :=
  let fetch := a == .fetch
  let co := s.core d c
  match tlbFind (if fetch then co.itlb else co.dtlb) asid va with
  | some e => (some e, s)
  | none =>
    let s := s.modCore d c fun co => { co with tlbMiss := co.tlbMiss + 1 }
    let install := fun (s : Chip) (e : TlbEnt) =>
      let co := s.core d c
      if fetch then
        let (t, s) := tlbInsert s co.itlb 128 e
        s.modCore d c fun co => { co with itlb := t }
      else
        let (t, s) := tlbInsert s co.dtlb 512 e
        s.modCore d c fun co => { co with dtlb := t }
    match tlbFind (s.die d).stlb asid va with
    | some e =>
      let e := { e with gA := false, gD := false }
      (some e, if (permFail e.pte a).isSome then s else install s e)
    | none =>
      let s := s.modCore d c fun co => { co with walks := co.walks + 1 }
      match walk s asid va with
      | none => (none, touchWalk s asid va)
      | some e =>
        let s := touchWalk s asid va
        if (permFail e.pte a).isSome then (some e, s)
        else
          let (t, s) := tlbInsert s (s.die d).stlb 16384 e
          (some e, install (s.modDie d fun x => { x with stlb := t }) e)

/-- Record that an entry has served an access; one that its TLB gave up in the same probe leaves its bits loose (R199). -/
def gather (t : List TlbEnt) (now asid va : Nat) (store : Bool) : List TlbEnt :=
  t.map fun e => if e.covers asid va then
    { e with gA := true, gD := e.gD || store, since := if e.gA then e.since else now } else e

def gatherCore (s : Chip) (d c : Nat) (fetch : Bool) (asid va : Nat) (store : Bool) : Chip :=
  if (tlbFind (if fetch then (s.core d c).itlb else (s.core d c).dtlb) asid va).isNone then s.gatherLoose asid va store
  else s.modCore d c fun co =>
    if fetch then { co with itlb := gather co.itlb s.now asid va store }
    else { co with dtlb := gather co.dtlb s.now asid va store }

/-- A translation by an agent of die d that is no core (task unit, command processor, port): through the shared TLB.
The error says whether the fault is a protection fault. -/
def xlAgent (s : Chip) (d asid va : Nat) (a : Acc) : Except Bool Nat × Chip :=
  let found := match tlbFind (s.die d).stlb asid va with
    | some e => (some e, s)
    | none => match walk s asid va with
      | none => (none, touchWalk s asid va)
      | some e =>
        let s := touchWalk s asid va
        if (permFail e.pte a).isSome then (some e, s)
        else
          let (t, s) := tlbInsert s (s.die d).stlb 16384 e
          (some e, s.modDie d fun x => { x with stlb := t })
  match found with
  | (none, s) => (.error false, s)
  | (some e, s) =>
    match e.phys va with
    | none => (.error false, s)
    | some p =>
      if (permFail e.pte a).isSome then (.error true, s)
      else (.ok p, s.modDie d fun x => { x with stlb := gather x.stlb s.now asid va (a != .load && a != .fetch) })

/-- The pieces of a virtual range, page by page: virtual address and length. -/
def pagePieces : Nat → Nat → Nat → List (Nat × Nat)
  | 0, _, _ => []
  | fuel + 1, va, n =>
    if n = 0 then []
    else
      let k := min n (4096 - va % 4096)
      (va, k) :: pagePieces fuel (va + k) (n - k)

def piecesOf (va n : Nat) : List (Nat × Nat) := pagePieces (n / 4096 + 2) va n

/-- One more page of a range; the first fault stands. -/
def xlPiece (d asid : Nat) (a : Acc) (st : Except (Bool × Nat) (List (Nat × Nat)) × Chip) (pc : Nat × Nat) :
    Except (Bool × Nat) (List (Nat × Nat)) × Chip :=
  match st with
  | (.error x, s) => (.error x, s)
  | (.ok ps, s) =>
    match xlAgent s d asid pc.1 a with
    | (.error b, s) => (.error (b, pc.1), s)
    | (.ok p, s) => (.ok (ps ++ [(p, pc.2)]), s)

/-- Translate a virtual range for an agent, every page before any access: (P, length) pieces, or the fault and its address. -/
def xlRange (s : Chip) (d asid va n : Nat) (a : Acc) : Except (Bool × Nat) (List (Nat × Nat)) × Chip :=
  (piecesOf va n).foldl (xlPiece d asid a) (.ok [], s)

/-- A piece of a virtual range cannot be translated by an agent of die d yet: its walk reads a claimed line (08 R222). -/
def rangeWalkHeld (s : Chip) (d asid va n : Nat) : Bool := (piecesOf va n).any fun pc => walkHeld s d [] asid pc.1

def rdPieces (s : Chip) (ps : List (Nat × Nat)) : List Byte := ps.flatMap fun p => s.rdMem p.1 p.2

def wrPieces (s : Chip) : List (Nat × Nat) → List Byte → Chip
  | [], _ => s
  | p :: t, bs => wrPieces (s.wrMem p.1 (bs.take p.2)) t (bs.drop p.2)

/-! ## The L2 as a page's CP has it (R191, R192) -/

/-- The RRPV at which the L2 takes a line on a miss, where it would be r under CP 00 and 01; none: it does not allocate. -/
def cpInsert (cp r : Nat) : Option Nat :=
  match cp with
  | 2 => some 3
  | 3 => none
  | _ => some r

/-- The same for an agent that reads or writes a page through die d's translations. -/
def agentInsert (s : Chip) (d asid va r : Nat) : Option Nat :=
  cpInsert (match tlbFind (s.die d).stlb asid va with
    | some e => pteCp e.pte
    | none => match walk s asid va with | some e => pteCp e.pte | none => 0) r

/-- The L2 once an agent of die d has read or written a translated range: virtual address, P, length of each piece. -/
def touchAt (s : Chip) (d asid r : Nat) (ps : List (Nat × Nat × Nat)) : Chip :=
  ps.foldl (fun (s : Chip) p =>
    let ins := agentInsert s d asid p.1 r
    (linesOf p.2.1 p.2.2).foldl (fun s l => s.l2Access (128 * l) ins) s) s

/-! ## Stores of the task units (08 R222) -/

/-- Bytes laid over those of a range. -/
def overlayAt (p : Nat) (bs : List Byte) (q : Nat) (sb : List Byte) : List Byte :=
  (List.range bs.length).map fun i => if q ≤ p + i ∧ p + i < q + sb.length then sb.getD (p + i - q) 0 else bs.getD i 0

/-- Bytes within lines. -/
def splitLines : Nat → Nat → List Byte → List (Nat × List Byte)
  | 0, _, _ => []
  | fuel + 1, p, bs =>
    if bs.isEmpty then []
    else
      let k := 128 - p % 128
      (p, bs.take k) :: splitLines fuel (p + k) (bs.drop k)

/-- A task unit's store of bytes within a line for a task: at once, or once the claims on the line have gone. -/
def Chip.putLine (s : Chip) (task p : Nat) (bs : List Byte) : Chip :=
  if s.storeHeld (lineOf p) || s.held.any (fun (h : HeldStore) => lineOf h.p == lineOf p) then
    { s with held := s.held ++ [⟨task, p, bs⟩] }
  else s.wrMem p bs

/-- A task unit's store of bytes for a task. -/
def Chip.put (s : Chip) (task p : Nat) (bs : List Byte) : Chip :=
  if (linesOf p bs.length).any (fun l => s.storeHeld l || s.held.any fun (h : HeldStore) => lineOf h.p == l) then
    (splitLines (bs.length / 128 + 2) p bs).foldl (fun s x => s.putLine task x.1 x.2) s
  else s.wrMem p bs

/-- Bytes as the task units see them: with their own stores that wait. -/
def Chip.seen (s : Chip) (p n : Nat) : List Byte := s.held.foldl (fun bs (h : HeldStore) => overlayAt p bs h.p h.bytes) (s.rdMem p n)

/-- The stores that no claim holds any more perform, in their order. -/
def settleHeld (s : Chip) : Chip := s.held.foldl (fun s (h : HeldStore) => s.putLine h.task h.p h.bytes) { s with held := [] }

def putPieces (s : Chip) (task : Nat) : List (Nat × Nat) → List Byte → Chip
  | [], _ => s
  | p :: t, bs => putPieces (s.put task p.1 (bs.take p.2)) task t (bs.drop p.2)

def seenPieces (s : Chip) (ps : List (Nat × Nat)) : List Byte := ps.flatMap fun p => s.seen p.1 p.2

/-! ## Caches -/

def l1Find (t : List Line) (tag : Nat) : Option Line := t.find? (·.tag == tag)

/-- Bring a line to the front of its cache, replacing it or the least recently used line of its set of 8 (R188). -/
def l1Put (t : List Line) (l : Line) : List Line :=
  let rest := t.filter (·.tag != l.tag)
  let same := rest.filter fun x => x.tag % 256 == l.tag % 256
  let rest := if same.length ≥ 8 then
      (match same.getLast? with | some old => rest.filter (·.tag != old.tag) | none => rest)
    else rest
  l :: rest

def l1Invalidate (t : List Line) (line : Nat) : List Line := t.filter (·.tag != line)

/-- A store's bytes put into a line that the L1 holds (R188). -/
def l1Store (t : List Line) (p : Nat) (bs : List Byte) : List Line :=
  t.map fun l =>
    { l with bytes := (List.range l.bytes.length).map fun i =>
        let a := l.tag * 128 + i
        if p ≤ a ∧ a < p + bs.length then bs.getD (a - p) 0 else l.bytes.getD i 0 }

def ilPut (t : List ILine) (l : ILine) : List ILine :=
  let rest := t.filter fun x => !(x.tag == l.tag && x.asid == l.asid)
  let same := rest.filter fun x => x.tag % 256 == l.tag % 256
  let rest := if same.length ≥ 8 then
      (match same.getLast? with
       | some old => rest.filter fun x => !(x.tag == old.tag && x.asid == old.asid)
       | none => rest)
    else rest
  l :: rest

/-- One request of a core for the line of an address (R202): of its own die when the route to the line's home takes no die link. -/
def countReq (s : Chip) (d c p : Nat) : Chip :=
  s.modCore d c fun co => if dieRoute d (homeDie p) = [] then { co with reqLocal := co.reqLocal + 1 }
    else { co with reqRemote := co.reqRemote + 1 }

/-! ## Instruction fetch (07 R175, R190, R198) -/

/-- What a fetch gives: the bundle's 32 bytes, a trap, or a hold at a claimed line. -/
inductive Fetch where
  | bytes (b : List Byte)
  | trap (c : Cause)
  | held
deriving DecidableEq, Repr

/-- Fetch the bundle at va in an address space through the instruction cache of a core. -/
def fetchBundle (s : Chip) (d c asid : Nat) (va : W64) : Fetch × Chip :=
  let a := va.toNat
  let tag := a / 128
  let get := fun (bs : List Byte) => (bs.drop (a % 128)).take 32
  if a ≥ 2 ^ 48 then (.trap ⟨0x03, 7, va, 0, 0⟩, s)
  else match (s.core d c).icache.find? fun l => l.tag == tag && l.asid == asid % 4096 with
    | some l => (.bytes (get l.bytes), s.modCore d c fun co => { co with icache := ilPut co.icache l })
    | none =>
      if walkHeld s d (s.core d c).itlb asid a then (.held, s)
      else match xlCore s d c .fetch asid a with
      | (none, s) => (.trap ⟨0x03, 7, va, 0, 0⟩, s)
      | (some e, s) =>
        match e.phys (tag * 128) with
        | none => (.trap ⟨0x03, 7, va, 0, 0⟩, s)
        | some p =>
          if (permFail e.pte .fetch).isSome then (.trap ⟨0x04, 7, va, 0, 0⟩, s)
          else if s.claimed (lineOf p) then (.held, s)
          else
            let l : ILine := ⟨asid % 4096, tag, s.rdMem p 128⟩
            let s := (gatherCore s d c true asid a false).l2Access p (match pteCp e.pte with | 2 => some 3 | 3 => none | _ => some 0)
            (.bytes (get l.bytes), s.modCore d c fun co => { co with icache := ilPut co.icache l })

end Sys2Proof.Machine
end

