-- ==== Sys2Proof/Machine/Tasks.lean ====
section
/-! DEFINITION. Tasks and crews (04 R86 to R105): task records, ready queues, release, the resources that a crew takes,
binding and its initial registers, the adoption stack's pops (05 R130), and the ending of a task (11 R292 to R295). -/

namespace Sys2Proof.Machine

/-! ## Task records (R88, R89) -/

def stUnstarted : Nat := 0
def stReady : Nat := 1
def stRunning : Nat := 2
def stParked : Nat := 3
def stWaiting : Nat := 4
def stDone : Nat := 5
def stFaulted : Nat := 6

/-- The translation of the record of index i of a launch, walked in its address space for the task unit, which writes it (log 23): P
and the leaf; none when there is none. -/
def recAddr (s : Chip) (l : Launch) (i : Nat) : Option (Nat × TlbEnt) :=
  let va := (l.trbase.toNat + 64 * i) % 2 ^ 64
  (walk s l.asid va).bind fun e => if pteW e.pte then (e.phys va).map fun p => (p, e) else none

/-- The same of a task that has been created. -/
def Chip.recAt (s : Chip) (task : Nat) : Option (Nat × TlbEnt) :=
  (s.launchOf task).bind fun l => recAddr s l (taskIndex task)

/-- A task unit has read or written a record: its page gathers A, and D (07 R199), and its line lies in the L2 as CP has it. -/
def Chip.noteRec (s : Chip) (p : Nat) (e : TlbEnt) (store : Bool) : Chip :=
  { s with gathered := gatherInto e store s.gathered }.l2Access p (cpInsert (pteCp e.pte) 1)

def Chip.recRd (s : Chip) (task off : Nat) : W64 :=
  match s.recAt task with
  | some (p, _) => BitVec.ofNat 64 (leNat (s.seen (p + off) 8))
  | none => 0

def Chip.recWr (s : Chip) (task off : Nat) (x : W64) : Chip :=
  match s.recAt task with
  | some (p, e) => (s.noteRec p e true).put task (p + off) (leBytes 8 x.toNat)
  | none => s

/-- A task unit has read a task's record. -/
def Chip.recRead (s : Chip) (task : Nat) : Chip :=
  match s.recAt task with
  | some (p, e) => s.noteRec p e false
  | none => s

/-- A claim holds the reading of a task's record, at its own line or at the tables of its page (08 R222). -/
def Chip.recHeld (s : Chip) (task : Nat) : Bool :=
  match s.launchOf task with
  | none => false
  | some l =>
    ((walkReads s l.asid ((l.trbase.toNat + 64 * taskIndex task) % 2 ^ 64)).any fun p => s.claimed (lineOf p)) ||
      (match s.recAt task with | some (p, _) => s.claimed (lineOf p) | none => false)

/-- Bits [lo+len−1:lo] of a 64-bit word, and the word with them replaced. -/
def w64Get (x : W64) (lo len : Nat) : Nat := x.toNat / 2 ^ lo % 2 ^ len
def w64Put (x : W64) (lo len v : Nat) : W64 :=
  BitVec.ofNat 64 (x.toNat - w64Get x lo len * 2 ^ lo + v % 2 ^ len * 2 ^ lo)

def recState (w : W64) : Nat := w64Get w 61 3
def recLevel (w : W64) : Nat := w64Get w 53 3

/-- A task counts as ended, once: DONE, or FAULTED, as which STATE 7 counts; end notices go to every slice (R89, R105; 05 R132). -/
def Chip.countEnded (s : Chip) (task st : Nat) : Chip :=
  s.modLaunch (taskSlot task) fun l =>
    if l.counted.contains task then l
    else { l with done := l.done + (if st = stDone then 1 else 0), faulted := l.faulted + (if st = stDone then 0 else 1)
                  notices := l.notices ++ (List.range 256).map fun k => (k, task), counted := task :: l.counted }

/-- A compare-and-swap of word 0x00 of a record (R89): a task found DONE, FAULTED or 7 counts as ended. -/
def Chip.recMod0 (s : Chip) (task : Nat) (f : W64 → W64) : Chip :=
  let w := s.recRd task 0
  if recState w ≥ 5 then s.countEnded task (recState w) else s.recWr task 0 (f w)
def Chip.recSetState (s : Chip) (task st : Nat) : Chip := s.recMod0 task fun w => w64Put w 61 3 st

/-- A task counts as ended: DONE, FAULTED, 7, or no task (05 R122). -/
def Chip.taskEnded (s : Chip) (task : Nat) : Bool :=
  match s.launchOf task with
  | none => true
  | some _ => decide (recState (s.recRd task 0) ≥ 5)

/-! ## Ready queues (R94, R95) -/

/-- Write NEXT of each individual task of a queue (R88, R94). -/
def Chip.relink (s : Chip) : List QEnt → Chip
  | [] => s
  | e :: t =>
    let s := if e.cursor then s
      else
        let nxt := match t.find? (fun x => !x.cursor) with | some x => x.who | none => 0
        let w := s.recRd e.who 0x38
        if w64Get w 0 32 = nxt then s else s.recWr e.who 0x38 (w64Put w 0 32 nxt)
    s.relink t

/-- The place of an entry among those that join a level in one cycle (R95): first those that rose, then by lowest task id. -/
def QEnt.rank (e : QEnt) : Nat := (if e.rose then 0 else 2 ^ 32) + e.lowest

/-- Put entries at the tail of a level, those of this cycle in the order of R95. -/
def Chip.enqueue (s : Chip) (d level : Nat) (es : List QEnt) : Chip :=
  if es.isEmpty then s
  else
    let q := (s.die d).queues.getD level []
    let q := (q.filter fun e => e.enq != s.now) ++ sortBy QEnt.rank ((q.filter fun e => e.enq == s.now) ++ es)
    (s.modDie d fun x => { x with queues := x.queues.put level q }).relink q

/-- Replace a level's queue. -/
def Chip.setQueue (s : Chip) (d level : Nat) (q : List QEnt) : Chip :=
  (s.modDie d fun x => { x with queues := x.queues.put level q }).relink q

/-- A READY task joins its level on its die; its record gets LEVEL, DIE and ENQCC (R88, R95). A HELD task joins none. -/
def Chip.enqueueTask (s : Chip) (task : Nat) : Chip :=
  let w := s.recRd task 0
  if w.getLsbD 58 then s
  else
    let s := s.recWr task 0x30 (BitVec.ofNat 64 s.now)
    s.enqueue (w64Get w 50 3) (recLevel w) [⟨false, task, [], s.now, s.now, false⟩]

/-- release of 05 R114. -/
def Chip.release (s : Chip) (task : Nat) : Chip :=
  match s.launchOf task with
  | none => s
  | some l =>
    let w := s.recRd task 0
    if recState w ≥ 5 then s.countEnded task (recState w)
    else if recState w ≠ stUnstarted then s
    else
      let w := w64Put w 61 3 stReady
      let w := if l.held then w64Put w 58 1 1 else w
      (s.recWr task 0 w).enqueueTask task

/-! ## Resources (R91, R97, R104) -/

/-- The core that holds a task's crew. -/
def Chip.findCrew (s : Chip) (task : Nat) : Option (Nat × Nat × Crew) :=
  s.cores.findSome? fun e => (e.2.crews.find? task).map fun c => (e.1 / 16, e.1 % 16, c)

/-- The members of a launch's crew with their roles, by member number. -/
def Launch.members (l : Launch) : List (Nat × Nat × Role) :=
  let go := l.roles.foldl (fun (st : Nat × List (Nat × Nat × Role)) r =>
    (st.1 + 1, st.2 ++ (List.range r.nctx).map fun k => (st.1, k, r))) (0, [])
  go.2

/-- Contexts that no crew has and none is to have. -/
def freeCtxs (co : Core) : List Nat :=
  (List.range Config.contexts).filter fun x => !co.ctxs.has x && !(co.reserved.any fun (r : Reserved) => r.ctxs.contains x)
def usedScalars (co : Core) : Nat :=
  co.ctxs.foldl (fun a e => a + e.2.budget) 0 + co.reserved.foldl (fun a (r : Reserved) => a + r.scalars) 0

/-- Barrier objects that no crew holds or is to hold, and that no transfer still counts against (11 R292). -/
def freeBars (s : Chip) (d c : Nat) : List Nat :=
  (List.range 32).filter fun b => !((s.core d c).crews.any fun e => e.2.bars.contains b) &&
    !((s.core d c).reserved.any fun (r : Reserved) => r.bars.contains b) &&
    !(s.asyncs.any fun a => a.who.die == d && a.who.core == c && a.bar == some b) &&
    !((s.die d).series.any fun i => i.who.core == c && i.bar == some b)

/-- The scratchpad windows of a core that are not free: of crews, of crews to come, and of ended crews whose operations run. -/
def usedWindows (co : Core) : List (Nat × Nat) :=
  ((co.crews.map fun e => (e.2.winBase, e.2.winBytes)) ++ (co.reserved.map fun (r : Reserved) => (r.winBase, r.winBytes)) ++
    co.left.map fun (e : Leftover) => (e.winBase, e.winBytes)).filter fun r => r.2 != 0

/-- The lowest offset where w bytes lie free on every engine (R91). -/
def findWindow (co : Core) (w : Nat) : Option Nat :=
  if w = 0 then some 0
  else
    let used := usedWindows co
    let cands := 0 :: used.map fun r => (r.1 + r.2 + 4095) / 4096 * 4096
    let ok := cands.filter fun o => decide (o + w ≤ Config.scratchBytes) &&
      used.all fun r => decide (o + w ≤ r.1) || decide (r.1 + r.2 ≤ o)
    ok.foldl (fun acc o => match acc with | none => some o | some x => some (min x o)) none

/-- What a crew of these members, with these bank numbers, takes from a core; none when it does not fit (R91, R97, R104). -/
def pickRes (s : Chip) (d c : Nat) (l : Launch) (task : Nat) (members : List (Nat × Nat × Role)) (banks : List Nat) :
    Option Reserved :=
  let co := s.core d c
  let xs := (freeCtxs co).take members.length
  let scalars := members.foldl (fun a m => a + 16 * m.2.2.sreg) 0
  let bars := (freeBars s d c).take l.nbar
  match findWindow co l.window with
  | none => none
  | some win =>
    if xs.length = members.length ∧ usedScalars co + scalars ≤ Config.scalarPool ∧ bars.length = l.nbar ∧
        (banks.all fun b => !co.banks.has b && !(co.reserved.any fun (r : Reserved) => r.banks.contains b)) = true then
      some { task := task, ctxs := xs, scalars := scalars, winBase := win, winBytes := l.window, bars := bars, banks := banks }
    else none

/-- The registers of a context at binding (R92, 06 R143, 10 R257, 11 R280). -/
def initCtx (s : Chip) (d c : Nat) (l : Launch) (task m : Nat) (role : Nat) (rm : Nat) (r : Role) (win : Nat) : Ctx :=
  let a := s.space l.asid
  let coord := s.recRd task 0x20
  let arg := s.recRd task 0x18
  let entry := if role = 0 then ((s.die d).entry0.getD task r.entry) else r.entry
  let h : Half := { Half.blank with
    pc := entry, mask := 0xFFFF, gmode := gmodeWrite r.gmode0, fmt := fmtWrite r.fmt0, asid := BitVec.ofNat 64 l.asid
    stvec := a.dstvec, tdeleg := a.dtdeleg, lastRetire := s.now }
  let h := (((((((((h.wrS 1 (BitVec.ofNat 64 task)).wrS 2 (BitVec.ofNat 64 (w64Get coord 0 16))).wrS 3
    (BitVec.ofNat 64 (w64Get coord 16 16))).wrS 4 (BitVec.ofNat 64 (w64Get coord 32 16))).wrS 5 arg).wrS 6
    (BitVec.ofNat 64 d)).wrS 7 (BitVec.ofNat 64 c)).wrS 8 (BitVec.ofNat 64 role)).wrS 9 (BitVec.ofNat 64 rm)).wrS 159
    (BitVec.ofNat 64 (0xFFFD000000000000 + l.stksz))
  { Ctx.blank with
    task := task, member := m, role := role, roleMember := rm, budget := 16 * r.sreg, spbase := win
    splim := win + l.window, readyAt := s.now + 16, main := { h with sWritten := 0 }
    gens := Vector.ofFn fun e => seedOf (BitVec.ofNat 32 task) e.val, lastRetire := s.now }

def Barrier.zero : Barrier := ⟨false, false, false, false, 0, 0, 0, 0, 0, 0⟩

/-- The window of a crew written to zero on every engine (11 R293). -/
def zeroWindow (m : Memory) (base bytes : Nat) : Memory :=
  m.filter fun c => !(decide (base ≤ c.1 % Config.scratchBytes) && decide (c.1 % Config.scratchBytes < base + bytes))

/-- Bind a crew that has no saved image with what has been picked for it (R91, R92): 16 cc later its contexts may issue. -/
def bindFresh (s : Chip) (d c : Nat) (l : Launch) (host : Nat) (saving : Bool) (r : Reserved) : Chip :=
  let co := s.core d c
  let ms := l.members
  let pairs := (List.range ms.length).zip (ms.zip r.ctxs)
  let ctxs := pairs.foldl (fun (t : AMap Ctx) p =>
    t.put p.2.2 (initCtx s d c l r.task p.1 p.2.1.1 p.2.1.2.1 p.2.1.2.2 r.winBase)) co.ctxs
  let crew : Crew := { task := r.task, nt := ms.length, ctxs := pairs.map fun p => (p.1, p.2.2), exited := 0, winBase := r.winBase,
                       winBytes := r.winBytes, bars := r.bars, host := host, moveTo := none, saving := saving }
  let co := { co with ctxs := ctxs, crews := co.crews.put r.task crew, scratch := zeroWindow co.scratch r.winBase r.winBytes,
                      bars := r.bars.foldl (fun t b => t.put b .zero) co.bars }
  (s.setCore d c co).modDie d fun x => { x with entry0 := x.entry0.del r.task }

/-- The lowest context of a crew. -/
def Crew.lowest (cr : Crew) : Nat := cr.ctxs.foldl (fun a p => min a p.2) 127

/-! ## The adoption stack (05 R129, R130) -/

/-- Clear HOST of an adopted task: RUNNING becomes PARKED, PARKED and WAITING stay (R130). -/
def clearHost (s : Chip) (task : Nat) : Chip :=
  let s := s.recWr task 8 (w64Put (s.recRd task 8) 0 32 0)
  let s := if recState (s.recRd task 0) = stRunning then s.recSetState task stParked else s
  { s with cores := s.cores.map fun e => (e.1, { e.2 with crews := e.2.crews.modify task fun cr => { cr with host := 0 } }) }

/-- The helper of an adopted task and its context, 0 and 0 for none (R124, R129; 11 R294). -/
def hostOf (s : Chip) (task : Nat) : Nat × Nat :=
  let host := w64Get (s.recRd task 8) 0 32
  if host = 0 then (0, 0)
  else (host, (s.cores.findSome? fun e => (e.2.adopt.find? fun (a : AdoptEntry) => a.task == task).map (·.hctx)).getD 0)

/-- Pop n entries from the top of a core's adoption stack. -/
def popAdopt (s : Chip) (d c : Nat) : Nat → Chip
  | 0 => s
  | n + 1 =>
    match (s.core d c).adopt with
    | [] => s
    | e :: t => popAdopt (clearHost (s.modCore d c fun co => { co with adopt := t }) e.task) d c n

/-- Pop down to and including the lowest entry that satisfies a test. -/
def popAdoptTo (s : Chip) (d c : Nat) (p : AdoptEntry → Bool) : Chip :=
  let st := (s.core d c).adopt
  -- entries from the top to the deepest one that satisfies the test
  let n := (List.range st.length).foldl (fun a k => match st[k]? with
    | some e => if p e then k + 1 else a
    | none => a) 0
  popAdopt s d c n

/-! ## Ending -/

def Ctx.fstatAll (c : Ctx) : Flags :=
  c.main.fstat.setWidth 5 ||| (match c.spare with | some h => h.fstat.setWidth 5 | none => 0)

/-- Landings of an ended context whose data has not come: their accesses still perform, and their entries stay till then (06 R154). -/
def orphaned (x : Nat) (k : Ctx) : List (Nat × Landing) :=
  (k.landings.filter fun (l : Landing) => !l.parts.isEmpty).map fun l => (x, l)

/-- Free one context: its deferrals are cancelled and its entries as a helper popped; a context that has ended, and is not only
saved, leaves its landings, and its FSTAT joins the launch's summary (05 R136, 06 R154, 10 R273, 11 R292). -/
def freeCtx (s : Chip) (d c x : Nat) (ended : Bool) : Chip :=
  match s.ctx? d c x with
  | none => s
  | some k =>
    let s := if ended then s.modLaunch (taskSlot k.task) fun l => { l with fstat := l.fstat ||| k.fstatAll } else s
    let s := (List.range Config.dies).foldl (fun s dd => s.modDie dd fun y =>
      { y with deferrals := y.deferrals.filter fun f => !(f.die == d && f.core == c && f.ctx == x) }) s
    let s := popAdoptTo s d c fun e => e.hctx == x
    s.modCore d c fun co =>
      { co with ctxs := co.ctxs.del x, running := if co.running = some x then none else co.running
                orphans := co.orphans ++ (if ended then orphaned x k else []) }

/-- Async operations, TLDPs, TSTPs or array instructions of a task's crew on a core may still use its window (11 R292, 15 R371). -/
def Chip.usesWindow (s : Chip) (d c task : Nat) : Bool :=
  (s.asyncs.any fun (a : Async) => a.who.die == d && a.who.core == c && a.who.task == task) ||
  ((s.die d).series.any fun (i : SeriesItem) => i.who.core == c && i.who.task == task &&
    (match i.op with | .tldp .. | .tstp .. => true | _ => false)) ||
  (s.core d c).arrays.any fun (r : ArrayRun) => r.task == task

/-- Freed banks that no array instruction in progress touches are written to zero, and then free (11 R293, 15 R371). -/
def settleBanks (co : Core) : Core :=
  let gone := (co.banks.filter fun e => e.2.parted && !(co.arrays.any fun (r : ArrayRun) => r.banks.contains e.1)).map (·.1)
  { co with banks := gone.foldl (fun t b => t.del b) co.banks
            acc := gone.foldl (fun m b => m.filter fun e => e.1 / 32768 != b) co.acc }

/-- Free everything a crew holds on its core (11 R292, R293): contexts, barriers, and, once the operations that use them have ended,
window and banks. -/
def freeCrew (s : Chip) (d c : Nat) (cr : Crew) (ended : Bool) : Chip :=
  let s := cr.ctxs.foldl (fun s p => freeCtx s d c p.2 ended) s
  let s := popAdoptTo s d c fun e => e.task == cr.task
  let used := s.usesWindow d c cr.task
  s.modCore d c fun co =>
    let co := settleBanks { co with banks := co.banks.map fun e => if e.2.crew = cr.task then (e.1, e.2.part) else e }
    { co with crews := co.crews.del cr.task
              scratch := if used then co.scratch else zeroWindow co.scratch cr.winBase cr.winBytes
              left := if used then ⟨cr.task, cr.winBase, cr.winBytes⟩ :: co.left else co.left
              bars := cr.bars.foldl (fun t b => t.del b) co.bars
              wdCount := if (co.crews.del cr.task).isEmpty then 0 else co.wdCount }

/-- Windows and banks of ended crews are freed once nothing uses them (11 R292, R293, 15 R371). -/
def settleLeft (s : Chip) (d c : Nat) : Chip :=
  let s := s.modCore d c settleBanks
  (s.core d c).left.foldl (fun s (e : Leftover) =>
    if s.usesWindow d c e.task then s
    else s.modCore d c fun co => { co with left := co.left.erase e, scratch := zeroWindow co.scratch e.winBase e.winBytes }) s

/-- The end of a task (R90): its record, which names no wait, the launch's counts, and the end notices to every slice (05 R132). -/
def recordEnd (s : Chip) (task st cause : Nat) : Chip :=
  match s.launchOf task with
  | none => s
  | some l =>
    if l.counted.contains task then s
    else if recState (s.recRd task 0) ≥ 5 then s.countEnded task (recState (s.recRd task 0))
    else
      let s := s.recWr task 0 (w64Put (s.recRd task 0) 61 3 st)
      let s := (s.recWr task 8 (w64Put (s.recRd task 8) 32 32 0)).recWr task 0x10 0
      let s := if st = stFaulted then s.recWr task 0x28 (w64Put (s.recRd task 0x28) 24 8 cause) else s
      s.countEnded task st

/-- The save area of a task (11 R288). -/
def Launch.saveVa (l : Launch) (task : Nat) : Nat := (l.savebase.toNat + l.savesz * taskIndex task) % 2 ^ 64

/-- What a fault record says (11 R294). -/
structure FaultRec where
  ends : Bool
  nested : Bool
  code : Nat
  detail : Nat
  trapa : W64
  traps : W64
  trapx : W64
  trapv : W64
  host : Nat
  die : Nat
  core : Nat
  hctx : Nat
  ctx : Nat
  rank : Nat
  nack : Nat
deriving DecidableEq, Repr

/-- Write a task's fault record, unless one that ended the task stands or the area cannot be written (R294, R452). -/
def writeFaultRec (s : Chip) (task : Nat) (f : FaultRec) : Chip :=
  match s.launchOf task with
  | none => s
  | some l =>
    let va := l.saveVa task
    match xlRange s f.die l.asid va 64 .store with
    | (.error _, s) => s
    | (.ok ps, s) =>
      let s := touchAt s f.die l.asid 1 [(va, (ps.headD (0, 0)).1, 64)]
      let old := BitVec.ofNat 64 (leNat ((seenPieces s ps).take 8))
      let oldValid := old.getLsbD 63 && w64Get old 0 32 == task
      if oldValid ∧ old.getLsbD 62 then s
      else
        let count := min 255 ((if oldValid then w64Get old 32 8 else 0) + 1)
        let w0 := 2 ^ 63 + (if f.ends then 2 ^ 62 else 0) + (if f.host ≠ 0 then 2 ^ 61 else 0) +
          (if f.nested then 2 ^ 60 else 0) + f.code % 256 * 2 ^ 48 + f.detail % 256 * 2 ^ 40 + count * 2 ^ 32 + task
        let w6 := f.host * 2 ^ 32 + f.die * 2 ^ 29 + f.core * 2 ^ 25 + f.hctx * 2 ^ 18 + f.ctx * 2 ^ 11
        let w7 := f.rank * 2 ^ 52 + f.nack * 2 ^ 44
        let ts := s.timebase
        let bytes := [w0, f.trapa.toNat, f.traps.toNat, f.trapx.toNat, f.trapv.toNat, ts, w6, w7].flatMap (leBytes 8)
        putPieces s task ps bytes

/-- An open phase completes as a failed phase (05 R135). -/
def Barrier.fail (b : Barrier) : Barrier :=
  if b.init then { b with failed := true, phase := !b.phase, pendarr := b.exparr } else b

/-- Before a crew's contexts end by a fault or by KILL, its barrier objects complete their open phases as failed phases, whose flags
every bound context of the crew sees; transfers still counted against them are discarded (05 R135, 06 R159). -/
def failPhases (s : Chip) (d c : Nat) (cr : Crew) : Chip :=
  let flags := (cr.bars.map fun b => ((s.core d c).bars.getD b .zero)).filter (·.init) |>.map (·.flag)
  let s := s.modCore d c fun co => { co with
    bars := cr.bars.foldl (fun t b => t.put b (co.bars.getD b .zero).fail) co.bars
    ctxs := co.ctxs.map fun e => if e.2.task = cr.task then
      (e.1, { e.2 with f := flags.foldl (fun f n => f ||| BitVec.ofNat 32 (2 ^ (n % 32))) e.2.f }) else e }
  let s := { s with asyncs := s.asyncs.map fun (a : Async) =>
    if a.who.die = d ∧ a.who.core = c ∧ a.who.task = cr.task then { a with bar := none } else a }
  s.modDie d fun y => { y with series := y.series.map fun (i : SeriesItem) =>
    if i.who.core = c ∧ i.who.task = cr.task then { i with bar := none } else i }

/-- A fault that no handler claims ends the task (R295, 05 R134): the fault record, the counts, and the crew's resources. -/
def endFaulted (s : Chip) (d c x : Nat) (code : Nat) (f : FaultRec) : Chip :=
  match s.ctx? d c x with
  | none => s
  | some k =>
    let task := k.task
    let s := writeFaultRec s task f
    let ts := s.timebase
    let s := s.modLaunch (taskSlot task) fun l =>
      let l1 := { l with faultCount := l.faultCount + 1 }
      if l.faultCount = 0 ∨ ts < l.firstAt ∨ (ts = l.firstAt ∧ task < l.firstTask) then
        { l1 with firstTask := task, firstCause := code, firstAt := ts }
      else l1
    let s := recordEnd s task stFaulted code
    match (s.core d c).crews.find? task with
    | some cr => freeCrew (failPhases s d c cr) d c cr true
    | none => s

end Sys2Proof.Machine
end

