-- ==== Sys2Proof/Machine/SaveImage.lean ====
section
/-! DEFINITION. Saved images (11 R286 to R291, R452; 04 R101, R104): the image of a context, the image of a crew, saving a
crew, and binding a crew again from its image. -/

namespace Sys2Proof.Machine

/-! ## The context image (R289) -/

/-- A stretch of an image: offset and bytes; bytes of no stretch are zero. -/
abbrev Seg := Nat × List Byte

def seg64 (off : Nat) (ws : List Nat) : Seg := (off, ws.flatMap (leBytes 8))

/-- Kind codes of R162. -/
def StackKind.code : StackKind → Nat
  | .divp => 0 | .divj => 1 | .split => 2 | .swgrp => 3 | .swjoin => 4
def StackKind.ofCode : Nat → StackKind
  | 0 => .divp | 1 => .divj | 2 => .split | 3 => .swgrp | _ => .swjoin

/-- An entry of a reconvergence stack as four words (R162). -/
def StackEntry.words (e : StackEntry) : List Nat :=
  [e.smask.toNat + e.pmask.toNat * 2 ^ 16 + e.key * 2 ^ 32 + e.kind.code * 2 ^ 40, e.join.toNat, e.pend.toNat, e.fmt.toNat]

def StackEntry.ofWords (w : Nat → Nat) : StackEntry :=
  { kind := .ofCode (w 0 / 2 ^ 40 % 8), key := w 0 / 2 ^ 32 % 256, pmask := BitVec.ofNat 16 (w 0 / 2 ^ 16)
    smask := BitVec.ofNat 16 (w 0), join := BitVec.ofNat 64 (w 1), pend := BitVec.ofNat 64 (w 2)
    fmt := BitVec.ofNat 64 (w 3) }

/-- The wake record's status word (17 R415). -/
def Half.wakeWord (h : Half) : Nat :=
  match h.wake with
  | none => 0
  | some a => a.code + a.info * 2 ^ 32

/-- Words 0x000 to 0x0FF of an image for one half. -/
def halfSegs (now : Nat) (c : Ctx) (spare : Bool) (base : Nat) : List Seg :=
  let h := c.half spare
  [seg64 base [h.pc.toNat, (c.activeReg spare).toNat, h.gmode.toNat, h.fmt.toNat, h.fstat.toNat,
     c.f.toNat + ((h.c ||| 1).toNat) * 2 ^ 32],
   (base + 0x30, (List.range 8).flatMap fun n => leBytes 2 (h.rdQ n).toNat),
   seg64 (base + 0x40) [h.cause.toNat, h.trapa.toNat, h.traps.toNat, h.trapx.toNat, h.trapv.toNat, h.tvec.toNat,
     h.stvec.toNat, h.tdeleg.toNat, h.asid.toNat, h.mesh.toNat, h.acstat.toNat, c.frozencc.toNat,
     h.count % 2 ^ 32 + h.hcount % 2 ^ 32 * 2 ^ 32, (match h.retryAt with | some t => t - now | none => 0), h.wakeWord,
     (match h.wake with | some a => a.value.toNat | none => 0)]]

def sSeg (c : Ctx) (h : Half) (base : Nat) : Seg :=
  seg64 base ((List.range 160).map fun n => if inBudget c.budget n then (h.rdS n).toNat else 0)

/-- Destination codes of landings, which are operand codes (R290). -/
def Landing.dist (h : Half) (l : Landing) : Nat := l.due - (if l.hnd then h.hcount else h.count)

/-- The tag of a landing (R290). -/
def Landing.tag (c : Ctx) (l : Landing) : List Nat :=
  let h := c.half l.spare
  let d := if l.dueNow ∨ h.frozenAt.isSome ∧ l.due ≤ (if l.hnd then h.hcount else h.count) then 0 else l.dist h
  [2 ^ 63 + (if l.hasData then 2 ^ 62 else 0) + (if l.pois.isSome then 2 ^ 61 else 0) + (if l.spare then 2 ^ 60 else 0) +
     (if l.hnd then 2 ^ 59 else 0) + l.dest % 256 * 2 ^ 48 + l.emask.toNat * 2 ^ 32 + d % 2 ^ 32,
   l.va.toNat] ++
  (List.range 4).map fun k => l.lanes.toNat / 2 ^ (64 * k) % 2 ^ 64

/-- The image of a context. -/
def ctxSegs (now : Nat) (c : Ctx) : List Seg :=
  halfSegs now c false 0 ++
  [seg64 0x100 (c.main.t.toList.map (·.toNat)),
   seg64 0x200 (c.main.stack.reverse.flatMap (·.words)),
   (0x500, c.gens.toList.flatMap fun g => leBytes 4 g.toNat),
   (0x600, (List.range 16).flatMap fun e => (List.range 8).flatMap fun n => leBytes 4 (c.rdH e n).toNat),
   (0x800, (List.range 8).flatMap fun n => leBytes 32 (c.rdK n).toNat),
   sSeg c c.main 0x1000,
   (0x2000, (List.range 32).flatMap fun n => (c.rdV n).toList.flatMap fun x => leBytes 4 x.toNat)] ++
  (match c.spare with
   | none => []
   | some h => seg64 0x400 (h.stack.reverse.flatMap (·.words)) :: sSeg c h 0x1800 ::
       seg64 0xA00 (h.t.toList.map (·.toNat)) :: halfSegs now c true 0x900) ++
  ((List.range c.landings.length).zip c.landings).flatMap fun p =>
    [(0xA000 + 1024 * p.1, p.2.data.toList.flatMap fun x => leBytes 4 x.toNat), seg64 (0x2A000 + 64 * p.1) (p.2.tag c)]

/-- A word of an image that is held as stretches (read-out, R80). -/
def segsWord (segs : List Seg) (off : Nat) : W64 :=
  match segs.find? fun s => decide (s.1 ≤ off) && decide (off + 8 ≤ s.1 + s.2.length) with
  | some s => BitVec.ofNat 64 (leNat ((s.2.drop (off - s.1)).take 8))
  | none => 0

/-! ## The crew image (R288) -/

/-- Barrier words (17 R423). -/
def Barrier.word0 (b : Barrier) : Nat :=
  (if b.init then 2 ^ 63 else 0) + (if b.phase then 2 ^ 62 else 0) + (if b.failed then 2 ^ 61 else 0) +
    (if b.err then 2 ^ 60 else 0) + b.flag * 2 ^ 55 + b.ecode * 2 ^ 40 + b.erow * 2 ^ 16 + b.exparr
def Barrier.word1 (b : Barrier) : Nat := b.pendarr * 2 ^ 48 + b.pendb.toNat
def Barrier.ofWords (a b : Nat) : Barrier :=
  { init := a.testBit 63, phase := a.testBit 62, failed := a.testBit 61, err := a.testBit 60, flag := a / 2 ^ 55 % 32
    ecode := a / 2 ^ 40 % 256, erow := a / 2 ^ 16 % 2 ^ 24, exparr := a % 2 ^ 16, pendarr := b / 2 ^ 48 % 2 ^ 16
    pendb := BitVec.ofNat 40 b }

/-- The crew member of a context number; an owner that has exited is kept as 128 plus its member number. -/
def Crew.memberOf (cr : Crew) (x : Nat) : Nat :=
  if x ≥ 128 then x - 128 else match cr.ctxs.find? fun p => p.2 == x with | some p => p.1 | none => 0

/-- The banks that a crew owns. -/
def crewBanks (co : Core) (task : Nat) : List (Nat × Bank) := co.banks.filter fun e => e.2.crew == task

/-- Offsets of R288. -/
def imgWindow (nt : Nat) : Nat := 0x1000 + nt * Config.imageBytes
def imgBanks (nt w : Nat) : Nat := imgWindow nt + 16 * w

/-- A crew's image, without the fault record at offset 0. -/
def crewSegs (now : Nat) (co : Core) (l : Launch) (cr : Crew) : List Seg :=
  let bks := crewBanks co cr.task
  let head : List Byte := segBytes 0xFC0 [
    seg64 0 [cr.nt + l.nbar * 2 ^ 8, cr.winBytes, bitsOf 64 fun b => bks.any (·.1 == b), cr.exited.toNat % 2 ^ 64,
      cr.exited.toNat / 2 ^ 64],
    seg64 0x40 (cr.bars.flatMap fun b => let x := co.bars.getD b .zero; [x.word0, x.word1]),
    seg64 0x3C0 ((List.range 64).flatMap fun b => match bks.find? (·.1 == b) with
      | none => [0, 0]
      | some e => [2 ^ 63 + cr.memberOf e.2.owner * 2 ^ 56 +
          (List.range 8).foldl (fun a r => a + cr.memberOf (e.2.holders.getD r 0) * 2 ^ (7 * r)) 0, 0])]
  (0x40, head) ::
  ((List.range cr.nt).map fun m => (0x1000 + m * Config.imageBytes,
    segBytes Config.imageBytes (match cr.ctxs.find? fun p => p.1 == m with
      | none => []
      | some p => match co.ctxs.find? p.2 with | some c => ctxSegs now c | none => []))) ++
  ((List.range 16).map fun e => (imgWindow cr.nt + e * cr.winBytes,
    co.scratch.read 0 (e * Config.scratchBytes + cr.winBase) cr.winBytes)) ++
  (bks.map fun e => (imgBanks cr.nt cr.winBytes + 32768 * e.1, co.acc.read 0 (32768 * e.1) 32768))
where
  /-- The bytes of stretches within n bytes. -/
  segBytes (n : Nat) (ss : List Seg) : List Byte :=
    (ss.foldl (fun m s => Memory.write 0 m s.1 s.2) []).read 0 0 n

/-! ## Saving (04 R101 steps 3 and 4, 11 R452) -/

/-- A task unit's range with its virtual addresses. -/
def withVas (va n : Nat) (ps : List (Nat × Nat)) : List (Nat × Nat × Nat) :=
  ((piecesOf va n).zip ps).map fun x => (x.1.1, x.2.1, x.2.2)

/-- Translate every stretch, then write them for a task; on a fault nothing is written (log 25). -/
def storeSegs (s : Chip) (d asid task base : Nat) (ss : List Seg) : Except (Bool × Nat) Chip :=
  match ss.foldl (fun (r : Except (Bool × Nat) (List (List (Nat × Nat) × List Byte) × Chip)) (g : Seg) =>
      match r with
      | .error e => .error e
      | .ok (ps, s) =>
        match xlRange s d asid ((base + g.1) % 2 ^ 64) g.2.length .store with
        | (.error e, _) => .error e
        | (.ok p, s) => .ok (ps ++ [(p, g.2)], touchAt s d asid 1 (withVas ((base + g.1) % 2 ^ 64) g.2.length p)))
      (.ok ([], s)) with
  | .error e => .error e
  | .ok (ps, s) => .ok (ps.foldl (fun s p => putPieces s task p.1 p.2) s)

/-- Cancel the deferrals of a crew's contexts and drop what a save does not keep. -/
def cancelDeferrals (s : Chip) (d c x : Nat) : Chip :=
  (List.range Config.dies).foldl (fun s dd => s.modDie dd fun y =>
    { y with deferrals := y.deferrals.filter fun f => !(f.die == d && f.core == c && f.ctx == x) }) s

/-- The fault record of a crew whose image cannot be written (R452). -/
def saveFaultRec (s : Chip) (d c : Nat) (cr : Crew) (k : Ctx) (prot : Bool) (va : Nat) : FaultRec :=
  { ends := true, nested := false, code := if prot then 4 else 3, detail := if prot then 5 else 4, trapa := k.main.pc
    traps := 0, trapx := 0, trapv := BitVec.ofNat 64 va, host := (hostOf s cr.task).1, die := d
    core := c, hctx := (hostOf s cr.task).2, ctx := cr.lowest, rank := 0, nack := 0 }

/-- What a save keeps of a half beside the image. -/
def Half.kept (h : Half) : KeptHalf :=
  { resid := h.resid, resuming := h.resuming, arrived := h.arrived, ended := h.ended, sWritten := h.sWritten
    wake := h.wake.map fun _ => h.wakeHnd, poison := h.poison }

/-- A fence of a half, or a DRAIN, has still to invalidate the L1 (07 R189). -/
def Half.invalidates (h : Half) : Bool :=
  (h.fences.any fun (f : Fence) => f.kind != .rel && f.scope != .gang) ||
    (match h.drain with | some f => f.scope != .gang | none => false)

/-- The fences of a crew at rest have nothing left to wait for (08 R216, R217). -/
def endFences (co : Core) (cr : Crew) : Core :=
  if cr.ctxs.any fun p => match co.ctxs.find? p.2 with
      | some k => k.main.invalidates || (match k.spare with | some h => h.invalidates | none => false)
      | none => false then { co with l1 := [] } else co

def Ctx.kept (c : Ctx) : Kept := ⟨c.main.kept, (c.spare.getD .blank).kept, c.landings.map (·.pois)⟩

/-- The key of a saved context: task and member. -/
def keptKey (task m : Nat) : Nat := 128 * task + m

/-- The saved contexts with those of a crew. -/
def keepCtxs (co : Core) (cr : Crew) (kept : AMap Kept) : AMap Kept :=
  cr.ctxs.foldl (fun (t : AMap Kept) p => match co.ctxs.find? p.2 with
    | some k => t.put (keptKey cr.task p.1) k.kept
    | none => t) kept

/-- The record of a task names no wait (04 R88: 0 if none). -/
def clearWaitLink (s : Chip) (task : Nat) : Chip :=
  (s.recWr task 8 (w64Put (s.recRd task 8) 32 32 0)).recWr task 0x10 0

/-- Save a crew that has stopped, free what it holds, and put its task back (R101 steps 3 and 4): READY, SAVED, held under
MODE 1. For a crew moved by an adoption the record is left to the mover (05 R125). -/
def saveCrew (s : Chip) (d c task : Nat) (held requeue : Bool) : Chip :=
  match s.launchOf task, (s.core d c).crews.find? task with
  | some l, some cr =>
    let s := cr.ctxs.foldl (fun s p => cancelDeferrals s d c p.2) s
    let co := s.core d c
    match storeSegs s d l.asid task (l.saveVa task) (crewSegs s.now co l cr) with
    | .error (prot, va) =>
      let k := (co.ctxs.find? cr.lowest).getD .blank
      endFaulted s d c cr.lowest (if prot then 4 else 3) (saveFaultRec s d c cr k prot va)
    | .ok s =>
      let s := { s.modCore d c fun co => endFences co cr with kept := keepCtxs co cr s.kept }
      let s := clearWaitLink (freeCrew s d c cr false) task
      let s := s.recMod0 task fun w => w64Put (w64Put (if requeue then w64Put w 61 3 stReady else w) 57 1 1) 58 1
        (if held then 1 else 0)
      let s := s.modLaunch (taskSlot task) fun l => { l with preempts := if requeue then l.preempts + cr.ctxs.length else l.preempts }
      if requeue then s.enqueueTask task else s
  | _, _ => s

/-! ## Binding again (04 R104, 11 R287) -/

/-- An image read from memory: bytes of R288 from offset 0x40, by offset. -/
def imgRead (s : Chip) (d asid base off n : Nat) : Option (Array Byte) × Chip :=
  match xlRange s d asid ((base + off) % 2 ^ 64) n .load with
  | (.error _, s) => (none, s)
  | (.ok ps, s) => (some (seenPieces s ps).toArray, touchAt s d asid 2 (withVas ((base + off) % 2 ^ 64) n ps))

/-- Whether every stretch of an image, by offset and length, translates. -/
def imgReadable (s : Chip) (d asid base : Nat) (gs : List (Nat × Nat)) : Bool × Chip :=
  gs.foldl (fun (st : Bool × Chip) g =>
    let r := xlRange st.2 d asid ((base + g.1) % 2 ^ 64) g.2 .load
    (st.1 && (match r.1 with | .ok _ => true | .error _ => false), r.2)) (true, s)

/-- The n bytes at an offset as a number. -/
def imgNat (a : Array Byte) (off n : Nat) : Nat := leNat (a.extract off (off + n)).toList
def img64 (a : Array Byte) (off : Nat) : W64 := BitVec.ofNat 64 (imgNat a off 8)

/-- A half from its words at base, its t registers, s registers and stack; reserved bits of its registers are dropped (00 R4). What
the save kept is given. -/
def halfOf (a : Array Byte) (now base tOff sOff stOff depth : Nat) (kh : KeptHalf) : Half :=
  let act := imgNat a (base + 8) 8
  let retry := imgNat a (base + 0xA8) 8
  let wk := imgNat a (base + 0xB0) 8
  { Half.blank with
    pc := img64 a base, mask := BitVec.ofNat 16 act, killed := BitVec.ofNat 16 (act / 2 ^ 16)
    s := Vector.ofFn fun (n : Fin 160) => img64 a (sOff + 8 * n.val)
    sWritten := kh.sWritten, c := BitVec.ofNat 8 (imgNat a (base + 0x2C) 1)
    q := Vector.ofFn fun (n : Fin 8) => BitVec.ofNat 16 (imgNat a (base + 0x30 + 2 * n.val) 2)
    t := Vector.ofFn fun (n : Fin 16) => img64 a (tOff + 8 * n.val) &&& 0x7FFC0
    gmode := gmodeWrite (img64 a (base + 0x10)), fmt := fmtWrite (img64 a (base + 0x18))
    fstat := img64 a (base + 0x20) &&& 0x1F
    acstat := img64 a (base + 0x90) &&& 1, mesh := img64 a (base + 0x88) &&& meshMask, asid := img64 a (base + 0x80) &&& 0xFFF
    tvec := img64 a (base + 0x68) &&& vecMask, stvec := img64 a (base + 0x70) &&& vecMask
    tdeleg := img64 a (base + 0x78) &&& delegMask
    cause := img64 a (base + 0x40) &&& causeMask, trapa := img64 a (base + 0x48) &&& ~~~ 31
    traps := img64 a (base + 0x50) &&& 0xFFFFFFFF, trapx := img64 a (base + 0x58) &&& trapxMask, trapv := img64 a (base + 0x60)
    stack := ((List.range depth).map fun k => StackEntry.ofWords fun j => imgNat a (stOff + 32 * k + 8 * j) 8).reverse
    count := imgNat a (base + 0xA0) 4, hcount := imgNat a (base + 0xA4) 4, resid := kh.resid, resuming := kh.resuming
    wake := kh.wake.map fun _ => ⟨wk % 256, wk / 2 ^ 32, img64 a (base + 0xB8), [], 0, 0⟩, wakeHnd := kh.wake.getD false
    retryAt := if retry = 0 then none else some (now + retry), arrived := kh.arrived, ended := kh.ended
    lastRetire := now, poison := kh.poison }

/-- A saved landing (R290): written before the bundle numbered count + DIST. -/
def landingOf (a : Array Byte) (j : Nat) (main spare : Half) (pois : Option W64) : Option Landing :=
  let off := 0x2A000 + 64 * j
  let w := imgNat a off 8
  if !w.testBit 63 then none
  else
    let sp := w.testBit 60
    let hnd := w.testBit 59
    let h := if sp then spare else main
    let lanes := BitVec.ofNat 256 (imgNat a (off + 0x10) 32)
    some { id := j, spare := sp, hnd := hnd, due := (if hnd then h.hcount else h.count) + w % 2 ^ 32, dest := w / 2 ^ 48 % 256,
           lanes := lanes, emask := BitVec.ofNat 16 (w / 2 ^ 32), va := img64 a (off + 8), parts := []
           data := Vector.ofFn fun (l : Fin 256) => BitVec.ofNat 32 (imgNat a (0xA000 + 1024 * j + 4 * l.val) 4)
           pois := if w.testBit 61 then some (pois.getD (img64 a (off + 8))) else none, spilled := false, dueNow := false
           dropped := false, behind := false, seq := 0 }

def KeptHalf.none : KeptHalf := Half.blank.kept

/-- A context from its image and from what its save kept. -/
def ctxOf (s : Chip) (a : Array Byte) (l : Launch) (task m : Nat) (role rm : Nat) (r : Role) (win : Nat) : Ctx :=
  let kp := s.kept.getD (keptKey task m) ⟨.none, .none, []⟩
  let act := imgNat a 8 8
  let main := halfOf a s.now 0 0x100 0x1000 0x200 (act / 2 ^ 32 % 32) kp.main
  let split := act.testBit 41
  let spare := halfOf a s.now 0x900 0xA00 0x1800 0x400 (act / 2 ^ 37 % 16) kp.spare
  let lands := (List.range 128).filterMap fun j => landingOf a j main spare (kp.pois.getD j .none)
  let spareEngines := match main.stack.find? fun e => e.kind == .split with | some e => e.pmask | .none => 0
  { Ctx.blank with
    task := task, member := m, role := role, roleMember := rm, budget := 16 * r.sreg, spbase := win
    splim := win + l.window, readyAt := s.now + 16, main := main
    spare := if split then some { spare with killed := 0 } else .none
    spareEngines := if split then spareEngines else 0
    v := Vector.ofFn fun (n : Fin 32) => Vector.ofFn fun (l : Fin 256) =>
      BitVec.ofNat 32 (imgNat a (0x2000 + 1024 * n.val + 4 * l.val) 4)
    k := Vector.ofFn fun (n : Fin 8) => BitVec.ofNat 256 (imgNat a (0x800 + 32 * n.val) 32)
    h := Vector.ofFn fun (e : Fin 16) => Vector.ofFn fun (n : Fin 8) =>
      shapeWrite (BitVec.ofNat 32 (imgNat a (0x600 + 32 * e.val + 4 * n.val) 4))
    gens := Vector.ofFn fun (e : Fin 16) => BitVec.ofNat 32 (imgNat a (0x500 + 4 * e.val) 4)
    f := BitVec.ofNat 32 (imgNat a 0x28 4), frozencc := img64 a 0x98, landings := lands, nextLanding := 128
    lastRetire := s.now }

/-- What a saved task takes (R97, R104). -/
structure Saved where
  /-- Its remaining members: number, role number, number within the role, role. -/
  members : List (Nat × Nat × Nat × Role)
  banks : List Nat
  /-- The image from offset 0x40 to 0x1000. -/
  head : Array Byte

/-- The stretches of an image that a binding reads beside its head: offset and length. -/
def imgStretches (l : Launch) (sv : Saved) : List (Nat × Nat) :=
  (sv.members.map fun m => (0x1000 + m.1 * Config.imageBytes, Config.imageBytes)) ++
    ((List.range 16).map fun e => (imgWindow l.nt + e * l.window, l.window)) ++
    sv.banks.map fun b => (imgBanks l.nt l.window + 32768 * b, 32768)

/-- What a saved task takes; none when the image cannot be read (log 25). -/
def savedNeeds (s : Chip) (d : Nat) (l : Launch) (task : Nat) : Option Saved × Chip :=
  match imgRead s d l.asid (l.saveVa task) 0x40 0xFC0 with
  | (none, s) => (none, s)
  | (some a, s) =>
    let ex := imgNat a 0x18 16
    let sv : Saved := ⟨((List.range l.nt).zip l.members).filter fun m => !ex.testBit m.1,
      (List.range 64).filter (imgNat a 0x10 8).testBit, a⟩
    let (ok, s) := imgReadable s d l.asid (l.saveVa task) (imgStretches l sv)
    (if ok then some sv else none, s)

/-- A claim holds the reading of a virtual range by a task unit: at its lines or its tables (08 R222). -/
def rangeHeld (s : Chip) (d asid va n : Nat) : Bool :=
  rangeWalkHeld s d asid va n || (match (xlRange s d asid va n .load).1 with
    | .ok ps => ps.any fun p => (linesOf p.1 p.2).any s.claimed
    | .error _ => false)

/-- A claim holds the reading of a saved image. -/
def savedHeld (s : Chip) (d : Nat) (l : Launch) (task : Nat) : Bool :=
  let base := l.saveVa task
  rangeHeld s d l.asid ((base + 0x40) % 2 ^ 64) 0xFC0 ||
    (match (savedNeeds s d l task).1 with
     | some sv => (imgStretches l sv).any fun g => rangeHeld s d l.asid ((base + g.1) % 2 ^ 64) g.2
     | none => false)

/-- Bind a crew again from its image with what has been picked for it. -/
def bindSaved (s : Chip) (d c : Nat) (l : Launch) (host : Nat) (saving : Bool) (r : Reserved) : Chip :=
  let task := r.task
  match savedNeeds s d l task with
  | (none, s) => s
  | (some sv, s) =>
    let base := l.saveVa task
    let win := r.winBase
    let pairs := sv.members.zip r.ctxs
    let ctxNo := fun (m : Nat) => match pairs.find? fun p => p.1.1 == m with | some p => p.2 | none => 128 + m
    let (ctxs, s) := pairs.foldl (fun (st : AMap Ctx × Chip) p =>
      let (a, s) := imgRead st.2 d l.asid base (0x1000 + p.1.1 * Config.imageBytes) Config.imageBytes
      (st.1.put p.2 (ctxOf s (a.getD #[]) l task p.1.1 p.1.2.1 p.1.2.2.1 p.1.2.2.2 win), s)) ((s.core d c).ctxs, s)
    let (scratch, s) := (List.range 16).foldl (fun (st : Memory × Chip) e =>
      let (a, s) := imgRead st.2 d l.asid base (imgWindow l.nt + e * l.window) l.window
      (st.1.write 0 (e * Config.scratchBytes + win) ((a.getD #[]).toList), s)) ((s.core d c).scratch, s)
    let (acc, s) := sv.banks.foldl (fun (st : Memory × Chip) b =>
      let (a, s) := imgRead st.2 d l.asid base (imgBanks l.nt l.window + 32768 * b) 32768
      (st.1.write 0 (32768 * b) ((a.getD #[]).toList), s)) ((s.core d c).acc, s)
    let bankTab := sv.banks.foldl (fun (t : AMap Bank) b =>
      let w := imgNat sv.head (0x3C0 + 16 * b) 8
      t.put b { owner := ctxNo (w / 2 ^ 56 % 128), crew := task
                holders := Vector.ofFn fun (r : Fin 8) => ctxNo (w / 2 ^ (7 * r.val) % 128) }) (s.core d c).banks
    let barTab := ((List.range r.bars.length).zip r.bars).foldl (fun (t : AMap Barrier) p =>
      t.put p.2 (.ofWords (imgNat sv.head (0x40 + 16 * p.1) 8) (imgNat sv.head (0x48 + 16 * p.1) 8))) (s.core d c).bars
    let crew : Crew := { task := task, nt := l.nt, ctxs := pairs.map fun p => (p.1.1, p.2)
                         exited := BitVec.ofNat 128 (imgNat sv.head 0x18 16), winBase := win, winBytes := l.window, bars := r.bars
                         host := host, moveTo := none, saving := saving }
    let s := { s with kept := pairs.foldl (fun (t : AMap Kept) (p : (Nat × Nat × Nat × Role) × Nat) => t.del (keptKey task p.1.1)) s.kept }
    (s.modCore d c fun co => { co with ctxs := ctxs, crews := co.crews.put task crew, scratch := scratch, acc := acc,
                                       banks := bankTab, bars := barTab }).recMod0 task
      fun w => w64Put w 57 1 0

end Sys2Proof.Machine
end

