-- ==== Sys2Proof/Machine/Ops.lean ====
section
/-! DEFINITION. The shared operations on contexts: changing a half, modes, deriving trap state, taking a trap (11 R275 to
R281), the end of a task by an unclaimed fault (R295), returning from a handler (R282). -/

namespace Sys2Proof.Machine
open Sys2Proof.Irnov

/-- A half of a context on a core: die, core, context, spare half. -/
structure HalfId where
  die : Nat
  core : Nat
  ctx : Nat
  spare : Bool
deriving DecidableEq, Repr

/-- The place of a half in die, core and context order (17 R429, R431). -/
def HalfId.order (w : HalfId) : Nat := ((w.die * 16 + w.core) * 128 + w.ctx) * 2 + w.spare.toNat

namespace Chip
/-- Change one half of a context. -/
def modHalf (s : Chip) (w : HalfId) (f : Half → Half) : Chip :=
  s.modCtx w.die w.core w.ctx fun c => c.setHalf w.spare (f (c.half w.spare))
def ctxOf? (s : Chip) (w : HalfId) : Option Ctx := s.ctx? w.die w.core w.ctx
def coreOf (s : Chip) (w : HalfId) : Core := s.core w.die w.core
end Chip

/-! ## Modes -/

/-- Handler mode HM of CAUSE (R277): 0 normal, 1 user handler, 2 supervisor handler. -/
def Half.hm (h : Half) : Nat := w64Get h.cause 10 2
def Half.setHm (h : Half) (m : Nat) : Half := { h with cause := w64Put h.cause 10 2 m }
/-- Supervisor mode (R280): HM = 2, and throughout for a launch of LEVEL 7. -/
def Half.supervisor (h : Half) (level : Nat) : Bool := h.hm == 2 || level == 7

/-! ## Trap state (R276 to R279) -/

/-- What the trapping bundle adds to the trap state: the syllable's word, the mask register that it names, the syllables
present. A boundary or fetch trap names no syllable. -/
structure TrapSite where
  word : W32
  kreg : Nat
  resid : BitVec 7
deriving DecidableEq, Repr

/-- The site of a fetch trap: the bundle is not known, and RESUME issues all of it (log 26). -/
def TrapSite.fetch (h : Half) : TrapSite := ⟨0, 0, h.resid.getD 0x7F⟩

/-- A bundle's eight words (12 R299). -/
def bundleOfBytes (bs : List Byte) : Bundle :=
  ⟨Vector.ofFn fun (n : Fin 8) => BitVec.ofNat 32 (leNat ((bs.drop (4 * n.val)).take 4))⟩

/-- The site of a boundary trap: RESID says which syllables of the bundle then due are present (R278, R279). -/
def boundarySite (s : Chip) (w : HalfId) (h : Half) : TrapSite :=
  match h.resid, (fetchBundle s w.die w.core h.asid.toNat h.pc).1 with
  | none, .bytes bs => ⟨0, 0, (bundleOfBytes bs).pres⟩
  | _, _ => .fetch h

/-- CAUSE with HM kept (R277). -/
def causeWord (h : Half) (split spare : Bool) (code detail : Nat) (nores : Bool) : W64 :=
  BitVec.ofNat 64 (code % 256 + (if h.hm = 1 then 2 ^ 8 else 0) + (if nores then 2 ^ 9 else 0) + h.hm * 2 ^ 10 +
    (if split ∧ spare then 2 ^ 12 else 0) + detail % 256 * 2 ^ 16)

/-- TRAPX (R279). -/
def trapxWord (h : Half) (c : Cause) (site : TrapSite) : W64 :=
  BitVec.ofNat 64 (h.mask.toNat + c.slot % 8 * 2 ^ 16 + site.kreg % 8 * 2 ^ 32 + site.resid.toNat * 2 ^ 35 +
    c.lane % 256 * 2 ^ 56)

/-- A half with its trap state written (R276). -/
def Half.writeTrap (h : Half) (split spare : Bool) (c : Cause) (nores : Bool) (site : TrapSite) : Half :=
  { h with cause := causeWord h split spare c.code c.detail nores, trapa := h.pc
           traps := if c.slot = 0 then 0 else site.word.setWidth 64, trapx := trapxWord h c site, trapv := c.va }

/-- An address register of a handler: ADDR and EN (R280). -/
def vecAddr (v : W64) : W64 := v &&& 0xFFFFFFFFFFE0
def vecEn (v : W64) : Bool := v.getLsbD 0

/-- Where a trap goes (R280): handler mode and address, or none when nothing claims it. -/
def handlerOf (h : Half) (code : Nat) : Option (Nat × W64) :=
  if h.hm = 2 then none
  else if h.hm = 0 ∧ h.tdeleg.getLsbD code ∧ code ≠ 0x0D ∧ vecEn h.tvec then some (1, vecAddr h.tvec)
  else if vecEn h.stvec then some (2, vecAddr h.stvec)
  else none

/-- Landings of a half in handler mode keep their distances while the handler landing count starts at 0 (R281; log 27). -/
def restartHandlerCount (c : Ctx) (spare : Bool) : Ctx :=
  let h := c.half spare
  let c := { c with landings := c.landings.map fun (l : Landing) =>
    if l.hnd ∧ l.spare = spare then { l with due := l.due - h.hcount } else l }
  c.setHalf spare { h with hcount := 0 }

/-- Enter a handler: the next bundle is the handler's (R280). -/
def enterHandler (c : Ctx) (spare : Bool) (hm : Nat) (vec : W64) : Ctx :=
  let c := restartHandlerCount c spare
  c.setHalf spare { (c.half spare).setHm hm with pc := vec, resid := none, resuming := none, hold := none }

/-! ## Unclaimed faults (R294, R295) -/

/-- The fault record that a half's trap state gives. -/
def faultOf (s : Chip) (w : HalfId) (c : Ctx) (code : Nat) : FaultRec :=
  let h := c.half w.spare
  let host := hostOf s c.task
  { ends := true, nested := h.cause.getLsbD 8, code := code, detail := w64Get h.cause 16 8, trapa := h.trapa
    traps := h.traps, trapx := h.trapx, trapv := h.trapv, host := host.1, die := w.die, core := w.core
    hctx := host.2, ctx := w.ctx, rank := 0, nack := 0 }

/-- unclaimed of R295: the task ends. -/
def unclaimed (s : Chip) (w : HalfId) (code : Nat) : Chip :=
  match s.ctxOf? w with
  | none => s
  | some c => endFaulted s w.die w.core w.ctx code (faultOf s w c code)

/-- take_trap of R280, shared by every trap: the trap state is written, and a handler is entered or the task ends. -/
def takeTrap (s : Chip) (w : HalfId) (cause : Cause) (nores : Bool) (site : TrapSite) : Chip :=
  match s.ctxOf? w with
  | none => s
  | some c =>
    let h := c.half w.spare
    let c1 := c.setHalf w.spare { h.writeTrap c.spare.isSome w.spare cause nores site with hold := none }
    match handlerOf h cause.code with
    | some (hm, vec) => s.setCtx w.die w.core w.ctx (enterHandler c1 w.spare hm vec)
    | none => unclaimed (s.setCtx w.die w.core w.ctx c1) w cause.code

/-- TRAP in handler mode (R281): from the user handler to the supervisor handler with the trap state unchanged, from the
supervisor handler, or with no supervisor handler, to the task's end with the code that CAUSE holds. -/
def passOn (s : Chip) (w : HalfId) : Chip :=
  match s.ctxOf? w with
  | none => s
  | some c =>
    let h := c.half w.spare
    if h.hm = 1 ∧ vecEn h.stvec then s.setCtx w.die w.core w.ctx (enterHandler c w.spare 2 (vecAddr h.stvec))
    else unclaimed s w (w64Get h.cause 0 8)

/-! ## Returning from a handler (R282) -/

/-- The literal syllables of the bundle at an address, as a half fetches it. -/
def litsAt (s : Chip) (w : HalfId) (h : Half) (a : W64) : BitVec 7 :=
  match (fetchBundle s w.die w.core h.asid.toNat a).1 with
  | .bytes bs => (bundleOfBytes bs).lit
  | _ => 0

/-- The part of resume after every handler landing has been written: NORES ends the task; otherwise HM := 0 and the bundle
at TRAPA issues again without the syllables of m, whose bits for literals are ignored. -/
def resume (s : Chip) (w : HalfId) (m : BitVec 7) : Chip :=
  match s.ctxOf? w with
  | none => s
  | some c =>
    let h := c.half w.spare
    if h.cause.getLsbD 9 then unclaimed s w (w64Get h.cause 0 8)
    else
      let r := h.trapx.extractLsb' 35 7 &&& ~~~ (m &&& ~~~ litsAt s w h (h.trapa &&& ~~~ 31))
      s.setCtx w.die w.core w.ctx (c.setHalf w.spare { h.setHm 0 with
        trapx := w64Put h.trapx 35 7 r.toNat, pc := h.trapa &&& ~~~ 31, resid := some r, resuming := none })

/-! ## Flags of the crew and the core -/

/-- Set flag n of F in a context that still serves the task. -/
def setFlag (s : Chip) (d c x task n : Nat) : Chip :=
  match s.ctx? d c x with
  | some k => if k.task = task then s.setCtx d c x { k with f := k.f ||| BitVec.ofNat 32 (2 ^ (n % 32)) } else s
  | none => s

/-- Set flag n in every bound context of a crew (06 R159). -/
def setCrewFlag (s : Chip) (d c task n : Nat) : Chip :=
  match (s.core d c).crews.find? task with
  | none => s
  | some cr => cr.ctxs.foldl (fun s p => setFlag s d c p.2 task n) s

end Sys2Proof.Machine
end

