-- ==== Sys2Proof/Machine/Approx.lean ====
section
/-! DEFINITION. The approximations VRCP, VRSQ, VEXP2 and VLOG2 (14 R356): the exact result is bracketed by integer
arithmetic, and the value given among those that the rule allows is a free choice of Config (log 12). -/

namespace Sys2Proof.Machine

/-- The exact result of an approximation as a magnitude: m × 2^e, with a last bit that stands for an inexact tail. -/
structure Tail where
  neg : Bool
  m : Nat
  e : Int
  exact : Bool
deriving DecidableEq, Repr

/-- The binary32 encoding next to zero of the exact result. -/
def Tail.low (t : Tail) : Nat := (roundTo (.fin t.neg t.m t.e) .f32 .rtz false 0).1

/-- The binary32 magnitudes k places above an encoding's magnitude, sign kept. -/
def f32Step (x k : Nat) : Nat := x + k

/-- One of the two binary32 values that bracket the result (VRCP, VRSQ). -/
def Tail.bracket (t : Tail) (upper : Bool) : Nat :=
  if t.exact then t.low
  else
    let r := roundTo (.fin t.neg t.m t.e) .f32 .rtz false 0
    if r.2 = 0 then r.1 else if upper then f32Step r.1 1 else r.1

/-- One of the binary32 values within 2 units of the last place of the exact result (VEXP2, VLOG2): the choice is an offset
from the value next to zero, taken where it keeps within the bound. -/
def Tail.near (t : Tail) (choice : Nat) : Nat :=
  let lo := t.low
  if t.exact then lo
  else
    let mag := lo % 2 ^ 31
    let s := lo - mag
    let st : Nat → Nat × Int := fun x => match fDecode .f32 x with | .fin _ m e => (m, e) | _ => (0, -149)
    let ulp : Int := max ((Nat.log2 t.m : Int) + t.e) (-126) - 23
    let scale : Nat → Nat := fun x => (st x).1 * 2 ^ ((st x).2 + 149).toNat
    let u := 2 ^ (ulp + 149).toNat
    let c := mag + choice % 6
    let y := if c < 3 then 0 else c - 3
    if y < 0x7F800000 ∧ scale mag ≤ scale y + u ∧ scale y ≤ scale mag + 2 * u then s + y else lo

/-- 1 / (m × 2^e). -/
def rcpTail (neg : Bool) (m : Nat) (e : Int) : Tail :=
  let n := 2 ^ 256
  let q := n / m
  ⟨neg, 2 * q + (if q * m = n then 0 else 1), -e - 257, decide (q * m = n)⟩

/-- 1 / √(m × 2^e). -/
def rsqTail (m : Nat) (e : Int) : Tail :=
  let (m, e) := if e % 2 = 0 then (m, e) else (2 * m, e - 1)
  let n := 2 ^ 256
  let r := isqrt (n / m)
  ⟨false, 2 * r + (if r * r * m = n then 0 else 1), -e / 2 - 129, decide (r * r * m = n)⟩

/-- 2^(2^−i) for i = 1, 2, … scaled by 2^256, one step: the square root of the last. -/
def exp2Root (s : Nat) : Nat := isqrt (s * 2 ^ 256)

/-- The product of the roots of 2 that the bits of f (k bits after the point, highest first) select, scaled by 2^256. -/
def exp2Frac (f : Nat) : Nat → Nat → Nat → Nat
  | 0, _, acc => acc
  | k + 1, s, acc =>
    let s' := exp2Root s
    exp2Frac f k s' (if f.testBit k then acc * s' / 2 ^ 256 else acc)

/-- 2^a for a = ±m × 2^e with |a| below 2^10. -/
def exp2Tail (neg : Bool) (m : Nat) (e : Int) : Tail :=
  if 0 ≤ e ∨ m % 2 ^ (-e).toNat = 0 then
    let n : Int := sgnInt neg (if 0 ≤ e then m * 2 ^ e.toNat else m / 2 ^ (-e).toNat)
    ⟨false, 1, n, true⟩
  else
    let k := (-e).toNat
    let v := sgnInt neg m
    let n := v / 2 ^ k
    let f := (v % 2 ^ k).toNat
    ⟨false, 2 * exp2Frac f k (2 * 2 ^ 256) (2 ^ 256) + 1, n - 257, false⟩

/-- Bits of log2 x after the point for x in [1, 2) scaled by 2^256. -/
def log2Bits : Nat → Nat → Nat → Nat
  | 0, _, acc => acc
  | k + 1, x, acc =>
    let y := x * x / 2 ^ 256
    if 2 * 2 ^ 256 ≤ y then log2Bits k (y / 2) (2 * acc + 1) else log2Bits k y (2 * acc)

/-- log2 of m × 2^e; none for exactly 1, whose logarithm is zero. -/
def log2Tail (m : Nat) (e : Int) : Option Tail :=
  let k := Nat.log2 m
  let n : Int := (k : Int) + e
  if m = 2 ^ k then
    if n = 0 then none else some ⟨decide (n < 0), n.natAbs, 0, true⟩
  else
    let x := m * 2 ^ 256 / 2 ^ k
    let v : Int := n * 2 ^ 110 + log2Bits 110 x 0
    if 0 ≤ v then some ⟨false, 2 * v.toNat + 1, -111, false⟩
    else some ⟨true, 2 * (-v - 1).toNat + 1, -111, false⟩

/-- The result of an approximation in type f from y, the binary32 value, with its flags: inexact when the result differs
from the exact one, overflow for an infinity, underflow for an inexact subnormal or zero. -/
def approxResult (f : FFmt) (rm : Rm) (dm : Nat) (t : Tail) (y : Nat) : Nat × Flags :=
  let r := (roundTo (fDecode .f32 y) f rm false dm).1
  let same : Bool := t.exact && match fDecode f r with
    | .fin s m e => (s == t.neg) && !dyLt m e t.m t.e && !dyLt t.m t.e m e
    | _ => false
  let inx : Flags := if same then 0 else .inx
  let v := fDecode f r
  let ovf : Flags := if isInf v then Flags.ovf ||| Flags.inx else 0
  let unf : Flags := if !same && (isZero v || fSubnormal f r) then Flags.unf ||| Flags.inx else 0
  (r, inx ||| ovf ||| unf)

inductive ApproxOp where
  | rcp | rsq | exp2 | log2
deriving DecidableEq, Repr

/-- An approximation of R356 on an encoding of .f32, .f16 or .bf16. -/
def approx (op : ApproxOp) (f : FFmt) (rm : Rm) (dm : Nat) (a : Nat) : Nat × Flags :=
  let v := fDecode f (fFlushIn f dm a)
  -- the operand as binary32, for the choice
  let a32 := BitVec.ofNat 32 (roundTo v .f32 .rne false 0).1
  match op, v with
  | _, .nan s => (f.nan, if s then .inv else 0)
  | .rcp, .zero s => (fWithSign f s f.infEnc, .dz)
  | .rcp, .inf s => (fWithSign f s 0, 0)
  | .rcp, .fin s m e =>
    let t := rcpTail s m e
    approxResult f rm dm t (t.bracket (Config.rcpTakesUpper a32))
  | .rsq, .zero _ => (f.infEnc, .dz)
  | .rsq, .inf s => if s then (f.nan, .inv) else (0, 0)
  | .rsq, .fin s m e =>
    if s then (f.nan, .inv)
    else
      let t := rsqTail m e
      approxResult f rm dm t (t.bracket (Config.rsqTakesUpper a32))
  | .exp2, .zero _ => roundTo (.fin false 1 0) f rm false dm
  | .exp2, .inf s => if s then (0, 0) else (f.infEnc, 0)
  | .exp2, .fin s m e =>
    if !dyLt m e 1 10 then
      -- far outside the exponent range
      if s then
        let t : Tail := ⟨false, 3, -2000, false⟩
        approxResult f rm dm t (t.near (Config.exp2Step a32))
      else (f.infEnc, Flags.ovf ||| Flags.inx)
    else
      let t := exp2Tail s m e
      if !s && !dyLt m e 1 7 then (f.infEnc, Flags.ovf ||| Flags.inx)
      else approxResult f rm dm t (t.near (Config.exp2Step a32))
  | .log2, .zero _ => (fWithSign f true f.infEnc, .dz)
  | .log2, .inf s => if s then (f.nan, .inv) else (f.infEnc, 0)
  | .log2, .fin s m e =>
    if s then (f.nan, .inv)
    else match log2Tail m e with
      | none => (0, 0)
      | some t => approxResult f rm dm t (t.near (Config.log2Step a32))

end Sys2Proof.Machine
end

