-- ==== Sys2Proof/Machine/Operands.lean ====
section
/-! DEFINITION. Operand forms: scalar sources (13 R322, 12 R301), elements of vector registers (06 R140, 14 R346, R347),
and the register writes that a bundle applies after every slot has read (08 R205). -/

namespace Sys2Proof.Machine
open Sys2Proof.Irnov

/-- opv and opb of R322: a 64-bit integer operand; a literal is sign-extended. -/
def opv (h : Half) : Src → W64
  | .reg n => h.rdS n
  | .imm v => v
  | .lit w => w.signExtend 64

/-- A floating operand of 64 or 32 bits as an encoding: a .f32 operand is the low 32 bits, a literal read as .f64 is widened
(12 R301, 13 R329). -/
def opf (single : Bool) (h : Half) : Src → Nat
  | .reg n => if single then (h.rdS n).toNat % 2 ^ 32 else (h.rdS n).toNat
  | .imm v => if single then v.toNat % 2 ^ 32 else v.toNat
  | .lit w => if single then w.toNat else widenLiteral w.toNat

/-- The engines' lanes that an instruction of this half may use: lanes of active engines (06 R142). -/
def lanesOf (mask : BitVec 16) : BitVec 256 := mask256 fun l => mask.getLsbD (l / 16)

/-- Number of elements of width w in a vector register (14 R346). -/
def elemCount (w : Nat) : Nat := if w = 64 then 128 else 256
/-- The lane that governs element j (06 R140). -/
def govLane (w j : Nat) : Nat := if w = 64 then 2 * j else j

/-- Element j of width w of a vector register, as bits. -/
def elemGet (w : Nat) (v : Vector W32 256) (j : Nat) : Nat :=
  if w = 64 then (v.getD (2 * j) 0).toNat + 2 ^ 32 * (v.getD (2 * j + 1) 0).toNat
  else (v.getD j 0).toNat % 2 ^ w

/-- Whether lane l belongs to an element of width w that the predicate selects. -/
def elemLanes (w : Nat) (sel : Nat → Bool) : BitVec 256 := mask256 fun l => if w = 64 then sel (l / 2) else sel l

/-- The lanes of a vector whose elements of width w are given: bits above the element's width are zero. -/
def elemTab (w : Nat) (f : Nat → Nat) : Vector W32 256 :=
  laneTab fun l =>
    if w = 64 then (let x := f (l / 2); BitVec.ofNat 32 (if l % 2 = 0 then x else x / 2 ^ 32))
    else BitVec.ofNat 32 (f l % 2 ^ w)

/-- A register write by a slot. Lanes and bits not named keep their values. -/
inductive Wr where
  | s (n : Nat) (x : W64)
  | c (n : Nat) (b : Bool)
  | q (n : Nat) (x : BitVec 16)
  | t (n : Nat) (x : W64)
  | v (n : Nat) (lanes : BitVec 256) (x : Vector W32 256)
  | k (n : Nat) (lanes bits : BitVec 256)
  | h (e n : Nat) (x : W32)
  | fmt (x : W64)
  /-- The generator state of an engine after its draws (10 R256). -/
  | gen (e : Nat) (g : W32)
deriving DecidableEq, Repr

/-- Apply one write to a half of a context. -/
def Wr.apply (c : Ctx) (spare : Bool) : Wr → Ctx
  | .s n x => c.setHalf spare ((c.half spare).wrS n x)
  | .c n b => c.setHalf spare ((c.half spare).wrC n b)
  | .q n x => c.setHalf spare ((c.half spare).wrQ n x)
  | .t n x => c.setHalf spare ((c.half spare).wrT n x)
  | .v n lanes x => c.wrV n lanes x
  | .k n lanes bits => c.wrK n lanes bits
  | .h e n x => c.wrH e n x
  | .fmt x => c.setHalf spare { c.half spare with fmt := fmtWrite x }
  | .gen e g => { c with gens := c.gens.setIfInBounds e g }

def applyWrs (c : Ctx) (spare : Bool) (ws : List Wr) : Ctx := ws.foldl (fun c w => w.apply c spare) c

/-- What a slot computes from the state before the bundle: its register writes and the IEEE flags it raises. -/
structure SlotOut where
  wr : List Wr
  flags : Flags
deriving DecidableEq, Repr

def SlotOut.none : SlotOut := ⟨[], 0⟩
def SlotOut.one (w : Wr) : SlotOut := ⟨[w], 0⟩

end Sys2Proof.Machine
end

