-- ==== Sys2Proof/Machine/Scalar.lean ====
section
/-! DEFINITION. The S-class computations (13 R324 to R331, R344): integer and logic, division, bit fields, compares, scalar
floating point, conversions, classification, engine predicates. Control is in Control.lean. -/

namespace Sys2Proof.Machine
open Sys2Proof.Irnov

/-- div of R325. -/
def divS (a b : W64) : W64 :=
  if b = 0 then (if a = 0 then 0 else if 0 < a.toInt then 0x7FFFFFFFFFFFFFFF else 0x8000000000000000)
  else if a = 0x8000000000000000 ∧ b = 0xFFFFFFFFFFFFFFFF then 0x7FFFFFFFFFFFFFFF
  else BitVec.ofInt 64 (a.toInt.tdiv b.toInt)

/-- rem of R325. -/
def remS (a b : W64) : W64 :=
  if b = 0 then 0
  else if a = 0x8000000000000000 ∧ b = 0xFFFFFFFFFFFFFFFF then 0
  else BitVec.ofInt 64 (a.toInt.tmod b.toInt)

/-- divu of R325. -/
def divU (a b : W64) : W64 :=
  if b = 0 then (if a = 0 then 0 else 0xFFFFFFFFFFFFFFFF) else BitVec.ofNat 64 (a.toNat / b.toNat)

/-- remu of R325. -/
def remU (a b : W64) : W64 := if b = 0 then 0 else BitVec.ofNat 64 (a.toNat % b.toNat)

/-- The low w bits, sign-extended from bit w − 1; w of 1 to 64. -/
def signExtNat (w x : Nat) : W64 := BitVec.ofInt 64 (bitsToInt true w x)

/-- bfx of R326. -/
def bfx (a c : W64) : W64 :=
  let p := c.toNat % 64
  let w0 := c.toNat / 256 % 64
  let w := if w0 = 0 then 64 else w0
  let f := (a.toNat / 2 ^ p) % 2 ^ w
  if c.getLsbD 16 then signExtNat w f else BitVec.ofNat 64 f

/-- bfi of R326. -/
def bfi (d a c : W64) : W64 :=
  let p := c.toNat % 64
  let w0 := c.toNat / 256 % 64
  let w := if w0 = 0 then 64 else w0
  let m := BitVec.ofNat 64 ((2 ^ w - 1) * 2 ^ p)
  (d &&& ~~~ m) ||| ((a <<< p) &&& m)

/-- Leading zero bits of a number of w bits. -/
def clzNat (w x : Nat) : Nat := if x = 0 then w else w - 1 - Nat.log2 x

/-- Trailing zero bits of a number of w bits. -/
def ctzNat (w x : Nat) : Nat := ((List.range w).find? x.testBit).getD w

/-- Bit i of the result is bit w − 1 − i. -/
def brevNat (w x : Nat) : Nat := bitsOf w fun i => x.testBit (w - 1 - i)

/-- The two-operand integer instructions of R324; d is the old value of sD, pc the bundle's address. -/
def aluOp (op : AluOp) (pc d a b : W64) : W64 :=
  let sh := b.toNat % 64
  let w := if sh = 0 then 64 else sh
  match op with
  | .add => a + b
  | .sub => a - b
  | .mul => a * b
  | .mulh => BitVec.ofInt 64 (a.toInt * b.toInt / 2 ^ 64)
  | .mulhu => BitVec.ofNat 64 (a.toNat * b.toNat / 2 ^ 64)
  | .div => divS a b
  | .divu => divU a b
  | .rem => remS a b
  | .remu => remU a b
  | .and => a &&& b
  | .or => a ||| b
  | .xor => a ^^^ b
  | .andn => a &&& ~~~ b
  | .orn => a ||| ~~~ b
  | .shl => a <<< sh
  | .shr => a >>> sh
  | .sra => a.sshiftRight sh
  | .rot => a.rotateRight sh
  | .min => if a.toInt ≤ b.toInt then a else b
  | .max => if a.toInt ≤ b.toInt then b else a
  | .minu => if a.toNat ≤ b.toNat then a else b
  | .maxu => if a.toNat ≤ b.toNat then b else a
  | .sext => signExtNat w (a.toNat % 2 ^ w)
  | .zext => BitVec.ofNat 64 (a.toNat % 2 ^ w)
  | .bfx => bfx a b
  | .bfi => bfi d a b
  | .lea => pc + a + b
  | .ldi => BitVec.ofNat 64 (a.toNat % 2 ^ 32 * 2 ^ 32 + b.toNat % 2 ^ 32)

def unOp (op : UnOp) (a : W64) : W64 :=
  match op with
  | .clz => BitVec.ofNat 64 (clzNat 64 a.toNat)
  | .ctz => BitVec.ofNat 64 (ctzNat 64 a.toNat)
  | .popc => BitVec.ofNat 64 (popcount 64 a.toNat)
  | .brev => BitVec.ofNat 64 (brevNat 64 a.toNat)
  | .mov => a

/-- The compares of R327. -/
def icmp (op : ICmp) (a b : W64) : Bool :=
  match op with
  | .eq => a == b
  | .ne => a != b
  | .lt => decide (a.toInt < b.toInt)
  | .ltu => decide (a.toNat < b.toNat)
  | .ge => decide (b.toInt ≤ a.toInt)
  | .geu => decide (b.toNat ≤ a.toNat)

/-- The scalar floating operations of R329 on encodings. -/
def farith (op : FOp) (f : FFmt) (rm : Rm) (dm : Nat) (d a b : Nat) : Nat × Flags :=
  match op with
  | .add => fAdd f rm dm a b
  | .sub => fSub f rm dm a b
  | .mul => fMul f rm dm a b
  | .fma => fFma f rm dm a b d
  | .min => fMinMax f false dm a b
  | .max => fMinMax f true dm a b

/-- Conversion of one element between two types (10 R260): integer to integer keeps the low bits, or clamps with sat. -/
def convElem (dst src : Ty) (rm : Rm) (sat : Bool) (dm : Nat) (x : Nat) : Nat × Flags :=
  let sw := tyWidth src
  let dw := tyWidth dst
  match tyF src, tyF dst with
  | some fs, some fd => fConv fs fd rm sat dm (x % 2 ^ sw)
  | some fs, none => fToInt fs (tySigned dst) dw rm dm (x % 2 ^ sw)
  | none, some fd => fOfInt fd rm sat dm (bitsToInt (tySigned src) sw x)
  | none, none =>
    let v := bitsToInt (tySigned src) sw x
    (intToBits dw (if sat then intClamp (tySigned dst) dw v else v), 0)

/-- FCLASS of R331. -/
def fclass (f : FFmt) (x : Nat) : W64 :=
  let s := if fSign f x then 8 else 0
  match fDecode f x with
  | .zero _ => BitVec.ofNat 64 (0x10 + s)
  | .inf _ => BitVec.ofNat 64 (3 + s)
  | .nan sig => BitVec.ofNat 64 (0x20 + s + (if sig then 5 else 4))
  | .fin _ m e =>
    let k := (Nat.log2 m : Int) + e
    BitVec.ofNat 64 (intToBits 32 k * 2 ^ 32 + 0x10 + s + (if fSubnormal f x then 1 else 2))

/-- The engine that a scalar SR conversion draws from: the lowest active one, or engine 0 (10 R256). -/
def scalarDrawEngine (h : Half) : Nat := (lowest16 h.mask).getD 0

/-- QFROMK and QALLK (R344): per active engine, any or all of its sixteen mask bits. -/
def qFromK (all : Bool) (mask : BitVec 16) (k : BitVec 256) : BitVec 16 :=
  mask16 fun e => mask.getLsbD e &&
    (if all then (List.range 16).all fun i => k.getLsbD (16 * e + i) else (List.range 16).any fun i => k.getLsbD (16 * e + i))

/-- The effect of an S-class instruction that computes (R324 to R331, R344); control and system-register instructions give
nothing here, but for the register writes of CALL, JR and LOOP (R332). -/
def scalarOut (c : Ctx) (spare : Bool) (i : SIns) : SlotOut :=
  let h := c.half spare
  let rm := gRm h.gmode
  let dm := gDm h.gmode
  match i with
  | .alu op d a b => .one (.s d (aluOp op h.pc (h.rdS d) (opv h a) (opv h b)))
  | .un op d a => .one (.s d (unOp op (opv h a)))
  | .sel d a n inv => if (h.rdC n != inv) then .one (.s d (opv h a)) else .none
  | .cmp op n a b => .one (.c n (icmp op (opv h a) (opv h b)))
  | .farith op single d a b =>
    let f := if single then FFmt.f32 else FFmt.f64
    let d0 := if single then (h.rdS d).toNat % 2 ^ 32 else (h.rdS d).toNat
    let (r, fl) := farith op f rm dm d0 (opf single h a) (opf single h b)
    ⟨[.s d (BitVec.ofNat 64 r)], fl⟩
  | .fcmp op single n a b =>
    let f := if single then FFmt.f32 else FFmt.f64
    let cmp := match op with | .eq => CmpOp.eq | .lt => CmpOp.lt | .le => CmpOp.le
    let (r, fl) := fCompare f cmp dm (opf single h a) (opf single h b)
    ⟨[.c n r], fl⟩
  | .fcvt sr dst src d a =>
    let e := scalarDrawEngine h
    let g := drawStep (c.gens.getD e 0)
    let x := match tyF src with
      | some _ => (match a with | .lit w => if src = .f64 then widenLiteral w.toNat else w.toNat | a => (opv h a).toNat)
      | none => (opv h a).toNat
    let (r, fl) := convElem dst src (if sr then .sr g else rm) false dm x
    let r64 := if tySigned dst then signExtNat (tyWidth dst) r else BitVec.ofNat 64 r
    ⟨.s d r64 :: (if sr then [.gen e g] else []), fl⟩
  | .fclass single d a => .one (.s d (fclass (if single then .f32 else .f64) (opf single h a)))
  | .call _ => .one (.s 158 (h.pc + 32))
  | .jr d _ => .one (.s d (h.pc + 32))
  | .loop n _ => .one (.s n (h.rdS n - 1))
  | .qset q b => .one (.q q ((opv h b).setWidth 16))
  | .qlog op q a b =>
    let x := h.rdQ a
    let y := h.rdQ b
    .one (.q q (match op with | .and => x &&& y | .or => x ||| y | .xor => x ^^^ y))
  | .qnot q a => .one (.q q (~~~ h.rdQ a))
  | .qk all q k => .one (.q q (qFromK all h.mask (c.rdK k)))
  | .qpopc d a => .one (.s d (BitVec.ofNat 64 (popcount 16 (h.rdQ a).toNat)))
  | .qfirst d a => .one (.s d (BitVec.ofNat 64 ((lowest16 (h.rdQ a)).getD 16)))
  | .qmov d a => .one (.s d ((h.rdQ a).setWidth 64))
  | .snop | .br .. | .jmp _ | .ret | .divg .. | .dswitch .. | .endp | .ekill _ | .wait .. | .exit | .trap _ | .resume _
  | .sysr .. | .sysw .. | .ifence | .bkpt => .none

end Sys2Proof.Machine
end

