-- ==== Sys2Proof/Machine/VectorOps.lean ====
section
/-! DEFINITION. The V-class computations (14 R345 to R361) and the cable (14 R362 to R365, 06 R173, R174), from the registers
as they stand before the bundle. -/

namespace Sys2Proof.Machine
open Sys2Proof.Irnov

/-- A lane-by-lane operation on elements a and b, with d the old destination element (R349 to R351, R354). -/
def vbin (op : VBin) (flag : Bool) (t : Ty) (rm : Rm) (dm : Nat) (a b d : Nat) : Nat × Flags :=
  let w := tyWidth t
  let sg := tySigned t
  let ia := bitsToInt sg w a
  let ib := bitsToInt sg w b
  let id := bitsToInt sg w d
  let int := fun (v : Int) => (intToBits w v, (0 : Flags))
  match tyF t, op with
  | some f, .add => fAdd f rm dm a b
  | some f, .sub => fSub f rm dm a b
  | some f, .mul => fMul f rm dm a b
  | some f, .fma => fFma f rm dm a b d
  | some f, .fms =>
    vFma f rm dm (fDecode f (fFlushIn f dm a)).neg (fDecode f (fFlushIn f dm b)) (fDecode f (fFlushIn f dm d))
  | some f, .min => fMinMax f false dm a b
  | some f, .max => fMinMax f true dm a b
  | _, .add => int (if flag then intClamp sg w (ia + ib) else ia + ib)
  | _, .sub => int (if flag then intClamp sg w (ia - ib) else ia - ib)
  | _, .mul => int (if flag then ia * ib / 2 ^ w else ia * ib)
  | _, .fma => int (ia * ib + id)
  | _, .fms => int (id - ia * ib)
  | _, .min => int (min ia ib)
  | _, .max => int (max ia ib)
  | _, .and => (a &&& b, 0)
  | _, .or => (a ||| b, 0)
  | _, .xor => (a ^^^ b, 0)
  | _, .shl => let s := b % 256; (if s ≥ w then 0 else a * 2 ^ s % 2 ^ w, 0)
  | _, .shr => let s := b % 256; (if s ≥ w then 0 else a / 2 ^ s, 0)
  | _, .sra => let s := min (b % 256) (w - 1); (intToBits w (bitsToInt true w a / 2 ^ s), 0)
  | _, .extr =>
    let p := b % 64
    let n0 := b / 256 % 64
    let n := if n0 = 0 ∨ n0 > w then w else n0
    let x := a / 2 ^ p % 2 ^ n
    (if b.testBit 16 then intToBits w (bitsToInt true n x) else x % 2 ^ w, 0)

/-- A lane-by-lane operation on one element (R349 to R351, R353, R354, R356). -/
def vun (op : VUn) (flag : Bool) (t : Ty) (rm : Rm) (dm : Nat) (a : Nat) : Nat × Flags :=
  let w := tyWidth t
  let sg := tySigned t
  let ia := bitsToInt sg w a
  match op, tyF t with
  | .abs, some f => (fFlushIn f dm a % 2 ^ (w - 1), 0)
  | .neg, some f => let x := fFlushIn f dm a; (if x.testBit (w - 1) then x - 2 ^ (w - 1) else x + 2 ^ (w - 1), 0)
  | .abs, none => let v : Int := ia.natAbs; (intToBits w (if flag then intClamp sg w v else v), 0)
  | .neg, none => (intToBits w (if flag then intClamp sg w (-ia) else -ia), 0)
  | .not, _ => (2 ^ w - 1 - a, 0)
  | .mov, _ => (a, 0)
  | .clz, _ => (clzNat w a, 0)
  | .popc, _ => (popcount w a, 0)
  | .sqrt, some f => fSqrt f rm dm a
  | .rcp, some f => approx .rcp f rm dm a
  | .rsq, some f => approx .rsq f rm dm a
  | .exp2, some f => approx .exp2 f rm dm a
  | .log2, some f => approx .log2 f rm dm a
  | _, none => (a, 0)

/-- The compares of VCMP (R352). -/
def vcmpElem (cc : VCc) (t : Ty) (dm : Nat) (a b : Nat) : Bool × Flags :=
  let op : CmpOp := match cc with
    | .eq => .eq | .ne => .ne | .lt => .lt | .le => .le | .gt => .gt | .ge => .ge | .un => .eq
  match tyF t with
  | some f =>
    if cc = .un then
      let x := fDecode f (fFlushIn f dm a)
      let y := fDecode f (fFlushIn f dm b)
      (x.isNan || y.isNan, if x.isSnan || y.isSnan then .inv else 0)
    else fCompare f op dm a b
  | none =>
    let w := tyWidth t
    (op.holds (bitsToInt (tySigned t) w a - bitsToInt (tySigned t) w b), 0)

/-- The order of minima, maxima and VTOPK (R262): by order_key for floating types, by value for integers. -/
def orderVal (t : Ty) (x : Nat) : Int :=
  match tyF t with
  | some f => (orderKey x f.width : Nat)
  | none => bitsToInt (tySigned t) (tyWidth t) x

/-- combine of R358; the earlier operand stays on a tie. -/
def combine (op : RedOp) (t : Ty) (rm : Rm) (dm : Nat) (acc x : Nat) : Nat × Flags :=
  match op with
  | .sum => match tyF t with
    | some f => fAdd f rm dm acc x
    | none => ((acc + x) % 2 ^ tyWidth t, 0)
  | .min => (if orderVal t x < orderVal t acc then x else acc, 0)
  | .max => (if orderVal t acc < orderVal t x then x else acc, 0)
  | .and => (acc &&& x, 0)
  | .or => (acc ||| x, 0)
  | .xor => (acc ^^^ x, 0)

/-- The first operand of a sum as it enters: flushed under DM (R358). -/
def enter (op : RedOp) (t : Ty) (dm : Nat) (x : Nat) : Nat :=
  match op, tyF t with
  | .sum, some f => fFlushIn f dm x
  | _, _ => x

/-- Running combination of a list of (position, value): results in order with the position each chose, and the flags. -/
def scanList (op : RedOp) (t : Ty) (rm : Rm) (dm : Nat) :
    List (Nat × Nat) → Option (Nat × Nat) → Flags → List (Nat × Nat × Nat) × Flags
  | [], _, fl => ([], fl)
  | (p, x) :: rest, acc, fl =>
    let (v, ch, f) := match acc with
      | none => (enter op t dm x, p, (0 : Flags))
      | some (a, c) =>
        let (r, f) := combine op t rm dm a x
        let changed := match op with
          | .min => decide (orderVal t x < orderVal t a)
          | .max => decide (orderVal t a < orderVal t x)
          | _ => false
        (r, if changed then p else c, f)
    let (tl, fl') := scanList op t rm dm rest (some (v, ch)) (fl ||| f)
    ((p, v, ch) :: tl, fl')

/-- Insert into a list sorted descending by the order, ties by ascending position (R360). -/
def topkInsert (t : Ty) (e : Nat × Nat) : List (Nat × Nat) → List (Nat × Nat)
  | [] => [e]
  | f :: rest => if orderVal t f.2 < orderVal t e.2 then e :: f :: rest else f :: topkInsert t e rest

def topkSort (t : Ty) (xs : List (Nat × Nat)) : List (Nat × Nat) := xs.foldl (fun acc e => topkInsert t e acc) []

/-- The governing bits of the elements that take part: active engines' lanes with the mask bit set (R347). -/
def partMask (c : Ctx) (spare : Bool) (k : Nat) : BitVec 256 := lanesOf (c.half spare).mask &&& c.rdK k

def takesPart (pm : BitVec 256) (w j : Nat) : Bool := pm.getLsbD (govLane w j)

/-- Results of a per-element function over the elements that take part: a vector write and the OR of the flags. -/
def perElem (pm : BitVec 256) (w vd : Nat) (f : Nat → Nat × Flags) : SlotOut :=
  let rs := (List.range (elemCount w)).map fun j => if takesPart pm w j then some (f j) else none
  let arr := rs.toArray
  ⟨[.v vd (elemLanes w (takesPart pm w)) (elemTab w fun j => match arr.getD j none with | some r => r.1 | none => 0)],
   rs.foldl (fun fl r => match r with | some r => fl ||| r.2 | none => fl) 0⟩

/-- The positions of a segment's elements that take part, with their values: elements s × E to s × E + E − 1. -/
def segPart (pm : BitVec 256) (w e s : Nat) (v : Vector W32 256) : List (Nat × Nat) :=
  ((List.range e).filter fun p => takesPart pm w (s * e + p)).map fun p => (p, elemGet w v (s * e + p))

/-- A write to elements given as (element, value). -/
def elemWrites (w vd : Nat) (xs : List (Nat × Nat)) : Wr :=
  let m : AMap Nat := xs
  .v vd (elemLanes w fun j => m.has j) (elemTab w fun j => m.getD j 0)

/-- A .ui32 index written at elements of width w: in lane 2j with lane 2j + 1 zero when w = 64 (R358). -/
def idxWrites (w vd : Nat) (xs : List (Nat × Nat)) : Wr := elemWrites (if w = 64 then 64 else 32) vd xs

/-- The effect of a V-class instruction on the state before the bundle (14). -/
def vectorOut (c : Ctx) (spare : Bool) (i : VIns) : SlotOut :=
  let h := c.half spare
  let rm := gRm h.gmode
  let dm := gDm h.gmode
  let act := lanesOf h.mask
  match i with
  | .bin op flag t k vd va vb =>
    let w := tyWidth t
    let a := c.rdV va
    let b := c.rdV vb
    let d := c.rdV vd
    perElem (partMask c spare k) w vd fun j => vbin op flag t rm dm (elemGet w a j) (elemGet w b j) (elemGet w d j)
  | .un op flag t k vd va =>
    let w := tyWidth t
    let a := c.rdV va
    perElem (partMask c spare k) w vd fun j => vun op flag t rm dm (elemGet w a j)
  | .cmp cc t k kd va vb =>
    let w := tyWidth t
    let a := c.rdV va
    let b := c.rdV vb
    let pm := partMask c spare k
    let rs := (List.range (elemCount w)).map fun j =>
      if takesPart pm w j then some (vcmpElem cc t dm (elemGet w a j) (elemGet w b j)) else none
    let arr := rs.toArray
    let res := fun j => match arr.getD j none with | some r => r.1 | none => false
    ⟨[.k kd (elemLanes w (takesPart pm w)) (elemLanes w res)],
     rs.foldl (fun fl r => match r with | some r => fl ||| r.2 | none => fl) 0⟩
  | .sel t k vd va vb =>
    let w := tyWidth t
    let a := c.rdV va
    let b := c.rdV vb
    let kk := c.rdK k
    .one (.v vd (elemLanes w (takesPart act w))
      (elemTab w fun j => if kk.getLsbD (govLane w j) then elemGet w a j else elemGet w b j))
  | .bcast t k vd x =>
    let w := tyWidth t
    let v := match x with
      | .lit l => if t = .f64 then widenLiteral l.toNat else (l.signExtend 64).toNat % 2 ^ w
      | x => (opv h x).toNat % 2 ^ w
    perElem (partMask c spare k) w vd fun _ => (v, 0)
  | .cvt dst src sat sr k vd va =>
    let sw := tyWidth src
    let dw := tyWidth dst
    let wide := if sw = 64 ∨ dw = 64 then 64 else 32
    let a := c.rdV va
    let pm := partMask c spare k
    let get := fun j => if sw = 64 then elemGet 64 a j else (a.getD (govLane wide j) 0).toNat % 2 ^ sw
    let step := fun (st : List (Nat × Nat) × Vector W32 16 × Flags) (j : Nat) =>
      if takesPart pm wide j then
        let e := govLane wide j / 16
        let g := drawStep (st.2.1.getD e 0)
        let (r, fl) := convElem dst src (if sr then .sr g else rm) sat dm (get j)
        ((j, r) :: st.1, if sr then st.2.1.setIfInBounds e g else st.2.1, st.2.2 ||| fl)
      else st
    let (rs, gens, fl) := (List.range (elemCount wide)).foldl step ([], c.gens, 0)
    ⟨elemWrites (if wide = 64 then 64 else dw) vd rs ::
      (if sr then (List.range 16).map fun e => Wr.gen e (gens.getD e 0) else []), fl⟩
  | .iota abs t k vd =>
    let w := tyWidth t
    let e := gSegW h.gmode / (if w = 64 then 2 else 1)
    perElem (partMask c spare k) w vd fun j => ((if abs then j else j % e) % 2 ^ w, 0)
  | .shuf t k vd va vb =>
    let w := tyWidth t
    let e := gSegW h.gmode / (if w = 64 then 2 else 1)
    let a := c.rdV va
    let b := c.rdV vb
    let pm := partMask c spare k
    perElem pm w vd fun j =>
      let x := j / e * e + elemGet w b j % e
      (if takesPart pm w x then elemGet w a x else if gFill h.gmode then elemGet w a j else 0, 0)
  | .red scan op t k vd va vi =>
    let w := tyWidth t
    let e := gSegW h.gmode / (if w = 64 then 2 else 1)
    let a := c.rdV va
    let pm := partMask c spare k
    let segs := (List.range (elemCount w / e)).map fun s =>
      let (rs, fl) := scanList op t rm dm (segPart pm w e s a) none 0
      let last := (rs.reverse.head?).getD (0, 0, 0)
      (rs.map fun r => (s * e + r.1, if scan then r.2.1 else last.2.1, last.2.2), fl)
    let all := (segs.map (·.1)).flatten
    ⟨elemWrites w vd (all.map fun (r : Nat × Nat × Nat) => (r.1, r.2.1)) ::
      (vi.toList.map fun v => idxWrites w v (all.map fun (r : Nat × Nat × Nat) => (r.1, r.2.2))),
     segs.foldl (fun fl (s : List (Nat × Nat × Nat) × Flags) => fl ||| s.2) 0⟩
  | .vote m k vd ka =>
    let e := gSegW h.gmode
    let pm := partMask c spare k
    let kk := c.rdK ka
    let inA := fun l => pm.getLsbD l && kk.getLsbD l
    let seg := fun l => (List.range e).map fun p => l / e * e + p
    let cntA := fun l => ((seg l).filter inA).length
    let cntP := fun l => ((seg l).filter pm.getLsbD).length
    match m with
    | .any => .one (.k vd pm (mask256 fun l => cntA l != 0))
    | .all => .one (.k vd pm (mask256 fun l => cntA l == cntP l))
    | .eq => .one (.k vd pm (mask256 fun l => cntA l == 0 || cntA l == cntP l))
    | .cnt => .one (.v vd pm (laneTab fun l => BitVec.ofNat 32 (cntA l)))
    | .pre => .one (.v vd pm (laneTab fun l => BitVec.ofNat 32 (((seg l).filter fun x => inA x && decide (x < l)).length)))
  | .topk t k vd vi va lk =>
    let w := tyWidth t
    let e := gSegW h.gmode / (if w = 64 then 2 else 1)
    let a := c.rdV va
    let pm := partMask c spare k
    let all : List (Nat × Nat × Nat) := ((List.range (elemCount w / e)).map fun s =>
      let xs := segPart pm w e s a
      let top := (topkSort t xs).take (2 ^ lk)
      List.zipWith (fun (x : Nat × Nat) (y : Nat × Nat) => (s * e + x.1, y)) xs top).flatten
    ⟨[elemWrites w vd (all.map fun r => (r.1, r.2.2)), idxWrites w vi (all.map fun r => (r.1, r.2.1))], 0⟩
  | .klog op k kd ka kb =>
    let x := c.rdK ka
    let y := c.rdK kb
    .one (.k kd (partMask c spare k) (match op with | .and => x &&& y | .or => x ||| y | .xor => x ^^^ y))
  | .knot k kd ka => .one (.k kd (partMask c spare k) (~~~ c.rdK ka))

/-- Lane l of vS as engine e reads it over the cable: a source engine that is not active in the half gives the fill value,
with the lane own of the reading engine under FILL = 1 (06 R174, 14 R362; log 18). -/
def cableLane (h : Half) (vs : Vector W32 256) (l own : Nat) : W32 :=
  if h.mask.getLsbD (l / 16) then vs.getD l 0 else if gFill h.gmode then vs.getD own 0 else 0

/-- Element j of width w of vS over the cable for written engine e, position-wise own element. -/
def cableElem (h : Half) (vs : Vector W32 256) (w j own : Nat) : Nat :=
  if w = 64 then
    (cableLane h vs (2 * j) (2 * own)).toNat + 2 ^ 32 * (cableLane h vs (2 * j + 1) (2 * own + 1)).toNat
  else (cableLane h vs j own).toNat % 2 ^ w

/-- Sequential combination over a list of values (R364). -/
def reduceList (op : RedOp) (t : Ty) (rm : Rm) (dm : Nat) : List Nat → Nat × Flags
  | [] => (0, 0)
  | x :: rest =>
    rest.foldl (fun acc y => let (r, f) := combine op t rm dm acc.1 y; (r, acc.2 ||| f)) (enter op t dm x, 0)

/-- The effect of an X-class instruction (R362 to R365). -/
def cableOut (c : Ctx) (spare : Bool) (i : XIns) : SlotOut :=
  let h := c.half spare
  let rm := gRm h.gmode
  let dm := gDm h.gmode
  let dstLanes := fun (q : Nat) => lanesOf (h.mask &&& h.rdQ q)
  match i with
  | .gshuf rot p q d s =>
    let vs := c.rdV s
    .one (.v d (dstLanes q) (laneTab fun l =>
      let e := l / 16
      let src := if rot then (e + 16 - p % 16) % 16 else e ^^^ p
      cableLane h vs (16 * src + l % 16) l))
  | .gbcast m q d s =>
    let vs := c.rdV s
    .one (.v d (dstLanes q) (laneTab fun l => cableLane h vs (16 * m + l % 16) l))
  | .gallg p q d s =>
    let vs := c.rdV s
    .one (.v d (dstLanes q) (laneTab fun l => cableLane h vs (16 * (l % 16) + p) l))
  | .gvshuf wide vi q d s =>
    let vs := c.rdV s
    let ix := c.rdV vi
    .one (.v d (dstLanes q) (laneTab fun l =>
      if wide then
        let x := (ix.getD (l - l % 2) 0).toNat % 128
        cableLane h vs (2 * x + l % 2) l
      else cableLane h vs ((ix.getD l 0).toNat % 256) l))
  | .gred op t q d s =>
    let vs := c.rdV s
    let w := tyWidth t
    let n := if w = 64 then 8 else 16
    let lanes := dstLanes q
    let one : Nat → Nat → Nat × Flags := fun e i => reduceList op t rm dm ((List.range 16).map fun f => cableElem h vs w (n * f + i) (n * e + i))
    let all : List (Nat × Nat × Flags) := ((List.range 16).map fun e =>
      if lanes.getLsbD (16 * e) then (List.range n).map fun i => (n * e + i, one e i) else []).flatten
    ⟨[elemWrites w d (all.map fun (r : Nat × Nat × Flags) => (r.1, r.2.1))], all.foldl (fun fl (r : Nat × Nat × Flags) => fl ||| r.2.2) 0⟩
  | .gvred op t q d s =>
    let vs := c.rdV s
    let w := tyWidth t
    let n := if w = 64 then 8 else 16
    let lanes := dstLanes q
    let one : Nat → Nat × Flags := fun e => reduceList op t rm dm ((List.range (16 * n)).map fun j => cableElem h vs w j (n * e + j % n))
    let all : List (Nat × Nat × Flags) := ((List.range 16).map fun e =>
      if lanes.getLsbD (16 * e) then (let r := one e; (List.range n).map fun i => (n * e + i, r)) else []).flatten
    ⟨[elemWrites w d (all.map fun (r : Nat × Nat × Flags) => (r.1, r.2.1))], all.foldl (fun fl (r : Nat × Nat × Flags) => fl ||| r.2.2) 0⟩

end Sys2Proof.Machine
end

