-- ==== Sys2Proof/Machine/Tile.lean ====
section
/-! DEFINITION. The M-class instructions (15): tiles in the scratchpad, the checks at issue, matrix multiplies, tile
conversions, accumulator rows and banks, shapes and formats. -/

namespace Sys2Proof.Machine
open Sys2Proof.Irnov

/-! ## FMT and shapes -/

def fmtA (x : W64) : Option Ty := tyOf (x.toNat % 16)
def fmtB (x : W64) : Option Ty := tyOf (x.toNat / 2 ^ 4 % 16)
def fmtC (x : W64) : Option Ty := tyOf (x.toNat / 2 ^ 8 % 16)
def fmtO (x : W64) : Option Ty := tyOf (x.toNat / 2 ^ 12 % 16)
def fmtBsa (x : W64) : Bool := x.getLsbD 18
def fmtBsb (x : W64) : Bool := x.getLsbD 19
def fmtKpl (x : W64) : Nat := x.toNat / 2 ^ 20 % 16
def fmtMf (x : W64) : Bool := x.getLsbD 24

def shRows (h : W32) : Nat := h.toNat % 256
def shK (h : W32) : Nat := h.toNat / 2 ^ 8 % 2 ^ 12
def shStride (h : W32) : Nat := h.toNat / 2 ^ 20

/-- Element size in bytes (R366). -/
def esize (t : Ty) : Nat := tyWidth t / 8

/-- rowbytes of R366. -/
def rowBytes (t : Ty) (k : Nat) : Nat := if t = .bp then (k + 7) / 8 else k * esize t

/-- tile_row of R366: the byte offset of row i in an engine's scratchpad. -/
def tileRow (spbase : Nat) (t : W64) (h : W32) (i : Nat) : Nat :=
  spbase + 64 * (t.toNat / 64 % 2 ^ 13) + 32 * shStride h * i

/-- bp_value of R252. -/
def bpValue (bits : Nat → Bool) (k : Nat) (mf : Bool) : Int :=
  let v := (List.range k).foldl (fun (acc : Int) i =>
    if bits i then (if i = 0 then acc - 128 else acc + 2 ^ (7 - i)) else acc) 0
  if mf && decide (k < 8) then v + 2 ^ (7 - k) else v

/-- What an M-class instruction works on: the context and its number, the issuing half, the core, the die's adapter table. -/
structure TileIn where
  c : Ctx
  x : Nat
  spare : Bool
  core : Core
  nt : Nat
  adapters : AMap Adapter
deriving Repr

/-- What an M-class instruction does to the core: scratchpad, accumulator and bank ownership as they become, register
writes, flags, the drain of an unallocated bank (R182), and the latency of an array instruction on each engine that does work (R369). -/
structure TileOut where
  scratch : Memory
  acc : Memory
  banks : AMap Bank
  wr : List Wr
  flags : Flags
  unalloc : Bool
  latency : Option (List (Nat × Nat))
  /-- The scratchpad bytes that an array instruction marks, and the banks that it touches (R370, R371). -/
  marks : List (Nat × Nat)
  touched : List Nat
deriving Repr

namespace TileIn
def half (i : TileIn) : Half := i.c.half i.spare
def fmt (i : TileIn) : W64 := i.half.fmt
def active (i : TileIn) : List Nat := (List.range 16).filter i.half.mask.getLsbD
def sh (i : TileIn) (e n : Nat) : W32 := i.c.rdH e n
def ta (i : TileIn) (n : Nat) : W64 := i.half.rdT n
def row (i : TileIn) (e t h r : Nat) : Nat := tileRow i.c.spbase (i.ta t) (i.sh e h) r
/-- Nothing changed yet. -/
def start (i : TileIn) : TileOut := ⟨i.core.scratch, i.core.acc, i.core.banks, [], 0, false, none, [], []⟩
end TileIn

def spRead (m : Memory) (e off n : Nat) : List Byte := m.read 0 (e * Config.scratchBytes + off) n
def spWrite (m : Memory) (e off : Nat) (bs : List Byte) : Memory := m.write 0 (e * Config.scratchBytes + off) bs

/-- A byte range of an engine's scratchpad: offset and length. -/
abbrev Range := Nat × Nat

/-- The byte ranges of an operand of Q rows (R366): rows, planes of .bp, scale bytes. -/
def opRanges (i : TileIn) (e t h q k : Nat) (ty : Ty) (scaled : Bool) : List Range :=
  let planes := if ty = .bp then fmtKpl i.fmt else 1
  let rb := rowBytes ty k
  ((List.range planes).map fun p => (List.range q).map fun r =>
    (i.row e t h r + p * q * 32 * shStride (i.sh e h), rb + (if scaled ∧ p = 0 then (k + 31) / 32 else 0))).flatten

/-- The bank groups, 0 to 3, that ranges touch (07 R178, R179). -/
def groupsOf (rs : List Range) : List Nat :=
  ((rs.filter (fun r => r.2 != 0)).flatMap fun r => [r.1 / 98304, (r.1 + r.2 - 1) / 98304]).filter (· < 4)

/-- The scratchpad bytes of ranges on engines. -/
def markOf (per : List (Nat × List Range)) : List (Nat × Nat) :=
  per.flatMap fun p => p.2.map fun r => (p.1 * Config.scratchBytes + r.1, r.2)

/-- The first byte outside [SPBASE, SPLIM) of any range, lowest first (R367 check 4). -/
def firstOutside (lim : Nat) (rs : List Range) : Option Nat :=
  (rs.filter fun r => decide (r.2 ≠ 0 ∧ lim < r.1 + r.2)).foldl
    (fun acc r => match acc with | none => some (max r.1 lim) | some x => some (min x (max r.1 lim))) none

/-- The window check over engines (R367 check 4). -/
def windowCause (i : TileIn) (per : List (Nat × List Range)) : Option Cause :=
  (per.findSome? fun p => (firstOutside i.c.splim p.2).map fun o => (p.1, o)).map fun p =>
    ⟨0x04, 3, BitVec.ofNat 64 (0xFFFE000000000000 + (p.2 - i.c.spbase)), 5, 16 * p.1⟩

/-- The bank-group rule (07 R179, R367 check 1). -/
def bankConf (per : List (Nat × List Range × List Range)) : Option Cause :=
  (per.find? fun p => (groupsOf p.2.1).any fun g => (groupsOf p.2.2).contains g).map fun p => ⟨0x06, p.1, 0, 5, 0⟩

/-- The outcome of an accumulator access under R182: performed, read of an unallocated bank, or the ownership fault. -/
inductive AccRight where
  | ok | unalloc | fault
deriving DecidableEq, Repr

def accRight (banks : AMap Bank) (x task bank band : Nat) (write : Bool) : AccRight :=
  match banks.find? bank with
  | none => if write then .fault else .unalloc
  | some b =>
    if b.parted then (if write then .fault else .unalloc)
    else if b.crew ≠ task then .fault
    else if b.holders.getD band 0 ≠ x then .fault
    else if write ∧ b.owner ≠ x then .fault
    else .ok

/-- The bands that rows 32b … 32b + M − 1 touch (R372). -/
def bandsOf (b m : Nat) : List Nat := (List.range ((m + 31) / 32)).map fun j => (b + j) % 8

/-- The ownership check over engines (R367 check 2): reads then writes of rows of offset a and band b. -/
def acownCause (i : TileIn) (a b : Nat) (rows : List (Nat × Nat)) (read write : Bool) : Option Cause :=
  (rows.find? fun (e, m) => (bandsOf b m).any fun band =>
    (read && accRight i.core.banks i.x i.c.task ((4 * e + a) % 64) band false == .fault) ||
    (write && accRight i.core.banks i.x i.c.task ((4 * e + a) % 64) band true == .fault)).map fun (e, _) =>
      ⟨0x0C, (4 * e + a) % 64, 0, 5, 0⟩

def illegalM : Cause := ⟨0x02, 0, 0, 5, 0⟩

/-! ## Accumulator rows (R372) -/

def accAddr (bank r byte : Nat) : Nat := bank * 32768 + r * 128 + byte
def accGet (m : Memory) (c : Ty) (bank r j : Nat) : Nat := leNat (m.read 0 (accAddr bank r (esize c * j)) (esize c))
def accPut (m : Memory) (c : Ty) (bank r j x : Nat) : Memory := m.write 0 (accAddr bank r (esize c * j)) (leBytes (esize c) x)
/-- Columns of a row in CFMT. -/
def accCols (c : Ty) : Nat := if c = .f64 then 16 else 32

/-! ## Reductions (10 R263 to R267) -/

/-- A row as positions with values. -/
abbrev Row := List (Nat × FVal)

/-- The values of row r of an operand: floating encodings, .si8 integers, .bp under KPL and MF. -/
def rowVals (i : TileIn) (m : Memory) (e off planeStep k : Nat) (ty : Ty) : Row :=
  (List.range k).map fun j =>
    (j, match ty with
      | .bp =>
        let bit := fun p => ((spRead m e (off + p * planeStep + j / 8) 1).headD 0).getLsbD (j % 8)
        FVal.ofInt (bpValue bit (fmtKpl i.fmt) (fmtMf i.fmt)) 0 false
      | _ =>
        let x := leNat (spRead m e (off + j * esize ty) (esize ty))
        match tyF ty with
        | some f => fDecode f x
        | none => FVal.ofInt (bitsToInt (tySigned ty) (tyWidth ty) x) 0 false)

/-- The block scales of a row (R266): the exponent of block t, or none for 0xFF. -/
def rowScales (m : Memory) (e off k : Nat) (ty : Ty) (scaled : Bool) : Nat → Option Int :=
  if scaled then
    let bs := (spRead m e (off + rowBytes ty k) ((k + 31) / 32)).toArray
    fun t => let x := (bs.getD t 0).toNat; if x = 255 then none else some ((x : Int) - 127)
  else fun _ => some 0

/-- product(k) of R264 with its flags. -/
def product (a b : FVal) (sa sb : Option Int) : FVal × Flags :=
  match sa, sb with
  | some x, some y =>
    if a.isNan || b.isNan then (.nan false, 0)
    else if (isInf a && isZero b) || (isZero a && isInf b) then (.nan false, .inv)
    else match a.mulExact b with
      | .fin s m e => (.fin s m (e + x + y), 0)
      | v => (v, 0)
  | _, _ => (.nan false, 0)

/-- chunk_sum of R264. -/
def chunkSum (ps : List FVal) : FVal × Flags :=
  if ps.any FVal.isNan then (.nan false, 0)
  else
    let pos := ps.any (· == .inf false)
    let neg := ps.any (· == .inf true)
    if pos && neg then (.nan false, .inv)
    else if pos then (.inf false, 0)
    else if neg then (.inf true, 0)
    else (match ps.foldl (FVal.addExact false) (.zero false) with
      | .zero _ => (.zero false, 0)
      | v => (v, 0))

/-- reduce_chunked of R264 over the products at positions. -/
def reduceChunked (acc k c : Nat) (ps : List (Nat × FVal × Flags)) : Nat × Flags :=
  (List.range ((k + c - 1) / c)).foldl (fun st j =>
    let mine := ps.filter fun p => decide (p.1 / c = j)
    let (s, f1) := chunkSum (mine.map fun p => p.2.1)
    let (r, f2) := roundTo s .f32 .rne false 0
    let (x, f3) := addRne32 st.1 r
    (x, mine.foldl (fun fl p => fl ||| p.2.2) (st.2 ||| f1 ||| f2 ||| f3))) (acc, 0)

/-- The reductions of R374. -/
inductive Reduction where
  | chunk (c : Nat) | exact | seq (f : FFmt)
deriving DecidableEq, Repr

/-- The accepted combinations of R374: reduction, Ks, CFMT; only the first three for TMMAS and TLRMA. -/
def mulFmt (x : W64) (op : MulOp) : Option (Ty × Ty × Ty × Reduction × Nat) :=
  let bsa := fmtBsa x
  let bsb := fmtBsb x
  match fmtA x, fmtB x, fmtC x with
  | some a, some b, some c =>
    let f8 := fun t => t == Ty.e4m3 || t == Ty.e5m2
    let r : Option (Reduction × Nat) :=
      if a = .bf16 ∧ b = .bf16 ∧ c = .f32 ∧ !bsa ∧ !bsb then some (.chunk 32, 32)
      else if a = .f16 ∧ b = .f16 ∧ c = .f32 ∧ !bsa ∧ !bsb then some (.chunk 32, 32)
      else if f8 a ∧ f8 b ∧ c = .f32 ∧ (op = .mma ∨ (!bsa ∧ !bsb)) then some (.chunk 64, 64)
      else if op ≠ .mma then none
      else if a = .bp ∧ b = .si8 ∧ c = .f32 ∧ bsa ∧ !bsb then some (.chunk 64, 64)
      else if a = .si8 ∧ b = .bp ∧ c = .f32 ∧ !bsa ∧ bsb then some (.chunk 64, 64)
      else if a = .bp ∧ b = .si8 ∧ c = .si32 ∧ !bsa ∧ !bsb then some (.exact, 64)
      else if a = .si8 ∧ b = .bp ∧ c = .si32 ∧ !bsa ∧ !bsb then some (.exact, 64)
      else if a = .f32 ∧ b = .f32 ∧ c = .f32 ∧ !bsa ∧ !bsb then some (.seq .f32, 8)
      else if a = .f64 ∧ b = .f64 ∧ c = .f64 ∧ !bsa ∧ !bsb then some (.seq .f64, 4)
      else none
    r.map fun (r, ks) => (a, b, c, r, ks)
  | _, _, _ => none

/-- The integer that an exact value stands for. -/
def FVal.toIntVal : FVal → Int
  | .fin s m e => sgnInt s (if 0 ≤ e then m * 2 ^ e.toNat else m / 2 ^ (-e).toNat)
  | _ => 0

/-- dot of R375: the reduction over an A row and a dense B row. -/
def dotRed (r : Reduction) (acc k : Nat) (a : Row) (b : Array FVal) (sa sb : Nat → Option Int) : Nat × Flags :=
  match r with
  | .chunk c =>
    reduceChunked acc k c (a.map fun p =>
      let (v, f) := product p.2 (b.getD p.1 (.zero false)) (sa (p.1 / 32)) (sb (p.1 / 32))
      (p.1, v, f))
  | .exact =>
    let s := a.foldl (fun (s : Int) p => s + p.2.toIntVal * (b.getD p.1 (.zero false)).toIntVal) 0
    (intToBits 32 ((acc : Int) + s), 0)
  | .seq f =>
    a.foldl (fun st p =>
      let (x, fl) := vFma f .rne 0 p.2 (b.getD p.1 (.zero false)) (fDecode f st.1)
      (x, st.2 ||| fl)) (acc, 0)

/-- The expanded A row of TMMAS (R376): positions at or above K contribute nothing. -/
def sparseRow (m : Memory) (e off k : Nat) (ty : Ty) : Row :=
  let g := (k + 3) / 4
  let val : Nat → FVal := fun n => let x := leNat (spRead m e (off + n * esize ty) (esize ty))
    match tyF ty with | some f => fDecode f x | none => .zero false
  (List.range g).flatMap fun j =>
    let nib := (((spRead m e (off + 2 * g * esize ty + j / 2) 1).headD 0).toNat / 2 ^ (4 * (j % 2))) % 16
    let p0 := 4 * j + nib % 4
    let p1 := 4 * j + nib / 4
    (if p0 < k then [(p0, val (2 * j))] else []) ++ (if p1 < k then [(p1, val (2 * j + 1))] else [])

/-- Row tags of TLRMA (R378). -/
def lrmaTags (i : TileIn) (e tA hA m : Nat) : List Nat :=
  let off := i.row e tA hA m
  (List.range m).map fun r => leNat (spRead i.core.scratch e (off + 2 * r) 2)

def tagEntry (i : TileIn) (tag : Nat) : Adapter := i.adapters.getD (tag % 1024) .empty

/-- The adapter check of R378. -/
def tagOk (i : TileIn) (tag : Nat) : Bool :=
  let a := tagEntry i tag
  a.v && decide (a.asid = i.half.asid.toNat % 4096) && decide (a.gen = tag / 1024)

/-- Number of distinct tags with the count of rows of each, in order of first row (R379). -/
def tagCounts (tags : List Nat) : List Nat := (tags.eraseDups).map fun t => (tags.filter (· == t)).length

/-- The array is free for a new array instruction: at most 8 cc left on every engine that it acts on (R369). -/
def arrayReady (core : Core) (engines : List Nat) (now : Nat) : Bool :=
  core.arrays.all fun r => r.ends.all fun x => !(engines.contains x.1) || decide (x.2 ≤ now + 8)

/-- TMMA, TMMAS and TLRMA (R373 to R379): checks, then the effect. -/
def mulOut (i : TileIn) (op : MulOp) (accum : Bool) (a b hA tA hB tB : Nat) : Except Cause TileOut :=
  match mulFmt i.fmt op with
  | none => .error illegalM
  | some (ta, tb, tc, red, ks) =>
    let n := accCols tc
    -- engines that do work: engine, M, K, columns
    let work := (i.active.map fun e => (e, shRows (i.sh e hA), shK (i.sh e hA), min (shRows (i.sh e hB)) n)).filter
      fun (_, m, k, c) => m != 0 && k != 0 && c != 0
    let slotOf := fun e r => if op = .lrma then (tagEntry i ((lrmaTags i e tA hA (shRows (i.sh e hA))).getD r 0)).slot else 0
    let bRow := fun e c s j => i.row e tB hB 0 + s * c * 32 * shStride (i.sh e hB) + 32 * shStride (i.sh e hB) * j
    let ranges := work.map fun (e, m, k, c) =>
      let ra := match op with
        | .mmas => (List.range m).map fun r => (i.row e tA hA r, 2 * ((k + 3) / 4) * esize ta + ((k + 3) / 4 + 1) / 2)
        | .lrma => opRanges i e tA hA m k ta false ++ [(i.row e tA hA m, 2 * m)]
        | .mma => opRanges i e tA hA m k ta (fmtBsa i.fmt)
      let rb := match op with
        | .lrma => (List.range m).flatMap fun r => (List.range c).map fun j => (bRow e c (slotOf e r) j, rowBytes tb k)
        | _ => opRanges i e tB hB c k tb (fmtBsb i.fmt)
      (e, ra, rb)
    match bankConf ranges with
    | some x => .error x
    | none =>
    match acownCause i a b (work.map fun (e, m, _, _) => (e, m)) accum true with
    | some x => .error x
    | none =>
    let badTag := if op = .lrma then
        (work.flatMap fun (e, m, _, _) => lrmaTags i e tA hA m).find? fun t => !tagOk i t
      else none
    match badTag with
    | some t => .error ⟨0x0B, 0, BitVec.ofNat 64 (t % 1024), 5, 0⟩
    | none =>
    match windowCause i (ranges.map fun (e, ra, rb) => (e, ra ++ rb)) with
    | some x => .error x
    | none =>
      let m0 := i.core.scratch
      let (acc, fl) := work.foldl (fun (st : Memory × Flags) (w : Nat × Nat × Nat × Nat) =>
        let (e, m, k, c) := w
        let bank := (4 * e + a) % 64
        let me := m0.filter fun x => x.1 / Config.scratchBytes == e
        let column := fun (r j : Nat) =>
          let off := bRow e c (slotOf e r) j
          (((rowVals i me e off (c * 32 * shStride (i.sh e hB)) k tb).map (·.2)).toArray, rowScales me e off k tb (fmtBsb i.fmt))
        let shared := (List.range c).map (column 0)
        (List.range m).foldl (fun st r =>
          let arow := match op with
            | .mmas => sparseRow me e (i.row e tA hA r) k ta
            | _ => rowVals i me e (i.row e tA hA r) (m * 32 * shStride (i.sh e hA)) k ta
          let sa := rowScales me e (i.row e tA hA r) k ta (fmtBsa i.fmt)
          let row := (32 * b + r) % 256
          let columns := if op = .lrma then (List.range c).map (column r) else shared
          ((List.range c).zip columns).foldl (fun st p =>
            let c0 := if accum then accGet st.1 tc bank row p.1 else 0
            let (x, f) := dotRed red c0 k arow p.2.1 sa p.2.2
            (accPut st.1 tc bank row p.1 x, st.2 ||| f)) st) st) (i.core.acc, 0)
      let lat := work.map fun (e, m, k, _) =>
        let s := (k + ks - 1) / ks
        let base := match op with
          | .mma => if ta = .bp ∨ tb = .bp then 8 + (m * s * fmtKpl i.fmt + 7) / 8 else 8 + m * s
          | .mmas => 8 + m * ((k + 2 * ks - 1) / (2 * ks))
          | .lrma => (tagCounts (lrmaTags i e tA hA m)).foldl (fun l r => l + 8 + 4 * ((r + 3) / 4) * s) 0
        (e, base + (if a ≥ 4 then m else 0))
      .ok { i.start with acc := acc, flags := fl, latency := some lat, marks := markOf (ranges.map fun (e, ra, rb) => (e, ra ++ rb)),
                         touched := work.map fun (e, _) => (4 * e + a) % 64 }

/-! ## Tile conversions (R380 to R385) -/

/-- One block of TQUANT (R381): scale, encodings, flags, among which overflow never is, and the generator after the draws. -/
def quantBlock (f : FFmt) (sr : Bool) (g : W32) (xs : List FVal) : Nat × List Nat × Flags × W32 :=
  let bad := xs.any fun x => x.isNan || isInf x
  let mags := xs.filterMap fun x => match x with | .fin _ m e => some ((Nat.log2 m : Int) + e) | _ => none
  let emax : Int := if f = .e4m3 then 8 else 15
  let e : Nat := if bad then 255
    else if mags.isEmpty then 127
    else (min (max (mags.foldl max (mags.headD 0) - emax + 127) 0) 254).toNat
  let (ys, fl, g) := xs.foldl (fun (st : List Nat × Flags × W32) x =>
    let g := if sr then drawStep st.2.2 else st.2.2
    if e = 255 then (f.nan :: st.1, st.2.1, g)
    else
      let v := match x with | .fin s m k => FVal.fin s m (k + 127 - e) | v => v
      let (r, fl) := roundTo v f (if sr then .sr g else .rne) true 0
      (r :: st.1, st.2.1 ||| (fl &&& ~~~ Flags.ovf), g)) ([], 0, g)
  (e, ys.reverse, fl, g)

/-- Consecutive pieces of a list, 32 at a time. -/
def blocks32 : Nat → List α → List (List α)
  | 0, _ => []
  | n + 1, xs => if xs.isEmpty then [] else xs.take 32 :: blocks32 n (xs.drop 32)

/-- State of a conversion on one engine: scratchpad, flags, generator. -/
structure ConvSt where
  m : Memory
  fl : Flags
  g : W32
deriving Repr

/-- Run a row function over every active engine and row; the generators are written when the instruction draws. -/
def convRows (i : TileIn) (hA : Nat) (draws : Bool) (row : Nat → Nat → Nat → ConvSt → ConvSt) : TileOut :=
  let work := i.active.filter fun e => shRows (i.sh e hA) != 0 && shK (i.sh e hA) != 0
  let (m, fl, gs) := work.foldl (fun (st : Memory × Flags × List Wr) e =>
    let r := (List.range (shRows (i.sh e hA))).foldl (fun s r => row e r (shK (i.sh e hA)) s)
      ⟨st.1, st.2.1, i.c.gens.getD e 0⟩
    (r.m, r.fl, if draws then Wr.gen e r.g :: st.2.2 else st.2.2)) (i.core.scratch, 0, [])
  { i.start with scratch := m, flags := fl, wr := gs.reverse }

def encBytes (ty : Ty) (xs : List Nat) : List Byte := xs.flatMap fun x => leBytes (esize ty) x

/-- The engines that do work under hA with their rows and K. -/
def workOf (i : TileIn) (hA : Nat) : List (Nat × Nat × Nat) :=
  (i.active.map fun e => (e, shRows (i.sh e hA), shK (i.sh e hA))).filter fun (_, m, k) => m != 0 && k != 0

/-- Conversion latency of each engine: a + ceil(Bmax / d) (R369). -/
def convLat (i : TileIn) (hA a d : Nat) (bytes : Nat → Nat → Nat) : List (Nat × Nat) :=
  (workOf i hA).map fun (e, m, k) => (e, a + (bytes m k + d - 1) / d)

/-- Whether VCVT's rules accept (D, S) with these modifiers, or D = S as a copy (R355, R383). -/
def cvtOk (dst src : Ty) (sat sr : Bool) : Bool :=
  tyAny dst && tyAny src && !(sr && tyInt dst && tyInt src) && !(sat && !tyInt src && tyInt dst)

def quantOut (i : TileIn) (sr : Bool) (tA hA tB hB : Nat) : Except Cause TileOut :=
  match fmtA i.fmt, fmtO i.fmt with
  | some src, some dst =>
    match tyF src, tyF dst with
    | some fs, some fd =>
      if (src = .f32 ∨ src = .bf16 ∨ src = .f16) ∧ (dst = .e4m3 ∨ dst = .e5m2) then
        let per := (workOf i hA).map fun (e, m, k) =>
          (e, opRanges i e tA hA m k src false ++ (List.range m).map fun r => (i.row e tB hB r, k + (k + 31) / 32))
        match windowCause i per with
        | some x => .error x
        | none =>
          let out := convRows i hA sr fun e r k s =>
            let xs := (List.range k).map fun j =>
              fDecode fs (leNat (spRead s.m e (i.row e tA hA r + j * esize src) (esize src)))
            let (es, ys, fl, g) := (blocks32 k xs).foldl (fun (st : List Nat × List Nat × Flags × W32) b =>
              let (e, ys, fl, g) := quantBlock fd sr st.2.2.2 b
              (st.1 ++ [e], st.2.1 ++ ys, st.2.2.1 ||| fl, g)) ([], [], s.fl, s.g)
            ⟨spWrite s.m e (i.row e tB hB r) (encBytes dst ys ++ es.map (BitVec.ofNat 8)), fl, g⟩
          .ok { out with latency := some (convLat i hA 12 128 fun m k => m * max (k * esize src) (k + (k + 31) / 32)), marks := markOf per }
      else .error illegalM
    | _, _ => .error illegalM
  | _, _ => .error illegalM

def deqOut (i : TileIn) (tA hA tB hB : Nat) : Except Cause TileOut :=
  match fmtA i.fmt, fmtO i.fmt with
  | some src, some dst =>
    match tyF dst with
    | some fd =>
      if (src = .e4m3 ∨ src = .e5m2 ∨ src = .bp) ∧ (dst = .f32 ∨ dst = .f16 ∨ dst = .bf16) then
        let scaled := fmtBsa i.fmt
        let per := (workOf i hA).map fun (e, m, k) =>
          (e, opRanges i e tA hA m k src scaled ++ (List.range m).map fun r => (i.row e tB hB r, k * esize dst))
        match windowCause i per with
        | some x => .error x
        | none =>
          let out := convRows i hA false fun e r k s =>
            let off := i.row e tA hA r
            let vs := rowVals i s.m e off (shRows (i.sh e hA) * 32 * shStride (i.sh e hA)) k src
            let sc := rowScales s.m e off k src scaled
            let (ys, fl) := vs.foldl (fun (st : List Nat × Flags) p =>
              let v := match sc (p.1 / 32), p.2 with
                | none, _ => FVal.nan false
                | some x, .fin s m e => .fin s m (e + x)
                | some _, v => v
              let (r, f) := roundTo v fd .rne false 0
              (r :: st.1, st.2 ||| f)) ([], s.fl)
            ⟨spWrite s.m e (i.row e tB hB r) (encBytes dst ys.reverse), fl, s.g⟩
          .ok { out with latency := some (convLat i hA 4 128 fun m k =>
            m * max ((if src = .bp then fmtKpl i.fmt else 1) * rowBytes src k + (if scaled then (k + 31) / 32 else 0)) (k * esize dst)),
                          marks := markOf per }
      else .error illegalM
    | none => .error illegalM
  | _, _ => .error illegalM

def tcvtOut (i : TileIn) (sat sr : Bool) (tA hA tB hB : Nat) : Except Cause TileOut :=
  match fmtA i.fmt, fmtO i.fmt with
  | some src, some dst =>
    if cvtOk dst src sat sr then
      let per := (workOf i hA).map fun (e, m, k) =>
        (e, opRanges i e tA hA m k src false ++ (List.range m).map fun r => (i.row e tB hB r, k * esize dst))
      match windowCause i per with
      | some x => .error x
      | none =>
        let out := convRows i hA sr fun e r k s =>
          let (ys, fl, g) := (List.range k).foldl (fun (st : List Nat × Flags × W32) j =>
            let x := leNat (spRead s.m e (i.row e tA hA r + j * esize src) (esize src))
            let g := if sr then drawStep st.2.2 else st.2.2
            let (y, f) := if dst = src then (x, (0 : Flags)) else convElem dst src (if sr then .sr g else .rne) sat 0 x
            (y :: st.1, st.2.1 ||| f, g)) ([], s.fl, s.g)
          ⟨spWrite s.m e (i.row e tB hB r) (encBytes dst ys.reverse), fl, g⟩
        .ok { out with latency := some (convLat i hA 4 128 fun m k => m * max (k * esize src) (k * esize dst)), marks := markOf per }
    else .error illegalM
  | _, _ => .error illegalM

def transOut (i : TileIn) (tA hA tB hB : Nat) : Except Cause TileOut :=
  match fmtA i.fmt with
  | some ty =>
    if ty = .bp then .error illegalM
    else
      let per := (workOf i hA).map fun (e, m, k) =>
        (e, opRanges i e tA hA m k ty false ++ (List.range k).map fun c => (i.row e tB hB c, m * esize ty))
      match windowCause i per with
      | some x => .error x
      | none =>
        let m0 := i.core.scratch
        let m' := (workOf i hA).foldl (fun mem (e, m, k) =>
          (List.range k).foldl (fun mem c =>
            spWrite mem e (i.row e tB hB c)
              ((List.range m).flatMap fun r => spRead m0 e (i.row e tA hA r + c * esize ty) (esize ty))) mem) m0
        .ok { i.start with scratch := m', latency := some (convLat i hA 8 64 fun m k => m * k * esize ty), marks := markOf per }
  | none => .error illegalM

def zeroOut (i : TileIn) (tA hA : Nat) : Except Cause TileOut :=
  match fmtO i.fmt with
  | some ty =>
    if ty = .bp then .error illegalM
    else
      let per := (workOf i hA).map fun (e, m, k) => (e, opRanges i e tA hA m k ty false)
      match windowCause i per with
      | some x => .error x
      | none =>
        let out := convRows i hA false fun e r k s =>
          { s with m := spWrite s.m e (i.row e tA hA r) (List.replicate (k * esize ty) 0) }
        .ok { out with latency := some (convLat i hA 4 128 fun m k => m * k * esize ty), marks := markOf per }
  | none => .error illegalM

def ewElem (op : EwOp) (f : FFmt) (x y : Nat) : Nat × Flags :=
  match op with
  | .add => fAdd f .rne 0 x y
  | .sub => fSub f .rne 0 x y
  | .mul => fMul f .rne 0 x y
  | .min => fMinMax f false 0 x y
  | .max => fMinMax f true 0 x y

def ewOut (i : TileIn) (op : EwOp) (brow : Bool) (tA hA tB hB : Nat) : Except Cause TileOut :=
  match fmtA i.fmt, fmtB i.fmt, fmtO i.fmt with
  | some ty, some tb, some tO =>
    match tyF ty with
    | some f =>
      if (ty = .f32 ∨ ty = .f16 ∨ ty = .bf16) ∧ tb = ty ∧ tO = ty then
        let bRow := fun e r => i.row e tB hB (if brow then 0 else r)
        let ranges := (workOf i hA).map fun (e, m, k) =>
          (e, opRanges i e tA hA m k ty false, (List.range m).map fun r => (bRow e r, k * esize ty))
        match bankConf ranges with
        | some x => .error x
        | none =>
        match windowCause i (ranges.map fun (e, ra, rb) => (e, ra ++ rb)) with
        | some x => .error x
        | none =>
          let out := convRows i hA false fun e r k s =>
            let (ys, fl) := (List.range k).foldl (fun (st : List Nat × Flags) j =>
              let x := leNat (spRead s.m e (i.row e tA hA r + j * esize ty) (esize ty))
              let y := leNat (spRead s.m e (bRow e r + j * esize ty) (esize ty))
              let (z, f) := ewElem op f x y
              (z :: st.1, st.2 ||| f)) ([], s.fl)
            ⟨spWrite s.m e (i.row e tA hA r) (encBytes ty ys.reverse), fl, s.g⟩
          .ok { out with latency := some (convLat i hA 4 128 fun m k => 2 * m * k * esize ty),
                          marks := markOf (ranges.map fun (e, ra, rb) => (e, ra ++ rb)) }
      else .error illegalM
    | none => .error illegalM
  | _, _, _ => .error illegalM

/-! ## Accumulator instructions (R386 to R390) -/

def accTy (x : W64) : Option Ty :=
  match fmtC x with
  | some .f32 => some .f32 | some .si32 => some .si32 | some .f64 => some .f64
  | _ => none

def aczeroOut (i : TileIn) (a b hA : Nat) : Except Cause TileOut :=
  match accTy i.fmt with
  | none => .error illegalM
  | some _ =>
    let work := workOf i hA
    match acownCause i a b (work.map fun (e, m, _) => (e, m)) false true with
    | some x => .error x
    | none =>
      let acc := work.foldl (fun mem (e, m, _) => (List.range m).foldl (fun mem r =>
        Memory.write 0 mem (accAddr ((4 * e + a) % 64) ((32 * b + r) % 256) 0) (List.replicate 128 0)) mem) i.core.acc
      .ok { i.start with acc := acc,
                         latency := some (work.map fun (e, m, _) => (e, 2 + m + (if a ≥ 4 then m else 0))),
                         touched := work.map fun (e, _) => (4 * e + a) % 64 }

def acloadOk (c a : Ty) : Bool :=
  match c with
  | .f32 => a == .f32 || a == .f16 || a == .bf16
  | .si32 => a == .si32 || a == .si16 || a == .si8
  | .f64 => a == .f64 || a == .f32
  | _ => false

def acloadOut (i : TileIn) (a b tA hA : Nat) : Except Cause TileOut :=
  match accTy i.fmt, fmtA i.fmt with
  | some tc, some ta =>
    if !acloadOk tc ta then .error illegalM
    else
      let work := workOf i hA
      match acownCause i a b (work.map fun (e, m, _) => (e, m)) false true with
      | some x => .error x
      | none =>
      let per := work.map fun (e, m, k) => (e, (List.range m).map fun r => (i.row e tA hA r, min k (accCols tc) * esize ta))
      match windowCause i per with
      | some x => .error x
      | none =>
        let (acc, fl) := work.foldl (fun (st : Memory × Flags) (e, m, k) => (List.range m).foldl (fun st r =>
          (List.range (min k (accCols tc))).foldl (fun st j =>
            let x := leNat (spRead i.core.scratch e (i.row e tA hA r + j * esize ta) (esize ta))
            let (y, f) := if tc = ta then (x, (0 : Flags)) else convElem tc ta .rne false 0 x
            (accPut st.1 tc ((4 * e + a) % 64) ((32 * b + r) % 256) j y, st.2 ||| f)) st) st) (i.core.acc, 0)
        .ok { i.start with acc := acc, flags := fl,
                           latency := some (work.map fun (e, m, _) => (e, 4 + m + (if a ≥ 4 then m else 0))),
                           marks := markOf per, touched := work.map fun (e, _) => (4 * e + a) % 64 }
  | _, _ => .error illegalM

def acdrainOk (c o : Ty) (sr : Bool) : Bool :=
  (match c with
   | .f32 => o == .f32 || o == .f16 || o == .bf16 || o == .e4m3 || o == .e5m2
   | .si32 => o == .si32 || o == .si16 || o == .si8 || o == .f32
   | .f64 => o == .f64 || o == .f32
   | _ => false) && !(sr && tyInt o)

def acdrainOut (i : TileIn) (sat sr : Bool) (a b tA hA : Nat) : Except Cause TileOut :=
  match accTy i.fmt, fmtO i.fmt with
  | some tc, some tO =>
    if !acdrainOk tc tO sr then .error illegalM
    else
      let work := workOf i hA
      match acownCause i a b (work.map fun (e, m, _) => (e, m)) true false with
      | some x => .error x
      | none =>
      let per := work.map fun (e, m, k) => (e, (List.range m).map fun r => (i.row e tA hA r, min k (accCols tc) * esize tO))
      match windowCause i per with
      | some x => .error x
      | none =>
        let noOwner := fun e => match i.core.banks.find? ((4 * e + a) % 64) with | some b => b.parted | none => true
        let out := convRows i hA sr fun e r k s =>
          let (ys, fl, g) := (List.range (min k (accCols tc))).foldl (fun (st : List Nat × Flags × W32) j =>
            let x := if noOwner e then 0 else accGet i.core.acc tc ((4 * e + a) % 64) ((32 * b + r) % 256) j
            let g := if sr then drawStep st.2.2 else st.2.2
            let (y, f) :=
              if tc = tO ∧ tyInt tc then (x, (0 : Flags))
              else convElem tO tc (if sr then .sr g else .rne) sat 0 x
            (y :: st.1, st.2.1 ||| f, g)) ([], s.fl, s.g)
          ⟨spWrite s.m e (i.row e tA hA r) (encBytes tO ys.reverse), fl, g⟩
        .ok { out with unalloc := work.any fun (e, _, _) => noOwner e,
                       latency := some (work.map fun (e, m, _) => (e, 4 + m + (if a ≥ 4 then m else 0))),
                           marks := markOf per, touched := work.map fun (e, _) => (4 * e + a) % 64 }
  | _, _ => .error illegalM

/-- The banks of a set (R386). -/
def bankSet (col : Bool) (a n : Nat) : List Nat :=
  if col then (List.range 16).flatMap fun e => (List.range n).map fun c => (4 * e + a + c) % 64
  else (List.range n).map (a + ·)

/-- The lowest bank of a set whose OWNER is not the issuing context. -/
def notOwned (i : TileIn) (bs : List Nat) : Option Nat :=
  (bs.filter fun b => match i.core.banks.find? b with | some k => k.owner != i.x | none => true).foldl
    (fun acc b => match acc with | none => some b | some x => some (min x b)) none

/-- The context number of crew member m, or 128 + m when that member has exited. -/
def memberCtx (core : Core) (task m : Nat) : Nat :=
  match core.crews.find? task with
  | some cr => ((cr.ctxs.find? fun p => p.1 == m).map (·.2)).getD (128 + m)
  | none => 128 + m

def bankOut (i : TileIn) (ins : MIns) : Except Cause TileOut :=
  match ins with
  | .acalloc col a n c =>
    let bs := bankSet col a n
    if bs.any fun b => i.core.banks.has b || i.core.reserved.any fun (r : Reserved) => r.banks.contains b then .ok { i.start with wr := [.c c false] }
    else .ok { i.start with wr := [.c c true],
                            banks := bs.foldl (fun m b => m.put b ⟨i.x, i.c.task, Vector.replicate 8 i.x⟩) i.core.banks }
  | .acfree col a n =>
    let bs := bankSet col a n
    match notOwned i bs with
    | some b => .error ⟨0x0C, b, 0, 5, 0⟩
    | none => .ok { i.start with banks := bs.foldl (fun m b => m.modify b Bank.part) i.core.banks }
  | .acown col a n b cnt m =>
    let bs := bankSet col a n
    match notOwned i bs with
    | some b => .error ⟨0x0C, b, 0, 5, 0⟩
    | none =>
      let who := memberCtx i.core i.c.task m
      let set := fun (k : Bank) => { k with holders := (List.range cnt).foldl (fun h j => h.setIfInBounds (b + j) who) k.holders }
      .ok { i.start with banks := bs.foldl (fun mp bk => mp.modify bk set) i.core.banks }
  | _ => .error illegalM

/-! ## Shapes and formats (R391, R392) -/

def shapeOut (i : TileIn) (ins : MIns) : Except Cause TileOut :=
  let lane0 := fun e v => i.c.lane v (16 * e)
  match ins with
  | .shsetH h v => .ok { i.start with wr := i.active.map fun e => Wr.h e h (lane0 e v) }
  | .shsetT t v => .ok { i.start with wr := (i.active.head?).toList.map fun e => Wr.t t ((lane0 e v).setWidth 64) }
  | .shgetH v h =>
    .ok { i.start with wr := [.v v (mask256 fun l => l % 16 == 0 && i.half.mask.getLsbD (l / 16))
      (laneTab fun l => i.sh (l / 16) h)] }
  | .shgetT v t =>
    .ok { i.start with wr := [.v v (mask256 fun l => l % 16 == 0 && i.half.mask.getLsbD (l / 16))
      (laneTab fun _ => (i.ta t).setWidth 32)] }
  | .fmtset x => .ok { i.start with wr := [.fmt (x.setWidth 64)] }
  | _ => .error illegalM

/-- The checks and the effect of an M-class instruction. -/
def tileOut (i : TileIn) (ins : MIns) : Except Cause TileOut :=
  match ins with
  | .mul op acc a b hA tA hB tB => mulOut i op acc a b hA tA hB tB
  | .quant sr tA hA tB hB => quantOut i sr tA hA tB hB
  | .deq tA hA tB hB => deqOut i tA hA tB hB
  | .cvt sat sr tA hA tB hB => tcvtOut i sat sr tA hA tB hB
  | .trans tA hA tB hB => transOut i tA hA tB hB
  | .zero tA hA => zeroOut i tA hA
  | .ew op brow tA hA tB hB => ewOut i op brow tA hA tB hB
  | .aczero a b hA => aczeroOut i a b hA
  | .acload a b tA hA => acloadOut i a b tA hA
  | .acdrain sat sr a b tA hA => acdrainOut i sat sr a b tA hA
  | .acalloc .. | .acfree .. | .acown .. => bankOut i ins
  | .shsetH .. | .shsetT .. | .shgetH .. | .shgetT .. | .fmtset _ => shapeOut i ins

/-- Whether the instruction runs on the array (15, its second paragraph). -/
def isArrayIns : MIns → Bool
  | .mul .. | .quant .. | .deq .. | .cvt .. | .trans .. | .zero .. | .ew .. | .aczero .. | .acload .. | .acdrain .. => true
  | _ => false

end Sys2Proof.Machine
end

