-- ==== Sys2Proof/Machine/Flags.lean ====
section
/-! DEFINITION. IEEE flags of a bundle (10 R271 to R273): what enters FSTAT, the enabled-flag trap, the launch's summary. -/

namespace Sys2Proof.Machine

/-- OR IEEE flags into a half's FSTAT, which is sticky (10 R271). -/
def Half.orFstat (h : Half) (f : Flags) : Half := { h with fstat := h.fstat ||| f.setWidth 64 }

/-- The flags of a bundle's S, V and X slots, which enter FSTAT when it retires (10 R271). -/
def slotFlags (outs : List (Nat × SlotOut)) : Flags := outs.foldl (fun f o => f ||| o.2.flags) 0

/-- Flags that an M slot raises at retirement: those of an array instruction come when it ends (10 R268, R271). -/
def tileFlags (t : TileOut) : Flags := if t.latency.isNone then t.flags else 0

/-- FPTRAP (10 R272): the lowest S or V syllable, or cable SUM (14 R364), that raises an enabled flag. -/
def fpTrap (h : Half) (outs : List (Nat × SlotOut)) : Option Cause :=
  (outs.find? fun o => (decide (o.1 ≤ 4) || o.1 == 6) && (o.2.flags &&& gTe h.gmode) != 0).map fun o => ⟨0x0E, o.2.flags.toNat, 0, o.1, 0⟩

/-- Flags of an atomic that returns nothing go to the launch's summary (10 R273). -/
def addLaunchFlags (s : Chip) (task : Nat) (f : Flags) : Chip :=
  s.modLaunch (taskSlot task) fun l => { l with fstat := l.fstat ||| f }

end Sys2Proof.Machine
end

