-- ==== Sys2Proof/Machine/MemInstr.lean ====
section
/-! DEFINITION. Loads, stores, prefetches, fences and atomics of the D slot (16 R393 to R398, R410 to R413; 06 R152 to R158;
07 R175 to R177, R188, R197; 08 R204 to R220): addresses, the probe, landings, the store path, what an atomic does. -/

namespace Sys2Proof.Machine
open Sys2Proof.Irnov

/-! ## What a D-slot instruction is to do once its bundle performs -/

/-- The action of a probed D-slot instruction. -/
inductive DAct where
  | nop
  /-- What it reads at issue lies in a claimed line: the bundle is held. -/
  | held
  /-- Open a landing; lines served by the L1 and lines requested. -/
  | load (l : Landing) (hit req : List Nat)
  /-- Bytes for scratchpads, and lanes' stores for the store path. -/
  | store (scr : List (Nat × List Byte)) (path : List PathOp)
  /-- A GANG-scope atomic at scratchpads. -/
  | gangAt (op : AtOp) (width : Nat) (lanes : List AtLane) (d : Dst)
  /-- A request whose answer holds the bundle. -/
  | request (r : Req)
  /-- Operations that perform after the bundle as stores do. -/
  | send (ops : List PathOp)
  | prefetch (p : Nat) (rrpv : Option Nat) (fill : Bool)
  | fence (k : FenceKind) (sc : Scope)
  | drain (sc : Scope)
  | barrier (i : DIns)
  | async (sy : Sync) (ops : List Async)
  | series (it : SeriesItem)
deriving DecidableEq, Repr

/-- A probed instruction: the global pages that it reads or writes (true), and its action. -/
structure DPlan where
  touch : List (Nat × Bool)
  act : DAct
deriving DecidableEq, Repr

/-! ## Addresses (R393) -/

def scalarVa (h : Half) (a : Addr) : W64 :=
  match a.base with
  | .scalar s => opv h s + a.disp
  | .pair _ => a.disp

/-- lane_addr of R393. -/
def laneAddr (c : Ctx) (n : Nat) (disp : W64) (l : Nat) : W64 :=
  (c.lane (n + 1) l).setWidth 64 <<< 32 + (c.lane n l).setWidth 64 + disp

/-- lane_on of R393. -/
def laneOn (c : Ctx) (n l : Nat) : Bool := c.lane (n + 1) l != 0xFFFFFFFF

/-! ## The probe (R175 to R177, R197) -/

/-- Where an access goes: a scratchpad byte (engine × 393,216 + offset) or a physical address with its cache policy; the
global view address for a global access. -/
structure Target where
  scratch : Bool
  addr : Nat
  cp : Nat
  ga : Nat
deriving DecidableEq, Repr

/-- The global address of a stack-aperture offset (04 R93). -/
def stackGlobal (s : Chip) (c : Ctx) (o : Nat) : Nat :=
  match s.launchOf c.task with
  | some l => (l.stkbase.toNat + l.stksz * (taskIndex c.task * l.nt + c.member) + o) % 2 ^ 64
  | none => 0

def stackSize (s : Chip) (c : Ctx) : Nat := match s.launchOf c.task with | some l => l.stksz | none => 0

/-- Checks 4 to 6 of R197 on a global address: the fault (code and DETAIL), or the target. Code 0 is no fault: the walk reads a claimed
line, and the bundle is held (08 R222). -/
def probeGlobal (s : Chip) (w : HalfId) (asid : Nat) (acc : Acc) (ga : Nat) : Except (Nat × Nat) Target × Chip :=
  if ga ≥ 2 ^ 48 then (.error (3, 4), s)
  else if walkHeld s w.die (s.coreOf w).dtlb asid ga then (.error (0, 0), s)
  else match xlCore s w.die w.core acc asid ga with
    | (none, s) => (.error (3, 4), s)
    | (some e, s) =>
      match e.phys ga with
      | none => (.error (3, 4), s)
      | some p =>
        match permFail e.pte acc with
        | some n => (.error (4, n), s)
        | none => (.ok ⟨false, p, pteCp e.pte, ga⟩, s)

/-- The checks of R197 in order for one access of some bytes; engine is the scratchpad reached, none with MASK zero. -/
def probeAt (s : Chip) (w : HalfId) (c : Ctx) (acc : Acc) (scratchOk globOk : Bool) (engine : Option Nat) (va : W64)
    (size align : Nat) : Except (Nat × Nat) Target × Chip :=
  let ap := va.toNat / 2 ^ 48
  let off := va.toNat % 2 ^ 48
  if ap = 0xFFFE then
    if !scratchOk then (.error (4, 1), s)
    else if va.toNat % align ≠ 0 then (.error (5, 2), s)
    else match engine with
      | none => (.error (4, 3), s)
      | some e =>
        if off ≥ 2 ^ 19 ∨ off + size > c.splim - c.spbase then (.error (4, 3), s)
        else (.ok ⟨true, e * Config.scratchBytes + c.spbase + off, 0, 0⟩, s)
  else if ap = 0xFFFD ∨ ap = 0 then
    if !globOk then (.error (4, 1), s)
    else if va.toNat % align ≠ 0 then (.error (5, 2), s)
    else if ap = 0 then probeGlobal s w (c.half w.spare).asid.toNat acc off
    else if off + size > stackSize s c then (.error (4, 3), s)
    else probeGlobal s w (c.half w.spare).asid.toNat acc (stackGlobal s c off)
  else (.error (3, 1), s)

/-- Probe one access of the D slot; a failure is a trap of syllable 7 at the lane. -/
def probeLane (s : Chip) (w : HalfId) (c : Ctx) (acc : Acc) (scratchOk globOk : Bool) (engine : Option Nat) (lane : Nat)
    (va : W64) (size align : Nat) : Except Cause Target × Chip :=
  match probeAt s w c acc scratchOk globOk engine va size align with
  | (.ok t, s) => (.ok t, s)
  | (.error (code, detail), s) => (.error ⟨code, detail, va, 7, lane⟩, s)

/-- Probe lanes in ascending order (R197): lane and address, each with its target. -/
def probeLanes (s : Chip) (w : HalfId) (c : Ctx) (acc : Acc) (scratchOk globOk : Bool) (size : Nat) :
    List (Nat × W64) → Except Cause (List (Nat × W64 × Target)) × Chip
  | [] => (.ok [], s)
  | (l, va) :: t =>
    match probeLane s w c acc scratchOk globOk (some (l / 16)) l va size size with
    | (.error x, s) => (.error x, s)
    | (.ok g, s) =>
      match probeLanes s w c acc scratchOk globOk size t with
      | (.error x, s) => (.error x, s)
      | (.ok gs, s) => (.ok ((l, va, g) :: gs), s)

/-- The lowest-numbered active engine (R176). -/
def lowEngine (h : Half) : Option Nat := lowest16 h.mask

/-- Touched pages of targets. -/
def touchOf (store : Bool) (ts : List Target) : List (Nat × Bool) :=
  ((ts.filter fun t => !t.scratch).map fun t => (t.ga / 4096 * 4096, store)).eraseDups

/-! ## Loads (R152, R206, R207, R212, R394, R395) -/

/-- The value of a byte range with those stores held in the core's path that a test names, in their order (R207). -/
def overlayPath (co : Core) (see : PathEntry → Bool) (p : Nat) (bs : List Byte) : List Byte :=
  co.path.foldl (fun bs (e : PathEntry) =>
    match e.op with
    | .store q sb _ => if see e then overlayAt p bs q sb else bs
    | _ => bs) bs

/-- With the stores from before a place in the order of issue. -/
def pathOverlay (co : Core) (seq p : Nat) (bs : List Byte) : List Byte := overlayPath co (fun e => decide (e.seq < seq)) p bs

/-- A held store that a load of a half may not see: the half's own from after the load (R210). -/
def PathEntry.later (e : PathEntry) (x : Nat) (spare : Bool) (seq : Nat) : Bool :=
  e.ctx == x && e.spare == spare && decide (seq ≤ e.seq)

/-- An atomic or sync-object operation in the path touches a line. -/
def heldOpOn (co : Core) (line : Nat) : Bool :=
  co.path.any fun (e : PathEntry) => (match e.op with
    | .atomic _ _ ls => ls.any fun (l : AtLane) => lineOf l.p == line
    | .sync _ p _ _ _ => lineOf p == line
    | _ => false)

/-- Other contexts' held stores to lines that a context reads: it may have observed them (08 R215). -/
def markSeen (co : Core) (x : Nat) (lines : List Nat) : Core :=
  { co with path := co.path.map fun (e : PathEntry) => match e.op with
      | .store p bs _ => if e.ctx != x && (linesOf p bs.length).any lines.contains && !e.seen.contains x then
          { e with seen := x :: e.seen } else e
      | _ => e }

/-- Whether the path's earlier stores give every byte of a range. -/
def pathCovers (co : Core) (seq p n : Nat) : Bool :=
  (List.range n).all fun i => co.path.any fun (e : PathEntry) =>
    match e.op with
    | .store q sb _ => decide (e.seq < seq) && decide (q ≤ p + i) && decide (p + i < q + sb.length)
    | _ => false

/-- Whether a load of the context that has no data yet reads a byte of the line (R210). -/
def olderLoad (c : Ctx) (seq line : Nat) : Bool :=
  c.landings.any fun (l : Landing) => decide (l.seq < seq) && l.parts.any fun (p : LoadPart) => lineOf p.p == line

/-- A loaded value: zero- or sign-extended to 64 bits. -/
def extVal (signed : Bool) (n x : Nat) : Nat := if signed ∧ x ≥ 2 ^ (8 * n - 1) then x + 2 ^ 64 - 2 ^ (8 * n) else x

/-- Put a part's value into a landing's data: one lane, or two for a 64-bit word. -/
def landPut (data : Vector W32 256) (lane : Nat) (wide : Bool) (x : Nat) : Vector W32 256 :=
  let d := data.setIfInBounds lane (BitVec.ofNat 32 x)
  if wide then d.setIfInBounds (lane + 1) (BitVec.ofNat 32 (x / 2 ^ 32)) else d

/-- A part of a load: lane, address, target, bytes, sign extension, 64-bit destination, hint. -/
structure LoadReq where
  lane : Nat
  va : W64
  t : Target
  bytes : Nat
  signed : Bool
  wide : Bool
deriving DecidableEq, Repr

/-- An array instruction in progress marks a byte of a scratchpad range (15 R370). -/
def marked (co : Core) (a n : Nat) : Bool :=
  co.arrays.any fun (r : ArrayRun) => r.marks.any fun m => decide (a < m.1 + m.2) && decide (m.1 < a + n)

/-- One lane of a load at issue: the scratchpad's bytes; a hit in the L1 or the store path; else a part to come. -/
def loadPart (s : Chip) (w : HalfId) (c : Ctx) (seq hint : Nat) (st : Vector W32 256 × List LoadPart × List Nat × List Nat)
    (r : LoadReq) : Vector W32 256 × List LoadPart × List Nat × List Nat :=
  let co := s.coreOf w
  let put := fun (bs : List Byte) => landPut st.1 r.lane r.wide (extVal r.signed r.bytes (leNat bs))
  if r.t.scratch then (put (co.scratch.read 0 r.t.addr r.bytes), st.2)
  else
    let p := r.t.addr
    let line := lineOf p
    let old := olderLoad c seq line
    match (if old then none else l1Find co.l1 line) with
    | some ln => (put (pathOverlay co seq p ((ln.bytes.drop (p % 128)).take r.bytes)), st.2.1, line :: st.2.2.1, st.2.2.2)
    | none =>
      if !old ∧ !heldOpOn co line ∧ pathCovers co seq p r.bytes then
        (put (pathOverlay co seq p (List.replicate r.bytes 0)), st.2.1, st.2.2.1, line :: st.2.2.2)
      else
        (st.1, st.2.1 ++ [⟨r.lane, p, r.va, r.bytes, r.signed, r.wide, cpInsert r.t.cp hint, r.t.cp == 0 && hint != 3, false⟩],
          st.2.2.1, line :: st.2.2.2)

/-- The landing that a load opens, with landing field f. -/
def mkLanding (c : Ctx) (w : HalfId) (dest : Nat) (lanes : BitVec 256) (va : W64) (f seq : Nat) (data : Vector W32 256)
    (parts : List LoadPart) : Landing :=
  let h := c.half w.spare
  let hnd := h.hm != 0
  { id := c.nextLanding, spare := w.spare, hnd := hnd, due := (if hnd then h.hcount else h.count) + 4 * (f + 1)
    dest := dest, lanes := lanes, emask := h.mask, va := va, parts := parts, data := data, pois := none, spilled := false
    dueNow := false, dropped := false, behind := false, seq := seq }

/-- A load's plan. -/
def loadPlan (s : Chip) (w : HalfId) (c : Ctx) (dest : Nat) (lanes : BitVec 256) (va : W64) (f hint : Nat)
    (rs : List LoadReq) : DPlan :=
  let seq := (s.coreOf w).seq
  let st := rs.foldl (loadPart s w c seq hint) (Vector.replicate 256 0, [], [], [])
  let behind := rs.any fun r => r.t.scratch && marked (s.coreOf w) r.t.addr r.bytes
  ⟨touchOf false (rs.map (·.t)),
    .load { mkLanding c w dest lanes va f seq st.1 st.2.1 with behind := behind } st.2.2.1.eraseDups st.2.2.2.eraseDups⟩

/-- Lanes of a vector access with their addresses (R393 to R396); k restricts them for a store. -/
def accessLanes (c : Ctx) (h : Half) (sp : Spread) (a : Addr) (k : BitVec 256) : List (Nat × W64) :=
  let on := (List.range 256).filter fun l => h.mask.getLsbD (l / 16) && k.getLsbD l
  match sp, a.base with
  | .indexed, .pair n => (on.filter (laneOn c n)).map fun l => (l, laneAddr c n a.disp l)
  | .same, _ => on.map fun l => (l, scalarVa h a + BitVec.ofNat 64 (4 * (l % 16)))
  | _, _ => on.map fun l => (l, scalarVa h a + BitVec.ofNat 64 (4 * l))

def scalarLoad (s : Chip) (w : HalfId) (c : Ctx) (bytes : Nat) (signed : Bool) (d : Nat) (a : Addr) (f hint : Nat) :
    Except Cause DPlan × Chip :=
  let h := c.half w.spare
  let va := scalarVa h a
  match probeLane s w c .load true true (lowEngine h) 0 va bytes bytes with
  | (.error x, s) => (.error x, s)
  | (.ok t, s) => (.ok (loadPlan s w c d 3 va f hint [⟨0, va, t, bytes, signed, true⟩]), s)

def vectorLoad (s : Chip) (w : HalfId) (c : Ctx) (sp : Spread) (d : Nat) (a : Addr) (f hint : Nat) :
    Except Cause DPlan × Chip :=
  let h := c.half w.spare
  let ls := accessLanes c h sp a (BitVec.allOnes 256)
  match probeLanes s w c .load true true 4 ls with
  | (.error x, s) => (.error x, s)
  | (.ok ts, s) =>
    let va := match ls with | x :: _ => x.2 | [] => scalarVa h a
    (.ok (loadPlan s w c (192 + d) (mask256 fun l => ls.any (·.1 == l)) va f hint
      (ts.map fun x => ⟨x.1, x.2.1, x.2.2, 4, false, false⟩)), s)

/-! ## Stores (R396, R397) -/

/-- A lane's store: to a scratchpad at once, to global memory through the store path. -/
def storePlan (xs : List (Target × List Byte)) : DPlan :=
  let scr := xs.filterMap fun x => if x.1.scratch then some (x.1.addr, x.2) else none
  let path := xs.filterMap fun x => if x.1.scratch then none
    else some (PathOp.store x.1.addr x.2 (cpInsert x.1.cp 1))
  ⟨touchOf true (xs.map (·.1)), .store scr path⟩

def scalarStore (s : Chip) (w : HalfId) (c : Ctx) (bytes : Nat) (data : Src) (a : Addr) : Except Cause DPlan × Chip :=
  let h := c.half w.spare
  match probeLane s w c .store true true (lowEngine h) 0 (scalarVa h a) bytes bytes with
  | (.error x, s) => (.error x, s)
  | (.ok t, s) => (.ok (storePlan [(t, leBytes bytes (opv h data).toNat)]), s)

def vectorStore (s : Chip) (w : HalfId) (c : Ctx) (sp : Spread) (d k : Nat) (a : Addr) : Except Cause DPlan × Chip :=
  let h := c.half w.spare
  match probeLanes s w c .store true true 4 (accessLanes c h sp a (c.rdK k)) with
  | (.error x, s) => (.error x, s)
  | (.ok ts, s) => (.ok (storePlan (ts.map fun x => (x.2.2, leBytes 4 (c.lane d x.1).toNat))), s)

/-- PREF (R398): dropped when a check fails, nothing at a scratchpad; held while its walk is. -/
def prefPlan (s : Chip) (w : HalfId) (c : Ctx) (a : Addr) (hint : Nat) : DPlan × Chip :=
  match probeAt s w c .load true true (some 0) (scalarVa (c.half w.spare) a) 1 1 with
  | (.error (code, _), s) => (⟨[], if code = 0 then .held else .nop⟩, s)
  | (.ok t, s) =>
    if t.scratch then (⟨[], .nop⟩, s)
    else (⟨touchOf false [t], .prefetch t.addr (cpInsert t.cp hint) (t.cp == 0 && hint != 3)⟩, s)

/-! ## Atomics (R411 to R413, R219, R220, R269) -/

/-- The new value of a word of w bytes, none when it is not written, and flags (R411). -/
def atomicNew (op : AtOp) (w : Nat) (unsigned : Bool) (old o cmp : Nat) : Option Nat × Flags :=
  let b := 8 * w
  let key := bitsToInt (!unsigned) b
  match op with
  | .add => (some ((old + o) % 2 ^ b), 0)
  | .min => (some (if key old ≤ key o then old else o), 0)
  | .max => (some (if key old ≤ key o then o else old), 0)
  | .and => (some (old &&& o), 0)
  | .or => (some (old ||| o), 0)
  | .xor => (some (old ^^^ o), 0)
  | .xchg => (some o, 0)
  | .fadd => let r := addRne32 old o; (some r.1, r.2)
  | .cas => (if old = cmp then some o else none, 0)

/-- Bytes of memory, or free values where a granule is poisoned (log 28). -/
def Chip.rdFree (s : Chip) (p n : Nat) : List Byte × Chip :=
  match s.poisoned p n with
  | none => (s.rdMem p n, s)
  | some _ => ((List.range n).map fun i => BitVec.ofNat 8 ((Config.freeWord (s.fresh + i / 8)).toNat / 256 ^ (i % 8)),
      { s with fresh := s.fresh + n / 8 + 1 })

/-- Lanes of an atomic at their home slices, in lane order: values found, and flags (R220). -/
def atomicMem (s : Chip) (op : AtOp) (w : Nat) (unsigned : Bool) (ls : List AtLane) : List (Nat × Nat) × Flags × Chip :=
  ls.foldl (fun (st : List (Nat × Nat) × Flags × Chip) (l : AtLane) =>
    let (bs, s) := st.2.2.rdFree l.p w
    let old := leNat bs
    let (new, f) := atomicNew op w unsigned old l.o l.cmp
    let s := s.l2Access l.p l.rrpv
    (st.1 ++ [(l.lane, old)], st.2.1 ||| f, match new with | some x => s.wrMem l.p (leBytes w x) | none => s)) ([], 0, s)

/-- Lanes of a GANG-scope atomic at the scratchpads. -/
def atomicScratch (m : Memory) (op : AtOp) (w : Nat) (ls : List AtLane) : List (Nat × Nat) × Flags × Memory :=
  ls.foldl (fun (st : List (Nat × Nat) × Flags × Memory) (l : AtLane) =>
    let old := leNat (st.2.2.read 0 l.p w)
    let (new, f) := atomicNew op w false old l.o l.cmp
    (st.1 ++ [(l.lane, old)], st.2.1 ||| f, match new with | some x => st.2.2.write 0 l.p (leBytes w x) | none => st.2.2))
    ([], 0, m)

/-- Group lanes by word, keeping lane order (R220). -/
def groupLanes (ls : List AtLane) : List (List AtLane) :=
  (ls.map (·.p)).eraseDups.map fun p => ls.filter fun (l : AtLane) => l.p == p

/-- The plan of a probed atomic. -/
def atomicPlan (op : AtOp) (sc : Scope) (w : Nat) (d : Dst) (ls : List (AtLane × Target)) : DPlan :=
  let lanes := ls.map (·.1)
  match sc, d with
  | .gang, d => ⟨[], .gangAt op w lanes d⟩
  | _, .none => ⟨touchOf true (ls.map (·.2)), .send ((groupLanes lanes).map (PathOp.atomic op w))⟩
  | _, _ => ⟨touchOf true (ls.map (·.2)), .request (.atomic op w lanes)⟩

def scalarAtomic (s : Chip) (w : HalfId) (c : Ctx) (op : AtOp) (sc : Scope) (d : Nat) (a : Addr) (o : Src) :
    Except Cause DPlan × Chip :=
  let h := c.half w.spare
  let n := if op = .fadd then 4 else 8
  match probeLane s w c .atomic (sc == .gang) (sc != .gang) (lowEngine h) 0 (scalarVa h a) n n with
  | (.error x, s) => (.error x, s)
  | (.ok t, s) =>
    let l : AtLane := ⟨0, t.addr, (opv h o).toNat % 2 ^ (8 * n), (h.rdS d).toNat % 2 ^ (8 * n), cpInsert t.cp 1⟩
    (.ok (atomicPlan op sc n (if d = 0 then .none else .s d) [(l, t)]), s)

def vectorAtomic (s : Chip) (w : HalfId) (c : Ctx) (op : AtOp) (sc : Scope) (d : Dst) (a : Addr) (o : VSrc) :
    Except Cause DPlan × Chip :=
  let h := c.half w.spare
  match probeLanes s w c .atomic (sc == .gang) (sc != .gang) 4 (accessLanes c h .indexed a (BitVec.allOnes 256)) with
  | (.error x, s) => (.error x, s)
  | (.ok ts, s) =>
    let ov := fun (l : Nat) => match o with | .vec n => (c.lane n l).toNat | .all x => (opv h x).toNat % 2 ^ 32
    let cmp := fun (l : Nat) => match d with | .v n => (c.lane n l).toNat | _ => 0
    (.ok (atomicPlan op sc 4 d (ts.map fun x => (⟨x.1, x.2.2.addr, ov x.1, cmp x.1, cpInsert x.2.2.cp 1⟩, x.2.2))), s)

/-- Register writes of the values that an atomic returns. -/
def atomicWr (w : Nat) (d : Dst) (vals : List (Nat × Nat)) : List Wr :=
  match d with
  | .none => []
  | .s n => [.s n (BitVec.ofNat 64 ((vals.headD (0, 0)).2 % 2 ^ (8 * w)))]
  | .v n => [.v n (mask256 fun l => vals.any (·.1 == l))
      (laneTab fun l => match vals.find? (·.1 == l) with | some x => BitVec.ofNat 32 x.2 | none => 0)]

/-! ## Landings (R152 to R158, R284) -/

/-- Write a landing whose data is there; a scalar destination takes lanes 0 and 1, and 2 and 3 for FPOLL. -/
def landWrite (c : Ctx) (l : Landing) : Ctx :=
  let word := fun (k : Nat) => BitVec.ofNat 64 ((l.data.getD k 0).toNat + 2 ^ 32 * (l.data.getD (k + 1) 0).toNat)
  if l.dest ≥ 192 then c.wrV (l.dest - 192) l.lanes l.data
  else
    let h := c.half l.spare
    let h := if l.lanes.getLsbD 0 then h.wrS l.dest (word 0) else h
    c.setHalf l.spare (if l.lanes.getLsbD 2 then h.wrS (l.dest + 1) (word 2) else h)

/-- Whether a landing is due at the next bundle of its half (R152, R171); the program's landings wait while a handler runs (R281). -/
def Landing.isDue (l : Landing) (h : Half) (spare : Bool) : Bool :=
  !l.dropped && ((l.dueNow && l.hnd == (h.hm != 0)) || (l.spare == spare && (if h.hm = 0 then !l.hnd && decide (l.due ≤ h.count)
    else l.hnd && decide (l.due ≤ h.hcount))))

/-- Landings of a core that hold layby entries. -/
def laybyUsed (co : Core) : Nat :=
  co.ctxs.foldl (fun a e => a + (e.2.landings.filter fun (l : Landing) => !l.spilled).length)
    (co.orphans.filter fun e => !e.2.spilled).length

/-- Write a spilled landing's tag and data to its owner's save area (R157); a fault ends the owner's crew (11 R452). -/
def writeSpill (s : Chip) (d c x id : Nat) : Chip :=
  match s.ctx? d c x with
  | none => s
  | some k =>
    match s.launchOf k.task, k.landings.findIdx? (fun (l : Landing) => l.id == id) with
    | some l, some j =>
      match k.landings[j]? with
      | none => s
      | some ld =>
        let base := (l.saveVa k.task + 0x1000 + k.member * Config.imageBytes) % 2 ^ 64
        let tag := seg64 (0x2A000 + 64 * j) (ld.tag k)
        let data : List Seg := if ld.hasData then
            [(0xA000 + 1024 * j, ld.data.toList.flatMap fun v => leBytes 4 v.toNat)] else []
        match storeSegs s d l.asid k.task base (tag :: data) with
        | .ok s => s
        | .error (prot, va) =>
          match (s.core d c).crews.find? k.task with
          | some cr => endFaulted s d c cr.lowest (if prot then 4 else 3) (saveFaultRec s d c cr k prot va)
          | none => s
    | _, _ => s

/-- Spill one entry of another context (R157): of the context with the most entries, the entry with the latest landing. -/
def spillOne (s : Chip) (d c x : Nat) : Chip :=
  let held := fun (k : Ctx) => k.landings.filter fun (l : Landing) => !l.spilled
  let pick := (s.core d c).ctxs.foldl (fun (b : Option (Nat × Ctx)) e =>
    if e.1 = x ∨ (held e.2).isEmpty then b
    else match b with
      | none => some e
      | some y => if (held e.2).length > (held y.2).length then some e else b) none
  match pick with
  | none => s
  | some (y, k) =>
    let far := (held k).foldl (fun (b : Option Landing) (l : Landing) => match b with
      | none => some l
      | some m => if l.dist (k.half l.spare) > m.dist (k.half m.spare) then some l else b) none
    match far with
    | none => s
    | some l =>
      let s := s.setCtx d c y { k with landings := k.landings.map fun (m : Landing) =>
        if m.id = l.id then { m with spilled := true } else m }
      writeSpill s d c y l.id

/-- Make room for one more layby entry. -/
def makeRoom (s : Chip) (d c x : Nat) : Chip :=
  if laybyUsed (s.core d c) < Config.laybyEntries then s else spillOne s d c x

/-- Bring a context's spilled landings back to layby entries when it issues again (R157). -/
def unspill (s : Chip) (d c x : Nat) : Chip :=
  match s.ctx? d c x with
  | none => s
  | some k =>
    (k.landings.filter (·.spilled)).foldl (fun s (l : Landing) =>
      (makeRoom s d c x).modCtx d c x fun k => { k with landings := k.landings.map fun (m : Landing) =>
        if m.id = l.id then { m with spilled := false } else m }) s

/-! ## Data arriving for a landing (LOAD_DATA_ARRIVAL) -/

/-- The bytes that an operation of the path touches. -/
def PathOp.range : PathOp → Nat × Nat
  | .store p bs _ => (p, bs.length)
  | .atomic _ w ls => (match ls with | l :: _ => l.p | [] => 0, w)
  | .sync k p _ _ _ => (p, match k with | .dcset | .dcdec => 8 | .qresv | .qpush _ | .qpop => 64 | _ => 16)
  | .pref p _ _ => (p, 1)

def overlaps (a b : Nat × Nat) : Bool := decide (a.1 < b.1 + b.2) && decide (b.1 < a.1 + a.2)

def PathOp.isStore : PathOp → Bool
  | .store .. => true
  | _ => false

/-- A prefetch, which orders nothing (R398). -/
def PathOp.isPref : PathOp → Bool
  | .pref .. => true
  | _ => false

/-- A write claim on a line holds its reads (08 R222); so does an older load of the context to the line without data (R210),
and an atomic or sync-object operation on the line that the core's path holds from before it (R207). -/
def arrivalBlocked (s : Chip) (dn cn : Nat) (c : Ctx) (l : Landing) : Bool :=
  l.parts.any fun (p : LoadPart) => s.claimedFor dn cn l.seq (lineOf p.p) ||
    ((s.core dn cn).path.any fun (e : PathEntry) => decide (e.seq < l.seq) && !e.op.isStore && !e.op.isPref &&
      overlaps e.op.range (128 * lineOf p.p, 128)) ||
    c.landings.any fun (m : Landing) => decide (m.seq < l.seq) && m.parts.any fun (q : LoadPart) => lineOf q.p == lineOf p.p

/-- A part's bytes: of an L1 line that has come meanwhile, but for what later stores of the half put there, else memory at the home
slice; with the held stores of the core, but the half's own later ones (R204, R207, R210, R212). -/
def partBytes (s : Chip) (d c x : Nat) (spare : Bool) (seq : Nat) (p : LoadPart) : List Byte :=
  let co := s.core d c
  let home := overlayPath co (fun e => !e.later x spare seq) p.p (s.rdMem p.p p.bytes)
  match (if p.home then none else l1Find co.l1 (lineOf p.p)) with
  | none => home
  | some l => (List.range p.bytes).map fun i =>
      if co.path.any fun (e : PathEntry) => e.op.isStore && e.later x spare seq && overlaps e.op.range (p.p + i, 1) then home.getD i 0
      else l.bytes.getD (p.p % 128 + i) 0

/-- A line enters a core's L1 with the core's held stores, unless it is poisoned, or an atomic or sync-object operation of the path
is still to change it (R188, R210). -/
def fillL1 (s : Chip) (d c line : Nat) : Chip :=
  if (s.poisoned (128 * line) 128).isSome || heldOpOn (s.core d c) line then s
  else s.modCore d c fun co => { co with l1 := l1Put co.l1 ⟨line, pathOverlay co (co.seq + 1) (128 * line) (s.rdMem (128 * line) 128)⟩ }

/-- A part's data comes (R188, R204). -/
def arrivePart (d c x : Nat) (st : Landing × Chip) (p : LoadPart) : Landing × Chip :=
  let (l, s1) := st
  let bs := partBytes s1 d c x l.spare l.seq p
  let pois := match l.pois with
    | some v => some v
    | none => if (s1.poisoned p.p p.bytes).isSome then some (p.va &&& ~~~ 63) else none
  let l := { l with data := landPut l.data p.lane p.wide (extVal p.signed p.bytes (leNat bs)), pois := pois }
  let s1 := (s1.l2Access p.p p.rrpv).modCore d c fun co => markSeen co x [lineOf p.p]
  (l, if p.fill then fillL1 s1 d c (lineOf p.p) else s1)

/-- The data of a landing comes: of a scratchpad load, what was fixed at issue (15 R370). -/
def arriveAll (s : Chip) (d c x : Nat) (l : Landing) : Landing × Chip :=
  l.parts.foldl (arrivePart d c x) ({ l with parts := [], behind := false }, s)

/-- The data of a landing of a context arrives. -/
def arriveData (s : Chip) (d c x id : Nat) : Chip :=
  match s.ctx? d c x with
  | none => s
  | some k =>
    match k.landings.find? fun (l : Landing) => l.id == id with
    | none => s
    | some l =>
      if l.hasData ∨ arrivalBlocked s d c k l then s
      else
        let (l1, s1) := arriveAll s d c x l
        let s1 := s1.modCtx d c x fun k =>
          let drop := k.landings.filter fun (m : Landing) => m.id != id
          let keep := k.landings.map fun (m : Landing) => if m.id = id then l1 else m
          { k with landings := if l.dropped then drop else keep }
        if l.spilled then writeSpill s1 d c x id else s1

/-- A landing that an ended context has left behind, named by its place in the order of issue; and the loads of that context. -/
def orphanOf (s : Chip) (d c x seq : Nat) : Option Landing :=
  ((s.core d c).orphans.find? fun e => e.1 == x && e.2.seq == seq).map (·.2)

def orphanCtx (s : Chip) (d c x : Nat) : Ctx :=
  { Ctx.blank with landings := ((s.core d c).orphans.filter fun y => y.1 == x).map (·.2) }

/-- The data of a landing that an ended context left behind arrives, and is discarded (R154). -/
def arriveOrphan (s : Chip) (d c x seq : Nat) : Chip :=
  match orphanOf s d c x seq with
  | none => s
  | some l =>
    if arrivalBlocked s d c (orphanCtx s d c x) l then s
    else (arriveAll s d c x l).2.modCore d c fun co => { co with orphans := co.orphans.filter fun y => !(y.1 == x && y.2.seq == seq) }

/-! ## Fences (08 R216, R217) -/

/-- Whether something that a half of a context issued counts as a half's own: before a split and after a join the context has one
half (log 35). -/
def ownHalf (c : Ctx) (w : HalfId) (spare : Bool) : Bool := c.spare.isNone || spare == w.spare

/-- An entry of the path of a half's own. -/
def PathEntry.mine (e : PathEntry) (w : HalfId) (c : Ctx) : Bool := e.ctx == w.ctx && e.task == c.task && ownHalf c w e.spare

/-- An entry of the path that a half has issued, or may have observed (08 R215), before a place in the order of issue. -/
def PathEntry.before (e : PathEntry) (w : HalfId) (c : Ctx) (seq : Nat) : Bool :=
  !e.op.isPref && (e.mine w c || e.seen.contains w.ctx) && decide (e.seq < seq)

/-- The address that decides an entry's home. -/
def PathOp.addr : PathOp → Nat
  | .store p _ _ => p
  | .atomic _ _ ls => match ls with | l :: _ => l.p | [] => 0
  | .sync _ p _ _ _ => p
  | .pref p _ _ => p

/-- Whether a scope waits for a store to a line (R204, R214): accepted suffices at GANG scope and, for lines of other dies,
at DIE scope. -/
def storeMatters (sc : Scope) (d p : Nat) : Bool :=
  match sc with
  | .gang => false
  | .die => homeDie p == d
  | _ => true

/-- A write claim holds an entry of a core's path. -/
def PathEntry.claimHeld (e : PathEntry) (s : Chip) (d c : Nat) : Bool :=
  (linesOf e.op.range.1 e.op.range.2).any (s.claimedFor d c e.seq)

/-- The earlier accesses that a fence waits for have performed. It does not wait for a store that a write claim holds (R216). -/
def fenceDone (s : Chip) (w : HalfId) (c : Ctx) (f : Fence) : Bool :=
  let stores := f.kind != .acq
  !((s.coreOf w).path.any fun (e : PathEntry) => e.before w c f.seq &&
      (if e.op.isStore then stores && storeMatters f.scope w.die e.op.addr && !e.claimHeld s w.die w.core else true)) &&
  !(c.landings.any fun (l : Landing) => decide (l.seq < f.seq) && ownHalf c w l.spare && !l.hasData)

/-- Whether a fence or acquire of this kind and scope invalidates the L1 (R189). -/
def fenceInval (k : FenceKind) (sc : Scope) : Bool := k != .rel && sc != .gang

def clearL1 (s : Chip) (w : HalfId) : Chip := s.modCore w.die w.core fun co => { co with l1 := [] }

/-- Take away the fences of a half whose accesses have performed. -/
def settleFences (s : Chip) (w : HalfId) : Chip :=
  match s.ctxOf? w with
  | none => s
  | some c =>
    let h := c.half w.spare
    let (done, rest) := h.fences.partition (fenceDone s w c)
    if done.isEmpty then s
    else
      let s := s.modHalf w fun h => { h with fences := rest }
      if (done.any fun (f : Fence) => fenceInval f.kind f.scope) then clearL1 s w else s

/-- Kinds of access for a fence: loads, and everything that writes. -/
inductive DKind where
  | none | load | write
deriving DecidableEq, Repr

def dKind : DIns → DKind
  | .ld .. | .vld .. | .fpoll .. => .load
  | .pref .. | .fence .. | .drain _ | .barinit .. | .bararr .. | .barexp .. => .none
  | _ => .write

/-- Whether a fence that still waits holds this D slot (R216). -/
def heldByFence (h : Half) (i : DIns) : Bool :=
  h.fences.any fun (f : Fence) => match dKind i with
    | .none => false
    | .load => f.kind != .rel
    | .write => true

/-- The conditions of DRAIN at a scope (R217); the accesses of an array instruction have performed when it has ended (15 R370). -/
def drainDone (s : Chip) (w : HalfId) (c : Ctx) (f : Fence) : Bool :=
  let mine := fun (i : Issuer) => i.die == w.die && i.core == w.core && i.ctx == w.ctx && i.task == c.task && ownHalf c w i.spare
  !((s.coreOf w).path.any fun (e : PathEntry) => e.before w c f.seq &&
      (!e.op.isStore || storeMatters f.scope w.die e.op.addr || (e.mine w c && (e.claimHeld s w.die w.core ||
        (linesOf e.op.range.1 e.op.range.2).any s.readClaimed)))) &&
  !(c.landings.any fun (l : Landing) => ownHalf c w l.spare && !l.hasData) &&
  !((s.coreOf w).arrays.any fun (r : ArrayRun) => r.ctx == w.ctx && r.task == c.task && ownHalf c w r.spare) &&
  !(s.asyncs.any fun (a : Async) => mine a.who) &&
  !((List.range Config.dies).any fun d => (s.die d).series.any fun (i : SeriesItem) => mine i.who)

/-! ## The store path (R207, STORE_PERFORM) -/

/-- Accept an operation into the store path; a store updates its line in the L1, an atomic invalidates it (R188, R189). -/
def acceptPath (s : Chip) (w : HalfId) (c : Ctx) (op : PathOp) : Chip :=
  s.modCore w.die w.core fun co =>
    { co with seq := co.seq + 1
              path := co.path ++ [⟨co.seq, w.ctx, w.spare, c.task, (c.half w.spare).asid.toNat % 4096, op, []⟩]
              l1 := match op with
                | .store p bs _ => l1Store co.l1 p bs
                | .atomic .. => l1Invalidate co.l1 (lineOf op.addr)
                | .sync .. | .pref .. => co.l1 }

/-- Count requests for lines and note an access's gathered bits. -/
def countLines (s : Chip) (w : HalfId) (lines : List Nat) : Chip :=
  lines.foldl (fun s l => countReq s w.die w.core (128 * l)) s

def touchPages (s : Chip) (w : HalfId) (asid : Nat) (ps : List (Nat × Bool)) : Chip :=
  ps.foldl (fun s p => gatherCore s w.die w.core false asid p.1 p.2) s

end Sys2Proof.Machine
end

