-- ==== Sys2Proof/Machine/Sched.lean ====
section
/-! DEFINITION. Which context a core issues from (04 R99, 05 R126, R130), blocking and waking (05 R119, R121), boosts (R127),
the watchdog (04 R107, 11 R296), ageing (04 R96). -/

namespace Sys2Proof.Machine
open Sys2Proof.Irnov

/-! ## Able to issue -/

/-- A half that is not blocked and whose retry timer does not run. -/
def Half.free (h : Half) : Bool := h.block.isNone && h.retryAt.isNone

/-- A context whose adopted task is still being bound or moved (05 R126, R131). -/
def helpsPending (s : Chip) (d c x : Nat) : Bool := (s.core d c).adopt.any fun (e : AdoptEntry) => e.hctx == x && e.pending

/-- A context able to issue (R99): bound and initialised, not stopped, its crew not being moved, not blocked on a wait, and not the
helper of a task that is still to come. -/
def ableCtx (s : Chip) (d c x : Nat) : Bool :=
  match s.ctx? d c x with
  | none => false
  | some k =>
    let moving := match (s.core d c).crews.find? k.task with | some cr => cr.moveTo.isSome | none => true
    decide (k.readyAt = 0) && !k.stopped && !moving && !helpsPending s d c x &&
      (k.main.free || (match k.spare with | some h => h.free | none => false))

/-- helper_satisfied of R130. -/
def satisfied (s : Chip) (d c x : Nat) : Bool :=
  match s.ctx? d c x with
  | some k => k.main.free
  | none => false

def taskLevel (s : Chip) (task : Nat) : Nat := recLevel (s.recRd task 0)

/-- The contexts of a core from the one after the last chosen, wrapping. -/
def roundFrom (last : Nat) : List Nat := (List.range Config.contexts).map fun k => (last + 1 + k) % Config.contexts

/-- R99: of the contexts able to issue, one of the highest LEVEL, the first after the previous one. -/
def pickCtx (s : Chip) (d c : Nat) : Option Nat :=
  (roundFrom (s.core d c).last).foldl (fun (b : Option (Nat × Nat)) x =>
    match s.ctx? d c x with
    | none => b
    | some k =>
      if !ableCtx s d c x then b
      else
        let l := taskLevel s k.task
        match b with
        | none => some (x, l)
        | some y => if l > y.2 then some (x, l) else b) none |>.map (·.1)

def setRunning (s : Chip) (d c : Nat) (x : Option Nat) : Chip :=
  s.modCore d c fun co => { co with running := x, last := match x with | some y => y | none => co.last }

/-- The lowest context of a crew that is able to issue. -/
def crewAble (s : Chip) (d c task : Nat) : Option Nat :=
  match (s.core d c).crews.find? task with
  | none => none
  | some cr => (cr.ctxs.filter fun p => ableCtx s d c p.2).foldl (fun b p => match b with
      | none => some p.2
      | some y => some (min y p.2)) none

/-- A choice point (R99, R126, R130): the return rule, but for a helper whose task is still to be chosen for the first time (R131);
such a task; R99. yield names the task whose Y bundle has retired, with its context. -/
def choosePoint (s : Chip) (d c : Nat) (yield? : Option (Nat × Nat)) : Chip :=
  let st := (s.core d c).adopt
  let due := fun (e : AdoptEntry) => e.first && (crewAble s d c e.task).isSome
  match st.findIdx? fun (e : AdoptEntry) => satisfied s d c e.hctx && !e.pending && !due e with
  | some k =>
    let helper := match st[k]? with | some e => e.hctx | none => 0
    let s := popAdopt s d c (k + 1)
    -- a helper that a PREEMPT has stopped issues no more
    setRunning s d c (if ableCtx s d c helper then some helper else pickCtx s d c)
  | none =>
    match st.find? due with
    | some e =>
      let s := s.modCore d c fun co => { co with adopt := co.adopt.map fun (a : AdoptEntry) =>
        if a.task = e.task then { a with first := false } else a }
      setRunning s d c (crewAble s d c e.task)
    | none =>
      match yield?, st with
      | some (t, x), e :: _ => if e.task = t then setRunning s d c (some x) else setRunning s d c (pickCtx s d c)
      | _, _ => setRunning s d c (pickCtx s d c)

/-- No context is issuing and one becomes able to issue (R99). -/
def idleChoice (s : Chip) (d c : Nat) : Chip :=
  if (s.core d c).running.isSome then s else choosePoint s d c none

/-! ## Waking and blocking -/

/-- A half whose wait is satisfied, with the answer that its wake record now holds. While its walk runs it is not chosen
(05 R126), and the walk goes on (R123). -/
def Half.satisfied (wake : Option Answer) (h : Half) : Half :=
  { h with block := (match h.block with | some b => if b.walk then some { b with done := true } else none | none => none)
           retryAt := none, wake := match wake with | some a => some a | none => h.wake
           wakeHnd := match wake with | some _ => h.hm != 0 | none => h.wakeHnd }

/-- The owner and the object of the wait of a crew's lowest context that still waits; 0 when none does (04 R88; log 122). -/
def crewWait (s : Chip) (d c task : Nat) : Nat × W64 :=
  match (s.core d c).crews.find? task with
  | none => (0, 0)
  | some cr =>
    let ws := cr.ctxs.filterMap fun p => (s.ctx? d c p.2).bind fun k =>
      k.main.block.bind fun b => if b.done then none else some (p.2, b.owner, b.va)
    match sortBy (·.1) ws with
    | [] => (0, 0)
    | x :: _ => x.2

/-- WAITLINK and WAITVA of a task's record, as its crew now waits. -/
def relinkWait (s : Chip) (d c task : Nat) : Chip :=
  let w := crewWait s d c task
  let s := if w64Get (s.recRd task 8) 32 32 = w.1 then s else s.recWr task 8 (w64Put (s.recRd task 8) 32 32 w.1)
  if s.recRd task 0x10 = w.2 then s else s.recWr task 0x10 w.2

/-- The wait of a half is satisfied (R119, R90): its record leaves WAITING, and an idle core chooses. -/
def satisfyWait (s : Chip) (w : HalfId) (wake : Option Answer) : Chip :=
  match s.ctxOf? w with
  | none => s
  | some c =>
    let s := s.modHalf w (·.satisfied wake)
    let s := if recState (s.recRd c.task 0) = stWaiting then s.recSetState c.task stParked else s
    idleChoice (if c.spare.isSome then s else relinkWait s w.die w.core c.task) w.die w.core

/-- An answer reaches the wake record of a deferred wait. -/
def deliverWake (s : Chip) (f : Deferral) (a : Answer) : Chip :=
  let w : HalfId := ⟨f.die, f.core, f.ctx, f.spare⟩
  match s.ctxOf? w with
  | none => s
  | some c => if c.task = f.task then satisfyWait s w (some a) else s

/-- A half whose walk has ended: it stays blocked, after a NACK with its retry timer of 4,096 cc armed (R122, R128), unless its
wait has been satisfied meanwhile. -/
def Half.parked (now : Nat) (h : Half) : Half :=
  match h.block with
  | some b =>
    if b.done then { h with block := none }
    else { h with block := some { b with walk := false }
                  retryAt := if b.deferred then none else some (h.retryAt.getD (now + 4096)) }
  | none => h

/-- park of R122: the waiter stays blocked; the core chooses. -/
def park (s : Chip) (w : HalfId) : Chip := idleChoice (s.modHalf w (·.parked s.now)) w.die w.core

/-- Block a half on a wait (R119, R121 steps 1 and 2). In a split gang only the half is held: no record changes, no walk
(06 R167). -/
def blockHalf (s : Chip) (w : HalfId) (b : Block) : Chip :=
  match s.ctxOf? w with
  | none => s
  | some c =>
    let split := c.spare.isSome
    let s := s.modHalf w fun h => { h with hold := none, block := some { b with walk := !split },
                                           retryAt := if b.deferred then none else some (s.now + 4096) }
    if split then s
    else
      let s := s.recWr c.task 8 (w64Put (s.recRd c.task 8) 32 32 b.owner)
      let s := s.recWr c.task 0x10 b.va
      let st := if (crewAble s w.die w.core c.task).isSome then stParked else stWaiting
      let s := s.recSetState c.task st
      choosePoint (setRunning s w.die w.core none) w.die w.core none

/-- A boost of R127: LEVEL rises by one, never above 6 and never for level 7. -/
def boost (s : Chip) (task : Nat) : Chip :=
  s.recMod0 task fun w => if recLevel w < 6 then w64Put w 53 3 (recLevel w + 1) else w

/-! ## Ageing (04 R96) -/

/-- The cycle from which an entry's wait counts reaches 65,536; a HELD task does not wait. -/
def aged (s : Chip) (e : QEnt) : Bool :=
  decide (s.now ≥ e.since + 65536) &&
    !(e.cursor && (match s.launches.find? e.who with | some l => l.held | none => false))

/-- One ageing of a die's queues: entries of levels 0 to 5 that have waited 65,536 cc rise one level, together, in the order
of R95. -/
def ageDie (s : Chip) (d : Nat) : Chip :=
  let moves := (List.range 6).map fun l => (l, ((s.die d).queues.getD l []).filter (aged s))
  let s := moves.foldl (fun s m => if m.2.isEmpty then s else s.setQueue d m.1 (((s.die d).queues.getD m.1 []).filter fun e => !aged s e)) s
  moves.foldl (fun s m =>
    let es := m.2.map fun (e : QEnt) => { e with since := s.now, enq := s.now, rose := true }
    let s := es.foldl (fun s (e : QEnt) => if e.cursor then s
      else (s.recMod0 e.who fun w => w64Put w 53 3 (m.1 + 1)).recWr e.who 0x30 (BitVec.ofNat 64 s.now)) s
    s.enqueue d (m.1 + 1) es) s

/-! ## The watchdog (04 R107, 11 R296) -/

/-- The context that the watchdog names: the running one, else the one that has gone longest without retiring. -/
def watchdogCtx (co : Core) : Option Nat :=
  match co.running with
  | some x => some x
  | none => (co.ctxs.foldl (fun (b : Option (Nat × Ctx)) e => match b with
      | none => some e
      | some y => if e.2.lastRetire < y.2.lastRetire then some e else b) none).map (·.1)

/-- The half in which a boundary trap of the whole context is taken (06 R168): one that has not arrived; of two, the one
that retired longer ago, the main half on a tie. -/
def boundaryHalf (c : Ctx) : Bool :=
  match c.spare with
  | none => false
  | some h =>
    if c.main.arrived ∨ c.main.ended then true
    else if h.arrived ∨ h.ended then false
    else decide (h.lastRetire < c.main.lastRetire)

/-- Cycles of a freeze join FROZENCC and the launch's sum (06 R155, 03 R64). -/
def addFrozen (s : Chip) (d c x n : Nat) : Chip :=
  match s.ctx? d c x with
  | none => s
  | some k =>
    (s.setCtx d c x { k with frozencc := k.frozencc + BitVec.ofNat 64 n }).modLaunch (taskSlot k.task) fun l =>
      { l with frozen := l.frozen + n }

/-- How long a half has been frozen. -/
def Half.frozenFor (now : Nat) (h : Half) : Nat := match h.frozenAt with | some t => now - t | none => 0

/-- How long a context has been frozen. -/
def Ctx.frozenFor (now : Nat) (k : Ctx) : Nat :=
  max (k.main.frozenFor now) (match k.spare with | some h => h.frozenFor now | none => 0)

/-- The freezes of a context's halves end. -/
def Ctx.thawed (k : Ctx) : Ctx :=
  { k with main := { k.main with frozenAt := none }, spare := k.spare.map fun (h : Half) => { h with frozenAt := none } }

/-- The landings that a frozen half waits for are abandoned (06 R155). -/
def Ctx.dropLate (k : Ctx) : Ctx :=
  { k with landings := k.landings.map fun (l : Landing) =>
      if (k.half l.spare).frozenAt.isSome ∧ l.isDue (k.half l.spare) l.spare ∧ !l.hasData then
        { l with dropped := true, dueNow := false }
      else l }

/-- The deferrals of a half are cancelled. -/
def dropDeferrals (s : Chip) (w : HalfId) : Chip :=
  (List.range Config.dies).foldl (fun (s : Chip) dd => s.modDie dd fun y => { y with
    deferrals := y.deferrals.filter fun (f : Deferral) =>
      !(f.die == w.die && f.core == w.core && f.ctx == w.ctx && f.spare == w.spare) }) s

/-- A half waits no more, and neither object nor owner of a wait of its stays in the task's record (log 122). -/
def unwait (s : Chip) (w : HalfId) (k : Ctx) : Chip :=
  let s := (dropDeferrals s w).modHalf w fun h => { h with block := none, retryAt := none }
  if k.spare.isSome then s
  else
    let s := if recState (s.recRd k.task 0) = stWaiting then s.recSetState k.task stParked else s
    relinkWait s w.die w.core k.task

/-- WATCHDOG is taken in a half (R296): a freeze is released with its landings abandoned, a deferral is cancelled, and the trap
is taken at the bundle then due. -/
def watchdogTrap (s : Chip) (w : HalfId) (k : Ctx) : Chip :=
  let s := addFrozen (s.setCtx w.die w.core w.ctx k.dropLate.thawed) w.die w.core w.ctx (k.frozenFor s.active)
  let s := if (k.half w.spare).block.isSome then unwait s w k else s.modHalf w fun h => { h with retryAt := none }
  idleChoice (takeTrap s w ⟨0x0D, 0, 0, 0, 0⟩ false (boundarySite s w (k.half w.spare))) w.die w.core

/-- The watchdog names a context; a bundle held for its answer completes first (R286). -/
def fireAt (s : Chip) (d c x : Nat) : Chip :=
  match s.ctx? d c x with
  | none => s
  | some k =>
    if (k.half (boundaryHalf k)).hold.isSome then s.modHalf ⟨d, c, x, boundaryHalf k⟩ fun h => { h with wdog := true }
    else watchdogTrap s ⟨d, c, x, boundaryHalf k⟩ k

/-- The watchdog fires: its count starts again. -/
def fireWatchdog (s : Chip) (d c : Nat) : Chip :=
  match watchdogCtx (s.core d c) with
  | none => s
  | some x => fireAt (s.modCore d c fun co => { co with wdCount := 0 }) d c x

end Sys2Proof.Machine
end

