-- ==== Sys2Proof/Machine/Sync.lean ====
section
/-! DEFINITION. Sync objects at their home slices (05 R109 to R118, R132, R133; 17 R418 to R422, R427), tasks created by SPAWN
and by queue nodes (R115, R116, 17 R428, R429), and barrier objects (17 R423 to R426). -/

namespace Sys2Proof.Machine
open Sys2Proof.Irnov

/-- Who sends a sync-object operation: a half of a context serving a task, and the address space of the task's launch. -/
structure Requester where
  half : HalfId
  task : Nat
  asid : Nat
deriving DecidableEq, Repr

/-- What a home slice answers (R117): an answer, or a wait with the object's owner. -/
inductive SyncRes where
  | answer (a : Answer)
  | wait (owner : Nat)
deriving DecidableEq, Repr

def Answer.ok (v : W64) : Answer := ⟨0, 0, v, [], 0, 0⟩
def Answer.status (code info : Nat) : Answer := ⟨code, info, 0, [], 0, 0⟩

/-- The two words of an object. -/
def objWords (s : Chip) (p : Nat) : Nat × Nat × Chip :=
  let (bs, s) := s.rdFree p 16
  (leNat (bs.take 8), leNat (bs.drop 8), s)

/-! ## Creating a task (17 R429, 05 R116) -/

/-- Word 0x00 of a record (04 R88). -/
def recWord0 (st port start held level die task : Nat) : Nat :=
  st * 2 ^ 61 + port * 2 ^ 60 + start * 2 ^ 59 + held * 2 ^ 58 + level * 2 ^ 53 + die * 2 ^ 50 + task

/-- SPAWN's steps for a launch slot (R429); the status code and INFO. -/
def createTask (s : Chip) (slot die : Nat) (l : Launch) (entry0 : W64) (gate : Bool) (arg : W64) (coord : Nat) :
    Nat × Nat × Chip :=
  if l.spawned ≥ l.spawncap then (9, 0, s)
  else if entry0.toNat % 32 ≠ 0 then (0x0A, 0, s)
  else
    let i := l.created
    match recAddr s l i with
    | none => (0x0E, i, s)
    | some (p, e) =>
      let id := taskId slot i
      let w0 := recWord0 (if gate then stUnstarted else stReady) (if l.port then 1 else 0) 0 (if l.held then 1 else 0)
        l.level die id
      let s := (s.noteRec p e true).put id p ([w0, 0, 0, arg.toNat, coord % 2 ^ 48, l.id * 2 ^ 32, 0, 0].flatMap (leBytes 8))
      let s := s.modLaunch slot fun l => { l with spawned := l.spawned + 1 }
      let s := if entry0 = 0 then s else s.modDie die fun y => { y with entry0 := y.entry0.put id entry0 }
      (0, id, if gate then s else s.enqueueTask id)

/-- The slot of the live launch with an id. -/
def slotOf (s : Chip) (id : Nat) : Option (Nat × Launch) :=
  List.find? (fun (e : Nat × Launch) => e.2.id == id) s.launches

/-! ## Queues (R112, R113, R422) -/

structure QHead where
  head : Nat
  tail : Nat
  base : Nat
  cap : Nat
  nthresh : Nat
  ntimer : Nat
  nmark : Nat
  nentry : W64
  nlaunch : Nat
  nerr : Bool
deriving DecidableEq, Repr

/-- A queue header as found. -/
def qHead (s : Chip) (p : Nat) : QHead × Chip :=
  let (bs, s) := s.rdFree p 64
  let w := fun (k : Nat) => leNat ((bs.drop (8 * k)).take 8)
  ({ head := w 0 % 2 ^ 32, tail := w 0 / 2 ^ 32, base := w 1, cap := 2 ^ min 20 (w 2 / 2 ^ 59)
     nthresh := w 2 / 2 ^ 32 % 2 ^ 16, ntimer := w 2 % 2 ^ 32, nmark := w 3 % 2 ^ 32, nentry := BitVec.ofNat 64 (w 4)
     nlaunch := w 5 % 2 ^ 32, nerr := (w 5).testBit 32 }, s)

def QHead.count (q : QHead) : Nat := (q.tail + 2 ^ 32 - q.head) % 2 ^ 32

/-- P of an entry for reading (and writing); none is MEMFAULT: no translation or permission, or poison (R422). -/
def qEntry (s : Chip) (p : Nat) (q : QHead) (asid n : Nat) (acc : Acc) : Option Nat × Chip :=
  match xlAgent s (homeDie p) asid ((q.base + 16 * (n % q.cap)) % 2 ^ 64) acc with
  | (.error _, s) => (none, s)
  | (.ok e, s) =>
    if (s.poisoned e 16).isSome then (none, s)
    else
      let va := (q.base + 16 * (n % q.cap)) % 2 ^ 64
      (some e, touchAt s (homeDie p) asid (if acc = .load then 2 else 1) [(va, e, 16)])

/-- The entry that an operation on a queue reads or writes beside the header. -/
def queueIndex (k : SyncKind) (q : QHead) : Option Nat :=
  match k with
  | .qresv | .qpush none => some q.tail
  | .qpush (some i) => some i
  | .qpop => some q.head
  | _ => none

/-- P of that entry. -/
def queueEntry (s : Chip) (k : SyncKind) (p asid : Nat) : Option Nat :=
  let q := (qHead s p).1
  (queueIndex k q).bind fun n => (qEntry s p q asid n .load).1

/-- Translating that entry at the home slice has to read a claimed line. -/
def queueWalkHeld (s : Chip) (k : SyncKind) (p asid : Nat) : Bool :=
  let q := (qHead s p).1
  match queueIndex k q with
  | some n => rangeWalkHeld s (homeDie p) asid ((q.base + 16 * (n % q.cap)) % 2 ^ 64) 16
  | none => false

/-- The ranges that an operation of the path touches: of a queue operation its entry too (08 R207). -/
def pathRanges (s : Chip) (asid : Nat) (op : PathOp) : List (Nat × Nat) :=
  op.range :: (match op with
    | .sync k p _ _ _ => match queueEntry s k p asid with | some e => [(e, 16)] | none => []
    | _ => [])

def opWalkHeld (s : Chip) (asid : Nat) (op : PathOp) : Bool :=
  match op with
  | .sync k p _ _ _ => queueWalkHeld s k p asid
  | _ => false

def setHeadTail (s : Chip) (p head tail : Nat) : Chip := s.wr64 p (BitVec.ofNat 64 (tail % 2 ^ 32 * 2 ^ 32 + head % 2 ^ 32))

/-! ## Nodes (R115, R116) -/

/-- Entries with FULL = 1 one after another from NMARK below TAIL. -/
def nodeRun (s : Chip) (p : Nat) (q : QHead) (asid : Nat) : Nat × Chip :=
  let left := (q.tail + 2 ^ 32 - q.nmark) % 2 ^ 32
  let rec go : Nat → Nat → Chip → Nat × Chip
    | 0, k, s => (k, s)
    | fuel + 1, k, s =>
      if k ≥ left then (k, s)
      else match qEntry s p q asid (q.nmark + k) .load with
        | (none, s) => (k, s)
        | (some e, s) => if (s.rd64 (e + 8)).getLsbD 63 then go fuel (k + 1) s else (k, s)
  go q.cap 0 s

/-- How many entries wait for a node at a queue (0 for a queue without one). -/
def nodeCount (s : Chip) (p asid : Nat) : Nat :=
  let q := (qHead s p).1
  if q.nthresh = 0 then 0 else (nodeRun s p q asid).1

/-- Spawn one node task handed n records; a failure sets NERR. -/
def spawnNode (s : Chip) (p : Nat) (va : W64) (asid : Nat) (q : QHead) (n : Nat) : Bool × Chip :=
  let fail := fun (s : Chip) => (false, s.wr64 (p + 0x28) (s.rd64 (p + 0x28) ||| 0x100000000))
  match slotOf s q.nlaunch with
  | none => fail s
  | some (slot, l) =>
    if l.asid ≠ asid ∨ q.nentry.toNat % 32 ≠ 0 then fail s
    else
      match createTask s slot (homeDie p) l q.nentry false va
          (n + q.nmark % 2 ^ 16 * 2 ^ 16 + q.nmark / 2 ^ 16 * 2 ^ 32) with
      | (0, _, s) => (true, s.wr64 (p + 0x18) (w64Put (s.rd64 (p + 0x18)) 0 32 ((q.nmark + n) % 2 ^ 32)))
      | (_, _, s) => fail s

def timerOf (y : Die) (slice p : Nat) : Option FlushTimer := y.timers.find? fun t => t.slice == slice && t.p == p

/-- Disarm a queue's flush timer; the oldest queue of the slice that waits for a timer arms it. -/
def disarm (s : Chip) (p : Nat) : Chip :=
  let sl := homeSlice p
  s.modDie (homeDie p) fun y =>
    let ts := y.timers.filter fun (t : FlushTimer) => !(t.slice == sl && t.p == p)
    let armed := (ts.filter fun (t : FlushTimer) => t.slice == sl && !t.waiting).length
    match (if armed < 16 then ts.findIdx? fun (t : FlushTimer) => t.slice == sl && t.waiting else none) with
    | some k => { y with timers := ts.modify k fun t => { t with waiting := false, fireAt := s.now + t.fireAt } }
    | none => { y with timers := ts }

/-- Arm a queue's flush timer. While it waits for one of the slice's timers, fireAt holds the time that it will run. -/
def arm (s : Chip) (p : Nat) (va : W64) (asid ntimer : Nat) : Chip :=
  let sl := homeSlice p
  s.modDie (homeDie p) fun y =>
    if ntimer = 0 ∨ (timerOf y sl p).isSome then y
    else
      let wait := decide ((y.timers.filter fun (t : FlushTimer) => t.slice == sl && !t.waiting).length ≥ 16)
      { y with timers := y.timers ++ [⟨sl, p, va, asid, if wait then ntimer else s.now + ntimer, wait⟩] }

/-- After a change of a queue with a node, where k0 entries waited before (R115): the timer arms when some wait and none did, nodes are
spawned while NTHRESH entries wait, and the timer arms again after a spawn that leaves some. -/
def nodeCheck (s : Chip) (p : Nat) (va : W64) (asid k0 : Nat) (fired : Bool) : Chip :=
  let rec go : Nat → Bool → Bool → Chip → Chip
    | 0, _, _, s => s
    | fuel + 1, spawned, fired, s =>
      let (q, s) := qHead s p
      if q.nthresh = 0 then s
      else
        let (k, s) := nodeRun s p q asid
        let s := if k ≥ 1 ∧ (spawned ∨ k0 = 0) then arm s p va asid q.ntimer else s
        if !q.nerr ∧ k ≥ 1 ∧ (k ≥ q.nthresh ∨ fired) then
          match spawnNode s p va asid q (min k 65535) with
          | (true, s) => go fuel true false (disarm s p)
          | (false, s) => s
        else s
  go 64 false fired s

/-! ## Operations at the home slice (R117) -/

def fullBit : Nat := 2 ^ 63
def poisBit : Nat := 2 ^ 62
def resvBit : Nat := 2 ^ 61

/-- QPOP (R117, R422). -/
def qpopAt (s : Chip) (p asid : Nat) : SyncRes × Chip :=
  let (q, s) := qHead s p
  if q.count = 0 then (.answer (.status 6 0), s)
  else match qEntry s p q asid q.head .load with
    | (none, s) => (.answer (.status 0x0E q.head), s)
    | (some e, s) =>
      let w1 := (s.rd64 (e + 8)).toNat
      if w1.testBit 63 then
        match qEntry s p q asid q.head .store with
        | (none, s) => (.answer (.status 0x0E q.head), s)
        | (some e, s) =>
          let v := s.rd64 e
          let s := setHeadTail (s.wr64 (e + 8) 0) p (q.head + 1) q.tail
          (.answer (if w1.testBit 62 then .status 1 0 else .ok v), s)
      else (.wait (w1 % 2 ^ 32), s)

/-- Deferred operations on an object, oldest first. -/
def deferredOn (s : Chip) (p : Nat) : List Deferral :=
  (s.die (homeDie p)).deferrals.filter fun (f : Deferral) => f.slice == homeSlice p && f.p == p

def dropDeferral (s : Chip) (p : Nat) (f : Deferral) : Chip :=
  s.modDie (homeDie p) fun y => { y with deferrals := y.deferrals.erase f }

/-- Answer deferred QPOPs, oldest first, while the head lets them go (R118). -/
def answerPops (s : Chip) (p : Nat) : Chip :=
  (deferredOn s p).foldl (fun (st : Bool × Chip) (f : Deferral) =>
    if !st.1 ∨ f.kind != .qpop then st
    else match qpopAt st.2 p f.asid with
      | (.answer a, s) => (true, deliverWake (dropDeferral s p f) f a)
      | (.wait _, s) => (false, s)) (true, s) |>.2

/-- Answer every deferred FGET of a full cell (R118). -/
def answerGets (s : Chip) (p : Nat) : Chip :=
  (deferredOn s p).foldl (fun s (f : Deferral) =>
    if f.kind != .fget then s
    else
      let a : Answer := if (s.rd64 (p + 8)).getLsbD 62 then .status 1 0 else .ok (s.rd64 p)
      deliverWake (dropDeferral s p f) f a) s

def lockWord (w st holder : Nat) : W64 := BitVec.ofNat 64 (w / 2 ^ 34 * 2 ^ 34 + st * 2 ^ 32 + holder)

/-- Grant a lock to the oldest deferred LOCK with a status; none waits: false. -/
def grantLock (s : Chip) (p w code : Nat) : Bool × Chip :=
  match (deferredOn s p).find? fun (f : Deferral) => f.kind == .lock with
  | some f => (true, deliverWake ((dropDeferral s p f).wr64 p (lockWord w 1 f.task)) f (.status code 0))
  | none => (false, s)

/-- One operation at the home slice of its object (R117), with the nodes and deferrals that its change concerns. -/
def syncAt (s : Chip) (k : SyncKind) (p : Nat) (va v : W64) (r : Requester) : SyncRes × Chip :=
  match k with
  | .fget =>
    let (w0, w1, s) := objWords s p
    if w1.testBit 63 then (.answer (if w1.testBit 62 then .status 1 0 else .ok (BitVec.ofNat 64 w0)), s)
    else (.wait (w1 % 2 ^ 32), s)
  | .fput =>
    let (_, w1, s) := objWords s p
    if w1.testBit 63 then (.answer (.status 5 0), s)
    else (.answer (.status 0 0), answerGets ((s.wr64 p v).wr64 (p + 8) (BitVec.ofNat 64 (w1 + fullBit))) p)
  | .lock | .trylock =>
    let (w0, _, s) := objWords s p
    let st := w0 / 2 ^ 32 % 4
    if st = 1 then
      (if k = .trylock then .answer (.status 3 (w0 % 2 ^ 32)) else .wait (w0 % 2 ^ 32), s)
    else (.answer (.status (if st = 0 then 0 else 2) 0), s.wr64 p (lockWord w0 1 r.task))
  | .unlock =>
    let (w0, _, s) := objWords s p
    if w0 / 2 ^ 32 % 4 = 1 ∧ w0 % 2 ^ 32 = r.task then
      match grantLock s p w0 0 with
      | (true, s) => (.answer (.status 0 0), s)
      | (false, s) => (.answer (.status 0 0), s.wr64 p (lockWord w0 0 (w0 % 2 ^ 32)))
    else (.answer (.status 4 0), s)
  | .qresv =>
    let (q, s) := qHead s p
    if q.count ≥ q.cap then (.answer (.status 5 0), s)
    else match qEntry s p q r.asid q.tail .store with
      | (none, s) => (.answer (.status 0x0E q.tail), s)
      | (some e, s) =>
        let s := setHeadTail (s.wr64 (e + 8) (BitVec.ofNat 64 (resvBit + r.task))) p q.head (q.tail + 1)
        (.answer (.status 0 q.tail), s)
  | .qpush idx =>
    let (q, s) := qHead s p
    match idx with
    | none =>
      if q.count ≥ q.cap then (.answer (.status 5 0), s)
      else match qEntry s p q r.asid q.tail .store with
        | (none, s) => (.answer (.status 0x0E q.tail), s)
        | (some e, s) =>
          let k0 := nodeCount s p r.asid
          let s := (s.wr64 e v).wr64 (e + 8) (BitVec.ofNat 64 (fullBit + resvBit + r.task))
          let s := setHeadTail s p q.head (q.tail + 1)
          (.answer (.status 0 q.tail), nodeCheck (answerPops s p) p va r.asid k0 false)
    | some i =>
      if (i + 2 ^ 32 - q.head) % 2 ^ 32 ≥ q.count then (.answer (.status 7 0), s)
      else match qEntry s p q r.asid i .load with
        | (none, s) => (.answer (.status 0x0E i), s)
        | (some e, s) =>
          let w1 := (s.rd64 (e + 8)).toNat
          if !w1.testBit 61 ∨ w1.testBit 63 then (.answer (.status 7 0), s)
          else match qEntry s p q r.asid i .store with
            | (none, s) => (.answer (.status 0x0E i), s)
            | (some e, s) =>
              let k0 := nodeCount s p r.asid
              let s := (s.wr64 e v).wr64 (e + 8) (BitVec.ofNat 64 (w1 + fullBit))
              (.answer (.status 0 i), nodeCheck (answerPops s p) p va r.asid k0 false)
  | .qpop => qpopAt s p r.asid
  | .dcset =>
    let (bs, s) := s.rdFree p 8
    (.answer (.ok (BitVec.ofNat 64 (leNat bs))), s.wr64 p v)
  | .dcdec =>
    let (bs, s) := s.rdFree p 8
    let w := leNat bs
    if w % 2 ^ 32 = 0 then (.answer { Answer.ok (BitVec.ofNat 64 w) with trap := 0x0A }, s)
    else
      let s := s.wr64 p (BitVec.ofNat 64 (w - 1))
      let s := if w % 2 ^ 32 = 1 ∧ w / 2 ^ 32 ≠ 0 then s.release (w / 2 ^ 32) else s
      (.answer (.ok (BitVec.ofNat 64 w)), s)

/-- A wait at the home slice (R118): deferred when the slice's buffer of 256 has room, else NACK; true is deferred. -/
def deferAt (s : Chip) (k : SyncKind) (p : Nat) (va : W64) (r : Requester) : Bool × Chip :=
  let d := homeDie p
  let sl := homeSlice p
  if ((s.die d).deferrals.filter fun (f : Deferral) => f.slice == sl).length < 256 then
    (true, s.modDie d fun y => { y with deferrals := y.deferrals ++
      [⟨sl, p, va, k, r.half.die, r.half.core, r.half.ctx, r.half.spare, r.task, r.asid⟩] })
  else (false, s)

/-! ## When an owner ends (R133) -/

/-- resolve_ended: the object, by the operation that waits on it, while it still names the ended task. -/
def resolveEnded (s : Chip) (k : SyncKind) (p : Nat) (va : W64) (asid id : Nat) : Chip :=
  match k with
  | .fget =>
    let w1 := (s.rd64 (p + 8)).toNat
    if !w1.testBit 63 ∧ w1 % 2 ^ 32 = id then
      answerGets (s.wr64 (p + 8) (BitVec.ofNat 64 w1 ||| BitVec.ofNat 64 (fullBit + poisBit))) p
    else s
  | .lock =>
    let w0 := (s.rd64 p).toNat
    if w0 / 2 ^ 32 % 4 = 1 ∧ w0 % 2 ^ 32 = id then
      match grantLock s p w0 2 with
      | (true, s) => s
      | (false, s) => s.wr64 p (lockWord w0 2 id)
    else s
  | .qpop =>
    let (q, s) := qHead s p
    if q.count = 0 then s
    else match qEntry s p q asid q.head .store with
      | (none, s) => s
      | (some e, s) =>
        let w1 := s.rd64 (e + 8)
        if w1.getLsbD 61 ∧ !w1.getLsbD 63 ∧ w64Get w1 0 32 = id then
          let k0 := nodeCount s p asid
          nodeCheck (answerPops (s.wr64 (e + 8) (w1 ||| BitVec.ofNat 64 (fullBit + poisBit))) p) p va asid k0 false
        else s
  | _ => s

/-! ## Barrier objects (17 R424 to R426) -/

/-- The completion check of R424: the barrier after it, and the flag that it sets. -/
def Barrier.check (b : Barrier) : Barrier × Option Nat :=
  if b.init ∧ b.pendarr = 0 ∧ b.pendb = 0 then ({ b with phase := !b.phase, pendarr := b.exparr }, some b.flag)
  else (b, none)

/-- Record an error when the barrier holds none (R426). -/
def Barrier.error (b : Barrier) (code row : Nat) : Barrier :=
  if b.err then b else { b with err := true, ecode := code % 256, erow := row % 2 ^ 24 }

/-- BARINIT, BARARR and BAREXP on a barrier (R425): the barrier after, and the flag set. -/
def barInit (v : W64) : Barrier :=
  { init := true, phase := false, failed := false, err := false, flag := w64Get v 16 5, ecode := 0, erow := 0
    exparr := w64Get v 0 16, pendarr := w64Get v 0 16, pendb := 0 }

/-- A BARARR that finds PENDARR = 0 changes no count, its bytes included, and records 0xA0 (R424). -/
def Barrier.arrive (b : Barrier) (v : W64) : Barrier × Option Nat :=
  if !b.init then (b, none)
  else if b.pendarr = 0 then (b.error 0xA0 0, none)
  else ({ b with pendarr := b.pendarr - 1, pendb := b.pendb + v.setWidth 40 }).check

def Barrier.expect (b : Barrier) (v : W64) : Barrier × Option Nat :=
  let x := v.setWidth 40
  if !b.init ∨ x = 0 then (b, none) else ({ b with pendb := b.pendb + x }).check

/-- Bytes of a transfer count against a barrier; nothing with INIT = 0 (R424, R426). -/
def Barrier.transfer (b : Barrier) (bytes ecode erow : Nat) : Barrier × Option Nat :=
  if !b.init then (b, none)
  else
    let b := if ecode = 0 then b else b.error ecode erow
    if bytes = 0 then (b, none) else ({ b with pendb := b.pendb - BitVec.ofNat 40 bytes }).check

/-- The physical barrier object of b n of a crew. -/
def crewBar (co : Core) (task n : Nat) : Option Nat := (co.crews.find? task).bind fun cr => cr.bars[n]?

/-- Change a crew's barrier and set the flag of a completed phase in every bound context (06 R159). -/
def changeBar (s : Chip) (d c task n : Nat) (f : Barrier → Barrier × Option Nat) : Chip :=
  match crewBar (s.core d c) task n with
  | none => s
  | some b =>
    let (x, fl) := f ((s.core d c).bars.getD b .zero)
    let s := s.modCore d c fun co => { co with bars := co.bars.put b x }
    match fl with
    | some n => setCrewFlag s d c task n
    | none => s

end Sys2Proof.Machine
end

