-- ==== Sys2Proof/Machine/Async.lean ====
section
/-! DEFINITION. The async instructions TLD, TST, TCOPY, TMCAST and TPERM (16 R399 to R409): the probe of their ranges, their
plans, their claims, source reads, writes and completion (08 R208, R221 to R226, 11 R285, 17 R426). -/

namespace Sys2Proof.Machine
open Sys2Proof.Irnov

/-! ## Ranges (07 R175, R197) -/

/-- A failing check of a range: cause code, DETAIL, address. -/
abbrev RFail := Nat × Nat × W64

/-- A range of global memory at global address ga, page by page, with the virtual address of its first byte. -/
def globRange (s : Chip) (w : HalfId) (asid : Nat) (store : Bool) (ga n : Nat) (va : W64) :
    Except RFail (List Piece) × Chip :=
  (piecesOf ga n).foldl (fun (st : Except RFail (List Piece) × Chip) pc =>
    match st with
    | (.error x, s) => (.error x, s)
    | (.ok ps, s) =>
      let at_ := va + BitVec.ofNat 64 (pc.1 - ga)
      if pc.1 ≥ 2 ^ 48 then (.error (3, 1, at_), s)
      else match probeGlobal s w asid (if store then .store else .load) pc.1 with
        | (.error (code, detail), s) => (.error (code, detail, at_), s)
        | (.ok t, s) => (.ok (ps ++ [⟨true, t.addr, pc.2, at_, pc.1, cpInsert t.cp (if store then 1 else 2)⟩]), s)) (.ok [], s)

/-- The lowest address of scratchpad apertures. -/
def scratchBase : Nat := 0xFFFE000000000000

/-- The pieces of one range of n bytes, checked in the order of R197. -/
def probeRange (s : Chip) (w : HalfId) (c : Ctx) (store scrOk globOk : Bool) (e : Nat) (va : W64) (n : Nat) :
    Except RFail (List Piece) × Chip :=
  let ap := va.toNat / 2 ^ 48
  let off := va.toNat % 2 ^ 48
  if n = 0 then (.ok [], s)
  else if ap = 0xFFFE then
    let lim := c.splim - c.spbase
    if !scrOk then (.error (4, 1, va), s)
    else if off ≥ 2 ^ 19 then (.error (4, 3, va), s)
    else if off + n > lim then (.error (4, 3, BitVec.ofNat 64 (scratchBase + max off lim)), s)
    else (.ok [⟨false, e * Config.scratchBytes + c.spbase + off, n, va, 0, none⟩], s)
  else if !globOk ∧ (ap = 0 ∨ ap = 0xFFFD) then (.error (4, 1, va), s)
  else if ap = 0 then globRange s w (c.half w.spare).asid.toNat store off n va
  else if ap = 0xFFFD then
    let size := stackSize s c
    match globRange s w (c.half w.spare).asid.toNat store (stackGlobal s c off) (min n (size - off)) va with
    | (.error x, s) => (.error x, s)
    | (.ok ps, s) =>
      if off + n > size then (.error (4, 3, BitVec.ofNat 64 (0xFFFD000000000000 + max off size)), s) else (.ok ps, s)
  else (.error (3, 1, va), s)

/-- A range to be probed. -/
structure RangeReq where
  store : Bool
  scrOk : Bool
  globOk : Bool
  engine : Nat
  va : W64
  n : Nat
deriving DecidableEq, Repr

/-- Probe several ranges: the pieces of each, in order, and every failure. -/
def probeRanges (s : Chip) (w : HalfId) (c : Ctx) (rs : List RangeReq) : List (List Piece) × List RFail × Chip :=
  rs.foldl (fun (st : List (List Piece) × List RFail × Chip) (r : RangeReq) =>
    match probeRange st.2.2 w c r.store r.scrOk r.globOk r.engine r.va r.n with
    | (.ok ps, s) => (st.1 ++ [ps], st.2.1, s)
    | (.error f, s) => (st.1 ++ [[]], st.2.1 ++ [f], s)) ([], [], s)

/-- The trap that an engine's failures give: the lowest failing address (R197). A walk that is held, with code 0, goes first. -/
def rangeCause (e : Nat) (fs : List RFail) : Option Cause :=
  let held := fs.filter fun f => f.1 == 0
  ((if held.isEmpty then fs else held).foldl (fun (b : Option RFail) f => match b with
    | none => some f
    | some x => if f.2.2.toNat < x.2.2.toNat then some f else b) none).map fun f => ⟨f.1, f.2.1, f.2.2, 7, 16 * e⟩

/-- The trap of an operation whose first misaligned address is given: an aperture comes before alignment, and alignment before the
other checks (R197). -/
def copyCause (e : Nat) (misaligned : Option W64) (fs : List RFail) : Option Cause :=
  match misaligned with
  | none => rangeCause e fs
  | some x => match rangeCause e (fs.filter fun f => f.2.1 == 1) with
    | some c => some c
    | none => some ⟨5, 2, x, 7, 16 * e⟩

/-! ## Plans -/

/-- The global lines of pieces. -/
def pieceLines (ps : List Piece) : List Nat := ((ps.filter (·.glob)).flatMap fun p => linesOf p.addr p.len).eraseDups

def pieceTouch (store : Bool) (ps : List Piece) : List (Nat × Bool) :=
  ((ps.filter (·.glob)).map fun p => (p.ga / 4096 * 4096, store)).eraseDups

def piecesLen (ps : List Piece) : Nat := ps.foldl (fun a p => a + p.len) 0

/-- An operation of an instruction; its number, group and place are given when the bundle performs. -/
def mkAsync (w : HalfId) (c : Ctx) (co : Core) (e : Nat) (sy : Sync) (plan : APlan) (claims : List Nat) (bytes : Nat)
    (sent : Bool) : Async :=
  { id := 0, who := ⟨w.die, w.core, w.ctx, w.spare, c.task, c.member, c.task⟩, engine := e, sync := sy, plan := plan
    claims := claims, seen := [], group := 0, seq := 0
    bar := match sy with | .barrier n => (co.crews.find? c.task).bind fun cr => cr.bars[n]? | .flag _ => none
    out := none, unacked := 0, sent := sent, bytes := bytes, ecode := 0, erow := 0, poison := none }

/-- The engines of a half that work, in ascending order, each planned by f; the first trap stops. -/
def planEngines (s : Chip) (es : List Nat) (f : Nat → Chip → Except Cause (List (Nat × Bool) × Async) × Chip) :
    Except Cause (List (Nat × Bool) × List Async) × Chip :=
  es.foldl (fun (st : Except Cause (List (Nat × Bool) × List Async) × Chip) e =>
    match st with
    | (.error x, s) => (.error x, s)
    | (.ok (tc, ops), s) =>
      match f e s with
      | (.error x, s) => (.error x, s)
      | (.ok (t, a), s) => (.ok ((tc ++ t).eraseDups, ops ++ [a]), s)) (.ok ([], []), s)

def asyncDone (sy : Sync) (r : Except Cause (List (Nat × Bool) × List Async) × Chip) : Except Cause DPlan × Chip :=
  match r with
  | (.error x, s) => (.error x, s)
  | (.ok (tc, ops), s) => (.ok ⟨tc, .async sy ops⟩, s)

/-- Active engines of a half. -/
def activeOf (h : Half) : List Nat := (List.range 16).filter h.mask.getLsbD

/-- The virtual address of row i of an engine's scratchpad tile (R366). -/
def tileVa (t : W64) (sh : W32) (i : Nat) : W64 :=
  BitVec.ofNat 64 (scratchBase + 64 * (t.toNat / 64 % 2 ^ 13) + 32 * shStride sh * i)

/-- Engine e's global address of a tile instruction; none when a vector pair turns it off (R399). -/
def tileBase (c : Ctx) (h : Half) (a : Addr) (e : Nat) : Option W64 :=
  match a.base with
  | .scalar _ => some (scalarVa h a)
  | .pair n => if laneOn c n (16 * e) then some (laneAddr c n a.disp (16 * e)) else none

/-- TLD and TST (R399). -/
def tilePlan (s : Chip) (w : HalfId) (c : Ctx) (store : Bool) (sy : Sync) (t hT hG : Nat) (a : Addr) :
    Except Cause DPlan × Chip :=
  let h := c.half w.spare
  let work := (activeOf h).filter fun e =>
    shRows (c.rdH e hT) != 0 && shK (c.rdH e hG) != 0 && (tileBase c h a e).isSome
  asyncDone sy <| planEngines s work fun e s =>
    let lr := shK (c.rdH e hG)
    let ga := (tileBase c h a e).getD 0
    let rows := List.range (shRows (c.rdH e hT))
    let reqs := rows.flatMap fun i =>
      [⟨store, false, true, e, ga + BitVec.ofNat 64 (32 * shStride (c.rdH e hG) * i), lr⟩,
       (⟨!store, true, false, e, tileVa (h.rdT t) (c.rdH e hT) i, lr⟩ : RangeReq)]
    let (ps, fs, s) := probeRanges s w c reqs
    match rangeCause e fs with
    | some x => (.error x, s)
    | none =>
      let g := fun i => ps.getD (2 * i) []
      let p := fun i => ps.getD (2 * i + 1) []
      let arows := rows.map fun i => if store then (⟨i, p i, [g i], [], 0⟩ : ARow) else ⟨i, g i, [p i], [], 0⟩
      let glob := rows.flatMap g
      (.ok (pieceTouch store glob, mkAsync w c (s.coreOf w) e sy (.rows 0 false arows) (if store then pieceLines glob else [])
        (rows.length * lr) true), s)

/-- Word k of the descriptor of engine e in v n (R404). -/
def descWord (c : Ctx) (n e k : Nat) : Nat := (c.lane n (16 * e + 2 * k)).toNat + 2 ^ 32 * (c.lane n (16 * e + 2 * k + 1)).toNat

/-- Bits [hi:lo] of a word. -/
def bitsHL (x hi lo : Nat) : Nat := x / 2 ^ lo % 2 ^ (hi + 1 - lo)

/-- Element size of a reduce operator (R407); 0 is none or reserved. -/
def reduceSize (op : Nat) : Nat :=
  match op with
  | 1 | 5 | 7 | 8 | 9 | 10 => 4
  | 2 | 3 => 2
  | 4 | 6 | 11 | 12 | 13 => 8
  | _ => 0

/-- Whether two byte ranges overlap. -/
def overlap2 (a n b m : Nat) : Bool := decide (a < b + m) && decide (b < a + n)

/-- ILLEGAL of a descriptor names the D slot (R404). -/
def descIllegal : Cause := ⟨0x02, 0, 0, 7, 0⟩

/-- TCOPY's and TMCAST's descriptor (R404). -/
structure CopyDesc where
  src : W64
  dst : W64
  rows : Nat
  len : Nat
  sp : Nat
  dp : Nat
  emask : Nat
  op : Nat
  deng : Nat
  ord : Bool
  peer : Bool
  nr : Nat
  drank : Nat
deriving DecidableEq, Repr

/-- The descriptor of engine e; none is ILLEGAL. A row overlaps where source and destination lie in the same space (R404). -/
def copyDesc (s : Chip) (c : Ctx) (mcast : Bool) (v e : Nat) : Option CopyDesc :=
  let w := descWord c v e
  let d : CopyDesc :=
    { src := BitVec.ofNat 64 (w 0), dst := BitVec.ofNat 64 (w 1), rows := bitsHL (w 2) 47 32, len := bitsHL (w 2) 13 0
      sp := bitsHL (w 3) 31 0, dp := bitsHL (w 3) 63 32, emask := bitsHL (w 4) 45 30, op := bitsHL (w 4) 29 26
      deng := bitsHL (w 4) 25 22, ord := (w 4).testBit 21, peer := (w 4).testBit 20, nr := bitsHL (w 4) 19 12
      drank := bitsHL (w 4) 11 0 }
  let dap := d.dst.toNat / 2 ^ 48
  let dscr := !d.peer && dap == 0xFFFE
  let sscr := d.src.toNat / 2 ^ 48 == 0xFFFE
  let reserved := bitsHL (w 2) 63 48 != 0 || bitsHL (w 2) 31 14 != 0 || bitsHL (w 4) 63 46 != 0 || w 5 != 0 || w 6 != 0 ||
    w 7 != 0
  let fields := decide (d.op ≥ 14) || (d.rows != 0 && (d.len == 0 || decide (d.len > 8192))) ||
    decide (d.drank + d.nr > 4095) ||
    (if mcast then d.deng != 0 || (!d.peer && (dap == 0 || dap == 0xFFFD))
     else d.emask != 0 || d.nr != 0 || (d.deng != 0 && !dscr))
  let own := mcast && d.peer && decide (d.drank ≤ s.rank) && decide (s.rank ≤ d.drank + d.nr)
  let same := if dscr then sscr && (if mcast then d.emask.testBit e else d.deng == e)
    else (!d.peer || own) && !sscr
  let laps := same && (List.range d.rows).any fun i =>
    overlap2 ((d.src + BitVec.ofNat 64 (i * d.sp)).toNat) d.len ((d.dst + BitVec.ofNat 64 (i * d.dp)).toNat) d.len
  if reserved || fields || laps then none else some d

/-- The first misaligned address under a reduce operator, 0 none (R404). -/
def copyMisaligned (d : CopyDesc) : Option W64 :=
  let es := reduceSize d.op
  if es = 0 then none
  else [d.src, d.dst, d.src + BitVec.ofNat 64 d.sp, d.dst + BitVec.ofNat 64 d.dp, d.src + BitVec.ofNat 64 d.len].find? fun x =>
    x.toNat % es != 0

/-- TCOPY and TMCAST (R404, R405). The part's own rank is written locally (log 31). -/
def copyPlan (s : Chip) (w : HalfId) (c : Ctx) (mcast : Bool) (sy : Sync) (v : Nat) : Except Cause DPlan × Chip :=
  let h := c.half w.spare
  let es := activeOf h
  if es.any fun e => (copyDesc s c mcast v e).isNone then (.error descIllegal, s)
  else
    let work := es.filter fun e => match copyDesc s c mcast v e with | some d => d.rows != 0 | none => false
    asyncDone sy <| planEngines s work fun e s =>
      match copyDesc s c mcast v e with
      | none => (.error descIllegal, s)
      | some d =>
          let rows := List.range d.rows
          let sva := fun i => d.src + BitVec.ofNat 64 (i * d.sp)
          let dva := fun i => d.dst + BitVec.ofNat 64 (i * d.dp)
          let ranks := if d.peer then (List.range (d.nr + 1)).map (d.drank + ·) else []
          let own := mcast && ranks.contains s.rank
          let scr := !d.peer && d.dst.toNat / 2 ^ 48 == 0xFFFE
          -- local destinations of a row: the engine reached and whether a scratchpad or global memory
          let engines : List Nat := if scr then (if mcast then (List.range 16).filter d.emask.testBit else [d.deng])
            else if !d.peer ∨ own then [e] else []
          let reqs := rows.flatMap fun i =>
            (⟨false, true, true, e, sva i, d.len⟩ : RangeReq) :: engines.map fun k => ⟨true, scr, !scr, k, dva i, d.len⟩
          let step := engines.length + 1
          let (ps, fs, s) := probeRanges s w c reqs
          match copyCause e (copyMisaligned d) fs with
          | some x => (.error x, s)
          | none =>
            let arows := rows.map fun i => (⟨e * 65536 + i, ps.getD (step * i) [],
              (List.range engines.length).map fun k => ps.getD (step * i + k + 1) [],
              ranks.filter fun r => !(own && r == s.rank), dva i⟩ : ARow)
            let dsts := arows.flatMap fun (r : ARow) => r.dsts.flatten
            let n := arows.foldl (fun n (r : ARow) => n + d.len * (r.dsts.length + r.peers.length)) 0
            (.ok (pieceTouch false (arows.flatMap (·.src)) ++ pieceTouch true dsts,
              mkAsync w c (s.coreOf w) e sy (.rows d.op d.ord arows) (pieceLines dsts) n
                (arows.all fun (r : ARow) => r.peers.isEmpty)), s)

/-- TPERM's descriptor (R408). -/
structure PermDesc where
  src : W64
  dst : W64
  tbl : W64
  cnt : W64
  inv : W64
  rows : Nat
  len : Nat
  nx : Nat
  mode : Nat
deriving DecidableEq, Repr

/-- The ranges of a TPERM: source, destination, table, counts, inverse, with their lengths (R409). -/
def PermDesc.ranges (d : PermDesc) : List (W64 × Nat × Bool) :=
  let n := d.rows * d.len
  let x := d.nx * d.len
  match d.mode with
  | 0 => [(d.src, n, false), (d.dst, n, true), (d.tbl, 4 * d.rows, false), (d.cnt, 4 * d.nx, true), (d.inv, 4 * d.rows, true)]
  | 1 => [(d.src, x, false), (d.dst, n, true), (d.tbl, 4 * d.rows, false)]
  | _ => [(d.src, n, false), (d.dst, x, true), (d.tbl, 4 * d.rows, false)]

def permDesc (c : Ctx) (v e : Nat) : Option PermDesc :=
  let w := descWord c v e
  let d : PermDesc :=
    { src := BitVec.ofNat 64 (w 0), dst := BitVec.ofNat 64 (w 1), tbl := BitVec.ofNat 64 (w 2), cnt := BitVec.ofNat 64 (w 3)
      inv := BitVec.ofNat 64 (w 4), rows := bitsHL (w 5) 47 32, len := bitsHL (w 5) 13 0, nx := bitsHL (w 6) 31 16
      mode := bitsHL (w 6) 1 0 }
  let reserved := bitsHL (w 5) 63 48 != 0 || bitsHL (w 5) 31 14 != 0 || bitsHL (w 6) 63 32 != 0 || bitsHL (w 6) 15 2 != 0 ||
    w 7 != 0
  let fields := d.mode == 3 || (d.mode != 0 && (d.cnt != 0 || d.inv != 0)) ||
    d.len == 0 || decide (d.len > 8192) || d.nx == 0 || (d.mode == 0 && decide (d.nx > 4096))
  let laps := (d.ranges.filter (·.2.2)).any fun x => (d.ranges.filter fun y => !y.2.2).any fun y =>
    overlap2 x.1.toNat x.2.1 y.1.toNat y.2.1
  if reserved || fields || laps then none else some d

/-- TPERM (R408). -/
def permPlan (s : Chip) (w : HalfId) (c : Ctx) (sy : Sync) (v : Nat) : Except Cause DPlan × Chip :=
  let h := c.half w.spare
  let es := activeOf h
  if es.any fun e => (permDesc c v e).isNone then (.error descIllegal, s)
  else
    asyncDone sy <| planEngines s es fun e s =>
      match permDesc c v e with
      | none => (.error descIllegal, s)
      | some d =>
          let (ps, fs, s) := probeRanges s w c (d.ranges.map fun r => ⟨r.2.2, true, true, e, r.1, r.2.1⟩)
          match copyCause e ([d.tbl, d.cnt, d.inv].find? fun x => x.toNat % 4 != 0) fs with
          | some x => (.error x, s)
          | none =>
            let g := fun k => ps.getD k []
            let dsts := g 1 ++ g 3 ++ g 4
            (.ok (pieceTouch false (g 0 ++ g 2) ++ pieceTouch true dsts,
              mkAsync w c (s.coreOf w) e sy (.perm d.mode d.rows d.nx d.len (g 0) (g 1) (g 2) (g 3) (g 4)) (pieceLines dsts) 0 true), s)

/-! ## Reading the sources (R208, R285) -/

/-- Bytes of pieces at one instant, each with the address of its granule when that is poisoned. Stores that the issuing
core's path accepted earlier and still holds are seen (log 32). -/
def readPiecesP (s : Chip) (co : Core) (seq : Nat) (ps : List Piece) : List (Byte × Option W64) :=
  ps.flatMap fun (p : Piece) =>
    if p.glob then
      let bs := pathOverlay co seq p.addr (s.rdMem p.addr p.len)
      (List.range p.len).map fun i =>
        let a := p.addr + i
        (bs.getD i 0, if s.poison.contains (a / 64) then some (p.va + BitVec.ofNat 64 (a / 64 * 64) - BitVec.ofNat 64 p.addr)
          else none)
    else (co.scratch.read 0 p.addr p.len).map fun b => (b, none)

/-- The pieces of n bytes from an offset. -/
def slicePieces : List Piece → Nat → Nat → List Piece
  | [], _, _ => []
  | p :: t, off, n =>
    if n = 0 then []
    else if off ≥ p.len then slicePieces t (off - p.len) n
    else
      let k := min n (p.len - off)
      { p with addr := p.addr + off, len := k, va := p.va + BitVec.ofNat 64 off, ga := p.ga + off } :: slicePieces t 0 (n - k)

/-- One byte more for a list of chunks, last chunk first. -/
def addByte (glob : Bool) (addr row : Nat) (b : Byte) (rrpv : Option Nat) : List Chunk → List Chunk
  | [] => [⟨glob, addr, row, [b], rrpv⟩]
  | c :: t =>
    if c.glob = glob ∧ c.row = row ∧ c.addr + c.bytes.length = addr ∧ addr % 128 ≠ 0 then { c with bytes := c.bytes ++ [b] } :: t
    else ⟨glob, addr, row, [b], rrpv⟩ :: c :: t

/-- The chunks that bytes laid over pieces make; none stands for a byte that is not written. -/
def layBytes (row : Nat) (ps : List Piece) (bs : List (Option Byte)) : List Chunk :=
  let addrs := ps.flatMap fun (p : Piece) => (List.range p.len).map fun i => (p.glob, p.addr + i, p.rrpv)
  ((addrs.zip bs).foldl (fun acc x => match x.2 with
    | some b => addByte x.1.1 x.1.2.1 row b x.1.2.2 acc
    | none => acc) []).reverse

def goodBytes (xs : List (Byte × Option W64)) : List (Option Byte) := xs.map fun x => if x.2.isSome then none else some x.1
def firstPoison (xs : List (Byte × Option W64)) : Option W64 := xs.findSome? (·.2)

/-- What reading an operation's sources gives: chunks to store, rows for peers, the first poison with its row, lines read with
the RRPV at which the L2 takes them, and the bytes that the operation writes or refuses, where only the sources tell (TPERM). -/
structure ARead where
  chunks : List Chunk
  sends : List (ARow × Nat × List Byte)
  poison : Option (Nat × W64)
  lines : List (Nat × Option Nat)
  total : Nat
deriving DecidableEq, Repr

/-- The 32-bit values of a table, none for one that holds a poisoned byte (log 33). -/
def tableVals (xs : List (Byte × Option W64)) (n : Nat) : List (Option Nat) :=
  (List.range n).map fun i =>
    let q := (xs.drop (4 * i)).take 4
    if (firstPoison q).isSome then none else some (leNat (q.map (·.1)))

/-- TPERM's writes (R409): destination row, source row (none: zero bytes), and the words of CNT and INV. -/
def permMoves (mode n nx : Nat) (tbl : List (Option Nat)) : List (Nat × Option Nat) × List Nat × List (Nat × Nat) :=
  let idx := List.range n
  match mode with
  | 0 =>
    let order := (List.range nx).flatMap fun x => idx.filter fun i => tbl.getD i none == some x
    let pos := (List.range order.length).zip order
    (pos.map fun p => (p.1, some p.2), (List.range nx).map fun x => (idx.filter fun i => tbl.getD i none == some x).length,
     idx.filterMap fun i => match tbl.getD i none with
       | none => none
       | some x => if x ≥ nx then some (i, 0xFFFFFFFF)
         else some (i, match pos.find? fun p => p.2 == i with | some p => p.1 | none => 0))
  | 1 => (idx.filterMap fun i => (tbl.getD i none).map fun x => (i, if x < nx then some x else none), [], [])
  | _ => (idx.filterMap fun i => (tbl.getD i none).bind fun x => if x < nx then some (x, some i) else none, [], [])

/-- Read every source of an operation at one instant. -/
def asyncRead (s : Chip) (a : Async) : ARead :=
  let co := s.core a.who.die a.who.core
  let rd := readPiecesP s co a.seq
  let lines := fun (ps : List Piece) => (ps.filter (·.glob)).flatMap fun p => (linesOf p.addr p.len).map fun l => (l, p.rrpv)
  match a.plan with
  | .rows _ _ rs =>
    let got := rs.map fun (r : ARow) => (r, rd r.src)
    { chunks := got.flatMap fun g => g.1.dsts.flatMap fun d => layBytes g.1.index d (goodBytes g.2)
      sends := got.flatMap fun g => if (firstPoison g.2).isSome then []
        else g.1.peers.map fun k => (g.1, k, g.2.map (·.1))
      poison := got.findSome? fun g => (firstPoison g.2).map fun v => (g.1.index, v)
      lines := rs.flatMap fun (r : ARow) => lines r.src
      total := a.bytes }
  | .perm mode n nx len src dst tbl cnt inv =>
    let tb := rd tbl
    let rows := (rd src).toArray
    let row := fun i => (rows.extract (i * len) (i * len + len)).toList
    let (moves, counts, invs) := permMoves mode n nx (tableVals tb n)
    { chunks := (moves.flatMap fun m => layBytes 0 (slicePieces dst (m.1 * len) len)
          (match m.2 with | some i => goodBytes (row i) | none => List.replicate len (some 0))) ++
        ((List.range counts.length).zip counts).flatMap (fun p => layBytes 0 (slicePieces cnt (4 * p.1) 4)
          ((leBytes 4 p.2).map some)) ++
        invs.flatMap (fun p => layBytes 0 (slicePieces inv (4 * p.1) 4) ((leBytes 4 p.2).map some))
      sends := []
      poison := ((firstPoison tb).orElse fun _ => moves.findSome? fun m => m.2.bind fun i => firstPoison (row i)).map fun v => (0, v)
      lines := lines tbl ++ lines src
      total := moves.length * len + 4 * counts.length + 4 * invs.length }

/-! ## Reduce operators (R406, R407) -/

/-- combine of a 2-byte float: widened, added, narrowed; invalid is judged on the operands' own encoding. -/
def addNarrow (f : FFmt) (d x : Nat) : Nat × Flags :=
  let inv : Flags := if (fDecode f d).isSnan ∨ (fDecode f x).isSnan then .inv else 0
  let (y, g) := addRne32 (fConv f .f32 .rne false 0 d).1 (fConv f .f32 .rne false 0 x).1
  let (z, g2) := fConv .f32 f .rne false 0 y
  (z, inv ||| g ||| g2)

/-- One element under a reduce operator: destination d and source x. -/
def reduceElem (op d x : Nat) : Nat × Flags :=
  let lesser := fun (a b : Nat) =>
    match nanResult .f32 [fDecode .f32 a, fDecode .f32 b] with
    | some r => r
    | none => fMinMax .f32 false 0 a b
  match op with
  | 1 => addRne32 d x
  | 2 => addNarrow .bf16 d x
  | 3 => addNarrow .f16 d x
  | 4 => fAdd .f64 .rne 0 d x
  | 5 => ((d + x) % 2 ^ 32, 0)
  | 6 => ((d + x) % 2 ^ 64, 0)
  | 7 => maxTotal .f32 d x
  | 8 => lesser d x
  | 9 => (if bitsToInt true 32 d ≤ bitsToInt true 32 x then x else d, 0)
  | 10 => (if bitsToInt true 32 d ≤ bitsToInt true 32 x then d else x, 0)
  | 11 => (d &&& x, 0)
  | 12 => (d ||| x, 0)
  | 13 => (d ^^^ x, 0)
  | _ => (x, 0)

/-- Bytes combined with those at the destination, element by element. -/
def reduceBytes (op : Nat) (old new : List Byte) : List Byte × Flags :=
  let es := reduceSize op
  if es = 0 then (new, 0)
  else
    (List.range (new.length / es)).foldl (fun (st : List Byte × Flags) i =>
      let (r, f) := reduceElem op (leNat ((old.drop (es * i)).take es)) (leNat ((new.drop (es * i)).take es))
      (st.1 ++ leBytes es r, st.2 ||| f)) ([], 0)

/-! ## Performing -/

def APlan.op : APlan → Nat
  | .rows op _ _ => op
  | .perm .. => 0

/-- Change the operation with a number. -/
def Chip.modAsync (s : Chip) (id : Nat) (f : Async → Async) : Chip :=
  { s with asyncs := s.asyncs.map fun (a : Async) => if a.id = id then f a else a }

def Chip.async? (s : Chip) (id : Nat) : Option Async := List.find? (fun (a : Async) => a.id == id) s.asyncs

/-- Count requests for lines against a core (07 R202). -/
def countReqs (s : Chip) (d c : Nat) (lines : List Nat) : Chip := lines.foldl (fun s l => countReq s d c (128 * l)) s

/-- Count bytes against an operation's barrier (R426), in the contexts of the crew while it is bound. -/
def countBytes (s : Chip) (a : Async) (n ecode erow : Nat) : Chip :=
  match a.sync, a.bar with
  | .barrier b, some _ => changeBar s a.who.die a.who.core a.who.task b fun x => x.transfer n ecode erow
  | _, _ => s

/-- A stream for an unordered message: any of the 16 (08 R226). -/
def rowStream (a : Async) (ord : Bool) : Option Nat := if ord then some (a.who.ctx % 16) else none

/-- An operation whose sources have not been read reads them now and sends its rows for peers (R405, R285). -/
def readSources (s : Chip) (a : Async) : Async × Chip :=
  if a.out.isSome then (a, s)
  else
    let r := asyncRead s a
    let (op, ord) := match a.plan with | .rows op ord _ => (op, ord) | .perm .. => (0, false)
    let msgs : List OutMsg := r.sends.map fun x =>
      { mtype := 7, rank := x.2.1, stream := rowStream a ord, ord := ord, tspec := op * 2 ^ 24 + x.1.index, addr := x.1.addr,
        payload := x.2.2, conv := false, opId := a.id, row := x.1.index }
    -- rows for peers that hold poison are not sent, and their bytes count as refused
    let lost := match a.plan with
      | .rows _ _ rs => rs.foldl (fun n (x : ARow) => n + x.peers.length * piecesLen x.src) 0 -
          r.sends.foldl (fun n x => n + x.2.2.length) 0
      | .perm .. => 0
    let lines := (r.lines.map (·.1)).eraseDups
    let a1 := { a with out := some r.chunks, unacked := msgs.length, sent := true, bytes := r.total - lost
                       seen := lines ++ a.seen
                       ecode := match r.poison with | some _ => 0x90 | none => 0
                       erow := match r.poison with | some p => p.1 | none => 0
                       poison := r.poison.map (·.2) }
    let s := { s with outbox := s.outbox ++ msgs }
    let s := (countReqs s a.who.die a.who.core (lines.filter fun l => !a.seen.contains l)).modCore a.who.die a.who.core fun co =>
      markSeen co a.who.ctx lines
    let s := r.lines.eraseDups.foldl (fun s l => s.l2Access (128 * l.1) l.2) s
    let s := s.modAsync a.id fun _ => a1
    (a1, if lost = 0 then s else countBytes s a lost a1.ecode a1.erow)

/-- Store a chunk, combined under a reduce operator, to memory or a scratchpad of the core; flags go to the launch (R406). -/
def writeChunk (s : Chip) (a : Async) (k : Chunk) : Chip :=
  let op := a.plan.op
  if k.glob then
    let (old, s) := s.rdFree k.addr k.bytes.length
    let (bs, f) := reduceBytes op old k.bytes
    let s := (s.l2Access k.addr k.rrpv).wrMem k.addr bs
    s.modLaunch (taskSlot a.who.task) fun l => { l with fstat := l.fstat ||| f }
  else
    let co := s.core a.who.die a.who.core
    let (bs, f) := reduceBytes op (co.scratch.read 0 k.addr k.bytes.length) k.bytes
    (s.setCore a.who.die a.who.core { co with scratch := co.scratch.write 0 k.addr bs }).modLaunch (taskSlot a.who.task) fun l =>
      { l with fstat := l.fstat ||| f }

/-- TPERM runs the operations of one instruction one at a time, in ascending engine order (R408). -/
def asyncTurn (s : Chip) (a : Async) : Bool :=
  match a.plan with
  | .perm .. => !(s.asyncs.any fun (b : Async) => b.group == a.group && decide (b.id < a.id))
  | .rows .. => true

/-- Whether an operation may write a line that it claims: the claim is granted (07 R192), every earlier claim of the line has been
written and no read claim is on it (R222), and every store or load of the issuing core to the line from before it has performed
(log 32). -/
def lineFree (s : Chip) (a : Async) (line : Nat) : Bool :=
  s.granted line && !s.readClaimed line &&
  !(s.asyncs.any fun (b : Async) => decide (b.id < a.id) && b.claims.contains line) &&
  !((List.range Config.dies).any fun d => (s.die d).series.any fun (i : SeriesItem) =>
      i.claims.contains line && decide (i.claimAt ≤ a.id)) &&
  !((s.core a.who.die a.who.core).path.any fun (e : PathEntry) => decide (e.seq < a.seq) && !e.op.isPref &&
      overlaps e.op.range (128 * line, 128)) &&
  !(((s.core a.who.die a.who.core).ctxs.flatMap (·.2.landings) ++ (s.core a.who.die a.who.core).orphans.map (·.2)).any
      fun (l : Landing) => decide (l.seq < a.seq) && l.parts.any fun (p : LoadPart) => lineOf p.p == line)

/-- CLAIMED_LINE_WRITE: the operation reads its sources, which waits for no claim (R221), its bytes of one claimed line perform, and
the claim is released (R222). -/
def claimedWrite (s : Chip) (id line : Nat) : Chip :=
  match s.async? id with
  | none => s
  | some a =>
    if !a.claims.contains line ∨ !asyncTurn s a then s
    else
      let (a, s) := readSources s a
      if !lineFree s a line then s
      else
      let mine := (a.out.getD []).filter fun (k : Chunk) => k.glob && lineOf k.addr == line
      let n := mine.foldl (fun n (k : Chunk) => n + k.bytes.length) 0
      let s := mine.foldl (fun s k => writeChunk s a k) s
      let s := if n = 0 ∨ a.seen.contains line then s else countReq s a.who.die a.who.core (128 * line)
      let a1 := { a with claims := a.claims.filter (· != line), bytes := a.bytes - n, seen := line :: a.seen
                         out := some ((a.out.getD []).filter fun (k : Chunk) => !(k.glob && lineOf k.addr == line)) }
      let s := settleHeld (s.modAsync id fun _ => a1)
      if n = 0 then s else countBytes s a n 0 0

/-- Destination lines in global memory of an operation (07 R189). -/
def asyncLines (a : Async) : List Nat :=
  match a.plan with
  | .rows _ _ rs => rs.flatMap fun (r : ARow) => r.dsts.flatMap pieceLines
  | .perm _ _ _ _ _ dst _ cnt inv => pieceLines (dst ++ cnt ++ inv)

/-- POISON for the issuing half at its next bundle boundary; once the task has ended, only the fault record (R285). -/
def raiseAsyncPoison (s : Chip) (i : Issuer) (va : W64) : Chip :=
  let rec_ := fun (s : Chip) => writeFaultRec s i.task
    { ends := false, nested := false, code := 0x0F, detail := 0, trapa := 0, traps := 0, trapx := 0, trapv := va
      host := (hostOf s i.task).1, die := i.die, core := i.core, hctx := (hostOf s i.task).2, ctx := i.ctx, rank := 0, nack := 0 }
  match s.ctx? i.die i.core i.ctx with
  | none => rec_ s
  | some c =>
    if c.task ≠ i.task then rec_ s
    else s.modHalf ⟨i.die, i.core, i.ctx, i.spare && c.spare.isSome⟩ fun h =>
      { h with poison := match h.poison with | some v => some v | none => some va }

/-- ASYNC_COMPLETION (R225): once its claims are written and its rows acknowledged, the scratchpad writes are there, the
remaining bytes count, and the flag is set when the instruction's last operation completes. -/
def asyncComplete (s : Chip) (id : Nat) : Chip :=
  match s.async? id with
  | none => s
  | some a =>
    if !a.claims.isEmpty ∨ !asyncTurn s a then s
    else
      let (a, s) := readSources s a
      if a.unacked ≠ 0 then s
      else
        let s := (a.out.getD []).foldl (fun s k => writeChunk s a k) s
        let s := s.modCore a.who.die a.who.core fun co => { co with l1 := (asyncLines a).foldl l1Invalidate co.l1 }
        let s := { s with asyncs := s.asyncs.filter fun (b : Async) => b.id != id }
        let s := settleLeft s a.who.die a.who.core
        let s := if a.bytes = 0 ∧ a.ecode = 0 then s else countBytes s a a.bytes a.ecode a.erow
        let s := match a.poison with | some v => raiseAsyncPoison s a.who v | none => s
        match a.sync with
        | .flag n => if s.asyncs.any fun (b : Async) => b.group == a.group then s
            else setFlag s a.who.die a.who.core a.who.ctx a.who.task n
        | .barrier _ => s

/-- A row's answer from a peer: acknowledged, or refused with a NACK code (R226, 02 R46). -/
def asyncAck (s : Chip) (id row nack : Nat) (flags : Flags) (len : Nat) : Chip :=
  match s.async? id with
  | none => s
  | some a =>
    let s := s.modLaunch (taskSlot a.who.task) fun l =>
      { l with nacks := l.nacks + (if nack = 0 then 0 else 1), fstat := l.fstat ||| flags }
    let s := s.modAsync id fun a => { a with unacked := a.unacked - 1, bytes := a.bytes - len }
    countBytes s a len nack (if nack = 0 then 0 else row)

/-- Issue the operations of an instruction: they are numbered, their claims are registered, and those with rows for peers
read their sources (R221, R400). With no operation the instruction is complete at once. -/
def startAsync (s : Chip) (w : HalfId) (task : Nat) (sy : Sync) (ops : List Async) : Chip :=
  match ops with
  | [] => match sy with
    | .flag n => setFlag s w.die w.core w.ctx task n
    | .barrier _ => s
  | _ =>
    let seq := (s.coreOf w).seq
    let group := s.nextAsync
    let s := s.modCore w.die w.core fun co => { co with seq := co.seq + 1 }
    let (s, mine) := ops.foldl (fun (st : Chip × List Async) (a : Async) =>
      let a := { a with id := st.1.nextAsync, group := group, seq := seq }
      ({ st.1 with asyncs := st.1.asyncs ++ [a], nextAsync := st.1.nextAsync + 1 }, st.2 ++ [a])) (s, [])
    mine.foldl (fun s (a : Async) => if a.sent then s else (readSources s a).2) s

/-- KILL stops an operation after its current line: its claims are released, and what it has not written stays (11 R292). -/
def stopAsyncs (s : Chip) (slot : Nat) : Chip :=
  { s with asyncs := s.asyncs.map fun (a : Async) =>
      (if taskSlot a.who.task = slot then { a with claims := [], out := some [], sent := true, bar := none } else a) }

end Sys2Proof.Machine
end

