-- ==== Sys2Proof/Machine/Placement.lean ====
section
/-! DEFINITION. Placement tables, meshes, conversions, TLDP and TSTP, and the service of pulls (09 R229 to R247, 16 R401 to
R403, 17 R430). -/

namespace Sys2Proof.Machine
open Sys2Proof.Irnov

/-! ## Entries (R232 to R234) -/

/-- A placement-table entry by fields (R233). -/
structure PEnt where
  v : Bool
  busy : Bool
  st : Nat → Nat
  gen : Nat
  vbase : Nat
  mbuf : Nat
  lstride : Nat
  dim : Nat → Nat
  tlog : Nat
  elem : Nat
  ndim : Nat
  rbase : Nat
  mdies : Nat

def placeKey (asid e : Nat) : Nat := asid % 4096 * 256 + e % 256

def Chip.placeWords (s : Chip) (d asid e : Nat) : Vector W64 8 :=
  (s.die d).place.getD (placeKey asid e) (Vector.replicate 8 0)

def Chip.setPlaceWords (s : Chip) (d asid e : Nat) (w : Vector W64 8) : Chip :=
  s.modDie d fun y => { y with place := y.place.put (placeKey asid e) w }

def pEnt (w : Vector W64 8) : PEnt :=
  let f := fun (k lo len : Nat) => w64Get (w.getD k 0) lo len
  { v := f 0 63 1 == 1, busy := f 0 62 1 == 1, st := fun a => f 0 (32 + 4 * a) 4, gen := f 0 0 32, vbase := f 1 0 64
    mbuf := f 2 0 64, lstride := f 3 0 64
    dim := fun d => match d with | 0 => f 4 32 32 | 1 => f 4 0 32 | 2 => f 5 32 32 | _ => f 5 0 32
    tlog := f 6 12 4, elem := f 6 8 4, ndim := f 6 0 3, rbase := f 7 8 12, mdies := f 7 0 8 }

def Chip.pent (s : Chip) (d asid e : Nat) : PEnt := pEnt (s.placeWords d asid e)

/-- Fields that PLSET and PLACE write: all but BUSY and the reserved bits (R232, 17 R430). -/
def placeMasks : List W64 :=
  [0x80000FFFFFFFFFFF, 0xFFFFFFFFFFFFFFFF, 0xFFFFFFFFFFFFFFFF, 0xFFFFFFFFFFFFFFFF, 0xFFFFFFFFFFFFFFFF,
   0xFFFFFFFFFFFFFFFF, 0xFF07, 0xFFFFF]

/-- An image written into an entry. -/
def writeImage (s : Chip) (d asid e : Nat) (image : List Byte) : Chip :=
  let old := s.placeWords d asid e
  s.setPlaceWords d asid e (Vector.ofFn fun (k : Fin 8) =>
    let x := BitVec.ofNat 64 (leNat ((image.drop (8 * k.val)).take 8)) &&& placeMasks.getD k.val 0
    if k.val = 0 then x ||| (old.getD 0 0 &&& 0x4000000000000000) else x)

/-- The image of an entry (17 R430). -/
def entryImage (s : Chip) (d asid e : Nat) : List Byte := (s.placeWords d asid e).toList.flatMap fun x => leBytes 8 x.toNat

/-- Change bits of word 0 of an entry. -/
def setPlaceBits (s : Chip) (d asid e lo len v : Nat) : Chip :=
  let w := s.placeWords d asid e
  s.setPlaceWords d asid e (w.setIfInBounds 0 (w64Put (w.getD 0 0) lo len v))

/-! ## The mesh (R229 to R231) -/

structure Mesh where
  rbase : Nat
  mdies : Nat
  la : Nat → Nat

def meshOf (m : W64) : Mesh :=
  { rbase := w64Get m 52 12, mdies := w64Get m 44 8
    la := fun a => match a with | 0 => w64Get m 28 4 | 1 => w64Get m 32 4 | _ => w64Get m 36 4 }

/-- c of R230. -/
def Mesh.c (m : Mesh) : Nat := if m.mdies = 0 then 1 else popcount 8 m.mdies
def Mesh.total (m : Mesh) : Nat := m.la 0 + m.la 1 + m.la 2

/-- member_index of R230. -/
def Mesh.index (m : Mesh) (rank die : Nat) : Int :=
  ((rank : Int) - m.rbase) * m.c + popcount die m.mdies

/-- coord of R230. -/
def Mesh.coord (m : Mesh) (n a : Nat) : Nat :=
  match a with
  | 0 => n % 2 ^ m.la 0
  | 1 => n / 2 ^ m.la 0 % 2 ^ m.la 1
  | _ => n / 2 ^ (m.la 0 + m.la 1)

/-- Member x of axis a from member n. -/
def Mesh.member (m : Mesh) (n a x : Nat) : Nat :=
  let sh := match a with | 0 => 0 | 1 => m.la 0 | _ => m.la 0 + m.la 1
  n - m.coord n a * 2 ^ sh + x * 2 ^ sh

/-- The die of member n, on the issuing die when MDIES is 0. -/
def Mesh.dieOf (m : Mesh) (issuing n : Nat) : Nat := if m.mdies = 0 then issuing else setBit m.mdies 8 (n % m.c)

/-- R231. -/
def Mesh.bad (m : Mesh) (f : PEnt) (rank die : Nat) : Bool :=
  let n := m.index rank die
  !([1, 2, 4, 8].contains m.c) || decide (2 ^ m.total < m.c) || decide (m.total > 9) || decide (2 ^ m.total / m.c > 64) ||
    decide (m.rbase + 2 ^ m.total / m.c > 4096) || (m.mdies != 0 && !m.mdies.testBit die) ||
    decide (n < 0) || decide (n ≥ (2 ^ m.total : Nat)) || f.mdies != m.mdies || f.rbase != m.rbase

/-! ## Local forms (R235, R236) -/

/-- The extent of dimension d under states st: none when it does not divide. -/
def extent (f : PEnt) (m : Mesh) (st : Nat → Nat) (d : Nat) : Option Nat :=
  let p := ((List.range 3).filter fun a => st a == 4 + d).foldl (fun p a => p * 2 ^ m.la a) 1
  if f.dim d % p = 0 then some (f.dim d / p) else none

/-- slice_index of R235. -/
def sliceIndex (m : Mesh) (st : Nat → Nat) (n d : Nat) : Nat :=
  ((List.range 3).filter fun a => st a == 4 + d).foldl (fun s a => s * 2 ^ m.la a + m.coord n a) 0

/-- Bytes of an element of a format code. -/
def elemBytes (code : Nat) : Nat := match tyOf code with | some t => tyWidth t / 8 | none => 0

def extents (f : PEnt) (m : Mesh) (st : Nat → Nat) : List Nat := (List.range f.ndim).map fun d => (extent f m st d).getD 0

/-- Elements of the local form. -/
def localCount (es : List Nat) : Nat := es.foldl (· * ·) 1

def codeOk (f : PEnt) (c : Nat) : Bool :=
  c == 0 || c == 8 || c == 12 || c == 13 || (decide (4 ≤ c) && decide (c < 8) && decide (c - 4 < f.ndim))

/-- The entry checks of R236 but the last, before and after. -/
def entryBad (f : PEnt) (m : Mesh) (st st2 : Nat → Nat) : Bool :=
  let dims := List.range f.ndim
  let tb := 2 ^ f.tlog
  !f.v || decide (f.elem ≥ 0xE) || f.ndim == 0 || decide (f.ndim > 4) || dims.any (fun d => f.dim d == 0) ||
    (List.range 3).any (fun a => !codeOk f (st a) || !codeOk f (st2 a)) ||
    dims.any (fun d => (extent f m st d).isNone || (extent f m st2 d).isNone) ||
    decide (elemBytes f.elem * localCount (extents f m st) > f.lstride) ||
    decide (elemBytes f.elem * localCount (extents f m st2) > f.lstride) ||
    decide (f.tlog < 7) || decide (f.tlog > 13) || f.vbase % tb != 0 || f.mbuf % tb != 0 || f.lstride % tb != 0

/-- The indices of flat element k in row-major order under extents. -/
def unflat (es : List Nat) (k : Nat) : List Nat :=
  (es.foldr (fun e (st : List Nat × Nat) => (st.2 % e :: st.1, st.2 / e)) ([], k)).1

/-- The offset of a global index in member n's local form; none where the member does not hold it. -/
def localAt (m : Mesh) (st : Nat → Nat) (es : List Nat) (n : Nat) (gi : List Nat) : Option Nat :=
  ((List.range es.length).foldl (fun (o : Option Nat) d => o.bind fun o =>
    let lo := sliceIndex m st n d * es.getD d 0
    let x := gi.getD d 0
    if lo ≤ x ∧ x < lo + es.getD d 0 then some (o * es.getD d 0 + (x - lo)) else none) (some 0))

def isPart (c : Nat) : Bool := c == 12 || c == 13
def isShard (c : Nat) : Bool := decide (4 ≤ c) && decide (c < 8)

/-- R237: for each element of the new local form, the members of the axis that give it with their offsets, in ascending
coordinate; an empty list is the identity. -/
def convPlan (f : PEnt) (m : Mesh) (st st2 : Nat → Nat) (a n : Nat) : List (List (Nat × Nat)) :=
  let e1 := extents f m st
  let e2 := extents f m st2
  let ys := (List.range (2 ^ m.la a)).map (m.member n a)
  (List.range (localCount e2)).map fun k =>
    let ix := unflat e2 k
    let gi := (List.range e2.length).map fun d => sliceIndex m st2 n d * e2.getD d 0 + ix.getD d 0
    let all := ys.filterMap fun y => (localAt m st e1 y gi).map fun o => (y, o)
    if isPart (st a) then all
    else if st a = 8 then
      (if isPart (st2 a) ∧ m.coord n a ≠ 0 then [] else all.filter (·.1 == n))
    else if isPart (st2 a) then all.filter (·.1 == n)
    else all.take 1

/-- Contiguous byte runs of ascending element offsets. -/
def runsOf (es : Nat) (offs : List Nat) : List (Nat × Nat) :=
  (offs.foldl (fun (acc : List (Nat × Nat)) o => match acc with
    | (lo, hi) :: t => if hi = o * es then (lo, o * es + es) :: t
        else (o * es, o * es + es) :: acc
    | [] => [(o * es, o * es + es)]) []).reverse

/-- The runs that a plan reads of member y. -/
def readRuns (es : Nat) (plan : List (List (Nat × Nat))) (y : Nat) : List (Nat × Nat) :=
  runsOf es (sortBy id (plan.flatMap fun l => (l.filter (·.1 == y)).map (·.2)))

/-- The identity of an operator for a format (R237). -/
def convIdentity (elem op : Nat) : Nat :=
  if op ≠ 13 then 0 else match elem with | 9 => 0xFF800000 | 10 => 0xFC00 | 11 => 0xFF80 | _ => 0x80000000

/-- ELEM allowed for PART (R237): .f32, .f16, .bf16, .si32. -/
def partElem (e : Nat) : Bool := e == 9 || e == 10 || e == 11 || e == 6

/-- reduce of R238 on encodings, with flags (10 R453). -/
def reducePartials (op elem : Nat) (vals : List Nat) : Nat × Flags :=
  let f : FFmt := match elem with | 10 => .f16 | 11 => .bf16 | _ => .f32
  match vals with
  | [] => (0, 0)
  | v :: rest =>
    if elem = 6 then
      (rest.foldl (fun acc x => if op = 12 then (acc + x) % 2 ^ 32
        else if bitsToInt true 32 acc ≤ bitsToInt true 32 x then x else acc) v, 0)
    else
      let wide := fun x => if f = .f32 then x else (fConv f .f32 .rne false 0 x).1
      let inv : Flags := if f ≠ .f32 ∧ vals.any (fun x => (fDecode f x).isSnan) then .inv else 0
      let (acc, g) := rest.foldl (fun (st : Nat × Flags) x =>
        let (r, g) := if op = 12 then addRne32 st.1 (wide x) else maxTotal .f32 st.1 (wide x)
        (r, st.2 ||| g)) (wide v, inv)
      if f = .f32 then (acc, g) else let (r, g2) := fConv .f32 f .rne false 0 acc; (r, g ||| g2)

/-! ## Series -/

def Chip.series? (s : Chip) (d id : Nat) : Option SeriesItem :=
  List.find? (fun (i : SeriesItem) => i.id == id) (s.die d).series

/-- No earlier change of the same entry is still to be made (R244). -/
def seriesHead (s : Chip) (d : Nat) (it : SeriesItem) : Bool :=
  match List.find? (fun (i : SeriesItem) => i.asid == it.asid && i.entry == it.entry) (s.die d).series with
  | some i => i.id == it.id
  | none => false

def dropSeries (s : Chip) (d id : Nat) : Chip :=
  s.modDie d fun y => { y with series := y.series.filter fun (i : SeriesItem) => i.id != id }

def modSeries (s : Chip) (d id : Nat) (f : SeriesItem → SeriesItem) : Chip :=
  s.modDie d fun y => { y with series := y.series.map fun (i : SeriesItem) => if i.id = id then f i else i }

/-- A change joins the series of its entry on a die. -/
def joinSeries (s : Chip) (d : Nat) (it : SeriesItem) : Chip :=
  { s.modDie d fun y => { y with series := y.series ++ [{ it with id := s.nextSeries }] } with nextSeries := s.nextSeries + 1 }

def newItem (asid entry : Nat) (who : Issuer) (op : SeriesOp) (bar : Option Nat) : SeriesItem :=
  { id := 0, asid := asid % 4096, entry := entry % 256, who := who, op := op, axis := none, gen := 0, dst := [], reads := []
    result := none, parts := [], pulls := 0, status := 0, nack := 0, rank := 0, claims := [], claimAt := 0, bar := bar, old := [] }

def SeriesItem.isTldp (i : SeriesItem) : Bool := match i.op with | .tldp .. => true | _ => false

/-- Whether a step of a conversion of the entry is in progress on a die (R240). -/
def stepRuns (s : Chip) (d asid entry : Nat) : Bool :=
  (s.die d).series.any fun (i : SeriesItem) => i.asid == asid % 4096 && i.entry == entry % 256 && i.axis.isSome && i.isTldp

/-- A TLDP whose conversion has begun (R239): it is at the head of its entry's series, and the entry is BUSY. -/
def converting (s : Chip) (d : Nat) (i : SeriesItem) : Bool :=
  i.isTldp && seriesHead s d i && (s.pent d i.asid i.entry).busy

/-- Conversions that a die runs, and TLDPs that wait there for theirs (R244). -/
def running (s : Chip) (d : Nat) : Nat := ((s.die d).series.filter (converting s d)).length
def queued (s : Chip) (d : Nat) : Nat := ((s.die d).series.filter fun i => i.isTldp && !converting s d i).length

/-- The queue of 64 conversions of a die has no place for a TLDP (R244). -/
def seriesFull (s : Chip) (d : Nat) (i : SeriesItem) : Bool := i.isTldp && decide (64 ≤ queued s d)

/-- Bytes of the tiles that an item moves. -/
def SeriesItem.tileBytes (i : SeriesItem) : Nat :=
  match i.op with
  | .tldp _ _ _ _ ts | .tstp _ _ _ _ ts => ts.foldl (fun n (t : PTile) => n + t.rows * t.len) 0
  | _ => 0

/-- Bytes and an error counted on the barrier of a TLDP or TSTP (17 R426). -/
def countSeries (s : Chip) (i : SeriesItem) (ecode : Nat) : Chip :=
  match i.bar, i.op with
  | some _, .tldp b _ _ _ _ | some _, .tstp b _ _ _ _ =>
    if i.tileBytes = 0 ∧ ecode = 0 then s
    else changeBar s i.who.die i.who.core i.who.task b fun x => x.transfer i.tileBytes ecode 0
  | _, _ => s

/-- The fault record of a failing conversion (R245, 11 R294). -/
def convRecord (s : Chip) (i : SeriesItem) (status nack rank : Nat) : Chip :=
  writeFaultRec s i.who.task
    { ends := false, nested := false, code := 0x10, detail := status, trapa := 0, traps := 0, trapx := 0
      trapv := BitVec.ofNat 64 i.entry, host := (hostOf s i.who.task).1, die := i.who.die, core := i.who.core
      hctx := (hostOf s i.who.task).2, ctx := i.who.ctx
      rank := rank, nack := nack }

/-- A change has left its series: its claims are released, and what waited for it goes on (08 R222, 11 R292). -/
def endItem (s : Chip) (d : Nat) (i : SeriesItem) : Chip := settleLeft (settleHeld (dropSeries s d i.id)) i.who.die i.who.core

/-- A TLDP ends with a status: BUSY clears, its bytes count with an error code, and a record is made of a failure (R245, R402). -/
def endTldpWith (s : Chip) (d : Nat) (i : SeriesItem) (status nack rank ecode : Nat) : Chip :=
  let s := setPlaceBits s d i.asid i.entry 62 1 0
  let s := if status = 0 then s else convRecord s i status nack rank
  countSeries (endItem s d i) i ecode

def endTldp (s : Chip) (d : Nat) (i : SeriesItem) (status nack rank : Nat) : Chip :=
  endTldpWith s d i status nack rank (if status = 0 then 0 else 0x80 + status)

/-- One more page of a range of a change: through the translations that a TLBINV found before it, or those of its die (07 R201). -/
def xlItemPiece (d : Nat) (i : SeriesItem) (a : Acc) (r : Nat) (st : Except (Bool × Nat) (List (Nat × Nat × Option Nat)) × Chip)
    (pc : Nat × Nat) : Except (Bool × Nat) (List (Nat × Nat × Option Nat)) × Chip :=
  match st with
  | (.error x, s) => (.error x, s)
  | (.ok ps, s) =>
    match tlbFind i.old i.asid pc.1 with
    | some e =>
      match e.phys pc.1 with
      | none => (.error (false, pc.1), s)
      | some p => if (permFail e.pte a).isSome then (.error (true, pc.1), s) else (.ok (ps ++ [(p, pc.2, cpInsert (pteCp e.pte) r)]), s)
    | none =>
      match xlAgent s d i.asid pc.1 a with
      | (.error b, s) => (.error (b, pc.1), s)
      | (.ok p, s) => (.ok (ps ++ [(p, pc.2, agentInsert s d i.asid pc.1 r)]), s)

/-- Translate a virtual range for a change of a series: P, length, and where the L2 takes the lines. -/
def xlItem (s : Chip) (d : Nat) (i : SeriesItem) (va n : Nat) (a : Acc) (r : Nat) :
    Except (Bool × Nat) (List (Nat × Nat × Option Nat)) × Chip :=
  (piecesOf va n).foldl (xlItemPiece d i a r) (.ok [], s)

/-- The lines of translated pieces. -/
def dstLines (ps : List (Nat × Nat × Option Nat)) : List Nat := (ps.flatMap fun p => linesOf p.1 p.2.1).eraseDups

/-- The L2 once an engine has read translated pieces. -/
def touchDst (s : Chip) (ps : List (Nat × Nat × Option Nat)) : Chip :=
  ps.foldl (fun (s : Chip) p => (linesOf p.1 p.2.1).foldl (fun s l => s.l2Access (128 * l) p.2.2) s) s

/-- What bytes laid over pieces put into a line. -/
def dstLine (ps : List (Nat × Nat × Option Nat)) (bs : List Byte) (line : Nat) : List (Nat × List Byte × Option Nat) :=
  (ps.foldl (fun (acc : List (Nat × List Byte × Option Nat) × List Byte) p =>
    let lo := max p.1 (128 * line)
    let hi := min (p.1 + p.2.1) (128 * line + 128)
    (if lo < hi then acc.1 ++ [(lo, (acc.2.drop (lo - p.1)).take (hi - lo), p.2.2)] else acc.1, acc.2.drop p.2.1)) ([], bs)).1

/-- Member n's buffer of generation g (R235). -/
def bufferOf (f : PEnt) (g : Nat) (n : Int) : Nat :=
  ((((if g % 2 = 0 then f.vbase else f.mbuf : Nat) : Int) + n * f.lstride) % (2 ^ 64 : Int)).toNat

/-! ## A step of a conversion (R239) -/

/-- The issuing launch has been killed (R246). -/
def seriesKilled (s : Chip) (i : SeriesItem) : Bool :=
  match s.launches.find? (taskSlot i.who.task) with
  | some l => l.killed
  | none => true

/-- The start of a step on axis a: the checks in their order, the relabel of an axis of one member, or the claims. BUSY is set for
the whole conversion. -/
def stepStart (s : Chip) (d : Nat) (i : SeriesItem) (m : Mesh) (demand a : Nat) : Chip :=
  let f := s.pent d i.asid i.entry
  let want := demand / 2 ^ (4 * a) % 16
  let st2 := fun b => if b = a then want else f.st b
  let fail := fun status => endTldp s d i status 0 0
  let es := elemBytes f.elem
  if m.bad f s.rank d then fail 6
  else if entryBad f m f.st st2 then fail 5
  else
    let one := m.la a = 0
    let badElem := (isPart (f.st a) || isPart want) && !partElem f.elem
    if f.st a = 0 ∨ (!one ∧ isPart (f.st a) ∧ isPart want) then fail 4
    else if one then
      (if badElem then fail 4
       else setPlaceBits (setPlaceBits s d i.asid i.entry 62 1 1) d i.asid i.entry (32 + 4 * a) 4 want)
    else
      let n := (m.index s.rank d).toNat
      let plan := convPlan f m f.st st2 a n
      let tb := 2 ^ f.tlog
      let ys := (List.range (2 ^ m.la a)).map (m.member n a)
      let b2 := es * localCount (extents f m st2)
      let dst := bufferOf f (f.gen + 1) n
      if b2 % tb ≠ 0 ∨ ys.any (fun y => (readRuns es plan y).any fun r => r.1 % tb != 0 || (r.2 - r.1) % tb != 0) then fail 5
      else if badElem then fail 4
      else if rangeWalkHeld s d i.asid dst b2 then s
      else match xlItem s d i dst b2 .store 1 with
        | (.error _, s) => endTldp s d i 1 0 0
        | (.ok ps, s) =>
          let s := setPlaceBits s d i.asid i.entry 62 1 1
          { modSeries s d i.id fun i => { i with axis := some a, gen := f.gen, dst := ps, parts := [], pulls := 0, status := 0,
                                                 reads := [], result := none, claims := dstLines ps, claimAt := s.nextAsync } with
            nextAsync := s.nextAsync + 1 }

/-- The runs of local bytes of a member, translated: the pieces of each; the error is a status of R245. -/
def runPieces (s : Chip) (d : Nat) (i : SeriesItem) (base : Nat) (runs : List (Nat × Nat)) :
    Except Nat (List ((Nat × Nat) × List (Nat × Nat × Option Nat))) × Chip :=
  runs.foldl (fun (st : Except Nat (List ((Nat × Nat) × List (Nat × Nat × Option Nat))) × Chip) r =>
    match st with
    | (.error x, s) => (.error x, s)
    | (.ok xs, s) =>
      match xlItem s d i ((base + r.1) % 2 ^ 64) (r.2 - r.1) .load 2 with
      | (.error _, s) => (.error 1, s)
      | (.ok ps, s) => (.ok (xs ++ [(r, ps)]), s)) (.ok [], s)

/-- Local bytes of a member read in runs; the error is a status of R245. -/
def readMember (s : Chip) (d : Nat) (i : SeriesItem) (base size : Nat) (runs : List (Nat × Nat)) : Except Nat (List Byte) × Chip :=
  match runPieces s d i base runs with
  | (.error x, s) => (.error x, s)
  | (.ok xs, s) =>
    if (xs.flatMap (·.2)).any fun p => (s.poisoned p.1 p.2.1).isSome then (.error 2, s)
    else
      (.ok (xs.foldl (fun (bs : List Byte) x =>
          bs.take x.1.1 ++ rdPieces s (x.2.map fun p => (p.1, p.2.1)) ++ bs.drop x.1.2) (List.replicate size 0)),
        touchDst s (xs.flatMap (·.2)))

/-- What the serving die's entry decides (R240): served, held, or refused. -/
inductive Serve where
  | ok | held | refused
deriving DecidableEq, Repr

/-- Generation g asked of die d's entry, compared modulo 2^bits. -/
def serveGen (s : Chip) (d asid entry g bits : Nat) : Serve :=
  let gg := (s.pent d asid entry).gen
  let diff := (g + 2 ^ 32 - gg) % 2 ^ bits
  if diff = 0 then .ok
  else if diff = 1 ∧ stepRuns s d asid entry then .held
  else if diff = 2 ^ bits - 1 ∧ !stepRuns s d asid entry then .ok
  else .refused

/-- The place of a tile of a member's local form in a pull's answer. -/
def pullRow (y off : Nat) : Nat := y * 2 ^ 64 + off

/-- A step in progress on axis a: its entry, this member, the plan, and each member of the axis that gives data with its runs. -/
structure StepCtx where
  f : PEnt
  n : Nat
  plan : List (List (Nat × Nat))
  size : Nat
  ys : List (Nat × List (Nat × Nat))

def stepCtx (s : Chip) (d : Nat) (i : SeriesItem) (m : Mesh) (demand a : Nat) : StepCtx :=
  let f := s.pent d i.asid i.entry
  let st2 := fun b => if b = a then demand / 2 ^ (4 * a) % 16 else f.st b
  let n := (m.index s.rank d).toNat
  let plan := convPlan f m f.st st2 a n
  let es := elemBytes f.elem
  { f := f, n := n, plan := plan, size := es * localCount (extents f m f.st)
    ys := (((List.range (2 ^ m.la a)).map (m.member n a)).map fun y => (y, readRuns es plan y)).filter fun y => !y.2.isEmpty }

/-- The rank of a member. -/
def Mesh.rankOf (m : Mesh) (y : Nat) : Nat := m.rbase + y / m.c

/-- The first thing after a step's claims: one PLPULL for each tile of a member in another package (R240). -/
def stepPulls (s : Chip) (d : Nat) (i : SeriesItem) (m : Mesh) (k : StepCtx) : Chip :=
  let away := k.ys.filter fun y => m.rankOf y.1 != s.rank
  let tb := 2 ^ k.f.tlog
  let msgs : List OutMsg := away.flatMap fun y => y.2.flatMap fun r => (List.range ((r.2 - r.1) / tb)).map fun j =>
    { mtype := 8, rank := m.rankOf y.1, stream := some (i.who.ctx % 16), ord := false,
      tspec := i.entry + m.dieOf d y.1 * 2 ^ 8 + i.gen % 2 ^ 21 * 2 ^ 11,
      addr := BitVec.ofNat 64 (bufferOf k.f i.gen y.1 + r.1 + j * tb), payload := [], conv := true, opId := i.id,
      row := pullRow y.1 (r.1 + j * tb) }
  let blank := away.map fun y => (y.1, List.replicate k.size (0 : Byte))
  let s := modSeries s d i.id fun i => { i with parts := (k.n, []) :: blank, pulls := msgs.length }
  { s with outbox := s.outbox ++ msgs }

/-- The lowest member in the part that the step has still to read. -/
def nextMember (s : Chip) (i : SeriesItem) (m : Mesh) (k : StepCtx) : Option (Nat × List (Nat × Nat)) :=
  k.ys.find? fun y => m.rankOf y.1 == s.rank && !(i.parts.any fun p => p.1 == y.1 && !p.2.isEmpty)

/-- A member in the part: what its die decides (R240); then read claims on every line of its runs (R241). -/
def memberClaim (s : Chip) (d : Nat) (i : SeriesItem) (m : Mesh) (k : StepCtx) (y : Nat × List (Nat × Nat)) : Chip :=
  match (if y.1 = k.n then Serve.ok else serveGen s (m.dieOf d y.1) i.asid i.entry i.gen 32) with
  | .refused => endTldp s d i 3 0x0A s.rank
  | .held => s
  | .ok =>
    let base := bufferOf k.f i.gen y.1
    if y.2.any fun r => rangeWalkHeld s d i.asid ((base + r.1) % 2 ^ 64) (r.2 - r.1) then s
    else match runPieces s d i base y.2 with
      | (.error x, s) => endTldp s d i x 0 0
      | (.ok xs, s) => modSeries s d i.id fun i => { i with reads := dstLines (xs.flatMap (·.2)) }

/-- The reads of the member, each of which releases the line's read claim (R241). -/
def memberRead (s : Chip) (d : Nat) (i : SeriesItem) (k : StepCtx) (y : Nat × List (Nat × Nat)) : Chip :=
  match readMember s d i (bufferOf k.f i.gen y.1) k.size y.2 with
  | (.error x, s) => endTldp s d i x 0 0
  | (.ok bs, s) => settleHeld (modSeries s d i.id fun i => { i with reads := [], parts := i.parts ++ [(y.1, bs)] })

/-- Whether a line that an item claims may be written: its claim is granted, every claim that arrived earlier has been written, and no
read claim is on it (R222). -/
def seriesFree (s : Chip) (i : SeriesItem) (line : Nat) : Bool :=
  s.granted line && !s.readClaimed line &&
  !(s.asyncs.any fun (a : Async) => decide (a.id < i.claimAt) && a.claims.contains line) &&
  !((List.range Config.dies).any fun d => (s.die d).series.any fun (j : SeriesItem) =>
      j.claims.contains line && decide (j.claimAt < i.claimAt))

/-- An item's bytes of one line performed, and its claim released (R222). -/
def writeItemLine (d : Nat) (i : SeriesItem) (bs : List Byte) (s : Chip) (line : Nat) : Chip :=
  let s := (dstLine i.dst bs line).foldl (fun (s : Chip) x => (s.l2Access x.1 x.2.2).wrMem x.1 x.2.1) s
  modSeries s d i.id fun i => { i with claims := i.claims.filter (· != line) }

/-- The lines of an item that may be written are written, each on its own. -/
def writeItem (s : Chip) (d : Nat) (i : SeriesItem) (bs : List Byte) : Chip :=
  settleHeld ((i.claims.filter (seriesFree s i)).foldl (writeItemLine d i bs)
    (modSeries s d i.id fun i => { i with result := some bs }))

/-- The bytes of the new local form (R237, R238), and flags. A place that no member of the axis holds takes a free value
(log 34). -/
def stepResult (s : Chip) (f : PEnt) (i : SeriesItem) (plan : List (List (Nat × Nat))) (old want : Nat) :
    List Byte × Flags × Chip :=
  let es := elemBytes f.elem
  let op := if isPart old then old else want
  let val := fun (yo : Nat × Nat) =>
    match List.find? (fun (p : Nat × List Byte) => p.1 == yo.1 && !p.2.isEmpty) i.parts with
    | some p => leNat ((p.2.drop (es * yo.2)).take es)
    | none => 0
  plan.foldl (fun (st : List Byte × Flags × Chip) l =>
    match l with
    | [] =>
      if isPart want ∧ !isPart old then (st.1 ++ leBytes es (convIdentity f.elem op), st.2)
      else (st.1 ++ leBytes es (Config.freeWord st.2.2.fresh).toNat, st.2.1, { st.2.2 with fresh := st.2.2.fresh + 1 })
    | l =>
      if isPart old then
        let (r, g) := reducePartials op f.elem (l.map val)
        (st.1 ++ leBytes es r, st.2.1 ||| g, st.2.2)
      else (st.1 ++ leBytes es (val (l.headD (0, 0))), st.2)) ([], 0, s)

/-- The writes of a step: its bytes are computed once, and its lines written as they become free. -/
def stepWrite (s : Chip) (d : Nat) (i : SeriesItem) (k : StepCtx) (demand a : Nat) : Chip :=
  match i.result with
  | some bs => writeItem s d i bs
  | none =>
    let (bs, g, s) := stepResult s k.f i k.plan (k.f.st a) (demand / 2 ^ (4 * a) % 16)
    writeItem (s.modLaunch (taskSlot i.who.task) fun l => { l with fstat := l.fstat ||| g }) d i bs

/-- The end of a step: ST and GEN change together (R239). -/
def stepEnd (s : Chip) (d : Nat) (i : SeriesItem) (demand a : Nat) : Chip :=
  let g := (s.pent d i.asid i.entry).gen
  let s := setPlaceBits (setPlaceBits s d i.asid i.entry (32 + 4 * a) 4 (demand / 2 ^ (4 * a) % 16)) d i.asid i.entry 0 32 (g + 1)
  modSeries s d i.id fun i => { i with axis := none, parts := [], dst := [], result := none }

/-- One thing more of a step in progress (R239). KILL aborts it at the end of the tile being read or written (R246). -/
def stepOn (s : Chip) (d : Nat) (i : SeriesItem) (m : Mesh) (demand a : Nat) : Chip :=
  let k := stepCtx s d i m demand a
  if seriesKilled s i then endTldp s d i 7 0 0
  else if i.parts.isEmpty then stepPulls s d i m k
  else if i.result.isSome ∧ i.claims.isEmpty then stepEnd s d i demand a
  else match (if i.result.isSome then none else nextMember s i m k) with
    | some y => if i.reads.isEmpty then memberClaim s d i m k y else memberRead s d i k y
    | none =>
      if i.pulls ≠ 0 then s
      else if i.status ≠ 0 then endTldp s d i i.status i.nack i.rank
      else stepWrite s d i k demand a

/-! ## Tiles (R402, R403) -/

/-- Rows of an item's tiles: scratchpad address, offset in the member's buffer, length. -/
def tileRows (f : PEnt) (ts : List PTile) : List (Nat × Nat × Nat) :=
  ts.flatMap fun (t : PTile) => (List.range t.rows).map fun r => (t.sp + t.spPitch * r, t.toff * 2 ^ f.tlog + t.gPitch * r, t.len)

/-- The load of TLDP's tiles row by row; it stops at the first row that fails (R402). A poisoned granule read before is reported as
well (11 R285). -/
def loadTiles (s : Chip) (d : Nat) (i : SeriesItem) (m : Mesh) (ts : List PTile) : Chip :=
  let f := s.pent d i.asid i.entry
  let buf := bufferOf f f.gen (m.index s.rank d)
  let (status, pois, lines, s) := (tileRows f ts).foldl (fun (st : Nat × Option W64 × List Nat × Chip) r =>
    let (status, pois, lines, s) := st
    if status ≠ 0 then st
    else if r.2.1 + r.2.2 > f.lstride then (5, pois, lines, s)
    else match xlItem s d i ((buf + r.2.1) % 2 ^ 64) r.2.2 .load 2 with
      | (.error _, s) => (1, pois, lines, s)
      | (.ok ps, s) =>
        let base := BitVec.ofNat 64 (buf + r.2.1)
        let pieces := (ps.foldl (fun (acc : List Piece × Nat) p =>
          (acc.1 ++ [(⟨true, p.1, p.2.1, base + BitVec.ofNat 64 acc.2, 0, p.2.2⟩ : Piece)], acc.2 + p.2.1)) ([], 0)).1
        let bs := readPiecesP s (s.core i.who.die i.who.core) 0 pieces
        let s := touchDst s ps
        let ch := layBytes 0 [⟨false, r.1, r.2.2, 0, 0, none⟩] (goodBytes bs)
        let s := s.modCore i.who.die i.who.core fun co =>
          { co with scratch := ch.foldl (fun mm (k : Chunk) => mm.write 0 k.addr k.bytes) co.scratch }
        (0, (match pois with | some v => some v | none => firstPoison bs), lines ++ dstLines ps, s)) (0, none, [], s)
  let s := countReqs s i.who.die i.who.core lines.eraseDups
  match pois with
  | some v => raiseAsyncPoison (endTldpWith s d i status 0 0 0x90) i.who v
  | none => endTldp s d i status 0 0

/-- A walk for a tile's rows is held. -/
def tilesHeld (s : Chip) (d : Nat) (i : SeriesItem) (m : Mesh) (ts : List PTile) : Bool :=
  let f := s.pent d i.asid i.entry
  let buf := bufferOf f f.gen (m.index s.rank d)
  (tileRows f ts).any fun r => rangeWalkHeld s d i.asid ((buf + r.2.1) % 2 ^ 64) r.2.2

/-- TSTP at its turn: validity, then the rows that can be written are claimed (R403). -/
def tstpStart (s : Chip) (d : Nat) (i : SeriesItem) (m : Mesh) (declared : Nat) (bad : Bool) (ts : List PTile) : Chip :=
  let f := s.pent d i.asid i.entry
  let st2 := fun a => let x := declared / 2 ^ (4 * a) % 16; if x = 0 then f.st a else x
  if bad ∨ entryBad f m f.st st2 then countSeries (endItem s d i) i 0x85
  else if tilesHeld s d i m ts then s
  else
    let buf := bufferOf f f.gen (m.index s.rank d)
    let (status, ps, s) := (tileRows f ts).foldl (fun (st : Nat × List (Nat × Nat × Option Nat) × Chip) r =>
      if st.1 ≠ 0 then st
      else if r.2.1 + r.2.2 > f.lstride then (5, st.2)
      else match xlItem st.2.2 d i ((buf + r.2.1) % 2 ^ 64) r.2.2 .store 1 with
        | (.error _, s) => (1, st.2.1, s)
        | (.ok p, s) => (0, st.2.1 ++ p, s)) (0, [], s)
    { modSeries s d i.id fun i => { i with axis := some 3, dst := ps, status := status, claims := dstLines ps
                                           claimAt := s.nextAsync } with
      nextAsync := s.nextAsync + 1 }

/-- The end of a TSTP: as one change its states (R247). -/
def tstpEnd (s : Chip) (d : Nat) (i : SeriesItem) (declared : Nat) : Chip :=
  let lines := dstLines i.dst
  let s := countReqs s i.who.die i.who.core lines
  let s := s.modCore i.who.die i.who.core fun co => { co with l1 := lines.foldl l1Invalidate co.l1 }
  let s := if i.status ≠ 0 then s
    else (List.range 3).foldl (fun s a =>
      let x := declared / 2 ^ (4 * a) % 16
      if x = 0 then s else setPlaceBits s d i.asid i.entry (32 + 4 * a) 4 x) s
  countSeries (endItem s d i) i (if i.status = 0 then 0 else 0x80 + i.status)

/-- The writes of TSTP's rows, which are read once, and then its end. -/
def tstpWrite (s : Chip) (d : Nat) (i : SeriesItem) (declared : Nat) (ts : List PTile) : Chip :=
  if seriesKilled s i then countSeries (endItem s d i) i 0x87
  else match i.result with
    | some bs => if i.claims.isEmpty then tstpEnd s d i declared else writeItem s d i bs
    | none =>
      let co := s.core i.who.die i.who.core
      writeItem s d i ((tileRows (s.pent d i.asid i.entry) ts).flatMap fun r => co.scratch.read 0 r.1 r.2.2)

/-- The next axis that a TLDP has to convert. -/
def nextAxis (f : PEnt) (demand : Nat) : Option Nat :=
  (List.range 3).find? fun a => let x := demand / 2 ^ (4 * a) % 16; x != 0 && x != f.st a

/-- PLSET and PLGET at their turn; the answer goes to the half that is held for it, and a half that no longer waits has
suppressed the instruction. -/
def answerHeld (s : Chip) (i : SeriesItem) (a : Answer) : Chip :=
  s.modHalf ⟨i.who.die, i.who.core, i.who.ctx, i.who.spare⟩ fun h =>
    { h with hold := h.hold.map fun (x : Hold) => { x with answer := some a } }

def heldFor (s : Chip) (i : SeriesItem) : Bool :=
  match s.ctx? i.who.die i.who.core i.who.ctx with
  | none => false
  | some c => c.task == i.who.task && (match (c.half i.who.spare).hold with
    | some ⟨.plset .., none, _⟩ | some ⟨.plget .., none, _⟩ => true
    | _ => false)

/-- PLSET or PLGET of a die's series performs (17 R430). -/
def plainChange (s : Chip) (d : Nat) (i : SeriesItem) : Chip :=
  match i.op with
  | .plset image =>
    let s1 := dropSeries s d i.id
    if heldFor s i then answerHeld (writeImage s1 d i.asid i.entry image) i (.status 0 0) else s1
  | .plget p rrpv =>
    if (linesOf p 64).any s.storeHeld then s
    else
      let s1 := dropSeries s d i.id
      if heldFor s i then
        let s1 := (s1.l2Access p rrpv).wrMem p (entryImage s1 d i.asid i.entry)
        let s1 := s1.modCore i.who.die i.who.core fun co => { co with l1 := l1Invalidate co.l1 (lineOf p) }
        answerHeld s1 i (.status 0 0)
      else s1
  | .place _ _ image => writeImage (dropSeries s d i.id) d i.asid i.entry image
  | .tldp .. | .tstp .. => s

/-- CONVERSION_STEP: the next thing that a die's placement engine does for one change of a series. -/
def conversionStep (s : Chip) (d id : Nat) : Chip :=
  match s.series? d id with
  | none => s
  | some i =>
    if !seriesHead s d i then s
    else match i.op with
      | .plset _ | .plget .. | .place .. => plainChange s d i
      | .tldp _ demand mesh bad ts =>
        let m := meshOf mesh
        match i.axis with
        | some a => stepOn s d i m demand a
        | none =>
          if seriesKilled s i then endTldp s d i 7 0 0
          else if bad then endTldp s d i 5 0 0
          else match nextAxis (s.pent d i.asid i.entry) demand with
            | some a => if converting s d i || decide (running s d < 8) then stepStart s d i m demand a else s
            | none => if tilesHeld s d i m ts then s else loadTiles (setPlaceBits s d i.asid i.entry 62 1 0) d i m ts
      | .tstp _ declared mesh bad ts =>
        match i.axis with
        | none => tstpStart s d i (meshOf mesh) declared bad ts
        | some _ => tstpWrite s d i declared ts

/-! ## Answers to pulls, and pulls served -/

/-- The die and item of a conversion's number. -/
def findSeries (s : Chip) (id : Nat) : Option (Nat × SeriesItem) :=
  (List.range Config.dies).findSome? fun d => (s.series? d id).map fun i => (d, i)

/-- A pulled tile has come. -/
def pullReply (s : Chip) (id row : Nat) (bs : List Byte) : Chip :=
  match findSeries s id with
  | none => s
  | some (d, _) => modSeries s d id fun i =>
    { i with pulls := i.pulls - 1
             parts := i.parts.map fun (p : Nat × List Byte) =>
               if p.1 = row / 2 ^ 64 ∧ !p.2.isEmpty then
                 (p.1, p.2.take (row % 2 ^ 64) ++ bs ++ p.2.drop (row % 2 ^ 64 + bs.length)) else p }

/-- A pull has been refused with a NACK code by a rank (R245). -/
def pullNack (s : Chip) (id nack rank : Nat) : Chip :=
  match findSeries s id with
  | none => s
  | some (d, i) =>
    let s := s.modLaunch (taskSlot i.who.task) fun l => { l with nacks := l.nacks + 1 }
    modSeries s d id fun i => { i with pulls := i.pulls - 1
                                       status := if i.status = 0 then (if nack = 4 then 2 else 3) else i.status
                                       nack := if i.status = 0 then nack else i.nack
                                       rank := if i.status = 0 ∧ nack ≠ 4 then rank else i.rank }

/-- A PLPULL after the window checks (R240): held, refused with PLACE, or the tile's length to be read at its address. -/
def servePull (s : Chip) (die asid entry g addr : Nat) : Serve × Nat :=
  let f := s.pent die asid entry
  let tb := 2 ^ f.tlog
  let c := popcount 8 f.mdies
  let n := (s.rank - f.rbase) * c + popcount die f.mdies
  let inBuf := fun base =>
    let lo := (base + n * f.lstride) % 2 ^ 64
    decide (lo ≤ addr) && decide (addr + tb ≤ lo + f.lstride)
  if !f.v ∨ !f.mdies.testBit die ∨ s.rank < f.rbase ∨ addr % tb ≠ 0 ∨ !(inBuf f.vbase || inBuf f.mbuf) then (.refused, tb)
  else (serveGen s die asid entry g 21, tb)

/-! ## TLDP and TSTP at issue (R401) -/

def tilePlacePlan (s : Chip) (w : HalfId) (c : Ctx) (store : Bool) (b t hT hG : Nat) (a : Addr) : Except Cause DPlan × Chip :=
  let h := c.half w.spare
  let act := activeOf h
  let v := fun e => match a.base with
    | .scalar _ => scalarVa h a
    | .pair n => laneAddr c n a.disp (16 * e)
  let none_ := match a.base with | .pair _ => act.isEmpty | .scalar _ => false
  let v0 := (v (act.headD 0)).toNat
  let work := act.filter fun e => shRows (c.rdH e hT) != 0 && shK (c.rdH e hG) != 0
  let bad := work.findSome? fun e =>
    let rs := (List.range (shRows (c.rdH e hT))).map fun i =>
      (⟨!store, true, false, e, tileVa (h.rdT t) (c.rdH e hT) i, shK (c.rdH e hG)⟩ : RangeReq)
    rangeCause e (probeRanges s w c rs).2.1
  match bad with
  | some x => (.error x, s)
  | none =>
    if none_ then (.ok ⟨[], .nop⟩, s)
    else
      let tiles : List PTile := work.map fun e =>
        { engine := e, toff := (v e).toNat / 2 ^ 24, sp := e * Config.scratchBytes + tileRow c.spbase (h.rdT t) (c.rdH e hT) 0,
          rows := shRows (c.rdH e hT), len := shK (c.rdH e hG), spPitch := 32 * shStride (c.rdH e hT),
          gPitch := 32 * shStride (c.rdH e hG) }
      let st := v0 / 2 ^ 8 % 2 ^ 12
      let rsv := v0 / 2 ^ 20 % 16 != 0
      let op := if store then SeriesOp.tstp b st h.mesh rsv tiles else SeriesOp.tldp b st h.mesh rsv tiles
      (.ok ⟨[], .series (newItem h.asid.toNat (v0 % 256) ⟨w.die, w.core, w.ctx, w.spare, c.task, c.member, c.task⟩ op
        (crewBar (s.coreOf w) c.task b))⟩, s)

end Sys2Proof.Machine
end

