-- ==== Sys2Proof/Machine/Control.lean ====
section
/-! DEFINITION. The S1-only instructions (13 R332 to R343): transfers, divergence and the reconvergence stack (06 R161 to R165),
split gangs and their join (06 R166 to R171), WAIT (06 R160), system registers (12 R312, R313). -/

namespace Sys2Proof.Machine
open Sys2Proof.Irnov

/-! ## Targets (R332, R335, R336) -/

/-- A + 32 × n. -/
def bundleAt (a : W64) (n : Int) : W64 := a + BitVec.ofInt 64 (32 * n)

/-- Entries that a half's stack holds (R162). -/
def stackCap (spare : Bool) : Nat := if spare then 8 else 16

/-! ## Divergence -/

/-- A of R163: MASK and q, or MASK and not q. -/
def divA (h : Half) (q : Nat) (inv : Bool) : BitVec 16 := h.mask &&& (if inv then ~~~ h.rdQ q else h.rdQ q)

/-- can_split of R163. -/
def canSplit (c : Ctx) (spare : Bool) (a b : BitVec 16) : Bool :=
  !spare && c.spare.isNone && a != 0 && b != 0 && c.landings.isEmpty

/-- The distinct keys of DSWITCH below n, ascending, with their engines (R164). -/
def switchGroups (c : Ctx) (h : Half) (v n : Nat) : List (Nat × BitVec 16) :=
  let key := fun e => (c.lane v (16 * e)).toNat
  let on := fun e => h.mask.getLsbD e
  let keys := (((List.range 16).filter fun e => on e && decide (key e < n)).map key).eraseDups
  let keys := sortBy id keys
  keys.map fun x => (x, mask16 fun e => on e && key e == x)

/-- STACKOVF of a control instruction (R163 to R165). -/
def stackOverflows (c : Ctx) (spare : Bool) (i : SIns) : Bool :=
  let h := c.half spare
  match i with
  | .divg .. => decide (stackCap spare ≤ h.stack.length)
  | .dswitch v n _ _ =>
    let g := (switchGroups c h v n).length
    g != 0 && decide (stackCap spare < h.stack.length + g)
  | .endp => h.stack.isEmpty && !spare
  | _ => false

/-- The half to which the spare sequencer is started (R166): a copy of the context's half with MASK B, an empty stack and
landing count 0, at Lelse. -/
def startSpare (c : Ctx) (b : BitVec 16) (lelse : W64) : Ctx :=
  let h := { c.main with sWritten := 0 }
  { c with main := h, spareEngines := b
           spare := some { h with mask := b, stack := [], count := 0, hcount := 0, pc := lelse, killed := 0, wake := none
                                  poison := none } }

/-- MASK restored from the stack (R161). -/
def restoreMask (c : Ctx) (m : BitVec 16) : BitVec 16 := m &&& ~~~ c.killedAll

/-- DIVG (R163) on the context c, whose slots have written; c0 is the context as the bundle found it, a its address. -/
def divg (c0 c : Ctx) (spare : Bool) (a0 : W64) (q : Nat) (inv want : Bool) (elseN joinN : Nat) : Ctx :=
  let h0 := c0.half spare
  let h := c.half spare
  let a := divA h0 q inv
  let b := h0.mask &&& ~~~ a
  let e : StackEntry := { kind := .divj, key := 0, pmask := b, smask := h0.mask, join := bundleAt a0 joinN
                          pend := bundleAt a0 elseN, fmt := h0.fmt }
  if want && canSplit c0 spare a b then
    startSpare (c.setHalf spare { h with stack := { e with kind := .split } :: h.stack, mask := h.mask }) b e.pend |>
      fun c => c.setHalf false { c.main with mask := a }
  else if a ≠ 0 ∧ b ≠ 0 then c.setHalf spare { h with stack := { e with kind := .divp } :: h.stack, mask := a }
  else if a ≠ 0 then c.setHalf spare { h with stack := e :: h.stack, mask := a }
  else c.setHalf spare { h with stack := e :: h.stack, mask := b, pc := e.pend }

/-- DSWITCH (R164). -/
def dswitch (c0 c : Ctx) (spare : Bool) (a0 : W64) (v n tab joinN : Nat) : Ctx :=
  let h0 := c0.half spare
  let h := c.half spare
  match switchGroups c0 h0 v n with
  | [] => c.setHalf spare { h with pc := bundleAt a0 joinN }
  | (x, m) :: rest =>
    let base : StackEntry := { kind := .swjoin, key := 0, pmask := 0, smask := h0.mask, join := bundleAt a0 joinN, pend := 0
                               fmt := h0.fmt }
    let grp := fun (g : Nat × BitVec 16) => ({ base with kind := .swgrp, key := g.1, pmask := g.2, smask := 0, join := 0
                                                         pend := bundleAt a0 (tab + g.1) } : StackEntry)
    c.setHalf spare { h with stack := rest.map grp ++ base :: h.stack, mask := m, pc := bundleAt a0 (tab + x) }

/-- ENDP (R165) but for the arrival at a split join, which is false in the second part. -/
def endp (c0 c : Ctx) (spare : Bool) (a0 : W64) : Ctx × Bool :=
  let h := c.half spare
  let arrive := (c.setHalf spare { h with arrived := true, pc := a0 }, true)
  match h.stack with
  | [] => arrive
  | e :: t =>
    match e.kind with
    | .divp => (c.setHalf spare { h with stack := { e with kind := .divj } :: t, mask := restoreMask c0 e.pmask
                                         fmt := e.fmt, pc := e.pend }, false)
    | .swgrp => (c.setHalf spare { h with stack := t, mask := restoreMask c0 e.pmask, fmt := e.fmt, pc := e.pend }, false)
    | .divj | .swjoin => (c.setHalf spare { h with stack := t, mask := restoreMask c0 e.smask, fmt := e.fmt
                                                   pc := e.join }, false)
    | .split => arrive

/-! ## The join (R170, R171) -/

/-- Whether s n takes the spare half's value at the join: the spare half wrote it, or has a landing open for it, and the main
half has neither. -/
def spareGives (c : Ctx) (h : Half) (n : Nat) : Bool :=
  let wrote := fun (x : Half) => x.sWritten.getLsbD (n - 144)
  let lands := fun (sp : Bool) => c.landings.any fun (l : Landing) => l.spare == sp && l.dest < 160 &&
    !l.dropped && ((l.dest == n && l.lanes.getLsbD 0) || (l.dest + 1 == n && l.lanes.getLsbD 2))
  decide (144 ≤ n) && decide (n ≤ 151) && (wrote h || lands true) && !(wrote c.main || lands false)

/-- A landing at the join: due at the JOIN bundle; of the spare half, a scalar is written only where R170 gives it. -/
def joinLanding (c : Ctx) (h : Half) (l : Landing) : Landing :=
  let keep0 := !l.spare || spareGives c h l.dest
  let keep2 := !l.spare || spareGives c h (l.dest + 1)
  let lanes := if l.dest ≥ 192 then l.lanes
    else l.lanes &&& ((if keep0 then 3 else 0) ||| (if keep2 then 12 else 0))
  { l with lanes := lanes, dueNow := true, spare := false }

/-- Both halves have arrived: the state is merged and the main sequencer goes on at JOIN. Registers of R170's table that it does
not name keep the main half's value (log 36). A fence at GANG scope orders both halves' accesses before any after the join (08 R218);
seq is its place in the order of issue. -/
def joinHalves (c : Ctx) (seq : Nat) : Ctx :=
  match c.spare, c.main.stack with
  | some h, e :: t =>
    let m := c.main
    let killed := m.killed ||| h.killed
    let sp := c.spareEngines
    { c with
      spare := none, spareEngines := 0, landings := c.landings.map (joinLanding c h)
      main := { m with
        pc := e.join, mask := e.smask &&& ~~~ killed, killed := killed, stack := t, fmt := e.fmt, arrived := false
        s := Vector.ofFn fun (n : Fin 160) => if spareGives c h n.val then h.s.getD n.val 0 else m.s.getD n.val 0
        sWritten := 0, q := Vector.ofFn fun (n : Fin 8) => (m.q.getD n.val 0 &&& ~~~ sp) ||| (h.q.getD n.val 0 &&& sp)
        fstat := m.fstat ||| h.fstat, acstat := m.acstat ||| h.acstat, fences := m.fences ++ h.fences ++ [⟨.ar, .gang, seq⟩]
        drain := m.drain.orElse fun _ => h.drain, ifence := m.ifence.orElse fun _ => h.ifence
        poison := m.poison.orElse fun _ => h.poison } }
  | _, _ => c

/-- The join when both halves have arrived. -/
def joinIfDone (c : Ctx) (seq : Nat) : Ctx :=
  match c.spare with
  | some h => if c.main.arrived && h.arrived then joinHalves c seq else c
  | none => c

/-! ## WAIT (R160) -/

/-- The condition of WAIT on F, and the bits that it matches. -/
def waitHolds (f m : W32) (all : Bool) : Bool := m == 0 || (if all then f &&& m == m else f &&& m != 0)

/-- WAIT.C clears the bits that it matched as its bundle begins to retire: a flag that the bundle itself sets stays set. -/
def clearWaited (f : W32) (h : Half) (i : Option SIns) : W32 :=
  match i with
  | some (.wait true _ m) => f &&& ~~~ (opv h m).setWidth 32
  | _ => f

/-! ## System registers (R313) -/

/-- An SRW register is read or written outside supervisor mode (R312). -/
def sysDenied (reg : Nat) (sup : Bool) : Bool := decide (0x100 ≤ reg) && !sup

/-- SYSR of a register. -/
def sysRead (s : Chip) (w : HalfId) (c : Ctx) (reg : Nat) : W64 :=
  let h := c.half w.spare
  let a := s.space h.asid.toNat
  match reg with
  | 0x000 => h.gmode
  | 0x001 => h.fmt
  | 0x002 => h.fstat
  | 0x003 => c.activeReg w.spare
  | 0x004 => h.acstat
  | 0x005 => match lowest16 h.mask with | some e => (c.gens.getD e 0).setWidth 64 | none => 0
  | 0x006 => h.mesh
  | 0x007 => BitVec.ofNat 64 a.imaskv
  | 0x008 => BitVec.ofNat 64 c.spbase
  | 0x009 => BitVec.ofNat 64 c.splim
  | 0x010 => h.cause
  | 0x011 => h.trapa
  | 0x012 => h.traps
  | 0x013 => h.trapx
  | 0x014 => h.trapv
  | 0x015 => h.tvec
  | 0x020 => BitVec.ofNat 64 c.task
  | 0x021 => BitVec.ofNat 64 w.ctx
  | 0x022 => BitVec.ofNat 64 w.core
  | 0x023 => BitVec.ofNat 64 w.die
  | 0x024 => BitVec.ofNat 64 s.now
  | 0x025 => c.frozencc
  | 0x100 => h.tdeleg
  | 0x101 => h.stvec
  | 0x102 => h.asid
  | 0x103 => a.root &&& 0xFFFFFFFFFF000 ||| BitVec.ofNat 64 (16 * a.imaskv + if a.en then 1 else 0)
  | 0x104 => a.dstvec
  | 0x105 => a.dtdeleg
  | 0x106 => BitVec.ofNat 64 (s.coreOf w).wdLimit
  | _ => 0

/-- IMASKV as written: a population count other than 1, 2, 4, 8 writes 0xFF (R187). -/
def imaskWrite (x : Nat) : Nat := if [1, 2, 4, 8].contains (popcount 8 x) then x else 0xFF

/-- Change the address-space table entry of an ASID, which every die holds alike (R187). -/
def modSpace (s : Chip) (asid : Nat) (f : ASpace → ASpace) : Chip :=
  { s with aspace := s.aspace.put (asid % 4096) (f (s.space asid)) }

/-- WDOG as written (04 R106). -/
def wdogWritten (x : Nat) : Nat := if 1 ≤ x ∧ x ≤ 65535 then 65536 else x

/-- SYSW of SRSEED (10 R257): outside a split every engine, in a split the engines of the half. -/
def reseed (c : Ctx) (spare : Bool) (x : W64) : Ctx :=
  { c with gens := Vector.ofFn fun (e : Fin 16) =>
      if c.spare.isSome ∧ c.spareEngines.getLsbD e.val ≠ spare then c.gens.getD e.val 0
      else seedOf (x.setWidth 32) e.val }

/-- SYSW of a register; fields that are read-only keep their values. -/
def sysWrite (s : Chip) (w : HalfId) (reg : Nat) (x : W64) : Chip :=
  match s.ctxOf? w with
  | none => s
  | some c =>
    let h := c.half w.spare
    let put := fun (h : Half) => s.setCtx w.die w.core w.ctx (c.setHalf w.spare h)
    match reg with
    | 0x000 => put { h with gmode := gmodeWrite x }
    | 0x001 => put { h with fmt := fmtWrite x }
    | 0x002 => put { h with fstat := x &&& 0x1F }
    | 0x004 => put { h with acstat := h.acstat &&& ~~~ (x &&& 1) }
    | 0x005 => s.setCtx w.die w.core w.ctx (reseed c w.spare x)
    | 0x006 => put { h with mesh := x &&& meshMask }
    | 0x011 => put { h with trapa := x &&& ~~~ 31 }
    | 0x015 => put { h with tvec := x &&& vecMask }
    | 0x100 => put { h with tdeleg := x &&& delegMask }
    | 0x101 => put { h with stvec := x &&& vecMask }
    | 0x102 => put { h with asid := x &&& 0xFFF }
    | 0x103 => modSpace s h.asid.toNat fun a =>
        { a with root := x &&& 0xFFFFFFFFFF000, imaskv := imaskWrite (w64Get x 4 8), en := x.getLsbD 0 }
    | 0x104 => modSpace s h.asid.toNat fun a => { a with dstvec := x &&& vecMask }
    | 0x105 => modSpace s h.asid.toNat fun a => { a with dtdeleg := x &&& delegMask }
    | 0x106 => s.modCore w.die w.core fun co => { co with wdLimit := wdogWritten (w64Get x 0 32), wdCount := 0 }
    | _ => s

/-! ## The control instruction of a bundle -/

/-- What becomes of the context when the bundle at a0 retires: every slot has written c, and c0 is the context as the bundle
found it (R333). The next bundle's address is in the half; the second part says that the half arrived at a join. -/
def controlOut (c0 c : Ctx) (spare : Bool) (a0 : W64) (i : Option SIns) : Ctx × Bool :=
  let h0 := c0.half spare
  let h := c.half spare
  let c1 := c.setHalf spare { h with pc := a0 + 32 }
  let jump := fun (t : W64) => (c.setHalf spare { h with pc := t }, false)
  match i with
  | some (.br n neg d) => if h0.rdC n != neg then jump (bundleAt a0 d) else (c1, false)
  | some (.jmp d) => jump (bundleAt a0 d)
  | some (.call d) => jump (bundleAt a0 d)
  | some .ret => jump (h0.rdS 158)
  | some (.jr _ a) => jump (opv h0 a)
  | some (.loop n d) => if h0.rdS n - 1 ≠ 0 then jump (bundleAt a0 d) else (c1, false)
  | some (.divg q inv want e j) => (divg c0 c1 spare a0 q inv want e j, false)
  | some (.dswitch v n tab j) => (dswitch c0 c1 spare a0 v n tab j, false)
  | some .endp => endp c0 c1 spare a0
  | some (.ekill q) =>
    let h1 := c1.half spare
    let k := h0.mask &&& h0.rdQ q
    (c1.setHalf spare { h1 with mask := h0.mask &&& ~~~ k, killed := h1.killed ||| k }, false)
  | _ => (c1, false)

end Sys2Proof.Machine
end

