-- ==== Sys2Proof/Machine/Requests.lean ====
section
/-! DEFINITION. D-slot instructions that act through an answer: sync objects, SPAWN, PLSET, PLGET, ADPIN, ADUNPIN, HARVEST
(17 R414 to R433; 05 R117 to R121): their probe, their requests at home, and the answer's delivery. -/

namespace Sys2Proof.Machine
open Sys2Proof.Irnov

/-! ## Gathered bits (07 R199) -/

/-- Whether the bits of an entry can be written back now: a claim on the line of the table entry holds them (08 R222). -/
def TlbEnt.canWrite (s : Chip) (e : TlbEnt) : Bool := !(e.gA || e.gD) || !s.storeHeld (lineOf e.pteP)

/-- Write back the gathered bits of the entries of a TLB that a test names, and clear them there. -/
def flushTlb (s : Chip) (p : TlbEnt → Bool) (t : List TlbEnt) : List TlbEnt × Chip :=
  t.foldl (fun (st : List TlbEnt × Chip) e =>
    if p e && e.canWrite st.2 then (st.1 ++ [{ e with gA := false, gD := false }], writeBack st.2 e) else (st.1 ++ [e], st.2)) ([], s)

/-- Write back the gathered bits that no TLB holds any more. -/
def flushLoose (s : Chip) (p : TlbEnt → Bool) : Chip :=
  s.gathered.foldl (fun (s : Chip) (e : TlbEnt) =>
    if p e && e.canWrite s then writeBack s e else { s with gathered := s.gathered ++ [e] }) { s with gathered := [] }

/-- Some gathered bits that a test names cannot be written back yet. -/
def gatheredHeld (s : Chip) (p : TlbEnt → Bool) : Bool :=
  let bad := fun (t : List TlbEnt) => t.any fun e => p e && !e.canWrite s
  bad s.gathered || (s.cores.any fun e => bad e.2.dtlb || bad e.2.itlb) || s.dies.any fun e => bad e.2.stlb

/-- Write back gathered bits in every TLB of the package, and those that no TLB holds. -/
def flushGathered (s : Chip) (p : TlbEnt → Bool) : Chip :=
  let s := flushLoose s p
  let s := s.cores.foldl (fun (s : Chip) e =>
    let co := e.2
    let (d, s) := flushTlb s p co.dtlb
    let (i, s) := flushTlb s p co.itlb
    { s with cores := s.cores.put e.1 { co with dtlb := d, itlb := i } }) s
  s.dies.foldl (fun (s : Chip) e =>
    let (t, s) := flushTlb s p (s.die e.1).stlb
    s.modDie e.1 fun y => { y with stlb := t }) s

/-! ## Plans (R414, R416) -/

/-- The probe of a memory object, whose size is its alignment, and what to do there. -/
def objPlan (s : Chip) (w : HalfId) (c : Ctx) (acc : Acc) (store : Bool) (a : Addr) (size : Nat) (f : Nat → W64 → Option Nat → DAct) :
    Except Cause DPlan × Chip :=
  match probeLane s w c acc false true none 0 (scalarVa (c.half w.spare) a) size size with
  | (.error x, s) => (.error x, s)
  | (.ok t, s) => (.ok ⟨touchOf store [t], f t.addr (scalarVa (c.half w.spare) a) (cpInsert t.cp 1)⟩, s)

/-- Operations that are held unless d is s0 (R416). -/
def sendUnlessHeld (d : Nat) (k : SyncKind) (v : W64) (p : Nat) (va : W64) (rrpv : Option Nat) : DAct :=
  if d = 0 then .send [.sync k p va v rrpv] else .request (.sync k p va v rrpv)

/-- The form of QPUSH that d gives (R422). -/
def pushKind (h : Half) (d : Nat) : SyncKind :=
  .qpush (if d = 0 ∨ (h.rdS d).getLsbD 63 then none else some (w64Get (h.rdS d) 0 32))

/-- The plan of an instruction that reads a memory object at issue, through the store path; a claimed line holds it (08 R215, R222). -/
def readPlan (s : Chip) (w : HalfId) (c : Ctx) (a : Addr) (size : Nat) (f : Nat → List Byte → DAct) : Except Cause DPlan × Chip :=
  match probeLane s w c .load false true none 0 (scalarVa (c.half w.spare) a) size size with
  | (.error x, s) => (.error x, s)
  | (.ok t, s) =>
    let co := s.coreOf w
    if (linesOf t.addr size).any (s.claimedFor w.die w.core co.seq) then (.ok ⟨[], .held⟩, s)
    else
      let act := f t.addr (pathOverlay co co.seq t.addr (s.rdFree t.addr size).1)
      (.ok ⟨touchOf false [t], act⟩, (s.l2Access t.addr (cpInsert t.cp 1)).modCore w.die w.core fun co =>
        markSeen co w.ctx (linesOf t.addr size))

/-- FPOLL (R420): two words to d and d + 1, read at the home slice. -/
def fpollAct (s : Chip) (w : HalfId) (c : Ctx) (d f : Nat) (p : Nat) (va : W64) (rrpv : Option Nat) : DAct :=
  .load (mkLanding c w d 0xF va f (s.coreOf w).seq (Vector.replicate 256 0)
    [⟨0, p, va, 8, false, true, rrpv, false, true⟩, ⟨2, p + 8, va + 8, 8, false, true, rrpv, false, true⟩]) [] [lineOf p]

/-- PLSET or PLGET of the entry that a value names; a number above 255 is probed for and does nothing else (R430). -/
def placePlan (s : Chip) (w : HalfId) (c : Ctx) (set : Bool) (a : Addr) (v : W64) : Except Cause DPlan × Chip :=
  if v.toNat ≥ 256 then
    match objPlan s w c (if set then .load else .store) (!set) a 64 fun p _ _ => .request (.badnum p) with
    | (.ok p, s) => (.ok { p with touch := [] }, s)
    | r => r
  else if set then readPlan s w c a 64 fun p bs => .request (.plset p v.toNat bs)
  else objPlan s w c .store true a 64 fun p _ r => .request (.plget p v.toNat r)

/-- The plan of a D-class instruction: its probe and what it is to do. -/
def dPlan (s : Chip) (w : HalfId) (c : Ctx) (i : DIns) : Except Cause DPlan × Chip :=
  let h := c.half w.spare
  let now := fun (a : DAct) => (Except.ok ⟨[], a⟩, s)
  match i with
  | .ld bytes signed d a f hint => scalarLoad s w c bytes signed d a f hint
  | .vld sp d a f hint => vectorLoad s w c sp d a f hint
  | .st bytes data a => scalarStore s w c bytes data a
  | .vst sp d k a => vectorStore s w c sp d k a
  | .pref a hint => let r := prefPlan s w c a hint; (.ok r.1, r.2)
  | .tile store sy t hT hG a => tilePlan s w c store sy t hT hG a
  | .ptile store b t hT hG a => tilePlacePlan s w c store b t hT hG a
  | .tcopy b v => copyPlan s w c false (.barrier b) v
  | .tmcast sy v => copyPlan s w c true sy v
  | .tperm sy v => permPlan s w c sy v
  | .fence k sc => now (.fence k sc)
  | .drain sc => now (.drain sc)
  | .at op sc d a o => scalarAtomic s w c op sc d a o
  | .vat op sc d a o => vectorAtomic s w c op sc d a o
  | .fget _ _ a _ => objPlan s w c .sync false a 16 fun p va r => .request (.sync .fget p va 0 r)
  | .fput d a v => objPlan s w c .sync true a 16 (sendUnlessHeld d .fput (opv h v))
  | .fpoll d a f => objPlan s w c .sync false a 16 (fpollAct s w c d f)
  | .lock _ a => objPlan s w c .sync true a 16 fun p va r => .request (.sync .lock p va 0 r)
  | .trylock d a => objPlan s w c .sync true a 16 (sendUnlessHeld d .trylock 0)
  | .unlock d a => objPlan s w c .sync true a 16 (sendUnlessHeld d .unlock 0)
  | .qpush d a v => objPlan s w c .sync true a 64 (sendUnlessHeld d (pushKind h d) (opv h v))
  | .qpop _ _ a _ => objPlan s w c .sync true a 64 fun p va r => .request (.sync .qpop p va 0 r)
  | .qresv d a => objPlan s w c .sync true a 64 (sendUnlessHeld d .qresv 0)
  | .barinit .. | .bararr .. | .barexp .. => now (.barrier i)
  | .dcset d a v => objPlan s w c .sync true a 8 (sendUnlessHeld d .dcset (opv h v))
  | .dcdec _ a => objPlan s w c .sync true a 8 fun p va r => .request (.sync .dcdec p va 0 r)
  | .spawn _ a => readPlan s w c a 32 fun p bs => .request (.spawn p bs)
  | .plset _ a v => placePlan s w c true a (opv h v)
  | .plget _ a v => placePlan s w c false a (opv h v)
  | .adpin d v => now (.request (.adpin (opv h v) (w64Get (h.rdS d) 0 12)))
  | .adunpin _ v => now (.request (.adunpin (w64Get (opv h v) 0 16)))
  | .harvest _ => now (.request .harvest)

/-- Instructions that open a landing (R156, R418, R422). -/
def opensLanding : DIns → Bool
  | .ld .. | .vld .. | .fpoll .. | .fget .. | .qpop .. => true
  | _ => false

/-- FGET, LOCK, QPOP (R119). -/
def isWaiting : DIns → Bool
  | .fget .. | .lock .. | .qpop .. => true
  | _ => false

/-- The requests of FGET, LOCK, QPOP. -/
def Req.waits : Req → Bool
  | .sync .fget .. | .sync .lock .. | .sync .qpop .. => true
  | _ => false

/-! ## The adapter table (R431, R432) -/

/-- adpin of R431 on a die's table. -/
def adpinAt (t : AMap Adapter) (asid : Nat) (key : W64) (slot : Nat) : W64 × AMap Adapter :=
  let ent := fun n => t.getD n .empty
  let idx := List.range 1024
  let out := fun (n : Nat) (x : Adapter) (new : Nat) => BitVec.ofNat 64 ((x.gen % 64 * 1024 + n) * 2 ^ 32 + x.slot * 2 ^ 20 + new * 2 ^ 8)
  match idx.find? fun n => (ent n).v && (ent n).asid == asid && (ent n).key == key with
  | some n =>
    let x := ent n
    if x.refcnt = 2 ^ 28 - 1 then (5, t)
    else
      let x := { x with refcnt := x.refcnt + 1 }
      (out n x 0, t.put n x)
  | none =>
    let put := fun (n : Nat) (gen : Nat) =>
      let x : Adapter := ⟨true, key, asid, slot, gen, 1⟩
      (out n x 1, t.put n x)
    match idx.find? fun n => !(ent n).v with
    | some n => put n (ent n).gen
    | none =>
      match idx.find? fun n => (ent n).refcnt == 0 with
      | some n => put n (((ent n).gen + 1) % 64)
      | none => (5, t)

/-- ADUNPIN (R432): status code and table. -/
def adunpinAt (t : AMap Adapter) (asid tag : Nat) : Nat × AMap Adapter :=
  let n := tag % 1024
  let x := t.getD n .empty
  if x.v ∧ x.asid = asid ∧ x.gen % 64 = tag / 1024 then
    (if x.refcnt = 0 then (0x0B, t) else (0, t.put n { x with refcnt := x.refcnt - 1 }))
  else (0x0C, t)

/-! ## Requests at home -/

/-- Every earlier access of the context, and every store that it may have observed, has performed (release at PKG scope, R120; 08
R215). -/
def releaseReady (s : Chip) (w : HalfId) (c : Ctx) : Bool :=
  !((s.coreOf w).path.any fun (e : PathEntry) => !e.op.isPref && ((e.ctx == w.ctx && e.task == c.task) || e.seen.contains w.ctx)) &&
  c.landings.all fun (l : Landing) => l.parts.isEmpty

/-- Operations with release semantics (R120, R427, R429). -/
def SyncKind.releases : SyncKind → Bool
  | .fput | .unlock | .qpush _ | .qresv | .dcdec => true
  | _ => false

/-- Whether a range is free for an atomic or sync-object operation of the core that performs now: no claim, and no earlier operation
of the core's path on its bytes (R207, R222, R223). -/
def rangeFree (s : Chip) (w : HalfId) (r : Nat × Nat) : Bool :=
  let co := s.coreOf w
  !((linesOf r.1 r.2).any fun l => s.claimedFor w.die w.core co.seq l || s.readClaimed l) &&
    !(co.path.any fun (e : PathEntry) => overlaps e.op.range r)

/-- The address space in which the home slice serves a request of a task (R416, R422). -/
def launchAsid (s : Chip) (task dflt : Nat) : Nat := match s.launchOf task with | some l => l.asid | none => dflt

/-- Whether a sync-object operation of the core may perform now: its object and the queue entry that it touches are free, and that
entry's translation is. -/
def opFree (s : Chip) (w : HalfId) (asid : Nat) (op : PathOp) : Bool :=
  (pathRanges s asid op).all (rangeFree s w) && !opWalkHeld s asid op

def setAnswer (s : Chip) (w : HalfId) (a : Answer) : Chip :=
  s.modHalf w fun h => { h with hold := h.hold.map fun (x : Hold) => { x with answer := some a } }

/-- The launch that SPAWN's descriptor names, or the context's own (R428). -/
def spawnLaunch (s : Chip) (c : Ctx) (bs : List Byte) : Option (Nat × Launch) :=
  let id := leNat ((bs.drop 24).take 4)
  if id = 0 then (s.launchOf c.task).map fun l => (taskSlot c.task, l) else slotOf s id

/-- SPAWN's descriptor performed (R428, R429). -/
def spawnAt (s : Chip) (w : HalfId) (c : Ctx) (bs : List Byte) : Answer × Chip :=
  let word := fun (k : Nat) => BitVec.ofNat 64 (leNat ((bs.drop (8 * k)).take 8))
  match spawnLaunch s c bs with
  | none => (.status 8 0, s)
  | some (k, l) =>
    if l.asid ≠ (c.half w.spare).asid.toNat then (.status 8 0, s)
    else
      let (code, info, s) := createTask s k w.die l (word 2) ((word 1).getLsbD 63) (word 0) (w64Get (word 1) 0 48)
      (.status code info, s)

/-- SPAWN waits: the walk for the record that it would write has to read a claimed line (08 R222), or a context after it in die,
core and context order has had its turn at the launch in this cycle (R429). -/
def spawnHeld (s : Chip) (w : HalfId) (c : Ctx) (bs : List Byte) : Bool :=
  match spawnLaunch s c bs with
  | some (k, l) => ((walkReads s l.asid ((l.trbase.toNat + 64 * l.created) % 2 ^ 64)).any fun p => s.claimed (lineOf p)) ||
      s.pastTurn (.launch k) w.order
  | none => false

/-- SPAWN takes its turn at the launch. -/
def spawnTurn (s : Chip) (w : HalfId) (c : Ctx) (bs : List Byte) : Chip :=
  match spawnLaunch s c bs with
  | some (k, _) => s.takeTurn (.launch k) w.order
  | none => s

/-- The lines of the core's L1 that an atomic of its own makes stale (07 R189). -/
def dropL1 (s : Chip) (w : HalfId) (lines : List Nat) : Chip :=
  s.modCore w.die w.core fun co => { co with l1 := lines.foldl l1Invalidate co.l1 }

/-- The series item that a half's PLSET or PLGET waits on. -/
def seriesOf (s : Chip) (w : HalfId) (task : Nat) : Option SeriesItem :=
  List.find? (fun (i : SeriesItem) => i.who.core == w.core && i.who.ctx == w.ctx && i.who.spare == w.spare &&
    i.who.task == task && (match i.op with | .plset _ | .plget .. => true | _ => false)) (s.die w.die).series

/-- A held request that does not wait performs at home, and its answer arrives. -/
def performHeld (s : Chip) (w : HalfId) (c : Ctx) (r : Req) : Chip :=
  let h := c.half w.spare
  let asid := h.asid.toNat % 4096
  let serve := launchAsid s c.task asid
  match r with
  | .sync k p va v rrpv =>
    if (k.releases && !releaseReady s w c) || !opFree s w serve (.sync k p va v rrpv) then s
    else match syncAt (s.l2Access p rrpv) k p va v ⟨w, c.task, serve⟩ with
      | (.answer a, s) => setAnswer s w a
      | (.wait _, s) => s
  | .atomic op width lanes =>
    if lanes.any fun (l : AtLane) => !rangeFree s w (l.p, width) then s
    else
      let (vals, f, s) := atomicMem s op width false lanes
      setAnswer (dropL1 s w (lanes.map fun (l : AtLane) => lineOf l.p)) w { Answer.ok 0 with lanes := vals, flags := f }
  | .spawn _ bs =>
    if !releaseReady s w c || spawnHeld s w c bs then s
    else let (a, s) := spawnAt (spawnTurn s w c bs) w c bs; setAnswer s w a
  | .plset .. | .plget .. =>
    match seriesOf s w c.task with
    | some i => if seriesHead s w.die i then plainChange s w.die i else s
    | none => s
  | .badnum _ => setAnswer s w (.status 0x0D 0)
  | .adpin key slot =>
    if s.pastTurn (.adapters w.die) w.order then s
    else
      let (x, t) := adpinAt (s.die w.die).adapters asid key slot
      setAnswer ((s.takeTurn (.adapters w.die) w.order).modDie w.die fun y => { y with adapters := t }) w (.ok x)
  | .adunpin tag =>
    if s.pastTurn (.adapters w.die) w.order then s
    else
      let (x, t) := adunpinAt (s.die w.die).adapters asid tag
      setAnswer ((s.takeTurn (.adapters w.die) w.order).modDie w.die fun y => { y with adapters := t }) w (.status x 0)
  | .harvest =>
    if gatheredHeld s fun e => e.asid == asid then s
    else setAnswer (flushGathered s fun e => e.asid == asid) w (.status 0 0)

/-- HELD_ANSWER_ARRIVAL for a half. -/
def heldAnswer (s : Chip) (w : HalfId) : Chip :=
  match s.ctxOf? w with
  | none => s
  | some c => match (c.half w.spare).hold with
    | some ⟨r, none, _⟩ => if r.waits then s else performHeld s w c r
    | _ => s

/-- The block of a waiting bundle. -/
def waitBlock (h : Half) (k : SyncKind) (va : W64) (p owner : Nat) (deferred : Bool) (b : Bundle) : Block :=
  { kind := k, va := va, p := p, owner := owner, deferred := deferred, walk := true, word := b.word 7
    resid := b.pres &&& (h.resid.getD 0x7F ||| b.lit), done := false }

/-- A WATCHDOG that waited for the bundle held for its answer is taken once that answer has blocked it (11 R286, R296). -/
def blockedDog (s : Chip) (w : HalfId) : Chip :=
  match s.ctxOf? w with
  | none => s
  | some c =>
    if (c.half w.spare).wdog then watchdogTrap (s.modHalf w fun h => { h with wdog := false }) w c else s

/-- WAITING_ANSWER_ARRIVAL for a half (R119): a value, grant or status is the answer; a wait is deferred, or refused when the
slice's buffer is full, and the half blocks. -/
def waitingAnswer (s : Chip) (w : HalfId) : Chip :=
  match s.ctxOf? w with
  | none => s
  | some c => match (c.half w.spare).hold with
    | some ⟨.sync k p va v rrpv, none, b⟩ =>
      let r : Requester := ⟨w, c.task, launchAsid s c.task 0⟩
      if !(Req.sync k p va v rrpv).waits ∨ !opFree s w r.asid (.sync k p va v rrpv) then s
      else
        match syncAt (s.l2Access p rrpv) k p va v r with
        | (.answer a, s1) => setAnswer s1 w a
        | (.wait owner, s1) =>
          if c.spare.isNone ∧ s1.recHeld c.task then s
          else
            let (deferred, s1) := deferAt s1 k p va r
            blockedDog (blockHalf s1 w (waitBlock (c.half w.spare) k va p owner deferred b)) w
    | _ => s

/-! ## What the answer gives (R415, R418, R422) -/

def Answer.statusWord (a : Answer) : W64 := BitVec.ofNat 64 (a.info * 2 ^ 32 + a.code)

/-- Register writes at retirement, and a value that lands: destination, landing field, value. -/
def answerOut (i : DIns) (a : Answer) : List Wr × Option (Nat × Nat × W64) :=
  let val := if a.code = 0 then a.value else a.statusWord
  match i with
  | .fget d cN _ f => ([.c cN (a.code == 0)], some (d, f, val))
  | .qpop d cN _ f => ([.c cN (a.code == 0)], some (d, f, val))
  | .at op _ d _ _ => (atomicWr (if op = .fadd then 4 else 8) (.s d) a.lanes, none)
  | .vat _ _ d _ _ => (atomicWr 4 d a.lanes, none)
  | .dcset d _ _ => ([.s d a.value], none)
  | .dcdec d _ => ([.s d a.value], none)
  | .adpin d _ => ([.s d a.value], none)
  | .fput d _ _ | .lock d _ | .trylock d _ | .unlock d _ | .qpush d _ _ | .qresv d _ | .spawn d _ | .plset d _ _
  | .plget d _ _ | .adunpin d _ | .harvest d => ([.s d a.statusWord], none)
  | _ => ([], none)

/-- Whether the completion is an acquire at PKG scope (R120, R421). -/
def answerAcquires (i : DIns) (a : Answer) : Bool :=
  match i with
  | .fget .. | .qpop .. => a.code == 0 || a.code == 1
  | .lock .. | .trylock .. => a.code == 0 || a.code == 2
  | _ => false

end Sys2Proof.Machine
end

