-- ==== Sys2Proof/Machine/Issue.lean ====
section
/-! DEFINITION. The issue of a bundle (06 R151 to R160, 08 R205, 11 R275, 12 R299, R314): due landings, fetch, the causes found
syllable by syllable, what holds the bundle, its writes, its retirement. -/

namespace Sys2Proof.Machine
open Sys2Proof.Irnov

/-! ## Causes found at issue (R275) -/

/-- The mask register that a syllable names (R279), also of one that fails to decode: k of a V syllable, of a vector store, of QFROMK
and QALLK. -/
def kregOf (n : Nat) (word : W32) : Nat :=
  if n = 3 ∨ n = 4 then fld word 22 3
  else if n = 7 ∧ 0x0E ≤ opcode word ∧ opcode word ≤ 0x10 then fld word 1 3
  else if (n = 1 ∨ n = 2) ∧ (opcode word = 0x65 ∨ opcode word = 0x66) then fld word 8 3
  else 0

/-- What the syllables checked so far have come to: the generators after their draws, registers written, S, V and X results,
the S1-only instruction, the M and the D instruction. -/
structure Issue where
  c : Ctx
  locs : List Loc
  outs : List (Nat × SlotOut)
  ctl : Option SIns
  tile : Option (MIns × TileOut)
  d : Option (DIns × DPlan)

/-- A cause with the syllable's mask register, or the pass-on of TRAP in a handler (R281). -/
inductive Stop where
  | cause (c : Cause) (kreg : Nat)
  | passOn

/-- The generator states that a slot's draws leave. -/
def afterDraws (c : Ctx) (ws : List Wr) : Ctx :=
  ws.foldl (fun c w => match w with | .gen e g => { c with gens := c.gens.setIfInBounds e g } | _ => c) c

def isGen : Wr → Bool
  | .gen .. => true
  | _ => false

/-- Whether an S-class instruction belongs to the S1-only group. -/
def isControl : SIns → Bool
  | .br .. | .jmp _ | .call _ | .ret | .jr .. | .loop .. | .divg .. | .dswitch .. | .endp | .ekill _ | .wait .. | .exit
  | .trap _ | .resume _ | .sysr .. | .sysw .. | .ifence | .bkpt => true
  | _ => false

/-- Causes of a syllable's S-class instruction (R275, R312, R314, R340, R341). -/
def scalarStop (c : Ctx) (spare sup : Bool) (i : SIns) : Option Stop :=
  let h := c.half spare
  let at_ := fun (code detail : Nat) (v : W64) => some (Stop.cause ⟨code, detail, v, 2, 0⟩ 0)
  let align := fun (t : W64) => if t.toNat % 32 ≠ 0 then at_ 5 2 t else none
  match i with
  | .trap m => if h.hm = 0 then at_ 0x11 (w64Get (opv h m) 0 8) 0 else some .passOn
  | .bkpt => at_ 0x12 0 0
  | .resume _ => if h.hm = 0 then at_ 2 0 0 else none
  | .ret => align (h.rdS 158)
  | .jr _ a => align (opv h a)
  | .sysr _ r => if sysDenied r sup then at_ 4 5 0 else none
  | .sysw r _ => if sysDenied r sup then at_ 4 5 0 else none
  | i => if stackOverflows c spare i then at_ 7 0 0 else none

/-- One present instruction syllable: decode, two writers, resources, probe, and its result from the state before the bundle
(R205, R275). ans is the answer that a held or waiting instruction already has. -/
def issueSyl (s : Chip) (w : HalfId) (env : DecEnv) (sup : Bool) (ans : Option Answer) (n : Nat) (st : Issue) :
    Except Stop Issue × Chip :=
  let word := env.bundle.word n
  let stop := fun (code : Nat) => (Except.error (Stop.cause ⟨code, 0, 0, n, 0⟩ (kregOf n word)), s)
  match decodeSlot env n with
  | .error .unimpl => stop 1
  | .error .illegal => stop 2
  | .ok i =>
    let ws := insWrites i
    if ws.any st.locs.contains ∨ ws.eraseDups.length ≠ ws.length then stop 2
    else
      let c := st.c
      let st := { st with locs := ws ++ st.locs }
      match i with
      | .s x =>
        match scalarStop c w.spare sup x with
        | some e => (.error e, s)
        | none =>
          let out := match x with
            | .sysr d r => SlotOut.one (.s d (sysRead s w ((s.ctxOf? w).getD c) r))
            | x => scalarOut c w.spare x
          (.ok { st with c := afterDraws c out.wr, outs := st.outs ++ [(n, out)], ctl := if isControl x then some x else st.ctl }, s)
      | .v x =>
        let out := vectorOut c w.spare x
        (.ok { st with c := afterDraws c out.wr, outs := st.outs ++ [(n, out)] }, s)
      | .m x =>
        let nt := match (s.coreOf w).crews.find? c.task with | some cr => cr.nt | none => 1
        match tileOut ⟨c, w.ctx, w.spare, s.coreOf w, nt, (s.die w.die).adapters⟩ x with
        | .error e => (.error (.cause e 0), s)
        | .ok t => (.ok { st with c := afterDraws c t.wr, tile := some (x, t) }, s)
      | .x x => (.ok { st with outs := st.outs ++ [(n, cableOut c w.spare x)] }, s)
      | .d x =>
        if opensLanding x ∧ c.landings.length ≥ 128 then stop 8
        else if ans.isSome then (.ok { st with d := some (x, ⟨[], .nop⟩) }, s)
        else match dPlan s w c x with
          | (.error e, s) => (.error (.cause e (kregOf n word)), s)
          | (.ok p, s) => (.ok { st with d := some (x, p) }, s)

/-- The syllables of a bundle in ascending order. -/
def issueSyls (s : Chip) (w : HalfId) (env : DecEnv) (sup : Bool) (ans : Option Answer) : List Nat → Issue → Except Stop Issue × Chip
  | [], st => (.ok st, s)
  | n :: t, st =>
    match issueSyl s w env sup ans n st with
    | (.error e, s) => (.error e, s)
    | (.ok st, s) => issueSyls s w env sup ans t st

/-! ## What holds a bundle -/

/-- EXIT of a crew's last context, which writes the task's record: a claim holds the record (08 R222). -/
def exitHeld (s : Chip) (w : HalfId) (c : Ctx) : Bool :=
  match (s.coreOf w).crews.find? c.task with
  | some cr => cr.ctxs.length == 1 && s.recHeld c.task
  | none => false

/-- Holds of a bundle whose syllables have no cause: a busy array (15 R370), WAIT (R160), a fence at its D slot (08 R216), a
BARARR before the half's earlier accesses at GANG scope (08 R218), BAREXP after the main half's BARARR of the same cycle (17 R424), a full queue of the placement engine (09 R244), a claimed line. -/
def issueHeld (s : Chip) (w : HalfId) (c : Ctx) (st : Issue) : Bool :=
  let h := c.half w.spare
  (match st.tile with
   | some (x, _) => isArrayIns x && !arrayReady (s.coreOf w) (activeOf h) s.now
   | none => false) ||
  (match st.ctl with
   | some (.wait _ all m) => !waitHolds c.f ((opv h m).setWidth 32) all
   | some .exit => exitHeld s w c
   | _ => false) ||
  (match st.d with
   | some (x, p) => heldByFence h x || (match p.act with
      | .held => true
      | .barrier (.bararr ..) => !fenceDone s w c ⟨.rel, .gang, (s.coreOf w).seq⟩
      | .barrier (.barexp _ b _) => match crewBar (s.coreOf w) c.task b with
        | some k => s.pastTurn (.barrier w.die w.core k) 0
        | none => false
      | .series it => seriesFull s w.die it
      | _ => false)
   | none => false)

/-! ## The D slot performs -/

/-- A GANG-scope atomic (08 R219): each lane reads and writes its word at one instant, in the D slot's place among the bundle's
scratchpad writes (R205; log 123). -/
def performGang (s : Chip) (w : HalfId) (task : Nat) (op : AtOp) (n : Nat) (ls : List AtLane) (d : Dst) : List Wr × Flags × Chip :=
  let co := s.coreOf w
  let (vals, f, m) := atomicScratch co.scratch op n ls
  let s := s.setCore w.die w.core { co with scratch := m }
  match d with
  | .none => ([], 0, addLaunchFlags s task f)
  | d => (atomicWr n d vals, f, s)

/-- A landing opens (R153, R158); data already there lands when due. -/
def openLanding (s : Chip) (w : HalfId) (l : Landing) : Chip :=
  let s := makeRoom s w.die w.core w.ctx
  let seq := (s.coreOf w).seq
  let s := s.modCore w.die w.core fun co => { co with seq := co.seq + 1 }
  s.modCtx w.die w.core w.ctx fun c =>
    { c with landings := c.landings ++ [{ l with id := c.nextLanding, seq := seq }], nextLanding := c.nextLanding + 1 }

/-- The lines that a load finds in the L1 become the most recently used. -/
def touchL1 (s : Chip) (w : HalfId) (lines : List Nat) : Chip :=
  s.modCore w.die w.core fun co =>
    { co with l1Hit := co.l1Hit + lines.length
              l1 := lines.foldl (fun t l => match l1Find t l with | some x => l1Put t x | none => t) co.l1 }

/-- PREF (16 R398): its line is read at the home slice, now or, while a claim holds it, later; one request counts. -/
def performPref (s : Chip) (w : HalfId) (c : Ctx) (p : Nat) (rrpv : Option Nat) (fill : Bool) : Chip :=
  let co := s.coreOf w
  let line := lineOf p
  let s := countReq s w.die w.core p
  if s.claimedFor w.die w.core co.seq line then acceptPath s w c (.pref p rrpv fill)
  else
    let s := s.l2Access p rrpv
    if fill ∧ (l1Find co.l1 line).isNone then fillL1 s w.die w.core line else s

/-- BARINIT, BARARR, BAREXP (17 R425): d takes the word as it stood. -/
def performBar (s : Chip) (w : HalfId) (c : Ctx) (i : DIns) : List Wr × Chip :=
  let h := c.half w.spare
  let word := fun (b : Nat) => match crewBar (s.coreOf w) c.task b with
    | some k => BitVec.ofNat 64 ((s.coreOf w).bars.getD k .zero).word0
    | none => 0
  let go := fun (d b : Nat) (f : Barrier → Barrier × Option Nat) => ([Wr.s d (word b)], changeBar s w.die w.core c.task b f)
  let s := match i with
    | .bararr _ b _ => match crewBar (s.coreOf w) c.task b with
      | some k => s.takeTurn (.barrier w.die w.core k) 1
      | none => s
    | _ => s
  match i with
  | .barinit d b v => go d b fun _ => (barInit (opv h v), none)
  | .bararr d b v => go d b fun x => x.arrive (opv h v)
  | .barexp d b v => go d b fun x => x.expect (opv h v)
  | _ => ([], s)

/-- Lines of the operations that join the store path, each counted once for the instruction (07 R202). -/
def pathLines (ops : List PathOp) : List Nat :=
  (ops.flatMap fun o => match o with
    | .store p bs _ => linesOf p bs.length
    | o => [lineOf o.addr]).eraseDups

/-- The D slot of a bundle that retires; c0 is the context as the bundle found it. -/
def performD (s : Chip) (w : HalfId) (c0 : Ctx) (i : DIns) (p : DPlan) (ans : Option Answer) :
    List Wr × Flags × Chip :=
  let h := c0.half w.spare
  match ans with
  | some a =>
    let (ws, land) := answerOut i a
    let s := if answerAcquires i a then clearL1 s w else s
    match land with
    | some (d, f, v) =>
      let data := landPut (Vector.replicate 256 0) 0 true v.toNat
      (ws, a.flags, openLanding s w (mkLanding c0 w d 3 0 f 0 data []))
    | none => (ws, a.flags, s)
  | none =>
    let s := touchPages s w h.asid.toNat p.touch
    match p.act with
    | .nop | .held | .request _ => ([], 0, s)
    | .load l hit req => ([], 0, openLanding (countLines (touchL1 s w hit) w req) w l)
    | .store scr ops =>
      let s := s.modCore w.die w.core fun co => { co with scratch := scr.foldl (fun m x => m.write 0 x.1 x.2) co.scratch }
      let s := countLines s w (pathLines ops)
      ([], 0, ops.foldl (fun s o => acceptPath s w c0 o) s)
    | .gangAt op n ls d => performGang s w c0.task op n ls d
    | .send ops =>
      let s := countLines s w (pathLines ops)
      ([], 0, ops.foldl (fun s o => acceptPath s w c0 o) s)
    | .prefetch p rrpv fill => ([], 0, performPref s w c0 p rrpv fill)
    | .fence k sc =>
      let seq := (s.coreOf w).seq
      ([], 0, (s.modCore w.die w.core fun co => { co with seq := co.seq + 1 }).modHalf w fun h =>
        { h with fences := h.fences ++ [⟨k, sc, seq⟩] })
    | .drain sc => ([], 0, s.modHalf w fun h => { h with drain := some ⟨.ar, sc, (s.coreOf w).seq⟩ })
    | .barrier i => let r := performBar s w c0 i; (r.1, 0, r.2)
    | .async sy ops => ([], 0, startAsync s w c0.task sy ops)
    | .series it => ([], 0, joinSeries s w.die it)

/-! ## Retirement -/

/-- EXIT of a context of a crew (13 R339, 11 R292): its banks stay with the crew under its member number; the last context ends
the task. -/
def exitCtx (s : Chip) (d c x : Nat) : Chip :=
  match s.ctx? d c x with
  | none => s
  | some k =>
    let s := s.modCore d c fun co =>
      let out := fun (y : Nat) => if y = x then 128 + k.member else y
      { co with
        crews := co.crews.modify k.task fun cr =>
          { cr with ctxs := cr.ctxs.filter (·.2 != x), exited := cr.exited ||| BitVec.ofNat 128 (2 ^ k.member) }
        banks := co.banks.map fun e => if e.2.crew = k.task then
          (e.1, { e.2 with owner := out e.2.owner, holders := e.2.holders.map out }) else e }
    let s := freeCtx s d c x true
    let s := match (s.core d c).crews.find? k.task with
      | some cr => if cr.ctxs.isEmpty then freeCrew (recordEnd s k.task stDone 0) d c cr true else s
      | none => s
    choosePoint s d c none

/-- EXIT of a half: in a split gang it ends that half only, and the context has exited when both have (06 R171). -/
def exitHalf (s : Chip) (w : HalfId) : Chip :=
  match s.ctxOf? w with
  | none => s
  | some c =>
    match c.spare with
    | none => exitCtx s w.die w.core w.ctx
    | some h =>
      let other := if w.spare then c.main.ended else h.ended
      if other then exitCtx s w.die w.core w.ctx else s.modHalf w fun h => { h with ended := true, pc := h.pc - 32 }

/-- The handler's landings of a half have all been written: the rest of RESUME (11 R282). Those not yet due are written as soon
as their data is there; poisoned data is taken as POISON. -/
def tryResume (s : Chip) (w : HalfId) : Chip :=
  match s.ctxOf? w with
  | none => s
  | some c =>
    match (c.half w.spare).resuming with
    | none => s
    | some m =>
      let mine := fun (l : Landing) => l.hnd && l.spare == w.spare && !l.dropped
      let ls := c.landings.filter mine
      if ls.any fun (l : Landing) => !l.hasData then s
      else
        let c := (ls.filter fun (l : Landing) => l.pois.isNone).foldl landWrite
          { c with landings := c.landings.filter fun (l : Landing) => !mine l }
        let s := s.setCtx w.die w.core w.ctx c
        match ls.findSome? (·.pois) with
        | some v => takeTrap s w ⟨0x0F, 0, v, 0, 0⟩ true (boundarySite s w (c.half w.spare))
        | none => resume s w m

/-- The M slot performs: scratchpads, accumulators, banks, the array. -/
def performM (s : Chip) (w : HalfId) (c0 : Ctx) (tile : Option (MIns × TileOut)) : Chip :=
  match tile with
  | none => s
  | some (_, t) => s.modCore w.die w.core fun co =>
      settleBanks { co with scratch := t.scratch, acc := t.acc, banks := t.banks
                            arrays := match t.latency with
                              | some l => co.arrays ++ [⟨w.ctx, w.spare, c0.task, l.map fun x => (x.1, s.now + x.2), t.flags, t.marks, t.touched⟩]
                              | none => co.arrays }

/-- The register writes of a bundle in slot order, the D slot's given. -/
def Issue.writes (st : Issue) (dws : List Wr) : List Wr :=
  st.outs.flatMap (·.2.wr) ++ (match st.tile with | some (_, t) => t.wr | none => []) ++ dws

/-- The flags that enter FSTAT as a bundle retires, the D slot's given. -/
def Issue.flags (st : Issue) (dfl : Flags) : Flags :=
  slotFlags st.outs ||| dfl ||| (match st.tile with | some (_, t) => tileFlags t | none => 0)

/-- Whether the M instruction touches a bank that is not allocated (ACSTAT, 07 R182, R184). -/
def Issue.unalloc (st : Issue) : Bool := match st.tile with | some (_, t) => t.unalloc | none => false

/-- A half as its bundle retires: flags, the landing count (R152), nothing held or left to re-issue. -/
def Half.retireOne (h : Half) (normal : Bool) (now : Nat) (flags : Flags) (unalloc wake : Bool) : Half :=
  let h := h.orFstat flags
  let h := { h with acstat := if unalloc then h.acstat ||| 1 else h.acstat, resid := none, hold := none, lastRetire := now
                    wake := if wake then none else h.wake }
  if normal then { h with count := h.count + 1 } else { h with hcount := h.hcount + 1 }

/-- The context's registers as its bundle retires. -/
def Ctx.retireOne (c : Ctx) (spare normal : Bool) (now : Nat) (ws : List Wr) (flags : Flags) (unalloc wake : Bool) : Ctx :=
  let c := applyWrs c spare ws
  { c.setHalf spare ((c.half spare).retireOne normal now flags unalloc wake) with lastRetire := now }

/-- The half's sequencer has issued in this cycle (R151). -/
def Core.used (co : Core) (spare : Bool) : Core := if spare then { co with usedSpare := true } else { co with usedMain := true }

/-- A retired bundle counts for its core's watchdog and its launch. -/
def countBundle (s : Chip) (w : HalfId) (task : Nat) : Chip :=
  (s.modCore w.die w.core fun co => { co.used w.spare with retired := true }).modLaunch (taskSlot task) fun l =>
    { l with bundles := l.bundles + 1 }

/-- An IFENCE holds the next bundle until the half's earlier stores have performed, then empties the instruction cache (13 R343);
the second part says whether the bundle may go on. -/
def settleIfence (s : Chip) (w : HalfId) : Bool × Chip :=
  match s.ctxOf? w with
  | none => (false, s)
  | some c =>
    match (c.half w.spare).ifence with
    | none => (true, s)
    | some seq =>
      if (s.coreOf w).path.any fun (e : PathEntry) => e.op.isStore && e.mine w c && decide (e.seq < seq) then (false, s)
      else
        (true, (s.modHalf w fun h => { h with ifence := none }).modCore w.die w.core fun co => { co with icache := [] })

/-- The IFENCEs of a core that wait for no store any more empty its instruction cache, whichever context issues next. -/
def settleIfences (s : Chip) (d c : Nat) : Chip :=
  (s.core d c).ctxs.foldl (fun s e => (settleIfence (settleIfence s ⟨d, c, e.1, false⟩).2 ⟨d, c, e.1, true⟩).2) s

/-- The effect of an S1-only instruction beyond the next bundle's address and the context. -/
def performCtl (s : Chip) (w : HalfId) (h0 : Half) (ctl : Option SIns) : Chip :=
  match ctl with
  | some (.sysw r a) => sysWrite s w r (opv h0 a)
  | some .ifence => (settleIfence (s.modHalf w fun h => { h with ifence := some (s.coreOf w).seq }) w).2
  | some (.resume m) => tryResume (s.modHalf w fun h => { h with resuming := some ((opv h0 m).setWidth 7) }) w
  | some .exit => exitHalf s w
  | _ => s

/-- The join of a split gang, then the yield of a Y bundle (R299), which yields where neither before nor after it the gang is
split. -/
def joinAndYield (s : Chip) (w : HalfId) (b : Bundle) (c0 : Ctx) : Chip :=
  let split : Bool := match s.ctxOf? w with | some c => c.spare.isSome | none => false
  let s : Chip := s.modCtx w.die w.core w.ctx fun c => joinIfDone c (s.coreOf w).seq
  let s : Chip := s.modCore w.die w.core fun co => { co with seq := co.seq + 1 }
  let gone : Bool := match s.ctxOf? w with | some c => c.task != c0.task | none => true
  if b.yields && !split && c0.spare.isNone && !gone && (s.coreOf w).running == some w.ctx then
    choosePoint s w.die w.core (some (c0.task, w.ctx))
  else s

/-- The bundle retires: every slot has been computed from the state before it; they write in slot order (R205), the counts
advance (R152), the control instruction decides the next bundle (R333), and Y yields (R299). -/
def retire (s : Chip) (w : HalfId) (b : Bundle) (c0 : Ctx) (st : Issue) (ans : Option Answer) (wake : Bool) : Chip :=
  let h0 := c0.half w.spare
  let s := s.modCtx w.die w.core w.ctx fun c => { c with f := clearWaited c.f h0 st.ctl }
  let (dws, dfl, s) := match st.d with
    | some (i, p) => performD (performM s w c0 st.tile) w c0 i p ans
    | none => ([], 0, performM s w c0 st.tile)
  let s := s.modCtx w.die w.core w.ctx fun c =>
    c.retireOne w.spare (h0.hm == 0) s.now (st.writes dws) (st.flags dfl) st.unalloc wake
  let s := (countBundle s w c0.task).modCtx w.die w.core w.ctx fun c => (controlOut c0 c w.spare h0.pc st.ctl).1
  joinAndYield (performCtl s w h0 st.ctl) w b c0

/-! ## The attempt of a bundle -/

/-- Boundary traps that wait for a half (R285, R296): POISON of an async operation, or WATCHDOG. A half that has arrived at the
join leaves its POISON to the other; while the other half's handler runs a half takes none (06 R168). A half that is blocked waits no
more. -/
def boundaryTrap (s : Chip) (w : HalfId) : Option Chip :=
  match s.ctxOf? w with
  | none => none
  | some c =>
    let h := c.half w.spare
    let other := match c.spare with
      | none => none
      | some sp =>
        let o := if w.spare then c.main else sp
        if o.arrived || o.ended then o.poison.map fun v => (v, !w.spare) else none
    let busy : Bool := match c.spare with | none => false | some sp => (if w.spare then c.main else sp).hm != 0
    if h.hold.isSome then none
    else if h.wdog then
      some (takeTrap (s.modHalf w fun h => { h with wdog := false }) w ⟨0x0D, 0, 0, 0, 0⟩ false (boundarySite s w h))
    else if busy then none
    else
      let go := fun (v : W64) (from_ : Bool) =>
        let s := s.modHalf ⟨w.die, w.core, w.ctx, from_⟩ fun h => { h with poison := none }
        let s := if h.block.isSome then unwait s w c else s
        takeTrap s w ⟨0x0F, 0, v, 0, 0⟩ true (boundarySite s w h)
      match h.poison, other with
      | some v, _ => some (go v w.spare)
      | none, some (v, sp) => some (go v sp)
      | none, none => none

/-- Landings due at the next bundle (R152, R155, R284): late ones freeze the core; the others are written; a poisoned one is
POISON. The second part says whether the bundle may go on. -/
def landDue (s : Chip) (w : HalfId) : Bool × Chip :=
  match s.ctxOf? w with
  | none => (false, s)
  | some c =>
    let h := c.half w.spare
    let due := c.landings.filter fun (l : Landing) => l.isDue h w.spare
    if due.isEmpty then (true, s)
    else if due.any fun (l : Landing) => !l.hasData then
      (false, s.modHalf w fun h => { h with frozenAt := some s.active })
    else
      let c := (due.filter fun (l : Landing) => l.pois.isNone).foldl landWrite
        { c with landings := c.landings.filter fun (l : Landing) => !l.isDue h w.spare }
      let s := s.setCtx w.die w.core w.ctx c
      match due.findSome? (·.pois) with
      | some v => (false, takeTrap s w ⟨0x0F, 0, v, 0, 0⟩ true (boundarySite s w (c.half w.spare)))
      | none => (true, s)

/-- DRAIN (08 R217) and IFENCE hold the next bundle; the second part says whether the bundle may go on. -/
def settleHolds (s : Chip) (w : HalfId) : Bool × Chip :=
  let s := settleFences s w
  match s.ctxOf? w with
  | none => (false, s)
  | some c =>
    match (c.half w.spare).drain with
    | some f =>
      if !drainDone s w c f then (false, s)
      else
        let s := s.modHalf w fun h => { h with drain := none }
        settleIfence (if fenceInval f.kind f.scope then clearL1 s w else s) w
    | none => settleIfence s w

/-- The syllables of a bundle that issue: those that RESUME left, and literals (11 R282). -/
def Bundle.effective (b : Bundle) (h : Half) : BitVec 7 := b.pres &&& (h.resid.getD 0x7F ||| b.lit)

/-- The instruction syllables of a bundle that issue, in ascending order. -/
def Bundle.issuing (b : Bundle) (eff : BitVec 7) : List Nat := (List.range 8).filter fun n => b.isIns n && eff.getLsbD (n - 1)

/-- Whether the bundle's D syllable is a waiting instruction. -/
def waitsAt (env : DecEnv) (syls : List Nat) : Bool :=
  syls.contains 7 && (match decodeSlot env 7 with | .ok (.d i) => isWaiting i | _ => false)

/-- The answer in the wake record, which the waiting instruction of a bundle takes (05 R119): in a handler, one that came for a wait of
the handler's own (11 R296). -/
def wakeTaken (h : Half) (env : DecEnv) (syls : List Nat) : Option Answer :=
  if (h.hm = 0 ∨ h.wakeHnd) ∧ waitsAt env syls ∧ (h.hold.bind (·.answer)).isNone then h.wake else none

/-- The request of a held or waiting instruction leaves, and the bundle is held for its answer. -/
def sendRequest (s : Chip) (w : HalfId) (c : Ctx) (b : Bundle) (touch : List (Nat × Bool)) (r : Req) : Chip :=
  let h := c.half w.spare
  let s := touchPages s w h.asid.toNat touch
  let s := match r with
    | .sync _ p _ _ _ | .spawn p _ | .plset p _ _ | .plget p _ _ | .badnum p => countReq s w.die w.core p
    | .atomic _ _ ls => countLines s w (ls.map fun (l : AtLane) => lineOf l.p).eraseDups
    | .adpin .. | .adunpin _ | .harvest => s
  let s := s.modHalf w fun h => { h with hold := some ⟨r, none, b⟩ }
  let item := fun (n : Nat) (op : SeriesOp) => joinSeries s w.die
    (newItem h.asid.toNat n ⟨w.die, w.core, w.ctx, w.spare, c.task, c.member, c.task⟩ op none)
  match r with
  | .plset _ n bs => item n (.plset bs)
  | .plget p n rrpv => item n (.plget p rrpv)
  | _ => s

/-- A bundle that is suppressed by a precise trap; its sequencer has issued it (R151). -/
def issueTrap (s : Chip) (w : HalfId) (e : Cause) (site : TrapSite) : Chip :=
  takeTrap (s.modCore w.die w.core fun co => co.used w.spare) w e false site

/-- A bundle whose syllables have no cause, is not held and raises no enabled flag: with an answer that traps it traps, with a
request to make it is held, else it retires. -/
def issueGo (s : Chip) (w : HalfId) (b : Bundle) (c : Ctx) (st : Issue) (ans : Option Answer) (woken : Bool) : Chip :=
  match ans with
  | some a =>
    if a.trap ≠ 0 then
      let va := match (c.half w.spare).hold with | some ⟨.sync _ _ va _ _, _, _⟩ => va | _ => 0
      issueTrap s w ⟨a.trap, 0, va, 7, 0⟩ ⟨b.word 7, 0, b.effective (c.half w.spare)⟩
    else retire s w b c st ans woken
  | none => match st.d with
    | some (_, ⟨touch, .request r⟩) => sendRequest s w c b touch r
    | _ => retire s w b c st none false

/-- A bundle whose syllables have no cause. -/
def issueOk (s : Chip) (w : HalfId) (b : Bundle) (c : Ctx) (st : Issue) (ans : Option Answer) (woken : Bool) : Chip :=
  if issueHeld s w c st then s
  else match fpTrap (c.half w.spare) st.outs with
    | some e => issueTrap s w e ⟨b.word e.slot, kregOf e.slot (b.word e.slot), b.effective (c.half w.spare)⟩
    | none => issueGo s w b c st ans woken

/-- The LEVEL of a task's launch, which gives supervisor mode at 7 (11 R280). -/
def launchLevel (s : Chip) (task : Nat) : Nat := match s.launchOf task with | some l => l.level | none => 0

/-- The causes, holds and retirement of a fetched bundle. Cause 0 is none: a claimed line holds the bundle. -/
def issueFetched (s : Chip) (w : HalfId) (b : Bundle) : Chip :=
  match s.ctxOf? w, (s.coreOf w).crews.find? ((s.ctxOf? w).getD .blank).task with
  | some c, some cr =>
    let h := c.half w.spare
    if b.badHeader then issueTrap s w ⟨2, 0, 0, 0, 0⟩ ⟨0, 0, b.effective h⟩
    else
      let env : DecEnv := ⟨b, c.budget, cr.bars.length, cr.nt⟩
      let syls := b.issuing (b.effective h)
      let woken := wakeTaken h env syls
      let ans := (h.hold.bind (·.answer)).orElse fun _ => woken
      match issueSyls s w env (h.supervisor (launchLevel s c.task)) ans syls ⟨c, [], [], none, none, none⟩ with
      | (.error .passOn, s) => passOn (s.modCore w.die w.core fun co => co.used w.spare) w
      | (.error (.cause e k), s) => if e.code = 0 then s else issueTrap s w e ⟨b.word e.slot, k, b.effective h⟩
      | (.ok st, s) => issueOk s w b c st ans woken.isSome
  | _, _ => s

/-- A half holds a bundle for an answer that has still to come (R119). -/
def Half.awaits (h : Half) : Bool := match h.hold with | some ⟨_, none, _⟩ => true | _ => false

/-- The other half's handler leaves a half its turn: none runs, or a handler of the half's own goes first, of a higher mode, or of the
same mode in the main half (R168; log 124). -/
def handlerTurn (c : Ctx) (w : HalfId) : Bool :=
  match c.spare with
  | none => true
  | some sp =>
    let mine := (c.half w.spare).hm
    let other := (if w.spare then c.main else sp).hm
    other == 0 || decide (other < mine) || (other == mine && !w.spare)

/-- A half may issue (R99, R119, R151, R155, R168): its context runs, nothing stops it or waits, its sequencer has not issued in this
cycle, nor the spare one before the main one, no core-wide freeze stands, and neither half awaits an answer. -/
def mayIssue (s : Chip) (w : HalfId) (c : Ctx) : Bool :=
  let co := s.coreOf w
  let h := c.half w.spare
  let killed := match s.launchOf c.task with | some l => l.killed | none => true
  (!w.spare || c.spare.isSome) && co.running == some w.ctx && decide (c.readyAt = 0) && !c.stopped && h.free &&
    !h.arrived && !h.ended && handlerTurn c w && !co.usedSpare && !(co.usedMain && !w.spare) &&
    (match co.crews.find? c.task with
     | some cr => h.hold.isSome || (!killed && !cr.saving && cr.moveTo.isNone)
     | none => false) &&
    !(co.ctxs.any fun e => e.2.main.frozenAt.isSome || (match e.2.spare with | some sp => sp.frozenAt.isSome | none => false)) &&
    !c.main.awaits && !(match c.spare with | some sp => sp.awaits | none => false)

/-- One attempt of a half to issue its next bundle. -/
def attemptBundle (s : Chip) (w : HalfId) : Chip :=
  match (s.ctxOf? w).bind fun c => (c.half w.spare).hold with
  | some hd => issueFetched s w hd.bundle
  | none =>
    let (go, s) := settleHolds s w
    if !go then s
    else
      let s := unspill s w.die w.core w.ctx
      if ((s.ctxOf? w).bind fun c => (c.half w.spare).resuming).isSome then tryResume s w
      else match boundaryTrap s w with
        | some s => s
        | none =>
          let (go, s) := landDue s w
          if !go then s
          else match s.ctxOf? w with
            | none => s
            | some c =>
              let h := c.half w.spare
              match fetchBundle s w.die w.core h.asid.toNat h.pc with
              | (.held, s) => s
              | (.trap e, s) => issueTrap s w e (.fetch h)
              | (.bytes bs, s) => issueFetched s w (bundleOfBytes bs)

/-- BUNDLE_ISSUE for a half: an idle core chooses first. -/
def issueBundle (s : Chip) (w : HalfId) : Chip :=
  let s := idleChoice s w.die w.core
  match s.ctxOf? w with
  | none => s
  | some c => if mayIssue s w c then attemptBundle s w else s

/-- The system register that the next bundle of a half writes, when it may issue. -/
def nextSysw (s : Chip) (w : HalfId) : Option Nat :=
  let s := idleChoice s w.die w.core
  match s.ctxOf? w with
  | none => none
  | some c =>
    let h := c.half w.spare
    if !mayIssue s w c then none
    else
      let b := match h.hold with
        | some hd => some hd.bundle
        | none => match (fetchBundle s w.die w.core h.asid.toNat h.pc).1 with
          | .bytes bs => some (bundleOfBytes bs)
          | _ => none
      b.bind fun b =>
        if !(b.isIns 2 && (b.effective h).getLsbD 1) then none
        else match decodeSlot ⟨b, c.budget, 32, 128⟩ 2 with
          | .ok (.s (.sysw r _)) => some r
          | _ => none

end Sys2Proof.Machine
end

