-- ==== Sys2Proof/Machine/CoreEvents.lean ====
section
/-! DEFINITION. What comes about in a core and its memory apart from the issue of bundles: data arriving for a landing, stores
performing, array instructions ending, boundary traps, the flush of gathered bits (06 R155, 07 R199, 08 R207, 11 R285, 15 R369). -/

namespace Sys2Proof.Machine
open Sys2Proof.Irnov

/-! ## LOAD_DATA_ARRIVAL -/

/-- End the freeze of a half once no landing that it waits for lacks data (R155). -/
def thaw (s : Chip) (w : HalfId) : Chip :=
  match s.ctxOf? w with
  | none => s
  | some c =>
    let h := c.half w.spare
    match h.frozenAt with
    | none => s
    | some t =>
      if c.landings.any fun (l : Landing) => l.isDue h w.spare && !l.hasData then s
      else (addFrozen s w.die w.core w.ctx (s.active - t)).modHalf w fun h => { h with frozenAt := none }

/-- A freeze of a context's halves is released by PREEMPT, by KILL, or by a move of its crew (R155). -/
def releaseFreeze (s : Chip) (d c x : Nat) : Chip :=
  match s.ctx? d c x with
  | none => s
  | some k =>
    (addFrozen s d c x (k.frozenFor s.active)).modCtx d c x Ctx.thawed

/-- The freezes of a core whose landings have come end. -/
def thawCore (s : Chip) (d c : Nat) : Chip :=
  (s.core d c).ctxs.foldl (fun s e => thaw (thaw s ⟨d, c, e.1, false⟩) ⟨d, c, e.1, true⟩) s

/-- The data of a load reaches its landing: of context x, or, with 128 added to it, of an ended context (06 R154), whose landing is
named by its place in the order of issue. -/
def loadDataArrival (s : Chip) (d c x id : Nat) : Chip :=
  if x ≥ 128 then arriveOrphan s d c (x - 128) id
  else
    let s := arriveData s d c x id
    thaw (thaw s ⟨d, c, x, false⟩) ⟨d, c, x, true⟩

/-! ## STORE_PERFORM -/

/-- The address space in which an entry's operation is served. -/
def PathEntry.serve (s : Chip) (e : PathEntry) : Nat := launchAsid s e.task e.asid

/-- Whether an entry of the store path may perform: what comes before it in the path on its bytes is gone, its lines are not
claimed, older loads of its context on its bytes have data, and of a release every earlier access, and every store that its context may
have observed, has performed. A prefetch waits for its claim alone. -/
def pathReady (s : Chip) (d c k : Nat) (e : PathEntry) : Bool :=
  let co := s.core d c
  let rs := pathRanges s (e.serve s) e.op
  let on := fun (r : Nat × Nat) => rs.any fun q => overlaps q r
  let mine := match s.ctx? d c e.ctx with | some x => if x.task = e.task then x.landings else [] | none => []
  let older := mine.filter fun (l : Landing) => decide (l.seq < e.seq)
  let rel := match e.op with | .sync kd _ _ _ _ => kd.releases | _ => false
  let before := fun (p : PathEntry) => !p.op.isPref && ((pathRanges s (p.serve s) p.op).any on ||
    (rel && ((p.ctx == e.ctx && p.task == e.task) || p.seen.contains e.ctx)))
  let held := fun (l : Nat) => s.claimedFor d c e.seq l || (!e.op.isPref && s.readClaimed l)
  !(rs.any fun r => (linesOf r.1 r.2).any held) &&
    (e.op.isPref || (!opWalkHeld s (e.serve s) e.op && !((co.path.take k).any before) &&
      !(older.any fun (l : Landing) => l.parts.any fun (q : LoadPart) => rel || on (q.p, q.bytes))))

/-- The entry's operation at its home slice. -/
def performPath (s : Chip) (d c : Nat) (e : PathEntry) : Chip :=
  match e.op with
  | .store p bs rrpv => (s.l2Access p rrpv).wrMem p bs
  | .atomic op width ls =>
    let (_, f, s) := atomicMem s op width false ls
    (addLaunchFlags s e.task f).modCore d c fun co => { co with l1 := l1Invalidate co.l1 (lineOf e.op.addr) }
  | .sync k p va v rrpv => (syncAt (s.l2Access p rrpv) k p va v ⟨⟨d, c, e.ctx, e.spare⟩, e.task, e.serve s⟩).2
  | .pref p rrpv fill =>
    let s := s.l2Access p rrpv
    if fill && (l1Find (s.core d c).l1 (lineOf p)).isNone then fillL1 s d c (lineOf p) else s

/-- STORE_PERFORM: the k-th entry of a core's store path performs; an IFENCE may have waited for it. -/
def storePerform (s : Chip) (d c k : Nat) : Chip :=
  match (s.core d c).path[k]? with
  | none => s
  | some e =>
    if !pathReady s d c k e then s
    else settleIfences (performPath (s.modCore d c fun co => { co with path := co.path.eraseIdx k }) d c e) d c

/-! ## Walks and gathered bits -/

/-- PAGE_WALK: the walker of a core's miss puts the translation into the TLBs; a page already there needs none (R196), and a claimed
table line holds it. -/
def pageWalk (s : Chip) (d c asid va : Nat) (fetch : Bool) : Chip :=
  let co := s.core d c
  let own := if fetch then co.itlb else co.dtlb
  if (tlbFind own asid va).isSome || walkHeld s d own asid va then s
  else (xlCore s d c (if fetch then .fetch else .load) asid va).2

/-- GATHERED_BITS_FLUSH: bits older than 2^20 cc (R199). -/
def gatheredFlush (s : Chip) : Chip := flushGathered s fun e => decide (e.since + 2 ^ 20 ≤ s.now)

/-! ## Array instructions, boundary traps -/

/-- A context with the flags of its array instructions among some in FSTAT (10 R268, R271; 15 R371). -/
def arrayFlags (rs : List ArrayRun) (x : Nat) (k : Ctx) : Ctx :=
  (rs.filter fun (r : ArrayRun) => r.ctx == x && r.task == k.task).foldl (fun (k : Ctx) (r : ArrayRun) =>
    k.setHalf (r.spare && k.spare.isSome) ((k.half (r.spare && k.spare.isSome)).orFstat r.flags)) k

/-- Loads that stood behind an array instruction's marks have their data once no array instruction marks anything (15 R370). -/
def unmark (s : Chip) (d c : Nat) : Chip :=
  if !(s.core d c).arrays.isEmpty then s
  else
    thawCore (s.modCore d c fun co => { co with ctxs := co.ctxs.map fun e =>
      (e.1, { e.2 with landings := e.2.landings.map fun (l : Landing) => { l with behind := false } }) }) d c

/-- ARRAY_INSTRUCTION_END: the k-th array instruction of a core has run its latency; its flags enter FSTAT (10 R268, R271), and what an
ended crew could not give back yet may be free (R371). -/
def arrayEnd (s : Chip) (d c k : Nat) : Chip :=
  match (s.core d c).arrays[k]? with
  | none => s
  | some r =>
    if s.now < r.endAt then s
    else
      let s := (s.modCore d c fun co => { co with arrays := co.arrays.eraseIdx k }).modCtx d c r.ctx (arrayFlags [r] r.ctx)
      unmark (settleLeft s d c) d c

/-- Take a waiting boundary trap of a context at once (R285): it is bound, no half is held for an answer or frozen, and KILL has not
stopped it (R297). A blocked half waits no more (R296). -/
def contextBoundary (s : Chip) (d c x : Nat) : Chip :=
  match s.ctx? d c x with
  | none => s
  | some k =>
    let ok : Half → Bool := fun (h : Half) => h.hold.isNone && h.frozenAt.isNone
    let killed : Bool := match s.launchOf k.task with | some l => l.killed | none => true
    if k.readyAt ≠ 0 ∨ killed then s
    else
      let try_ := fun (s : Chip) (sp : Bool) =>
        match s.ctx? d c x with
        | none => s
        | some k =>
          let h := k.half sp
          if (sp && k.spare.isNone) || !ok h || h.arrived || h.ended then s
          else (boundaryTrap s ⟨d, c, x, sp⟩).getD s
      idleChoice (try_ (try_ s false) true) d c

end Sys2Proof.Machine
end

