-- ==== Sys2Proof/Machine/Helping.lean ====
section
/-! DEFINITION. The task units' own work: asks for work and bindings (04 R97, R98), the end of a binding, ageing, the chain walk
and adoption (05 R122 to R130), retry timers, end notices (R132), node timers (R115), pre-emption's saves (04 R101). -/

namespace Sys2Proof.Machine
open Sys2Proof.Irnov

/-! ## Asks for work (R97, R98) -/

/-- What a crew takes from a core at a level and place of its queue. -/
structure Take where
  level : Nat
  place : Nat
  entry : QEnt
  res : Reserved
deriving DecidableEq, Repr

/-- The task of an entry. -/
def QEnt.task (e : QEnt) : Nat := if e.cursor then taskId e.who (e.todo.headD 0) else e.who

/-- The entry that a core finds (R97 steps 1 and 4): its level and place. -/
def findEntry (s : Chip) (d c : Nat) : Option (Nat × Nat × QEnt) :=
  let ok := fun (e : QEnt) => match s.launches.find? (if e.cursor then e.who else taskSlot e.who) with
    | some l => l.cmask.testBit c && !(e.cursor && l.held) && !l.killed
    | none => false
  [7, 6, 5, 4, 3, 2, 1, 0].findSome? fun lv =>
    let q := (s.die d).queues.getD lv []
    (q.findIdx? ok).bind fun k => (q[k]?).map fun e => (lv, k, e)

/-- What a core would take (R97 steps 2 and 3): the entry's crew fits, with the banks of a saved image. -/
def takeFor (s : Chip) (d c : Nat) : Option Take :=
  match findEntry s d c with
  | none => none
  | some (lv, k, e) =>
    match s.launchOf e.task with
    | none => none
    | some l =>
      let fit := if (s.recRd e.task 0).getLsbD 57 then
          (savedNeeds s d l e.task).1.bind fun sv => pickRes s d c l e.task (sv.members.map (·.2)) sv.banks
        else pickRes s d c l e.task l.members []
      fit.map fun r => ⟨lv, k, e, r⟩

/-- A claim holds what the taking of an entry's task reads: its record, and its image (08 R222). -/
def takeHeld (s : Chip) (d task : Nat) : Bool :=
  s.recHeld task || (match s.launchOf task with
    | some l => (s.recRd task 0).getLsbD 57 && savedHeld s d l task
    | none => false)

/-- Remove an entry from its queue, or the lowest remaining task of a cursor, whose wait restarts (R94, R96). -/
def dequeue (s : Chip) (d lv k : Nat) (e : QEnt) : Chip :=
  let q := (s.die d).queues.getD lv []
  if e.cursor ∧ e.todo.length > 1 then
    s.setQueue d lv (q.modify k fun (x : QEnt) => { x with todo := x.todo.drop 1, since := s.now })
  else s.setQueue d lv (q.eraseIdx k)

/-- The record of a task bound on a core (R90, R91): STATE, DIE, CORE, CTX. -/
def recordBound (s : Chip) (task st d c x : Nat) : Chip :=
  s.recMod0 task fun w => w64Put (w64Put (w64Put (w64Put w 61 3 st) 50 3 d) 46 4 c) 39 7 x

/-- Bind a crew on a core with what has been picked for it, from its image when its record says SAVED; the die's bind slot is used. -/
def bindCrew (s : Chip) (d c : Nat) (l : Launch) (host : Nat) (saving saved : Bool) (r : Reserved) : Chip :=
  let s := s.modDie d fun y => { y with slotUsed := true }
  if saved then bindSaved s d c l host saving r else bindFresh s d c l host saving r

/-- The bind slot of this cycle is used, or an adoption is pending, which comes before every ask (R98). -/
def slotTaken (s : Chip) (d : Nat) : Bool := (s.die d).slotUsed || !(s.die d).adopting.isEmpty

/-- A core that asks would be served. -/
def askServed (s : Chip) (d c : Nat) : Bool := !(freeCtxs (s.core d c)).isEmpty && (takeFor s d c).isSome

/-- CORE_WORK_ASK of a core: no adoption waits for the slot, no core ahead of it in rotating order would be served, and the
entry's crew fits. -/
def coreWorkAsk (s : Chip) (d c : Nat) : Chip :=
  let last := (s.die d).lastAsk
  let ahead := ((List.range Config.cores).map fun k => (last + 1 + k) % Config.cores).takeWhile (· != c)
  if slotTaken s d ∨ (freeCtxs (s.core d c)).isEmpty ∨ ahead.any (askServed s d) then s
  else match takeFor s d c with
    | none => s
    | some t =>
      let task := t.entry.task
      match s.launchOf task with
      | none => s
      | some l =>
        if takeHeld s d task then s
        else
          let w := s.recRd task 0
          let s := ((dequeue s d t.level t.place t.entry).modDie d fun y => { y with lastAsk := c }).recRead task
          if recState w ≥ 5 then s.countEnded task (recState w)
          else if recState w ≠ stReady then s
          else
            let s := if t.entry.cursor then
                (s.recMod0 task fun w => w64Put w 53 3 t.level).recWr task 0x30 (BitVec.ofNat 64 t.entry.enq)
              else s
            bindCrew (recordBound s task stParked d c (t.res.ctxs.headD 0)) d c l 0 false (w.getLsbD 57) t.res

/-- CREW_BINDING_COMPLETE: the crew's contexts may issue from the sixteenth cycle (R91). -/
def bindingComplete (s : Chip) (d c task : Nat) : Chip :=
  match (s.core d c).crews.find? task with
  | none => s
  | some cr =>
    let s := cr.ctxs.foldl (fun s p => s.modCtx d c p.2 fun k => if k.readyAt ≤ s.now then { k with readyAt := 0 } else k) s
    idleChoice s d c

/-! ## The chain walk (R121 to R128) -/

/-- End the wait of a half without an answer, and its walk: its deferral is cancelled. -/
def cancelWait (s : Chip) (w : HalfId) : Chip :=
  satisfyWait ((dropDeferrals s w).modHalf w (·.parked s.now)) w none

/-- The adoptions of the package that wait for a bind slot. -/
def adoptPending (s : Chip) (id : Nat) : Bool := s.dies.any fun e => e.2.adopting.any fun (p : PendAdopt) => p.task == id

/-- adoptable(r, w) of R122 but for the claim: where the task would come from. A crew that another adoption is still to bring is not
there to be claimed. -/
def adoptable (s : Chip) (d c : Nat) (id : Nat) (rec : W64) : Bool :=
  let st := recState rec
  !rec.getLsbD 58 && !adoptPending s id &&
    (st == stUnstarted || (st == stParked && ((s.core d c).crews.has id || rec.getLsbD 60)))

/-- fits(r, core(w)) of R122, and what it reserves: nothing for a crew that is already on the core. -/
def adoptFits (s : Chip) (d c : Nat) (id : Nat) (st : Nat) : Option (Option Reserved) :=
  match s.launchOf id with
  | none => none
  | some l =>
    if st = stUnstarted then (pickRes s d c l id l.members []).map some
    else if (s.core d c).crews.has id then some none
    else match s.findCrew id with
      | none => none
      | some (d0, c0, cr) =>
        let ms := ((List.range l.nt).zip l.members).filter fun m => cr.ctxs.any (·.1 == m.1)
        (pickRes s d c l id (ms.map (·.2)) ((crewBanks (s.core d0 c0) id).map (·.1))).map some

/-- A half of the context is held for an answer. -/
def holds (s : Chip) (d c x : Nat) : Bool :=
  match s.ctx? d c x with
  | some k => k.main.hold.isSome || (match k.spare with | some h => h.hold.isSome | none => false)
  | none => false

/-- An adoption waits for the bind slot: in the order of the claims, the lower core first (R98). What its crew takes stays reserved
(R122). -/
def pendAdopt (s : Chip) (w : HalfId) (id : Nat) (from_ : Option (Nat × Nat)) (saving : Bool) (r : Reserved) : Chip :=
  (s.modDie w.die fun y => { y with
      adopting := sortBy (fun (p : PendAdopt) => 16 * p.since + p.core) (y.adopting ++ [⟨s.now, w.core, w.ctx, id, from_, saving⟩]) }).modCore
    w.die w.core fun co => { co with reserved := co.reserved ++ [r] }

/-- ENTRY0 of a task goes to the die of its claim (17 R429). -/
def moveEntry0 (s : Chip) (d id : Nat) : Chip :=
  let e0 := (List.range Config.dies).findSome? fun k => (s.die k).entry0.find? id
  let s := (List.range Config.dies).foldl (fun (s : Chip) k => s.modDie k fun y => { y with entry0 := y.entry0.del id }) s
  match e0 with
  | some e => s.modDie d fun y => { y with entry0 := y.entry0.put id e }
  | none => s

/-- The claim succeeds (R124, R125): the record names the helper's core, HOST the waiter's task, an entry is pushed (R129), and the task
is brought here. -/
def adoptTask (s : Chip) (w : HalfId) (task id st : Nat) (fit : Option Reserved) : Chip :=
  let d := w.die
  let c := w.core
  let here := (s.core d c).crews.find? id
  let x := match here, fit with | some cr, _ => cr.lowest | none, some r => r.ctxs.headD 0 | none, none => 0
  let from_ := if st = stUnstarted ∨ here.isSome then none else (s.findCrew id).map fun y => (y.1, y.2.1)
  let s := recordBound s id stRunning d c x
  let s := s.recWr id 8 (w64Put (s.recRd id 8) 0 32 task)
  let s := s.modLaunch (taskSlot task) fun l => { l with adoptions := l.adoptions + 1 }
  let s := s.modCore d c fun co => { co with adopt := ⟨w.ctx, x, from_.isSome, id, true, here.isNone⟩ :: co.adopt }
  match fit with
  | none => s.modCore d c fun co => { co with crews := co.crews.modify id fun x => { x with host := task } }
  | some r =>
    match from_ with
    | none => pendAdopt (moveEntry0 s d id) w id none false r
    | some (d0, c0) =>
      match (s.core d0 c0).crews.find? id with
      | none => s
      | some cr =>
        let s := s.modCore d0 c0 fun co => { co with crews := co.crews.modify id fun x => { x with moveTo := some (d, c), host := task } }
        let s := cr.ctxs.foldl (fun s p => releaseFreeze s d0 c0 p.2) s
        -- the old core stops choosing it
        let s := match (s.core d0 c0).running with
          | some y => if cr.ctxs.any (·.2 == y) && !(holds s d0 c0 y) then choosePoint s d0 c0 none else s
          | none => s
        pendAdopt s w id (some (d0, c0)) cr.saving r

/-- walk of R122 from one depth on. A record or an object at a claimed line holds the walk, which then reads it afresh (08 R222). -/
def walkChain (s0 s : Chip) (w : HalfId) (k : Ctx) (b : Block) : Nat → Nat → Nat → Chip
  | 0, _, _ => park s w
  | fuel + 1, depth, id =>
    let asid := launchAsid s k.task 0
    if s.recHeld id ∨ (depth = 1 ∧ s.storeHeld (lineOf b.p)) then s0
    else if s.taskEnded id then
      park (if depth = 1 then resolveEnded (s.recRead id) b.kind b.p b.va asid id else s.recRead id) w
    else if id = k.task then
      if b.done then park s w
      else takeTrap (cancelWait s w) w ⟨0x09, 0, b.va, 7, 0⟩ false ⟨b.word, 0, b.resid⟩
    else
      let s := s.recRead id
      if launchAsid s id asid ≠ asid then park s w
      else
        let r := s.recRd id 0
        let link := w64Get (s.recRd id 8) 32 32
        if recState r = stWaiting ∧ link ≠ 0 then walkChain s0 s w k b fuel (depth + 1) link
        else
          let fit := if adoptable s w.die w.core id r && decide ((s.core w.die w.core).adopt.length < 8) then
              adoptFits s w.die w.core id (recState r) else none
          match fit with
          | some f => park (adoptTask s w k.task id (recState r) f) w
          | none => park (if recState r = stRunning ∨ recState r = stParked then boost s id else s) w

/-- CHAIN_WALK of a blocked context. -/
def chainWalk (s : Chip) (d c x : Nat) : Chip :=
  match s.ctx? d c x with
  | none => s
  | some k =>
    match k.main.block with
    | none => s
    | some b =>
      let w : HalfId := ⟨d, c, x, false⟩
      if !b.walk then s
      else if b.owner = 0 then park s w
      else walkChain s s w k b 8 1 b.owner

/-! ## Adoptions bound and moved (R98, R125) -/

/-- An adoption waits no more for the slot, and what it reserved is free. -/
def dropPend (s : Chip) (d : Nat) (p : PendAdopt) : Chip :=
  (s.modDie d fun y => { y with adopting := y.adopting.erase p }).modCore d p.core fun co =>
    { co with reserved := co.reserved.filter fun (r : Reserved) => r.task != p.task }

/-- What an adoption has reserved. -/
def PendAdopt.res (s : Chip) (d : Nat) (p : PendAdopt) : Reserved :=
  ((s.core d p.core).reserved.find? fun (r : Reserved) => r.task == p.task).getD ⟨p.task, [], 0, 0, 0, [], []⟩

/-- An adopted crew is on the helper's core: its entry is no longer pending (R126). -/
def adoptArrived (s : Chip) (d : Nat) (p : PendAdopt) : Chip :=
  s.modCore d p.core fun co => { co with adopt := co.adopt.map fun (e : AdoptEntry) => if e.task = p.task then { e with pending := false } else e }

/-- The task of an adoption has ended before its crew was bound: its entry is popped with every entry above it (R130). -/
def adoptLapsed (s : Chip) (d : Nat) (p : PendAdopt) : Chip :=
  popAdoptTo (dropPend s d p) d p.core fun (e : AdoptEntry) => e.task == p.task

/-- An adopted UNSTARTED task is bound on the helper's core (R91, R92, R125). -/
def bindAdopted (s : Chip) (d : Nat) (p : PendAdopt) : Chip :=
  match s.launchOf p.task with
  | none => adoptLapsed s d p
  | some l =>
    if s.taskEnded p.task then adoptLapsed s d p
    else
      let r := p.res s d
      adoptArrived (bindCrew (dropPend s d p) d p.core l (w64Get (s.recRd p.task 8) 0 32) p.saving ((s.recRd p.task 0).getLsbD 57) r) d p

/-- A crew can be saved (R101, R286): its binding has ended, its halves stand at bundle boundaries with no answer awaited, its
loads have data, its stores have performed, and its async operations and conversions have completed. -/
def crewQuiet (s : Chip) (d c : Nat) (cr : Crew) (ops : Nat → Bool) : Bool :=
  let quiet := fun (h : Half) => h.hold.isNone && h.frozenAt.isNone
  (cr.ctxs.all fun p => match s.ctx? d c p.2 with
    | some k => decide (k.readyAt = 0) && quiet k.main && (match k.spare with | some h => quiet h | none => true) &&
        k.landings.all fun (l : Landing) => l.hasData
    | none => true) &&
  !((s.core d c).path.any fun (e : PathEntry) => e.task == cr.task) &&
  !((s.core d c).arrays.any fun (r : ArrayRun) => r.task == cr.task) &&
  !(s.asyncs.any fun (a : Async) => ops a.who.task) &&
  !((List.range Config.dies).any fun dd => (s.die dd).series.any fun (i : SeriesItem) => ops i.who.task)

/-- Boundary traps that wait in a crew's contexts are taken before it is saved (R285). -/
def crewBoundary (s : Chip) (d c : Nat) (cr : Crew) : Chip := cr.ctxs.foldl (fun s p => contextBoundary s d c p.2) s

/-- An adopted crew of another core has come to rest there, unless KILL ends it, or is gone. -/
def moveReady (s : Chip) (p : PendAdopt) : Bool :=
  match p.moveFrom with
  | some (d0, c0) => match (s.core d0 c0).crews.find? p.task with
    | some cr => crewQuiet s d0 c0 cr (· == p.task) && (match s.launchOf p.task with | some l => !l.killed | none => false)
    | none => true
  | none => false

/-- A crew at rest is saved on its old core and bound on the helper's (R104, R125). -/
def moveCrew (s : Chip) (d d0 c0 : Nat) (p : PendAdopt) (l : Launch) (cr : Crew) : Chip :=
  let s := crewBoundary s d0 c0 cr
  let host := w64Get (s.recRd p.task 8) 0 32
  let st := recState (s.recRd p.task 0)
  let r := p.res s d
  let s := saveCrew s d0 c0 p.task false false
  if s.taskEnded p.task then adoptLapsed s d p
  else
    -- popping the crew's own entry on the old core does not touch the claim
    let saved := (s.recRd p.task 0).getLsbD 57
    let s := (dropPend s d p).recSetState p.task st
    let s := s.recWr p.task 8 (w64Put (s.recRd p.task 8) 0 32 host)
    let s := recordBound s p.task st d p.core (r.ctxs.headD 0)
    adoptArrived (bindCrew s d p.core l host p.saving saved r) d p

/-- The move of an adopted crew. -/
def moveAdopted (s : Chip) (d : Nat) (p : PendAdopt) : Chip :=
  match p.moveFrom, s.launchOf p.task with
  | some (d0, c0), some l =>
    match (s.core d0 c0).crews.find? p.task with
    | none => adoptLapsed s d p
    | some cr => moveCrew s d d0 c0 p l cr
  | _, _ => adoptLapsed s d p

/-- The adoption that takes a die's bind slot: of those that can be bound now the oldest (R98; log 125). -/
def slotAdoption (s : Chip) (d : Nat) : Option PendAdopt :=
  if (s.die d).slotUsed then none else (s.die d).adopting.find? fun (p : PendAdopt) => p.moveFrom.isNone || moveReady s p

/-- ADOPTED_CREW_BIND: the die's bind slot goes to the adoption of an UNSTARTED task when it is the first in turn (R98). -/
def adoptedCrewBind (s : Chip) (d : Nat) : Chip :=
  match slotAdoption s d with
  | some p => if p.moveFrom.isNone then bindAdopted s d p else s
  | none => s

/-- CREW_MIGRATION: an adopted crew whose old core has come to rest is saved there and bound on the helper's core, when it is the first in
turn. -/
def crewMigration (s : Chip) (d : Nat) : Chip :=
  match slotAdoption s d with
  | some p => if p.moveFrom.isSome then moveAdopted s d p else s
  | none => s

/-! ## Timers and notices -/

/-- NACK_RETRY_EXPIRY of a half (R128): the wait is satisfied, and the waiting bundle issues again. -/
def nackRetry (s : Chip) (w : HalfId) : Chip :=
  match s.ctxOf? w with
  | none => s
  | some k =>
    if w.spare && k.spare.isNone then s
    else match (k.half w.spare).retryAt with
      | some t => if t ≤ s.now then satisfyWait s w none else s
      | none => s

/-- Every memory effect of a task has performed: no store of it, or made for it, is held, no async operation or conversion of it runs. -/
def taskQuiet (s : Chip) (task : Nat) : Bool :=
  !(s.held.any fun (h : HeldStore) => h.task == task) &&
  !(s.cores.any fun e => e.2.path.any fun (p : PathEntry) => p.task == task) &&
  !(s.asyncs.any fun (a : Async) => a.who.task == task) &&
  !((List.range Config.dies).any fun d => (s.die d).series.any fun (i : SeriesItem) => i.who.task == task)

/-- END_NOTICE: a slice processes the end notice of a task (R132). -/
def endNotice (s : Chip) (d slice task : Nat) : Chip :=
  match s.launches.find? (taskSlot task) with
  | none => s
  | some l =>
    let ds := (s.die d).deferrals.filter fun (f : Deferral) => f.slice == slice
    if !(l.notices.contains (32 * d + slice, task)) || !taskQuiet s task || ds.any fun (f : Deferral) => s.storeHeld (lineOf f.p) then s
    else
      let s := ds.foldl (fun s (f : Deferral) => resolveEnded s f.kind f.p f.va f.asid task) s
      s.modLaunch (taskSlot task) fun l => { l with notices := l.notices.erase (32 * d + slice, task) }

/-- NODE_FLUSH_TIMER of a queue at a slice (R115, R116): a node is spawned for the records that wait. -/
def nodeFlush (s : Chip) (d slice p : Nat) : Chip :=
  match timerOf (s.die d) slice p with
  | none => s
  | some t =>
    if t.waiting ∨ s.now < t.fireAt ∨ s.storeHeld (lineOf p) then s
    else nodeCheck (disarm s p) p t.va t.asid (nodeCount s p t.asid) true

/-! ## Pre-emption's saves (R101) -/

/-- A launch's PREEMPT of MODE 0 or 1 saves one crew. -/
def crewSave (s : Chip) (task : Nat) : Chip :=
  match s.launchOf task, s.findCrew task with
  | some l, some (d, c, cr) =>
    match l.preempting with
    | none => s
    | some held =>
      if cr.moveTo.isSome || !cr.saving || !crewQuiet s d c cr (fun t => taskSlot t == taskSlot task) then s
      else
        let s := crewBoundary s d c cr
        idleChoice (saveCrew s d c task held true) d c
  | _, _ => s

end Sys2Proof.Machine
end

