-- ==== Sys2Proof/Syntax/Types.lean ====
section
/-! DEFINITION. Operand types of the steps: a received Ethernet frame, the outcome of a boot phase, background work on
a stack. -/

namespace Sys2Proof

/-- A frame as a port's MAC receives it: the port, whether the FCS is good, and the bytes from the destination address to
the end of the payload (the four FCS bytes are not listed) (02 R31). -/
structure RxFrame where
  port : Nat
  fcsOk : Bool
  bytes : List Byte
deriving DecidableEq, Repr

/-- How calibration and training ended when a boot phase completes (01 R19, 03 R75). In phases 1 and 3 it is not read. -/
inductive BootOutcome where
  /-- Everything calibrated and trained. -/
  | ok
  /-- The stack failed calibration: FAIL 4. -/
  | stackFailed (stack : Nat)
  /-- The die-to-die link at this port failed training three times: FAIL 5. -/
  | dieLinkFailed (die port : Nat)
  /-- The die's link to the I/O die failed training three times: FAIL 6. -/
  | ioLinkFailed (die : Nat)
deriving DecidableEq, Repr

/-- The refresh of a row's neighbours: the activations that the row has had since its last refresh, and the bank-cycles that the
work takes (01 R20, R23). -/
structure RowWork where
  acts : Nat
  cost : Nat
deriving DecidableEq, Repr

/-- A calibration: the stack's pseudo-channel, and the cycles that it takes (01 R25). -/
structure CalWork where
  channel : Nat
  cost : Nat
deriving DecidableEq, Repr

end Sys2Proof
end

