-- ==== Sys2Proof/Syntax.lean ====
section
/-! DEFINITION. The steps of the part: one constructor for each row of spec/opcode_table.json, in the table's order.
Operands name the agent that acts (die, core, context, half, port, queue, stack) or carry what comes from outside (a frame,
a written word, a sensor reading). h = 1 names the spare half of a split gang, h = 0 the main half. -/

namespace Sys2Proof

/-- One step of the part (spec/opcode_table.json). -/
inductive Instr where
  /-- R19. -/
  | perstRelease
  | perstAssert
  | bootPhaseComplete (o : BootOutcome)
  /-- R77. -/
  | frzRequest
  /-- R17. -/
  | thermalTrip
  /-- R11; port 4 is the link to the I/O die. -/
  | linkFlitCrcError (d port : Nat)
  | linkRetrainFailure (d port : Nat)
  | ethernetLinkUp (p : Nat)
  | ethernetLinkDown (p : Nat)
  /-- R16: hottest junction and DRAM die in 1/16 degree, average power in W. -/
  | throttleStep (tj dram watts : Nat)
  /-- R26: base die and DRAM temperatures of each stack in 1/16 degree, base of stack 0 first. -/
  | recordRefresh (temps : List Byte)
  /-- R23: stack, the temperature of its hottest DRAM die in 1/16 degree, bank-cycles spent. -/
  | refresh (k dram cost : Nat)
  /-- R23: stack, activations of a row within one refresh period, bank-cycles spent. -/
  | rowDisturbRefresh (k : Nat) (w : RowWork)
  /-- R22: stack, error found (0 none, 1 correctable, 2 uncorrectable), bank-cycles spent. -/
  | patrolScrub (k err cost : Nat)
  /-- R24: stack, bank, row, bank-cycles spent. -/
  | spareRowRemap (k bank row cost : Nat)
  /-- R25: stack, pseudo-channel, cycles taken. -/
  | interfaceCalibration (k : Nat) (w : CalWork)
  /-- R199. -/
  | gatheredBitsFlush
  | frameDropped (f : RxFrame)
  | pfcFrame (f : RxFrame)
  | mread (f : RxFrame)
  | mwrite (f : RxFrame)
  | mreplyReceived (f : RxFrame)
  /-- R41: the value written to EPOCH of port 0. -/
  | epochWrite (v : Nat)
  /-- R55: queue and the word written at offset 0 of its record. -/
  | queueDisable (q w : Nat)
  /-- R68: ring and the word written at offset 0 of its record. -/
  | ringEnable (n w : Nat)
  | ringDisable (n w : Nat)
  /-- R74: FL_ADDR of the write. -/
  | flashErase (a : Nat)
  | flashProgram (a : Nat)
  | flashNoOp (w : Nat)
  | flashOpComplete
  | stagingBufferWrite (bytes : List Byte)
  /-- R377. -/
  | adapterForceEvict (d n : Nat)
  | jtagBypass
  | jtagIdcode
  | jtagSamplePreload
  | jtagExtest
  | jtagRoselect (w : Nat)
  | jtagRodata
  | vorbyCmd (f : RxFrame)
  | vorbyRead (f : RxFrame)
  | vorbyWrite (f : RxFrame)
  | vorbyAtomic (f : RxFrame)
  | vorbyReply (f : RxFrame)
  | vorbyNack (f : RxFrame)
  | vorbyEvent (f : RxFrame)
  | vorbyPcopy (f : RxFrame)
  | vorbyPlpull (f : RxFrame)
  | vorbyAck (f : RxFrame)
  /-- R38: source rank and stream. -/
  | ackTimer (rank stream : Nat)
  /-- R39: destination rank, stream and PSN. -/
  | rtoExpiry (rank stream psn : Nat)
  | cmdNop
  | cmdRead
  | cmdWrite
  | cmdLaunch
  | cmdPreemptMode0
  | cmdPreemptMode1
  | cmdPreemptMode2
  | cmdPreemptMode3
  | cmdKill
  | cmdTlbinv
  | cmdHarvest
  | cmdPlace
  | cmdSignalFput
  | cmdSignalDcdec
  | cmdWaitevent
  | waiteventPoll (q : Nat)
  | cmdAttest
  | cmdFwload
  | cmdFreeze
  /-- R67: launch slot. -/
  | completionRecordWrite (slot : Nat)
  | eventTimerExpiry (n : Nat)
  | coreWorkAsk (d c : Nat)
  /-- R91: the task whose crew's binding ends. -/
  | crewBindingComplete (d c task : Nat)
  | ageingRise (d : Nat)
  | crewSave (task : Nat)
  | watchdogFire (d c : Nat)
  | chainWalk (d c x : Nat)
  | adoptedCrewBind (d : Nat)
  | crewMigration (d : Nat)
  | nackRetryExpiry (d c x h : Nat)
  /-- R132: die and slice, ended task. -/
  | endNotice (d slice task : Nat)
  /-- R115: die, slice and the header's physical address. -/
  | nodeFlushTimer (d slice p : Nat)
  | waitingAnswerArrival (d c h : Nat)
  | heldAnswerArrival (d c h : Nat)
  /-- R155: context and the number of the open landing, or (R154) 128 + an ended context and the landing's place in the order of issue; R21: errors that the granules read show, in order (0 none, 1 correctable, 2
  uncorrectable). -/
  | loadDataArrival (d c x id : Nat) (errs : List Byte)
  /-- R204: the place of the store in the core's store path; R21: errors that its granules show. -/
  | storePerform (d c k : Nat) (errs : List Byte)
  /-- R195: a miss of the core for a page of an address space; fetch 1 for the fetch TLB. -/
  | pageWalk (d c asid va fetch : Nat)
  /-- R225: the number of the async operation. -/
  | asyncCompletion (id : Nat)
  | asyncPoisonTrap (d c x : Nat)
  /-- R371: the place of the array instruction among those running on the core. -/
  | arrayInstructionEnd (d c k : Nat)
  | conversionStep (d id : Nat)
  | bundleIssue (d c h : Nat)
  | srseedWrite (d c h : Nat)
  | ptbaseWrite (d c h : Nat)
  | defaultVectorWrite (d c h : Nat)
  | wdogWrite (d c h : Nat)
  | pfcPauseExpiry (p prio : Nat)
  /-- R222: async operation and the physical line number (P div 128). -/
  | claimedLineWrite (id line : Nat)
deriving DecidableEq, Repr

end Sys2Proof
end

