-- ==== Sys2Proof/WellFormed.lean ====
section
/-! DEFINITION. Which steps are well formed: every operand names something that the part has (00 R1, 01 R6 to R8, 02 R35,
R49, 03 R54, R68, 04 R86, R91). -/

namespace Sys2Proof

/-- A frame of some port, of at most 65,535 bytes. -/
def RxFrame.wf (f : RxFrame) : Bool := decide (f.port < 2) && decide (f.bytes.length < 65536)

def BootOutcome.wf : BootOutcome → Bool
  | .ok => true
  | .stackFailed k => decide (k < 16)
  | .dieLinkFailed d p => decide (d < 8) && decide (p < 4)
  | .ioLinkFailed d => decide (d < 8)

/-- A core of a die. -/
def coreWf (d c : Nat) : Bool := decide (d < 8) && decide (c < 16)
def ctxWf (d c x : Nat) : Bool := coreWf d c && decide (x < 128)
def halfWf (d c h : Nat) : Bool := coreWf d c && decide (h < 2)

/-- Errors of the granules of one access: at most one granule for each of 256 lanes. -/
def errsWf (errs : List Byte) : Bool := decide (errs.length ≤ 256) && errs.all fun e => decide (e.toNat < 3)

/-- Well-formed steps. -/
def Instr.wf : Instr → Bool
  | .perstRelease => true
  | .perstAssert => true
  | .bootPhaseComplete o => o.wf
  | .frzRequest => true
  | .thermalTrip => true
  | .linkFlitCrcError d p => decide (d < 8) && decide (p < 5)
  | .linkRetrainFailure d p => decide (d < 8) && decide (p < 5)
  | .ethernetLinkUp p => decide (p < 2)
  | .ethernetLinkDown p => decide (p < 2)
  | .throttleStep tj dram w => decide (tj < 2 ^ 13) && decide (dram < 2 ^ 32) && decide (w < 2 ^ 12)
  | .recordRefresh t => decide (t.length = 128)
  | .refresh k dram cost => decide (k < 16) && decide (dram < 2 ^ 32) && decide (cost < 2 ^ 32)
  | .rowDisturbRefresh k w => decide (k < 16) && decide (w.acts < 2 ^ 32) && decide (w.cost < 2 ^ 32)
  | .patrolScrub k err cost => decide (k < 16) && decide (err < 3) && decide (cost < 2 ^ 32)
  | .spareRowRemap k bank row cost =>
    decide (k < 16) && decide (bank < 2 ^ 16) && decide (row < 2 ^ 32) && decide (cost < 2 ^ 32)
  | .interfaceCalibration k w => decide (k < 16) && decide (w.channel < 2 ^ 16) && decide (w.cost ≤ 800)
  | .gatheredBitsFlush => true
  | .frameDropped f => f.wf
  | .pfcFrame f => f.wf
  | .mread f => f.wf
  | .mwrite f => f.wf
  | .mreplyReceived f => f.wf
  | .epochWrite v => decide (v < 2 ^ 16)
  | .queueDisable q w => decide (q < 64) && decide (w < 2 ^ 64)
  | .ringEnable n w => decide (n < 64) && decide (w < 2 ^ 64)
  | .ringDisable n w => decide (n < 64) && decide (w < 2 ^ 64)
  | .flashErase a => decide (a < 2 ^ 32)
  | .flashProgram a => decide (a < 2 ^ 32)
  | .flashNoOp w => decide (w < 2 ^ 64)
  | .flashOpComplete => true
  | .stagingBufferWrite b => decide (b.length ≤ 1024)
  | .adapterForceEvict d n => decide (d < 8) && decide (n < 1024)
  | .jtagBypass => true
  | .jtagIdcode => true
  | .jtagSamplePreload => true
  | .jtagExtest => true
  | .jtagRoselect w => decide (w < 2 ^ 64)
  | .jtagRodata => true
  | .vorbyCmd f => f.wf
  | .vorbyRead f => f.wf
  | .vorbyWrite f => f.wf
  | .vorbyAtomic f => f.wf
  | .vorbyReply f => f.wf
  | .vorbyNack f => f.wf
  | .vorbyEvent f => f.wf
  | .vorbyPcopy f => f.wf
  | .vorbyPlpull f => f.wf
  | .vorbyAck f => f.wf
  | .ackTimer r st => decide (r < 4096) && decide (st < 16)
  | .rtoExpiry r st psn => decide (r < 4096) && decide (st < 16) && decide (psn < 2 ^ 32)
  | .cmdNop => true
  | .cmdRead => true
  | .cmdWrite => true
  | .cmdLaunch => true
  | .cmdPreemptMode0 => true
  | .cmdPreemptMode1 => true
  | .cmdPreemptMode2 => true
  | .cmdPreemptMode3 => true
  | .cmdKill => true
  | .cmdTlbinv => true
  | .cmdHarvest => true
  | .cmdPlace => true
  | .cmdSignalFput => true
  | .cmdSignalDcdec => true
  | .cmdWaitevent => true
  | .waiteventPoll q => decide (q < 64)
  | .cmdAttest => true
  | .cmdFwload => true
  | .cmdFreeze => true
  | .completionRecordWrite l => decide (l < 1024)
  | .eventTimerExpiry n => decide (n < 64)
  | .coreWorkAsk d c => coreWf d c
  | .crewBindingComplete d c t => coreWf d c && decide (t < 2 ^ 32)
  | .ageingRise d => decide (d < 8)
  | .crewSave t => decide (t < 2 ^ 32)
  | .watchdogFire d c => coreWf d c
  | .chainWalk d c x => ctxWf d c x
  | .adoptedCrewBind d => decide (d < 8)
  | .crewMigration d => decide (d < 8)
  | .nackRetryExpiry d c x h => ctxWf d c x && decide (h < 2)
  | .endNotice d sl t => decide (d < 8) && decide (sl < 32) && decide (t < 2 ^ 32)
  | .nodeFlushTimer d sl p => decide (d < 8) && decide (sl < 32) && decide (p < 2 ^ 40)
  | .waitingAnswerArrival d c h => halfWf d c h
  | .heldAnswerArrival d c h => halfWf d c h
  | .loadDataArrival d c x id errs => coreWf d c && decide (x < 256) && decide (id < 2 ^ 32) && errsWf errs
  | .storePerform d c k errs => coreWf d c && decide (k < 2 ^ 16) && errsWf errs
  | .pageWalk d c a va f => coreWf d c && decide (a < 4096) && decide (va < 2 ^ 64) && decide (f < 2)
  | .asyncCompletion id => decide (id < 2 ^ 32)
  | .asyncPoisonTrap d c x => ctxWf d c x
  | .arrayInstructionEnd d c k => coreWf d c && decide (k < 256)
  | .conversionStep d id => decide (d < 8) && decide (id < 2 ^ 32)
  | .bundleIssue d c h => halfWf d c h
  | .srseedWrite d c h => halfWf d c h
  | .ptbaseWrite d c h => halfWf d c h
  | .defaultVectorWrite d c h => halfWf d c h
  | .wdogWrite d c h => halfWf d c h
  | .pfcPauseExpiry p pr => decide (p < 2) && decide (pr < 8)
  | .claimedLineWrite id line => decide (id < 2 ^ 32) && decide (line < 2 ^ 40)

/-- Well-formed instructions as a proposition. -/
abbrev Instr.WellFormed (i : Instr) : Prop := i.wf = true

end Sys2Proof
end

