-- ==== Sys2Proof/Decode.lean ====
section
/-! DEFINITION. The records in which the model's agenda names the next step (log 1: the model's own encoding, since the table
of steps gives no bits): a row number, little-endian operands, and for a list of bytes its 16-bit length and the bytes. -/

namespace Sys2Proof
open Sys2Proof.Machine (leNat leBytes)

/-- Why a record is no step. -/
inductive DecodeError where
  /-- No byte at all. -/
  | empty
  /-- The first byte is no row of the table. -/
  | badRow (r : Nat)
  /-- The record ends before its operands do. -/
  | short (r : Nat)
  /-- Bytes other than zero follow the operands. -/
  | trailing (r : Nat)
  /-- An operand names nothing that the part has. -/
  | operand (r : Nat)
deriving DecidableEq, Repr

/-- A record before it is laid out: the row, operands with their widths in bytes, a list of bytes. -/
structure Record where
  row : Nat
  fields : List (Nat × Nat)
  tail : Option (List Byte)
deriving DecidableEq, Repr

def frameFields (f : RxFrame) : List (Nat × Nat) := [(1, f.port), (1, if f.fcsOk then 1 else 0)]

def bootFields : BootOutcome → List (Nat × Nat)
  | .ok => [(1, 0), (1, 0), (1, 0)]
  | .stackFailed k => [(1, 1), (1, k), (1, 0)]
  | .dieLinkFailed d p => [(1, 2), (1, d), (1, p)]
  | .ioLinkFailed d => [(1, 3), (1, d), (1, 0)]

def bitOf : Nat → Option Bool
  | 0 => some false
  | 1 => some true
  | _ => none

def bootOf : Nat → Nat → Nat → Option BootOutcome
  | 0, 0, 0 => some .ok
  | 1, k, 0 => some (.stackFailed k)
  | 2, d, p => some (.dieLinkFailed d p)
  | 3, d, 0 => some (.ioLinkFailed d)
  | _, _, _ => none

/-- The operands of each row: widths in bytes, and whether a list of bytes follows. -/
def rowLayout : Nat → Option (List Nat × Bool)
  | 0 => some ([], false)
  | 1 => some ([], false)
  | 2 => some ([1, 1, 1], false)
  | 3 => some ([], false)
  | 4 => some ([], false)
  | 5 => some ([1, 1], false)
  | 6 => some ([1, 1], false)
  | 7 => some ([1], false)
  | 8 => some ([1], false)
  | 9 => some ([2, 4, 2], false)
  | 10 => some ([], true)
  | 11 => some ([1, 4, 4], false)
  | 12 => some ([1, 4, 4], false)
  | 13 => some ([1, 1, 4], false)
  | 14 => some ([1, 2, 4, 4], false)
  | 15 => some ([1, 2, 4], false)
  | 16 => some ([], false)
  | 17 => some ([1, 1], true)
  | 18 => some ([1, 1], true)
  | 19 => some ([1, 1], true)
  | 20 => some ([1, 1], true)
  | 21 => some ([1, 1], true)
  | 22 => some ([2], false)
  | 23 => some ([1, 8], false)
  | 24 => some ([1, 8], false)
  | 25 => some ([1, 8], false)
  | 26 => some ([4], false)
  | 27 => some ([4], false)
  | 28 => some ([8], false)
  | 29 => some ([], false)
  | 30 => some ([], true)
  | 31 => some ([1, 2], false)
  | 32 => some ([], false)
  | 33 => some ([], false)
  | 34 => some ([], false)
  | 35 => some ([], false)
  | 36 => some ([8], false)
  | 37 => some ([], false)
  | 38 => some ([1, 1], true)
  | 39 => some ([1, 1], true)
  | 40 => some ([1, 1], true)
  | 41 => some ([1, 1], true)
  | 42 => some ([1, 1], true)
  | 43 => some ([1, 1], true)
  | 44 => some ([1, 1], true)
  | 45 => some ([1, 1], true)
  | 46 => some ([1, 1], true)
  | 47 => some ([1, 1], true)
  | 48 => some ([2, 1], false)
  | 49 => some ([2, 1, 4], false)
  | 50 => some ([], false)
  | 51 => some ([], false)
  | 52 => some ([], false)
  | 53 => some ([], false)
  | 54 => some ([], false)
  | 55 => some ([], false)
  | 56 => some ([], false)
  | 57 => some ([], false)
  | 58 => some ([], false)
  | 59 => some ([], false)
  | 60 => some ([], false)
  | 61 => some ([], false)
  | 62 => some ([], false)
  | 63 => some ([], false)
  | 64 => some ([], false)
  | 65 => some ([1], false)
  | 66 => some ([], false)
  | 67 => some ([], false)
  | 68 => some ([], false)
  | 69 => some ([2], false)
  | 70 => some ([1], false)
  | 71 => some ([1, 1], false)
  | 72 => some ([1, 1, 4], false)
  | 73 => some ([1], false)
  | 74 => some ([4], false)
  | 75 => some ([1, 1], false)
  | 76 => some ([1, 1, 1], false)
  | 77 => some ([1], false)
  | 78 => some ([1], false)
  | 79 => some ([1, 1, 1, 1], false)
  | 80 => some ([1, 1, 4], false)
  | 81 => some ([1, 1, 5], false)
  | 82 => some ([1, 1, 1], false)
  | 83 => some ([1, 1, 1], false)
  | 84 => some ([1, 1, 1, 4], true)
  | 85 => some ([1, 1, 2], true)
  | 86 => some ([1, 1, 2, 8, 1], false)
  | 87 => some ([4], false)
  | 88 => some ([1, 1, 1], false)
  | 89 => some ([1, 1, 1], false)
  | 90 => some ([1, 4], false)
  | 91 => some ([1, 1, 1], false)
  | 92 => some ([1, 1, 1], false)
  | 93 => some ([1, 1, 1], false)
  | 94 => some ([1, 1, 1], false)
  | 95 => some ([1, 1, 1], false)
  | 96 => some ([1, 1], false)
  | 97 => some ([4, 5], false)
  | _ => none

/-- The step that a row's operands make. -/
def buildInstr : Nat → List Nat → List Byte → Option Instr
  | 0, [], [] => some .perstRelease
  | 1, [], [] => some .perstAssert
  | 2, [k, a, b], [] => (bootOf k a b).map .bootPhaseComplete
  | 3, [], [] => some .frzRequest
  | 4, [], [] => some .thermalTrip
  | 5, [d, port], [] => some (.linkFlitCrcError d port)
  | 6, [d, port], [] => some (.linkRetrainFailure d port)
  | 7, [p], [] => some (.ethernetLinkUp p)
  | 8, [p], [] => some (.ethernetLinkDown p)
  | 9, [tj, dram, watts], [] => some (.throttleStep tj dram watts)
  | 10, [], b => some (.recordRefresh b)
  | 11, [k, dram, cost], [] => some (.refresh k dram cost)
  | 12, [k, acts, cost], [] => some (.rowDisturbRefresh k ⟨acts, cost⟩)
  | 13, [k, err, cost], [] => some (.patrolScrub k err cost)
  | 14, [k, bank, row, cost], [] => some (.spareRowRemap k bank row cost)
  | 15, [k, ch, cost], [] => some (.interfaceCalibration k ⟨ch, cost⟩)
  | 16, [], [] => some .gatheredBitsFlush
  | 17, [p, k], b => (bitOf k).map fun k => .frameDropped ⟨p, k, b⟩
  | 18, [p, k], b => (bitOf k).map fun k => .pfcFrame ⟨p, k, b⟩
  | 19, [p, k], b => (bitOf k).map fun k => .mread ⟨p, k, b⟩
  | 20, [p, k], b => (bitOf k).map fun k => .mwrite ⟨p, k, b⟩
  | 21, [p, k], b => (bitOf k).map fun k => .mreplyReceived ⟨p, k, b⟩
  | 22, [v], [] => some (.epochWrite v)
  | 23, [q, w], [] => some (.queueDisable q w)
  | 24, [n, w], [] => some (.ringEnable n w)
  | 25, [n, w], [] => some (.ringDisable n w)
  | 26, [a], [] => some (.flashErase a)
  | 27, [a], [] => some (.flashProgram a)
  | 28, [w], [] => some (.flashNoOp w)
  | 29, [], [] => some .flashOpComplete
  | 30, [], b => some (.stagingBufferWrite b)
  | 31, [d, n], [] => some (.adapterForceEvict d n)
  | 32, [], [] => some .jtagBypass
  | 33, [], [] => some .jtagIdcode
  | 34, [], [] => some .jtagSamplePreload
  | 35, [], [] => some .jtagExtest
  | 36, [w], [] => some (.jtagRoselect w)
  | 37, [], [] => some .jtagRodata
  | 38, [p, k], b => (bitOf k).map fun k => .vorbyCmd ⟨p, k, b⟩
  | 39, [p, k], b => (bitOf k).map fun k => .vorbyRead ⟨p, k, b⟩
  | 40, [p, k], b => (bitOf k).map fun k => .vorbyWrite ⟨p, k, b⟩
  | 41, [p, k], b => (bitOf k).map fun k => .vorbyAtomic ⟨p, k, b⟩
  | 42, [p, k], b => (bitOf k).map fun k => .vorbyReply ⟨p, k, b⟩
  | 43, [p, k], b => (bitOf k).map fun k => .vorbyNack ⟨p, k, b⟩
  | 44, [p, k], b => (bitOf k).map fun k => .vorbyEvent ⟨p, k, b⟩
  | 45, [p, k], b => (bitOf k).map fun k => .vorbyPcopy ⟨p, k, b⟩
  | 46, [p, k], b => (bitOf k).map fun k => .vorbyPlpull ⟨p, k, b⟩
  | 47, [p, k], b => (bitOf k).map fun k => .vorbyAck ⟨p, k, b⟩
  | 48, [rank, stream], [] => some (.ackTimer rank stream)
  | 49, [rank, stream, psn], [] => some (.rtoExpiry rank stream psn)
  | 50, [], [] => some .cmdNop
  | 51, [], [] => some .cmdRead
  | 52, [], [] => some .cmdWrite
  | 53, [], [] => some .cmdLaunch
  | 54, [], [] => some .cmdPreemptMode0
  | 55, [], [] => some .cmdPreemptMode1
  | 56, [], [] => some .cmdPreemptMode2
  | 57, [], [] => some .cmdPreemptMode3
  | 58, [], [] => some .cmdKill
  | 59, [], [] => some .cmdTlbinv
  | 60, [], [] => some .cmdHarvest
  | 61, [], [] => some .cmdPlace
  | 62, [], [] => some .cmdSignalFput
  | 63, [], [] => some .cmdSignalDcdec
  | 64, [], [] => some .cmdWaitevent
  | 65, [q], [] => some (.waiteventPoll q)
  | 66, [], [] => some .cmdAttest
  | 67, [], [] => some .cmdFwload
  | 68, [], [] => some .cmdFreeze
  | 69, [slot], [] => some (.completionRecordWrite slot)
  | 70, [n], [] => some (.eventTimerExpiry n)
  | 71, [d, c], [] => some (.coreWorkAsk d c)
  | 72, [d, c, task], [] => some (.crewBindingComplete d c task)
  | 73, [d], [] => some (.ageingRise d)
  | 74, [task], [] => some (.crewSave task)
  | 75, [d, c], [] => some (.watchdogFire d c)
  | 76, [d, c, x], [] => some (.chainWalk d c x)
  | 77, [d], [] => some (.adoptedCrewBind d)
  | 78, [d], [] => some (.crewMigration d)
  | 79, [d, c, x, h], [] => some (.nackRetryExpiry d c x h)
  | 80, [d, slice, task], [] => some (.endNotice d slice task)
  | 81, [d, slice, p], [] => some (.nodeFlushTimer d slice p)
  | 82, [d, c, h], [] => some (.waitingAnswerArrival d c h)
  | 83, [d, c, h], [] => some (.heldAnswerArrival d c h)
  | 84, [d, c, x, id], b => some (.loadDataArrival d c x id b)
  | 85, [d, c, k], b => some (.storePerform d c k b)
  | 86, [d, c, asid, va, fetch], [] => some (.pageWalk d c asid va fetch)
  | 87, [id], [] => some (.asyncCompletion id)
  | 88, [d, c, x], [] => some (.asyncPoisonTrap d c x)
  | 89, [d, c, k], [] => some (.arrayInstructionEnd d c k)
  | 90, [d, id], [] => some (.conversionStep d id)
  | 91, [d, c, h], [] => some (.bundleIssue d c h)
  | 92, [d, c, h], [] => some (.srseedWrite d c h)
  | 93, [d, c, h], [] => some (.ptbaseWrite d c h)
  | 94, [d, c, h], [] => some (.defaultVectorWrite d c h)
  | 95, [d, c, h], [] => some (.wdogWrite d c h)
  | 96, [p, prio], [] => some (.pfcPauseExpiry p prio)
  | 97, [id, line], [] => some (.claimedLineWrite id line)
  | _, _, _ => none

/-- Read little-endian operands of the given widths. -/
def readFields : List Nat → List Byte → Option (List Nat × List Byte)
  | [], bs => some ([], bs)
  | w :: ws, bs =>
    if bs.length < w then none
    else (readFields ws (bs.drop w)).map fun r => (leNat (bs.take w) :: r.1, r.2)

/-- Read a list of bytes after its 16-bit length. -/
def readTail (bs : List Byte) : Option (List Byte × List Byte) :=
  if bs.length < 2 then none
  else
    let n := leNat (bs.take 2)
    let t := bs.drop 2
    if t.length < n then none else some (t.take n, t.drop n)

/-- Decode a record; zero bytes may follow it. -/
def decode (bs : List Byte) : Except DecodeError Instr :=
  match bs with
  | [] => .error .empty
  | b :: bs =>
    let r := b.toNat
    match rowLayout r with
    | none => .error (.badRow r)
    | some (ws, hasTail) =>
      match readFields ws bs with
      | none => .error (.short r)
      | some (vs, rest) =>
        match (if hasTail then readTail rest else some ([], rest)) with
        | none => .error (.short r)
        | some (t, rest) =>
          if rest.any (· != 0) then .error (.trailing r)
          else match buildInstr r vs t with
            | none => .error (.operand r)
            | some i => if i.wf then .ok i else .error (.operand r)

/-- The row and operands of each step. -/
def Instr.record : Instr → Record
  | .perstRelease => ⟨0, [], none⟩
  | .perstAssert => ⟨1, [], none⟩
  | .bootPhaseComplete o => ⟨2, bootFields o, none⟩
  | .frzRequest => ⟨3, [], none⟩
  | .thermalTrip => ⟨4, [], none⟩
  | .linkFlitCrcError d port => ⟨5, [(1, d), (1, port)], none⟩
  | .linkRetrainFailure d port => ⟨6, [(1, d), (1, port)], none⟩
  | .ethernetLinkUp p => ⟨7, [(1, p)], none⟩
  | .ethernetLinkDown p => ⟨8, [(1, p)], none⟩
  | .throttleStep tj dram watts => ⟨9, [(2, tj), (4, dram), (2, watts)], none⟩
  | .recordRefresh b => ⟨10, [], some b⟩
  | .refresh k dram cost => ⟨11, [(1, k), (4, dram), (4, cost)], none⟩
  | .rowDisturbRefresh k w => ⟨12, [(1, k), (4, w.acts), (4, w.cost)], none⟩
  | .patrolScrub k err cost => ⟨13, [(1, k), (1, err), (4, cost)], none⟩
  | .spareRowRemap k bank row cost => ⟨14, [(1, k), (2, bank), (4, row), (4, cost)], none⟩
  | .interfaceCalibration k w => ⟨15, [(1, k), (2, w.channel), (4, w.cost)], none⟩
  | .gatheredBitsFlush => ⟨16, [], none⟩
  | .frameDropped f => ⟨17, frameFields f, some f.bytes⟩
  | .pfcFrame f => ⟨18, frameFields f, some f.bytes⟩
  | .mread f => ⟨19, frameFields f, some f.bytes⟩
  | .mwrite f => ⟨20, frameFields f, some f.bytes⟩
  | .mreplyReceived f => ⟨21, frameFields f, some f.bytes⟩
  | .epochWrite v => ⟨22, [(2, v)], none⟩
  | .queueDisable q w => ⟨23, [(1, q), (8, w)], none⟩
  | .ringEnable n w => ⟨24, [(1, n), (8, w)], none⟩
  | .ringDisable n w => ⟨25, [(1, n), (8, w)], none⟩
  | .flashErase a => ⟨26, [(4, a)], none⟩
  | .flashProgram a => ⟨27, [(4, a)], none⟩
  | .flashNoOp w => ⟨28, [(8, w)], none⟩
  | .flashOpComplete => ⟨29, [], none⟩
  | .stagingBufferWrite b => ⟨30, [], some b⟩
  | .adapterForceEvict d n => ⟨31, [(1, d), (2, n)], none⟩
  | .jtagBypass => ⟨32, [], none⟩
  | .jtagIdcode => ⟨33, [], none⟩
  | .jtagSamplePreload => ⟨34, [], none⟩
  | .jtagExtest => ⟨35, [], none⟩
  | .jtagRoselect w => ⟨36, [(8, w)], none⟩
  | .jtagRodata => ⟨37, [], none⟩
  | .vorbyCmd f => ⟨38, frameFields f, some f.bytes⟩
  | .vorbyRead f => ⟨39, frameFields f, some f.bytes⟩
  | .vorbyWrite f => ⟨40, frameFields f, some f.bytes⟩
  | .vorbyAtomic f => ⟨41, frameFields f, some f.bytes⟩
  | .vorbyReply f => ⟨42, frameFields f, some f.bytes⟩
  | .vorbyNack f => ⟨43, frameFields f, some f.bytes⟩
  | .vorbyEvent f => ⟨44, frameFields f, some f.bytes⟩
  | .vorbyPcopy f => ⟨45, frameFields f, some f.bytes⟩
  | .vorbyPlpull f => ⟨46, frameFields f, some f.bytes⟩
  | .vorbyAck f => ⟨47, frameFields f, some f.bytes⟩
  | .ackTimer rank stream => ⟨48, [(2, rank), (1, stream)], none⟩
  | .rtoExpiry rank stream psn => ⟨49, [(2, rank), (1, stream), (4, psn)], none⟩
  | .cmdNop => ⟨50, [], none⟩
  | .cmdRead => ⟨51, [], none⟩
  | .cmdWrite => ⟨52, [], none⟩
  | .cmdLaunch => ⟨53, [], none⟩
  | .cmdPreemptMode0 => ⟨54, [], none⟩
  | .cmdPreemptMode1 => ⟨55, [], none⟩
  | .cmdPreemptMode2 => ⟨56, [], none⟩
  | .cmdPreemptMode3 => ⟨57, [], none⟩
  | .cmdKill => ⟨58, [], none⟩
  | .cmdTlbinv => ⟨59, [], none⟩
  | .cmdHarvest => ⟨60, [], none⟩
  | .cmdPlace => ⟨61, [], none⟩
  | .cmdSignalFput => ⟨62, [], none⟩
  | .cmdSignalDcdec => ⟨63, [], none⟩
  | .cmdWaitevent => ⟨64, [], none⟩
  | .waiteventPoll q => ⟨65, [(1, q)], none⟩
  | .cmdAttest => ⟨66, [], none⟩
  | .cmdFwload => ⟨67, [], none⟩
  | .cmdFreeze => ⟨68, [], none⟩
  | .completionRecordWrite slot => ⟨69, [(2, slot)], none⟩
  | .eventTimerExpiry n => ⟨70, [(1, n)], none⟩
  | .coreWorkAsk d c => ⟨71, [(1, d), (1, c)], none⟩
  | .crewBindingComplete d c task => ⟨72, [(1, d), (1, c), (4, task)], none⟩
  | .ageingRise d => ⟨73, [(1, d)], none⟩
  | .crewSave task => ⟨74, [(4, task)], none⟩
  | .watchdogFire d c => ⟨75, [(1, d), (1, c)], none⟩
  | .chainWalk d c x => ⟨76, [(1, d), (1, c), (1, x)], none⟩
  | .adoptedCrewBind d => ⟨77, [(1, d)], none⟩
  | .crewMigration d => ⟨78, [(1, d)], none⟩
  | .nackRetryExpiry d c x h => ⟨79, [(1, d), (1, c), (1, x), (1, h)], none⟩
  | .endNotice d slice task => ⟨80, [(1, d), (1, slice), (4, task)], none⟩
  | .nodeFlushTimer d slice p => ⟨81, [(1, d), (1, slice), (5, p)], none⟩
  | .waitingAnswerArrival d c h => ⟨82, [(1, d), (1, c), (1, h)], none⟩
  | .heldAnswerArrival d c h => ⟨83, [(1, d), (1, c), (1, h)], none⟩
  | .loadDataArrival d c x id errs => ⟨84, [(1, d), (1, c), (1, x), (4, id)], some errs⟩
  | .storePerform d c k errs => ⟨85, [(1, d), (1, c), (2, k)], some errs⟩
  | .pageWalk d c asid va fetch => ⟨86, [(1, d), (1, c), (2, asid), (8, va), (1, fetch)], none⟩
  | .asyncCompletion id => ⟨87, [(4, id)], none⟩
  | .asyncPoisonTrap d c x => ⟨88, [(1, d), (1, c), (1, x)], none⟩
  | .arrayInstructionEnd d c k => ⟨89, [(1, d), (1, c), (1, k)], none⟩
  | .conversionStep d id => ⟨90, [(1, d), (4, id)], none⟩
  | .bundleIssue d c h => ⟨91, [(1, d), (1, c), (1, h)], none⟩
  | .srseedWrite d c h => ⟨92, [(1, d), (1, c), (1, h)], none⟩
  | .ptbaseWrite d c h => ⟨93, [(1, d), (1, c), (1, h)], none⟩
  | .defaultVectorWrite d c h => ⟨94, [(1, d), (1, c), (1, h)], none⟩
  | .wdogWrite d c h => ⟨95, [(1, d), (1, c), (1, h)], none⟩
  | .pfcPauseExpiry p prio => ⟨96, [(1, p), (1, prio)], none⟩
  | .claimedLineWrite id line => ⟨97, [(4, id), (5, line)], none⟩

/-- The bytes of operands with their widths. -/
def fieldBytes : List (Nat × Nat) → List Byte
  | [] => []
  | f :: t => leBytes f.1 f.2 ++ fieldBytes t

/-- A list of bytes after its 16-bit length. -/
def tailBytes : Option (List Byte) → List Byte
  | none => []
  | some b => leBytes 2 b.length ++ b

/-- The record of a step. -/
def encode (i : Instr) : List Byte :=
  let r := i.record
  BitVec.ofNat 8 r.row :: (fieldBytes r.fields ++ tailBytes r.tail)

/-- Bytes of the longest record without a list. -/
def longestRecord : Nat := 14

/-- The record whose bits are w: its bytes in order, zeros up to the longest record. -/
def recordOfWord (nbits w : Nat) : List Byte := leBytes (max (nbits / 8) longestRecord) w

/-- The step whose bits are w, bit 0 the least significant bit of the first byte. -/
def decodeTableWord (nbits w : Nat) : Option Instr :=
  match decode (recordOfWord nbits w) with
  | .ok i => some i
  | .error _ => none

end Sys2Proof
end

