-- ==== Sys2Proof/Machine/IoState.lean ====
section
/-! DEFINITION. The state of the I/O die's root of trust, flash, power control, stacks' background work, links, freeze and
JTAG as data (01 R11 to R29, 03 R70 to R82). -/

namespace Sys2Proof.Machine

/-- Where the part stands (01 R19, 03 R75): held in reset, the boot phases, recovery, phase 4, frozen. -/
inductive Phase where
  /-- PERST_N is low. -/
  | reset
  /-- Phase 1: verification. -/
  | verify
  /-- Recovery: phase 1 failed (03 R74). -/
  | recovery
  /-- Phase 2: calibration and training; it stays here after a failure. -/
  | train
  /-- Phase 3: zeroing. -/
  | zero
  /-- Phase 4. -/
  | running
  | frozen
deriving DecidableEq, Repr

/-- An error that a read found in a granule (01 R21, R24): the granule's number P div 64, the core cycle, and whether it could not
be corrected. -/
structure EccError where
  granule : Nat
  at_ : Nat
  uncorr : Bool
deriving DecidableEq, Repr

/-- Telemetry of a stack (01 R27), the remap map (R24), and what the base die keeps count of. -/
structure Stack where
  baseTemp : Nat
  dramTemp : Nat
  bgMaxDelay : Nat
  bgCycles : Nat
  calRuns : Nat
  otpUsed : Nat
  /-- Spare rows used in each bank that has used any. -/
  spareUsed : AMap Nat
  remapCount : Nat
  rdmRefresh : Nat
  refreshCmds : Nat
  refreshFast : Bool
  eccUncorr : Nat
  eccCorr : Nat
  scrubPass : Nat
  scrubLines : Nat
  /-- The next granule that patrol scrub reads, in device address order (R22). -/
  scrubAt : Nat
  /-- Errors found in rows that have not been remapped (R24). -/
  errors : List EccError
  /-- Background work of the last 2^24 cc: core cycle and bank-cycles (R20). -/
  recent : List (Nat × Nat)
  /-- For each pseudo-channel that has calibrated, the cycle from which it does again, and the end of the calibration in progress
  (R25). -/
  calNext : AMap Nat
  calUntil : Nat
deriving DecidableEq, Repr

/-- A flash operation in progress (03 R74): erase the sector, or program 1,024 bytes, at an address. -/
inductive FlashOp where
  | erase (a : Nat)
  | program (a : Nat)
deriving DecidableEq, Repr

/-- The test access port (03 R81): instruction register, data register as shifted, read pointer of RODATA. -/
structure Jtag where
  ir : BitVec 8
  dr : List Bool
  /-- The boundary register's update latches, which EXTEST drives to the pins. -/
  latch : List Bool
  ptr : Nat
deriving DecidableEq, Repr

structure Io where
  phase : Phase
  /-- Core clock periods since PERST_N rose; it runs on in the frozen state, where the compute part's count stops. -/
  clock : Nat
  /-- THERMTRIP_N is low (01 R17). -/
  thermTrip : Bool
  fail : Nat
  failUnit : Nat
  /-- Bit t − 1: type t booted from slot B. -/
  slots : BitVec 3
  /-- MEAS[1] to MEAS[3] and the SVNs of the booted images (03 R71, R76). -/
  meas : Vector (BitVec 256) 3
  bootSvn : Vector Nat 3
  /-- Fuses (03 R71, R72, R76, R82). -/
  fuseRoot : BitVec 256
  fuseSvn : Vector Nat 3
  rdlock : Bool
  serial : W64
  /-- NOR flash of 64 MiB (03 R70); an erased byte reads 0xFF. -/
  flash : Memory
  flAddr : Nat
  flErr : Bool
  flOp : Option FlashOp
  staging : Memory
  frzCause : Nat
  frzSeen : BitVec 4
  frzTime : W64
  /-- Reference edge that registered the trigger. -/
  frzEdge : Nat
  /-- Triggers registered at a reference edge whose core cycle has not come yet (01 R13): the edge, and FRZ_SEEN. -/
  frzPend : Option (Nat × BitVec 4)
  /-- PERST_N has been sampled low: the core cycle from which that is seen (01 R13). -/
  perstAt : Option Nat
  rosel : W64
  plim : Nat
  pwr : Nat
  duty : Nat
  throtT : Bool
  throtP : Bool
  tjmax : Nat
  /-- The cycles from which the next step of throttling and the next refresh of the records are due (01 R16, R26). -/
  throtNext : Nat
  showNext : Nat
  memStk : Vector Stack 16
  /-- LINK_RETRY: 5 × die + port, port 4 the link to the I/O die (01 R28). -/
  links : AMap Nat
  /-- The records as the last refresh left them: management address and word (01 R26). -/
  shown : AMap W64
  jtag : Jtag
deriving DecidableEq, Repr

/-- The size of the flash device (03 R70: at least 64 MiB; log 7). -/
def flashBytes : Nat := 0x4000000
/-- An erased byte of NOR flash (log 7). -/
def flashDflt : Byte := 0xFF
/-- Entries of a stack's one-time map, and spare rows of a bank (01 R24). -/
def otpEntries : Nat := 512
def spareRows : Nat := 32

def Stack.init : Stack := ⟨0, 0, 0, 0, 0, 0, [], 0, 0, 0, false, 0, 0, 0, 0, 0, [], [], [], 0⟩
/-- After reset IEEE 1149.1 selects IDCODE (log 10). -/
def Jtag.init : Jtag := ⟨0x01, [], [], 0⟩

/-- The I/O die held in reset. -/
def Io.init : Io :=
  { phase := .reset, clock := 0, thermTrip := false, fail := 0, failUnit := 0, slots := 0, meas := Vector.replicate 3 0,
    bootSvn := Vector.replicate 3 0, fuseRoot := 0, fuseSvn := Vector.replicate 3 0, rdlock := false, serial := 0,
    flash := [], flAddr := 0, flErr := false, flOp := none, staging := [], frzCause := 0, frzSeen := 0, frzTime := 0,
    frzEdge := 0, frzPend := none, perstAt := none, rosel := 0, plim := 2200, pwr := 0, duty := 16, throtT := false, throtP := false,
    tjmax := 0, throtNext := 2 ^ 20, showNext := 2 ^ 20,
    memStk := Vector.replicate 16 .init, links := [], shown := [], jtag := .init }

namespace Io
def stack (i : Io) (k : Nat) : Stack := i.memStk.getD k .init
def modStack (i : Io) (k : Nat) (f : Stack → Stack) : Io := { i with memStk := i.memStk.setIfInBounds k (f (i.stack k)) }
/-- The number of the reference edge that registers something arising now (01 R13, 03 R77): the first at or after it. -/
def refEdge (i : Io) : Nat := (2 * i.clock + 16) / 17
/-- Periods of 2^20 cc, by which power, throttling and records go (01 R16, R26). -/
def period : Nat := 2 ^ 20
end Io

/-- The core cycle from which the cores see what reference edge n registers (01 R13). -/
def edgeCycle (n : Nat) : Nat := (17 * n + 1) / 2

/-- The words of the telemetry, link and power records (01 R27 to R29), by management address. -/
def stackWords (k : Nat) (t : Stack) : List (Nat × Nat) :=
  let b := 0x10000 + 0x100 * k
  let sat := fun n => min n (2 ^ 64 - 1)
  let worst := t.spareUsed.foldl (fun a e => max a e.2) 0
  [(b, sat t.scrubLines), (b + 8, sat t.scrubPass), (b + 0x10, sat t.eccCorr), (b + 0x18, sat t.eccUncorr),
   (b + 0x20, min t.refreshCmds (2 ^ 63 - 1) * 2 + (if t.refreshFast then 1 else 0)), (b + 0x28, sat t.rdmRefresh),
   (b + 0x30, sat t.remapCount), (b + 0x38, (otpEntries - t.otpUsed) * 2 ^ 32 + (spareRows - worst)), (b + 0x40, sat t.calRuns),
   (b + 0x48, sat t.bgCycles), (b + 0x50, sat t.bgMaxDelay), (b + 0x58, t.baseTemp * 2 ^ 32 + t.dramTemp)]

def powerWord (i : Io) : Nat :=
  i.plim * 2 ^ 32 + i.pwr * 2 ^ 20 + i.duty * 2 ^ 15 + (if i.throtT then 2 ^ 14 else 0) + (if i.throtP then 2 ^ 13 else 0) +
    i.tjmax

def linkAddr (d port : Nat) : Nat := 0x20000 + 0x40 * d + 8 * port

/-- A refresh of the records as a whole (01 R26): words of value zero are not listed. -/
def Io.refreshShown (i : Io) : Io :=
  let ws := (List.range 16).flatMap (fun k => stackWords k (i.stack k)) ++
    ((List.range 40).map fun n => (linkAddr (n / 5) (n % 5), min (i.links.getD n 0) (2 ^ 64 - 1))) ++ [(0x30000, powerWord i)]
  { i with shown := (ws.filter fun w => w.2 != 0).map fun w => (w.1, BitVec.ofNat 64 w.2) }

end Sys2Proof.Machine
end

