-- ==== Sys2Proof/Machine/NetState.lean ====
section
/-! DEFINITION. The state of the ports, the transport, the command processor's queues and the event rings as data (02 R31 to
R53, 03 R54 to R69). -/

namespace Sys2Proof.Machine

/-- The counters of a port (02 R53). -/
structure PortCounters where
  rxFrames : Nat
  txFrames : Nat
  dropMac : Nat
  dropEtype : Nat
  dropMalf : Nat
  dropBuf : Nat
  retx : Nat
  dup : Nat
  nackTx : Nat
  nackRx : Nat
  streamFail : Nat
deriving DecidableEq, Repr

/-- A port's record (02 R50), its counters and its flow control. EPOCH, RANK and GROUP are used at port 0 only. -/
structure Port where
  mac : BitVec 48
  epoch : Nat
  rank : Nat
  group : Nat
  vid : Nat
  pcpCtl : Nat
  pcpData : Nat
  pfcEn : BitVec 8
  link : Bool
  en : Bool
  mgmtMac : Nat
  retryMax : Nat
  rto : Nat
  xoff : Nat
  xon : Nat
  cnt : PortCounters
  /-- Priorities that this port has paused at its partner (R33). -/
  pausing : BitVec 8
  /-- Cycle until which the partner pauses each priority, 0 for none (R33). -/
  pausedTill : Vector Nat 8
deriving DecidableEq, Repr

/-- An entry of the rank table (02 R51). -/
structure RankEnt where
  pmac : Nat
  h : Bool
  pmask : Nat
  failed : BitVec 16
deriving DecidableEq, Repr

/-- A fabric window (02 R52). -/
structure Window where
  asid : Nat
  base : Nat
  length : Nat
  fring : Nat
  a : Bool
  w : Bool
  r : Bool
  v : Bool
  inflight : Nat
deriving DecidableEq, Repr

/-- A frame that waits while its priority is paused (02 R33): port, destination address, PCP, EtherType, what follows. -/
structure MacFrame where
  port : Nat
  da : Nat
  pcp : Nat
  etype : Nat
  data : List Byte
deriving DecidableEq, Repr

/-- A Vorby message as processing sees it (02 R36, R37). -/
structure Msg where
  port : Nat
  prio : Nat
  /-- Bytes of its frame, destination address to FCS (R33). -/
  size : Nat
  mtype : Nat
  ord : Bool
  srank : Nat
  stream : Nat
  psn : Nat
  msgid : Nat
  tspec : Nat
  addr : W64
  payload : List Byte
deriving DecidableEq, Repr

/-- A receive stream (02 R38): ACKPSN, frames held ahead of a gap, accepted frames not yet acknowledged, the arrival of
the oldest of them, and the port on which the last frame came. -/
structure RxStream where
  ackPsn : Nat
  held : List Msg
  unacked : Nat
  oldest : Nat
  port : Nat
deriving DecidableEq, Repr

/-- A frame sent and not acknowledged (02 R39): PSN, message, transmission count, when the timer last started. -/
structure TxFrame where
  psn : Nat
  mtype : Nat
  /-- It carries PCP_CTL (R32). -/
  ctl : Bool
  ord : Bool
  msgid : Nat
  tspec : Nat
  addr : W64
  payload : List Byte
  /-- It has left on a port. -/
  sent : Bool
  retries : Nat
  since : Nat
  /-- SACK has shown it received. -/
  sacked : Bool
  /-- It was retransmitted at once after its last timer start. -/
  fast : Bool
deriving DecidableEq, Repr

/-- A send stream (02 R39): the next PSN, frames within the window of 32, messages that wait for a place in it. -/
structure TxStream where
  next : Nat
  frames : List TxFrame
  waiting : List TxFrame
deriving DecidableEq, Repr

/-- The window entry that a message found at its lookup: number, ASID and FRING as they stood then (02 R42, R46). -/
structure WinRef where
  no : Nat
  asid : Nat
  fring : Nat
deriving DecidableEq, Repr

/-- A message accepted and begun whose effects wait: its window and the ports of a command (02 R40, R42). -/
structure RxPending where
  msg : Msg
  /-- Its place in the order of acceptance, and whether it has begun (R40). -/
  no : Nat
  begun : Bool
  /-- The window that step 2 found, once INFLIGHT counts it. -/
  window : Option WinRef
  /-- Pieces of the access once translated: virtual address, P, length (02 R42 step 5, R46). -/
  pieces : Option (List (Nat × Nat × Nat))
  /-- Translations of before a TLBINV that it was received ahead of (07 R200). -/
  old : List TlbEnt
  /-- Sent by the part to its own rank (R34). -/
  self : Bool
deriving DecidableEq, Repr

/-- A request that the part has sent and whose REPLY or NACK it awaits: for a row of an async operation (conv false) or a
pull of a conversion (conv true). -/
structure Outst where
  rank : Nat
  stream : Nat
  conv : Bool
  opId : Nat
  row : Nat
  len : Nat
deriving DecidableEq, Repr

/-- A command as queued (03 R54, R56). -/
structure Cmd where
  srank : Nat
  stream : Nat
  msgid : Nat
  /-- Place of its message in the order of acceptance, and ORD of the message (02 R40). -/
  no : Nat
  mord : Bool
  bytes : List Byte
deriving DecidableEq, Repr

/-- What a command in progress still does (03 R58 to R63). -/
inductive CmdWork where
  /-- An access waits for claimed lines; it is tried again. -/
  | held
  /-- PREEMPT of a launch slot and id, with its mode. -/
  | preempt (slot id mode : Nat)
  | kill (slot id : Nat)
  /-- TLBINV: what must perform first (R200): for each core its place in the order of issue, halves held for an answer, async
  operations, changes of series, messages. -/
  | tlbinv (asid : Option Nat) (lo hi : Nat) (cores : List (Nat × Nat)) (held : List (Nat × Nat)) (ops convs msgs : List Nat)
  /-- PLACE, until no item of it is in a series. -/
  | place
  /-- WAITEVENT: COND, VA, VALUE, end (none without limit), last value read. -/
  | wait (cond : Nat) (va value : W64) (until? : Option Nat) (last : W64)
deriving DecidableEq, Repr

/-- A command begun and not answered. -/
structure InCmd where
  no : Nat
  cmd : Cmd
  asid : Nat
  sup : Bool
  work : CmdWork
  /-- Its effect has started (commands of one launch are performed one at a time, R62). -/
  started : Bool
deriving DecidableEq, Repr

/-- A command queue (03 R54, R55). -/
structure CmdQueue where
  asid : Nat
  sup : Bool
  en : Bool
  refused : Nat
  accepted : Nat
  pending : List Cmd
  inprog : List InCmd
deriving DecidableEq, Repr

/-- An event ring (03 R67 to R69): its record, HEAD as the part counts it, the unsent records, and TAIL as last seen. -/
structure Ring where
  asid : Nat
  drank : Nat
  stream : Nat
  size : Nat
  en : Bool
  base : Nat
  thresh : Nat
  timer : Nat
  dropped : Nat
  frames : Nat
  head : Nat
  /-- Records written and not yet carried in a frame, oldest first, with the cycle of their writing. -/
  unsent : List (Nat × List Byte)
  tail : Nat
deriving DecidableEq, Repr

/-- A frame that the part has put on a port's lanes (or a PFC frame), oldest first in the list of them. -/
structure WireFrame where
  port : Nat
  at_ : Nat
  bytes : List Byte
deriving DecidableEq, Repr

/-- Ports, transport, queues and rings. -/
structure Net where
  port0 : Port
  port1 : Port
  ranks : AMap RankEnt
  windows : AMap Window
  /-- EPOCH last seen from each rank (02 R41). -/
  seen : AMap Nat
  /-- Receive and send streams: rank × 16 + stream. -/
  rx : AMap RxStream
  tx : AMap TxStream
  rxWait : List RxPending
  /-- Number of messages accepted. -/
  nextRx : Nat
  outst : AMap Outst
  /-- Number of requests sent, which numbers their MSGIDs (log 14). -/
  nextMsg : Nat
  queues : AMap CmdQueue
  /-- The queue that the last command was taken from (R58). -/
  cpTurn : Nat
  nextCmd : Nat
  rings : AMap Ring
  /-- Management frames held by a pause of their priority (02 R33), oldest first. -/
  macWait : List MacFrame
  wire : List WireFrame
deriving DecidableEq, Repr

def PortCounters.zero : PortCounters := ⟨0, 0, 0, 0, 0, 0, 0, 0, 0, 0, 0⟩

/-- A port after reset with its fused MAC address (R50). -/
def Port.init (mac : BitVec 48) : Port :=
  { mac := mac, epoch := 0, rank := 0, group := 0, vid := 0, pcpCtl := 6, pcpData := 3, pfcEn := 0, link := false,
    en := false, mgmtMac := 0, retryMax := 16, rto := 50, xoff := 1536, xon := 1024, cnt := .zero, pausing := 0,
    pausedTill := Vector.replicate 8 0 }

def RankEnt.init : RankEnt := ⟨0, false, 0, 0⟩
def Window.init : Window := ⟨0, 0, 0, 0, false, false, false, false, 0⟩
def RxStream.init : RxStream := ⟨0, [], 0, 0, 0⟩
def TxStream.init : TxStream := ⟨0, [], []⟩
def CmdQueue.init : CmdQueue := ⟨0, false, false, 0, 0, [], []⟩
def Ring.init : Ring := ⟨0, 0, 0, 0, false, 0, 1, 0, 0, 0, 0, [], 0⟩

def Net.init (mac0 mac1 : BitVec 48) : Net :=
  { port0 := .init mac0, port1 := .init mac1, ranks := [], windows := [], seen := [], rx := [], tx := [], rxWait := [], nextRx := 0,
    outst := [], nextMsg := 0, queues := [], cpTurn := 63, nextCmd := 0, rings := [], macWait := [], wire := [] }

namespace Net
def port (n : Net) (p : Nat) : Port := if p = 0 then n.port0 else n.port1
def setPort (n : Net) (p : Nat) (x : Port) : Net := if p = 0 then { n with port0 := x } else { n with port1 := x }
def modPort (n : Net) (p : Nat) (f : Port → Port) : Net := n.setPort p (f (n.port p))
def count (n : Net) (p : Nat) (f : PortCounters → PortCounters) : Net := n.modPort p fun x => { x with cnt := f x.cnt }
def rank (n : Net) (r : Nat) : RankEnt := n.ranks.getD r .init
def window (n : Net) (w : Nat) : Window := n.windows.getD w .init
def queue (n : Net) (q : Nat) : CmdQueue := n.queues.getD q .init
def ring (n : Net) (r : Nat) : Ring := n.rings.getD r .init
def setRank (n : Net) (r : Nat) (x : RankEnt) : Net := { n with ranks := n.ranks.put r x }
def setWindow (n : Net) (w : Nat) (x : Window) : Net := { n with windows := n.windows.put w x }
def setQueue (n : Net) (q : Nat) (x : CmdQueue) : Net := { n with queues := n.queues.put q x }
def setRing (n : Net) (r : Nat) (x : Ring) : Net := { n with rings := n.rings.put r x }
def modQueue (n : Net) (q : Nat) (f : CmdQueue → CmdQueue) : Net := n.setQueue q (f (n.queue q))
def modRing (n : Net) (r : Nat) (f : Ring → Ring) : Net := n.setRing r (f (n.ring r))
end Net

end Sys2Proof.Machine
end

