-- ==== Sys2Proof/Machine/State.lean ====
section
/-! DEFINITION. The state of the part: the compute part, the ports and command processor, the I/O die, and the agenda that
says which agent moves next (log 1); the reasons for which a step stops; the state after reset (01 R19). -/

namespace Sys2Proof.Machine

/-- An entry of the agenda: a step's record, and how many core clock periods pass before it. -/
structure Pending where
  wait : Nat
  record : List Byte
deriving DecidableEq, Repr

/-- The machine. -/
structure State where
  /-- Steps to come, next first: what the outside world does and which agent moves (log 1). -/
  agenda : List Pending
  chip : Chip
  net : Net
  io : Io
deriving DecidableEq, Repr

/-- Why a step stops the machine. -/
inductive Fault where
  /-- The agenda's next record is no step: raised by step. Safe: nothing happens in the part. -/
  | badRecord (e : DecodeError)
deriving DecidableEq, Repr

/-- Why a step has no meaning. -/
inductive Refusal where
  /-- The step's meaning is not written: raised by an arm of exec. Safe: nothing is claimed of it. -/
  | notModelled (mnemonic : String)
deriving DecidableEq, Repr

/-- The part at reference edge 0, the release of reset, with boot phase 1 begun (01 R13, R19; log 4). Fuses, flash and the
remap maps hold what logs 6, 7 and 9 name. -/
def State.reset : State :=
  { agenda := [], chip := .init, net := .init 0 0, io := { Io.init with phase := .verify }.refreshShown }

end Sys2Proof.Machine
end

