-- ==== Sys2Proof/Machine/Wire.lean ====
section
/-! DEFINITION. Frames as bytes (02 R31, R32, R36, R37, R48): the Ethernet header, the Vorby header, the management header
(log 3). -/

namespace Sys2Proof.Machine

/-- The number whose first byte is the most significant, as Ethernet sends its fields. -/
def beNat (bs : List Byte) : Nat := bs.foldl (fun a b => 256 * a + b.toNat) 0
def beBytes (n x : Nat) : List Byte := (leBytes n x).reverse

/-- Bits [lo + len − 1 : lo] of a number. -/
def nfld (x lo len : Nat) : Nat := x / 2 ^ lo % 2 ^ len

/-- The k-th 64-bit word of a list of bytes. -/
def word64 (bs : List Byte) (k : Nat) : Nat := leNat ((bs.drop (8 * k)).take 8)

/-- An Ethernet frame as received, without its FCS: size counts the FCS. -/
structure Eth where
  da : Nat
  sa : Nat
  /-- The tag's control information, if tagged. -/
  tci : Option Nat
  etype : Nat
  data : List Byte
  size : Nat
deriving DecidableEq, Repr

/-- The header of a frame; none when the frame ends before its EtherType. -/
def ethOf (bs : List Byte) : Option Eth :=
  if bs.length < 14 then none
  else
    let da := beNat (bs.take 6)
    let sa := beNat ((bs.drop 6).take 6)
    let t := beNat ((bs.drop 12).take 2)
    if t = 0x8100 then
      (if bs.length < 18 then none
       else some ⟨da, sa, some (beNat ((bs.drop 14).take 2)), beNat ((bs.drop 16).take 2), bs.drop 18, bs.length + 4⟩)
    else some ⟨da, sa, none, t, bs.drop 14, bs.length + 4⟩

/-- The priority of a received frame: of an untagged one, 0 (log 112). -/
def Eth.prio (e : Eth) : Nat := match e.tci with | some t => t / 2 ^ 13 | none => 0

/-- The payload of n bytes after a header; a frame of the least size carries padding (IEEE 802.3; log 3). -/
def Eth.payload (e : Eth) (hdr n : Nat) : Option (List Byte) :=
  let p := e.data.drop hdr
  if e.data.length < hdr then none
  else if p.length = n then some p
  else if e.size = 64 ∧ n < p.length then some (p.take n)
  else none

/-- Bytes of a frame that the part sends: tagged, padded to the least size. -/
def ethBytes (da sa pcp vid etype : Nat) (data : List Byte) : List Byte :=
  let b := beBytes 6 da ++ beBytes 6 sa ++ beBytes 2 0x8100 ++ beBytes 2 (pcp * 2 ^ 13 + vid) ++ beBytes 2 etype ++ data
  b ++ List.replicate (60 - b.length) 0

/-! ## Vorby (R36, R37) -/

structure Hdr where
  ver : Nat
  mtype : Nat
  ackv : Bool
  ord : Bool
  drank : Nat
  srank : Nat
  group : Nat
  stream : Nat
  epoch : Nat
  len : Nat
  psn : Nat
  ackPsn : Nat
  sack : Nat
  msgid : Nat
  tspec : Nat
  /-- The reserved bits, zero in a well-formed header. -/
  rsv : Nat
deriving DecidableEq, Repr

/-- Types that carry ADDR (R37). -/
def hasAddr (t : Nat) : Bool := t == 1 || t == 2 || t == 3 || t == 5 || t == 7 || t == 8

def hdrOf (bs : List Byte) : Hdr :=
  let w0 := word64 bs 0
  let w1 := word64 bs 1
  let w2 := word64 bs 2
  let w3 := word64 bs 3
  { ver := nfld w0 60 4, mtype := nfld w0 56 4, ackv := w0.testBit 55, ord := w0.testBit 54, drank := nfld w0 36 12
    srank := nfld w0 24 12, group := nfld w0 8 16, stream := nfld w0 4 4, epoch := nfld w1 48 16, len := nfld w1 32 16
    psn := nfld w1 0 32, ackPsn := nfld w2 32 32, sack := nfld w2 0 31, msgid := nfld w3 32 32, tspec := nfld w3 0 32
    rsv := nfld w0 48 6 + nfld w0 0 4 + nfld w2 31 1 }

def hdrBytes (h : Hdr) : List Byte :=
  [h.ver * 2 ^ 60 + h.mtype * 2 ^ 56 + (if h.ackv then 2 ^ 55 else 0) + (if h.ord then 2 ^ 54 else 0) + h.drank * 2 ^ 36 +
     h.srank * 2 ^ 24 + h.group * 2 ^ 8 + h.stream * 2 ^ 4,
   h.epoch * 2 ^ 48 + h.len * 2 ^ 32 + h.psn, h.ackPsn * 2 ^ 32 + h.sack, h.msgid * 2 ^ 32 + h.tspec].flatMap (leBytes 8)

/-- A Vorby frame's header, ADDR and payload; none when the frame is malformed by its own bytes (R36, R37). Payload bytes of a type
that has none are no malformation when LEN counts them (log 113). -/
def vorbyOf (e : Eth) : Option (Hdr × W64 × List Byte) :=
  if e.data.length < 32 then none
  else
    let h := hdrOf e.data
    let ext := if hasAddr h.mtype then 8 else 0
    if h.ver ≠ 1 ∨ h.rsv ≠ 0 ∨ (9 ≤ h.mtype ∧ h.mtype ≤ 14) ∨ h.len > 8192 then none
    else (e.payload (32 + ext) h.len).map fun p => (h, if ext = 8 then BitVec.ofNat 64 (word64 e.data 4) else 0, p)

/-! ## Management frames (R48) -/

structure MHdr where
  ver : Nat
  mtype : Nat
  tag : Nat
  maddr : Nat
  mlen : Nat
  rsv : Nat
deriving DecidableEq, Repr

def mhdrOf (bs : List Byte) : MHdr :=
  let w0 := word64 bs 0
  let w1 := word64 bs 1
  { ver := nfld w0 60 4, mtype := nfld w0 56 4, tag := nfld w0 40 16, maddr := nfld w0 0 32, mlen := nfld w1 0 16
    rsv := nfld w0 32 8 + nfld w1 16 48 }

def mhdrBytes (mtype tag maddr mlen : Nat) : List Byte :=
  [2 ^ 60 + mtype * 2 ^ 56 + tag * 2 ^ 40 + maddr, mlen].flatMap (leBytes 8)

/-! ## Drops before a frame is dispatched (R31, R32, R34, R36, R47) -/

inductive Drop where
  | mac | etype | malf | buf
  /-- Not counted: the port or the part does not listen. -/
  | silent
deriving DecidableEq, Repr

def pfcMac : Nat := 0x0180C2000001
def isPfc (e : Eth) : Bool := e.etype == 0x8808 && beNat (e.data.take 2) == 0x0101

/-- A tag with a VID that is neither 0 nor the port's (R32). -/
def Eth.otherVid (e : Eth) (vid : Nat) : Bool :=
  match e.tci with
  | some t => t % 2 ^ 12 != 0 && t % 2 ^ 12 != vid
  | none => false

/-- The MAC's own checks: FCS, size, destination address (R31). -/
def macBad (f : RxFrame) (e : Eth) (mac : BitVec 48) : Bool :=
  !f.fcsOk || decide (e.size < 64) || decide (9216 < e.size) || (e.da != mac.toNat && !(isPfc e && e.da == pfcMac))

/-- Bytes of received frames that a port's buffer holds, of those messages that a test keeps (R33). -/
def heldBytes (s : State) (p : Nat) (keep : Msg → Bool) : Nat :=
  let ms := s.net.rxWait.filterMap (fun (x : RxPending) => if x.self then none else some x.msg) ++
    s.net.rx.flatMap fun e => e.2.held
  (ms.filter fun (m : Msg) => m.port == p && keep m).foldl (fun a (m : Msg) => a + m.size) 0

/-- The receive buffer of 2 MiB has no room for a frame (R33); a frozen part holds no message (03 R78). -/
def bufferFull (s : State) (p size : Nat) : Bool :=
  s.io.phase == .running && decide (2 ^ 21 < heldBytes s p (fun _ => true) + size)

/-- The checks of R31, R32, R33 and R47 on a frame; none: it is dispatched by its EtherType. -/
def macDrop (s : State) (f : RxFrame) : Except Drop Eth :=
  let p := s.net.port f.port
  if s.io.phase = .reset ∨ !p.link then .error .silent
  else match ethOf f.bytes with
    | none => .error .mac
    | some e =>
      if macBad f e p.mac then .error .mac
      else if e.otherVid p.vid then .error .etype
      else if e.etype = 0x88B6 then
        (if p.mgmtMac ≠ 0 ∧ e.sa ≠ p.mgmtMac then .error .etype
         else if bufferFull s f.port e.size then .error .buf
         else .ok e)
      else if e.etype = 0x88B5 then
        (if s.io.phase = .frozen then .error .silent
         else if !p.en ∨ s.io.phase ≠ .running then .error .etype
         else if bufferFull s f.port e.size then .error .buf
         else .ok e)
      else if isPfc e then .ok e
      else .error .etype

/-- Count at a port; a counter saturates, and holds its value while the part is frozen (R47, R53). -/
def countAt (s : State) (p : Nat) (f : PortCounters → PortCounters) : State :=
  if s.io.phase = .frozen then s else { s with net := s.net.count p f }

/-- A counter's next value: 64 bits, saturating (01 R26). -/
def bump (n : Nat) : Nat := min (n + 1) (2 ^ 64 - 1)

def countDrop (s : State) (p : Nat) : Drop → State
  | .mac => countAt s p fun c => { c with dropMac := bump c.dropMac }
  | .etype => countAt s p fun c => { c with dropEtype := bump c.dropEtype }
  | .malf => countAt s p fun c => { c with dropMalf := bump c.dropMalf }
  | .buf => countAt s p fun c => { c with dropBuf := bump c.dropBuf }
  | .silent => s

end Sys2Proof.Machine
end

