-- ==== Sys2Proof/Machine/Transport.lean ====
section
/-! DEFINITION. The sending side of the transport and acknowledgements (02 R33 to R35, R38, R39, R41): choice of port, frames in
the window of a stream, retransmission, failure of a stream, answers to the part's own requests (02 R46). -/

namespace Sys2Proof.Machine

/-- Core cycles in a microsecond (00 R2). -/
def usCycles : Nat := 850

def ownRank (s : State) : Nat := s.net.port0.rank
def streamKey (rank stream : Nat) : Nat := rank % 4096 * 16 + stream % 16

namespace State
def modNet (s : State) (f : Net → Net) : State := { s with net := f s.net }
def modChip (s : State) (f : Chip → Chip) : State := { s with chip := f s.chip }
def modIo (s : State) (f : Io → Io) : State := { s with io := f s.io }
def modTx (s : State) (key : Nat) (f : TxStream → TxStream) : State :=
  s.modNet fun n => { n with tx := n.tx.put key (f (n.tx.getD key .init)) }
def modRx (s : State) (key : Nat) (f : RxStream → RxStream) : State :=
  s.modNet fun n => { n with rx := n.rx.put key (f (n.rx.getD key .init)) }
end State

/-! ## Ports (R32, R33, R35) -/

/-- The port that a stream to a rank uses by PMASK (R35). -/
def maskPort (pm rank stream : Nat) : Nat := if pm = 3 then (stream ^^^ rank) % 2 else if pm = 2 then 1 else 0

/-- Vorby leaves a port whose link is up and whose EN is 1. -/
def portUp (s : State) (p : Nat) : Bool := (s.net.port p).link && (s.net.port p).en

/-- The port on which a stream's frames leave now, if one is usable (R35). -/
def choosePort (s : State) (rank stream : Nat) : Option Nat :=
  let pm := (s.net.rank rank).pmask
  let p := maskPort pm rank stream
  if pm = 0 then none
  else if portUp s p then some p
  else if pm = 3 ∧ portUp s (1 - p) then some (1 - p)
  else none

def portPcp (s : State) (p : Nat) (ctl : Bool) : Nat := if ctl then (s.net.port p).pcpCtl else (s.net.port p).pcpData

/-- The partner has paused the priority (R33). -/
def pausedAt (s : State) (p prio : Nat) : Bool :=
  (s.net.port p).pfcEn.getLsbD prio && decide (s.io.clock < (s.net.port p).pausedTill.getD prio 0)

/-- Put a frame on a port's lanes. -/
def putWire (s : State) (p da pcp etype : Nat) (data : List Byte) : State :=
  let x := s.net.port p
  s.modNet fun n => { n with wire := n.wire ++ [⟨p, s.io.clock, ethBytes da x.mac.toNat pcp x.vid etype data⟩] }

/-- A frame of a priority waits behind a pause, or behind frames that do (R33). -/
def macHeld (s : State) (before : List MacFrame) (p pcp : Nat) : Bool :=
  pausedAt s p pcp || before.any fun (f : MacFrame) => f.port == p && f.pcp == pcp

/-- Send a management frame, or hold it while its priority is paused (R33). -/
def sendMac (s : State) (f : MacFrame) : State :=
  if macHeld s s.net.macWait f.port f.pcp then s.modNet fun n => { n with macWait := n.macWait ++ [f] }
  else putWire s f.port f.da f.pcp f.etype f.data

/-- Send what waits behind pauses that are over. -/
def pumpMac (s : State) : State :=
  if s.net.macWait.isEmpty then s
  else s.net.macWait.foldl sendMac (s.modNet fun n => { n with macWait := [] })

/-! ## Acknowledgement state that leaves with a frame (R38) -/

/-- ACKPSN and SACK of a receive stream. -/
def ackState (s : State) (key : Nat) : Option (Nat × Nat) :=
  (s.net.rx.find? key).map fun r =>
    (r.ackPsn, bitsOf 31 fun i => r.held.any fun (m : Msg) => m.psn == (r.ackPsn + 1 + i) % 2 ^ 32)

/-- A Vorby frame leaves on a port with the acknowledgement state of the reverse stream. -/
def putVorby (s : State) (p rank stream mtype : Nat) (ctl ord : Bool) (psn msgid tspec : Nat) (addr : W64) (payload : List Byte) :
    State :=
  let key := streamKey rank stream
  let ack := ackState s key
  let h : Hdr := { ver := 1, mtype := mtype, ackv := ack.isSome, ord := ord, drank := rank, srank := ownRank s
                   group := s.net.port0.group, stream := stream, epoch := s.net.port0.epoch, len := payload.length
                   psn := psn, ackPsn := (ack.getD (0, 0)).1, sack := (ack.getD (0, 0)).2, msgid := msgid, tspec := tspec
                   rsv := 0 }
  let data := hdrBytes h ++ (if hasAddr mtype then leBytes 8 addr.toNat else []) ++ payload
  let s := putWire s p (s.net.rank rank).pmac (portPcp s p ctl) 0x88B5 data
  let s := countAt s p fun c => { c with txFrames := bump c.txFrames }
  if ack.isSome then s.modRx key fun r => { r with unacked := 0 } else s

/-- Send the acknowledgement state of a stream from a rank in an ACK frame; nothing leaves while no port is usable. -/
def sendAck (s : State) (rank stream : Nat) : State :=
  match choosePort s rank stream with
  | none => s
  | some p => if pausedAt s p (portPcp s p true) then s else putVorby s p rank stream 0xF true false 0 0 0 0 []

/-! ## What an answer does to the part's own request (R46) -/

/-- The request that an answer with a MSGID from a rank on a stream is for. -/
def findRequest (s : State) (rank stream msgid : Nat) : Option (Nat × Outst) :=
  List.find? (fun (e : Nat × Outst) => e.2.rank == rank && e.2.stream == stream && (Config.msgId e.1).toNat == msgid) s.net.outst

def dropRequest (s : State) (n : Nat) : State := s.modNet fun x => { x with outst := x.outst.del n }

/-- A NACK, received or local, for a request. The compute part of a frozen part stands still (03 R78). -/
def requestNack (s : State) (rank stream msgid code : Nat) : State :=
  match findRequest s rank stream msgid with
  | none => s
  | some (n, o) =>
    if s.io.phase = .frozen then dropRequest s n
    else (dropRequest s n).modChip fun c =>
      if o.conv then pullNack c o.opId code rank else asyncAck c o.opId o.row code 0 o.len

/-- A REPLY for a request; that of a frozen part finds the compute part standing still, too. -/
def requestReply (s : State) (rank stream msgid : Nat) (flags : Flags) (payload : List Byte) : State :=
  match findRequest s rank stream msgid with
  | none => s
  | some (n, o) =>
    if s.io.phase = .frozen then dropRequest s n
    else (dropRequest s n).modChip fun c =>
      if o.conv then pullReply c o.opId o.row payload else asyncAck c o.opId o.row 0 flags o.len

/-- A message completes locally with a NACK code (R35, R39, R41); of a REPLY, a NACK or an EVENT nothing waits for it. -/
def localNack (s : State) (rank stream mtype msgid code : Nat) : State :=
  let p := maskPort (s.net.rank rank).pmask rank stream
  let s := countAt s p fun c => { c with nackRx := bump c.nackRx }
  if mtype = 4 ∨ mtype = 5 ∨ mtype = 6 then s else requestNack s rank stream msgid code

/-! ## Send streams (R39) -/

/-- A frame leaves if a port is usable and not paused. -/
def emit (s : State) (rank stream : Nat) (f : TxFrame) : Option State :=
  match choosePort s rank stream with
  | none => none
  | some p =>
    if pausedAt s p (portPcp s p f.ctl) then none
    else some (putVorby s p rank stream f.mtype f.ctl f.ord f.psn f.msgid f.tspec f.addr f.payload)

/-- Messages that wait enter the window of 32 with the next PSNs. -/
def fillWindow (clock : Nat) (t : TxStream) : TxStream :=
  let k := 32 - t.frames.length
  let go := t.waiting.take k
  let new := (List.range go.length).zip go |>.map fun x =>
    { x.2 with psn := (t.next + x.1) % 2 ^ 32, since := clock }
  { next := (t.next + go.length) % 2 ^ 32, frames := t.frames ++ new, waiting := t.waiting.drop k }

/-- A NACK counts at the port by which its frame first leaves (R53). -/
def countNack (s : State) (p : Nat) (f : TxFrame) : State :=
  if f.mtype = 5 ∧ !f.sent then countAt s p fun c => { c with nackTx := bump c.nackTx } else s

/-- Send what a stream may send. -/
def pumpStream (s : State) (key : Nat) : State :=
  let s := s.modTx key (fillWindow s.io.clock)
  (s.net.tx.getD key .init).frames.foldl (fun (s : State) (f : TxFrame) =>
    if f.sent then s
    else match choosePort s (key / 16) (key % 16), emit s (key / 16) (key % 16) f with
      | some p, some s => (countNack s p f).modTx key fun t => { t with frames := t.frames.map fun (g : TxFrame) =>
          if g.psn = f.psn then { g with sent := true, since := s.io.clock } else g }
      | _, _ => s) s

/-- Send what every stream may send. -/
def pumpTx (s : State) : State :=
  s.net.tx.foldl (fun s e => if e.2.waiting.isEmpty && e.2.frames.all (·.sent) then s else pumpStream s e.1) s

/-- An answer or an event of the part for itself: delivered inside (R34), an event without any effect (R37). -/
def toSelf (s : State) (stream mtype msgid tspec : Nat) (payload : List Byte) : State :=
  match mtype with
  | 4 => requestReply s (ownRank s) stream msgid (BitVec.ofNat 5 (tspec / 2 ^ 8)) payload
  | 5 => requestNack (countAt s 0 fun c => { c with nackRx := bump c.nackRx }) (ownRank s) stream msgid (tspec % 256)
  | _ => s

/-- A message for a rank (R34, R35): inside for the part's own rank, NORANK or TIMEOUT at once, or a place in its stream. -/
def sendMsg (s : State) (rank stream mtype : Nat) (ctl ord : Bool) (msgid tspec : Nat) (addr : W64) (payload : List Byte) : State :=
  let e := s.net.rank rank
  if rank = ownRank s then toSelf s stream mtype msgid tspec payload
  else if e.pmask = 0 then localNack s rank stream mtype msgid 8
  else if e.failed.getLsbD stream then localNack s rank stream mtype msgid 9
  else s.modTx (streamKey rank stream) fun t => { t with waiting := t.waiting ++
    [{ psn := 0, mtype := mtype, ctl := ctl, ord := ord, msgid := msgid, tspec := tspec, addr := addr, payload := payload
       sent := false, retries := 0, since := 0, sacked := false, fast := false }] }

/-- Every message of a stream that is not acknowledged completes with TIMEOUT. -/
def timeoutStream (s : State) (key : Nat) : State :=
  let t := s.net.tx.getD key .init
  let s := s.modTx key fun t => { t with frames := [], waiting := [] }
  (t.frames ++ t.waiting).foldl (fun s (f : TxFrame) => localNack s (key / 16) (key % 16) f.mtype f.msgid 9) s

/-- A stream fails (R39). STREAM_FAIL counts at the port that PMASK gives, whichever port is usable (log 81). -/
def failStream (s : State) (key : Nat) : State :=
  let rank := key / 16
  let p := maskPort (s.net.rank rank).pmask rank (key % 16)
  let s := countAt s p fun c => { c with streamFail := bump c.streamFail }
  let s := s.modNet fun n => n.setRank rank
    { n.rank rank with failed := (n.rank rank).failed ||| BitVec.ofNat 16 (2 ^ (key % 16)) }
  timeoutStream s key

/-- Retransmit a frame, or count the expiry while no port is usable; the stream fails at RETRY_MAX. While the frame's priority
is paused nothing happens. -/
def retransmit (s : State) (key psn : Nat) (fast : Bool) : State :=
  let rank := key / 16
  let stream := key % 16
  match List.find? (fun (f : TxFrame) => f.psn == psn) (s.net.tx.getD key .init).frames with
  | none => s
  | some f =>
    let p := maskPort (s.net.rank rank).pmask rank stream
    let limit := (s.net.port ((choosePort s rank stream).getD p)).retryMax
    let after := fun (s : State) =>
      let s := s.modTx key fun t => { t with frames := t.frames.map fun (g : TxFrame) =>
        if g.psn = psn then { g with retries := g.retries + 1, since := s.io.clock, fast := fast } else g }
      if f.retries + 1 ≥ limit then failStream s key else s
    match choosePort s rank stream, emit s rank stream f with
    | none, _ => if fast then s else after s
    | some _, none => s
    | some p, some s => after (countAt ((countNack s p f).modTx key fun t => { t with frames := t.frames.map fun (g : TxFrame) =>
        if g.psn = psn then { g with sent := true } else g }) p fun c => { c with retx := bump c.retx })

/-- RTO_EXPIRY of a frame (R35, R39), by RTO and RETRY_MAX of the port that the stream uses; while none is usable, of the port that
PMASK gives (log 114). -/
def rtoExpiry (s : State) (rank stream psn : Nat) : State :=
  let key := streamKey rank stream
  let p := maskPort (s.net.rank rank).pmask rank stream
  let rto := (s.net.port ((choosePort s rank stream).getD p)).rto * usCycles
  match List.find? (fun (f : TxFrame) => f.psn == psn) (s.net.tx.getD key .init).frames with
  | some f => if f.sacked || decide (s.io.clock < f.since + rto) then s else retransmit s key psn false
  | none => s

/-- Apply acknowledgement state to the send stream to a rank: frames below ACKPSN are acknowledged, SACK marks received ones, and
a frame with three later ones received is retransmitted at once (R39). -/
def applyAck (s : State) (rank stream ackPsn sack : Nat) : State :=
  let key := streamKey rank stream
  match s.net.tx.find? key with
  | none => s
  | some t =>
    let base := match t.frames with | f :: _ => f.psn | [] => t.next
    let d := (ackPsn + 2 ^ 32 - base) % 2 ^ 32
    if d > t.frames.length then s
    else
      let fs := (t.frames.drop d).map fun (f : TxFrame) =>
        let i := (f.psn + 2 ^ 32 - ackPsn - 1) % 2 ^ 32
        if i < 31 ∧ sack.testBit i then { f with sacked := true } else f
      let s := s.modTx key fun t => { t with frames := fs }
      let later := fun (f : TxFrame) => (fs.filter fun (g : TxFrame) => g.sacked &&
        decide (0 < (g.psn + 2 ^ 32 - f.psn) % 2 ^ 32) && decide ((g.psn + 2 ^ 32 - f.psn) % 2 ^ 32 < 32)).length
      (fs.filter fun (f : TxFrame) => f.sent && !f.sacked && !f.fast && decide (3 ≤ later f)).foldl
        (fun s (f : TxFrame) => retransmit s key f.psn true) s

/-- ACK_TIMER of a stream from a rank (R38). -/
def ackTimer (s : State) (rank stream : Nat) : State :=
  match s.net.rx.find? (streamKey rank stream) with
  | none => s
  | some r => if r.unacked = 0 ∨ s.io.clock < r.oldest + 2 * usCycles then s else sendAck s rank stream

/-- A write of EPOCH of port 0 (R41). -/
def writeEpoch (s : State) (v : Nat) : State :=
  if v = s.net.port0.epoch then s
  else
    let s := s.modNet fun n => { n with port0 := { n.port0 with epoch := v } }
    let s := s.net.tx.foldl (fun s e => timeoutStream s e.1) s
    s.modNet fun n => { n with tx := [], ranks := n.ranks.map fun e => (e.1, { e.2 with failed := 0 }) }

/-! ## Priority flow control (R33) -/

/-- Send the PFC frames that the buffer's level calls for, with PCP 0 in their tags (log 111). -/
def pfcLevel (s : State) (p : Nat) : State :=
  (List.range 8).foldl (fun (s : State) prio =>
    let x := s.net.port p
    if !x.pfcEn.getLsbD prio then s
    else
      let n := heldBytes s p fun m => m.prio == prio
      let paused := x.pausing.getLsbD prio
      let send := fun (s : State) (quanta : Nat) (bit : BitVec 8) =>
        let times := (List.range 8).flatMap fun k => beBytes 2 (if k = prio then quanta else 0)
        let s := putWire s p pfcMac 0 0x8808 (beBytes 2 0x0101 ++ beBytes 2 (2 ^ prio) ++ times)
        s.modNet fun n => n.modPort p fun y => { y with pausing := bit }
      if (!paused && decide (n > x.xoff * 1024)) then send s 0xFFFF (x.pausing ||| BitVec.ofNat 8 (2 ^ prio))
      else if (paused && decide (n < x.xon * 1024)) then send s 0 (x.pausing &&& ~~~BitVec.ofNat 8 (2 ^ prio))
      else s) s

/-- Until when each priority is paused after a PFC frame's data: quanta of 512 bit times at 800 Gbit/s. -/
def Port.pauses (x : Port) (clock : Nat) (data : List Byte) : Vector Nat 8 :=
  Vector.ofFn fun k =>
    if x.pfcEn.getLsbD k.val ∧ (beNat ((data.drop 2).take 2)).testBit k.val then
      (let q := beNat ((data.drop (4 + 2 * k.val)).take 2)
       if q = 0 then 0 else clock + (q * 544 + 999) / 1000)
    else x.pausedTill.getD k.val 0

/-- A received PFC frame: each enabled priority named in it is paused for its quanta. -/
def receivePfc (s : State) (p : Nat) (data : List Byte) : State :=
  s.modNet fun n => n.modPort p fun x => { x with pausedTill := x.pauses s.io.clock data }

/-- PFC_PAUSE_EXPIRY (R33). -/
def pauseExpiry (s : State) (p prio : Nat) : State :=
  let t := (s.net.port p).pausedTill.getD prio 0
  if t = 0 ∨ s.io.clock < t then s
  else s.modNet fun n => n.modPort p fun x => { x with pausedTill := x.pausedTill.setIfInBounds prio 0 }

end Sys2Proof.Machine
end

