-- ==== Sys2Proof/Machine/Rings.lean ====
section
/-! DEFINITION. Event rings, event frames, completion and peer-fault records (03 R64 to R69, 04 R105). -/

namespace Sys2Proof.Machine

/-! ## Accesses of the I/O die's agents (01 R451; log 38) -/

/-- Leave the lines of a translated range in the L2 as the page's CP allows (07 R191, R192). -/
def touchL2 (s : Chip) (asid : Nat) (store : Bool) (ps : List (Nat × Nat × Nat)) : Chip :=
  touchAt s 0 asid (if store then 1 else 2) ps

/-- Translate a range for an agent of the I/O die, through die 0's shared TLB (log 38): virtual address, P, length. -/
def ioRange (s : Chip) (asid va n : Nat) (a : Acc) : Except (Bool × Nat) (List (Nat × Nat × Nat)) × Chip :=
  match xlRange s 0 asid va n a with
  | (.error e, s) => (.error e, s)
  | (.ok ps, s) => (.ok ((piecesOf va n).zip ps |>.map fun x => (x.1.1, x.2.1, x.2.2)), s)

/-- A piece of the range lies in a claimed line, which holds its reading (08 R222). -/
def ioClaimed (s : Chip) (ps : List (Nat × Nat × Nat)) : Bool := ps.any fun p => (linesOf p.2.1 p.2.2).any s.claimed

/-- A claim, of a write or a read, holds the writing of the range (08 R222, R223). -/
def ioStoreHeld (s : Chip) (ps : List (Nat × Nat × Nat)) : Bool := ps.any fun p => (linesOf p.2.1 p.2.2).any s.storeHeld

/-- Claims hold an access of an agent of the I/O die to a virtual range, or its walks. -/
def ioHeld (s : Chip) (asid va n : Nat) (store : Bool) : Bool :=
  rangeWalkHeld s 0 asid va n || (match (ioRange s asid va n (if store then .store else .load)).1 with
    | .ok ps => if store then ioStoreHeld s ps else ioClaimed s ps
    | .error _ => false)

def ioRead (s : Chip) (asid : Nat) (ps : List (Nat × Nat × Nat)) : List Byte × Chip :=
  (ps.flatMap fun p => s.rdMem p.2.1 p.2.2, touchL2 s asid false ps)

def ioWrite (s : Chip) (asid : Nat) (ps : List (Nat × Nat × Nat)) (bs : List Byte) : Chip :=
  wrPieces (touchL2 s asid true ps) (ps.map (·.2)) bs

/-- The virtual address of the first poisoned byte of a range. -/
def ioPoison (s : Chip) (ps : List (Nat × Nat × Nat)) : Option Nat :=
  ps.findSome? fun p => (s.poisoned p.2.1 p.2.2).map fun g => p.1 + (max g p.2.1 - p.2.1)

/-- Store words at a virtual address of an address space; none when a page faults. -/
def ioStore (s : Chip) (asid va : Nat) (bs : List Byte) : Option Chip :=
  match ioRange s asid va bs.length .store with
  | (.error _, _) => none
  | (.ok ps, s) => some (ioWrite s asid ps bs)

/-! ## Rings (R67, R68) -/

/-- Records that the ring holds. -/
def Ring.records (r : Ring) : Nat := 64 * 2 ^ r.size

/-- Room by the HEAD and TAIL that the part knows. -/
def Ring.room (r : Ring) : Bool := decide ((r.head + 2 ^ 64 - r.tail) % 2 ^ 64 < r.records)

/-- The address of the next record (R67). -/
def Ring.slot (r : Ring) : Nat := (r.base + 64 + 64 * (r.head % r.records)) % 2 ^ 64

/-- The ring after a record has been written (R67, R69). -/
def Ring.written (r : Ring) (clock : Nat) (bs : List Byte) : Ring :=
  { r with head := (r.head + 1) % 2 ^ 64, unsent := r.unsent ++ [(clock, bs)] }

/-- Claims hold the writing of a ring's next record and HEAD, or the reading of TAIL that comes before it (08 R222). -/
def ringHeld (s : State) (n : Nat) : Bool :=
  let r := s.net.ring n
  r.en && (ioHeld s.chip r.asid r.slot 64 true || ioHeld s.chip r.asid r.base 8 true ||
    (!r.room && ioHeld s.chip r.asid ((r.base + 8) % 2 ^ 64) 8 false))

/-- EN is cleared and DROPPED incremented after a translation fault. -/
def ringFault (s : State) (n : Nat) : State :=
  s.modNet fun x => x.modRing n fun r => { r with en := false, dropped := bump r.dropped }

/-- TAIL is read again when the ring was last seen full; a fault clears EN (log 39). -/
def seeTail (s : State) (n : Nat) : State :=
  let r := s.net.ring n
  if r.room then s
  else match ioRange s.chip r.asid ((r.base + 8) % 2 ^ 64) 8 .load with
    | (.error _, c) => ringFault { s with chip := c } n
    | (.ok ps, c) =>
      let (bs, c) := ioRead c r.asid ps
      { s with chip := c }.modNet fun x => x.modRing n fun r => { r with tail := leNat bs }

/-- What comes of writing a record. -/
inductive Written where
  | ok | full | off | fault
deriving DecidableEq, Repr

/-- The word written to HEAD once a record is there (R67). -/
def Ring.headBytes (r : Ring) : List Byte := leBytes 8 (r.head + 1)

/-- Write a record into a ring that has room for it, then HEAD (R67). -/
def ringStore (s : State) (n : Nat) (bs : List Byte) : Written × State :=
  match ioStore s.chip (s.net.ring n).asid (s.net.ring n).slot bs with
  | none => (.fault, ringFault s n)
  | some c =>
    match ioStore c (s.net.ring n).asid (s.net.ring n).base (s.net.ring n).headBytes with
    | none => (.fault, ringFault { s with chip := c } n)
    | some c => (.ok, { s with chip := c }.modNet fun x => x.modRing n fun r => r.written s.io.clock bs)

/-- Write a record by TAIL as last seen. -/
def ringPut (s : State) (n : Nat) (bs : List Byte) : Written × State :=
  if !(s.net.ring n).en then (.fault, s)
  else if !(s.net.ring n).room then (.full, s)
  else ringStore s n bs

/-- Write a record (R67). -/
def ringWrite (s : State) (n : Nat) (bs : List Byte) : Written × State :=
  if !(s.net.ring n).en then (.off, s) else ringPut (seeTail s n) n bs

/-! ## Event frames (R69) -/

/-- No frame is sent while DRANK's PMASK is 0 (R69); to the part's own rank no port is needed (02 R34). -/
def Ring.mute (r : Ring) (s : State) : Bool := r.drank != ownRank s && (s.net.rank r.drank).pmask == 0

/-- Send one EVENT frame with the oldest unsent records, at most 128. FRAMES counts one to the part's own rank too (log 115). -/
def eventFrame (s : State) (n : Nat) : State :=
  let r := s.net.ring n
  let go := r.unsent.take 128
  if go.isEmpty ∨ r.mute s then s
  else
    let s := s.modNet fun x => x.modRing n fun r => { r with unsent := r.unsent.drop 128, frames := bump r.frames }
    sendMsg s r.drank r.stream 6 true false 0 n 0 (go.flatMap (·.2))

/-- Frames that the count of unsent records, or a TIMER of 0, calls for. -/
def eventFrames (s : State) (n : Nat) : Nat → State
  | 0 => s
  | fuel + 1 =>
    let r := s.net.ring n
    if r.unsent.isEmpty then s
    else if r.timer = 0 ∨ r.unsent.length ≥ r.thresh then
      (if r.mute s then s else eventFrames (eventFrame s n) n fuel)
    else s

def ringEvents (s : State) (n : Nat) : State := eventFrames s n (s.net.ring n).unsent.length

/-- EVENT_TIMER_EXPIRY of a ring. -/
def eventTimer (s : State) (n : Nat) : State :=
  let r := s.net.ring n
  match r.unsent with
  | [] => s
  | e :: _ => if s.io.clock < e.1 + r.timer * usCycles then s else eventFrame s n

/-! ## Records -/

/-- A peer-fault record (R66), written or dropped (R67). -/
def peerFault (s : State) (ring code srank msgid : Nat) (va : W64) (row : Nat) : State :=
  let bs := [2 * 2 ^ 56 + code * 2 ^ 48 + srank * 2 ^ 32 + msgid, s.chip.timebase, va.toNat, row % 2 ^ 24, 0, 0, 0, 0].flatMap
    (leBytes 8)
  match ringWrite s ring bs with
  | (.ok, s) => ringEvents s ring
  | (.fault, s) => s
  | (_, s) => s.modNet fun x => x.modRing ring fun r => { r with dropped := bump r.dropped }

def sat (bits n : Nat) : Nat := min n (2 ^ bits - 1)

/-- A completion record (R64). -/
def completionBytes (ts : Nat) (l : Launch) : List Byte :=
  let status := if l.killed then 2 else if l.faultCount ≠ 0 then 1 else 0
  [2 ^ 56 + status * 2 ^ 48 + l.firstCause % 256 * 2 ^ 40 + l.id, ts, sat 32 l.faultCount * 2 ^ 32 + l.firstTask,
    sat 32 l.nacks * 2 ^ 32 + l.fstat.toNat, sat 64 l.bundles, sat 64 l.frozen, sat 32 l.done * 2 ^ 32 + sat 32 l.faulted,
    sat 32 l.adoptions * 2 ^ 32 + sat 32 l.preempts].flatMap (leBytes 8)

/-- The launch's tasks have ended, its contexts are released, its memory effects have performed, its remote stores are
acknowledged, and its end notices are processed (R65, R105, 05 R132). -/
def launchOver (s : Chip) (slot : Nat) (l : Launch) : Bool :=
  let mine := fun (t : Nat) => decide (t ≠ 0) && taskSlot t == slot
  decide (l.done + l.faulted = l.created) && l.notices.isEmpty && !(s.held.any fun (h : HeldStore) => mine h.task) &&
  !(s.cores.any fun e => e.2.crews.any (fun c => mine c.1) || e.2.path.any fun (p : PathEntry) => mine p.task) &&
  !(s.asyncs.any fun (a : Async) => mine a.who.task) &&
  !((List.range Config.dies).any fun d => (s.die d).series.any (fun (i : SeriesItem) => mine i.who.task) ||
      (s.die d).adopting.any fun (p : PendAdopt) => mine p.task)

/-- A slot's launch is gone: its cursors leave the queues. -/
def freeSlot (s : Chip) (slot : Nat) : Chip :=
  let s := { s with launches := s.launches.del slot }
  (List.range Config.dies).foldl (fun (s : Chip) d => s.modDie d fun y => { y with
    queues := y.queues.map fun e => (e.1, e.2.filter fun (q : QEnt) => !(q.cursor && q.who == slot))
    entry0 := y.entry0.filter fun e => taskSlot e.1 != slot }) s

/-- COMPLETION_RECORD_WRITE of a launch slot (R65, R67): gathered bits of its address space are written back first (07 R199), and
the slot is freed once the record and HEAD are written; claimed lines hold all of it (08 R222). The KILLs that wait for it are answered by the command processor. -/
def completionWrite (s : State) (slot : Nat) : State :=
  match s.chip.launches.find? slot with
  | none => s
  | some l =>
    if !launchOver s.chip slot l ∨ !(s.net.ring l.ring).en ∨ gatheredHeld s.chip (fun e => e.asid == l.asid) ∨ ringHeld s l.ring then s
    else
      let s := s.modChip fun c => flushGathered c fun e => e.asid == l.asid
      match ringWrite s l.ring (completionBytes (s.chip.timebase) l) with
      | (.ok, s) => ringEvents (s.modChip fun c => freeSlot c slot) l.ring
      | (_, s) => s

end Sys2Proof.Machine
end

