-- ==== Sys2Proof/Machine/Fabric.lean ====
section
/-! DEFINITION. Messages at the part: acceptance in sequence (02 R38, R41), the order in which they begin and take effect (R40),
one-sided accesses through windows (R42 to R46), commands arriving (R37, 03 R54), messages of the part to itself (R34). -/

namespace Sys2Proof.Machine

/-! ## Commands arriving (03 R54, R57) -/

/-- The one REPLY to a command: STATUS, OPC, RESULT and read data. -/
def answerCmd (s : State) (c : Cmd) (status result : Nat) (data : List Byte) : State :=
  let opc := (c.bytes.headD 0).toNat
  sendMsg s c.srank c.stream 4 true false c.msgid 0 0 (leBytes 8 (status + opc * 2 ^ 8) ++ leBytes 8 result ++ data)

/-- A CMD message begins: its command is queued, or answered QDISABLED or BUSY (R54). -/
def cmdArrive (s : State) (q : Nat) (c : Cmd) : State :=
  let x := s.net.queue q
  let refuse := fun (status : Nat) =>
    answerCmd (s.modNet fun n => n.modQueue q fun x => { x with refused := bump x.refused }) c status 0 []
  if !x.en then refuse 0x0B
  else if x.pending.length ≥ 64 then refuse 4
  else s.modNet fun n => n.modQueue q fun x => { x with accepted := bump x.accepted, pending := x.pending ++ [c] }

/-! ## Answers -/

/-- Messages for the part itself are answered inside (R34). -/
def replyMsg (s : State) (p : RxPending) (flags : Flags) (data : List Byte) : State :=
  let m := p.msg
  if p.self then requestReply s m.srank m.stream m.msgid flags data
  else sendMsg s m.srank m.stream 4 false false m.msgid (flags.toNat * 2 ^ 8) 0 data

def freeWindow (s : State) (p : RxPending) : State :=
  match p.window with
  | some w => s.modNet fun n => n.setWindow w.no { n.window w.no with inflight := (n.window w.no).inflight - 1 }
  | none => s

def rowOf (m : Msg) : Nat := if m.mtype = 7 then m.tspec % 2 ^ 24 else 0

/-- A NACK (R42 step 7), with its peer-fault record in the ring of the window that step 2 found. -/
def refuseMsg (s : State) (p : RxPending) (code : Nat) (va : W64) (window : Option WinRef) (ctl : Bool) : State :=
  let m := p.msg
  let s := match window with
    | some w => peerFault s w.fring code m.srank m.msgid va (rowOf m)
    | none => s
  if p.self then requestNack (countAt s m.port fun c => { c with nackRx := bump c.nackRx }) m.srank m.stream m.msgid code
  else sendMsg s m.srank m.stream 5 ctl false m.msgid (rowOf m * 2 ^ 8 + code) va []

/-- A refusal whose peer-fault record claims hold keeps its message waiting (08 R222). -/
def refuseOrWait (s : State) (p : RxPending) (code : Nat) (va : W64) (window : Option WinRef) (past : Bool) :
    State × Option RxPending :=
  match window with
  | some w => if ringHeld s w.fring then (s, some p) else (refuseMsg (if past then freeWindow s p else s) p code va window false, none)
  | none => (refuseMsg s p code va none false, none)

/-! ## The steps of R42 -/

/-- The operation of an ATOMIC (R44). -/
def wireAtOp : Nat → Option Irnov.AtOp
  | 0 => some .add | 1 => some .min | 2 => some .max | 3 => some .and | 4 => some .or | 5 => some .xor
  | 6 => some .xchg | 7 => some .fadd | 8 => some .cas | _ => none

def atWidth (m : Msg) : Nat := if m.tspec.testBit 4 then 8 else 4

/-- Bytes that a message accesses; of a PLPULL, those of the tile in the window's address space. -/
def msgBytes (s : State) (asid : Nat) (m : Msg) : Nat :=
  match m.mtype with
  | 1 => m.tspec % 2 ^ 14
  | 3 => atWidth m
  | 8 => 2 ^ (s.chip.pent (m.tspec / 2 ^ 8 % 8) asid (m.tspec % 256)).tlog
  | _ => m.payload.length

def msgAcc (m : Msg) : Acc := match m.mtype with | 1 | 8 => .load | 3 => .atomic | _ => .store

def findWindowOf (s : State) (a : Nat) : Option Nat :=
  (List.range 64).find? fun w => let x := s.net.window w; x.v && decide (x.base ≤ a) && decide (a < x.base + x.length)

/-- A window as a message past lookup keeps it (R46). -/
def winRef (s : State) (w : Nat) : WinRef := ⟨w, (s.net.window w).asid, (s.net.window w).fring⟩

/-- Steps 1 to 3: the window, or the NACK code with the window that it names. -/
def windowCheck (s : State) (m : Msg) : Except (Nat × Option Nat) Nat :=
  let a := m.addr.toNat
  let n0 := m.tspec % 2 ^ 14
  if (m.mtype = 1 ∧ (n0 = 0 ∨ n0 > 8192)) ∨ ((m.mtype = 2 ∨ m.mtype = 7) ∧ m.payload.isEmpty) then .error (7, none)
  else match findWindowOf s a with
    | none => .error (1, none)
    | some w =>
      let x := s.net.window w
      let n := msgBytes s x.asid m
      let allowed := match m.mtype with | 1 | 8 => x.r | 3 => x.a | _ => x.w
      if a + n > x.base + x.length then .error (6, some w)
      else if !allowed then .error (2, some w)
      else
        let op := if m.mtype = 7 then m.tspec / 2 ^ 24 % 16 else 0
        let size := atWidth m * (if m.tspec % 16 = 8 then 2 else 1)
        if m.mtype = 3 ∧ (m.tspec % 16 > 8 ∨ (m.tspec % 16 = 7 ∧ n = 8) ∨ m.payload.length ≠ size) then .error (7, some w)
        else if m.mtype = 3 ∧ a % n ≠ 0 then .error (5, some w)
        else if op > 13 then .error (7, some w)
        else if op ≠ 0 ∧ (a % reduceSize op ≠ 0 ∨ n % reduceSize op ≠ 0) then .error (5, some w)
        else .ok w

/-- Messages past lookup and not answered. -/
def inFlight (s : State) : Nat := s.net.windows.foldl (fun a e => a + e.2.inflight) 0

/-- Write or combine bytes at translated pieces (R43). -/
def combineIn (s : Chip) (op : Nat) (ps : List (Nat × Nat × Nat)) (bs : List Byte) : Flags × Chip :=
  let r := ps.foldl (fun (st : Flags × List Byte × Chip) p =>
    let (old, c) := st.2.2.rdFree p.2.1 p.2.2
    let (new, f) := reduceBytes op old (st.2.1.take p.2.2)
    (st.1 ||| f, st.2.1.drop p.2.2, c.wrMem p.2.1 new)) (0, bs, s)
  (r.1, r.2.2)

/-- Claims hold the access of a message at its pieces: reads wait for write claims, writes for every claim, and a pull, which reads under
read claims, for none (08 R222 to R224). -/
def msgHeld (s : Chip) (m : Msg) (ps : List (Nat × Nat × Nat)) : Bool :=
  match m.mtype with
  | 8 => false
  | 1 => ioClaimed s ps
  | _ => ioStoreHeld s ps

/-- An ATOMIC at its word (R44): operation and lane. -/
def wireLane (s : Chip) (asid : Nat) (m : Msg) (ps : List (Nat × Nat × Nat)) : Irnov.AtOp × AtLane :=
  let w := atWidth m
  ((wireAtOp (m.tspec % 16)).getD .add,
    ⟨0, (ps.headD (0, 0, 0)).2.1, leNat (if m.tspec % 16 = 8 then m.payload.drop w else m.payload), leNat (m.payload.take w),
      agentInsert s 0 asid m.addr.toNat 1⟩)

/-- Step 6 at translated pieces: the answer to a message whose effects may perform; what stays waiting while claims hold it. -/
def accessMsg (s : State) (p : RxPending) (asid : Nat) (ps : List (Nat × Nat × Nat)) : State × Option RxPending :=
  let m := p.msg
  let c := s.chip
  if msgHeld c m ps then (s, some p)
  else match m.mtype with
    | 1 | 8 => match ioPoison c ps with
      | some va => refuseOrWait s p 4 (BitVec.ofNat 64 va) p.window true
      | none =>
        let (bs, c) := ioRead c asid ps
        (replyMsg (freeWindow { s with chip := c } p) p 0 bs, none)
    | 3 =>
      let l := wireLane c asid m ps
      let (old, f, c) := atomicMem c l.1 (atWidth m) (m.tspec.testBit 5) [l.2]
      (replyMsg (freeWindow { s with chip := c } p) p f (leBytes (atWidth m) ((old.headD (0, 0)).2)), none)
    | _ =>
      let op := if m.mtype = 7 then m.tspec / 2 ^ 24 % 16 else 0
      let c := touchL2 c asid true ps
      let (f, c) := if op = 0 then (0, wrPieces c (ps.map (·.2)) m.payload) else combineIn c op ps m.payload
      (replyMsg (freeWindow { s with chip := c } p) p f [], none)

/-! ## Order (R40) -/

def sameStream (a b : RxPending) : Bool := a.self == b.self && a.msg.srank == b.msg.srank && a.msg.stream == b.msg.stream

/-- Some earlier message of the stream has not been answered. -/
def unanswered (s : State) (before : List RxPending) (p : RxPending) : Bool :=
  before.any (sameStream p) ||
    (!p.self && s.net.queues.any fun e =>
      let mine := fun (c : Cmd) => c.srank == p.msg.srank && c.stream == p.msg.stream && decide (c.no < p.no)
      e.2.pending.any mine || e.2.inprog.any fun (i : InCmd) => mine i.cmd)

/-- What a PLPULL finds at the placement engine; any other message needs none (09 R241). -/
def pullState (s : State) (asid : Nat) (m : Msg) : Serve :=
  if m.mtype = 8 then
    (servePull s.chip (m.tspec / 2 ^ 8 % 8) asid (m.tspec % 256) (m.tspec / 2 ^ 11) m.addr.toNat).1
  else .ok

/-- One more page of a message's range: through the translations that a TLBINV found before it, or those of die 0 (07 R200). -/
def oldPiece (asid : Nat) (old : List TlbEnt) (a : Acc) (st : Except (Bool × Nat) (List (Nat × Nat × Nat)) × Chip) (pc : Nat × Nat) :
    Except (Bool × Nat) (List (Nat × Nat × Nat)) × Chip :=
  match st with
  | (.error x, s) => (.error x, s)
  | (.ok ps, s) =>
    let r := match tlbFind old asid pc.1 with
      | some e => (match e.phys pc.1 with
          | none => Except.error false
          | some p => if (permFail e.pte a).isSome then .error true else .ok p, s)
      | none => xlAgent s 0 asid pc.1 a
    match r with
    | (.error b, s) => (.error (b, pc.1), s)
    | (.ok p, s) => (.ok (ps ++ [(pc.1, p, pc.2)]), s)

/-- The pieces of a message's access, translated once; a pull is decided and translated again at each attempt. -/
def msgPieces (s : State) (asid : Nat) (p : RxPending) : Except (Bool × Nat) (List (Nat × Nat × Nat)) × Chip :=
  match p.pieces with
  | some ps => (.ok ps, s.chip)
  | none =>
    if p.old.isEmpty then ioRange s.chip asid p.msg.addr.toNat (msgBytes s asid p.msg) (msgAcc p.msg)
    else (piecesOf p.msg.addr.toNat (msgBytes s asid p.msg)).foldl (oldPiece asid p.old (msgAcc p.msg)) (.ok [], s.chip)

/-- A message whose pieces are translated, as it waits. -/
def RxPending.translated (p : RxPending) (ps : List (Nat × Nat × Nat)) : RxPending :=
  { p with pieces := if p.msg.mtype = 8 then none else some ps }

/-- Step 6 of a message at its pieces; what stays waiting. -/
def performMsg (s : State) (before : List RxPending) (p : RxPending) (asid : Nat) (ps : List (Nat × Nat × Nat)) :
    State × Option RxPending :=
  if p.msg.ord && unanswered s before p then (s, some (p.translated ps))
  else accessMsg s (p.translated ps) asid ps

/-- Steps 5 and 6 of a message past lookup; what stays waiting. -/
def serveMsg (s : State) (before : List RxPending) (p : RxPending) (w : WinRef) : State × Option RxPending :=
  match pullState s w.asid p.msg with
  | .refused => refuseOrWait s p 0x0A p.msg.addr (some w) true
  | .held => (s, some p)
  | .ok =>
    if p.pieces.isNone && rangeWalkHeld s.chip 0 w.asid p.msg.addr.toNat (msgBytes s w.asid p.msg) then (s, some p)
    else match msgPieces s w.asid p with
    | (.error (prot, va), c) => refuseOrWait { s with chip := c } p (if prot then 2 else 3) (BitVec.ofNat 64 va) (some w) true
    | (.ok ps, c) => performMsg { s with chip := c } before p w.asid ps

/-- One attempt at a message with the messages before it that still wait. -/
def tryMsg (s : State) (before : List RxPending) (p : RxPending) : State × Option RxPending :=
  let m := p.msg
  if !p.begun && before.any (fun q => sameStream p q && !q.begun) then (s, some p)
  else match m.mtype with
    | 0 =>
      if !(s.net.rank m.srank).h then (refuseMsg s p 2 0 none true, none)
      else (cmdArrive s (m.tspec % 64) ⟨m.srank, m.stream, m.msgid, p.no, m.ord, m.payload⟩, none)
    | 4 => (requestReply s m.srank m.stream m.msgid (BitVec.ofNat 5 (m.tspec / 2 ^ 8)) m.payload, none)
    | 5 => (requestNack (countAt s m.port fun c => { c with nackRx := bump c.nackRx }) m.srank m.stream m.msgid (m.tspec % 256),
        none)
    | 1 | 2 | 3 | 7 | 8 => match p.window with
      | some w => serveMsg s before p w
      | none => match windowCheck s m with
        | .error (code, w) => refuseOrWait s p code m.addr (w.map (winRef s)) false
        | .ok w =>
          if inFlight s ≥ 1023 then (s, some p)
          else
            let r := winRef s w
            let s := s.modNet fun n => n.setWindow w { n.window w with inflight := (n.window w).inflight + 1 }
            serveMsg s before { p with begun := true, window := some r } r
    | _ => (s, none)

/-- Go through the messages that wait, in order. -/
def pumpRx (s : State) : State :=
  let ms := s.net.rxWait
  if ms.isEmpty then s
  else ms.foldl (fun (s : State) p =>
    let (s, r) := tryMsg s s.net.rxWait p
    match r with
    | some p => s.modNet fun n => { n with rxWait := n.rxWait ++ [p] }
    | none => s) (s.modNet fun n => { n with rxWait := [] })

/-! ## What cores and engines send (R34, 08 R226) -/

/-- Hand a message of the part to a stream, or to the part itself. -/
def sendOut (s : State) (m : OutMsg) : State :=
  let (stream, s) := match m.stream with
    | some k => (k, s)
    | none => let r := s.chip.choose 16; (r.1, { s with chip := r.2 })
  let n := s.net.nextMsg
  let id := (Config.msgId n).toNat
  let s := s.modNet fun x => { x with
    nextMsg := n + 1, outst := x.outst.put n ⟨m.rank, stream, m.conv, m.opId, m.row, m.payload.length⟩ }
  if m.rank = ownRank s then
    s.modNet fun x => { x with
      nextRx := x.nextRx + 1
      rxWait := x.rxWait ++ [{ msg := { port := 0, prio := 0, size := 0, mtype := m.mtype, ord := m.ord, srank := m.rank
                                        stream := stream, psn := 0, msgid := id, tspec := m.tspec, addr := m.addr
                                        payload := m.payload }
                               no := x.nextRx, begun := false, window := none, pieces := none, old := [], self := true }] }
  else sendMsg s m.rank stream m.mtype false m.ord id m.tspec m.addr m.payload

def flushOut (s : State) : State :=
  if s.chip.outbox.isEmpty then s
  else s.chip.outbox.foldl sendOut (s.modChip fun c => { c with outbox := [] })

/-! ## Frames received (R38, R41) -/

/-- Why a Vorby frame that passed R31 and R47 is dropped, if it is. -/
def vorbyDrop (s : State) (h : Hdr) : Option Drop :=
  if h.group ≠ s.net.port0.group ∨ h.drank ≠ ownRank s then some .malf
  else
    let seen := s.net.seen.find? h.srank
    if h.mtype = 15 then (if seen = some h.epoch then none else some .malf)
    else
      let fresh : Bool := decide (seen ≠ some h.epoch)
      let r := if fresh then .init else s.net.rx.getD (streamKey h.srank h.stream) .init
      let d := (h.psn + 2 ^ 32 - r.ackPsn) % 2 ^ 32
      if fresh ∧ h.psn ≠ 0 then some .malf
      else if 32 ≤ d ∧ d < 2 ^ 31 then some .malf
      else none

/-- Hand over the frames held at ACKPSN, in order. -/
def handOver (key : Nat) : Nat → Net → Net
  | 0, n => n
  | fuel + 1, n =>
    let r := n.rx.getD key .init
    match List.find? (fun (m : Msg) => m.psn == r.ackPsn) r.held with
    | none => n
    | some m =>
      let r := { r with ackPsn := (r.ackPsn + 1) % 2 ^ 32, held := r.held.filter fun (x : Msg) => x.psn != m.psn }
      handOver key fuel { n with
        rx := n.rx.put key r, nextRx := n.nextRx + 1
        rxWait := n.rxWait ++ [{ msg := m, no := n.nextRx, begun := false, window := none, pieces := none, old := [], self := false }] }

def countRx (s : State) (port : Nat) : State := countAt s port fun c => { c with rxFrames := bump c.rxFrames }

/-- Apply the acknowledgement state that a frame carries. -/
def ackIn (s : State) (h : Hdr) : State := if h.ackv then applyAck s h.srank h.stream h.ackPsn h.sack else s

/-- A frame with a new EPOCH restarts the rank's receive streams (R41). -/
def noteEpoch (s : State) (h : Hdr) : State :=
  if s.net.seen.find? h.srank = some h.epoch then s
  else s.modNet fun n => { n with seen := n.seen.put h.srank h.epoch, rx := n.rx.filter fun e => e.1 / 16 != h.srank }

/-- The stream a frame belongs to, at the receiver. -/
def rxStream (s : State) (h : Hdr) : RxStream := s.net.rx.getD (streamKey h.srank h.stream) .init

/-- A frame already received (R38). -/
def isDuplicate (r : RxStream) (psn : Nat) : Bool :=
  decide ((psn + 2 ^ 32 - r.ackPsn) % 2 ^ 32 ≥ 2 ^ 31) || r.held.any fun (m : Msg) => m.psn == psn

def msgOf (port prio size : Nat) (h : Hdr) (addr : W64) (payload : List Byte) : Msg :=
  { port := port, prio := prio, size := size, mtype := h.mtype, ord := h.ord, srank := h.srank, stream := h.stream, psn := h.psn
    msgid := h.msgid, tspec := h.tspec, addr := addr, payload := payload }

/-- A receive stream with one more frame. -/
def RxStream.take (r : RxStream) (clock : Nat) (m : Msg) : RxStream :=
  { r with held := r.held ++ [m], unacked := r.unacked + 1, oldest := if r.unacked = 0 then clock else r.oldest, port := m.port }

/-- Eight frames received are acknowledged at once (R38). -/
def ackMany (s : State) (h : Hdr) : State := if (rxStream s h).unacked ≥ 8 then sendAck s h.srank h.stream else s

/-- A data frame joins its stream, and what is in sequence is handed over. -/
def takeFrame (s : State) (h : Hdr) (m : Msg) : State :=
  (s.modRx (streamKey h.srank h.stream) fun r => r.take s.io.clock m).modNet (handOver (streamKey h.srank h.stream) 32)

/-- Accept a data frame of a rank whose EPOCH is noted. -/
def acceptData (s : State) (port : Nat) (h : Hdr) (m : Msg) : State :=
  if isDuplicate (rxStream s h) h.psn then
    sendAck (countAt s port fun c => { c with dup := bump c.dup }) h.srank h.stream
  else ackMany (takeFrame (ackIn (countRx s port) h) h m) h

/-- Accept a Vorby frame that is not dropped. -/
def acceptVorby (s : State) (port prio size : Nat) (h : Hdr) (addr : W64) (payload : List Byte) : State :=
  if h.mtype = 15 then ackIn (countRx s port) h
  else acceptData (noteEpoch s h) port h (msgOf port prio size h addr payload)

/-- A Vorby data frame arrives (R36 to R41). -/
def receiveVorby (s : State) (port : Nat) (e : Eth) : State :=
  match vorbyOf e with
  | none => countDrop s port .malf
  | some (h, addr, payload) =>
    match vorbyDrop s h with
    | some k => countDrop s port k
    | none => acceptVorby s port e.prio e.size h addr payload

/-- The type of a Vorby data frame, by its header alone. -/
def vorbyType (f : RxFrame) : Option Nat :=
  match ethOf f.bytes with
  | some e => if e.etype = 0x88B5 ∧ e.data.length ≥ 32 then some (hdrOf e.data).mtype else none
  | none => none

end Sys2Proof.Machine
end

