-- ==== Sys2Proof/Machine/Sha3.lean ====
section
/-! DEFINITION. SHA3-256 and the extendable-output functions SHAKE128 and SHAKE256, which 03 R71 names by their standard, FIPS 202
(log 13). -/

namespace Sys2Proof.Machine

/-! ## Keccak-f[1600] -/

/-- The 25 lanes of the state; lane x + 5 × y. -/
abbrev Lanes := List W64

def lane (a : Lanes) (x y : Nat) : W64 := a.getD (x % 5 + 5 * (y % 5)) 0

/-- The lanes given by a function of x and y. -/
def spongeLanes (f : Nat → Nat → W64) : Lanes := (List.range 25).map fun i => f (i % 5) (i / 5)

/-- Rotation offsets of rho, by lane. -/
def rhoOffset (i : Nat) : Nat :=
  [0, 1, 62, 28, 27, 36, 44, 6, 55, 20, 3, 10, 43, 25, 39, 41, 45, 15, 21, 8, 18, 2, 61, 56, 14].getD i 0

/-- Round constants of iota. -/
def iotaConst (r : Nat) : W64 :=
  ([0x1, 0x8082, 0x800000000000808A, 0x8000000080008000, 0x808B, 0x80000001, 0x8000000080008081, 0x8000000000008009] ++
   [0x8A, 0x88, 0x80008009, 0x8000000A, 0x8000808B, 0x800000000000008B, 0x8000000000008089, 0x8000000000008003] ++
   [0x8000000000008002, 0x8000000000000080, 0x800A, 0x800000008000000A, 0x8000000080008081, 0x8000000000008080, 0x80000001,
    0x8000000080008008]).getD r 0

def theta (a : Lanes) : Lanes :=
  let c := (List.range 5).map fun x => lane a x 0 ^^^ lane a x 1 ^^^ lane a x 2 ^^^ lane a x 3 ^^^ lane a x 4
  let d := (List.range 5).map fun x => c.getD ((x + 4) % 5) 0 ^^^ (c.getD ((x + 1) % 5) 0).rotateLeft 1
  spongeLanes fun x y => lane a x y ^^^ d.getD x 0

/-- Rho, then pi. -/
def rhoPi (a : Lanes) : Lanes := spongeLanes fun x y =>
  let u := (x + 3 * y) % 5
  (lane a u x).rotateLeft (rhoOffset (u + 5 * x))

def chi (a : Lanes) : Lanes := spongeLanes fun x y => lane a x y ^^^ (~~~ lane a (x + 1) y &&& lane a (x + 2) y)

def keccakRound (a : Lanes) (r : Nat) : Lanes :=
  match chi (rhoPi (theta a)) with
  | x :: t => (x ^^^ iotaConst r) :: t
  | [] => []

def keccakF (a : Lanes) : Lanes := (List.range 24).foldl keccakRound a

/-! ## The sponge -/

/-- A message with its suffix and padding, a whole number of blocks of rate bytes. -/
def spongePad (rate : Nat) (suffix : Byte) (m : List Byte) : List Byte :=
  let n := rate - m.length % rate
  m ++ (if n = 1 then [suffix ||| 0x80] else suffix :: List.replicate (n - 2) 0 ++ [0x80])

/-- A block of bytes as lanes, the rest zero. -/
def blockLanes (b : List Byte) : Lanes := (List.range 25).map fun i => BitVec.ofNat 64 (leNat ((b.drop (8 * i)).take 8))

/-- Absorb a padded message. -/
def absorb (rate : Nat) (m : List Byte) : Lanes :=
  (List.range (m.length / rate)).foldl (fun a k =>
    keccakF (a.zipWith (· ^^^ ·) (blockLanes ((m.drop (rate * k)).take rate)))) (List.replicate 25 0)

/-- The bytes of some blocks squeezed from a state. -/
def squeeze (rate : Nat) : Nat → Lanes → List Byte
  | 0, _ => []
  | n + 1, a => (a.flatMap fun (w : W64) => leBytes 8 w.toNat).take rate ++ squeeze rate n (keccakF a)

/-- n bytes of the sponge of a message. -/
def sponge (rate : Nat) (suffix : Byte) (m : List Byte) (n : Nat) : List Byte :=
  (squeeze rate ((n + rate - 1) / rate) (absorb rate (spongePad rate suffix m))).take n

def shake128 (m : List Byte) (n : Nat) : List Byte := sponge 168 0x1F m n
def shake256 (m : List Byte) (n : Nat) : List Byte := sponge 136 0x1F m n

/-- SHA3-256 of a byte string; the digest's first byte is the least significant (log 13). -/
def sha3Bytes (m : List Byte) : List Byte := sponge 136 0x06 m 32
def sha3 (m : List Byte) : BitVec 256 := BitVec.ofNat 256 (leNat (sha3Bytes m))

end Sys2Proof.Machine
end

