-- ==== Sys2Proof/Machine/MlDsa.lean ====
section
/-! DEFINITION. ML-DSA-44 verification, which 03 R71 names by its standard, FIPS 204 (log 13): the message is signed as it is, with
an empty context. -/

namespace Sys2Proof.Machine

/-! ## Parameters of ML-DSA-44 -/

def dsaQ : Nat := 8380417
def dsaGamma1 : Nat := 2 ^ 17
def dsaGamma2 : Nat := 95232
def dsaTau : Nat := 39
def dsaBeta : Nat := 78
def dsaOmega : Nat := 80

/-- A polynomial: 256 coefficients from 0 to q − 1, the constant term first. -/
abbrev Poly := List Nat

/-! ## Arithmetic modulo q -/

def addPoly (a b : Poly) : Poly := a.zipWith (fun x y => (x + y) % dsaQ) b
def subPoly (a b : Poly) : Poly := a.zipWith (fun x y => (x + dsaQ - y) % dsaQ) b
def mulPoly (a b : Poly) : Poly := a.zipWith (fun x y => x * y % dsaQ) b

/-- The low eight bits of k in reverse order. -/
def bitRev8 (k : Nat) : Nat := (List.range 8).foldl (fun a i => 2 * a + k / 2 ^ i % 2) 0

/-- Powers of the 512th root of unity 1753, in bit-reversed order. -/
def dsaZeta (k : Nat) : Nat := 1753 ^ bitRev8 k % dsaQ

/-- One layer of the number-theoretic transform, with butterflies of a span. -/
def nttLayer (span : Nat) (w : Poly) : Poly :=
  (List.range (128 / span)).flatMap fun b =>
    let lo := (w.drop (2 * span * b)).take span
    let hi := ((w.drop (2 * span * b + span)).take span).map fun x => dsaZeta (128 / span + b) * x % dsaQ
    addPoly lo hi ++ subPoly lo hi

def ntt (w : Poly) : Poly := [128, 64, 32, 16, 8, 4, 2, 1].foldl (fun w n => nttLayer n w) w

/-- One layer of the inverse transform. -/
def invLayer (span : Nat) (w : Poly) : Poly :=
  (List.range (128 / span)).flatMap fun b =>
    let lo := (w.drop (2 * span * b)).take span
    let hi := (w.drop (2 * span * b + span)).take span
    addPoly lo hi ++ (subPoly lo hi).map fun x => (dsaQ - dsaZeta (256 / span - 1 - b)) * x % dsaQ

/-- The inverse transform, with the factor 256⁻¹ modulo q. -/
def invNtt (w : Poly) : Poly :=
  ([1, 2, 4, 8, 16, 32, 64, 128].foldl (fun w n => invLayer n w) w).map fun x => 8347681 * x % dsaQ

/-! ## Encodings -/

/-- n values of some bits each, packed from bit 0 of the first byte upward. -/
def unpackBits (bits n : Nat) (bs : List Byte) : List Nat :=
  let x := leNat bs
  (List.range n).map fun i => x / 2 ^ (bits * i) % 2 ^ bits

def packBits (bits : Nat) (xs : List Nat) : List Byte :=
  leBytes (bits * xs.length / 8) (xs.foldr (fun x a => x + 2 ^ bits * a) 0)

/-- Pieces of n bytes. -/
def piecesOfBytes (n k : Nat) (bs : List Byte) : List (List Byte) := (List.range k).map fun i => (bs.drop (n * i)).take n

/-- A coefficient of z, γ1 − v, modulo q. -/
def zCoeff (v : Nat) : Nat := (dsaQ + dsaGamma1 - v) % dsaQ

/-- The hints of one polynomial: rising positions among those listed. -/
def risingHints (ys : List Nat) : Bool :=
  match ys with
  | [] => true
  | y :: t => (t.head?.all fun z => decide (y < z)) && risingHints t

/-- The positions of the hints of each polynomial; none when the encoding is malformed. -/
def unpackHints (y : List Byte) : Option (List (List Nat)) :=
  let ys := y.map (·.toNat)
  let cut := (List.range 4).map fun i => ys.getD (dsaOmega + i) 0
  let ends := 0 :: cut
  let parts := (List.range 4).map fun i => (ys.drop (ends.getD i 0)).take (ends.getD (i + 1) 0 - ends.getD i 0)
  if (List.range 4).all (fun i => decide (ends.getD i 0 ≤ ends.getD (i + 1) 0) && decide (ends.getD (i + 1) 0 ≤ dsaOmega)) &&
      parts.all risingHints && ((ys.take dsaOmega).drop (cut.getD 3 0)).all (· == 0)
  then some parts else none

/-! ## Sampling -/

/-- The 23-bit numbers below q among groups of three bytes. -/
def rejectThrees : List Byte → List Nat
  | a :: b :: c :: t =>
    let z := c.toNat % 128 * 2 ^ 16 + b.toNat * 2 ^ 8 + a.toNat
    if z < dsaQ then z :: rejectThrees t else rejectThrees t
  | _ => []

/-- An entry of the matrix A, in the transformed domain: 256 of the numbers that SHAKE128 gives. Of 448 candidates fewer than 256 are
below q with a probability that no run meets. -/
def expandEntry (rho : List Byte) (r c : Nat) : Poly :=
  (rejectThrees (shake128 (rho ++ [BitVec.ofNat 8 c, BitVec.ofNat 8 r]) 1344) ++ List.replicate 256 0).take 256

/-- Put the sign of step i of the sampling at the first byte that is at most i. -/
def ballStep (i sign : Nat) : List Byte → Poly → Poly × List Byte
  | [], p => (p, [])
  | b :: t, p =>
    if b.toNat ≤ i then ((p.set i (p.getD b.toNat 0)).set b.toNat (if sign = 0 then 1 else dsaQ - 1), t) else ballStep i sign t p

/-- The polynomial of τ coefficients ±1 that a commitment hash gives; 1,080 bytes of SHAKE256 are more than any run needs. -/
def sampleInBall (seed : List Byte) : Poly :=
  let bs := shake256 seed 1088
  let signs := leNat (bs.take 8)
  ((List.range dsaTau).foldl (fun (st : Poly × List Byte) k =>
    ballStep (256 - dsaTau + k) (signs / 2 ^ k % 2) st.2 st.1) (List.replicate 256 0, bs.drop 8)).1

/-! ## Hints -/

/-- The high bits of a coefficient, moved by its hint. -/
def useHint (h : Bool) (r : Nat) : Nat :=
  let two := 2 * dsaGamma2
  let low := r % two
  -- the remainder centred on zero is low, or low − two; the topmost high bits count as 0, with a remainder one less
  let neg := decide (low > dsaGamma2)
  let base := if neg then r + two - low else r - low
  let wrap := decide (base = dsaQ - 1)
  let high := if wrap then 0 else base / two
  if !h then high else if !neg && !wrap && decide (low > 0) then (high + 1) % 44 else (high + 43) % 44

def useHints (hs : List Nat) (w : Poly) : List Nat :=
  (List.range 256).map fun i => useHint (hs.contains i) (w.getD i 0)

/-! ## Verification -/

/-- z is short: every coefficient lies strictly within γ1 − β. -/
def shortZ (z : Poly) : Bool :=
  z.all fun x => decide (x < dsaGamma1 - dsaBeta) || decide (dsaQ - x < dsaGamma1 - dsaBeta)

/-- A row of A z − c t1 2^d, back from the transformed domain. -/
def commitRow (rho : List Byte) (z : List Poly) (c : Poly) (r : Nat) (t1 : Poly) : Poly :=
  let az := (List.range 4).foldl (fun a s => addPoly a (mulPoly (expandEntry rho r s) (z.getD s []))) (List.replicate 256 0)
  invNtt (subPoly az (mulPoly c (ntt (t1.map fun x => x * 2 ^ 13 % dsaQ))))

/-- The high bits of the commitment that a signature's parts give. -/
def commitment (rho : List Byte) (t1 z : List Poly) (c : Poly) (hints : List (List Nat)) : List Byte :=
  (List.range 4).flatMap fun r =>
    packBits 6 (useHints (hints.getD r []) (commitRow rho (z.map ntt) (ntt c) r (t1.getD r [])))

/-- The 64-byte representative of a message under a key. -/
def messageRep (key m : List Byte) : List Byte := shake256 (shake256 key 64 ++ [0, 0] ++ m) 64

/-- ML-DSA-44 verification of a message's signature under a public key. -/
def mldsa44Verify (key m sig : List Byte) : Bool :=
  let t1 := (piecesOfBytes 320 4 (key.drop 32)).map (unpackBits 10 256)
  let seed := sig.take 32
  let z := (piecesOfBytes 576 4 (sig.drop 32)).map fun b => (unpackBits 18 256 b).map zCoeff
  match unpackHints (sig.drop 2336) with
  | none => false
  | some hints =>
    decide (key.length = 1312) && decide (sig.length = 2420) && z.all shortZ &&
      shake256 (messageRep key m ++ commitment (key.take 32) t1 z (sampleInBall seed) hints) 32 == seed

end Sys2Proof.Machine
end

