-- ==== Sys2Proof/Machine/Boot.lean ====
section
/-! DEFINITION. Reset, boot, images in flash, the recovery state's flash operations (01 R19, 03 R70 to R75), freeze and read-out
(R77 to R80, R82), the test access port (R81). -/

namespace Sys2Proof.Machine

/-! ## Images (R70, R71) -/

structure ImgHdr where
  magic : Nat
  type : Nat
  svn : Nat
  len : Nat
  /-- The reserved bits, zero in a header that passes. -/
  rsv : Nat
deriving DecidableEq, Repr

def imgHdr (rd : Nat → Nat → List Byte) : ImgHdr :=
  let b := rd 0 64
  { magic := nfld (word64 b 0) 32 32, type := nfld (word64 b 0) 24 8, svn := nfld (word64 b 0) 16 8
    len := nfld (word64 b 1) 32 32, rsv := nfld (word64 b 0) 0 16 + leNat (b.drop 16) }

def slotSize (t : Nat) : Nat := match t with | 1 => 0x200000 | 2 => 0x1000000 | _ => 0x100000
/-- Flash offset of slot A (0) or B (1) of a type. -/
def slotBase (t b : Nat) : Nat := (match t with | 1 => 0 | 2 => 0x400000 | _ => 0x2400000) + b * slotSize t

/-- image_ok of R71, on bytes read by offset and length. -/
def imageOk (rd : Nat → Nat → List Byte) (t : Nat) (root : BitVec 256) (minSvn : Nat) : Bool :=
  let h := imgHdr rd
  h.magic == 0x1C0EB007 && h.type == t && h.rsv == 0 && decide (0x560 + h.len + 2420 ≤ slotSize t) &&
  sha3 (rd 0x40 1312) == root && decide (minSvn ≤ h.svn) &&
  mldsa44Verify (rd 0x40 1312) (sha3Bytes (rd 0 (0x560 + h.len))) (rd (0x560 + h.len) 2420)

def flashRd (i : Io) (base off n : Nat) : List Byte := i.flash.read flashDflt (base + off) n
def fusedSvn (i : Io) (t : Nat) : Nat := i.fuseSvn.toList.getD (t - 1) 0

/-- The slot taken for a type (R71): the higher SVN first, A before B on a tie. -/
def chooseSlot (i : Io) (t : Nat) : Option Nat :=
  let svn := fun b => (imgHdr (flashRd i (slotBase t b))).svn
  (if svn 1 > svn 0 then [1, 0] else [0, 1]).find? fun b => imageOk (flashRd i (slotBase t b)) t i.fuseRoot (fusedSvn i t)

/-- The slot taken for a type, its measurement and its SVN recorded (R71, R76). -/
def Io.withSlot (i : Io) (t b : Nat) : Io :=
  { i with slots := if b = 1 then i.slots ||| BitVec.ofNat 3 (2 ^ (t - 1)) else i.slots
           meas := i.meas.setIfInBounds (t - 1)
             (sha3 (flashRd i (slotBase t b) 0 (0x560 + (imgHdr (flashRd i (slotBase t b))).len)))
           bootSvn := i.bootSvn.setIfInBounds (t - 1) (imgHdr (flashRd i (slotBase t b))).svn }

/-- Verification of one type. -/
def verifyType (i : Io) (t : Nat) : Option Io := (chooseSlot i t).map (i.withSlot t)

/-- Phase 1 from a type on: a type without an image that passes ends it in recovery. -/
def verifyFrom (i : Io) : List Nat → Io
  | [] => { i with phase := .train }
  | t :: ts => match verifyType i t with
    | some j => verifyFrom j ts
    | none => { i with phase := .recovery, fail := t }

/-- Phase 1: types 1, 2, 3 in order. -/
def verifyAll (i : Io) : Io := verifyFrom i [1, 2, 3]

/-! ## Phases (01 R19, R75) -/

/-- BOOT_PHASE_COMPLETE. After a failure in phase 2 the part stays there. -/
def phaseComplete (s : State) (o : BootOutcome) : State :=
  match s.io.phase with
  | .verify => s.modIo verifyAll
  | .train =>
    if s.io.fail ≠ 0 then s
    else match o with
      | .ok => s.modIo fun i => { i with phase := .zero }
      | .stackFailed k => s.modIo fun i => { i with fail := 4, failUnit := k }
      | .dieLinkFailed d p => s.modIo fun i => { i with fail := 5, failUnit := 4 * d + p }
      | .ioLinkFailed d => s.modIo fun i => { i with fail := 6, failUnit := d }
  | .zero =>
    -- every byte of the stacks, scratchpads and accumulator memories is zero, every cache invalid
    { s with chip := { Chip.init with now := s.chip.now, fresh := s.chip.fresh, rank := ownRank s }
             io := { s.io with phase := .running } }
  | _ => s

/-- What survives PERST_N: fuses, flash, remap maps (01 R19, R24). -/
def Io.afterReset (i : Io) : Io :=
  { Io.init with fuseRoot := i.fuseRoot, fuseSvn := i.fuseSvn, rdlock := i.rdlock, serial := i.serial, flash := i.flash
                 memStk := i.memStk.map fun (t : Stack) => { Stack.init with otpUsed := t.otpUsed, spareUsed := t.spareUsed } }

/-- PERST_N is seen low. -/
def perstLow (s : State) : State :=
  { s with chip := { Chip.init with fresh := s.chip.fresh }, net := .init s.net.port0.mac s.net.port1.mac, io := s.io.afterReset }

/-- A reset sampled earlier takes effect in its cycle. -/
def perstDue (s : State) : State :=
  match s.io.perstAt with
  | some t => if t ≤ s.io.clock then perstLow s else s
  | none => s

/-- PERST_N falls: it is sampled at the first reference edge from now on, and seen from that edge's core cycle on (01 R13). -/
def perstFall (s : State) : State := perstDue (s.modIo fun i => { i with perstAt := some (edgeCycle i.refEdge) })

/-- PERST_N is sampled high: reference edge 0, phase 1 begins. -/
def perstHigh (s : State) : State :=
  if s.io.phase = .reset then s.modIo fun i => { i with phase := .verify }.refreshShown else s

/-! ## Freeze (R77, R78) -/

/-- The cause by priority among the triggers seen: 3 thermal trip, 4 link failure, 1 FRZ_N, 2 FREEZE. -/
def freezeCause (seen : BitVec 4) : Nat :=
  if seen.getLsbD 2 then 3 else if seen.getLsbD 3 then 4 else if seen.getLsbD 0 then 1 else if seen.getLsbD 1 then 2 else 0

/-- A core's array instructions have run to their ends: flags, landings behind their marks, freed banks (15 R370, R371). -/
def Core.arraysDone (co : Core) : Core :=
  settleBanks { co with arrays := [], ctxs := co.ctxs.map fun (x : Nat × Ctx) =>
    (x.1, { arrayFlags co.arrays x.1 x.2 with landings := x.2.landings.map fun (l : Landing) => { l with behind := false } }) }

/-- What has issued writes its results back, the flags of array instructions too (R78; 15 R371). -/
def finishArrays (s : Chip) : Chip :=
  s.cores.foldl (fun (s : Chip) e => settleLeft s (e.1 / 16) (e.1 % 16))
    { s with cores := s.cores.map fun (e : Nat × Core) => (e.1, e.2.arraysDone) }

/-- The part stops at the core cycle of reference edge n, which registered the triggers seen (R77, R78). -/
def stopAt (s : State) (n : Nat) (seen : BitVec 4) : State :=
  { s with chip := finishArrays s.chip
           io := { s.io with phase := .frozen, frzSeen := seen, frzCause := freezeCause seen
                             frzTime := BitVec.ofNat 64 (10 * n), frzEdge := n, frzPend := none } }

/-- Triggers registered earlier stop the part in their edge's core cycle. -/
def freezeDue (s : State) : State :=
  match s.io.frzPend with
  | some (n, seen) => if edgeCycle n ≤ s.io.clock then stopAt s n seen else s
  | none => s

def addTrigger (old : BitVec 4) (bit : Nat) : BitVec 4 := old ||| BitVec.ofNat 4 (2 ^ bit)

/-- The triggers registered with one more, at reference edge n: later edges than the first add nothing (R77). -/
def noteTrigger (p : Option (Nat × BitVec 4)) (n bit : Nat) : Nat × BitVec 4 :=
  match p with
  | none => (n, addTrigger 0 bit)
  | some (m, seen) => (m, if m = n then addTrigger seen bit else seen)

/-- A freeze trigger (bit of FRZ_SEEN) arises: it is registered at the first reference edge from now on (R77). -/
def freeze (s : State) (bit : Nat) : State :=
  let n := s.io.refEdge
  match s.io.phase with
  | .reset => s
  | .frozen => if s.io.frzEdge = n then
      s.modIo fun i => { i with frzSeen := addTrigger i.frzSeen bit, frzCause := freezeCause (addTrigger i.frzSeen bit) } else s
  | _ => freezeDue (s.modIo fun i => { i with frzPend := some (noteTrigger i.frzPend n bit) })

/-- A word of a memory of a unit of the read-out network; zero past its end. -/
def roMem (m : Memory) (base size off : Nat) : W64 :=
  if off + 8 ≤ size then BitVec.ofNat 64 (leNat (m.read 0 (base + off) 8)) else 0

/-- A word of a unit whose layout the spec leaves open, of what it holds (log 15). -/
def roOpen (unit size : Nat) (content : List Nat) (off : Nat) : W64 :=
  if off + 8 ≤ size then Config.readoutWord unit content off else 0

/-- The landings that hold a core's layby entries (06 R153), each with its context, in the order of contexts and landings (log 15). -/
def laybyOf (co : Core) : List (Ctx × Landing) :=
  co.ctxs.flatMap fun e => (e.2.landings.filter fun (l : Landing) => !l.spilled).map fun l => (e.2, l)

/-- Unit 0x04: 128 entries of 1 KiB, then their tags of 64 bytes in the layout of 11 R290 (log 15). -/
def laybyWord (co : Core) (off : Nat) : W64 :=
  let xs := laybyOf co
  if off < 0x20000 then
    (match xs[off / 1024]? with
     | some e => BitVec.ofNat 64 ((e.2.data.getD (off % 1024 / 4) 0).toNat + (e.2.data.getD (off % 1024 / 4 + 1) 0).toNat * 2 ^ 32)
     | none => 0)
  else if off < 0x22000 then
    (match xs[(off - 0x20000) / 64]? with
     | some e => BitVec.ofNat 64 ((e.2.tag e.1).getD (off % 64 / 8) 0)
     | none => 0)
  else 0

/-- The line in a way of a set of an L2 slice (07 R191). -/
def l2Way (y : Die) (slice set way : Nat) : Option L2Line :=
  List.find? (fun (l : L2Line) => l.way == way) (y.l2.getD (1024 * slice + set) [])

/-- Unit 0x05: the lines of a slice, the 16 ways of set 0 first (log 15). A way that holds no line reads as zero. -/
def l2DataWord (s : Chip) (d slice off : Nat) : W64 :=
  match l2Way (s.die d) slice (off / 2048) (off / 128 % 16) with
  | some l => s.rd64 (128 * l.tag + off % 128)
  | none => 0

/-- The tag of a line as read out: valid in bit 31, RRPV in bits 30 and 29, P[39:25] in bits 14 to 0 (log 15). -/
def L2Line.tagWord (l : L2Line) : Nat := 2 ^ 31 + l.rrpv % 4 * 2 ^ 29 + l.tag / 2 ^ 18 % 2 ^ 15

/-- Unit 0x06: a 32-bit word for each way, in the order of unit 0x05. -/
def l2TagWord (y : Die) (slice off : Nat) : W64 :=
  let one := fun (k : Nat) => match l2Way y slice (k / 16) (k % 16) with | some l => l.tagWord | none => 0
  BitVec.ofNat 64 (one (off / 4) + one (off / 4 + 1) * 2 ^ 32)

/-- An entry of an adoption stack as a word (05 R129). -/
def AdoptEntry.word (e : AdoptEntry) : Nat :=
  e.hctx % 128 * 2 ^ 57 + e.actx % 128 * 2 ^ 50 + (if e.mig then 2 ^ 49 else 0) + e.task % 2 ^ 32

/-- What a die's ready queues hold, as numbers. -/
def queueContent (y : Die) : List Nat :=
  y.queues.flatMap fun e => e.1 :: e.2.flatMap fun (q : QEnt) => [if q.cursor then 1 else 0, q.who, q.enq] ++ q.todo

/-- Unit 0x07: the adoption stack of a core, entry 0 first, and its depth (05 R129), then the die's ready queues (log 15). -/
def taskWord (s : Chip) (d c off : Nat) : W64 :=
  let st := (s.core d c).adopt
  if off < 64 then BitVec.ofNat 64 ((st.reverse[off / 8]?.map (·.word)).getD 0)
  else if off = 64 then BitVec.ofNat 64 st.length
  else roOpen 7 0x10000 (queueContent (s.die d)) off

/-- What the command queues and the launch table hold, as numbers. -/
def tableContent (s : State) : List Nat :=
  (s.net.queues.flatMap fun e => [e.1, e.2.asid, e.2.pending.length, e.2.inprog.length] ++
    (e.2.pending ++ e.2.inprog.map (·.cmd)).flatMap fun (c : Cmd) => [c.srank, c.stream, c.msgid] ++ c.bytes.map (·.toNat)) ++
  s.chip.launches.flatMap fun e => [e.1, e.2.id, e.2.asid, e.2.record.toNat, e.2.level, e.2.created, e.2.done, e.2.faulted]

/-- The word at an offset of unit number unit, part x of it, of a core of a compute die (R80). -/
def coreReadout (s : Chip) (d c unit x off : Nat) : W64 :=
  match unit with
  | 1 => if x < 128 then (match (s.core d c).ctxs.find? x with | some k => segsWord (ctxSegs s.now k) off | none => 0) else 0
  | 2 => if x < 16 then roMem (s.core d c).scratch (Config.scratchBytes * x) Config.scratchBytes off else 0
  | 3 => roMem (s.core d c).acc 0 0x200000 off
  | 4 => laybyWord (s.core d c) off
  | 5 => if x < 32 ∧ off < 0x200000 then l2DataWord s d x off else 0
  | 6 => if x < 32 ∧ off < 0x10000 then l2TagWord (s.die d) x off else 0
  | 7 => taskWord s d c off
  | 8 => if x < 4096 ∧ off < 0x4000 then (s.placeWords d x (off / 64)).getD (off % 64 / 8) 0 else 0
  | _ => 0

/-- The word of the read-out network at an offset of the unit that ROSEL names: DIE, CORE, UNIT and INDEX (R80, R82). -/
def readout (s : State) (off : Nat) : W64 :=
  if s.io.phase ≠ .frozen ∨ s.io.rdlock then 0
  else
    let sel := s.io.rosel.toNat
    let d := nfld sel 60 4
    let unit := nfld sel 48 8
    if d = 8 then (if unit = 0x10 then roOpen 0x10 0x40000 (tableContent s) off else 0)
    else if d > 8 then 0
    else coreReadout s.chip d (nfld sel 56 4) unit (nfld sel 32 16) off

def roPage (s : State) : Nat := nfld s.io.rosel.toNat 16 16 * 0x10000

/-- A write of ROSEL: only while frozen, and not with RDLOCK (R80, R82). -/
def writeRosel (s : State) (w : W64) : State :=
  if s.io.phase = .frozen ∧ !s.io.rdlock then s.modIo fun i => { i with rosel := w &&& 0xFFFFFFFFFFFF0000 } else s

/-! ## Flash in recovery (R74) -/

/-- An operation starts, unless its address is off the device or not aligned to its unit: then FL_ERR. -/
def flStart (s : State) (a unit : Nat) (op : FlashOp) : State :=
  if a % unit ≠ 0 ∨ a ≥ flashBytes then s.modIo fun i => { i with flErr := true, flAddr := a }
  else s.modIo fun i => { i with flErr := false, flAddr := a, flOp := some op }

/-- A write of FLCTL. -/
def writeFlctl (s : State) (w : W64) : State :=
  if s.io.phase ≠ .recovery ∨ s.io.flOp.isSome then s
  else if w.toNat % 4 = 1 then flStart s (w.toNat / 2 ^ 32) 0x10000 (.erase (w.toNat / 2 ^ 32))
  else if w.toNat % 4 = 2 then flStart s (w.toNat / 2 ^ 32) 0x400 (.program (w.toNat / 2 ^ 32))
  else s

def flctlWord (i : Io) : W64 :=
  BitVec.ofNat 64 (i.flAddr * 2 ^ 32 + (if i.flErr then 8 else 0) + (if i.flOp.isSome then 4 else 0))

/-- An MWRITE to the staging buffer, bytes from an offset of it. -/
def writeStaging (s : State) (off : Nat) (bs : List Byte) : State :=
  if s.io.phase ≠ .recovery ∨ s.io.flOp.isSome then s
  else s.modIo fun i => { i with staging := i.staging.write 0 off (bs.take (1024 - off)) }

/-- The operation in progress ends; programming clears bits of NOR cells (log 7). -/
def flashDone (s : State) : State :=
  s.modIo fun i => match i.flOp with
    | none => i
    | some (.erase a) => { i with flOp := none, flash := i.flash.write flashDflt a (List.replicate 0x10000 flashDflt) }
    | some (.program a) =>
      let new := (i.flash.read flashDflt a 1024).zip (i.staging.read 0 0 1024) |>.map fun x => x.1 &&& x.2
      { i with flOp := none, flash := i.flash.write flashDflt a new }

/-! ## JTAG (R81) -/

def wordBits (n w : Nat) : List Bool := (List.range n).map w.testBit

def setIr (s : State) (ir : BitVec 8) (dr : List Bool) : State :=
  s.modIo fun i => { i with jtag := { i.jtag with ir := ir, dr := dr } }

/-- The boundary scan register captures the pins; what is shifted in goes to the update latches (log 16). -/
def boundaryScan (s : State) (ir : BitVec 8) : State :=
  let n := s.chip.fresh
  let s := setIr { s with chip := { s.chip with fresh := n + 2 } } ir (Config.boundaryCapture n)
  s.modIo fun i => { i with jtag := { i.jtag with latch := Config.boundaryCapture (n + 1) } }

def jtagRosel (s : State) (w : W64) : State :=
  let s := setIr (writeRosel s w) 0x20 (wordBits 64 w.toNat)
  s.modIo fun i => { i with jtag := { i.jtag with ptr := 0 } }

def jtagRead (s : State) : State :=
  let s := setIr s 0x21 (wordBits 64 (readout s (s.io.jtag.ptr + roPage s)).toNat)
  s.modIo fun i => { i with jtag := { i.jtag with ptr := i.jtag.ptr + 8 } }

end Sys2Proof.Machine
end

