-- ==== Sys2Proof/Machine/Launching.lean ====
section
/-! DEFINITION. Launches (04 R83 to R90, R94, R95): the descriptor and its checks, the records and cursors; pre-emption, release
and KILL of a launch (04 R101 to R103, 11 R297). -/

namespace Sys2Proof.Machine

/-! ## The descriptor (R83 to R85) -/

/-- Whether each of k pages from an address on translates with the W permission. -/
def recordPagesOk (s : Chip) (asid va : Nat) : Nat → Bool
  | 0 => true
  | k + 1 => (match walk s asid (va % 2 ^ 64) with | some e => pteW e.pte | none => false) &&
      recordPagesOk s asid (va / 4096 * 4096 + 4096) k

/-- The tables of those pages, or a grid task's record, lie in a claimed line, which holds the task unit (08 R222). -/
def recordPagesHeld (s : Chip) (l : Launch) : Bool :=
  let va := l.trbase.toNat
  let pages := (va % 4096 + 64 * (l.n + l.spawncap) + 4095) / 4096
  ((List.range pages).any fun k => (walkReads s l.asid ((va / 4096 * 4096 + 4096 * k) % 2 ^ 64)).any fun p => s.claimed (lineOf p)) ||
    (List.range l.n).any fun i => match recAddr s l i with | some (p, _) => s.claimed (lineOf p) | none => false

def roleOf (b : List Byte) : Role :=
  { entry := BitVec.ofNat 64 (word64 b 0), nctx := nfld (word64 b 1) 56 8, sreg := nfld (word64 b 1) 52 4
    spb := nfld (word64 b 1) 45 7, gmode0 := BitVec.ofNat 64 (word64 b 2), fmt0 := BitVec.ofNat 64 (word64 b 3) }

/-- The launch that a descriptor describes. -/
def launchOfDesc (hdr roles : List Byte) (va : W64) (asid : Nat) (sup : Bool) (queue ring : Nat) : Launch :=
  let w := word64 hdr
  let cm := nfld (w 0) 16 16
  { id := 0, asid := asid, sup := sup, queue := queue, ring := ring, record := va, level := nfld (w 0) 53 3, aff := nfld (w 0) 48 2
    dmask := nfld (w 0) 40 8, nbar := nfld (w 0) 34 6, gated := (w 0).testBit 33, port := (w 0).testBit 32
    cmask := if cm = 0 then 0xFFFF else cm, gx := nfld (w 1) 0 16, gy := nfld (w 1) 16 16, gz := nfld (w 1) 32 16
    argp := BitVec.ofNat 64 (w 2), trbase := BitVec.ofNat 64 (w 3), stkbase := BitVec.ofNat 64 (w 4), spawncap := nfld (w 5) 32 32
    stksz := nfld (w 5) 0 32, savebase := BitVec.ofNat 64 (w 6), savesz := nfld (w 7) 0 32
    roles := (List.range (roles.length / 32)).map fun k => roleOf (roles.drop (32 * k))
    spawned := 0, held := false, killed := false, preempting := none, startCc := 0, done := 0, faulted := 0, faultCount := 0
    firstTask := 0, firstCause := 0, firstAt := 0, adoptions := 0, preempts := 0, nacks := 0, fstat := 0, bundles := 0, frozen := 0
    notices := [], counted := [] }

/-- The checks of R85 that answer BADARG. -/
def descBad (hdr roles : List Byte) (l : Launch) : Bool :=
  let w := word64 hdr
  let n := l.roles.length
  let sr := l.roles.foldl (fun a r => a + r.nctx * 16 * r.sreg) 0
  nfld (w 0) 56 8 != 1 || n == 0 || decide (n > 4) || decide (l.aff > 1) || l.dmask == 0 || decide (l.nbar > 32) ||
  l.n == 0 || nfld (w 0) 0 16 != 0 || nfld (w 1) 48 16 != 0 || nfld (w 7) 32 32 != 0 ||
  ((List.range n).any fun k => nfld (word64 roles (4 * k + 1)) 0 45 != 0) ||
  decide (l.n + l.spawncap > 4194303) ||
  l.record.toNat % 64 != 0 || l.trbase.toNat % 64 != 0 || l.stkbase.toNat % 4096 != 0 || l.stksz % 4096 != 0 ||
  l.savebase.toNat % 4096 != 0 || l.savesz % 4096 != 0 ||
  (l.roles.any fun r => r.entry.toNat % 32 != 0 || r.nctx == 0 || decide (r.nctx > 128) || decide (r.sreg < 2) ||
    decide (r.sreg > 10) || decide (r.spb > 96)) ||
  decide (l.nt > 128) || decide (sr > Config.scalarPool) || decide (l.window > Config.scratchBytes) ||
  decide (l.savesz < imgBanks l.nt l.window + 0x200000)

/-- What reading and checking a descriptor gives: a launch, a status of R57, or a wait at a claimed line. -/
inductive Checked where
  | ok (l : Launch)
  | status (code : Nat)
  | held
deriving DecidableEq, Repr

/-- Read and check a descriptor (R60, R85). A poisoned descriptor is found once header and roles have been translated, before the check of
the record pages (log 121); the EVRING check comes last. -/
def checkDesc (s : Chip) (va : W64) (asid : Nat) (sup : Bool) (queue ring : Nat) (ringOn : Bool) : Checked × Chip :=
  if rangeWalkHeld s 0 asid va.toNat 64 then (.held, s)
  else match ioRange s asid va.toNat 64 .store with
  | (.error _, s) => (.status 5, s)
  | (.ok ps, s) =>
    let hdr := (ioRead s asid ps).1
    let nroles := nfld (word64 hdr 0) 50 3
    if rangeWalkHeld s 0 asid ((va.toNat + 64) % 2 ^ 64) (32 * nroles) then (.held, s)
    else match ioRange s asid ((va.toNat + 64) % 2 ^ 64) (32 * nroles) .store with
    | (.error _, s) => (.status 5, s)
    | (.ok qs, s) =>
      if ioClaimed s (ps ++ qs) then (.held, s)
      else
        let (hdr, s) := ioRead s asid ps
        let (roles, s) := ioRead s asid qs
        let l := launchOfDesc hdr roles va asid sup queue ring
        let bytes := 64 * (l.n + l.spawncap)
        if (ioPoison s (ps ++ qs)).isSome then (.status 6, s)
        else if recordPagesHeld s l then (.held, s)
        else if !recordPagesOk s asid l.trbase.toNat ((l.trbase.toNat % 4096 + bytes + 4095) / 4096) then (.status 5, s)
        else if l.level = 7 ∧ !sup then (.status 3, s)
        else if descBad hdr roles l then (.status 2, s)
        else if s.launches.length ≥ Config.launchSlots then (.status 0x0C, s)
        else if !ringOn then (.status 2, s)
        else (.ok l, s)

/-! ## Going live (R86 to R88, R94) -/

/-- The die of grid task i (R87). -/
def gridDie (l : Launch) (i : Nat) : Nat :=
  let p := popcount 8 l.dmask
  let b := (l.n + p - 1) / p
  setBit l.dmask 8 (if l.aff = 0 then i % p else i / b)

def coordOf (l : Launch) (i : Nat) : Nat := i % l.gx + i / l.gx % l.gy * 2 ^ 16 + i / (l.gx * l.gy) * 2 ^ 32

/-- Write the record of grid task i; whether it starts READY. -/
def writeGridRecord (s : Chip) (slot : Nat) (l : Launch) (i : Nat) : Bool × Chip :=
  match recAddr s l i with
  | none => (false, s)
  | some (p, e) =>
    let start := ((s.seen p 8).getD 7 0).getLsbD 3
    let ready := !l.gated || start
    let w0 := recWord0 (if ready then stReady else stUnstarted) (if l.port then 1 else 0) (if start then 1 else 0) 0 l.level
      (gridDie l i) (taskId slot i)
    (ready, (s.noteRec p e true).put (taskId slot i) p ([w0, 0, 0, l.argp.toNat, coordOf l i, l.id * 2 ^ 32, if ready then s.now else 0, 0].flatMap (leBytes 8)))

/-- The next launch id: increasing, never 0 nor that of a live launch (03 R60). -/
def freeId (s : Chip) : Nat → Nat → Nat
  | 0, id => id
  | fuel + 1, id =>
    let id := if id % 2 ^ 32 = 0 then 1 else id % 2 ^ 32
    if s.launches.any fun e => e.2.id == id then freeId s fuel (id + 1) else id

/-- A checked launch becomes live; its id. -/
def goLive (s : Chip) (l : Launch) : Nat × Chip :=
  let slot := ((List.range Config.launchSlots).find? fun k => !s.launches.has k).getD 0
  let id := freeId s 1025 s.nextLaunch
  let l := { l with id := id, startCc := s.now }
  let s := { s with launches := s.launches.put slot l, nextLaunch := id + 1 }
  let (ready, s) := (List.range l.n).foldl (fun (st : List Nat × Chip) i =>
    let r := writeGridRecord st.2 slot l i
    (if r.1 then i :: st.1 else st.1, r.2)) ([], s)
  let ready := ready.reverse
  let s := (List.range Config.dies).foldl (fun (s : Chip) d =>
    match ready.filter fun i => gridDie l i == d with
    | [] => s
    | todo => s.enqueue d l.level [⟨true, slot, todo, s.now, s.now, false⟩]) s
  (id, s)

/-! ## PREEMPT (R101 to R103) -/

def ofSlot (slot task : Nat) : Bool := decide (task ≠ 0) && taskSlot task == slot

/-- Contexts bound for tasks of a launch: die, core, context. -/
def launchCtxs (s : Chip) (slot : Nat) : List (Nat × Nat × Nat) :=
  s.cores.flatMap fun e => (e.2.ctxs.filter fun x => ofSlot slot x.2.task).map fun x => (e.1 / 16, e.1 % 16, x.1)

/-- Stop every context of a launch that awaits no answer at its bundle boundary, or, for a PREEMPT, of the crews that it saves; a core
that ran it chooses again. -/
def stopCtxs (s : Chip) (slot : Nat) (saved : Bool) : Chip :=
  (launchCtxs s slot).foldl (fun s x =>
    match s.ctx? x.1 x.2.1 x.2.2 with
    | some k =>
      let mine := match (s.core x.1 x.2.1).crews.find? k.task with | some cr => !saved || cr.saving | none => false
      if k.stopped || !mine || holds s x.1 x.2.1 x.2.2 then s
      else
        let s := s.modCtx x.1 x.2.1 x.2.2 fun k => { k with stopped := true }
        if (s.core x.1 x.2.1).running = some x.2.2 then choosePoint (setRunning s x.1 x.2.1 none) x.1 x.2.1 none else s
    | none => s) s

/-- Individual tasks of a launch leave the ready queues. -/
def unqueue (s : Chip) (slot : Nat) (cursors : Bool) : Chip :=
  (List.range Config.dies).foldl (fun (s : Chip) d =>
    (s.die d).queues.foldl (fun (s : Chip) e =>
      let q := e.2.filter fun (x : QEnt) => !(if x.cursor then cursors && x.who == slot else ofSlot slot x.who)
      if q.length = e.2.length then s else s.setQueue d e.1 q) s) s

def created (s : Chip) (slot : Nat) : List Nat :=
  match s.launches.find? slot with
  | some l => (List.range l.created).map (taskId slot)
  | none => []

/-- The crews of a launch, bound or to be bound by an adoption, which a PREEMPT saves: those bound later are none of them (R97, R101). -/
def markSaving (s : Chip) (slot : Nat) : Chip :=
  let crew := fun (c : Nat × Crew) => (c.1, { c.2 with saving := c.2.saving || ofSlot slot c.1 })
  let adopt := fun (p : PendAdopt) => { p with saving := p.saving || ofSlot slot p.task }
  { s with cores := s.cores.map fun e => (e.1, { e.2 with crews := e.2.crews.map crew })
           dies := s.dies.map fun e => (e.1, { e.2 with adopting := e.2.adopting.map adopt }) }

/-- PREEMPT of MODE 0 or 1 begins: contexts stop, freezes are released; under MODE 1 every READY or UNSTARTED task is held. -/
def preemptStart (s : Chip) (slot : Nat) (hold : Bool) : Chip :=
  let s := markSaving (s.modLaunch slot fun l => { l with preempting := some hold, held := l.held || hold }) slot
  let s := (launchCtxs s slot).foldl (fun s x => releaseFreeze s x.1 x.2.1 x.2.2) s
  let s := if hold then
      (created s slot).foldl (fun (s : Chip) t =>
        if recState (s.recRd t 0) ≤ stReady then s.recMod0 t fun w => w64Put w 58 1 1 else s) (unqueue s slot false)
    else s
  stopCtxs s slot true

/-- Nothing that the PREEMPT saves is bound, nor about to be. -/
def preemptOver (s : Chip) (slot : Nat) : Bool :=
  !(s.cores.any fun e => e.2.crews.any fun c => ofSlot slot c.1 && c.2.saving) &&
  !((List.range Config.dies).any fun d => (s.die d).adopting.any fun (p : PendAdopt) => ofSlot slot p.task && p.saving)

/-- MODE 2: HELD is cleared, and READY tasks join their queues, those of one level and die by ascending id (R95). -/
def releaseHeld (s : Chip) (slot : Nat) : Chip :=
  match s.launches.find? slot with
  | none => s
  | some l =>
    if !l.held then s
    else
      let s := s.modLaunch slot fun l => { l with held := false }
      let cursors := (List.range Config.dies).flatMap fun d => (s.die d).queues.flatMap fun e =>
        (e.2.filter fun (x : QEnt) => x.cursor && x.who == slot).map fun x => (d, e.1, x)
      let inCursor := fun (t : Nat) => cursors.any fun c => c.2.2.todo.contains (taskIndex t)
      let s := unqueue s slot true
      let was := (created s slot).filter fun t => (s.recRd t 0).getLsbD 58
      let s := was.foldl (fun (s : Chip) t => s.recMod0 t fun w => w64Put w 58 1 0) s
      let solo := was.filter fun t => recState (s.recRd t 0) == stReady && !inCursor t
      let s := solo.foldl (fun (s : Chip) t => s.recWr t 0x30 (BitVec.ofNat 64 s.now)) s
      let es : List (Nat × Nat × QEnt) :=
        cursors.map (fun c => (c.1, c.2.1, { c.2.2 with since := s.now, enq := s.now, rose := false })) ++
        solo.map fun t => (w64Get (s.recRd t 0) 50 3, recLevel (s.recRd t 0), ⟨false, t, [], s.now, s.now, false⟩)
      (List.range Config.dies).foldl (fun (s : Chip) d => (List.range 8).foldl (fun (s : Chip) lv =>
        s.enqueue d lv ((es.filter fun x => x.1 == d && x.2.1 == lv).map (·.2.2))) s) s

/-! ## KILL (11 R297) -/

/-- A task is ended by KILL: its fault record, its end. -/
def killTask (s : Chip) (task d c x : Nat) : Chip :=
  if s.taskEnded task then recordEnd s task stFaulted 0x13
  else
    let host := hostOf s task
    recordEnd (writeFaultRec s task
      { ends := true, nested := false, code := 0x13, detail := 0, trapa := 0, traps := 0, trapx := 0, trapv := 0, host := host.1
        die := d, core := c, hctx := host.2, ctx := x, rank := 0, nack := 0 }) task stFaulted 0x13

/-- A crew of a killed launch ends once none of its contexts awaits an answer: its open phases fail (05 R135). -/
def endKilled (s : Chip) (slot : Nat) : Chip :=
  let crews := s.cores.flatMap fun e => (e.2.crews.filter fun c => ofSlot slot c.1).map fun c => (e.1 / 16, e.1 % 16, c.2)
  crews.foldl (fun (s : Chip) x =>
    if x.2.2.ctxs.any fun p => holds s x.1 x.2.1 p.2 then s
    else
      let s := failPhases (killTask s x.2.2.task x.1 x.2.1 x.2.2.lowest) x.1 x.2.1 x.2.2
      idleChoice (freeCrew s x.1 x.2.1 x.2.2 true) x.1 x.2.1) s

/-- Whether a task has a crew on some core. -/
def hasCrew (s : Chip) (task : Nat) : Bool := (s.findCrew task).isSome

/-- KILL takes effect: contexts stop, tasks without a crew end, async operations stop; pending adoptions lapse at their turn. -/
def killStart (s : Chip) (slot : Nat) : Chip :=
  let s := s.modLaunch slot fun l => { l with killed := true }
  let s := (launchCtxs s slot).foldl (fun s x => releaseFreeze s x.1 x.2.1 x.2.2) s
  let s := settleHeld (stopAsyncs (stopCtxs s slot false) slot)
  let s := unqueue s slot true
  let s := (created s slot).foldl (fun (s : Chip) t => if hasCrew s t then s else killTask s t 0 0 0) s
  endKilled s slot

/-- Every task of the launch has ended (03 R62). -/
def allEnded (l : Launch) : Bool := decide (l.done + l.faulted = l.created)

end Sys2Proof.Machine
end

