-- ==== Sys2Proof/Machine/Commands.lean ====
section
/-! DEFINITION. The command processor (03 R54 to R63, R73, R76): which command begins next, what each command does, commands in
progress, their answers. -/

namespace Sys2Proof.Machine

/-! ## Commands as bytes (R56, R59) -/

def cmdOpc (b : List Byte) : Nat := (b.headD 0).toNat
def cmdWord (b : List Byte) (k : Nat) : Nat := word64 b k
def cmdOrd (b : List Byte) : Bool := (word64 b 0).testBit 8

/-- The payload length fits the opcode. -/
def cmdLenOk (opc n : Nat) : Bool :=
  match opc with
  | 0 | 13 => n == 8
  | 2 => decide (17 ≤ n) && decide (n ≤ 4112)
  | 4 | 5 | 7 => n == 16
  | 1 | 3 | 8 => n == 24
  | 6 | 9 | 10 | 12 => n == 32
  | 11 => n == 48
  | _ => false

/-- A header with an unassigned opcode or nonzero reserved bits (R56). -/
def cmdBadOp (b : List Byte) : Bool := decide (cmdOpc b > 13) || word64 b 0 / 2 ^ 9 != 0

/-- The row of the table of steps that a command is: a malformed header goes with NOP. -/
def cmdRow (b : List Byte) : Nat :=
  if b.length < 8 ∨ cmdBadOp b then 50
  else match cmdOpc b with
    | 0 => 50 | 1 => 51 | 2 => 52 | 3 => 53
    | 4 => 54 + nfld (cmdWord b 1) 32 2
    | 5 => 58 | 6 => 59 | 7 => 60 | 8 => 61
    | 9 => 62 + nfld (cmdWord b 1) 0 1
    | 10 => 64 | 11 => 66 | 12 => 67 | _ => 68

/-! ## Which command begins (R58) -/

def InCmd.isWait (i : InCmd) : Bool := match i.work with | .wait .. => true | _ => false

/-- Some earlier message of the command's stream is not answered (02 R40). -/
def cmdHeld (s : State) (c : Cmd) : Bool :=
  c.mord && ((s.net.rxWait.any fun (p : RxPending) => !p.self && p.msg.srank == c.srank && p.msg.stream == c.stream &&
      decide (p.no < c.no)) ||
    s.net.queues.any fun e =>
      let mine := fun (x : Cmd) => x.srank == c.srank && x.stream == c.stream && decide (x.no < c.no)
      e.2.pending.any mine || e.2.inprog.any fun (i : InCmd) => mine i.cmd)

/-- The command of a queue that may begin. -/
def headReady (s : State) (q : Nat) : Option Cmd :=
  let x := s.net.queue q
  match x.pending with
  | [] => none
  | c :: _ =>
    if x.inprog.length ≥ 16 ∨ x.inprog.any InCmd.isWait ∨ (cmdOrd c.bytes ∧ !x.inprog.isEmpty) ∨ cmdHeld s c then none
    else some c

/-- The next command in rotating order of the queues. -/
def nextCmd (s : State) : Option (Nat × Cmd) :=
  ((List.range 64).map fun k => (s.net.cpTurn + 1 + k) % 64).findSome? fun q => (headReady s q).map fun c => (q, c)

/-! ## What a command does -/

/-- What an attempt at a command gives. RESULT is 0 for a status other than OK and TIMEOUT (log 116). -/
inductive CmdRes where
  | answer (status result : Nat) (data : List Byte)
  | work (w : CmdWork)
  /-- FREEZE: no answer. -/
  | silent
deriving DecidableEq, Repr

def CmdRes.code (status : Nat) : CmdRes := .answer status 0 []

/-- An attempt that is refused leaves memory, tables and launches alone (R57): the gathered bits of its translations too. One that
waits at a claimed line is made again as a whole. -/
def undone (s : State) (r : CmdRes × State) : CmdRes × State :=
  match r.1 with
  | .answer st _ _ => if st = 0 then r else (r.1, { r.2 with chip := s.chip })
  | .work .held => (r.1, { r.2 with chip := s.chip })
  | _ => r

/-- Status of a translation fault (R57). -/
def xlStatus (prot : Bool) : Nat := if prot then 3 else 5

/-- A range that is read whole: bytes, a status, or a wait at a claimed line. -/
def cmdRead (s : Chip) (asid va n : Nat) : Except CmdRes (List Byte) × Chip :=
  if rangeWalkHeld s 0 asid va n then (.error (.work .held), s)
  else match ioRange s asid va n .load with
  | (.error (prot, _), s) => (.error (.code (xlStatus prot)), s)
  | (.ok ps, s) =>
    if ioClaimed s ps then (.error (.work .held), s)
    else if (ioPoison s ps).isSome then (.error (.code 6), s)
    else let (bs, s) := ioRead s asid ps; (.ok bs, s)

/-- A range that is written whole. -/
def cmdWrite (s : Chip) (asid va : Nat) (bs : List Byte) (result : Nat) : CmdRes × Chip :=
  if rangeWalkHeld s 0 asid va bs.length then (.work .held, s)
  else match ioRange s asid va bs.length .store with
  | (.error (prot, _), s) => (.code (xlStatus prot), s)
  | (.ok ps, s) =>
    if ioStoreHeld s ps then (.work .held, s) else (.answer 0 result [], ioWrite s asid ps bs)

/-- The live launch that PREEMPT or KILL names (R61). -/
def namedLaunch (s : State) (asid : Nat) (sup : Bool) (id : Nat) : Option (Nat × Launch) :=
  match slotOf s.chip id with
  | some (k, l) => if sup || l.asid == asid then some (k, l) else none
  | none => none

/-- Whether a TLBINV of an address space, or of all, and a range names the page of a translation. -/
def invHit (asid : Option Nat) (lo hi a vpn size : Nat) : Bool :=
  (match asid with | some x => a == x | none => true) && decide (vpn * 2 ^ size < hi) && decide (lo < (vpn + 1) * 2 ^ size)

def TlbEnt.hit (e : TlbEnt) (asid : Option Nat) (lo hi : Nat) : Bool := invHit asid lo hi e.asid e.vpn e.size

/-- Take the named entries out of a TLB; their gathered bits are written back, or wait at claimed lines (07 R199). -/
def dropTlb (s : Chip) (p : TlbEnt → Bool) (t : List TlbEnt) : List TlbEnt × Chip :=
  (t.filter fun e => !p e, (t.filter p).foldl (fun (s : Chip) e => s.giveUp e) s)

/-- Take the named entries out of every TLB of the package. -/
def dropTlbs (s : Chip) (p : TlbEnt → Bool) : Chip :=
  let s := s.cores.foldl (fun (s : Chip) e =>
    let (d, s) := dropTlb s p e.2.dtlb
    let (i, s) := dropTlb s p e.2.itlb
    s.modCore (e.1 / 16) (e.1 % 16) fun co => { co with dtlb := d, itlb := i }) s
  s.dies.foldl (fun (s : Chip) e =>
    let (t, s) := dropTlb s p e.2.stlb
    s.modDie e.1 fun y => { y with stlb := t }) s

/-- Placement changes that are queued keep the translations that their die holds of what a TLBINV names (07 R201). -/
def keepOld (s : Chip) (p : TlbEnt → Bool) : Chip :=
  { s with dies := s.dies.map fun (e : Nat × Die) =>
      (e.1, { e.2 with series := e.2.series.map fun (i : SeriesItem) => { i with old := i.old ++ e.2.stlb.filter p } }) }

/-- No L1 holds a line ("the part may invalidate more"). -/
def clearL1s (s : Chip) : Chip := { s with cores := s.cores.map fun (e : Nat × Core) => (e.1, { e.2 with l1 := [] }) }

/-- TLBINV's markers and invalidations (07 R200): what has still to perform under the old mapping; translations, instruction lines and
L1 lines are gone. -/
def tlbinvNow (s : Chip) (asid : Option Nat) (lo hi : Nat) : CmdWork × Chip :=
  let work : CmdWork := .tlbinv asid lo hi (s.cores.map fun e => (e.1, e.2.seq))
    (s.cores.flatMap fun e => e.2.ctxs.flatMap fun x =>
      ([false, true].filter fun sp => (sp == false || x.2.spare.isSome) && (x.2.half sp).hold.isSome).map fun sp =>
        (e.1, 2 * x.1 + (if sp then 1 else 0)))
    (s.asyncs.map (·.id)) ((List.range Config.dies).flatMap fun d => (s.die d).series.map (·.id)) []
  let s := clearL1s (dropTlbs (keepOld s fun e => e.hit asid lo hi) fun e => e.hit asid lo hi)
  (work, { s with cores := s.cores.map fun (e : Nat × Core) => (e.1, { e.2 with
    icache := e.2.icache.filter fun (l : ILine) => !invHit asid lo hi l.asid l.tag 7 }) })

/-- Everything that the old mapping served has performed, and the gathered bits of its translations are written back. -/
def tlbinvOver (s : State) (asid : Option Nat) (lo hi : Nat) (cores held : List (Nat × Nat)) (ops convs msgs : List Nat) : Bool :=
  let c := s.chip
  let pend := fun (l : Landing) (n : Nat) => decide (l.seq < n) && !l.parts.isEmpty
  (cores.all fun x =>
    let co := c.cores.getD x.1 .init
    !(co.path.any fun (e : PathEntry) => decide (e.seq < x.2)) && !(co.orphans.any fun e => pend e.2 x.2) &&
    !(co.ctxs.any fun e => e.2.landings.any fun (l : Landing) => pend l x.2)) &&
  (held.all fun x => match (c.cores.getD x.1 .init).ctxs.find? (x.2 / 2) with
    | some k => ((k.half (x.2 % 2 == 1)).hold).isNone
    | none => true) &&
  ops.all (fun n => !(c.asyncs.any fun (a : Async) => a.id == n)) &&
  convs.all (fun n => !((List.range Config.dies).any fun d => (c.die d).series.any fun (i : SeriesItem) => i.id == n)) &&
  msgs.all (fun n => !(s.net.rxWait.any fun (p : RxPending) => p.no == n)) &&
  !(c.gathered.any fun (e : TlbEnt) => e.hit asid lo hi)

/-- SIGNAL (R63): the first that applies decides. -/
def signal (s : Chip) (asid op va : Nat) (v : W64) : CmdRes × Chip :=
  let size := if op = 0 then 16 else 8
  if va % size ≠ 0 then (.code 2, s)
  else if walkHeld s 0 [] asid va then (.work .held, s)
  else match xlAgent s 0 asid va .sync with
    | (.error prot, s) => (.code (xlStatus prot), s)
    | (.ok p, s) =>
      if s.storeHeld (lineOf p) then (.work .held, s)
      else if (s.poisoned p size).isSome then (.code 6, s)
      else
        let r : Requester := ⟨⟨0, 0, 0, false⟩, 0, asid⟩
        let s := s.l2Access p (agentInsert s 0 asid va 1)
        if op = 0 then
          (if (s.rd64 (p + 8)).getLsbD 63 then (.code 0x0D, s) else (.code 0, (syncAt s .fput p (BitVec.ofNat 64 va) v r).2))
        else if (s.rd64 p).toNat % 2 ^ 32 = 0 then (.code 0x0D, s)
        else (.code 0, (syncAt s .dcdec p (BitVec.ofNat 64 va) 0 r).2)

/-- The condition of WAITEVENT. -/
def condHolds (cond : Nat) (x v : W64) : Bool :=
  match cond with
  | 0 => x == v
  | 1 => x != v
  | 2 => decide (v.toNat ≤ x.toNat)
  | _ => decide (x.toNat < v.toNat)

/-- One read of WAITEVENT: answered, or the value read. A VA that is no multiple of 8 is read as it is (log 118). A read that does
not answer OK leaves no gathered bit (R57). -/
def waitRead (s : State) (asid cond : Nat) (va value : W64) : Except CmdRes W64 × State :=
  match cmdRead s.chip asid va.toNat 8 with
  | (.error r, _) => (.error r, s)
  | (.ok bs, c) =>
    let x := BitVec.ofNat 64 (leNat bs)
    if condHolds cond x value then (.error (.answer 0 x.toNat []), { s with chip := c }) else (.ok x, s)

/-- The attestation report (R76). -/
def attestReport (s : State) (nonce : List Byte) : List Byte :=
  let i := s.io
  let svn := fun k => i.bootSvn.toList.getD k 0
  let w3 := svn 0 % 64 * 2 ^ 58 + svn 1 % 64 * 2 ^ 52 + svn 2 % 64 * 2 ^ 46 + fusedSvn i 1 % 64 * 2 ^ 40 +
    fusedSvn i 2 % 64 * 2 ^ 34 + fusedSvn i 3 % 64 * 2 ^ 28 + i.slots.toNat * 2 ^ 25 + (if i.rdlock then 2 ^ 24 else 0)
  let head := [2 ^ 48 + 2612 * 2 ^ 32, i.serial.toNat, s.chip.timebase, w3, 0, 0, 0, 0].flatMap (leBytes 8)
  let body := head ++ (i.meas.toList.flatMap fun m => leBytes 32 m.toNat) ++ nonce
  body ++ (List.range 2420).map (Config.attestByte body)

/-- Bytes of an image by offset and length. -/
def imgRd (img : List Byte) : Nat → Nat → List Byte :=
  let arr := img.toArray
  fun off n => (List.range n).map fun k => arr.getD (off + k) flashDflt

/-- The flash with a slot erased, and with an image programmed into it. -/
def fwErased (i : Io) (t slot : Nat) : Memory := i.flash.write flashDflt (slotBase t slot) (List.replicate (slotSize t) flashDflt)
def fwWritten (i : Io) (t slot : Nat) (img : List Byte) : Memory := (fwErased i t slot).write flashDflt (slotBase t slot) img

/-- COMMIT raises the fused minimum SVN of the type to the image's (R73); the counter ends at 63 (R72; log 108). -/
def fwCommit (i : Io) (t : Nat) (commit : Bool) (svn : Nat) : Io :=
  if commit ∧ svn > fusedSvn i t then { i with fuseSvn := i.fuseSvn.setIfInBounds (t - 1) (max (fusedSvn i t) (min svn 63)) } else i

/-- FWLOAD (R73) once its image has been read. -/
def fwload (s : State) (t slot : Nat) (commit : Bool) (img : List Byte) : Nat × State :=
  if (imgHdr (imgRd img)).svn < fusedSvn s.io t then (0x0A, s)
  else if !imageOk (imgRd img) t s.io.fuseRoot (fusedSvn s.io t) then (9, s)
  else if !imageOk (flashRd { s.io with flash := fwWritten s.io t slot img } (slotBase t slot)) t s.io.fuseRoot (fusedSvn s.io t) then
    (9, s.modIo fun i => { i with flash := fwErased i t slot })
  else
    (0, s.modIo fun i => fwCommit { i with flash := fwWritten i t slot img } t commit (imgHdr (imgRd img)).svn)

/-! ### The commands, each with its checks in the spec's order -/

/-- READ (R60). -/
def readBody (s : State) (asid : Nat) (b : List Byte) : CmdRes × State :=
  if nfld (cmdWord b 2) 0 13 = 0 ∨ nfld (cmdWord b 2) 0 13 > 4096 then (.code 2, s)
  else match cmdRead s.chip asid (cmdWord b 1) (nfld (cmdWord b 2) 0 13) with
    | (.error r, c) => (r, { s with chip := c })
    | (.ok bs, c) => (.answer 0 (nfld (cmdWord b 2) 0 13) bs, { s with chip := c })

/-- What acts on the compute part only. -/
def onChipBody (s : State) (r : CmdRes × Chip) : CmdRes × State := (r.1, { s with chip := r.2 })

/-- WRITE (R60). -/
def writeBody (s : State) (asid : Nat) (b : List Byte) : CmdRes × State :=
  onChipBody s (cmdWrite s.chip asid (cmdWord b 1) (b.drop 16) 0)

/-- LAUNCH (R60). -/
def launchBody (s : State) (q asid : Nat) (sup : Bool) (b : List Byte) : CmdRes × State :=
  let ring := nfld (cmdWord b 2) 0 6
  match checkDesc s.chip (BitVec.ofNat 64 (cmdWord b 1)) asid sup q ring (s.net.ring ring).en with
  | (.held, c) => (.work .held, { s with chip := c })
  | (.status x, c) => (.code x, { s with chip := c })
  | (.ok l, c) => (.answer 0 (goLive c l).1 [], { s with chip := (goLive c l).2 })

/-- PREEMPT (R61). -/
def preemptBody (s : State) (asid : Nat) (sup : Bool) (b : List Byte) : CmdRes × State :=
  if nfld (cmdWord b 1) 32 2 = 3 then (.code 2, s)
  else match namedLaunch s asid sup (nfld (cmdWord b 1) 0 32) with
    | none => (.code 7, s)
    | some (k, l) => (.work (.preempt k l.id (nfld (cmdWord b 1) 32 2)), s)

/-- KILL (R61). -/
def killBody (s : State) (asid : Nat) (sup : Bool) (b : List Byte) : CmdRes × State :=
  match namedLaunch s asid sup (nfld (cmdWord b 1) 0 32) with
  | none => (.code 7, s)
  | some (k, l) => (.work (.kill k l.id), s)

/-- A message that waits for the answer of a command of its stream, and so is behind every marker (02 R40). -/
def behindCmd (s : State) (p : RxPending) : Bool :=
  p.msg.ord && !p.self && s.net.queues.any fun e =>
    let mine := fun (c : Cmd) => c.srank == p.msg.srank && c.stream == p.msg.stream && decide (c.no < p.no)
    e.2.pending.any mine || e.2.inprog.any fun (i : InCmd) => mine i.cmd

/-- Messages that a TLBINV found received keep the translations of what it names (07 R200); those behind the marker are translated
afresh. -/
def markRx (s : State) (c : Cmd) (p : TlbEnt → Bool) : State :=
  let behind := fun (m : RxPending) => behindCmd s m || (m.msg.ord && !m.self && m.msg.srank == c.srank && m.msg.stream == c.stream &&
    decide (c.no < m.no))
  let mark := fun (m : RxPending) =>
    if behind m then { m with pieces := none, old := [] } else { m with old := m.old ++ (s.chip.die 0).stlb.filter p }
  s.modNet fun n => { n with rxWait := n.rxWait.map mark }

/-- The messages that a TLBINV waits for: those that go by the old mapping. -/
def oldMsgs (s : State) : List Nat :=
  (s.net.rxWait.filter fun (p : RxPending) => p.pieces.isSome || !p.old.isEmpty).map (·.no)

def CmdWork.withMsgs (w : CmdWork) (msgs : List Nat) : CmdWork :=
  match w with
  | .tlbinv a lo hi cs h o v _ => .tlbinv a lo hi cs h o v msgs
  | x => x

/-- TLBINV of an address space, or of all, and a range; the command is the one in progress. -/
def tlbinvRun (s : State) (c : Cmd) (asid : Option Nat) (lo hi : Nat) : CmdRes × State :=
  let s := markRx s c fun e => e.hit asid lo hi
  let r := tlbinvNow s.chip asid lo hi
  (.work (r.1.withMsgs (oldMsgs s)), { s with chip := r.2 })

/-- TLBINV (R63): PERM for ALLASID, BADARG, PERM for another ASID, in this order (log 117). -/
def tlbinvBody (s : State) (asid : Nat) (sup : Bool) (c : Cmd) : CmdRes × State :=
  let w := cmdWord c.bytes
  let all := (w 1).testBit 12
  let a := nfld (w 1) 0 12
  let every := all || (w 1).testBit 13
  if all ∧ !sup then (.code 3, s)
  else if !every ∧ (w 3 = 0 ∨ w 3 % 4096 ≠ 0 ∨ w 2 % 4096 ≠ 0) then (.code 2, s)
  else if !all ∧ !sup ∧ a ≠ asid then (.code 3, s)
  else tlbinvRun s c (if all then none else some a) (if every then 0 else w 2) (if every then 2 ^ 64 else w 2 + w 3)

/-- HARVEST (R63). -/
def harvestBody (s : State) (asid : Nat) (sup : Bool) (b : List Byte) : CmdRes × State :=
  if !sup ∧ nfld (cmdWord b 1) 0 12 ≠ asid then (.code 3, s)
  else if gatheredHeld s.chip fun e => e.asid == nfld (cmdWord b 1) 0 12 then (.work .held, s)
  else (.code 0, s.modChip fun c => flushGathered c fun e => e.asid == nfld (cmdWord b 1) 0 12)

/-- A change of a placement entry joins the series of each die of DMASK. -/
def placeOn (c : Chip) (dmask : Nat) (a entry q no : Nat) (image : List Byte) : Chip :=
  ((List.range Config.dies).filter dmask.testBit).foldl (fun (c : Chip) d =>
    joinSeries c d (newItem a entry ⟨d, 0, 0, false, 2 ^ 40, 0, 0⟩ (.place q no image) none)) c

/-- PLACE (R63): BADARG before PERM (log 117). -/
def placeBody (s : State) (q asid : Nat) (sup : Bool) (no : Nat) (b : List Byte) : CmdRes × State :=
  let w := cmdWord b
  if nfld (w 1) 24 8 = 0 then (.code 2, s)
  else if !sup ∧ nfld (w 1) 0 12 ≠ asid then (.code 3, s)
  else match cmdRead s.chip asid (w 2) 64 with
    | (.error r, c) => (r, { s with chip := c })
    | (.ok image, c) =>
      (.work .place, { s with chip := placeOn c (nfld (w 1) 24 8) (nfld (w 1) 0 12) (nfld (w 1) 16 8) q no image })

/-- SIGNAL (R63). -/
def signalBody (s : State) (asid : Nat) (b : List Byte) : CmdRes × State :=
  onChipBody s (signal s.chip asid (nfld (cmdWord b 1) 0 1) (cmdWord b 2) (BitVec.ofNat 64 (cmdWord b 3)))

/-- The end of a wait with a limit of t µs; none without a limit. -/
def waitEnd (s : State) (t : Nat) : Option Nat := if t = 0 then none else some (s.io.clock + t * usCycles)

/-- WAITEVENT (R63). Until a read has got past claimed lines the last value counts as 0 (log 119). -/
def waitBody (s : State) (asid : Nat) (b : List Byte) : CmdRes × State :=
  let w := cmdWord b
  let cond := nfld (w 1) 0 2
  let va := BitVec.ofNat 64 (w 2)
  let v := BitVec.ofNat 64 (w 3)
  match waitRead s asid cond va v with
  | (.error (.work _), t) => (.work (.wait cond va v (waitEnd s (nfld (w 1) 32 32)) 0), t)
  | (.error r, t) => (r, t)
  | (.ok x, t) => (.work (.wait cond va v (waitEnd s (nfld (w 1) 32 32)) x), t)

/-- ATTEST (R76). -/
def attestBody (s : State) (asid : Nat) (b : List Byte) : CmdRes × State :=
  onChipBody s (cmdWrite s.chip asid (cmdWord b 1) (attestReport s (b.drop 16)) 2612)

/-- The slot booted from, for a type. -/
def bootedSlot (i : Io) (t : Nat) : Nat := if i.slots.getLsbD (t - 1) then 1 else 0

/-- The slot that FWLOAD's SLOT field names: A, B, or the one not booted from (R73). -/
def fwSlot (i : Io) (t sl : Nat) : Nat := if sl = 2 then 1 - bootedSlot i t else sl

/-- FWLOAD (R73): PERM before BADARG (log 117). -/
def fwloadBody (s : State) (asid : Nat) (sup : Bool) (b : List Byte) : CmdRes × State :=
  let w := cmdWord b
  let t := nfld (w 1) 0 2
  let slot := fwSlot s.io t (nfld (w 1) 2 2)
  if !sup then (.code 3, s)
  else if t = 0 ∨ nfld (w 1) 2 2 = 3 ∨ slot = bootedSlot s.io t ∨ w 3 > slotSize t then (.code 2, s)
  else match cmdRead s.chip asid (w 2) (w 3) with
    | (.error r, c) => (r, { s with chip := c })
    | (.ok img, c) =>
      (.code (fwload { s with chip := c } t slot ((w 1).testBit 4) img).1,
        (fwload { s with chip := c } t slot ((w 1).testBit 4) img).2)

/-- FREEZE (R77). -/
def freezeBody (s : State) (sup : Bool) : CmdRes × State := if !sup then (.code 3, s) else (.silent, freeze s 1)

/-- What a command of queue q with number no does; asid and sup are the queue's as the command began. -/
def cmdEffect (s : State) (q asid : Nat) (sup : Bool) (no : Nat) (c : Cmd) : CmdRes × State :=
  let b := c.bytes
  if b.length < 8 then (.code 2, s)
  else if cmdBadOp b then (.code 1, s)
  else if !cmdLenOk (cmdOpc b) b.length then (.code 2, s)
  else match cmdOpc b with
    | 0 => (.code 0, s)
    | 1 => readBody s asid b
    | 2 => writeBody s asid b
    | 3 => launchBody s q asid sup b
    | 4 => preemptBody s asid sup b
    | 5 => killBody s asid sup b
    | 6 => tlbinvBody s asid sup c
    | 7 => harvestBody s asid sup b
    | 8 => placeBody s q asid sup no b
    | 9 => signalBody s asid b
    | 10 => waitBody s asid b
    | 11 => attestBody s asid b
    | 12 => fwloadBody s asid sup b
    | _ => freezeBody s sup

/-- An attempt at a command. -/
def cmdBody (s : State) (q asid : Nat) (sup : Bool) (no : Nat) (c : Cmd) : CmdRes × State :=
  undone s (cmdEffect s q asid sup no c)

/-! ## Commands in progress -/

/-- Every command in progress with its queue. -/
def allInprog (s : State) : List (Nat × InCmd) := s.net.queues.flatMap fun e => e.2.inprog.map fun i => (e.1, i)

/-- The launch slot that a command in progress names. -/
def InCmd.slot? (i : InCmd) : Option Nat := match i.work with | .preempt k _ _ | .kill k _ => some k | _ => none

/-- Commands that name one launch are performed one at a time (R62). -/
def cmdTurn (s : State) (i : InCmd) : Bool :=
  !((allInprog s).any fun x => x.2.slot? == i.slot? && decide (x.2.no < i.no))

def setWork (s : State) (q no : Nat) (started : Bool) (w : CmdWork) : State :=
  s.modNet fun n => n.modQueue q fun x => { x with inprog := x.inprog.map fun (i : InCmd) =>
    if i.no = no then { i with work := w, started := started } else i }

/-- A command in progress is answered. -/
def finishCmd (s : State) (q : Nat) (i : InCmd) (status result : Nat) (data : List Byte) : State :=
  answerCmd (s.modNet fun n => n.modQueue q fun x => { x with inprog := x.inprog.filter fun (j : InCmd) => j.no != i.no })
    i.cmd status result data

/-- The launch that a command in progress names is still in its slot. -/
def stillLive (s : State) (slot id : Nat) : Bool :=
  match s.chip.launches.find? slot with
  | some l => l.id == id
  | none => false

/-- Some die's series still holds an item of a PLACE command. -/
def placeHeld (s : State) (q no : Nat) : Bool :=
  (List.range Config.dies).any fun d => (s.chip.die d).series.any fun (x : SeriesItem) =>
    match x.op with | .place a b _ => a == q && b == no | _ => false

/-- A command whose access found a claimed line is tried again. -/
def retryHeld (s : State) (q : Nat) (i : InCmd) : State :=
  match cmdBody s q i.asid i.sup i.no i.cmd with
  | (.answer st r d, s) => finishCmd s q i st r d
  | (.work w, s) => setWork s q i.no true w
  | (.silent, s) => s

/-- PREEMPT in progress: MODE 2 releases at once; MODE 0 and 1 start in their turn, and end when nothing is bound (R101). -/
def carryPreempt (s : State) (q : Nat) (i : InCmd) (slot mode : Nat) : State :=
  if mode = 2 then (if cmdTurn s i then finishCmd (s.modChip fun c => releaseHeld c slot) q i 0 0 [] else s)
  else if !i.started then
    (if cmdTurn s i then setWork (s.modChip fun c => preemptStart c slot (mode == 1)) q i.no true i.work else s)
  else if preemptOver (stopCtxs s.chip slot true) slot then
    finishCmd (s.modChip fun c => (stopCtxs c slot true).modLaunch slot fun l => { l with preempting := none }) q i 0 0 []
  else s.modChip fun c => stopCtxs c slot true

/-- KILL in progress: it starts in its turn, unless every task has ended (R62). -/
def carryKill (s : State) (q : Nat) (i : InCmd) (slot : Nat) : State :=
  if !i.started then
    (if !cmdTurn s i then s
     else match s.chip.launches.find? slot with
       | some l => if allEnded l then finishCmd s q i 0 0 []
         else setWork (s.modChip fun c => killStart c slot) q i.no true i.work
       | none => s)
  else s.modChip fun c => endKilled (stopCtxs c slot false) slot

/-- Carry a command in progress on as far as it goes. -/
def carryOn (s : State) (q : Nat) (i : InCmd) : State :=
  match i.work with
  | .held => retryHeld s q i
  | .wait .. => s
  | .tlbinv a lo hi cs h o v m =>
    if tlbinvOver s a lo hi cs h o v m then finishCmd (s.modChip clearL1s) q i 0 0 [] else s
  | .place => if placeHeld s q i.no then s else finishCmd s q i 0 0 []
  | .preempt slot id mode => if !stillLive s slot id then finishCmd s q i 0 0 [] else carryPreempt s q i slot mode
  | .kill slot id => if !stillLive s slot id then finishCmd s q i 0 0 [] else carryKill s q i slot

/-- Carry every command in progress on, in the order in which they began. -/
def pumpCmds (s : State) : State :=
  (sortBy (fun (x : Nat × InCmd) => x.2.no) (allInprog s)).foldl (fun s x => carryOn s x.1 x.2) s

/-- The head of a queue leaves it and is numbered (R58). -/
def takeCmd (s : State) (q : Nat) : State :=
  s.modNet fun n => { (n.modQueue q fun x => { x with pending := x.pending.drop 1 }) with cpTurn := q, nextCmd := n.nextCmd + 1 }

/-- A command begun and not answered at once is in progress. -/
def addInprog (s : State) (q : Nat) (i : InCmd) : State :=
  s.modNet fun n => n.modQueue q fun x => { x with inprog := x.inprog ++ [i] }

/-- A command taken from queue q as x begins. -/
def runCmd (s : State) (q : Nat) (x : CmdQueue) (no : Nat) (c : Cmd) : State :=
  match cmdBody s q x.asid x.sup no c with
  | (.answer st r d, s) => answerCmd s c st r d
  | (.silent, s) => s
  | (.work w, s) =>
    let i : InCmd := { no := no, cmd := c, asid := x.asid, sup := x.sup, work := w, started := false }
    carryOn (addInprog s q i) q i

/-- The command processor begins the next command if it is of the given row of the table of steps (R58). -/
def beginCmd (s : State) (row : Nat) : State :=
  match nextCmd s with
  | none => s
  | some (q, c) => if cmdRow c.bytes ≠ row then s else runCmd (takeCmd s q) q (s.net.queue q) s.net.nextCmd c

/-- The limit of a wait has come. -/
def waitLate (s : State) (till : Option Nat) : Bool := match till with | some t => decide (t ≤ s.io.clock) | none => false

/-- A read of WAITEVENT that did not answer: TIMEOUT at the limit, else the value is kept. -/
def waitGoOn (s : State) (q : Nat) (i : InCmd) (cond : Nat) (va v : W64) (till : Option Nat) (x : W64) : State :=
  if waitLate s till then finishCmd s q i 8 x.toNat [] else setWork s q i.no true (.wait cond va v till x)

/-- WAITEVENT_POLL of a queue (R63). -/
def waitPoll (s : State) (q : Nat) : State :=
  match (s.net.queue q).inprog.find? InCmd.isWait with
  | none => s
  | some i => match i.work with
    | .wait cond va v till last =>
      match waitRead s i.asid cond va v with
      | (.error (.answer st r d), s) => finishCmd s q i st r d
      | (.ok x, s) => waitGoOn s q i cond va v till x
      | (.error _, s) => waitGoOn s q i cond va v till last
    | _ => s

/-- EN of a queue is cleared: commands not begun are answered QDISABLED (R55). -/
def disableQueue (s : State) (q : Nat) : State :=
  let x := s.net.queue q
  let s := s.modNet fun n => n.setQueue q { x with en := false, pending := [], refused := min (x.refused + x.pending.length) (2 ^ 64 - 1) }
  x.pending.foldl (fun s c => answerCmd s c 0x0B 0 []) s

/-! ## What follows at the next tick -/

/-- Messages of the part go out, messages that waited are tried again, commands go on, frames leave. -/
def settleOnce (s : State) : State := pumpTx (pumpCmds (pumpRx (flushOut s)))

/-- What a clock period does at the ports while the part runs. Three rounds carry an answer through a message and a command. -/
def settle (s : State) : State :=
  if s.io.phase = .running then
    (let s := settleOnce (settleOnce (settleOnce s))
     pfcLevel (pfcLevel s 0) 1)
  else s

end Sys2Proof.Machine
end

