-- ==== Sys2Proof/Machine/Registers.lean ====
section
/-! DEFINITION. Management registers by address (01 R26 to R29, 02 R49 to R53, 03 R55, R68, R74 to R76, R80, 07 R202, 15 R377) and
management frames (02 R47, R48). -/

namespace Sys2Proof.Machine

def satW (n : Nat) : W64 := BitVec.ofNat 64 (min n (2 ^ 64 - 1))

/-! ## Reading -/

/-- Boot status (R75). -/
def bootStatus (i : Io) : W64 :=
  let phase := match i.phase with
    | .reset | .verify => 1 | .train => 2 | .zero => 3 | .running => 4 | .recovery => 0xE | .frozen => 0xF
  BitVec.ofNat 64 (phase * 2 ^ 60 + i.fail * 2 ^ 56 + i.failUnit * 2 ^ 51 + i.slots.toNat * 2 ^ 48 + fusedSvn i 1 % 64 * 2 ^ 42 +
    fusedSvn i 2 % 64 * 2 ^ 36 + fusedSvn i 3 % 64 * 2 ^ 30 + (if i.rdlock then 2 ^ 29 else 0) + i.frzCause * 2 ^ 25 +
    i.frzSeen.toNat * 2 ^ 21)

/-- A word of a port record (02 R50). -/
def portWord (x : Port) (p off : Nat) : W64 :=
  let own := fun (n : Nat) => if p = 0 then n else 0
  match off with
  | 0 => BitVec.ofNat 64 (own x.epoch * 2 ^ 48 + x.mac.toNat)
  | 8 => BitVec.ofNat 64 (own x.rank * 2 ^ 52 + own x.group * 2 ^ 36 + x.vid * 2 ^ 24 + x.pcpCtl * 2 ^ 21 + x.pcpData * 2 ^ 18 +
      x.pfcEn.toNat * 2 ^ 10 + (if x.link then 2 else 0) + (if x.en then 1 else 0))
  | 0x10 => BitVec.ofNat 64 x.mgmtMac
  | 0x18 => BitVec.ofNat 64 (x.retryMax * 2 ^ 48 + x.rto * 2 ^ 32 + x.xoff * 2 ^ 16 + x.xon)
  | _ => 0

def rankWord (e : RankEnt) (off : Nat) : W64 :=
  if off = 0 then BitVec.ofNat 64 (e.failed.toNat * 2 ^ 16 + (if e.h then 4 else 0) + e.pmask) else BitVec.ofNat 64 e.pmac

def windowWord (w : Window) (off : Nat) : W64 :=
  match off with
  | 0 => BitVec.ofNat 64 (w.asid * 2 ^ 52 + w.inflight * 2 ^ 4 + (if w.a then 8 else 0) + (if w.w then 4 else 0) +
      (if w.r then 2 else 0) + (if w.v then 1 else 0))
  | 8 => BitVec.ofNat 64 w.base
  | 0x10 => BitVec.ofNat 64 w.length
  | _ => BitVec.ofNat 64 w.fring

def counterWord (c : PortCounters) (off : Nat) : W64 :=
  satW (match off / 8 with
    | 0 => c.rxFrames | 1 => c.txFrames | 2 => c.dropMac | 3 => c.dropEtype | 4 => c.dropMalf | 5 => c.dropBuf | 6 => c.retx
    | 7 => c.dup | 8 => c.nackTx | 9 => c.nackRx | 10 => c.streamFail | _ => 0)

def queueWord (x : CmdQueue) (off : Nat) : W64 :=
  match off with
  | 0 => BitVec.ofNat 64 (x.asid * 2 ^ 52 + x.pending.length * 2 ^ 8 + x.inprog.length * 2 ^ 3 + (if x.sup then 2 else 0) +
      (if x.en then 1 else 0))
  | 8 => satW x.accepted
  | 0x10 => satW x.refused
  | _ => 0

def ringWord (r : Ring) (off : Nat) : W64 :=
  match off with
  | 0 => BitVec.ofNat 64 (r.asid * 2 ^ 52 + r.drank * 2 ^ 40 + r.stream * 2 ^ 36 + r.size * 2 ^ 32 + (if r.en then 1 else 0))
  | 8 => BitVec.ofNat 64 r.base
  | 0x10 => BitVec.ofNat 64 (r.timer * 2 ^ 32 + r.thresh * 2 ^ 16)
  | 0x18 => satW r.dropped
  | 0x20 => satW r.frames
  | _ => 0

/-- A word of a core's request record (07 R202). -/
def requestWord (co : Core) (off : Nat) : W64 :=
  match off with
  | 0 => satW co.l1Hit | 8 => satW co.reqLocal | 0x10 => satW co.reqRemote | 0x18 => satW co.tlbMiss | 0x20 => satW co.walks
  | _ => 0

/-- A word of an entry of the adapter residency table (15 R377). -/
def adapterWord (a : Adapter) (off : Nat) : W64 :=
  if off = 0 then BitVec.ofNat 64 ((if a.v then 2 ^ 63 else 0) + a.gen % 64 * 2 ^ 52 + a.asid * 2 ^ 40 + a.slot * 2 ^ 28 + a.refcnt)
  else a.key

/-- The word at a management address that is a multiple of 8; addresses that no record lists read as zero. -/
def mgmtRead (s : State) (a : Nat) : W64 :=
  let i := s.io
  if a < 0x40000 then i.shown.getD a 0
  else if a < 0x40080 then portWord (s.net.port ((a - 0x40000) / 0x40)) ((a - 0x40000) / 0x40) (a % 0x40)
  else if 0x50000 ≤ a ∧ a < 0x60000 then rankWord (s.net.rank ((a - 0x50000) / 0x10)) (a % 0x10)
  else if 0x60000 ≤ a ∧ a < 0x60800 then windowWord (s.net.window ((a - 0x60000) / 0x20)) (a % 0x20)
  else if 0x70000 ≤ a ∧ a < 0x70100 then counterWord (s.net.port ((a - 0x70000) / 0x80)).cnt (a % 0x80)
  else if a = 0x80000 then bootStatus i
  else if a = 0x80008 then i.frzTime
  else if a = 0x80100 then i.rosel
  else if a = 0x80200 then flctlWord i
  else if 0x81000 ≤ a ∧ a < 0x81800 then queueWord (s.net.queue ((a - 0x81000) / 0x20)) (a % 0x20)
  else if 0x82000 ≤ a ∧ a < 0x83000 then ringWord (s.net.ring ((a - 0x82000) / 0x40)) (a % 0x40)
  else if 0xA0000 ≤ a ∧ a < 0xB0000 then BitVec.ofNat 64 (leNat (i.flash.read flashDflt (0x2600000 + (a - 0xA0000)) 8))
  else if 0x100000 ≤ a ∧ a < 0x110000 then readout s (roPage s + (a - 0x100000))
  else if 0x110000 ≤ a ∧ a < 0x118000 ∧ a % 0x1000 < 0x800 then
    requestWord (s.chip.core ((a - 0x110000) / 0x1000) (a % 0x1000 / 0x80)) (a % 0x80)
  else if 0x120000 ≤ a ∧ a < 0x140000 then
    adapterWord ((s.chip.die ((a - 0x120000) / 0x4000)).adapters.getD (a % 0x4000 / 0x10) .empty) (a % 0x10)
  else 0

/-! ## Writing -/

def writePort (s : State) (p off : Nat) (w : Nat) : State :=
  let mod := fun (s : State) (f : Port → Port) => s.modNet fun n => n.modPort p f
  match off with
  | 0 => if p = 0 then writeEpoch s (nfld w 48 16) else s
  | 8 =>
    let s := mod s fun x => { x with vid := nfld w 24 12, pcpCtl := nfld w 21 3, pcpData := nfld w 18 3
                                     pfcEn := BitVec.ofNat 8 (w / 2 ^ 10), en := w.testBit 0 }
    if p = 0 then
      let s := mod s fun x => { x with rank := nfld w 52 12, group := nfld w 36 16 }
      if s.io.phase = .frozen then s else s.modChip fun c => { c with rank := nfld w 52 12 }
    else s
  | 0x10 => mod s fun x => { x with mgmtMac := nfld w 0 48 }
  | 0x18 => mod s fun x =>
    let xoff := min (nfld w 16 16) 1920
    { x with retryMax := max 1 (nfld w 48 16), rto := max 1 (nfld w 32 16), xoff := xoff, xon := min (nfld w 0 16) xoff }
  | _ => s

def writeRank (s : State) (r off w : Nat) : State :=
  s.modNet fun n => n.setRank r
    (if off = 0 then { n.rank r with h := w.testBit 2, pmask := w % 4 } else { n.rank r with pmac := nfld w 0 48 })

def writeWindow (s : State) (k off w : Nat) : State :=
  s.modNet fun n =>
    let x := n.window k
    n.setWindow k (match off with
      | 0 => { x with asid := nfld w 52 12, a := w.testBit 3, w := w.testBit 2, r := w.testBit 1, v := w.testBit 0 }
      | 8 => { x with base := w / 4096 * 4096 }
      | 0x10 => { x with length := w / 4096 * 4096 }
      | _ => { x with fring := w % 64 })

/-- A write of a queue record's first word (R55). -/
def writeQueue (s : State) (q w : Nat) : State :=
  let was := (s.net.queue q).en
  let s := s.modNet fun n => n.modQueue q fun x => { x with asid := nfld w 52 12, sup := w.testBit 1, en := w.testBit 0 }
  if was && !w.testBit 0 then disableQueue s q else s

/-- The fields of a ring record's first word but EN (R68). -/
def Ring.withWord0 (r : Ring) (w : Nat) : Ring :=
  { r with asid := nfld w 52 12, drank := nfld w 40 12, stream := nfld w 36 4, size := min (nfld w 32 4) 10 }

/-- EN goes from 0 to 1 (R68): HEAD and TAIL are written to zero; false when a write faults. -/
def enableRing (s : State) (n : Nat) : Bool × State :=
  let r := s.net.ring n
  match (if s.io.phase = .frozen then none else ioStore s.chip r.asid r.base (List.replicate 16 0)) with
  | none => (false, s.modNet fun x => x.modRing n fun r => { r with dropped := bump r.dropped })
  | some c => (true, { s with chip := c }.modNet fun x => x.modRing n fun r =>
      { r with en := true, head := 0, tail := 0, unsent := [] })

/-- A write of a ring record (R68): with EN = 1 only one that clears EN takes effect. -/
def writeRing (s : State) (n off w : Nat) : Bool × State :=
  let mod := fun (s : State) (f : Ring → Ring) => s.modNet fun x => x.modRing n f
  if (s.net.ring n).en then
    (true, if off = 0 ∧ !w.testBit 0 then mod s fun r => { r.withWord0 w with en := false } else s)
  else match off with
    | 0 =>
      let s := mod s fun r => r.withWord0 w
      if w.testBit 0 then enableRing s n else (true, s)
    | 8 => (true, mod s fun r => { r with base := w / 4096 * 4096 })
    | 0x10 => (true, mod s fun r => { r with timer := nfld w 32 32, thresh := max 1 (min 128 (nfld w 16 16)) })
    | _ => (true, s)

/-- A forced eviction of an adapter (15 R377). -/
def forceEvict (s : Chip) (d n : Nat) : Chip :=
  s.modDie d fun y =>
    let a := y.adapters.getD n .empty
    if a.v then { y with adapters := y.adapters.put n { a with v := false, refcnt := 0, gen := (a.gen + 1) % 64 } } else y

/-- A write of PLIM (01 R29), which the record shows at once (log 41). -/
def writePower (s : State) (w : Nat) : State :=
  let p := max 1200 (min 2200 (nfld w 32 12))
  s.modIo fun i => { i with plim := p
                            shown := i.shown.put 0x30000 (BitVec.ofNat 64 ((i.shown.getD 0x30000 0).toNat % 2 ^ 32 + p * 2 ^ 32)) }

/-- A write of the word at a management address that is a multiple of 8; false is answered MNACK. -/
def mgmtWrite (s : State) (a : Nat) (w : W64) : Bool × State :=
  let x := w.toNat
  if a = 0x30000 then (true, writePower s x)
  else if 0x40000 ≤ a ∧ a < 0x40080 then (true, writePort s ((a - 0x40000) / 0x40) (a % 0x40) x)
  else if 0x50000 ≤ a ∧ a < 0x60000 then (true, writeRank s ((a - 0x50000) / 0x10) (a % 0x10) x)
  else if 0x60000 ≤ a ∧ a < 0x60800 then (true, writeWindow s ((a - 0x60000) / 0x20) (a % 0x20) x)
  else if a = 0x80100 then (true, writeRosel s w)
  else if a = 0x80200 then (true, writeFlctl s w)
  else if 0x81000 ≤ a ∧ a < 0x81800 then (true, if a % 0x20 = 0 then writeQueue s ((a - 0x81000) / 0x20) x else s)
  else if 0x82000 ≤ a ∧ a < 0x83000 then writeRing s ((a - 0x82000) / 0x40) (a % 0x40) x
  else if 0x90000 ≤ a ∧ a < 0x90400 then (true, writeStaging s (a - 0x90000) (leBytes 8 x))
  else if 0x120000 ≤ a ∧ a < 0x140000 then
    (true, if a % 0x10 = 0 ∧ x.testBit 62 ∧ s.io.phase ≠ .frozen then
      s.modChip fun c => forceEvict c ((a - 0x120000) / 0x4000) (a % 0x4000 / 0x10) else s)
  else (true, s)

/-- Words written one after another from an address; the first refused write ends it. -/
def mgmtWrites (s : State) (a : Nat) : List W64 → Bool × State
  | [] => (true, s)
  | w :: t => match mgmtWrite s a w with
    | (true, s) => mgmtWrites s (a + 8) t
    | r => r

/-! ## Management frames (02 R47, R48) -/

/-- MTYPE of a management frame that R31 and R47 let pass. -/
def mgmtType (s : State) (f : RxFrame) : Option Nat :=
  match macDrop s f with
  | .ok e => if e.etype = 0x88B6 then some (mhdrOf e.data).mtype else none
  | .error _ => none

/-- The answer to a request on the port where it came. -/
def mgmtAnswer (s : State) (f : RxFrame) (e : Eth) (h : MHdr) (ok : Bool) (data : List Byte) : State :=
  sendMac s ⟨f.port, e.sa, (s.net.port f.port).pcpCtl, 0x88B6,
    mhdrBytes (if ok then 2 else 3) h.tag h.maddr data.length ++ data⟩

/-- A request is well formed (R48, R49). -/
def mgmtOk (h : MHdr) : Bool :=
  h.ver == 1 && h.rsv == 0 && decide (h.mtype ≤ 1) && h.maddr % 8 == 0 && h.mlen % 8 == 0 && decide (8 ≤ h.mlen) &&
    decide (h.mlen ≤ 1024) && decide (h.maddr + h.mlen ≤ 2 ^ 32)

/-- A management request is handled and answered; an MREPLY or MNACK is discarded. -/
def receiveMgmt (s : State) (f : RxFrame) (e : Eth) : State :=
  let h := mhdrOf e.data
  if h.mtype = 2 ∨ h.mtype = 3 then s
  else if !mgmtOk h then mgmtAnswer s f e h false []
  else if h.mtype = 0 then
    mgmtAnswer s f e h true ((List.range (h.mlen / 8)).flatMap fun k => leBytes 8 (mgmtRead s (h.maddr + 8 * k)).toNat)
  else match e.payload 16 h.mlen with
    | none => mgmtAnswer s f e h false []
    | some p =>
      let (ok, s) := mgmtWrites s h.maddr ((List.range (h.mlen / 8)).map fun k => BitVec.ofNat 64 (word64 p k))
      mgmtAnswer s f e h ok []

/-- A frame arrives at a port (02 R31): dropped and counted, or handled by its EtherType. -/
def receive (s : State) (f : RxFrame) : State :=
  match macDrop s f with
  | .error k => countDrop s f.port k
  | .ok e =>
    if e.etype = 0x88B6 then receiveMgmt s f e
    else if e.etype = 0x88B5 then pfcLevel (receiveVorby s f.port e) f.port
    else receivePfc s f.port e.data

/-- Whether a frame is dropped and counted as R31, R32, R33, R36 or R47 says. -/
def isDropped (s : State) (f : RxFrame) : Bool :=
  match macDrop s f with
  | .error k => k != .silent
  | .ok e => e.etype == 0x88B5 && (match vorbyOf e with
      | none => true
      | some (h, _, _) => (vorbyDrop s h).isSome)

end Sys2Proof.Machine
end

