-- ==== Sys2Proof/Machine/Background.lean ====
section
/-! DEFINITION. Power and temperature (01 R16, R17), die links (R11), the stacks' background work and ECC (R20 to R25), refresh of
the records (R26, R27). -/

namespace Sys2Proof.Machine

/-! ## Power (R16, R29) -/

/-- What a step of throttling does: the hottest junction and DRAM die in 1/16 degree, the average power in W. -/
def throttle (i : Io) (tj dram watts : Nat) : Io :=
  let hot := decide (105 * 16 ≤ tj) || decide (95 * 16 ≤ dram)
  let above := decide (i.plim < watts)
  let cool := decide (tj < 100 * 16) && decide (dram < 90 * 16) && decide (watts + 50 < i.plim)
  { i with pwr := watts, tjmax := tj, throtT := hot, throtP := above
           duty := if hot || above then max 4 (i.duty - 1) else if cool then min 16 (i.duty + 1) else i.duty }

/-- A junction at 115 °C or more (R15, R17), in 1/16 degree. -/
def tripTemp : Nat := 115 * 16

/-- A thermal trip: THERMTRIP_N goes low, and stays so until reset (R17). -/
def thermalTrip (s : State) : State :=
  if s.io.phase = .reset then s else freeze (s.modIo fun i => { i with thermTrip := true }) 2

/-- THROTTLE_STEP, at most every 2^20 cc (R16): the readings, the duty, and the trip of a junction that is too hot (R17). -/
def throttleStep (s : State) (tj dram watts : Nat) : State :=
  if s.io.phase = .reset ∨ s.io.phase = .frozen ∨ s.io.clock < s.io.throtNext then s
  else
    let s := s.modIo fun i => { throttle i tj dram watts with throtNext := i.clock + Io.period }
    if tripTemp ≤ tj then thermalTrip s else s

/-- Whether this cycle is one in which a throttled core issues nothing (log 42). -/
def throttled (s : State) : Bool := decide (s.io.duty ≤ s.chip.now % 16)

/-! ## Links (R11) -/

def linksOn (i : Io) : Bool := i.phase == .train || i.phase == .zero || i.phase == .running

/-- LINK_FLIT_CRC_ERROR: port j of die d, or its link to the I/O die, received a flit with a bad CRC. The counter of the receiving
end counts it (log 109): a flit to die d by port j is one that die linkPeer d j sent. -/
def linkRetry (s : State) (d port : Nat) : State :=
  if linksOn s.io then s.modIo fun i => { i with links := i.links.put (5 * d + port) (i.links.getD (5 * d + port) 0 + 1) } else s

/-! ## Stacks (R20 to R27) -/

def stacksOn (i : Io) : Bool := i.phase == .zero || i.phase == .running

/-- Bank-cycles of background work in the last 2^24 cc. -/
def Stack.spent (t : Stack) (clock : Nat) : Nat :=
  (t.recent.filter fun e => decide (clock < e.1 + 2 ^ 24)).foldl (fun a e => a + e.2) 0

/-- Background work of some bank-cycles keeps within 1.5 % of a stack's capacity over 2^24 cc (R20). -/
def Stack.affords (t : Stack) (clock cost : Nat) : Bool :=
  decide (cost = 0 ∨ 1000 * (t.spent clock + cost) ≤ 15 * (Config.stackBanks * 2 ^ 24))

/-- The most that background work delays an access (R20), and that a calibration does (R25). -/
def bgDelay : Nat := 2000
def calDelay : Nat := 800

/-- Background work on a stack: the bank-cycles that it cost, and the delay that it added to an access, which the spec bounds and
otherwise leaves open (R20, R25; log 43). Work beyond the stack's budget is not done. -/
def background (s : State) (k cost most : Nat) (f : Stack → Stack) : State :=
  if !stacksOn s.io ∨ !(s.io.stack k).affords s.io.clock cost then s
  else
    let delay := Config.freeChoice s.chip.fresh % (most + 1)
    { s with chip := { s.chip with fresh := s.chip.fresh + 1 } }.modIo fun i => i.modStack k fun t =>
      f { t with bgCycles := t.bgCycles + cost, bgMaxDelay := max t.bgMaxDelay delay
                 recent := t.recent.filter (fun (e : Nat × Nat) => decide (i.clock < e.1 + 2 ^ 24)) ++ [(i.clock, cost)] }

/-- REFRESH of a bank: REFRESH_FAST says whether some DRAM die is at 85 °C or more (R23). -/
def refreshBank (s : State) (k dram cost : Nat) : State :=
  background s k cost bgDelay fun t => { t with refreshCmds := t.refreshCmds + 1, refreshFast := decide (85 * 16 ≤ dram) }

/-- ROW_DISTURB_REFRESH of both neighbours of a row that has been activated so often within one refresh period (R23). -/
def rowDisturb (s : State) (k acts cost : Nat) : State :=
  if acts < 4096 then s else background s k cost bgDelay fun t => { t with rdmRefresh := t.rdmRefresh + 2 }

/-- INTERFACE_CALIBRATION of a pseudo-channel (R25): once every 2^28 cc, one of the stack's at a time. -/
def calibrate (s : State) (k ch cost : Nat) : State :=
  let t := s.io.stack k
  if s.io.clock < t.calNext.getD ch 0 ∨ s.io.clock < t.calUntil ∨ calDelay < cost then s
  else background s k cost cost fun t =>
    { t with calRuns := t.calRuns + 1, calNext := t.calNext.put ch (s.io.clock + 2 ^ 28), calUntil := s.io.clock + cost }

/-- The physical address of granule g of stack k, in device address order (R6, 07 R185, R186; log 44). -/
def granuleAddr (k g : Nat) : Nat :=
  let y := 64 * g
  let hi := y / 2 ^ 11
  fromLocal (k / 2) (y % 2 ^ 11 + ((k % 2) ^^^ (hi / 2 % 2)) * 2 ^ 11 + hi * 2 ^ 12)

/-- Granules of a stack: 36 GiB (R7). -/
def stackGranules : Nat := 0x24000000

/-- The stack that holds an address (R6). -/
def stackOf (p : Nat) : Nat := 2 * homeDie p + homeSlice p / 16

def insertGranule (g : Nat) : List Nat → List Nat
  | [] => [g]
  | x :: t => if g < x then g :: x :: t else if g = x then x :: t else x :: insertGranule g t

/-- A granule that becomes poisoned (R21): what its bytes were is lost, and whoever reads them otherwise than as poison finds free
values (log 46). -/
def spoil (c : Chip) (g : Nat) : Chip :=
  { c with poison := insertGranule g c.poison, fresh := c.fresh + 8
           mem := c.mem.write memDflt (64 * g) ((List.range 8).flatMap fun i => leBytes 8 (Config.freeWord (c.fresh + i)).toNat) }

/-- A stack with one more error found (R21, R24). -/
def Stack.found (t : Stack) (clock g : Nat) (uncorr : Bool) : Stack :=
  { t with eccCorr := if uncorr then t.eccCorr else t.eccCorr + 1, eccUncorr := if uncorr then t.eccUncorr + 1 else t.eccUncorr
           errors := t.errors ++ [⟨g, clock, uncorr⟩] }

/-- What a read finds in the granule of an address (R21): 1 a correctable error, 2 an uncorrectable one. -/
def eccError (s : State) (p err : Nat) : State :=
  match err with
  | 1 => s.modIo fun i => i.modStack (stackOf p) fun t => t.found i.clock (p / 64) false
  | 2 => (s.modChip fun c => spoil c (p / 64)).modIo fun i => i.modStack (stackOf p) fun t => t.found i.clock (p / 64) true
  | _ => s

/-- PATROL_SCRUB of the next granule of a stack (R22). -/
def scrub (s : State) (k err cost : Nat) : State :=
  if !stacksOn s.io then s
  else
    let g := (s.io.stack k).scrubAt
    eccError (background s k cost bgDelay fun t =>
      let last := decide (g + 1 ≥ stackGranules)
      { t with scrubLines := t.scrubLines + 1, scrubAt := if last then 0 else g + 1
               scrubPass := if last then t.scrubPass + 1 else t.scrubPass }) (granuleAddr k g) err

/-- 24 hours in core cycles of 850 MHz. -/
def dayCycles : Nat := 24 * 3600 * 850000000

/-- The error was found in a row of a bank (log 110). -/
def EccError.inRow (e : EccError) (bank row : Nat) : Bool := Config.dramBank e.granule == bank && Config.dramRow e.granule == row

/-- A row is to be remapped: four corrected errors within 24 hours, or an uncorrectable one (R24). -/
def Stack.rowFails (t : Stack) (clock bank row : Nat) : Bool :=
  let es := t.errors.filter fun (e : EccError) => e.inRow bank row
  es.any (fun (e : EccError) => e.uncorr) || decide (4 ≤ (es.filter fun (e : EccError) => decide (clock ≤ e.at_ + dayCycles)).length)

/-- SPARE_ROW_REMAP of a row of a bank (R24): nothing while its errors do not call for it, the map is full or the bank has no spare
row left. -/
def remapRow (s : State) (k bank row cost : Nat) : State :=
  let t := s.io.stack k
  if !t.rowFails s.io.clock bank row ∨ t.otpUsed ≥ otpEntries ∨ t.spareUsed.getD bank 0 ≥ spareRows then s
  else background s k cost bgDelay fun t =>
    { t with otpUsed := t.otpUsed + 1, spareUsed := t.spareUsed.put bank (t.spareUsed.getD bank 0 + 1)
             remapCount := t.remapCount + 1, errors := t.errors.filter fun (e : EccError) => !e.inRow bank row }

/-- The temperatures of base and DRAM dies of each stack, from 8 bytes a stack (R27). -/
def Io.withTemps (i : Io) (temps : List Byte) : Io :=
  let t := fun (k j : Nat) => leNat ((temps.drop (8 * k + 4 * j)).take 4)
  (List.range 16).foldl (fun (i : Io) k => i.modStack k fun (x : Stack) => { x with baseTemp := t k 0, dramTemp := t k 1 }) i

/-- The next refresh is due a period from now (R26). -/
def Io.shownNow (i : Io) : Io := { i with showNext := i.clock + Io.period }

/-- RECORD_REFRESH, at most every 2^20 cc: the temperatures, then every record as a whole (R26, R27). -/
def refreshRecords (i : Io) (temps : List Byte) : Io := (i.withTemps temps).refreshShown.shownNow

/-! ## Foreground errors (R21) -/

/-- The granules of a list of addresses, each once, as addresses. -/
def granules (ps : List Nat) : List Nat := (ps.map fun p => p / 64 * 64).eraseDups

/-- The granules that the data arrival of a landing reads, once it may. -/
def arrivalGranules (s : Chip) (d c x id : Nat) : List Nat :=
  let found := if x ≥ 128 then (orphanOf s d c (x - 128) id).map fun l => (orphanCtx s d c (x - 128), l)
    else (s.ctx? d c x).bind fun k => (List.find? (fun (l : Landing) => l.id == id) k.landings).map fun l => (k, l)
  match found with
  | some (k, l) => if arrivalBlocked s d c k l then [] else granules (l.parts.map fun (q : LoadPart) => q.p)
  | none => []

/-- The granules that an entry of a store path finds when it performs. -/
def performGranules (s : Chip) (d c k : Nat) : List Nat :=
  match (s.core d c).path[k]? with
  | some e => if pathReady s d c k e then granules ((pathRanges s (e.serve s) e.op).flatMap fun r =>
      (List.range ((r.2 + 63) / 64 + 1)).filterMap fun n => if n * 64 < r.2 + r.1 % 64 then some (r.1 + 64 * n) else none) else []
  | none => []

/-- The errors that the granules show, in their order; those not named show none. -/
def eccAt (s : State) (ps : List Nat) (errs : List Byte) : State :=
  (ps.zip errs).foldl (fun (s : State) x => eccError s x.1 x.2.toNat) s

end Sys2Proof.Machine
end

