-- ==== Sys2Proof/Machine/PackageSteps.lean ====
section
/-! DEFINITION. Meanings of the steps of the package as a whole: reset and boot, freeze, links, power, the stacks' background work
(rows 0 to 16 of spec/opcode_table.json). A step whose condition does not hold has no effect (log 45). -/

namespace Sys2Proof.Machine

/-- What a step answers. -/
abbrev Result := Host.Outcome State Fault Refusal

/-- A change of the compute part, while it runs. -/
def onChip (s : State) (f : Chip → Chip) : State := if s.io.phase = .running then { s with chip := f s.chip } else s

/-- A change that happens only while the part runs. -/
def whileRunning (s : State) (f : State → State) : State := if s.io.phase = .running then f s else s

/-- A change that happens in every phase but while PERST_N is low. -/
def outOfReset (s : State) (f : State → State) : State := if s.io.phase = .reset then s else f s

/-- PERST_N_RELEASE (01 R13, R19). -/
def execPerstRelease (s : State) : Result := .next (perstHigh s)

/-- PERST_N_ASSERT (01 R19, 03 R79). -/
def execPerstAssert (s : State) : Result := .next (perstFall s)

/-- BOOT_PHASE_COMPLETE (01 R19, 03 R71, R74, R75). -/
def execBootPhaseComplete (o : BootOutcome) (s : State) : Result := .next (phaseComplete s o)

/-- FRZ_N_FREEZE_REQUEST (03 R77, R78). -/
def execFrzRequest (s : State) : Result := .next (freeze s 0)

/-- THERMAL_TRIP (01 R17, 03 R77). -/
def execThermalTrip (s : State) : Result := .next (thermalTrip s)

/-- LINK_FLIT_CRC_ERROR (01 R11, R28). -/
def execLinkFlitCrcError (d port : Nat) (s : State) : Result := .next (linkRetry s d port)

/-- LINK_RETRAIN_FAILURE (01 R11, 03 R77); the freeze records the cause and not the link. -/
def execLinkRetrainFailure (_d _port : Nat) (s : State) : Result :=
  .next (if s.io.phase = .zero ∨ s.io.phase = .running ∨ s.io.phase = .frozen then freeze s 3 else s)

/-- ETHERNET_LINK_UP (01 R19, 02 R35, R50). -/
def execEthernetLinkUp (p : Nat) (s : State) : Result :=
  .next (outOfReset s fun s => s.modNet fun n => n.modPort p fun x => { x with link := true })

/-- ETHERNET_LINK_DOWN (02 R35). -/
def execEthernetLinkDown (p : Nat) (s : State) : Result :=
  .next (outOfReset s fun s => s.modNet fun n => n.modPort p fun x => { x with link := false })

/-- THROTTLE_STEP (01 R15, R16, R17, R29). -/
def execThrottleStep (tj dram watts : Nat) (s : State) : Result := .next (throttleStep s tj dram watts)

/-- RECORD_REFRESH (01 R26, R27). -/
def execRecordRefresh (temps : List Byte) (s : State) : Result :=
  .next (if s.io.phase = .reset ∨ s.io.clock < s.io.showNext then s else s.modIo fun i => refreshRecords i temps)

/-- REFRESH (01 R20, R23). -/
def execRefresh (k dram cost : Nat) (s : State) : Result := .next (refreshBank s k dram cost)

/-- ROW_DISTURB_REFRESH: both neighbours (01 R23). -/
def execRowDisturbRefresh (k : Nat) (w : RowWork) (s : State) : Result := .next (rowDisturb s k w.acts w.cost)

/-- PATROL_SCRUB (01 R21, R22). -/
def execPatrolScrub (k err cost : Nat) (s : State) : Result := .next (scrub s k err cost)

/-- SPARE_ROW_REMAP (01 R24). Software sees the row's data where it was. -/
def execSpareRowRemap (k bank row cost : Nat) (s : State) : Result := .next (remapRow s k bank row cost)

/-- INTERFACE_CALIBRATION (01 R25). -/
def execInterfaceCalibration (k : Nat) (w : CalWork) (s : State) : Result := .next (calibrate s k w.channel w.cost)

/-- GATHERED_BITS_FLUSH (07 R199). -/
def execGatheredBitsFlush (s : State) : Result := .next (onChip s gatheredFlush)

end Sys2Proof.Machine
end

