-- ==== Sys2Proof/Machine/CommandSteps.lean ====
section
/-! DEFINITION. Meanings of the steps of the command processor and the event rings (rows 50 to 70 of spec/opcode_table.json). The
row of a command acts when the next command to begin (03 R58) is of its kind. -/

namespace Sys2Proof.Machine

/-- The next command begins, if it is of a row. -/
def command (s : State) (row : Nat) : State := whileRunning s fun s => beginCmd s row

/-- CMD_NOP, with commands whose header is malformed (03 R56, R59). -/
def execCmdNop (s : State) : Result := .next (command s 50)
/-- CMD_READ (03 R60). -/
def execCmdRead (s : State) : Result := .next (command s 51)
/-- CMD_WRITE (03 R60). -/
def execCmdWrite (s : State) : Result := .next (command s 52)
/-- CMD_LAUNCH (03 R60, 04 R83 to R88). -/
def execCmdLaunch (s : State) : Result := .next (command s 53)
/-- CMD_PREEMPT_MODE_0 (03 R61, 04 R101). -/
def execCmdPreemptMode0 (s : State) : Result := .next (command s 54)
/-- CMD_PREEMPT_MODE_1 (03 R61, 04 R101). -/
def execCmdPreemptMode1 (s : State) : Result := .next (command s 55)
/-- CMD_PREEMPT_MODE_2 (03 R61, 04 R101). -/
def execCmdPreemptMode2 (s : State) : Result := .next (command s 56)
/-- CMD_PREEMPT_MODE_3 (03 R61). -/
def execCmdPreemptMode3 (s : State) : Result := .next (command s 57)
/-- CMD_KILL (03 R61, R62, 11 R297). -/
def execCmdKill (s : State) : Result := .next (command s 58)
/-- CMD_TLBINV (03 R63, 07 R200). -/
def execCmdTlbinv (s : State) : Result := .next (command s 59)
/-- CMD_HARVEST (03 R63, 07 R199). -/
def execCmdHarvest (s : State) : Result := .next (command s 60)
/-- CMD_PLACE (03 R63). -/
def execCmdPlace (s : State) : Result := .next (command s 61)
/-- CMD_SIGNAL_FPUT (03 R63). -/
def execCmdSignalFput (s : State) : Result := .next (command s 62)
/-- CMD_SIGNAL_DCDEC (03 R63). -/
def execCmdSignalDcdec (s : State) : Result := .next (command s 63)
/-- CMD_WAITEVENT (03 R63). -/
def execCmdWaitevent (s : State) : Result := .next (command s 64)
/-- WAITEVENT_POLL of a queue (03 R63). -/
def execWaiteventPoll (q : Nat) (s : State) : Result := .next (whileRunning s fun s => waitPoll s q)
/-- CMD_ATTEST (03 R76). -/
def execCmdAttest (s : State) : Result := .next (command s 66)
/-- CMD_FWLOAD (03 R72, R73). -/
def execCmdFwload (s : State) : Result := .next (command s 67)
/-- CMD_FREEZE (03 R77). -/
def execCmdFreeze (s : State) : Result := .next (command s 68)
/-- COMPLETION_RECORD_WRITE of a launch slot (03 R65, R67). -/
def execCompletionRecordWrite (slot : Nat) (s : State) : Result := .next (whileRunning s fun s => completionWrite s slot)
/-- EVENT_TIMER_EXPIRY of a ring (03 R69). -/
def execEventTimerExpiry (n : Nat) (s : State) : Result := .next (whileRunning s fun s => eventTimer s n)

end Sys2Proof.Machine
end

