-- ==== Sys2Proof/Machine/CoreSteps.lean ====
section
/-! DEFINITION. Meanings of the cores' steps: bundles, answers, loads, stores, walks, async operations, conversions (rows 82 to 95
and 97 of spec/opcode_table.json). -/

namespace Sys2Proof.Machine

/-- The half of a core's issuing context that a row names. -/
def runningHalf (s : Chip) (d c h : Nat) : HalfId := ⟨d, c, ((s.core d c).running).getD 0, h == 1⟩

/-- BUNDLE_ISSUE of a half of the context that the core issues from; an idle core chooses first (04 R99). -/
def issueOn (s : Chip) (d c h : Nat) : Chip :=
  let s := idleChoice s d c
  issueBundle s (runningHalf s d c h)

/-- In a throttled cycle no bundle issues (01 R16). -/
def issueStep (s : State) (d c h : Nat) : State := if throttled s then s else onChip s fun x => issueOn x d c h

/-- BUNDLE_ISSUE for a bundle that writes one of some system registers. -/
def issueSysw (s : State) (d c h : Nat) (regs : List Nat) : State :=
  let x := idleChoice s.chip d c
  match nextSysw x (runningHalf x d c h) with
  | some r => if regs.contains r then issueStep s d c h else s
  | none => s

/-- WAITING_ANSWER_ARRIVAL (05 R119). -/
def execWaitingAnswerArrival (d c h : Nat) (s : State) : Result :=
  .next (onChip s fun x => waitingAnswer x (runningHalf x d c h))
/-- HELD_ANSWER_ARRIVAL (16 R413, 17 R416). -/
def execHeldAnswerArrival (d c h : Nat) (s : State) : Result := .next (onChip s fun x => heldAnswer x (runningHalf x d c h))
/-- LOAD_DATA_ARRIVAL (06 R155; 01 R21). -/
def execLoadDataArrival (d c x id : Nat) (errs : List Byte) (s : State) : Result :=
  .next (whileRunning s fun s => (eccAt s (arrivalGranules s.chip d c x id) errs).modChip fun y => loadDataArrival y d c x id)
/-- STORE_PERFORM (08 R204; 01 R21). -/
def execStorePerform (d c k : Nat) (errs : List Byte) (s : State) : Result :=
  .next (whileRunning s fun s => (eccAt s (performGranules s.chip d c k) errs).modChip fun y => storePerform y d c k)
/-- PAGE_WALK (07 R195, R196). -/
def execPageWalk (d c asid va fetch : Nat) (s : State) : Result := .next (onChip s fun x => pageWalk x d c asid va (fetch == 1))
/-- ASYNC_COMPLETION (08 R225, 16 R400). -/
def execAsyncCompletion (id : Nat) (s : State) : Result := .next (onChip s fun x => asyncComplete x id)
/-- ASYNC_POISON_TRAP (11 R285). -/
def execAsyncPoisonTrap (d c x : Nat) (s : State) : Result := .next (onChip s fun y => contextBoundary y d c x)
/-- ARRAY_INSTRUCTION_END (15 R371). -/
def execArrayInstructionEnd (d c k : Nat) (s : State) : Result := .next (onChip s fun x => arrayEnd x d c k)
/-- CONVERSION_STEP (09 R239). -/
def execConversionStep (d id : Nat) (s : State) : Result := .next (onChip s fun x => conversionStep x d id)
/-- BUNDLE_ISSUE (06 R151). -/
def execBundleIssue (d c h : Nat) (s : State) : Result := .next (issueStep s d c h)
/-- SRSEED_WRITE (10 R257). -/
def execSrseedWrite (d c h : Nat) (s : State) : Result := .next (issueSysw s d c h [0x005])
/-- PTBASE_WRITE (07 R187). -/
def execPtbaseWrite (d c h : Nat) (s : State) : Result := .next (issueSysw s d c h [0x103])
/-- DEFAULT_VECTOR_WRITE: DSTVEC or DTDELEG (12 R313). -/
def execDefaultVectorWrite (d c h : Nat) (s : State) : Result := .next (issueSysw s d c h [0x104, 0x105])
/-- WDOG_WRITE (04 R106). -/
def execWdogWrite (d c h : Nat) (s : State) : Result := .next (issueSysw s d c h [0x106])
/-- CLAIMED_LINE_WRITE (08 R222). -/
def execClaimedLineWrite (id line : Nat) (s : State) : Result := .next (onChip s fun x => claimedWrite x id line)

end Sys2Proof.Machine
end

