-- ==== Sys2Proof/Machine/PortSteps.lean ====
section
/-! DEFINITION. Meanings of the steps of the ports and the transport: frames received, timers (rows 17 to 21, 38 to 49 and 96 of
spec/opcode_table.json). Each frame row acts on frames of its kind; all of them share receive. -/

namespace Sys2Proof.Machine

/-- Receive a frame if it is of a row's kind. -/
def receiveIf (s : State) (f : RxFrame) (kind : Bool) : State := if kind then receive s f else s

/-- Receive a Vorby frame of a type; the messages that it completes begin at once. Their answers leave at the next tick. -/
def receiveType (s : State) (f : RxFrame) (t : Nat) : State :=
  if vorbyType f == some t && s.io.phase == .running then pumpRx (receive s f) else s

/-- FRAME_DROPPED (02 R31 to R34, R36, R47). -/
def execFrameDropped (f : RxFrame) (s : State) : Result := .next (receiveIf s f (isDropped s f))

/-- PFC_FRAME (02 R33). -/
def execPfcFrame (f : RxFrame) (s : State) : Result :=
  .next (receiveIf s f (match macDrop s f with | .ok e => e.etype == 0x8808 | .error _ => false))

/-- MREAD, with requests of a reserved MTYPE, which are malformed (02 R47 to R49). -/
def execMread (f : RxFrame) (s : State) : Result :=
  .next (receiveIf s f (match mgmtType s f with | some t => t == 0 || decide (4 ≤ t) | none => false))

/-- MWRITE (02 R48, R49). -/
def execMwrite (f : RxFrame) (s : State) : Result := .next (receiveIf s f (mgmtType s f == some 1))

/-- MREPLY_RECEIVED: an MREPLY or MNACK is discarded (02 R48). -/
def execMreplyReceived (f : RxFrame) (s : State) : Result :=
  .next (receiveIf s f (mgmtType s f == some 2 || mgmtType s f == some 3))

/-- VORBY_CMD (02 R37, 03 R54). -/
def execVorbyCmd (f : RxFrame) (s : State) : Result := .next (receiveType s f 0)
/-- VORBY_READ (02 R42, R43). -/
def execVorbyRead (f : RxFrame) (s : State) : Result := .next (receiveType s f 1)
/-- VORBY_WRITE (02 R42, R43). -/
def execVorbyWrite (f : RxFrame) (s : State) : Result := .next (receiveType s f 2)
/-- VORBY_ATOMIC (02 R43, R44). -/
def execVorbyAtomic (f : RxFrame) (s : State) : Result := .next (receiveType s f 3)
/-- VORBY_REPLY (02 R46). -/
def execVorbyReply (f : RxFrame) (s : State) : Result := .next (receiveType s f 4)
/-- VORBY_NACK (02 R45, R46). -/
def execVorbyNack (f : RxFrame) (s : State) : Result := .next (receiveType s f 5)
/-- VORBY_EVENT (02 R37). -/
def execVorbyEvent (f : RxFrame) (s : State) : Result := .next (receiveType s f 6)
/-- VORBY_PCOPY (02 R43). -/
def execVorbyPcopy (f : RxFrame) (s : State) : Result := .next (receiveType s f 7)
/-- VORBY_PLPULL (09 R240, R241). -/
def execVorbyPlpull (f : RxFrame) (s : State) : Result := .next (receiveType s f 8)
/-- VORBY_ACK (02 R38, R39, R41). -/
def execVorbyAck (f : RxFrame) (s : State) : Result := .next (receiveType s f 15)

/-- ACK_TIMER (02 R38). -/
def execAckTimer (rank stream : Nat) (s : State) : Result := .next (whileRunning s fun s => ackTimer s rank stream)

/-- RTO_EXPIRY (02 R35, R39). -/
def execRtoExpiry (rank stream psn : Nat) (s : State) : Result := .next (whileRunning s fun s => rtoExpiry s rank stream psn)

/-- PFC_PAUSE_EXPIRY (02 R33). -/
def execPfcPauseExpiry (p prio : Nat) (s : State) : Result := .next (outOfReset s fun s => pauseExpiry s p prio)

end Sys2Proof.Machine
end

