-- ==== Sys2Proof/Machine/RecordSteps.lean ====
section
/-! DEFINITION. Meanings of the steps that write management registers with a row of their own, of flash operations and of the test
access port (rows 22 to 37 of spec/opcode_table.json). A register row is the write of that word; the frame that carries it is
MWRITE's. -/

namespace Sys2Proof.Machine

/-- A write of one management word, in every phase but reset. -/
def writeWord (s : State) (a w : Nat) : State := outOfReset s fun s => (mgmtWrite s a (BitVec.ofNat 64 w)).2

/-- EPOCH_WRITE at port 0 (02 R41). -/
def execEpochWrite (v : Nat) (s : State) : Result := .next (writeWord s 0x40000 (v * 2 ^ 48))

/-- QUEUE_DISABLE: a write with EN = 0 to the record of a queue whose EN is 1 (03 R55). -/
def execQueueDisable (q w : Nat) (s : State) : Result :=
  .next (if (s.net.queue q).en && !w.testBit 0 then writeWord s (0x81000 + 0x20 * q) w else s)

/-- RING_ENABLE: a write with EN = 1 to the record of a ring whose EN is 0 (03 R68). -/
def execRingEnable (n w : Nat) (s : State) : Result :=
  .next (if !(s.net.ring n).en && w.testBit 0 then writeWord s (0x82000 + 0x40 * n) w else s)

/-- RING_DISABLE: a write with EN = 0 to the record of a ring whose EN is 1 (03 R68). -/
def execRingDisable (n w : Nat) (s : State) : Result :=
  .next (if (s.net.ring n).en && !w.testBit 0 then writeWord s (0x82000 + 0x40 * n) w else s)

/-- FLASH_ERASE (03 R74). -/
def execFlashErase (a : Nat) (s : State) : Result := .next (writeWord s 0x80200 (a * 2 ^ 32 + 1))

/-- FLASH_PROGRAM (03 R74). -/
def execFlashProgram (a : Nat) (s : State) : Result := .next (writeWord s 0x80200 (a * 2 ^ 32 + 2))

/-- FLASH_NO_OP: FL_OP 0 or 3 (03 R74). -/
def execFlashNoOp (w : Nat) (s : State) : Result :=
  .next (if w % 4 = 0 ∨ w % 4 = 3 then writeWord s 0x80200 w else s)

/-- FLASH_OP_COMPLETE (03 R74). -/
def execFlashOpComplete (s : State) : Result := .next (if s.io.phase = .recovery then flashDone s else s)

/-- STAGING_BUFFER_WRITE (03 R74). -/
def execStagingBufferWrite (bytes : List Byte) (s : State) : Result := .next (writeStaging s 0 bytes)

/-- ADAPTER_FORCE_EVICT (15 R377). -/
def execAdapterForceEvict (d n : Nat) (s : State) : Result :=
  .next (writeWord s (0x120000 + 0x4000 * d + 0x10 * n) (2 ^ 62))

/-- JTAG_BYPASS (03 R81). -/
def execJtagBypass (s : State) : Result := .next (setIr s 0xFF [false])

/-- JTAG_IDCODE (03 R81). -/
def execJtagIdcode (s : State) : Result := .next (setIr s 0x01 (wordBits 32 0x1C8A80B7))

/-- JTAG_SAMPLE_PRELOAD (03 R81; log 16). -/
def execJtagSamplePreload (s : State) : Result := .next (boundaryScan s 0x02)

/-- JTAG_EXTEST (03 R81; log 16). -/
def execJtagExtest (s : State) : Result := .next (boundaryScan s 0x03)

/-- JTAG_ROSELECT with the word shifted in (03 R80 to R82). -/
def execJtagRoselect (w : Nat) (s : State) : Result := .next (jtagRosel s (BitVec.ofNat 64 w))

/-- JTAG_RODATA (03 R80 to R82). -/
def execJtagRodata (s : State) : Result := .next (jtagRead s)

end Sys2Proof.Machine
end

