-- ==== Sys2Proof/Machine/TaskSteps.lean ====
section
/-! DEFINITION. Meanings of the task units' steps (rows 71 to 81 of spec/opcode_table.json). -/

namespace Sys2Proof.Machine

/-- CORE_WORK_ASK (04 R97, R98). -/
def execCoreWorkAsk (d c : Nat) (s : State) : Result := .next (onChip s fun x => coreWorkAsk x d c)
/-- CREW_BINDING_COMPLETE (04 R91). -/
def execCrewBindingComplete (d c task : Nat) (s : State) : Result := .next (onChip s fun x => bindingComplete x d c task)
/-- AGEING_RISE of a die's queues (04 R96). -/
def execAgeingRise (d : Nat) (s : State) : Result := .next (onChip s fun x => ageDie x d)
/-- CREW_SAVE (04 R101, 11 R286 to R288). -/
def execCrewSave (task : Nat) (s : State) : Result := .next (onChip s fun x => crewSave x task)
/-- WATCHDOG_FIRE: the core's counter has reached LIMIT (04 R107, 11 R296). -/
def execWatchdogFire (d c : Nat) (s : State) : Result :=
  .next (onChip s fun x =>
    if (x.core d c).wdLimit = 0 ∨ (x.core d c).wdCount < (x.core d c).wdLimit then x else fireWatchdog x d c)
/-- CHAIN_WALK (05 R121, R122). -/
def execChainWalk (d c x : Nat) (s : State) : Result := .next (onChip s fun y => chainWalk y d c x)
/-- ADOPTED_CREW_BIND (04 R98, 05 R125). -/
def execAdoptedCrewBind (d : Nat) (s : State) : Result := .next (onChip s fun x => adoptedCrewBind x d)
/-- CREW_MIGRATION (05 R125). -/
def execCrewMigration (d : Nat) (s : State) : Result := .next (onChip s fun x => crewMigration x d)
/-- NACK_RETRY_EXPIRY of a half (05 R128). -/
def execNackRetryExpiry (d c x h : Nat) (s : State) : Result := .next (onChip s fun y => nackRetry y ⟨d, c, x, h == 1⟩)
/-- END_NOTICE (05 R132, R133). -/
def execEndNotice (d slice task : Nat) (s : State) : Result := .next (onChip s fun x => endNotice x d slice task)
/-- NODE_FLUSH_TIMER (05 R115). -/
def execNodeFlushTimer (d slice p : Nat) (s : State) : Result := .next (onChip s fun x => nodeFlush x d slice p)

end Sys2Proof.Machine
end

