-- ==== Sys2Proof/Machine/Dispatch.lean ====
section
/-! DEFINITION. The meaning of each step of the part: one arm for each row of spec/opcode_table.json. -/

namespace Sys2Proof.Machine

/-- What a step does. -/
def exec (i : Instr) (s : State) : Host.Outcome State Fault Refusal :=
  match i with
  | .perstRelease => Sys2Proof.Machine.execPerstRelease s
  | .perstAssert => Sys2Proof.Machine.execPerstAssert s
  | .bootPhaseComplete o => Sys2Proof.Machine.execBootPhaseComplete o s
  | .frzRequest => Sys2Proof.Machine.execFrzRequest s
  | .thermalTrip => Sys2Proof.Machine.execThermalTrip s
  | .linkFlitCrcError d port => Sys2Proof.Machine.execLinkFlitCrcError d port s
  | .linkRetrainFailure d port => Sys2Proof.Machine.execLinkRetrainFailure d port s
  | .ethernetLinkUp p => Sys2Proof.Machine.execEthernetLinkUp p s
  | .ethernetLinkDown p => Sys2Proof.Machine.execEthernetLinkDown p s
  | .throttleStep tj dram watts => Sys2Proof.Machine.execThrottleStep tj dram watts s
  | .recordRefresh temps => Sys2Proof.Machine.execRecordRefresh temps s
  | .refresh k dram cost => Sys2Proof.Machine.execRefresh k dram cost s
  | .rowDisturbRefresh k w => Sys2Proof.Machine.execRowDisturbRefresh k w s
  | .patrolScrub k err cost => Sys2Proof.Machine.execPatrolScrub k err cost s
  | .spareRowRemap k bank row cost => Sys2Proof.Machine.execSpareRowRemap k bank row cost s
  | .interfaceCalibration k w => Sys2Proof.Machine.execInterfaceCalibration k w s
  | .gatheredBitsFlush => Sys2Proof.Machine.execGatheredBitsFlush s
  | .frameDropped f => Sys2Proof.Machine.execFrameDropped f s
  | .pfcFrame f => Sys2Proof.Machine.execPfcFrame f s
  | .mread f => Sys2Proof.Machine.execMread f s
  | .mwrite f => Sys2Proof.Machine.execMwrite f s
  | .mreplyReceived f => Sys2Proof.Machine.execMreplyReceived f s
  | .epochWrite v => Sys2Proof.Machine.execEpochWrite v s
  | .queueDisable q w => Sys2Proof.Machine.execQueueDisable q w s
  | .ringEnable n w => Sys2Proof.Machine.execRingEnable n w s
  | .ringDisable n w => Sys2Proof.Machine.execRingDisable n w s
  | .flashErase a => Sys2Proof.Machine.execFlashErase a s
  | .flashProgram a => Sys2Proof.Machine.execFlashProgram a s
  | .flashNoOp w => Sys2Proof.Machine.execFlashNoOp w s
  | .flashOpComplete => Sys2Proof.Machine.execFlashOpComplete s
  | .stagingBufferWrite bytes => Sys2Proof.Machine.execStagingBufferWrite bytes s
  | .adapterForceEvict d n => Sys2Proof.Machine.execAdapterForceEvict d n s
  | .jtagBypass => Sys2Proof.Machine.execJtagBypass s
  | .jtagIdcode => Sys2Proof.Machine.execJtagIdcode s
  | .jtagSamplePreload => Sys2Proof.Machine.execJtagSamplePreload s
  | .jtagExtest => Sys2Proof.Machine.execJtagExtest s
  | .jtagRoselect w => Sys2Proof.Machine.execJtagRoselect w s
  | .jtagRodata => Sys2Proof.Machine.execJtagRodata s
  | .vorbyCmd f => Sys2Proof.Machine.execVorbyCmd f s
  | .vorbyRead f => Sys2Proof.Machine.execVorbyRead f s
  | .vorbyWrite f => Sys2Proof.Machine.execVorbyWrite f s
  | .vorbyAtomic f => Sys2Proof.Machine.execVorbyAtomic f s
  | .vorbyReply f => Sys2Proof.Machine.execVorbyReply f s
  | .vorbyNack f => Sys2Proof.Machine.execVorbyNack f s
  | .vorbyEvent f => Sys2Proof.Machine.execVorbyEvent f s
  | .vorbyPcopy f => Sys2Proof.Machine.execVorbyPcopy f s
  | .vorbyPlpull f => Sys2Proof.Machine.execVorbyPlpull f s
  | .vorbyAck f => Sys2Proof.Machine.execVorbyAck f s
  | .ackTimer rank stream => Sys2Proof.Machine.execAckTimer rank stream s
  | .rtoExpiry rank stream psn => Sys2Proof.Machine.execRtoExpiry rank stream psn s
  | .cmdNop => Sys2Proof.Machine.execCmdNop s
  | .cmdRead => Sys2Proof.Machine.execCmdRead s
  | .cmdWrite => Sys2Proof.Machine.execCmdWrite s
  | .cmdLaunch => Sys2Proof.Machine.execCmdLaunch s
  | .cmdPreemptMode0 => Sys2Proof.Machine.execCmdPreemptMode0 s
  | .cmdPreemptMode1 => Sys2Proof.Machine.execCmdPreemptMode1 s
  | .cmdPreemptMode2 => Sys2Proof.Machine.execCmdPreemptMode2 s
  | .cmdPreemptMode3 => Sys2Proof.Machine.execCmdPreemptMode3 s
  | .cmdKill => Sys2Proof.Machine.execCmdKill s
  | .cmdTlbinv => Sys2Proof.Machine.execCmdTlbinv s
  | .cmdHarvest => Sys2Proof.Machine.execCmdHarvest s
  | .cmdPlace => Sys2Proof.Machine.execCmdPlace s
  | .cmdSignalFput => Sys2Proof.Machine.execCmdSignalFput s
  | .cmdSignalDcdec => Sys2Proof.Machine.execCmdSignalDcdec s
  | .cmdWaitevent => Sys2Proof.Machine.execCmdWaitevent s
  | .waiteventPoll q => Sys2Proof.Machine.execWaiteventPoll q s
  | .cmdAttest => Sys2Proof.Machine.execCmdAttest s
  | .cmdFwload => Sys2Proof.Machine.execCmdFwload s
  | .cmdFreeze => Sys2Proof.Machine.execCmdFreeze s
  | .completionRecordWrite slot => Sys2Proof.Machine.execCompletionRecordWrite slot s
  | .eventTimerExpiry n => Sys2Proof.Machine.execEventTimerExpiry n s
  | .coreWorkAsk d c => Sys2Proof.Machine.execCoreWorkAsk d c s
  | .crewBindingComplete d c task => Sys2Proof.Machine.execCrewBindingComplete d c task s
  | .ageingRise d => Sys2Proof.Machine.execAgeingRise d s
  | .crewSave task => Sys2Proof.Machine.execCrewSave task s
  | .watchdogFire d c => Sys2Proof.Machine.execWatchdogFire d c s
  | .chainWalk d c x => Sys2Proof.Machine.execChainWalk d c x s
  | .adoptedCrewBind d => Sys2Proof.Machine.execAdoptedCrewBind d s
  | .crewMigration d => Sys2Proof.Machine.execCrewMigration d s
  | .nackRetryExpiry d c x h => Sys2Proof.Machine.execNackRetryExpiry d c x h s
  | .endNotice d slice task => Sys2Proof.Machine.execEndNotice d slice task s
  | .nodeFlushTimer d slice p => Sys2Proof.Machine.execNodeFlushTimer d slice p s
  | .waitingAnswerArrival d c h => Sys2Proof.Machine.execWaitingAnswerArrival d c h s
  | .heldAnswerArrival d c h => Sys2Proof.Machine.execHeldAnswerArrival d c h s
  | .loadDataArrival d c x id errs => Sys2Proof.Machine.execLoadDataArrival d c x id errs s
  | .storePerform d c k errs => Sys2Proof.Machine.execStorePerform d c k errs s
  | .pageWalk d c asid va fetch => Sys2Proof.Machine.execPageWalk d c asid va fetch s
  | .asyncCompletion id => Sys2Proof.Machine.execAsyncCompletion id s
  | .asyncPoisonTrap d c x => Sys2Proof.Machine.execAsyncPoisonTrap d c x s
  | .arrayInstructionEnd d c k => Sys2Proof.Machine.execArrayInstructionEnd d c k s
  | .conversionStep d id => Sys2Proof.Machine.execConversionStep d id s
  | .bundleIssue d c h => Sys2Proof.Machine.execBundleIssue d c h s
  | .srseedWrite d c h => Sys2Proof.Machine.execSrseedWrite d c h s
  | .ptbaseWrite d c h => Sys2Proof.Machine.execPtbaseWrite d c h s
  | .defaultVectorWrite d c h => Sys2Proof.Machine.execDefaultVectorWrite d c h s
  | .wdogWrite d c h => Sys2Proof.Machine.execWdogWrite d c h s
  | .pfcPauseExpiry p prio => Sys2Proof.Machine.execPfcPauseExpiry p prio s
  | .claimedLineWrite id line => Sys2Proof.Machine.execClaimedLineWrite id line s

end Sys2Proof.Machine
end

