-- ==== Sys2Proof/Machine/Tick.lean ====
section
/-! DEFINITION. The core clock (01 R13): what a period that passes with no step does, and the record that is placed for the next
step (log 1). -/

namespace Sys2Proof.Machine

/-- The watchdog counter of a core at the end of a cycle (04 R107): 0 where a bundle retired or nothing is bound, one more in
any other cycle that is not throttled. -/
def watchdogTick (throttledCycle : Bool) (co : Core) : Core :=
  { co with wdCount := if co.retired || co.ctxs.isEmpty then 0 else if throttledCycle then co.wdCount else co.wdCount + 1
            retired := false, usedMain := false, usedSpare := false }

/-- The counters of the compute part at the end of a cycle. -/
def chipTick (throttledCycle running : Bool) (c : Chip) : Chip :=
  { c with now := c.now + 1, turns := [], active := if throttledCycle then c.active else c.active + 1
           cores := if running then c.cores.map fun (e : Nat × Core) => (e.1, watchdogTick throttledCycle e.2) else c.cores
           dies := if running then c.dies.map fun (e : Nat × Die) => (e.1, { e.2 with slotUsed := false }) else c.dies }

/-- The agenda a period later. -/
def waitDown : List Pending → List Pending
  | [] => []
  | p :: t => { p with wait := p.wait - 1 } :: t

/-- One core clock period: no clock runs while PERST_N is low, and the compute part's stops in the frozen state (03 R78). -/
def tick (s : State) : State :=
  let s1 := { s with agenda := waitDown s.agenda }
  match s.io.phase with
  | .reset => s1
  | .frozen => perstDue (pumpMac (s1.modIo fun i => { i with clock := i.clock + 1 }))
  | p =>
    settle (freezeDue (perstDue (pumpMac { (s1.modIo fun i => { i with clock := i.clock + 1 }) with
      chip := chipTick (throttled s) (p == .running) s.chip })))

/-- The agenda's next record, once its wait is over. -/
def dueRecord (s : State) : Option (List Byte × State) :=
  match s.agenda with
  | [] => none
  | p :: t => if p.wait = 0 then some (p.record, { s with agenda := t }) else none

/-- The state with a record placed as the next step. -/
def placeRecord (s : State) (b : List Byte) : State := { s with agenda := ⟨0, b⟩ :: s.agenda }

end Sys2Proof.Machine
end

