-- ==== Sys2Proof/Machine/Step.lean ====
section
/-! DEFINITION. One step of the machine (log 1): the agenda's next record runs, or a core clock period passes. -/

namespace Sys2Proof.Machine

/-- One step: nothing due is a core clock period; a record that is due leaves the agenda and runs. -/
def step (s : State) : Host.Outcome State Fault Refusal :=
  match dueRecord s with
  | none => .next (tick s)
  | some (b, t) =>
    match decode b with
    | .ok i => exec i t
    | .error e => .fault (.badRecord e)

/-- The state with the step whose bits are w placed as the next record of the agenda (log 1). -/
def State.withFetchWord (s : State) (nbits w : Nat) : State := placeRecord s (recordOfWord nbits w)

end Sys2Proof.Machine
end

