-- ==== Sys2Proof/Machine/BundleEncode.lean ====
section
/-! DEFINITION. The words of well-formed syllables, from the formats and opcode maps of 12 R302 to R310 and the encodings of
13 to 17: none for an instruction that has no word in its bundle. -/

namespace Sys2Proof.Machine
open Sys2Proof.Irnov

/-- Fields from the most significant down, each a width and a value that must fit. -/
def packFrom (acc : Nat) : List (Nat × Nat) → Option Nat
  | [] => some acc
  | (n, x) :: r => if x < 2 ^ n then packFrom (acc * 2 ^ n + x) r else none

def pack (fs : List (Nat × Nat)) : Option W32 := (packFrom 0 fs).map (BitVec.ofNat 32)

/-! ## Syllable formats (R305) -/

def fmtSA (op i d a b : Nat) : Option W32 := pack [(7, op), (1, i), (8, d), (8, a), (8, b)]
def fmtSC (op c neg disp : Nat) : Option W32 := pack [(7, op), (3, c), (1, neg), (21, disp)]
def fmtSG (q s f e j : Nat) : Option W32 := pack [(7, 0x46), (3, q), (1, s), (1, f), (10, e), (10, j)]
def fmtSW (v nm1 tab : Nat) : Option W32 := pack [(7, 0x47), (5, v), (8, nm1), (12, tab)]
def fmtSY (op s reg : Nat) : Option W32 := pack [(7, op), (8, s), (12, reg), (5, 0)]
def fmtVA (op k vd va vb ty mod : Nat) : Option W32 := pack [(7, op), (3, k), (5, vd), (5, va), (5, vb), (4, ty), (3, mod)]
def fmtMA (op acc hA tA hB tB mod : Nat) : Option W32 :=
  pack [(7, op), (6, acc), (3, hA), (4, tA), (3, hB), (4, tB), (5, mod)]
def fmtXA (op q dst src sel mod : Nat) : Option W32 := pack [(7, op), (3, q), (5, dst), (5, src), (8, sel), (4, mod)]
def fmtDA (op d base land hint x : Nat) : Option W32 := pack [(7, op), (8, d), (8, base), (6, land), (2, hint), (1, x)]
/-- DS, and DM with val in the place of mod. -/
def fmtDS (op d base mod x : Nat) : Option W32 := pack [(7, op), (8, d), (8, base), (8, mod), (1, x)]
def fmtDT (op sync t h base mod x : Nat) : Option W32 :=
  pack [(7, op), (5, sync), (4, t), (3, h), (8, base), (4, mod), (1, x)]

/-! ## Operand codes (R300 to R303) -/

def bit (b : Bool) : Nat := if b then 1 else 0

/-- The syllable that holds a literal of this value. -/
def litSyllable (b : Bundle) (v : W32) : Option Nat := [1, 2, 3, 4, 5, 6, 7].find? fun n => b.litAt n == some v

def DecEnv.codeOf (env : DecEnv) : Src → Option Nat
  | .reg n => env.sreg n
  | .lit v => (litSyllable env.bundle v).map (240 + ·)
  | .imm _ => none

/-- I and b of an integer instruction. -/
def DecEnv.codeB (env : DecEnv) : Src → Option (Nat × Nat)
  | .imm v => must ((v.setWidth 8).signExtend 64 == v) (1, (v.setWidth 8).toNat)
  | s => (env.codeOf s).map fun c => (0, c)

def vregCode (n : Nat) : Option Nat := must (decide (n < 32)) (192 + n)

/-- X for a displacement: 0 needs no literal. -/
def DecEnv.xOf (env : DecEnv) (disp : W64) : Option Nat :=
  if disp = 0 then some 0 else must (env.bundle.litLowest.map (·.signExtend 64) == some disp) 1

def DecEnv.baseCode (env : DecEnv) : Base → Option Nat
  | .scalar s => env.codeOf s
  | .pair n => must (n % 2 == 0 && decide (n < 32)) (192 + n)

def scalarBase : Base → Bool
  | .scalar _ => true
  | .pair _ => false

def regBase : Base → Bool
  | .scalar (.reg _) => true
  | _ => false

def tyCode : Ty → Nat
  | .ui8 => 0 | .ui16 => 1 | .ui32 => 2 | .ui64 => 3 | .si8 => 4 | .si16 => 5 | .si32 => 6 | .si64 => 7
  | .f64 => 8 | .f32 => 9 | .f16 => 10 | .bf16 => 11 | .e4m3 => 12 | .e5m2 => 13 | .bp => 14

/-! ## S class -/

def aluCode : AluOp → Nat
  | .add => 0x01 | .sub => 0x02 | .mul => 0x03 | .mulh => 0x04 | .mulhu => 0x05 | .div => 0x06 | .divu => 0x07
  | .rem => 0x08 | .remu => 0x09 | .and => 0x0A | .or => 0x0B | .xor => 0x0C | .andn => 0x0D | .orn => 0x0E
  | .shl => 0x0F | .shr => 0x10 | .sra => 0x11 | .rot => 0x12 | .min => 0x13 | .max => 0x14 | .minu => 0x15
  | .maxu => 0x16 | .sext => 0x1B | .zext => 0x1C | .bfx => 0x1D | .bfi => 0x1E | .lea => 0x1F | .ldi => 0x28

def unCode : UnOp → Nat
  | .clz => 0x17 | .ctz => 0x18 | .popc => 0x19 | .brev => 0x1A | .mov => 0x27

def icmpCode : ICmp → Nat
  | .eq => 0x21 | .ne => 0x22 | .lt => 0x23 | .ltu => 0x24 | .ge => 0x25 | .geu => 0x26

def fopCode : FOp → Nat
  | .add => 0x30 | .sub => 0x31 | .mul => 0x32 | .fma => 0x33 | .min => 0x34 | .max => 0x35

def fcmpCode : FCmp → Nat
  | .eq => 0x36 | .lt => 0x37 | .le => 0x38

def qopCode : QOp → Nat
  | .and => 0x61 | .or => 0x62 | .xor => 0x63

/-- disp of SC: a two's-complement bundle count of 21 bits. -/
def dispSC (n : Int) : Option Nat := must (decide (-1048576 ≤ n) && decide (n < 1048576)) (n % 2097152).toNat

/-- A count's field: 1 to 1,023 has one, every count may be in a literal. -/
def countFields (n : Nat) : List Nat := if n < 1024 then [n, 0] else [0]

/-- The fields of a pair of counts: those without literals first. -/
def sgFields (b : Bundle) (elseN joinN : Nat) : Option (Nat × Nat) :=
  ((countFields elseN).flatMap fun e => (countFields joinN).map fun j => (e, j)).find? fun p =>
    sgCounts b p.1 p.2 == some (elseN, joinN)

def fcvtOk (dst src : Ty) : Bool := tyAny src && tyAny dst && src != dst && !(tyInt src && tyInt dst)

def reg8 (n : Nat) : Option Nat := must (decide (n < 8)) n

def encS (env : DecEnv) : SIns → Option W32
  | .snop => fmtSA 0x00 0 0 0 0
  | .alu op d a b => do
    let d ← env.sreg d
    let a ← env.codeOf a
    let (i, b) ← env.codeB b
    fmtSA (aluCode op) i d a b
  | .un op d a => do
    let d ← env.sreg d
    let a ← env.codeOf a
    fmtSA (unCode op) 0 d a 0
  | .sel d a c inv => do
    let d ← env.sreg d
    let a ← env.codeOf a
    let c ← reg8 c
    fmtSA 0x20 0 d a (bit inv * 8 + c)
  | .cmp op c a b => do
    let c ← reg8 c
    let a ← env.codeOf a
    let (i, b) ← env.codeB b
    fmtSA (icmpCode op) i c a b
  | .farith op single d a b => do
    let d ← env.sreg d
    let a ← env.codeOf a
    let b ← env.codeOf b
    fmtSA (fopCode op) (bit single) d a b
  | .fcmp op single c a b => do
    let c ← reg8 c
    let a ← env.codeOf a
    let b ← env.codeOf b
    fmtSA (fcmpCode op) (bit single) c a b
  | .fcvt sr dst src d a => do
    let d ← env.sreg d
    let a ← env.codeOf a
    let b ← must (fcvtOk dst src) (tyCode src * 16 + tyCode dst)
    fmtSA 0x39 (bit sr) d a b
  | .fclass single d a => do
    let d ← env.sreg d
    let a ← env.codeOf a
    fmtSA 0x3A (bit single) d a 0
  | .br c neg disp => do
    let n ← dispSC disp
    fmtSC 0x40 c (bit neg) n
  | .jmp disp => do
    let n ← dispSC disp
    fmtSC 0x41 0 0 n
  | .call disp => do
    let n ← dispSC disp
    fmtSC 0x42 0 0 n
  | .ret => fmtSA 0x43 0 0 0 0
  | .jr d a => do
    let d ← env.sreg d
    let a ← env.codeOf a
    fmtSA 0x44 0 d a 0
  | .loop n disp => do
    let c ← must (decide (144 ≤ n)) (n - 144)
    let disp ← dispSC disp
    fmtSC 0x45 c 0 disp
  | .divg q inv split elseN joinN => do
    let (e, j) ← sgFields env.bundle elseN joinN
    fmtSG q (bit split) (bit inv) e j
  | .dswitch v n tab joinN => do
    let nm1 ← must (decide (1 ≤ n) && decide (tab ≠ 0) && litCount env.bundle.litHighest == some joinN) (n - 1)
    fmtSW v nm1 tab
  | .endp => fmtSA 0x48 0 0 0 0
  | .ekill q => do
    let q ← reg8 q
    fmtSA 0x49 0 0 q 0
  | .wait clear all m => do
    let (i, b) ← env.codeB m
    fmtSA 0x4A i (bit all * 2 + bit clear) 0 b
  | .exit => fmtSA 0x4B 0 0 0 0
  | .trap m => do
    let (i, b) ← env.codeB m
    fmtSA 0x4C i 0 0 b
  | .resume m => do
    let (i, b) ← env.codeB m
    fmtSA 0x4D i 0 0 b
  | .sysr d reg => do
    let d ← env.sreg d
    let r ← must (sysListed reg) reg
    fmtSY 0x4E d r
  | .sysw reg a => do
    let a ← env.codeOf a
    let r ← must (sysListed reg) reg
    fmtSY 0x4F a r
  | .ifence => fmtSA 0x50 0 0 0 0
  | .bkpt => fmtSA 0x51 0 0 0 0
  | .qset q b => do
    let q ← reg8 q
    let (i, b) ← env.codeB b
    fmtSA 0x60 i q 0 b
  | .qlog op q a b => do
    let q ← reg8 q
    let a ← reg8 a
    let b ← reg8 b
    fmtSA (qopCode op) 0 q a b
  | .qnot q a => do
    let q ← reg8 q
    let a ← reg8 a
    fmtSA 0x64 0 q a 0
  | .qk all q k => do
    let q ← reg8 q
    let k ← reg8 k
    fmtSA (0x65 + bit all) 0 q k 0
  | .qpopc d q => do
    let d ← env.sreg d
    let q ← reg8 q
    fmtSA 0x67 0 d q 0
  | .qfirst d q => do
    let d ← env.sreg d
    let q ← reg8 q
    fmtSA 0x68 0 d q 0
  | .qmov d q => do
    let d ← env.sreg d
    let q ← reg8 q
    fmtSA 0x69 0 d q 0

/-! ## V class -/

def vbinCode : VBin → Nat
  | .add => 0x00 | .sub => 0x01 | .mul => 0x02 | .fma => 0x03 | .fms => 0x04 | .min => 0x05 | .max => 0x06
  | .and => 0x09 | .or => 0x0A | .xor => 0x0B | .shl => 0x0D | .shr => 0x0E | .sra => 0x0F | .extr => 0x14

/-- The types that an operation on two sources accepts (14 R349, R354). -/
def vbinTy (op : VBin) (t : Ty) : Bool :=
  match op with
  | .add | .sub | .mul | .fma | .fms | .min | .max => tyFI t
  | .and | .or | .xor => tyAny t
  | .shl | .shr | .sra | .extr => tyInt t

/-- The types that accept its modifier. -/
def vbinFlag (op : VBin) (t : Ty) : Bool :=
  match op with
  | .add | .sub | .mul => tyInt t
  | _ => false

def vunCode : VUn → Nat
  | .abs => 0x07 | .neg => 0x08 | .not => 0x0C | .mov => 0x12 | .rcp => 0x16 | .rsq => 0x17 | .sqrt => 0x18
  | .exp2 => 0x19 | .log2 => 0x1A | .clz => 0x1B | .popc => 0x1C

def vunTy (op : VUn) (t : Ty) : Bool :=
  match op with
  | .abs | .neg => tyFI t
  | .not | .mov => tyAny t
  | .rcp | .rsq | .exp2 | .log2 => tyApprox t
  | .sqrt => tyClassF t
  | .clz | .popc => tyInt t

def vunFlag (op : VUn) (t : Ty) : Bool :=
  match op with
  | .abs | .neg => tyInt t
  | _ => false

def ccCode : VCc → Nat
  | .eq => 0 | .ne => 1 | .lt => 2 | .le => 3 | .gt => 4 | .ge => 5 | .un => 6

def voteCode : VoteMode → Nat
  | .any => 0 | .all => 1 | .eq => 2 | .cnt => 3 | .pre => 4

def qopV : QOp → Nat
  | .and => 0x23 | .or => 0x24 | .xor => 0x25

def vcvtOk (dst src : Ty) (sat sr : Bool) : Bool :=
  tyAny dst && tyAny src && dst != src && !(sr && tyInt dst && tyInt src) && !(sat && !tyInt src && tyInt dst)

/-- mod and vb of VRED and VSCAN (14 R358). -/
def redFields (scan : Bool) (op : RedOp) (t : Ty) (vd : Nat) : Option Nat → Option (Nat × Nat)
  | none => match op with
    | .sum => must (tyFI t) (0, 0)
    | .min => must (tyFI t) (1, 0)
    | .max => must (tyFI t) (2, 0)
    | .and => must (tyInt t) (5, 0)
    | .or => must (tyInt t) (6, 0)
    | .xor => must (tyInt t) (7, 0)
  | some vi => match op with
    | .min => must (tyFI t && !scan && vi != vd) (3, vi)
    | .max => must (tyFI t && !scan && vi != vd) (4, vi)
    | _ => none

def encV (env : DecEnv) : VIns → Option W32
  | .bin op flag t k vd va vb => do
    let m ← must (vbinTy op t && (!flag || vbinFlag op t)) (bit flag)
    fmtVA (vbinCode op) k vd va vb (tyCode t) m
  | .un op flag t k vd va => do
    let m ← must (vunTy op t && (!flag || vunFlag op t)) (bit flag)
    fmtVA (vunCode op) k vd va 0 (tyCode t) m
  | .cmp cc t k kd va vb => do
    let kd ← reg8 kd
    let m ← must (tyFI t && (cc != .un || tyClassF t)) (ccCode cc)
    fmtVA 0x10 k kd va vb (tyCode t) m
  | .sel t k vd va vb => do
    let m ← must (tyAny t) 0
    fmtVA 0x11 k vd va vb (tyCode t) m
  | .bcast t k vd x => do
    let c ← env.codeOf x
    let m ← must (tyAny t) 0
    fmtVA 0x13 k vd (c / 8) (c % 8 * 4) (tyCode t) m
  | .cvt dst src sat sr k vd va => do
    let m ← must (vcvtOk dst src sat sr) (bit sr * 2 + bit sat)
    fmtVA 0x15 k vd va (tyCode src) (tyCode dst) m
  | .iota abs t k vd => do
    let m ← must (tyInt t) (bit abs)
    fmtVA 0x1D k vd 0 0 (tyCode t) m
  | .shuf t k vd va vb => do
    let m ← must (tyAny t) 0
    fmtVA 0x1E k vd va vb (tyCode t) m
  | .red scan op t k vd va vi => do
    let (m, vb) ← redFields scan op t vd vi
    fmtVA (0x1F + bit scan) k vd va vb (tyCode t) m
  | .vote m k vd ka => do
    let ka ← reg8 ka
    let m ← must (m == .cnt || m == .pre || decide (vd < 8)) (voteCode m)
    fmtVA 0x21 k vd ka 0 2 m
  | .topk t k vd vi va log2K => do
    let m ← must (tyFI t && vi != vd) log2K
    fmtVA 0x22 k vd va vi (tyCode t) m
  | .klog op k kd ka kb => do
    let kd ← reg8 kd
    let ka ← reg8 ka
    let kb ← reg8 kb
    fmtVA (qopV op) k kd ka kb 0 0
  | .knot k kd ka => do
    let kd ← reg8 kd
    let ka ← reg8 ka
    fmtVA 0x26 k kd ka 0 0 0

/-! ## M class -/

def mulCode : MulOp → Nat
  | .mma => 0x00 | .mmas => 0x01 | .lrma => 0x02

def ewCode : EwOp → Nat
  | .add => 0 | .sub => 1 | .mul => 2 | .min => 3 | .max => 4

/-- mod of ACALLOC, ACFREE and ACOWN for a legal bank set (15 R386). -/
def bankMod (col : Bool) (a n : Nat) : Option Nat :=
  must (decide (1 ≤ n) && (if col then decide (n ≤ 4) else decide (n ≤ 16) && decide (a + n ≤ 64))) (bit col * 16 + (n - 1))

def encM (env : DecEnv) : MIns → Option W32
  | .mul op acc a b hA tA hB tB => fmtMA (mulCode op) a hA tA hB tB (b * 4 + bit acc)
  | .quant sr tA hA tB hB => fmtMA 0x03 0 hA tA hB tB (bit sr)
  | .deq tA hA tB hB => fmtMA 0x04 0 hA tA hB tB 0
  | .cvt sat sr tA hA tB hB => fmtMA 0x05 0 hA tA hB tB (bit sr * 2 + bit sat)
  | .trans tA hA tB hB => fmtMA 0x06 0 hA tA hB tB 0
  | .zero tA hA => fmtMA 0x07 0 hA tA 0 0 0
  | .ew op brow tA hA tB hB => fmtMA 0x08 0 hA tA hB tB (bit brow * 8 + ewCode op)
  | .aczero a b hA => fmtMA 0x09 a hA 0 0 0 (b * 4)
  | .acdrain sat sr a b tA hA => fmtMA 0x0A a hA tA 0 0 (b * 4 + bit sr * 2 + bit sat)
  | .acload a b tA hA => fmtMA 0x0B a hA tA 0 0 (b * 4)
  | .acalloc col a n c => do
    let m ← bankMod col a n
    fmtMA 0x0C a c 0 0 0 m
  | .acfree col a n => do
    let m ← bankMod col a n
    fmtMA 0x0D a 0 0 0 0 m
  | .acown col a n b cnt m => do
    let x ← bankMod col a n
    let h ← must (decide (1 ≤ cnt) && decide (b + cnt ≤ 8) && decide (m < env.nt)) (cnt - 1)
    fmtMA 0x0E a b (m / 8) h (m % 8) x
  | .shsetH h v => do
    let v ← must (decide (v < 32)) v
    fmtMA 0x0F v h 0 0 0 0
  | .shsetT t v => do
    let v ← must (decide (v < 32)) (32 + v)
    fmtMA 0x0F v 0 t 0 0 0
  | .shgetH v h => do
    let v ← must (decide (v < 32)) v
    fmtMA 0x10 v h 0 0 0 0
  | .shgetT v t => do
    let v ← must (decide (v < 32)) (32 + v)
    fmtMA 0x10 v 0 t 0 0 0
  | .fmtset x => do
    let m ← must (decide (x.toNat / 2 ^ 16 % 4 = 0)) x.toNat
    pack [(7, 0x11), (25, m)]

/-! ## X class -/

def redCode : RedOp → Nat
  | .sum => 0 | .min => 1 | .max => 2 | .and => 3 | .or => 4 | .xor => 5

def encX : XIns → Option W32
  | .gshuf rot p q dst src => do
    let p ← must (decide (p < 16)) p
    fmtXA 0x00 q dst src (bit rot * 16 + p) 0
  | .gbcast m q dst src => do
    let m ← must (decide (m < 16)) m
    fmtXA 0x01 q dst src m 0
  | .gred op t q dst src => do
    let m ← must (redTyOk op t) (tyCode t)
    fmtXA 0x02 q dst src (redCode op) m
  | .gallg p q dst src => do
    let p ← must (decide (p < 16)) p
    fmtXA 0x03 q dst src p 0
  | .gvshuf wide vi q dst src => do
    let vi ← must (decide (vi < 32)) vi
    fmtXA 0x04 q dst src vi (bit wide)
  | .gvred op t q dst src => do
    let m ← must (redTyOk op t) (tyCode t)
    fmtXA 0x05 q dst src (redCode op) m

/-! ## D class -/

def scopeCode : Scope → Nat
  | .gang => 0 | .die => 1 | .pkg => 2 | .sys => 3

def fenceCode : FenceKind → Nat
  | .acq => 1 | .rel => 2 | .ar => 3

def atCode : AtOp → Nat
  | .add => 0x20 | .min => 0x24 | .max => 0x28 | .and => 0x2C | .or => 0x30 | .xor => 0x34 | .xchg => 0x38
  | .fadd => 0x3C | .cas => 0x40

def ldCode : Nat → Bool → Option Nat
  | 1, false => some 0x00 | 2, false => some 0x01 | 4, false => some 0x02 | 8, false => some 0x03
  | 1, true => some 0x04 | 2, true => some 0x05 | 4, true => some 0x06
  | _, _ => none

def stCode : Nat → Option Nat
  | 1 => some 0x07 | 2 => some 0x08 | 4 => some 0x09 | 8 => some 0x0A
  | _ => none

def vldCode : Spread → Nat
  | .unit => 0x0B | .same => 0x0C | .indexed => 0x0D

def vstCode : Spread → Nat
  | .unit => 0x0E | .same => 0x0F | .indexed => 0x10

/-- sync and mod[3] of a DT syllable (16 R399). -/
def DecEnv.syncCode (env : DecEnv) : Sync → Option (Nat × Nat)
  | .flag n => some (n, 0)
  | .barrier n => must (decide (n < env.nbar)) (n, 1)

def DecEnv.dstCode : Dst → Option Nat
  | .none => some 0
  | .v n => vregCode n
  | .s _ => none

def DecEnv.vsrcCode (env : DecEnv) : VSrc → Option Nat
  | .vec n => vregCode n
  | .all s => env.codeOf s

/-- Base code and X of an address whose base has the form asked for. -/
def DecEnv.addrCode (env : DecEnv) (ok : Base → Bool) (a : Addr) : Option (Nat × Nat) := do
  let b ← env.baseCode a.base
  let x ← env.xOf a.disp
  must (ok a.base) (b, x)

/-- A DM syllable on a memory object, with the operand code of its value. -/
def encObj (env : DecEnv) (op d : Nat) (a : Addr) (v : Nat) : Option W32 := do
  let d ← env.sreg d
  let (b, x) ← env.addrCode regBase a
  fmtDS op d b v x

def encObjV (env : DecEnv) (op d : Nat) (a : Addr) (v : Src) : Option W32 := do
  let v ← env.codeOf v
  encObj env op d a v

def encPop (env : DecEnv) (op d c : Nat) (a : Addr) (f : Nat) : Option W32 := do
  let c ← reg8 c
  let v ← must (decide (f < 32)) (c * 32 + f)
  encObj env op d a v

def encBar (env : DecEnv) (op d b : Nat) (v : Src) : Option W32 := do
  let d ← env.sreg d
  let v ← env.codeOf v
  let b ← must (decide (b < env.nbar) && decide (b < 32)) b
  fmtDS op d b v 0

def encTab (env : DecEnv) (op d : Nat) (v : Src) : Option W32 := do
  let d ← env.sreg d
  let v ← env.codeOf v
  fmtDS op d 0 v 0

def encDesc (env : DecEnv) (op : Nat) (sy : Sync) (v : Nat) : Option W32 := do
  let (n, m) ← env.syncCode sy
  let v ← vregCode v
  fmtDT op n 0 0 v (m * 8) 0

def encD (env : DecEnv) : DIns → Option W32
  | .ld bytes signed d a f hint => do
    let op ← ldCode bytes signed
    let d ← env.sreg d
    let (b, x) ← env.addrCode scalarBase a
    fmtDA op d b f hint x
  | .vld sp d a f hint => do
    let d ← vregCode d
    let (b, x) ← env.addrCode (fun b => scalarBase b == (sp != .indexed)) a
    fmtDA (vldCode sp) d b f hint x
  | .st bytes data a => do
    let op ← stCode bytes
    let d ← env.codeOf data
    let (b, x) ← env.addrCode scalarBase a
    fmtDS op d b 0 x
  | .vst sp d k a => do
    let d ← vregCode d
    let (b, x) ← env.addrCode (fun b => scalarBase b == (sp != .indexed)) a
    let k ← reg8 k
    fmtDS (vstCode sp) d b k x
  | .pref a hint => do
    let (b, x) ← env.addrCode scalarBase a
    fmtDA 0x18 0 b 0 hint x
  | .tile store sy t h g a => do
    let (n, m) ← env.syncCode sy
    let (b, x) ← env.addrCode (fun _ => true) a
    let g ← reg8 g
    fmtDT (0x11 + bit store) n t h b (m * 8 + g) x
  | .ptile store bar t h g a => do
    let (n, m) ← env.syncCode (.barrier bar)
    let (b, x) ← env.addrCode (fun _ => true) a
    let g ← reg8 g
    fmtDT (0x13 + bit store) n t h b (m * 8 + g) x
  | .tcopy bar v => encDesc env 0x15 (.barrier bar) v
  | .tmcast sy v => encDesc env 0x16 sy v
  | .tperm sy v => encDesc env 0x17 sy v
  | .fence k sc => fmtDS 0x19 0 0 (fenceCode k * 4 + scopeCode sc) 0
  | .drain sc => fmtDS 0x1A 0 0 (scopeCode sc) 0
  | .at op sc d a o => do
    let d ← env.sreg d
    let (b, x) ← env.addrCode scalarBase a
    let o ← env.codeOf o
    fmtDS (atCode op + scopeCode sc) d b o x
  | .vat op sc d a o => do
    let d ← DecEnv.dstCode d
    let (b, x) ← env.addrCode (fun b => !scalarBase b) a
    let o ← env.vsrcCode o
    fmtDS (atCode op + scopeCode sc) d b o x
  | .fget d c a f => encPop env 0x50 d c a f
  | .fput d a v => encObjV env 0x51 d a v
  | .fpoll d a f => do
    let _ ← env.sreg (d + 1)
    let f ← must (d % 2 == 0 && decide (2 ≤ d) && decide (d ≤ 158) && decide (f < 64)) f
    encObj env 0x52 d a f
  | .lock d a => encObj env 0x53 d a 0
  | .trylock d a => encObj env 0x54 d a 0
  | .unlock d a => encObj env 0x55 d a 0
  | .qpush d a v => encObjV env 0x56 d a v
  | .qpop d c a f => encPop env 0x57 d c a f
  | .qresv d a => encObj env 0x58 d a 0
  | .barinit d b v => encBar env 0x59 d b v
  | .bararr d b v => encBar env 0x5A d b v
  | .barexp d b v => encBar env 0x5B d b v
  | .dcset d a v => encObjV env 0x5C d a v
  | .dcdec d a => encObj env 0x5D d a 0
  | .spawn d a => encObj env 0x5E d a 0
  | .plset d a v => encObjV env 0x5F d a v
  | .plget d a v => encObjV env 0x60 d a v
  | .adpin d v => encTab env 0x61 d v
  | .adunpin d v => encTab env 0x62 d v
  | .harvest d => do
    let d ← env.sreg d
    fmtDS 0x63 d 0 0 0

/-! ## The bundle -/

/-- The word of an instruction in syllable n of a bundle. -/
def encodeSlot (env : DecEnv) (n : Nat) : Ins → Option W32
  | .s i => do
    let w ← encS env i
    must (decide (n = 2) || (decide (n = 1) && !s1Only (opcode w))) w
  | .v i => do
    let w ← encV env i
    must (decide (n = 3) || decide (n = 4)) w
  | .m i => do
    let w ← encM env i
    must (decide (n = 5)) w
  | .x i => do
    let w ← encX i
    must (decide (n = 6)) w
  | .d i => do
    let w ← encD env i
    must (decide (n = 7)) w

end Sys2Proof.Machine
end

