-- ==== Sys2Proof/Safety.lean ====
section
/-! DEFINITION. What a safe run is, and the invariants of the part that the spec's prose gives (01 R16, R29, 03 R71 to R82): the terms
of the statements. -/

namespace Sys2Proof.Machine

/-- Every record of the agenda is a step: no step of such a machine can stop it. -/
def State.Safe (s : State) : Prop := ∀ p ∈ s.agenda, ∃ i, decode p.record = .ok i

/-- An operation of the recovery state in progress is on its flash device and aligned (03 R74). -/
def FlashOp.Ok : FlashOp → Prop
  | .erase a => a % 0x10000 = 0 ∧ a < flashBytes
  | .program a => a % 0x400 = 0 ∧ a < flashBytes

/-- The I/O die: DUTY within 4 and 16 (01 R16), PLIM within its range (01 R29), flash and staging buffer in canonical form and
within their sizes (03 R70, R74), FAIL a failure of R75, a flash operation only in recovery or frozen out of it, a frozen part with
its triggers and their cause, and triggers registered (03 R77), ROSEL zero in its reserved bits (03 R80) and, under RDLOCK, altogether (03 R82). -/
structure Io.Inv (i : Io) : Prop where
  duty : 4 ≤ i.duty ∧ i.duty ≤ 16
  plim : 1200 ≤ i.plim ∧ i.plim ≤ 2200
  flash : i.flash.wf flashDflt = true ∧ ∀ e ∈ i.flash, e.1 < flashBytes
  staging : i.staging.wf 0 = true ∧ ∀ e ∈ i.staging, e.1 < 1024
  fail : i.fail ≤ 6 ∧ (i.phase = .recovery → i.fail = 1 ∨ i.fail = 2 ∨ i.fail = 3)
  op : ∀ o, i.flOp = some o → o.Ok ∧ (i.phase = .recovery ∨ i.phase = .frozen)
  frozen : i.phase = .frozen → i.frzSeen ≠ 0 ∧ i.frzCause = freezeCause i.frzSeen
  pend : ∀ p, i.frzPend = some p → p.2 ≠ 0
  rosel : i.rosel &&& 0xFFFF = 0 ∧ (i.rdlock = true → i.rosel = 0)

/-- The invariant of the machine. -/
def State.Inv (s : State) : Prop := s.io.Inv

/-- Rows that act only while the part runs (phase 4): background work on cores and memory, Vorby messages and their timers, commands,
task units, cores (03 R78). -/
def needsRunning : Instr → Bool
  | .gatheredBitsFlush | .vorbyCmd _ | .vorbyRead _ | .vorbyWrite _ | .vorbyAtomic _ | .vorbyReply _ | .vorbyNack _
  | .vorbyEvent _ | .vorbyPcopy _ | .vorbyPlpull _ | .vorbyAck _ | .ackTimer _ _ | .rtoExpiry _ _ _ | .cmdNop | .cmdRead
  | .cmdWrite | .cmdLaunch | .cmdPreemptMode0 | .cmdPreemptMode1 | .cmdPreemptMode2 | .cmdPreemptMode3 | .cmdKill
  | .cmdTlbinv | .cmdHarvest | .cmdPlace | .cmdSignalFput | .cmdSignalDcdec | .cmdWaitevent | .waiteventPoll _
  | .cmdAttest | .cmdFwload | .cmdFreeze | .completionRecordWrite _ | .eventTimerExpiry _ | .coreWorkAsk _ _
  | .crewBindingComplete _ _ _ | .ageingRise _ | .crewSave _ | .watchdogFire _ _ | .chainWalk _ _ _ | .adoptedCrewBind _
  | .crewMigration _ | .nackRetryExpiry _ _ _ _ | .endNotice _ _ _ | .nodeFlushTimer _ _ _ | .waitingAnswerArrival _ _ _
  | .heldAnswerArrival _ _ _ | .loadDataArrival _ _ _ _ _ | .storePerform _ _ _ _ | .pageWalk _ _ _ _ _
  | .asyncCompletion _ | .asyncPoisonTrap _ _ _ | .arrayInstructionEnd _ _ _ | .conversionStep _ _ | .bundleIssue _ _ _
  | .srseedWrite _ _ _ | .ptbaseWrite _ _ _ | .defaultVectorWrite _ _ _ | .wdogWrite _ _ _ | .claimedLineWrite _ _ => true
  | _ => false

/-- A bundle that holds one syllable. -/
def wordBundle (n : Nat) (w : W32) : Bundle := ⟨(Vector.replicate 8 0).setIfInBounds n w⟩

/-- The slot of a bundle with one syllable, decoded for a crew with every register, barrier and member (12 R299, R314). -/
def decodeWord (n : Nat) (w : W32) : Except DecCause Irnov.Ins := decodeSlot ⟨wordBundle n w, 160, 32, 128⟩ n

/-- The I/O die when a trigger freezes the part at the reference edge that registers it (03 R77). -/
def Io.frozenBy (i : Io) (seen : BitVec 4) (cause : Nat) : Io :=
  { i with phase := .frozen, frzSeen := seen, frzCause := cause, frzTime := BitVec.ofNat 64 (10 * i.refEdge), frzEdge := i.refEdge }

/-- The next step of a machine is the fall of PERST_N. -/
def State.perstFalls (s : State) : Prop := ∃ p r, s.agenda = p :: r ∧ p.wait = 0 ∧ decode p.record = .ok .perstAssert

/-- No record is due: a core clock period passes. -/
def State.idle (s : State) : Prop := ∀ p t, s.agenda = p :: t → p.wait ≠ 0

/-- t is the part that PERST_N's fall makes of s: fuses, flash, MAC addresses and the stacks' one-time remap maps stand, everything
else is as before boot (01 R19, R24); the counter of free values goes on (log 2). -/
structure State.ResetTo (s t : State) : Prop where
  phase : t.io.phase = .reset
  chip : t.chip = { Chip.init with fresh := s.chip.fresh }
  net : t.net = .init s.net.port0.mac s.net.port1.mac
  flash : t.io.flash = s.io.flash
  fuses : t.io.fuseRoot = s.io.fuseRoot ∧ t.io.fuseSvn = s.io.fuseSvn ∧ t.io.rdlock = s.io.rdlock ∧ t.io.serial = s.io.serial
  boot : t.io.fail = 0 ∧ t.io.slots = 0 ∧ t.io.staging = []
  power : t.io.plim = 2200 ∧ t.io.duty = 16 ∧ t.io.thermTrip = false
  freeze : t.io.frzSeen = 0 ∧ t.io.frzPend = none ∧ t.io.perstAt = none
  links : ∀ a, t.io.links.getD a 0 = 0
  remaps : ∀ k, k < 16 → t.io.stack k = { Stack.init with otpUsed := (s.io.stack k).otpUsed, spareUsed := (s.io.stack k).spareUsed }

/-! ## Frames and commands of the statements -/

/-- A stack with background work of some bank-cycles done, and a delay that it added to an access (01 R20). -/
def Stack.worked (t : Stack) (clock cost delay : Nat) : Stack :=
  { t with bgCycles := t.bgCycles + cost, bgMaxDelay := max t.bgMaxDelay delay
           recent := t.recent.filter (fun (e : Nat × Nat) => decide (clock < e.1 + 2 ^ 24)) ++ [(clock, cost)] }

/-- A frame carries a Vorby message that the part accepts in sequence: it passes the checks of 02 R31, R36, R38 and R41, its PSN is
the stream's ACKPSN, nothing waits before it, it carries no acknowledgement, none falls due with it, and the port sends no PFC. -/
structure InSequence (s : State) (f : RxFrame) (e : Eth) (h : Hdr) (addr : W64) (payload : List Byte) : Prop where
  running : s.io.phase = .running
  mac : macDrop s f = .ok e
  etype : e.etype = 0x88B5
  parsed : vorbyOf e = some (h, addr, payload)
  mtype : h.mtype ≤ 8
  group : h.group = s.net.port0.group
  rank : h.drank = s.net.port0.rank
  epoch : s.net.seen.find? h.srank = some h.epoch
  psn : h.psn = (rxStream s h).ackPsn
  held : (rxStream s h).held = []
  few : (rxStream s h).unacked < 7
  alone : s.net.rxWait = []
  noack : h.ackv = false
  nopfc : (s.net.port f.port).pfcEn = 0

/-- The message that such a frame carries. -/
def messageOf (f : RxFrame) (e : Eth) (h : Hdr) (addr : W64) (payload : List Byte) : Msg :=
  { port := f.port, prio := e.prio, size := e.size, mtype := h.mtype, ord := h.ord, srank := h.srank, stream := h.stream, psn := h.psn
    msgid := h.msgid, tspec := h.tspec, addr := addr, payload := payload }

/-- The part once it has accepted a frame in sequence, before its message has done anything: the frame is counted, and its stream is
one PSN and one acknowledgement further on (02 R38, R53). -/
def State.took (s : State) (f : RxFrame) (h : Hdr) : State :=
  let r := rxStream s h
  let n := s.net.count f.port fun c => { c with rxFrames := bump c.rxFrames }
  { s with net := { n with
      nextRx := s.net.nextRx + 1
      rx := s.net.rx.put (streamKey h.srank h.stream)
        { ackPsn := (r.ackPsn + 1) % 2 ^ 32, held := [], unacked := r.unacked + 1
          oldest := if r.unacked = 0 then s.io.clock else r.oldest, port := f.port } } }

/-- INFLIGHT of a window counts a message up and, with its answer, down (02 R42, R52). -/
def Net.passed (n : Net) (w : Nat) : Net :=
  (n.setWindow w { n.window w with inflight := (n.window w).inflight + 1 }).setWindow w (n.window w)

/-- The part runs, and the next command to begin (03 R58) is c, of queue q, with an opcode, a length and no reserved bit set. -/
structure Begins (s : State) (q : Nat) (c : Cmd) (opc len : Nat) : Prop where
  running : s.io.phase = .running
  next : nextCmd s = some (q, c)
  opc : cmdOpc c.bytes = opc
  len : c.bytes.length = len
  rsv : word64 c.bytes 0 / 2 ^ 9 = 0

/-- Commands in progress carry numbers given out already (03 R58), and none of them names a launch slot. -/
def State.freeOf (s : State) (slot : Nat) : Prop :=
  ∀ p ∈ allInprog s, p.2.no < s.net.nextCmd ∧ p.2.slot? ≠ some slot

/-! ## Bundles of the statements -/

/-- The issuing context k of core c, whole (not split), outside a handler and with no landing open, is to issue a bundle, which is b; y
is the compute part once b has been fetched (06 R151). -/
structure Attempts (s : State) (d c x : Nat) (k : Ctx) (cr : Crew) (b : Bundle) (y : Chip) : Prop where
  running : s.io.phase = .running
  cool : throttled s = false
  turn : (s.chip.core d c).running = some x
  ctx : s.chip.ctx? d c x = some k
  may : mayIssue s.chip ⟨d, c, x, false⟩ k = true
  whole : k.spare = none
  normal : k.main.hm = 0
  free : k.main.hold = none ∧ k.main.drain = none ∧ k.main.ifence = none ∧ k.main.resuming = none ∧ k.main.resid = none
  quiet : k.main.fences = [] ∧ k.landings = [] ∧ k.main.wdog = false ∧ k.main.poison = none
  fetch : ∃ bs, fetchBundle s.chip d c k.main.asid.toNat k.main.pc = (.bytes bs, y) ∧ bundleOfBytes bs = b
  kept : y.ctx? d c x = some k ∧ (y.core d c).crews.find? k.task = some cr

/-- The bundle to issue is one instruction, in syllable n (12 R298, R299). -/
structure Issues (s : State) (d c x n : Nat) (k : Ctx) (cr : Crew) (b : Bundle) (y : Chip) : Prop extends Attempts s d c x k cr b y where
  slot : 1 ≤ n ∧ n ≤ 7
  header : b.word 0 = BitVec.ofNat 32 (2 ^ (n - 1))

/-- The decoding of a bundle's syllable n for a crew (12 R314). -/
def Bundle.ins (b : Bundle) (k : Ctx) (cr : Crew) (n : Nat) : Except DecCause Irnov.Ins :=
  decodeSlot ⟨b, k.budget, cr.bars.length, cr.nt⟩ n

/-- What an instruction that only computes on registers gives: an S instruction that is no control or system instruction, a V or
an X instruction. -/
def computed (k : Ctx) : Irnov.Ins → Option SlotOut
  | .s i => if isControl i then none else some (scalarOut k false i)
  | .v i => some (vectorOut k false i)
  | .x i => some (cableOut k false i)
  | _ => none

/-- A half, and a context, but for its waiting IFENCE (13 R343). -/
def Half.unfenced (h : Half) : Half := { h with ifence := none }
def Ctx.unfenced (k : Ctx) : Ctx := { k with main := k.main.unfenced, spare := k.spare.map Half.unfenced }

/-- A context whose bundle has retired with register writes and flags, and goes on with the next bundle (06 R152, 08 R205). -/
def Ctx.retired (k : Ctx) (out : SlotOut) (now : Nat) : Ctx :=
  let a := applyWrs k false out.wr
  { a with main := { a.main with fstat := a.main.fstat ||| out.flags.setWidth 64, count := a.main.count + 1
                                 pc := k.main.pc + 32, resid := none, lastRetire := now }
           lastRetire := now }

/-- The compute part once a bundle of context x has retired and left k. -/
def Chip.afterRetire (y : Chip) (d c x : Nat) (k : Ctx) : Chip :=
  ((y.setCtx d c x k).modCore d c fun co => { co.used false with retired := true, seq := co.seq + 1 }).modLaunch (taskSlot k.task) fun l =>
    { l with bundles := l.bundles + 1 }

end Sys2Proof.Machine
end

