-- ==== Sys2Proof/Certificates/Slice0/Obligations.lean ====
section
/-! DEFINITION. The statements for the provers. Each docstring names the rules of spec/ that the statement formalises, or says that it
is the model's own choice and names the log entry. -/

open Sys2Proof Sys2Proof.Machine

/-! ## Records, syllables, the step -/

/-- The model's own encoding of the steps of spec/opcode_table.json (log 1): no operand is lost. A record has one meaning (log 1):
what decodes is well formed, and the record is that step's with zeros behind it. -/
def Obligations.RecordEncoding : Prop :=
  (∀ i : Instr, i.WellFormed → decode (encode i) = .ok i) ∧
  (∀ (b : List Byte) (i : Instr), decode b = .ok i → i.WellFormed ∧ ∃ n, b = encode i ++ List.replicate n 0)

/-- Words and instructions of bundles correspond (12 R302 to R310 and the encodings of 13 to 17): in every slot n, amid any literals
of the bundle, the word that the encoder gives for an instruction decodes to that instruction, with each operand at every value
that the encoding admits; the syllable that holds it issues as that instruction; and an instruction that any word decodes to has
such a word. -/
def Obligations.IrnovRoundTrip : Prop :=
  ∀ (env : DecEnv) (n : Nat) (i : Irnov.Ins), 1 ≤ n → n ≤ 7 →
    (∀ w, encodeSlot env n i = some w → decodeSyllable env n w = .ok i) ∧
    (encodeSlot env n i = some (env.bundle.word n) → decodeSlot env n = .ok i) ∧
    ∀ w, decodeSyllable env n w = .ok i → ∃ x, encodeSlot env n i = some x

/-- Syllables of the instruction set, written out from the encodings of 13 to 17, one or more for each slot of a bundle: ADD s20, s20,
#-4 and CMPLT (S, slots 1 and 2), BR, LOOP, SYSW, a V addition and comparison, a GREDUCE of the X slot, an MMA of the M slot, and
FPUT, UNLOCK, QPOP, BARARR, DCDEC, ADPIN, HARVEST of the D slot; and records of the model's own encoding of steps (log 1). -/
def Obligations.WordsDecode : Prop :=
  decodeWord 1 0x031414FC = .ok (.s (.alu .add 20 (.reg 20) (.imm (-4)))) ∧
  decodeWord 1 0x470205FD = .ok (.s (.cmp .lt 2 (.reg 5) (.imm (-3)))) ∧
  decodeWord 2 0x80400003 = .ok (.s (.br 1 false 3)) ∧
  decodeWord 2 0x8A000000 = .ok (.s (.loop 144 0)) ∧
  decodeWord 2 0x9E180000 = .ok (.s (.sysw 0 (.reg 12))) ∧
  decodeWord 3 0x000642C8 = .ok (.v (.bin .add false .f32 0 3 4 5)) ∧
  decodeWord 3 0x204442CA = .ok (.v (.cmp .lt .f32 1 2 4 5)) ∧
  decodeWord 5 0x00012465 = .ok (.m (.mul .mma true 0 1 1 2 2 3)) ∧
  decodeWord 6 0x040A4009 = .ok (.x (.gred .sum .f32 0 5 4)) ∧
  decodeWord 7 0xA2002814 = .ok (.d (.fput 0 ⟨.scalar (.reg 20), 0⟩ (.reg 10))) ∧
  decodeWord 7 0xAA122800 = .ok (.d (.unlock 9 ⟨.scalar (.reg 20), 0⟩)) ∧
  decodeWord 7 0xAE502C40 = .ok (.d (.qpop 40 1 ⟨.scalar (.reg 22), 0⟩ 0)) ∧
  decodeWord 7 0xB4000600 = .ok (.d (.bararr 0 3 (.reg 0))) ∧
  decodeWord 7 0xBA001800 = .ok (.d (.dcdec 0 ⟨.scalar (.reg 12), 0⟩)) ∧
  decodeWord 7 0xC23E0040 = .ok (.d (.adpin 31 (.reg 32))) ∧
  decodeWord 7 0xC6000000 = .ok (.d (.harvest 0)) ∧
  decode [5, 3, 4] = .ok (.linkFlitCrcError 3 4) ∧
  decode [31, 7, 0xFF, 0x03] = .ok (.adapterForceEvict 7 1023) ∧
  decode [98] = .error (.badRow 98)

/-- A record due on the agenda runs as the step that it encodes; a record that encodes none stops the machine; with nothing due a core
clock period passes; and a word placed as the next record runs as what the decoder reads from it (log 1). -/
def Obligations.StepRunsTheDueRecord : Prop :=
  (∀ (s : State) (p : Pending) (t : List Pending) (i : Instr), s.agenda = p :: t → p.wait = 0 → decode p.record = .ok i →
    step s = exec i { s with agenda := t }) ∧
  (∀ (s : State) (p : Pending) (t : List Pending) (e : DecodeError), s.agenda = p :: t → p.wait = 0 → decode p.record = .error e →
    step s = .fault (.badRecord e)) ∧
  (∀ s : State, (∀ p t, s.agenda = p :: t → p.wait ≠ 0) → step s = .next (tick s)) ∧
  (∀ (s : State) (nbits w : Nat) (i : Instr), decodeTableWord nbits w = some i → step (s.withFetchWord nbits w) = exec i s)

/-- A machine whose agenda holds steps only never stops, whatever data it meets, and stays so (log 1). -/
def Obligations.SafeMachineNeverStops : Prop :=
  ∀ s : State, s.Safe → ∃ t, step s = .next t ∧ t.Safe

/-- The Vorby header and the management header are read as they are laid out (02 R36, R48): each field at every value it admits. -/
def Obligations.FrameHeadersRoundTrip : Prop :=
  (∀ h : Hdr, h.ver < 16 → h.mtype < 16 → h.drank < 4096 → h.srank < 4096 → h.group < 65536 → h.stream < 16 → h.epoch < 65536 →
    h.len < 65536 → h.psn < 2 ^ 32 → h.ackPsn < 2 ^ 32 → h.sack < 2 ^ 31 → h.msgid < 2 ^ 32 → h.tspec < 2 ^ 32 → h.rsv = 0 →
    hdrOf (hdrBytes h) = h) ∧
  (∀ mtype tag maddr mlen : Nat, mtype < 16 → tag < 65536 → maddr < 2 ^ 32 → mlen < 65536 →
    mhdrOf (mhdrBytes mtype tag maddr mlen) = ⟨1, mtype, tag, maddr, mlen, 0⟩)

/-! ## The machine as a whole -/

/-- The invariant of the I/O die holds at reset, with the values that the spec gives for reset: phase 1 begun (01 R19), DUTY 16 and
PLIM 2,200 (01 R16, R29), RETRY_MAX 16, RTO 50, XOFF 1,536, XON 1,024, PCP_CTL 6, PCP_DATA 3 (02 R50), THRESH 1 (03 R68), WDOG
0x40000000 (04 R106), memory zero (01 R19). -/
def Obligations.ResetHoldsItsValues : Prop :=
  State.reset.Inv ∧ State.reset.io.phase = .verify ∧ State.reset.io.duty = 16 ∧ State.reset.io.plim = 2200 ∧
  (∀ p, let x := State.reset.net.port p
    x.retryMax = 16 ∧ x.rto = 50 ∧ x.xoff = 1536 ∧ x.xon = 1024 ∧ x.pcpCtl = 6 ∧ x.pcpData = 3 ∧ x.en = false ∧ x.link = false ∧
      x.epoch = 0 ∧ x.rank = 0) ∧
  (∀ n, (State.reset.net.ring n).thresh = 1 ∧ (State.reset.net.ring n).en = false) ∧
  (∀ q, (State.reset.net.queue q).en = false) ∧
  (∀ d c, (State.reset.chip.core d c).wdLimit = 0x40000000 ∧ (State.reset.chip.core d c).running = none) ∧
  (∀ p, State.reset.chip.mem.get memDflt p = 0) ∧ (∀ a, (State.reset.chip.space a).en = false)

/-- Every step keeps the invariant of the I/O die (01 R16, R29, 03 R70, R74, R75, R77, R80, R82). -/
def Obligations.StepKeepsTheInvariant : Prop :=
  ∀ s t : State, s.Inv → step s = .next t → t.Inv

/-- The frozen state has no thaw: only PERST_N leaves it (03 R79), in the core cycle of the reference edge that sampled its fall (01
R13). A sampled fall is PERST_N's and no other row's. In the frozen state the clocks of cores, slices, task units, placement
engines and stacks stand still (03 R78): no step but PERST_N's fall changes the compute part (the counter of free values apart,
which is the model's own, log 2), and the rows of phase 4 change nothing at all. -/
def Obligations.FrozenStands : Prop :=
  ((∀ s t : State, s.io.phase = .frozen → step s = .next t →
      t.io.phase = .frozen ∨
        (t.io.phase = .reset ∧ (s.perstFalls ∨ ∃ c, s.io.perstAt = some c ∧ c ≤ s.io.clock + 1))) ∧
   ∀ (s t : State) (c : Nat), step s = .next t → t.io.perstAt = some c →
     s.io.perstAt = some c ∨ (s.perstFalls ∧ c = edgeCycle s.io.refEdge)) ∧
  ((∀ s t : State, s.io.phase = .frozen → step s = .next t → t.io.phase = .frozen →
     { t.chip with fresh := s.chip.fresh } = s.chip) ∧
   (∀ (i : Instr) (s : State), s.io.phase = .frozen → needsRunning i = true → exec i s = .next s))

/-- Fuses: a rollback counter never decreases, and root key, RDLOCK and SERIAL stay (03 R71, R72, R82). -/
def Obligations.FusesNeverFall : Prop :=
  ∀ s t : State, step s = .next t →
    (∀ k : Fin 3, s.io.fuseSvn[k] ≤ t.io.fuseSvn[k]) ∧ t.io.fuseRoot = s.io.fuseRoot ∧ t.io.rdlock = s.io.rdlock ∧
      t.io.serial = s.io.serial

/-! ## Reset, boot, freeze (01 R13, R17, R19, 03 R71 to R79) -/

/-- PERST_N: its release in the reset phase begins phase 1 at reference edge 0, and is nothing in any other phase; its fall is sampled
at the first reference edge from then on and resets the part in that edge's core cycle (01 R13, R19, R24). -/
def Obligations.PerstSteps : Prop :=
  (∀ s : State, s.io.phase = .reset →
    exec .perstRelease s = .next { s with io := Io.refreshShown { s.io with phase := .verify } }) ∧
  (∀ s : State, s.io.phase ≠ .reset → exec .perstRelease s = .next s) ∧
  (∀ s : State, s.io.clock < edgeCycle s.io.refEdge →
    exec .perstAssert s = .next { s with io := { s.io with perstAt := some (edgeCycle s.io.refEdge) } }) ∧
  (∀ s : State, edgeCycle s.io.refEdge ≤ s.io.clock →
    ∃ t, exec .perstAssert s = .next t ∧ s.ResetTo t ∧ t.agenda = s.agenda) ∧
  ∀ (s : State) (c : Nat), s.idle → s.io.phase ≠ .reset → s.net.macWait = [] → s.io.perstAt = some c → c ≤ s.io.clock + 1 →
    ∃ t, step s = .next t ∧ s.ResetTo t

/-- The slot of a type that phase 1 takes: one that passes image_ok; slot B before A where its SVN is greater, and slot A first
otherwise (03 R71). -/
def Obligations.SlotChoice : Prop :=
  ∀ (i : Io) (t b : Nat),
    let ok := fun b => imageOk (flashRd i (slotBase t b)) t i.fuseRoot (fusedSvn i t)
    let svn := fun b => (imgHdr (flashRd i (slotBase t b))).svn
    (chooseSlot i t = none ↔ ok 0 = false ∧ ok 1 = false) ∧
    (chooseSlot i t = some b ↔ ok b = true ∧
      ((b = 0 ∧ (svn 1 ≤ svn 0 ∨ ok 1 = false)) ∨ (b = 1 ∧ (svn 0 < svn 1 ∨ ok 0 = false))))

/-- Phase 1: types 1, 2 and 3 in that order; a type without an image that passes puts the part into recovery with FAIL = its number;
otherwise phase 2 begins, with each type's slot, measurement and SVN recorded (01 R19, 03 R71, R74). -/
def Obligations.BootVerification : Prop :=
  ∀ (s : State) (o : BootOutcome), s.io.phase = .verify → s.io.slots = 0 →
    (chooseSlot s.io 1 = none → exec (.bootPhaseComplete o) s = .next { s with io := { s.io with phase := .recovery, fail := 1 } }) ∧
    (chooseSlot s.io 1 ≠ none → chooseSlot s.io 2 = none →
      ∃ t, exec (.bootPhaseComplete o) s = .next t ∧ t.io.phase = .recovery ∧ t.io.fail = 2 ∧ t.chip = s.chip ∧ t.net = s.net) ∧
    (chooseSlot s.io 1 ≠ none → chooseSlot s.io 2 ≠ none → chooseSlot s.io 3 = none →
      ∃ t, exec (.bootPhaseComplete o) s = .next t ∧ t.io.phase = .recovery ∧ t.io.fail = 3 ∧ t.chip = s.chip ∧ t.net = s.net) ∧
    ∀ b1 b2 b3, chooseSlot s.io 1 = some b1 → chooseSlot s.io 2 = some b2 → chooseSlot s.io 3 = some b3 →
      ∃ j : Io, exec (.bootPhaseComplete o) s = .next { s with io := j } ∧
        j = { s.io with phase := .train, slots := j.slots, meas := j.meas, bootSvn := j.bootSvn } ∧
        (∀ k : Fin 3, j.slots.getLsbD k.val = decide ([b1, b2, b3].getD k.val 0 = 1)) ∧
        ∀ k : Fin 3, let rd := flashRd s.io (slotBase (k.val + 1) ([b1, b2, b3].getD k.val 0))
          j.bootSvn[k] = (imgHdr rd).svn ∧ j.meas[k] = sha3 (rd 0 (0x560 + (imgHdr rd).len))

/-- Phases 2 and 3 (01 R19, 03 R75): phase 2 ends in phase 3, or stays with FAIL 4, 5 or 6 and the unit that failed; phase 3 ends in
phase 4 with memory, scratchpads and accumulators zero and caches invalid. -/
def Obligations.BootTrainingAndZeroing : Prop :=
  (∀ s : State, s.io.phase = .train → s.io.fail = 0 →
    exec (.bootPhaseComplete .ok) s = .next { s with io := { s.io with phase := .zero } } ∧
    (∀ k, exec (.bootPhaseComplete (.stackFailed k)) s = .next { s with io := { s.io with fail := 4, failUnit := k } }) ∧
    (∀ d p, exec (.bootPhaseComplete (.dieLinkFailed d p)) s =
      .next { s with io := { s.io with fail := 5, failUnit := 4 * d + p } }) ∧
    ∀ d, exec (.bootPhaseComplete (.ioLinkFailed d)) s = .next { s with io := { s.io with fail := 6, failUnit := d } }) ∧
  (∀ (s : State) (o : BootOutcome), s.io.phase = .train → s.io.fail ≠ 0 → exec (.bootPhaseComplete o) s = .next s) ∧
  ∀ (s : State) (o : BootOutcome), s.io.phase = .zero →
    ∃ t, exec (.bootPhaseComplete o) s = .next t ∧ t.io = { s.io with phase := .running } ∧ t.net = s.net ∧
      (∀ p, t.chip.mem.get memDflt p = 0) ∧ t.chip.poison = [] ∧
      ∀ d c, (t.chip.core d c).scratch = [] ∧ (t.chip.core d c).acc = [] ∧ (t.chip.core d c).l1 = [] ∧
        (t.chip.core d c).icache = [] ∧ (t.chip.core d c).dtlb = [] ∧ (t.chip.core d c).itlb = []

/-- FRZ_N, a thermal trip and a link that cannot be retrained are registered at the first reference edge from then on and freeze the
part in that edge's core cycle, with the cause, the time of that edge, and the results of what has issued written back (01 R11,
R13, R17, 03 R77, R78); at that same edge a trigger joins FRZ_SEEN, later ones are nothing. -/
def Obligations.FreezeTriggers : Prop :=
  (∀ s : State, s.io.phase ≠ .reset → s.io.phase ≠ .frozen → s.io.frzPend = none → edgeCycle s.io.refEdge ≤ s.io.clock →
    exec .frzRequest s = .next { s with chip := finishArrays s.chip, io := s.io.frozenBy 1 1 } ∧
    exec .thermalTrip s = .next { s with chip := finishArrays s.chip, io := Io.frozenBy { s.io with thermTrip := true } 4 3 } ∧
    ∀ d p, s.io.phase = .zero ∨ s.io.phase = .running →
      exec (.linkRetrainFailure d p) s = .next { s with chip := finishArrays s.chip, io := s.io.frozenBy 8 4 }) ∧
  (∀ s : State, s.io.phase ≠ .reset → s.io.phase ≠ .frozen → s.io.clock < edgeCycle s.io.refEdge →
    (s.io.frzPend = none →
      exec .frzRequest s = .next { s with io := { s.io with frzPend := some (s.io.refEdge, 1) } } ∧
      exec .thermalTrip s = .next { s with io := { s.io with thermTrip := true, frzPend := some (s.io.refEdge, 4) } } ∧
      ∀ d p, s.io.phase = .zero ∨ s.io.phase = .running →
        exec (.linkRetrainFailure d p) s = .next { s with io := { s.io with frzPend := some (s.io.refEdge, 8) } }) ∧
    ∀ seen, s.io.frzPend = some (s.io.refEdge, seen) →
      exec .frzRequest s = .next { s with io := { s.io with frzPend := some (s.io.refEdge, seen ||| 1) } }) ∧
  (∀ (s : State) (n : Nat) (seen : BitVec 4), s.idle → s.io.phase ≠ .reset → s.io.phase ≠ .frozen → s.io.perstAt = none →
    s.io.frzPend = some (n, seen) → edgeCycle n ≤ s.io.clock + 1 →
    ∃ t, step s = .next t ∧ t.io.phase = .frozen ∧ t.io.frzSeen = seen ∧ t.io.frzCause = freezeCause seen ∧
      t.io.frzTime = BitVec.ofNat 64 (10 * n) ∧ t.chip.mem = s.chip.mem) ∧
  (∀ s : State, s.io.phase = .frozen → s.io.frzEdge = s.io.refEdge →
    exec .frzRequest s = .next { s with io := { s.io with frzSeen := s.io.frzSeen ||| 1, frzCause := freezeCause (s.io.frzSeen ||| 1) } }) ∧
  ∀ s : State, s.io.phase = .frozen → s.io.frzEdge ≠ s.io.refEdge → exec .frzRequest s = .next s ∧
    exec .thermalTrip s = .next { s with io := { s.io with thermTrip := true } }

/-! ## Links, power, telemetry (01 R8, R10, R11, R16, R19, R20 to R29) -/

/-- Links: the fixed route between compute dies (01 R8, R10): none within a die; one link, over the port that leads to the other die,
where the numbers differ in one bit or in all three; else by way of the die that the lowest differing bit leads to. A flit with a
CRC error is counted at its receiver (log 109) from phase 2 on (01 R11, R28); an Ethernet link comes up or goes down in every
phase but reset (02 R35, R50). A step of power control (01 R16), at most every 2^20 cc: while the hottest junction reaches 105
degrees, the hottest DRAM die 95 degrees or power exceeds PLIM, DUTY falls by 1 to no less than 4; with both below their limits by
5 degrees and power below PLIM by more than 50 W it rises by 1 to no more than 16; else it stays. PWR and TJMAX take the readings
(R29). A junction at 115 degrees is a thermal trip as well (R15, R17). -/
def Obligations.LinksAndThrottle : Prop :=
  ((∀ s t : Nat, s < 8 → t < 8 →
     (∀ j, j < 3 → linkPeer s j = s ^^^ 2 ^ j) ∧ linkPeer s 3 = s ^^^ 7 ∧ dieRoute s s = [] ∧
     (∀ j, j < 4 → dieRoute s (linkPeer s j) = [(s, j)]) ∧
     (∀ a b, a < b → b < 3 → dieRoute s ((s ^^^ 2 ^ a) ^^^ 2 ^ b) = [(s, a), (s ^^^ 2 ^ a, b)]) ∧
     (dieRoute s t).length ≤ 2) ∧
   (∀ (s : State) (d p : Nat), s.io.phase = .train ∨ s.io.phase = .zero ∨ s.io.phase = .running →
     exec (.linkFlitCrcError d p) s =
       .next { s with io := { s.io with links := s.io.links.put (5 * d + p) (s.io.links.getD (5 * d + p) 0 + 1) } }) ∧
   ∀ (s : State), s.io.phase ≠ .reset →
     exec (.ethernetLinkUp 0) s = .next { s with net := { s.net with port0 := { s.net.port0 with link := true } } } ∧
     exec (.ethernetLinkUp 1) s = .next { s with net := { s.net with port1 := { s.net.port1 with link := true } } } ∧
     exec (.ethernetLinkDown 0) s = .next { s with net := { s.net with port0 := { s.net.port0 with link := false } } } ∧
     exec (.ethernetLinkDown 1) s = .next { s with net := { s.net with port1 := { s.net.port1 with link := false } } }) ∧
  (∀ (s : State) (tj dram w : Nat), s.io.phase ≠ .reset → s.io.phase ≠ .frozen →
     (s.io.clock < s.io.throtNext → exec (.throttleStep tj dram w) s = .next s) ∧
     (s.io.throtNext ≤ s.io.clock → ∃ duty, let u : State :=
         { s with io := { s.io with pwr := w, tjmax := tj, throtT := decide (1680 ≤ tj ∨ 1520 ≤ dram)
                                    throtP := decide (s.io.plim < w), duty := duty, throtNext := s.io.clock + 2 ^ 20 } }
       (tj < 1840 → exec (.throttleStep tj dram w) s = .next u) ∧
       (1840 ≤ tj → exec (.throttleStep tj dram w) s = exec .thermalTrip u) ∧
       ((1680 ≤ tj ∨ 1520 ≤ dram ∨ s.io.plim < w) → duty = max 4 (s.io.duty - 1)) ∧
       (tj < 1600 ∧ dram < 1440 ∧ w + 50 < s.io.plim → duty = min 16 (s.io.duty + 1)) ∧
       (¬(1680 ≤ tj ∨ 1520 ≤ dram ∨ s.io.plim < w) ∧ ¬(tj < 1600 ∧ dram < 1440 ∧ w + 50 < s.io.plim) → duty = s.io.duty)))

/-- A refresh of the records, at most every 2^20 cc, shows each telemetry and link record as a whole, with the temperatures measured
(01 R26 to R29). -/
def Obligations.RecordRefresh : Prop :=
  ∀ (s : State) (temps : List Byte), s.io.phase ≠ .reset →
    (s.io.clock < s.io.showNext → exec (.recordRefresh temps) s = .next s) ∧
    (s.io.showNext ≤ s.io.clock → ∃ i : Io, exec (.recordRefresh temps) s = .next { s with io := i } ∧
      i = { s.io with memStk := i.memStk, shown := i.shown, showNext := s.io.clock + 2 ^ 20 } ∧
      (∀ k, k < 16 → i.stack k = { s.io.stack k with baseTemp := leNat ((temps.drop (8 * k)).take 4)
                                                     dramTemp := leNat ((temps.drop (8 * k + 4)).take 4) }) ∧
      i.shown = i.refreshShown.shown)

/-- Background work on a stack (01 R20, R23, R25): refresh, fast while a DRAM die is at 85 degrees or more; the refresh of both
neighbours of a row activated 4,096 times; calibration of a pseudo-channel, every 2^28 cc, one at a time. Each is counted with the
bank-cycles that it cost; work beyond 1.5 % of the bank-cycles of 2^24 cc is not done. The delay that it added to an access is a
free value of at most 2,000 cc, of a calibration at most what it took, which is at most 800 cc (log 43). -/
def Obligations.StackWork : Prop :=
  ∀ (s : State) (k cost : Nat), k < 16 → s.io.phase = .zero ∨ s.io.phase = .running →
    let t := s.io.stack k
    let out := fun (x : Stack) =>
      ({ s with chip := { s.chip with fresh := s.chip.fresh + 1 }
                io := { s.io with memStk := s.io.memStk.setIfInBounds k x } } : State)
    (t.affords s.io.clock cost = true →
      (∃ delay ≤ 2000, let u := t.worked s.io.clock cost delay
        (∀ dram, exec (.refresh k dram cost) s =
          .next (out { u with refreshCmds := t.refreshCmds + 1, refreshFast := decide (1360 ≤ dram) })) ∧
        ∀ acts, 4096 ≤ acts → exec (.rowDisturbRefresh k ⟨acts, cost⟩) s = .next (out { u with rdmRefresh := t.rdmRefresh + 2 })) ∧
      ∀ ch, t.calNext.getD ch 0 ≤ s.io.clock → t.calUntil ≤ s.io.clock → cost ≤ 800 →
        ∃ delay ≤ cost, exec (.interfaceCalibration k ⟨ch, cost⟩) s = .next (out { t.worked s.io.clock cost delay with
          calRuns := t.calRuns + 1, calNext := t.calNext.put ch (s.io.clock + 2 ^ 28), calUntil := s.io.clock + cost })) ∧
    (t.affords s.io.clock cost = false → ∀ dram acts ch, exec (.refresh k dram cost) s = .next s ∧
      exec (.rowDisturbRefresh k ⟨acts, cost⟩) s = .next s ∧ exec (.interfaceCalibration k ⟨ch, cost⟩) s = .next s) ∧
    (∀ acts, acts < 4096 → exec (.rowDisturbRefresh k ⟨acts, cost⟩) s = .next s) ∧
    (∀ ch, s.io.clock < t.calNext.getD ch 0 ∨ s.io.clock < t.calUntil → exec (.interfaceCalibration k ⟨ch, cost⟩) s = .next s) ∧
    (t.affords s.io.clock cost = true ↔
      cost = 0 ∨ 1000 * (t.spent s.io.clock + cost) ≤ 15 * (Config.stackBanks * 2 ^ 24))

/-- Patrol scrub (01 R21, R22): one granule is read, the counts advance, and after the last granule of the stack a pass is complete; a
correctable error is counted, an uncorrectable one poisons the granule; its bytes are free from then on (log 46), and no other
byte of memory changes. The stack keeps each error until its row is remapped (R24). A row in which four corrected errors have been
found within 24 hours, or an uncorrectable one, is remapped to a spare row of its bank while the stack's map has one of its 512
entries and the bank one of its 32 spare rows left; no other row is; memory keeps its contents (01 R24). Which bank and row hold a
granule, and the sizes of the map and of a bank's spares, are the model's reading (log 110, log 9). -/
def Obligations.ScrubAndRemap : Prop :=
  (∀ (s : State) (k cost : Nat), k < 16 → s.io.phase = .zero ∨ s.io.phase = .running →
     (s.io.stack k).affords s.io.clock cost = true →
     ∃ delay ≤ 2000, let t := s.io.stack k
       let g := t.scrubAt
       let last := decide (stackGranules ≤ g + 1)
       let u := { t.worked s.io.clock cost delay with
         scrubLines := t.scrubLines + 1, scrubAt := if last then 0 else g + 1, scrubPass := if last then t.scrubPass + 1 else t.scrubPass }
       let found := fun (uncorr : Bool) (x : Stack) => ({ x with errors := x.errors ++ [⟨granuleAddr k g / 64, s.io.clock, uncorr⟩] } : Stack)
       let clean : State := { s with chip := { s.chip with fresh := s.chip.fresh + 1 }
                                     io := { s.io with memStk := s.io.memStk.setIfInBounds k u } }
       exec (.patrolScrub k 0 cost) s = .next clean ∧
       exec (.patrolScrub k 1 cost) s = .next (clean.modIo fun i => i.modStack (stackOf (granuleAddr k g)) fun x =>
         { found false x with eccCorr := x.eccCorr + 1 }) ∧
       ∃ z, exec (.patrolScrub k 2 cost) s = .next z ∧ z.net = s.net ∧ z.agenda = s.agenda ∧
         z.chip = { s.chip with fresh := z.chip.fresh, poison := z.chip.poison, mem := z.chip.mem } ∧
         (∀ x, x ∈ z.chip.poison ↔ x = granuleAddr k g / 64 ∨ x ∈ s.chip.poison) ∧
         (∀ q n, q + n ≤ 64 * (granuleAddr k g / 64) ∨ 64 * (granuleAddr k g / 64) + 64 ≤ q → z.chip.rdMem q n = s.chip.rdMem q n) ∧
         z.io = clean.io.modStack (stackOf (granuleAddr k g)) fun x => { found true x with eccUncorr := x.eccUncorr + 1 }) ∧
  (∀ (s : State) (k bank row cost : Nat), k < 16 → s.io.phase = .zero ∨ s.io.phase = .running →
     (s.io.stack k).affords s.io.clock cost = true →
     ((s.io.stack k).rowFails s.io.clock bank row = true → (s.io.stack k).otpUsed < 512 → (s.io.stack k).spareUsed.getD bank 0 < 32 →
       ∃ t, exec (.spareRowRemap k bank row cost) s = .next t ∧
       t.net = s.net ∧ t.agenda = s.agenda ∧ t.chip = { s.chip with fresh := s.chip.fresh + 1 } ∧
       (t.io.stack k).otpUsed = (s.io.stack k).otpUsed + 1 ∧ (t.io.stack k).remapCount = (s.io.stack k).remapCount + 1 ∧
       (∀ b, (t.io.stack k).spareUsed.getD b 0 = (s.io.stack k).spareUsed.getD b 0 + (if b = bank then 1 else 0)) ∧
       (t.io.stack k).rowFails s.io.clock bank row = false ∧
       ∀ j, j ≠ k → t.io.stack j = s.io.stack j) ∧
     ((s.io.stack k).rowFails s.io.clock bank row = false ∨ 512 ≤ (s.io.stack k).otpUsed ∨ 32 ≤ (s.io.stack k).spareUsed.getD bank 0 →
       exec (.spareRowRemap k bank row cost) s = .next s) ∧
     ((s.io.stack k).rowFails s.io.clock bank row = true ↔
       let es := (s.io.stack k).errors.filter fun (e : EccError) => e.inRow bank row
       (∃ e ∈ es, e.uncorr = true) ∨ 4 ≤ (es.filter fun (e : EccError) => decide (s.io.clock ≤ e.at_ + 73440000000000)).length))

/-! ## Ports and transport (02 R31 to R53) -/

/-- Frames dropped and counted (02 R31, R32, R36, R38): a bad FCS, size or destination address at DROP_MAC; a foreign VLAN, an unknown
EtherType, or Vorby at a port whose EN is 0 at DROP_ETYPE; a Vorby or management frame for which the receive buffer of 2 MiB has
no room at DROP_BUF (R33); a Vorby frame malformed, or of another group or rank, at DROP_MALF. Nothing else changes but a PFC
frame that falls due. -/
def Obligations.FramesDropped : Prop :=
  ∀ (s : State) (f : RxFrame) (e : Eth), s.io.phase = .running → (s.net.port f.port).link = true → ethOf f.bytes = some e →
    let p := s.net.port f.port
    let out := fun (g : PortCounters → PortCounters) => ({ s with net := s.net.count f.port g } : State)
    let macBad := f.fcsOk = false ∨ e.size < 64 ∨ 9216 < e.size ∨
      (e.da ≠ p.mac.toNat ∧ ¬(isPfc e = true ∧ e.da = pfcMac))
    let vidBad := ∃ t, e.tci = some t ∧ t % 2 ^ 12 ≠ 0 ∧ t % 2 ^ 12 ≠ p.vid
    (macBad → exec (.frameDropped f) s = .next (out fun c => { c with dropMac := bump c.dropMac })) ∧
    (¬macBad → vidBad ∨ (e.etype ≠ 0x88B5 ∧ e.etype ≠ 0x88B6 ∧ isPfc e = false) ∨ (e.etype = 0x88B5 ∧ p.en = false) ∨
        (e.etype = 0x88B6 ∧ p.mgmtMac ≠ 0 ∧ e.sa ≠ p.mgmtMac) →
      exec (.frameDropped f) s = .next (out fun c => { c with dropEtype := bump c.dropEtype })) ∧
    let full := 2 ^ 21 < heldBytes s f.port (fun _ => true) + e.size
    (¬macBad → ¬vidBad → full → (e.etype = 0x88B5 ∧ p.en = true) ∨ (e.etype = 0x88B6 ∧ (p.mgmtMac = 0 ∨ e.sa = p.mgmtMac)) →
      exec (.frameDropped f) s = .next (out fun c => { c with dropBuf := bump c.dropBuf })) ∧
    (¬macBad → ¬vidBad → ¬full → e.etype = 0x88B5 → p.en = true →
      (vorbyOf e = none ∨ ∃ h a d, vorbyOf e = some (h, a, d) ∧ (h.group ≠ s.net.port0.group ∨ h.drank ≠ s.net.port0.rank)) →
      exec (.frameDropped f) s = .next (pfcLevel (out fun c => { c with dropMalf := bump c.dropMalf }) f.port))

/-- A PFC frame pauses each enabled priority that it names for its quanta, or ends its pause with a quantum count of 0; an expiry
clears a pause that is over (02 R33). The core cycles of a quantum are the model's rounding of 512 bit times at 800 Gbit/s. -/
def Obligations.PfcFrameAndExpiry : Prop :=
  (∀ (s : State) (f : RxFrame) (e : Eth), macDrop s f = .ok e → e.etype = 0x8808 →
    ∃ till : Vector Nat 8, exec (.pfcFrame f) s =
        .next { s with net := s.net.modPort f.port fun x => { x with pausedTill := till } } ∧
      ∀ k, k < 8 →
        let q := beNat ((e.data.drop (4 + 2 * k)).take 2)
        if (s.net.port f.port).pfcEn.getLsbD k = true ∧ (beNat ((e.data.drop 2).take 2)).testBit k = true then
          till.getD k 0 = if q = 0 then 0 else s.io.clock + (q * 544 + 999) / 1000
        else till.getD k 0 = (s.net.port f.port).pausedTill.getD k 0) ∧
  ∀ (s : State) (p prio : Nat), s.io.phase ≠ .reset → (s.net.port p).pausedTill.getD prio 0 ≠ 0 →
    (s.net.port p).pausedTill.getD prio 0 ≤ s.io.clock →
    exec (.pfcPauseExpiry p prio) s = .next { s with net := s.net.modPort p fun x =>
      { x with pausedTill := x.pausedTill.setIfInBounds prio 0 } }

/-- Management frames (02 R48, R49): a well-formed MREAD is answered with an MREPLY of the words at MADDR, read in one step; a
well-formed MWRITE writes its words in rising order and is answered MREPLY, or MNACK when one of them is refused; a request with a
reserved MTYPE or a malformed header is answered MNACK and does nothing; an MREPLY or MNACK received is discarded. An answer whose
priority is paused waits (R33). -/
def Obligations.ManagementFrames : Prop :=
  ∀ (s : State) (f : RxFrame) (e : Eth) (mtype tag maddr n : Nat), macDrop s f = .ok e → e.etype = 0x88B6 →
    mhdrOf e.data = ⟨1, mtype, tag, maddr, 8 * n, 0⟩ →
    let answer := fun (t : State) (mtype : Nat) (data : List Byte) =>
      let x := t.net.port f.port
      let data := mhdrBytes mtype tag maddr data.length ++ data
      ({ t with net :=
        if macHeld t t.net.macWait f.port x.pcpCtl then { t.net with macWait := t.net.macWait ++ [⟨f.port, e.sa, x.pcpCtl, 0x88B6, data⟩] }
        else { t.net with wire := t.net.wire ++
          [⟨f.port, t.io.clock, ethBytes e.sa x.mac.toNat x.pcpCtl x.vid 0x88B6 data⟩] } } : State)
    let good := maddr % 8 = 0 ∧ 1 ≤ n ∧ n ≤ 128 ∧ maddr + 8 * n ≤ 2 ^ 32
    (mtype = 0 → good → exec (.mread f) s =
      .next (answer s 2 ((List.range n).flatMap fun k => leBytes 8 (mgmtRead s (maddr + 8 * k)).toNat))) ∧
    (mtype = 0 → ¬good → exec (.mread f) s = .next (answer s 3 [])) ∧
    (4 ≤ mtype → exec (.mread f) s = .next (answer s 3 [])) ∧
    (mtype = 1 → good → ∀ d, e.payload 16 (8 * n) = some d →
      let r := mgmtWrites s maddr ((List.range n).map fun k => BitVec.ofNat 64 (word64 d k))
      exec (.mwrite f) s = .next (answer r.2 (if r.1 then 2 else 3) [])) ∧
    (mtype = 1 → ¬good → exec (.mwrite f) s = .next (answer s 3 [])) ∧
    (mtype = 2 ∨ mtype = 3 → exec (.mreplyReceived f) s = .next s)

/-- A CMD message from a rank whose H is 1 joins the queue that QUEUE names, while the queue is enabled and holds fewer than 64; a
full queue answers BUSY (4), a disabled one QDISABLED (0x0B), and a rank whose H is 0 gets a NACK with code 2 (02 R37, 03 R54). -/
def Obligations.CommandsQueue : Prop :=
  ∀ (s : State) (f : RxFrame) (e : Eth) (h : Hdr) (addr : W64) (payload : List Byte), InSequence s f e h addr payload → h.mtype = 0 →
    let q := h.tspec % 64
    let x := s.net.queue q
    let t := s.took f h
    let c : Cmd := ⟨h.srank, h.stream, h.msgid, s.net.nextRx, h.ord, payload⟩
    let refused := { t with net := t.net.setQueue q { x with refused := bump x.refused } }
    ((s.net.rank h.srank).h = true → x.en = true → x.pending.length < 64 → exec (.vorbyCmd f) s =
      .next { t with net := t.net.setQueue q { x with accepted := bump x.accepted, pending := x.pending ++ [c] } }) ∧
    ((s.net.rank h.srank).h = true → x.en = true → 64 ≤ x.pending.length →
      exec (.vorbyCmd f) s = .next (answerCmd refused c 4 0 [])) ∧
    ((s.net.rank h.srank).h = true → x.en = false → exec (.vorbyCmd f) s = .next (answerCmd refused c 0x0B 0 [])) ∧
    ((s.net.rank h.srank).h = false → exec (.vorbyCmd f) s =
      .next (sendMsg t h.srank h.stream 5 true false h.msgid 2 0 []))

/-- One-sided accesses that window and translation allow perform at the pieces of their range and are answered by a REPLY (02 R42 to
R44, R46, 09 R241): READ and PLPULL read, WRITE and PCOPY write or combine, ATOMIC modifies one word and answers its old value.
INFLIGHT of the window counts them meanwhile. -/
def Obligations.OneSidedAccesses : Prop :=
  ∀ (s : State) (f : RxFrame) (e : Eth) (h : Hdr) (addr : W64) (payload : List Byte) (w : Nat) (ps : List (Nat × Nat × Nat)) (c : Chip),
    InSequence s f e h addr payload →
    let m := messageOf f e h addr payload
    let asid := (s.net.window w).asid
    windowCheck s m = .ok w → inFlight s < 1023 →
    (h.ord = true → unanswered (s.took f h) [] ⟨m, s.net.nextRx, true, some (winRef s w), none, [], false⟩ = false) →
    rangeWalkHeld s.chip 0 asid addr.toNat (msgBytes s asid m) = false →
    ioRange s.chip asid addr.toNat (msgBytes s asid m) (msgAcc m) = (.ok ps, c) → msgHeld c m ps = false →
    let t := fun (c : Chip) => ({ s.took f h with chip := c, net := (s.took f h).net.passed w } : State)
    let reply := fun (t : State) (flags : Flags) (data : List Byte) =>
      sendMsg t h.srank h.stream 4 false false h.msgid (flags.toNat * 2 ^ 8) 0 data
    let op := h.tspec / 2 ^ 24 % 16
    (h.mtype = 1 → ioPoison c ps = none → exec (.vorbyRead f) s =
      .next (reply (t (touchL2 c asid false ps)) 0 (ps.flatMap fun p => c.rdMem p.2.1 p.2.2))) ∧
    (h.mtype = 8 → pullState s asid m = .ok → ioPoison c ps = none → exec (.vorbyPlpull f) s =
      .next (reply (t (touchL2 c asid false ps)) 0 (ps.flatMap fun p => c.rdMem p.2.1 p.2.2))) ∧
    (h.mtype = 2 → exec (.vorbyWrite f) s = .next (reply (t (wrPieces (touchL2 c asid true ps) (ps.map (·.2)) payload)) 0 [])) ∧
    (h.mtype = 7 → op = 0 →
      exec (.vorbyPcopy f) s = .next (reply (t (wrPieces (touchL2 c asid true ps) (ps.map (·.2)) payload)) 0 [])) ∧
    (h.mtype = 7 → op ≠ 0 → exec (.vorbyPcopy f) s =
      .next (reply (t (combineIn (touchL2 c asid true ps) op ps payload).2) (combineIn (touchL2 c asid true ps) op ps payload).1 [])) ∧
    (h.mtype = 3 → ∀ at_, wireAtOp (h.tspec % 16) = some at_ →
      let n := if h.tspec.testBit 4 then 8 else 4
      let o := leNat (if h.tspec % 16 = 8 then payload.drop n else payload)
      let r := atomicMem c at_ n (h.tspec.testBit 5) [⟨0, (ps.headD (0, 0, 0)).2.1, o, leNat (payload.take n),
        agentInsert c 0 asid addr.toNat 1⟩]
      exec (.vorbyAtomic f) s = .next (reply (t r.2.2) r.2.1 (leBytes n (r.1.headD (0, 0)).2)))

/-- One-sided accesses that no window allows do nothing and are answered by a NACK: code 1 where no window holds the address, 6 where
the range leaves its window, 2 where the window forbids the access; the last two leave a peer-fault record in the window's ring,
as soon as no claim holds its writing (02 R42, R45). -/
def Obligations.RefusedAccesses : Prop :=
  ∀ (s : State) (f : RxFrame) (e : Eth) (h : Hdr) (addr : W64) (payload : List Byte), InSequence s f e h addr payload → h.mtype = 2 →
    payload ≠ [] →
    let t := s.took f h
    let nack := fun (t : State) (code : Nat) => sendMsg t h.srank h.stream 5 false false h.msgid code addr []
    let record := fun (w code : Nat) => peerFault t (s.net.window w).fring code h.srank h.msgid addr 0
    (findWindowOf s addr.toNat = none → exec (.vorbyWrite f) s = .next (nack t 1)) ∧
    ∀ w, findWindowOf s addr.toNat = some w →
      let x := s.net.window w
      ringHeld t x.fring = false →
      (x.base + x.length < addr.toNat + payload.length → exec (.vorbyWrite f) s = .next (nack (record w 6) 6)) ∧
      (addr.toNat + payload.length ≤ x.base + x.length → x.w = false → exec (.vorbyWrite f) s = .next (nack (record w 2) 2))

/-- A REPLY or NACK completes the request of the part that it answers (02 R46); an EVENT only advances its stream (R37); an ACK frame
removes the frames below its ACKPSN from the send stream to its rank (R38, R39). -/
def Obligations.AnswersEventsAcks : Prop :=
  (∀ (s : State) (f : RxFrame) (e : Eth) (h : Hdr) (addr : W64) (payload : List Byte) (n : Nat) (o : Outst),
    InSequence s f e h addr payload → findRequest s h.srank h.stream h.msgid = some (n, o) →
    let t := s.took f h
    (h.mtype = 4 → exec (.vorbyReply f) s = .next { t with
      net := { t.net with outst := t.net.outst.del n }
      chip := if o.conv then pullReply s.chip o.opId o.row payload
        else asyncAck s.chip o.opId o.row 0 (BitVec.ofNat 5 (h.tspec / 2 ^ 8)) o.len }) ∧
    (h.mtype = 5 → ∃ z, exec (.vorbyNack f) s = .next z ∧ z.io = s.io ∧ z.net.outst = s.net.outst.del n ∧
      (z.net.port f.port).cnt.nackRx = bump (s.net.port f.port).cnt.nackRx ∧
      z.chip = if o.conv then pullNack s.chip o.opId (h.tspec % 256) h.srank
        else asyncAck s.chip o.opId o.row (h.tspec % 256) 0 o.len)) ∧
  (∀ (s : State) (f : RxFrame) (e : Eth) (h : Hdr) (addr : W64) (payload : List Byte), InSequence s f e h addr payload →
    h.mtype = 6 → exec (.vorbyEvent f) s = .next (s.took f h)) ∧
  ∀ (s : State) (f : RxFrame) (e : Eth) (h : Hdr) (addr : W64) (payload : List Byte) (x : TxFrame) (g : List TxFrame) (t : TxStream) (d : Nat),
    s.io.phase = .running → macDrop s f = .ok e → e.etype = 0x88B5 → vorbyOf e = some (h, addr, payload) → h.mtype = 15 →
    h.group = s.net.port0.group → h.drank = s.net.port0.rank → s.net.seen.find? h.srank = some h.epoch → h.ackv = true →
    s.net.rxWait = [] → (s.net.port f.port).pfcEn = 0 → h.sack = 0 →
    s.net.tx.find? (streamKey h.srank h.stream) = some t → t.frames = x :: g → (∀ y ∈ t.frames, y.sacked = false) →
    d ≤ t.frames.length → d < 2 ^ 32 → h.ackPsn = (x.psn + d) % 2 ^ 32 → x.psn < 2 ^ 32 →
    exec (.vorbyAck f) s = .next { s with net :=
      let n := s.net.count f.port fun c => { c with rxFrames := bump c.rxFrames }
      { n with tx := n.tx.put (streamKey h.srank h.stream) { t with frames := t.frames.drop d } } }

/-- Timers of the transport (02 R35, R38, R39): acknowledgements 2 us old are sent in an ACK frame on the stream's port; a frame not
acknowledged for RTO us is sent again and counted, and at the RETRY_MAX-th retransmission its stream fails. -/
def Obligations.TransportTimers : Prop :=
  (∀ (s : State) (rank stream p : Nat) (r : RxStream), s.io.phase = .running → s.net.rx.find? (streamKey rank stream) = some r →
    r.unacked ≠ 0 → r.oldest + 1700 ≤ s.io.clock → choosePort s rank stream = some p →
    pausedAt s p (s.net.port p).pcpCtl = false →
    exec (.ackTimer rank stream) s = .next (putVorby s p rank stream 0xF true false 0 0 0 0 [])) ∧
  ∀ (s : State) (rank stream psn p : Nat) (f : TxFrame), rank < 4096 → stream < 16 → s.io.phase = .running →
    List.find? (fun (g : TxFrame) => g.psn == psn) (s.net.tx.getD (streamKey rank stream) .init).frames = some f →
    f.sacked = false → f.sent = true ∨ f.mtype ≠ 5 → f.since + (s.net.port p).rto * 850 ≤ s.io.clock → choosePort s rank stream = some p →
    pausedAt s p (portPcp s p f.ctl) = false →
    let again := fun (g : TxFrame) =>
      if g.psn = psn then { g with sent := true, retries := g.retries + 1, since := s.io.clock, fast := false } else g
    let t := (countAt (putVorby s p rank stream f.mtype f.ctl f.ord f.psn f.msgid f.tspec f.addr f.payload) p fun c =>
      { c with retx := bump c.retx }).modTx (streamKey rank stream) fun x => { x with frames := x.frames.map again }
    (f.retries + 1 < (s.net.port p).retryMax → exec (.rtoExpiry rank stream psn) s = .next t) ∧
    ((s.net.port p).retryMax ≤ f.retries + 1 →
      exec (.rtoExpiry rank stream psn) s = .next (failStream t (streamKey rank stream)))

/-! ## Registers, flash, the test access port (02 R41, 03 R55, R68, R74, R80 to R82, 15 R377) -/

/-- A write of EPOCH at port 0 with another value than it holds (02 R41): every send stream starts afresh, no stream of any rank is
failed, and what was sent or waited is no more; a write of the value it holds is nothing. -/
def Obligations.EpochWrite : Prop :=
  ∀ (s : State) (v : Nat), s.io.phase ≠ .reset → v < 65536 →
    (v = s.net.port0.epoch → exec (.epochWrite v) s = .next s) ∧
    (v ≠ s.net.port0.epoch → ∃ t, exec (.epochWrite v) s = .next t ∧ t.net.port0.epoch = v ∧ t.net.tx = [] ∧
      (∀ r, t.net.rank r = { s.net.rank r with failed := 0 }) ∧ t.net.rx = s.net.rx ∧ t.net.seen = s.net.seen ∧
      t.net.queues = s.net.queues ∧ t.net.rings = s.net.rings ∧ t.net.windows = s.net.windows ∧ t.net.wire = s.net.wire ∧
      t.io = s.io ∧ t.agenda = s.agenda ∧ (s.net.tx = [] → t.chip = s.chip ∧ t.net.outst = s.net.outst))

/-- A write that clears EN of a command queue answers the commands not begun QDISABLED and counts them refused; those begun go on (03
R55). EN of an event ring (03 R68): a write that sets it writes HEAD and TAIL to zero at BASE first, and leaves EN 0 and DROPPED
one more when a page faults; a write that clears it stops the ring. The other fields of the word are taken while EN is 0, and with
the write that clears it (the model's reading, log 39 and 65). -/
def Obligations.QueuesAndRings : Prop :=
  (∀ (s : State) (q w : Nat), s.io.phase ≠ .reset → q < 64 → w < 2 ^ 64 → (s.net.queue q).en = true → w.testBit 0 = false →
     let x := s.net.queue q
     let off : State := { s with net := s.net.setQueue q { x with
       asid := w / 2 ^ 52, sup := w.testBit 1, en := false, pending := []
       refused := min (x.refused + x.pending.length) (2 ^ 64 - 1) } }
     exec (.queueDisable q w) s = .next (x.pending.foldl (fun s c => answerCmd s c 0x0B 0 []) off)) ∧
  (∀ (s : State) (n w : Nat), n < 64 → w < 2 ^ 64 →
     let r := (s.net.ring n).withWord0 w
     ((s.net.ring n).en = false → w.testBit 0 = true → s.io.phase ≠ .reset → s.io.phase ≠ .frozen →
       (∀ c, ioStore s.chip r.asid r.base (List.replicate 16 0) = some c → exec (.ringEnable n w) s =
         .next { s with chip := c, net := s.net.setRing n { r with en := true, head := 0, tail := 0, unsent := [] } }) ∧
       (ioStore s.chip r.asid r.base (List.replicate 16 0) = none → exec (.ringEnable n w) s =
         .next { s with net := s.net.setRing n { r with dropped := bump r.dropped } })) ∧
     ((s.net.ring n).en = true → w.testBit 0 = false → s.io.phase ≠ .reset →
       exec (.ringDisable n w) s = .next { s with net := s.net.setRing n { r with en := false } }))

/-- Flash operations (03 R74): in recovery with none in progress, an aligned address on the device starts an erase of 64 KiB or the
programming of 1,024 bytes, and another sets FL_ERR; FL_OP 0 and 3 do nothing; outside recovery, or while one is in progress, a
write is nothing; at its end an erased sector reads 0xFF, and programming clears bits (NOR cells: the model's, log 7). -/
def Obligations.FlashSteps : Prop :=
  (∀ (s : State) (a : Nat), a < 2 ^ 32 → s.io.phase = .recovery → s.io.flOp = none →
    let start := fun (o : FlashOp) => ({ s with io := { s.io with flErr := false, flAddr := a, flOp := some o } } : State)
    let bad : State := { s with io := { s.io with flErr := true, flAddr := a } }
    (a % 0x10000 = 0 ∧ a < flashBytes → exec (.flashErase a) s = .next (start (.erase a))) ∧
    (¬(a % 0x10000 = 0 ∧ a < flashBytes) → exec (.flashErase a) s = .next bad) ∧
    (a % 0x400 = 0 ∧ a < flashBytes → exec (.flashProgram a) s = .next (start (.program a))) ∧
    (¬(a % 0x400 = 0 ∧ a < flashBytes) → exec (.flashProgram a) s = .next bad)) ∧
  (∀ (s : State) (a : Nat), a < 2 ^ 32 → s.io.phase ≠ .recovery ∨ s.io.flOp ≠ none →
    exec (.flashErase a) s = .next s ∧ exec (.flashProgram a) s = .next s) ∧
  (∀ (s : State) (w : Nat), w < 2 ^ 64 → w % 4 = 0 ∨ w % 4 = 3 → exec (.flashNoOp w) s = .next s) ∧
  (∀ (s : State) (o : FlashOp), s.io.phase = .recovery → s.io.flOp = some o →
    ∃ m : Memory, exec .flashOpComplete s = .next { s with io := { s.io with flOp := none, flash := m } } ∧
      match o with
      | .erase a => ∀ x, m.get flashDflt x = if a ≤ x ∧ x < a + 0x10000 then 0xFF else s.io.flash.get flashDflt x
      | .program a => ∀ x, m.get flashDflt x =
          if a ≤ x ∧ x < a + 0x400 then s.io.flash.get flashDflt x &&& s.io.staging.get 0 (x - a) else s.io.flash.get flashDflt x) ∧
  ∀ (s : State) (bs : List Byte), s.io.phase = .recovery → s.io.flOp = none → bs.length ≤ 1024 →
    ∃ m : Memory, exec (.stagingBufferWrite bs) s = .next { s with io := { s.io with staging := m } } ∧
      ∀ x, m.get 0 x = if x < bs.length then bs.getD x 0 else s.io.staging.get 0 x

/-- A forced eviction leaves a valid entry of a die's adapter table invalid, with count 0 and its generation one higher, and does
nothing to an invalid one (15 R377). -/
def Obligations.AdapterForceEvict : Prop :=
  ∀ (s : State) (d n : Nat), d < 8 → n < 1024 → s.io.phase ≠ .reset → s.io.phase ≠ .frozen →
    let y := s.chip.die d
    let a := y.adapters.getD n .empty
    let z := { y with adapters := y.adapters.put n { a with v := false, refcnt := 0, gen := (a.gen + 1) % 64 } }
    (a.v = true → exec (.adapterForceEvict d n) s = .next { s with chip := s.chip.setDie d z }) ∧
    (a.v = false → exec (.adapterForceEvict d n) s = .next { s with chip := s.chip.setDie d y })

/-- The test access port (03 R80 to R82): BYPASS selects one bit of 0, IDCODE the code 0x1C8A80B7; SAMPLE/PRELOAD and EXTEST capture
the pins, whose values are free (log 16); ROSELECT writes ROSEL, while frozen and not with RDLOCK, and restarts the read-out;
RODATA shifts out the word at its place and moves 8 bytes on. Read-out words are zero unless the part is frozen without RDLOCK;
then unit 2 reads a core's scratchpads. -/
def Obligations.JtagSteps : Prop :=
  (∀ s : State,
    let jt := fun (s : State) (j : Jtag) => ({ s with io := { s.io with jtag := j } } : State)
    let x := s.io.jtag
    exec .jtagBypass s = .next (jt s { x with ir := 0xFF, dr := [false] }) ∧
    exec .jtagIdcode s = .next (jt s { x with ir := 0x01, dr := (List.range 32).map (0x1C8A80B7 : Nat).testBit }) ∧
    (∃ pins latch, let u := { s with chip := { s.chip with fresh := s.chip.fresh + 2 } }
      exec .jtagSamplePreload s = .next (jt u { x with ir := 0x02, dr := pins, latch := latch }) ∧
      exec .jtagExtest s = .next (jt u { x with ir := 0x03, dr := pins, latch := latch })) ∧
    (∀ w, w < 2 ^ 64 →
      let sel := if s.io.phase = .frozen ∧ s.io.rdlock = false then BitVec.ofNat 64 w &&& 0xFFFFFFFFFFFF0000 else s.io.rosel
      exec (.jtagRoselect w) s = .next (jt { s with io := { s.io with rosel := sel } }
        { x with ir := 0x20, dr := (List.range 64).map w.testBit, ptr := 0 })) ∧
    exec .jtagRodata s = .next (jt s { x with
      ir := 0x21, dr := (List.range 64).map (readout s (x.ptr + roPage s)).toNat.testBit, ptr := x.ptr + 8 })) ∧
  (∀ (s : State) (off : Nat), s.io.phase ≠ .frozen ∨ s.io.rdlock = true → readout s off = 0) ∧
  ∀ (s : State) (off d c e : Nat), s.io.phase = .frozen → s.io.rdlock = false → d < 8 → c < 16 → e < 16 → off + 8 ≤ 393216 →
    s.io.rosel = BitVec.ofNat 64 (d * 2 ^ 60 + c * 2 ^ 56 + 2 * 2 ^ 48 + e * 2 ^ 32) →
    readout s off = BitVec.ofNat 64 (leNat ((s.chip.core d c).scratch.read 0 (393216 * e + off) 8))

/-! ## Commands (03 R54 to R69, R72, R73, R76, R77) -/

/-- A message of the part joins the stream to its rank, which sends it in its turn; where the rank is in no port's map it completes
locally with NORANK (8), and where its stream has failed with TIMEOUT (9) (02 R35, R39). One to the part's own rank is delivered
inside the part (02 R34). -/
def Obligations.MessagesJoinStreams : Prop :=
  ∀ (s : State) (rank stream mtype msgid tspec : Nat) (ctl ord : Bool) (addr : W64) (payload : List Byte),
    let e := s.net.rank rank
    let t := s.net.tx.getD (streamKey rank stream) .init
    let f : TxFrame := { psn := 0, mtype := mtype, ctl := ctl, ord := ord, msgid := msgid, tspec := tspec, addr := addr
                         payload := payload, sent := false, retries := 0, since := 0, sacked := false, fast := false }
    let send := sendMsg s rank stream mtype ctl ord msgid tspec addr payload
    (rank = ownRank s → send = toSelf s stream mtype msgid tspec payload) ∧
    (rank ≠ ownRank s → e.pmask ≠ 0 → e.failed.getLsbD stream = false → send = { s with net := { s.net with
      tx := s.net.tx.put (streamKey rank stream) { t with waiting := t.waiting ++ [f] } } }) ∧
    (rank ≠ ownRank s → e.pmask = 0 → send = localNack s rank stream mtype msgid 8) ∧
    (rank ≠ ownRank s → e.pmask ≠ 0 → e.failed.getLsbD stream = true → send = localNack s rank stream mtype msgid 9)

/-- NOP, READ and WRITE (03 R56, R57, R59, R60): the command leaves its queue and is answered once, with status 0; READ with the bytes
at VA, WRITE once its bytes are stored; a header with reserved bits set or an opcode above 13 answers BADOP (1), a length that
does not fit BADARG (2), a range that does not translate PROT (3) or XLATE (5), and poisoned bytes POISON (6); a command refused
leaves the compute part as it was, gathered bits of its translations too. Lines that claims hold are a premise: there the command
waits. -/
def Obligations.CommandsNopReadWrite : Prop :=
  (∀ (s : State) (q : Nat) (c : Cmd), Begins s q c 0 8 → exec .cmdNop s = .next (answerCmd (takeCmd s q) c 0 0 [])) ∧
  (∀ (s : State) (q : Nat) (c : Cmd), s.io.phase = .running → nextCmd s = some (q, c) →
    (c.bytes.length < 8 → exec .cmdNop s = .next (answerCmd (takeCmd s q) c 2 0 [])) ∧
    (8 ≤ c.bytes.length → cmdBadOp c.bytes = true → exec .cmdNop s = .next (answerCmd (takeCmd s q) c 1 0 []))) ∧
  (∀ (s : State) (q n : Nat) (c : Cmd) (ps : List (Nat × Nat × Nat)) (ch : Chip), Begins s q c 1 24 →
    word64 c.bytes 2 % 2 ^ 13 = n → 1 ≤ n → n ≤ 4096 →
    rangeWalkHeld s.chip 0 (s.net.queue q).asid (word64 c.bytes 1) n = false →
    ioRange s.chip (s.net.queue q).asid (word64 c.bytes 1) n .load = (.ok ps, ch) → ioClaimed ch ps = false →
    (ioPoison ch ps = none → exec .cmdRead s = .next (answerCmd { takeCmd s q with
      chip := touchL2 ch (s.net.queue q).asid false ps } c 0 n (ps.flatMap fun p => ch.rdMem p.2.1 p.2.2))) ∧
    (ioPoison ch ps ≠ none → exec .cmdRead s = .next (answerCmd (takeCmd s q) c 6 0 []))) ∧
  (∀ (s : State) (q n va : Nat) (c : Cmd) (prot : Bool) (ch : Chip), Begins s q c 1 24 →
    word64 c.bytes 2 % 2 ^ 13 = n → 1 ≤ n → n ≤ 4096 →
    rangeWalkHeld s.chip 0 (s.net.queue q).asid (word64 c.bytes 1) n = false →
    ioRange s.chip (s.net.queue q).asid (word64 c.bytes 1) n .load = (.error (prot, va), ch) →
    exec .cmdRead s = .next (answerCmd (takeCmd s q) c (if prot then 3 else 5) 0 [])) ∧
  (∀ (s : State) (q n : Nat) (c : Cmd), Begins s q c 1 24 → word64 c.bytes 2 % 2 ^ 13 = n → n = 0 ∨ 4096 < n →
    exec .cmdRead s = .next (answerCmd (takeCmd s q) c 2 0 [])) ∧
  (∀ (s : State) (q : Nat) (c : Cmd), s.io.phase = .running → nextCmd s = some (q, c) → 8 ≤ c.bytes.length →
    cmdBadOp c.bytes = false →
    (cmdOpc c.bytes = 1 → c.bytes.length ≠ 24 → exec .cmdRead s = .next (answerCmd (takeCmd s q) c 2 0 [])) ∧
    (cmdOpc c.bytes = 2 → c.bytes.length < 17 ∨ 4112 < c.bytes.length → exec .cmdWrite s = .next (answerCmd (takeCmd s q) c 2 0 []))) ∧
  ∀ (s : State) (q n : Nat) (c : Cmd) (ps : List (Nat × Nat × Nat)) (ch : Chip), Begins s q c 2 n → 17 ≤ n → n ≤ 4112 →
    rangeWalkHeld s.chip 0 (s.net.queue q).asid (word64 c.bytes 1) (n - 16) = false →
    ioRange s.chip (s.net.queue q).asid (word64 c.bytes 1) (n - 16) .store = (.ok ps, ch) → ioStoreHeld ch ps = false →
    exec .cmdWrite s = .next (answerCmd { takeCmd s q with
      chip := wrPieces (touchL2 ch (s.net.queue q).asid true ps) (ps.map (·.2)) (c.bytes.drop 16) } c 0 0 [])

/-- LAUNCH (03 R60, 04 R85 to R87): a descriptor that passes every check makes a launch live in a free slot, and the answer carries
its id, which is not 0 and not that of a launch already live; one that does not is answered with the status of its check. -/
def Obligations.CommandLaunch : Prop :=
  (∀ (s : State) (q : Nat) (c : Cmd), Begins s q c 3 24 →
    let x := s.net.queue q
    let ring := word64 c.bytes 2 % 64
    let r := checkDesc s.chip (BitVec.ofNat 64 (word64 c.bytes 1)) x.asid x.sup q ring (s.net.ring ring).en
    (∀ l ch, r = (.ok l, ch) →
      exec .cmdLaunch s = .next (answerCmd { takeCmd s q with chip := (goLive ch l).2 } c 0 (goLive ch l).1 [])) ∧
    (∀ code ch, r = (.status code, ch) → exec .cmdLaunch s = .next (answerCmd (takeCmd s q) c code 0 []))) ∧
  ∀ (s : Chip) (l : Launch), s.launches.length < 1024 →
    ∃ slot < 1024, s.launches.find? slot = none ∧
      (goLive s l).2.launches.find? slot = some { l with id := (goLive s l).1, startCc := s.now } ∧
      (∀ k, k ≠ slot → (goLive s l).2.launches.find? k = s.launches.find? k) ∧
      (goLive s l).1 ≠ 0 ∧ (goLive s l).1 < 2 ^ 32 ∧ ∀ e ∈ s.launches, e.2.id ≠ (goLive s l).1

/-- PREEMPT and KILL (03 R61, R62, 04 R101, 11 R297): a launch that no other command in progress names is pre-empted (MODE 0 and 1:
its contexts stop, the command stays in progress), released (MODE 2, answered at once) or killed (in progress until its record);
MODE 3 answers BADARG, a launch that is not live or not the queue's answers NOLAUNCH (7), a KILL of a launch whose tasks have
ended 0. -/
def Obligations.CommandsPreemptKill : Prop :=
  (∀ (s : State) (q k m : Nat) (c : Cmd) (l : Launch), Begins s q c 4 16 → word64 c.bytes 1 / 2 ^ 32 % 4 = m →
    slotOf s.chip (word64 c.bytes 1 % 2 ^ 32) = some (k, l) → ((s.net.queue q).sup = true ∨ l.asid = (s.net.queue q).asid) →
    stillLive s k l.id = true → s.freeOf k →
    let i : InCmd := ⟨s.net.nextCmd, c, (s.net.queue q).asid, (s.net.queue q).sup, .preempt k l.id m, true⟩
    (m = 0 → exec .cmdPreemptMode0 s = .next (addInprog { takeCmd s q with chip := preemptStart s.chip k false } q i)) ∧
    (m = 1 → exec .cmdPreemptMode1 s = .next (addInprog { takeCmd s q with chip := preemptStart s.chip k true } q i)) ∧
    (m = 2 → exec .cmdPreemptMode2 s = .next (answerCmd { takeCmd s q with chip := releaseHeld s.chip k } c 0 0 []))) ∧
  (∀ (s : State) (q : Nat) (c : Cmd), Begins s q c 4 16 → word64 c.bytes 1 / 2 ^ 32 % 4 = 3 →
    exec .cmdPreemptMode3 s = .next (answerCmd (takeCmd s q) c 2 0 [])) ∧
  (∀ (s : State) (q k : Nat) (c : Cmd) (l : Launch), Begins s q c 5 16 →
    slotOf s.chip (word64 c.bytes 1 % 2 ^ 32) = some (k, l) → ((s.net.queue q).sup = true ∨ l.asid = (s.net.queue q).asid) →
    s.chip.launches.find? k = some l → s.freeOf k →
    let i : InCmd := ⟨s.net.nextCmd, c, (s.net.queue q).asid, (s.net.queue q).sup, .kill k l.id, true⟩
    (allEnded l = false → exec .cmdKill s = .next (addInprog { takeCmd s q with chip := killStart s.chip k } q i)) ∧
    (allEnded l = true → exec .cmdKill s = .next (answerCmd (takeCmd s q) c 0 0 []))) ∧
  ∀ (s : State) (q : Nat) (c : Cmd), slotOf s.chip (word64 c.bytes 1 % 2 ^ 32) = none →
    (Begins s q c 5 16 → exec .cmdKill s = .next (answerCmd (takeCmd s q) c 7 0 [])) ∧
    (Begins s q c 4 16 → word64 c.bytes 1 / 2 ^ 32 % 4 = 0 → exec .cmdPreemptMode0 s = .next (answerCmd (takeCmd s q) c 7 0 []))

/-- TLBINV, HARVEST and PLACE (03 R63, 07 R199, R200): TLBINV makes translations and lines invalid at once, and is answered when what
the old mapping served has performed, the L1s empty again; HARVEST writes gathered bits back (or waits where claims hold a table
entry); PLACE reads its 64 bytes and is answered when every die of DMASK has taken the change. A queue that is no supervisor's
gets PROT (3) for another address space. Which messages go by the old mapping is the model's reading (log 127). -/
def Obligations.CommandsTlbinvHarvestPlace : Prop :=
  (∀ (s : State) (q : Nat) (c : Cmd), Begins s q c 6 32 → (s.net.queue q).sup = true → (word64 c.bytes 1).testBit 12 = false →
    (word64 c.bytes 1).testBit 13 = true → (∀ p ∈ allInprog s, p.2.no < s.net.nextCmd) →
    let a := some (word64 c.bytes 1 % 2 ^ 12)
    let m := markRx (takeCmd s q) c fun e => e.hit a 0 (2 ^ 64)
    let r := tlbinvNow m.chip a 0 (2 ^ 64)
    let w := r.1.withMsgs (oldMsgs m)
    let d := { m with chip := r.2 }
    let gone := match w with | .tlbinv a lo hi cs h o v k => tlbinvOver d a lo hi cs h o v k | _ => false
    exec .cmdTlbinv s = .next (if gone then answerCmd (d.modChip clearL1s) c 0 0 []
      else addInprog d q ⟨s.net.nextCmd, c, (s.net.queue q).asid, true, w, false⟩)) ∧
  (∀ (s : State) (q : Nat) (c : Cmd), Begins s q c 7 16 →
    ((s.net.queue q).sup = true ∨ word64 c.bytes 1 % 2 ^ 12 = (s.net.queue q).asid →
      gatheredHeld s.chip (fun e => e.asid == word64 c.bytes 1 % 2 ^ 12) = false → exec .cmdHarvest s =
      .next (answerCmd { takeCmd s q with chip := flushGathered s.chip fun e => e.asid == word64 c.bytes 1 % 2 ^ 12 } c 0 0 [])) ∧
    ((s.net.queue q).sup = false → word64 c.bytes 1 % 2 ^ 12 ≠ (s.net.queue q).asid →
      exec .cmdHarvest s = .next (answerCmd (takeCmd s q) c 3 0 []))) ∧
  ∀ (s : State) (q : Nat) (c : Cmd) (image : List Byte) (ch : Chip), Begins s q c 8 24 → word64 c.bytes 1 / 2 ^ 24 % 2 ^ 8 ≠ 0 →
    ((s.net.queue q).sup = true ∨ word64 c.bytes 1 % 2 ^ 12 = (s.net.queue q).asid) → (∀ p ∈ allInprog s, p.2.no < s.net.nextCmd) →
    cmdRead s.chip (s.net.queue q).asid (word64 c.bytes 2) 64 = (.ok image, ch) →
    let on := placeOn ch (word64 c.bytes 1 / 2 ^ 24 % 2 ^ 8) (word64 c.bytes 1 % 2 ^ 12) (word64 c.bytes 1 / 2 ^ 16 % 2 ^ 8) q
      s.net.nextCmd image
    let d := { takeCmd s q with chip := on }
    exec .cmdPlace s = .next (if placeHeld d q s.net.nextCmd
      then addInprog d q ⟨s.net.nextCmd, c, (s.net.queue q).asid, (s.net.queue q).sup, .place, false⟩ else answerCmd d c 0 0 [])

/-- SIGNAL and WAITEVENT (03 R63): SIGNAL performs an FPUT or DCDEC at the object's home, or answers BADSIG (0x0D) where the object is
full or its count 0, POISON (6) where it is poisoned; WAITEVENT is answered as soon as a read of its word meets COND, and with
TIMEOUT (8) when its time is over. Lines that claims hold are a premise: there the command waits. ATTEST, FWLOAD and FREEZE (03
R72, R73, R76, R77): the attestation report of 2,612 bytes is stored at VA; an image read from memory is answered ROLLBACK (0x0A)
below the fused minimum, BADIMG (9) when it does not pass (its slot then erased if it had been written), and else is in its slot,
with the fuse raised by COMMIT, up to 63; FREEZE by a supervisor's queue freezes the part at the reference edge that registers it
and is not answered, by another it answers PROT. -/
def Obligations.CommandsSignalWaitAttestFwloadFreeze : Prop :=
  ((∀ (s : State) (q p : Nat) (c : Cmd) (ch : Chip), Begins s q c 9 32 →
     walkHeld s.chip 0 [] (s.net.queue q).asid (word64 c.bytes 2) = false →
     xlAgent s.chip 0 (s.net.queue q).asid (word64 c.bytes 2) .sync = (.ok p, ch) → ch.storeHeld (lineOf p) = false →
     let u := ch.l2Access p (agentInsert ch 0 (s.net.queue q).asid (word64 c.bytes 2) 1)
     let by' : Requester := ⟨⟨0, 0, 0, false⟩, 0, (s.net.queue q).asid⟩
     (word64 c.bytes 1 % 2 = 0 → word64 c.bytes 2 % 16 = 0 →
       (ch.poisoned p 16 ≠ none → exec .cmdSignalFput s = .next (answerCmd (takeCmd s q) c 6 0 [])) ∧
       (ch.poisoned p 16 = none → (u.rd64 (p + 8)).getLsbD 63 = false → exec .cmdSignalFput s = .next (answerCmd { takeCmd s q with
         chip := (syncAt u .fput p (BitVec.ofNat 64 (word64 c.bytes 2)) (BitVec.ofNat 64 (word64 c.bytes 3)) by').2 } c 0 0 [])) ∧
       (ch.poisoned p 16 = none → (u.rd64 (p + 8)).getLsbD 63 = true →
         exec .cmdSignalFput s = .next (answerCmd (takeCmd s q) c 0x0D 0 []))) ∧
     (word64 c.bytes 1 % 2 = 1 → word64 c.bytes 2 % 8 = 0 →
       (ch.poisoned p 8 ≠ none → exec .cmdSignalDcdec s = .next (answerCmd (takeCmd s q) c 6 0 [])) ∧
       (ch.poisoned p 8 = none → (u.rd64 p).toNat % 2 ^ 32 ≠ 0 → exec .cmdSignalDcdec s = .next (answerCmd { takeCmd s q with
         chip := (syncAt u .dcdec p (BitVec.ofNat 64 (word64 c.bytes 2)) 0 by').2 } c 0 0 [])) ∧
       (ch.poisoned p 8 = none → (u.rd64 p).toNat % 2 ^ 32 = 0 →
         exec .cmdSignalDcdec s = .next (answerCmd (takeCmd s q) c 0x0D 0 [])))) ∧
   (∀ (s : State) (q : Nat) (c : Cmd) (bs : List Byte) (ch : Chip), Begins s q c 10 32 →
     cmdRead s.chip (s.net.queue q).asid (word64 c.bytes 2) 8 = (.ok bs, ch) →
     let cond := word64 c.bytes 1 % 4
     let x := BitVec.ofNat 64 (leNat bs)
     let v := BitVec.ofNat 64 (word64 c.bytes 3)
     let t := word64 c.bytes 1 / 2 ^ 32 % 2 ^ 32
     let till := if t = 0 then none else some (s.io.clock + t * 850)
     (condHolds cond x v = true → exec .cmdWaitevent s = .next (answerCmd { takeCmd s q with chip := ch } c 0 x.toNat [])) ∧
     (condHolds cond x v = false → exec .cmdWaitevent s = .next (addInprog (takeCmd s q) q ⟨s.net.nextCmd, c, (s.net.queue q).asid,
       (s.net.queue q).sup, .wait cond (BitVec.ofNat 64 (word64 c.bytes 2)) v till x, false⟩))) ∧
   ∀ (s : State) (q cond : Nat) (i : InCmd) (va v last : W64) (till : Option Nat) (bs : List Byte) (ch : Chip), s.io.phase = .running →
     (s.net.queue q).inprog.find? InCmd.isWait = some i → i.work = .wait cond va v till last →
     cmdRead s.chip i.asid va.toNat 8 = (.ok bs, ch) →
     let x := BitVec.ofNat 64 (leNat bs)
     let late := ∃ t, till = some t ∧ t ≤ s.io.clock
     (condHolds cond x v = true → exec (.waiteventPoll q) s = .next (finishCmd { s with chip := ch } q i 0 x.toNat [])) ∧
     (condHolds cond x v = false → late → exec (.waiteventPoll q) s = .next (finishCmd s q i 8 x.toNat [])) ∧
     (condHolds cond x v = false → ¬late → exec (.waiteventPoll q) s = .next (setWork s q i.no true (.wait cond va v till x)))) ∧
  ((∀ (s : State) (q : Nat) (c : Cmd) (ps : List (Nat × Nat × Nat)) (ch : Chip), Begins s q c 11 48 →
     let report := attestReport s (c.bytes.drop 16)
     report.length = 2612 ∧
     (rangeWalkHeld s.chip 0 (s.net.queue q).asid (word64 c.bytes 1) 2612 = false →
       ioRange s.chip (s.net.queue q).asid (word64 c.bytes 1) 2612 .store = (.ok ps, ch) → ioStoreHeld ch ps = false →
       exec .cmdAttest s = .next (answerCmd { takeCmd s q with
         chip := wrPieces (touchL2 ch (s.net.queue q).asid true ps) (ps.map (·.2)) report } c 0 2612 []))) ∧
   (∀ (s : State) (q : Nat) (c : Cmd) (img : List Byte) (ch : Chip), Begins s q c 12 32 → (s.net.queue q).sup = true →
     let t := word64 c.bytes 1 % 4
     let slot := fwSlot s.io t (word64 c.bytes 1 / 4 % 4)
     t ≠ 0 → word64 c.bytes 1 / 4 % 4 ≠ 3 → slot ≠ bootedSlot s.io t → word64 c.bytes 3 ≤ slotSize t →
     cmdRead s.chip (s.net.queue q).asid (word64 c.bytes 2) (word64 c.bytes 3) = (.ok img, ch) →
     let d := takeCmd s q
     let ok := fun rd => imageOk rd t s.io.fuseRoot (fusedSvn s.io t)
     let flash := fwWritten s.io t slot img
     let svn := (imgHdr (imgRd img)).svn
     let raised := if (word64 c.bytes 1).testBit 4 = true ∧ fusedSvn s.io t < svn
       then s.io.fuseSvn.setIfInBounds (t - 1) (max (fusedSvn s.io t) (min svn 63)) else s.io.fuseSvn
     (svn < fusedSvn s.io t → exec .cmdFwload s = .next (answerCmd d c 0x0A 0 [])) ∧
     (fusedSvn s.io t ≤ svn → ok (imgRd img) = false → exec .cmdFwload s = .next (answerCmd d c 9 0 [])) ∧
     (ok (imgRd img) = true → exec .cmdFwload s = .next (if ok (flashRd { s.io with flash := flash } (slotBase t slot)) = true
       then answerCmd { d with chip := ch, io := { s.io with flash := flash, fuseSvn := raised } } c 0 0 []
       else answerCmd { d with io := { s.io with flash := fwErased s.io t slot } } c 9 0 []))) ∧
   ∀ (s : State) (q : Nat) (c : Cmd), Begins s q c 13 8 →
     ((s.net.queue q).sup = true → s.io.frzPend = none →
       (edgeCycle s.io.refEdge ≤ s.io.clock → exec .cmdFreeze s =
         .next { takeCmd s q with chip := finishArrays s.chip, io := s.io.frozenBy 2 2 }) ∧
       (s.io.clock < edgeCycle s.io.refEdge → exec .cmdFreeze s =
         .next { takeCmd s q with io := { s.io with frzPend := some (s.io.refEdge, 2) } })) ∧
     ((s.net.queue q).sup = false → exec .cmdFreeze s = .next (answerCmd (takeCmd s q) c 3 0 [])))

/-- The completion record of a launch that is over is written to its ring after the gathered bits of its address space, then its slot
is free (03 R64, R65, R67); an event ring whose oldest unsent record has waited for TIMER us sends its records in an EVENT frame
(03 R69). Lines that claims hold are a premise: there the record waits. FRAMES counts a frame to the part's own rank too (log
115). -/
def Obligations.CompletionAndEventTimer : Prop :=
  (∀ (s t : State) (slot : Nat) (l : Launch), s.io.phase = .running → s.chip.launches.find? slot = some l →
    launchOver s.chip slot l = true → (s.net.ring l.ring).en = true → gatheredHeld s.chip (fun e => e.asid == l.asid) = false →
    ringHeld s l.ring = false →
    let f : State := { s with chip := flushGathered s.chip fun e => e.asid == l.asid }
    ringWrite f l.ring (completionBytes f.chip.timebase l) = (.ok, t) →
    exec (.completionRecordWrite slot) s = .next (ringEvents { t with chip := freeSlot t.chip slot } l.ring) ∧
    (freeSlot t.chip slot).launches.find? slot = none) ∧
  ∀ (s : State) (n clock : Nat) (b : List Byte) (rest : List (Nat × List Byte)), s.io.phase = .running →
    let r := s.net.ring n
    r.unsent = (clock, b) :: rest → clock + r.timer * 850 ≤ s.io.clock → (r.drank = ownRank s ∨ (s.net.rank r.drank).pmask ≠ 0) →
    exec (.eventTimerExpiry n) s = .next (sendMsg { s with net := s.net.setRing n { r with
        unsent := r.unsent.drop 128, frames := bump r.frames } } r.drank r.stream 6 true false 0 n 0
      ((r.unsent.take 128).flatMap (·.2)))

/-! ## Task units (04 R90 to R107, 05 R115 to R136) -/

/-- A core that asks for work while its die's bind slot is free, no adoption waits for it and none ahead of it is served, and whose
entry's crew fits, binds the crew of the entry's task, here one that has no saved image: one context for each member, on the free
contexts of lowest number, ready after 16 cycles; every other context stands, the slot is used, and the core is the last to have
asked (04 R91, R97, R98). Once 16 cycles have passed every context of the crew may issue (R91). -/
def Obligations.CoreAsksAndBinds : Prop :=
  (∀ (s : State) (d c : Nat) (k : Take) (l : Launch), s.io.phase = .running → (s.chip.die d).slotUsed = false →
    (s.chip.die d).adopting = [] → takeFor s.chip d c = some k → freeCtxs (s.chip.core d c) ≠ [] →
    (∀ j ∈ ((List.range 16).map fun k => ((s.chip.die d).lastAsk + 1 + k) % 16).takeWhile (· != c), askServed s.chip d j = false) →
    let task := k.entry.task
    s.chip.launchOf task = some l → takeHeld s.chip d task = false → recState (s.chip.recRd task 0) = stReady →
    (s.chip.recRd task 0).getLsbD 57 = false →
    ∃ t cr, exec (.coreWorkAsk d c) s = .next t ∧ (t.chip.die d).lastAsk = c ∧ (t.chip.die d).slotUsed = true ∧
      (t.chip.core d c).crews.find? task = some cr ∧
      cr.nt = l.members.length ∧ cr.ctxs = (List.range cr.nt).zip (freeCtxs (s.chip.core d c)) ∧
      (∀ p ∈ cr.ctxs, ∃ x, t.chip.ctx? d c p.2 = some x ∧ x.task = task ∧ x.member = p.1 ∧ x.readyAt = s.chip.now + 16) ∧
      ∀ y x, s.chip.ctx? d c y = some x → t.chip.ctx? d c y = some x) ∧
  (∀ (s : State) (d c : Nat), (s.chip.die d).slotUsed = true ∨ (s.chip.die d).adopting ≠ [] → exec (.coreWorkAsk d c) s = .next s) ∧
  ∀ (s : State) (d c task : Nat) (cr : Crew), s.io.phase = .running → (s.chip.core d c).crews.find? task = some cr →
    (∀ p ∈ cr.ctxs, ∃ x, s.chip.ctx? d c p.2 = some x ∧ x.readyAt ≤ s.chip.now) →
    ∃ t, exec (.crewBindingComplete d c task) s = .next t ∧ ∀ p ∈ cr.ctxs, ∃ x, t.chip.ctx? d c p.2 = some x ∧ x.readyAt = 0

/-- When the entries of a die's queues age, those of levels 0 to 5 that have waited 65,536 cc join the next level's tail, and their
wait starts anew; of the entries that join a level in one cycle those that rise stand first, then by ascending task id; levels 6
and 7 lose none (04 R95, R96). -/
def Obligations.AgeingRaisesLevels : Prop :=
  ∀ (s : State) (d : Nat), s.io.phase = .running →
    ∃ t, exec (.ageingRise d) s = .next t ∧ t.net = s.net ∧ t.io = s.io ∧
      ∀ lv < 8,
        let stay := ((s.chip.die d).queues.getD lv []).filter fun e => !(decide (lv < 6) && aged s.chip e)
        let up := if 1 ≤ lv ∧ lv ≤ 6 then (((s.chip.die d).queues.getD (lv - 1) []).filter (aged s.chip)).map fun e =>
            { e with since := s.chip.now, enq := s.chip.now, rose := true }
          else []
        (t.chip.die d).queues.getD lv [] = if up = [] then stay
          else stay.filter (fun e => e.enq != s.chip.now) ++ sortBy QEnt.rank (stay.filter (fun e => e.enq == s.chip.now) ++ up)

/-- A PREEMPT of MODE 0 or 1 saves a crew once it has come to rest, with MODE 1 held, and the core chooses again (04 R101); a crew
that is saved is gone from its core with all its contexts (11 R292). -/
def Obligations.CrewSaveFreesTheCrew : Prop :=
  (∀ (s : State) (d c task : Nat) (l : Launch) (cr : Crew) (held : Bool), s.io.phase = .running → s.chip.launchOf task = some l →
    s.chip.findCrew task = some (d, c, cr) → l.preempting = some held → cr.moveTo = none → cr.saving = true →
    crewQuiet s.chip d c cr (fun t => taskSlot t == taskSlot task) = true →
    exec (.crewSave task) s = .next { s with
      chip := idleChoice (saveCrew (crewBoundary s.chip d c cr) d c task held true) d c }) ∧
  ∀ (s t : Chip) (d c task : Nat) (l : Launch) (cr : Crew) (held again : Bool), s.launchOf task = some l →
    (s.core d c).crews.find? task = some cr → cr.task = task →
    let x := cr.ctxs.foldl (fun s p => cancelDeferrals s d c p.2) s
    storeSegs x d l.asid task (l.saveVa task) (crewSegs x.now (x.core d c) l cr) = .ok t →
    let u := saveCrew s d c task held again
    (u.core d c).crews.find? task = none ∧ ∀ p ∈ cr.ctxs, u.ctx? d c p.2 = none

/-- The die's bind slot, while it is free, goes to the oldest adoption that can be bound, one of an UNSTARTED task or one whose crew
has come to rest on its old core: an UNSTARTED task's crew is bound on the helper's core, on the contexts reserved for it, and
waits no longer (04 R91, R98, 05 R125); a crew at rest elsewhere is saved there and bound here (R125), unless its task has ended
(R130). That a crew not yet at rest does not take the slot is the model's reading (log 125). -/
def Obligations.AdoptedCrewsBind : Prop :=
  (∀ (s : State) (d : Nat) (p : PendAdopt) (l : Launch) (r : Reserved), s.io.phase = .running →
    slotAdoption s.chip d = some p → p.moveFrom = none → s.chip.launchOf p.task = some l → s.chip.taskEnded p.task = false →
    (s.chip.core d p.core).reserved.find? (fun (r : Reserved) => r.task == p.task) = some r → (s.chip.recRd p.task 0).getLsbD 57 = false →
    ∃ t cr, exec (.adoptedCrewBind d) s = .next t ∧ (t.chip.die d).adopting = (s.chip.die d).adopting.erase p ∧
      (t.chip.die d).slotUsed = true ∧ (t.chip.core d p.core).crews.find? p.task = some cr ∧ cr.nt = l.members.length ∧
      cr.ctxs = (List.range cr.nt).zip r.ctxs ∧
      ∀ q ∈ cr.ctxs, ∃ x, t.chip.ctx? d p.core q.2 = some x ∧ x.task = p.task ∧ x.readyAt = s.chip.now + 16) ∧
  (∀ (s : State) (d d0 c0 : Nat) (p : PendAdopt) (l : Launch) (cr : Crew), s.io.phase = .running →
    slotAdoption s.chip d = some p → p.moveFrom = some (d0, c0) → s.chip.launchOf p.task = some l →
    (s.chip.core d0 c0).crews.find? p.task = some cr →
    crewQuiet s.chip d0 c0 cr (· == p.task) = true ∧ l.killed = false ∧
    let b := crewBoundary s.chip d0 c0 cr
    let v := saveCrew b d0 c0 p.task false false
    let st := recState (b.recRd p.task 0)
    let host := w64Get (b.recRd p.task 8) 0 32
    let r := p.res b d
    let y := (dropPend v d p).recSetState p.task st
    let z := recordBound (y.recWr p.task 8 (w64Put (y.recRd p.task 8) 0 32 host)) p.task st d p.core (r.ctxs.headD 0)
    let u := adoptArrived (bindCrew z d p.core l host p.saving ((v.recRd p.task 0).getLsbD 57) r) d p
    exec (.crewMigration d) s = .next { s with chip := if v.taskEnded p.task = true then adoptLapsed v d p else u }) ∧
  ∀ (s : State) (d : Nat), (s.chip.die d).slotUsed = true → exec (.adoptedCrewBind d) s = .next s ∧ exec (.crewMigration d) s = .next s

/-- The watchdog of a core fires once its count has reached a LIMIT that is not zero; the context it names, which no handler has taken
over, takes WATCHDOG (0x0D) in the supervisor handler, never in the user handler, at the bundle then due, and the count starts
again (04 R107, 11 R280, R296). -/
def Obligations.WatchdogFires : Prop :=
  (∀ (s : State) (d c x : Nat) (k : Ctx), s.io.phase = .running → (s.chip.core d c).wdLimit ≠ 0 →
    (s.chip.core d c).wdLimit ≤ (s.chip.core d c).wdCount → watchdogCtx (s.chip.core d c) = some x → s.chip.ctx? d c x = some k →
    k.spare = none → k.main.hold = none → k.main.hm = 0 → vecEn k.main.stvec = true →
    ∃ t k', exec (.watchdogFire d c) s = .next t ∧ (t.chip.core d c).wdCount = 0 ∧ t.chip.ctx? d c x = some k' ∧
      k'.main.pc = vecAddr k.main.stvec ∧ k'.main.hm = 2 ∧ w64Get k'.main.cause 0 8 = 0x0D ∧ k'.main.trapa = k.main.pc ∧
      k'.main.frozenAt = none ∧ k'.main.block = none ∧ k'.main.s = k.main.s ∧ k'.main.c = k.main.c ∧ k'.main.q = k.main.q ∧
      k'.main.t = k.main.t ∧ k'.v = k.v ∧ k'.k = k.k ∧ k'.h = k.h ∧ k'.f = k.f) ∧
  ∀ (s : State) (d c : Nat), (s.chip.core d c).wdLimit = 0 ∨ (s.chip.core d c).wdCount < (s.chip.core d c).wdLimit →
    exec (.watchdogFire d c) s = .next s

/-- The chain walk of a blocked context (05 R122): an object without owner parks it, with the retry timer of 4,096 cc armed after a
NACK; a chain that leads to its own task is ADOPTCYCLE (0x09), unless the wait has been satisfied meanwhile (R123); an owner that
RUNS is boosted and the waiter parked; an adoptable owner that fits is adopted, with what it fits in, and the waiter parked. Where
claims hold the owner's record the walk waits. When the timer expires the wait is satisfied (R128), and a walk that still runs
goes on. -/
def Obligations.ChainWalkAndRetry : Prop :=
  (∀ (s : State) (d c x : Nat) (k : Ctx) (b : Block), s.io.phase = .running → s.chip.ctx? d c x = some k → k.main.block = some b →
    b.walk = true →
    let w : HalfId := ⟨d, c, x, false⟩
    let e := exec (.chainWalk d c x) s
    (b.owner = 0 → e = .next { s with chip := park s.chip w }) ∧
    (b.owner ≠ 0 → s.chip.recHeld b.owner = true → e = .next s) ∧
    (b.owner ≠ 0 → s.chip.recHeld b.owner = false → s.chip.storeHeld (lineOf b.p) = false → s.chip.taskEnded b.owner = false →
      (b.owner = k.task → b.done = true → e = .next { s with chip := park s.chip w }) ∧
      (b.owner = k.task → b.done = false → e = .next { s with
        chip := takeTrap (cancelWait s.chip w) w ⟨0x09, 0, b.va, 7, 0⟩ false ⟨b.word, 0, b.resid⟩ }) ∧
      ∀ l o, s.chip.launchOf k.task = some l → s.chip.launchOf b.owner = some o → l.asid = o.asid → b.owner ≠ k.task →
        let y := s.chip.recRead b.owner
        let r := y.recRd b.owner 0
        (recState r = stRunning → e = .next { s with chip := park (boost y b.owner) w }) ∧
        ∀ fit, recState r = stUnstarted → r.getLsbD 58 = false → adoptPending y b.owner = false → (y.core d c).adopt.length < 8 →
          adoptFits y d c b.owner stUnstarted = some fit →
          e = .next { s with chip := park (adoptTask y w k.task b.owner stUnstarted fit) w })) ∧
  (∀ (s : Chip) (d c x : Nat) (k : Ctx) (b : Block), s.ctx? d c x = some k → k.main.block = some b →
    ∃ k', (park s ⟨d, c, x, false⟩).ctx? d c x = some k' ∧
      (b.done = true → k'.main.block = none ∧ k'.main.retryAt = k.main.retryAt) ∧
      (b.done = false → k'.main.block = some { b with walk := false } ∧
        k'.main.retryAt = if b.deferred then none else some (k.main.retryAt.getD (s.now + 4096)))) ∧
  ∀ (s : State) (d c x at_ : Nat) (k : Ctx), s.io.phase = .running → s.chip.ctx? d c x = some k → k.main.retryAt = some at_ →
    at_ ≤ s.chip.now →
    ∃ t k', exec (.nackRetryExpiry d c x 0) s = .next t ∧ t.chip.ctx? d c x = some k' ∧ k'.main.retryAt = none ∧
      k'.main.block = k.main.block.bind fun (b : Block) => if b.walk then some { b with done := true } else none

/-- An end notice is processed at its slice once every effect of the ended task has performed: each deferral of the slice is resolved
as R133 says, and the notice is gone (05 R132); claimed lines hold it. A queue's flush timer that has run out spawns a node for
the records that wait (R115, R116). -/
def Obligations.EndNoticesAndNodeTimers : Prop :=
  (∀ (s : State) (d slice task : Nat) (l : Launch), s.io.phase = .running → s.chip.launches.find? (taskSlot task) = some l →
    (32 * d + slice, task) ∈ l.notices → taskQuiet s.chip task = true →
    let ds := (s.chip.die d).deferrals.filter fun (f : Deferral) => f.slice == slice
    (∀ f ∈ ds, s.chip.storeHeld (lineOf f.p) = false) →
    let r := ds.foldl (fun s (f : Deferral) => resolveEnded s f.kind f.p f.va f.asid task) s.chip
    exec (.endNotice d slice task) s = .next { s with chip := r.modLaunch (taskSlot task) fun l =>
      { l with notices := l.notices.erase (32 * d + slice, task) } }) ∧
  (∀ (s : State) (d slice task : Nat), taskQuiet s.chip task = false → exec (.endNotice d slice task) s = .next s) ∧
  ∀ (s : State) (d slice p : Nat) (t : FlushTimer), s.io.phase = .running → timerOf (s.chip.die d) slice p = some t →
    (t.waiting = false → t.fireAt ≤ s.chip.now → s.chip.storeHeld (lineOf p) = false →
      exec (.nodeFlushTimer d slice p) s = .next { s with chip := nodeCheck (disarm s.chip p) p t.va t.asid (nodeCount s.chip p t.asid) true }) ∧
    (s.chip.now < t.fireAt → exec (.nodeFlushTimer d slice p) s = .next s)

/-! ## Bundles, loads, stores, answers (06 R151 to R160, 08 R204 to R225, 12 R298 to R313) -/

/-- A bundle of one S, V or X instruction that computes retires: the registers that the instruction writes take their values, its
flags enter FSTAT, the landing count and the pc advance, and nothing else of the context, of any other context or of memory
changes (06 R152, 08 R205, 10 R271). A header with a reserved bit set is ILLEGAL (0x02; 12 R314). -/
def Obligations.ComputingBundlesRetire : Prop :=
  (∀ (s : State) (d c x n : Nat) (k : Ctx) (cr : Crew) (b : Bundle) (y : Chip) (i : Irnov.Ins) (out : SlotOut),
    Issues s d c x n k cr b y → b.ins k cr n = .ok i → computed k i = some out →
    (insWrites i).eraseDups.length = (insWrites i).length → (n ≤ 4 ∨ n = 6 → out.flags &&& gTe k.main.gmode = 0) →
    exec (.bundleIssue d c 0) s = .next { s with chip := y.afterRetire d c x (k.retired out y.now) }) ∧
  ∀ (s : State) (d c x : Nat) (k : Ctx) (cr : Crew) (b : Bundle) (y : Chip), Attempts s d c x k cr b y → b.badHeader = true →
    let z := y.modCore d c fun co => co.used false
    exec (.bundleIssue d c 0) s = .next { s with chip := takeTrap z ⟨d, c, x, false⟩ ⟨2, 0, 0, 0, 0⟩ false ⟨0, 0, b.pres⟩ }

/-- An integer instruction alone in a bundle: sD takes the value that R324 and R325 give from the operands as the bundle found them; a
write to s0 is discarded (06 R143); every other scalar register, predicate, vector and mask register stands. -/
def Obligations.IntegerInstructions : Prop :=
  ∀ (s : State) (d c x n dst : Nat) (k : Ctx) (cr : Crew) (b : Bundle) (y : Chip) (op : Irnov.AluOp) (a1 a2 : Irnov.Src),
    Issues s d c x n k cr b y → b.ins k cr n = .ok (.s (.alu op dst a1 a2)) →
    ∃ t k', exec (.bundleIssue d c 0) s = .next t ∧ t.chip.ctx? d c x = some k' ∧ t.chip.mem = y.mem ∧
      (dst ≠ 0 → dst < 160 →
        k'.main.rdS dst = aluOp op k.main.pc (k.main.rdS dst) (opv k.main a1) (opv k.main a2)) ∧
      k'.main.rdS 0 = 0 ∧ (∀ m, m ≠ dst → k'.main.rdS m = k.main.rdS m) ∧ k'.main.pc = k.main.pc + 32 ∧
      k'.main.c = k.main.c ∧ k'.main.q = k.main.q ∧ k'.main.t = k.main.t ∧ k'.v = k.v ∧ k'.k = k.k ∧ k'.h = k.h ∧
      k'.main.fstat = k.main.fstat ∧ k'.main.gmode = k.main.gmode ∧ k'.main.mask = k.main.mask ∧ k'.f = k.f

/-- SYSW of a system register retires and writes it (12 R313): SRSEED seeds each engine's generator (10 R257), PTBASE the root, IMASKV
and EN of the address space (07 R187), DSTVEC and DTDELEG its default vectors (11 R280), WDOG the core's LIMIT, with the count at
0 (04 R106). The rows of the table of steps that name these writes are the issue of such a bundle. -/
def Obligations.SystemRegisterWrites : Prop :=
  ∀ (s : State) (d c x r : Nat) (k : Ctx) (cr : Crew) (b : Bundle) (y : Chip) (l : Launch) (a : Irnov.Src),
    Issues s d c x 2 k cr b y → (∀ bars nt, decodeSlot ⟨b, k.budget, bars, nt⟩ 2 = .ok (.s (.sysw r a))) →
    y.launchOf k.task = some l → (r < 0x100 ∨ l.level = 7) →
    let v := opv k.main a
    let sp := y.space k.main.asid.toNat
    ∃ t k', exec (.bundleIssue d c 0) s = .next t ∧ t.chip.ctx? d c x = some k' ∧ k'.main.pc = k.main.pc + 32 ∧
      t.chip.mem = y.mem ∧
      (r = 0x005 → exec (.srseedWrite d c 0) s = .next t ∧
        ∀ e : Fin 16, k'.gens[e] = seedOf (v.setWidth 32) e.val) ∧
      (r = 0x103 → exec (.ptbaseWrite d c 0) s = .next t ∧ t.chip.space k.main.asid.toNat = { sp with
        root := v &&& 0xFFFFFFFFFF000, imaskv := imaskWrite (v.toNat / 2 ^ 4 % 2 ^ 8), en := v.getLsbD 0 }) ∧
      (r = 0x104 → exec (.defaultVectorWrite d c 0) s = .next t ∧
        t.chip.space k.main.asid.toNat = { sp with dstvec := v &&& 0xFFFFFFFFFFE1 }) ∧
      (r = 0x105 → exec (.defaultVectorWrite d c 0) s = .next t ∧
        t.chip.space k.main.asid.toNat = { sp with dtdeleg := v &&& 0xFFFFFFFFFFFFDFFF }) ∧
      (r = 0x106 → exec (.wdogWrite d c 0) s = .next t ∧ (t.chip.core d c).wdCount = 0 ∧
        (t.chip.core d c).wdLimit = if 1 ≤ v.toNat % 2 ^ 32 ∧ v.toNat % 2 ^ 32 ≤ 65535 then 65536 else v.toNat % 2 ^ 32)

/-- The data of a load reaches its landing: memory's bytes with the core's held stores but the half's own later ones, where no L1 line
has come meanwhile, each part extended and placed as the instruction says (06 R155, 08 R204, R207, R210). A store at the head of
its bytes performs: memory holds its bytes and it leaves the store path (08 R207); of the contexts only an IFENCE that waited for
it may end. -/
def Obligations.LoadsAndStores : Prop :=
  (∀ (s : State) (d c x id : Nat) (k : Ctx) (l : Landing), s.io.phase = .running → s.chip.ctx? d c x = some k → x < 128 →
    k.landings.find? (fun (m : Landing) => m.id == id) = some l → l.hasData = false → l.dropped = false → l.spilled = false →
    arrivalBlocked s.chip d c k l = false →
    let put := fun (v : Vector W32 256) (p : LoadPart) => landPut v p.lane p.wide (extVal p.signed p.bytes (leNat
      (overlayPath (s.chip.core d c) (fun e => !e.later x l.spare l.seq) p.p (s.chip.rdMem p.p p.bytes))))
    ∃ t k' l', exec (.loadDataArrival d c x id []) s = .next t ∧ t.chip.ctx? d c x = some k' ∧ l' ∈ k'.landings ∧ l'.id = id ∧
      l'.hasData = true ∧ t.chip.mem = s.chip.mem ∧ (∀ m ∈ k.landings, m.id ≠ id → m ∈ k'.landings) ∧
      k'.main = { k.main with frozenAt := k'.main.frozenAt } ∧ k'.v = k.v ∧ k'.k = k.k ∧ k'.h = k.h ∧ k'.f = k.f ∧
      (∀ y, y ≠ x → t.chip.ctx? d c y = s.chip.ctx? d c y) ∧
      ((∀ p ∈ l.parts, p.home = true) → l'.data = l.parts.foldl put l.data) ∧
      ∀ p, l.parts = [p] → l1Find (s.chip.core d c).l1 (lineOf p.p) = none → l'.data = put l.data p) ∧
  (∀ (s : State) (d c k p : Nat) (e : PathEntry) (bs : List Byte) (rrpv : Option Nat), s.io.phase = .running →
    (s.chip.core d c).path[k]? = some e → e.op = .store p bs rrpv → pathReady s.chip d c k e = true →
    ∃ t, exec (.storePerform d c k []) s = .next t ∧ t.chip.rdMem p bs.length = bs ∧
      (∀ q n, q + n ≤ p ∨ p + bs.length ≤ q → t.chip.rdMem q n = s.chip.rdMem q n) ∧
      (t.chip.core d c).path = (s.chip.core d c).path.eraseIdx k ∧
      ∀ y, (t.chip.ctx? d c y).map Ctx.unfenced = (s.chip.ctx? d c y).map Ctx.unfenced) ∧
  ∀ (s : State) (d c k : Nat) (e : PathEntry), s.io.phase = .running → (s.chip.core d c).path[k]? = some e →
    pathReady s.chip d c k e = true →
    let z := s.chip.modCore d c fun co => { co with path := co.path.eraseIdx k }
    exec (.storePerform d c k []) s = .next { s with chip := settleIfences (performPath z d c e) d c }

/-- The walker of a core's miss puts the translation into the core's TLB and the die's shared TLB, and counts the miss and the walk
(07 R195, R196, R202); a page that the core's TLB holds already needs none, and a walk that ends in a protection fault or finds
nothing enters no TLB. Gathered accessed and dirty bits older than 2^20 cc are written back (07 R199): to a leaf entry that is
still valid and still maps the same frame, as A (bit 5) and D (bit 6) set; one that has changed since the walk keeps its value. -/
def Obligations.WalksAndGatheredBits : Prop :=
  ((∀ (s : State) (d c asid va : Nat) (e : TlbEnt), s.io.phase = .running → tlbFind (s.chip.core d c).dtlb asid va = none →
     tlbFind (s.chip.die d).stlb asid va = none → walk s.chip asid va = some e → permFail e.pte .load = none →
     walkHeld s.chip d (s.chip.core d c).dtlb asid va = false → (s.chip.core d c).dtlb.length < 512 →
     (s.chip.die d).stlb.length < 16384 →
     ∃ t, exec (.pageWalk d c asid va 0) s = .next t ∧ (t.chip.core d c).dtlb = e :: (s.chip.core d c).dtlb ∧
       (t.chip.die d).stlb = e :: (s.chip.die d).stlb ∧ (t.chip.core d c).walks = (s.chip.core d c).walks + 1 ∧
       (t.chip.core d c).tlbMiss = (s.chip.core d c).tlbMiss + 1 ∧ t.chip.mem = s.chip.mem ∧
       (t.chip.core d c).itlb = (s.chip.core d c).itlb ∧ ∀ x, t.chip.ctx? d c x = s.chip.ctx? d c x) ∧
   (∀ (s : State) (d c asid va : Nat) (e : TlbEnt), s.io.phase = .running → tlbFind (s.chip.core d c).itlb asid va = none →
     tlbFind (s.chip.die d).stlb asid va = none → walk s.chip asid va = some e → permFail e.pte .fetch = none →
     walkHeld s.chip d (s.chip.core d c).itlb asid va = false → (s.chip.core d c).itlb.length < 128 →
     (s.chip.die d).stlb.length < 16384 →
     ∃ t, exec (.pageWalk d c asid va 1) s = .next t ∧ (t.chip.core d c).itlb = e :: (s.chip.core d c).itlb ∧
       (t.chip.die d).stlb = e :: (s.chip.die d).stlb ∧ t.chip.mem = s.chip.mem ∧
       (t.chip.core d c).dtlb = (s.chip.core d c).dtlb ∧ ∀ x, t.chip.ctx? d c x = s.chip.ctx? d c x) ∧
   (∀ (s : State) (d c asid va : Nat), s.io.phase = .running → tlbFind (s.chip.core d c).dtlb asid va = none →
     tlbFind (s.chip.die d).stlb asid va = none → walkHeld s.chip d (s.chip.core d c).dtlb asid va = false →
     (∀ e, walk s.chip asid va = some e → (permFail e.pte .load).isSome = true) →
     ∃ t, exec (.pageWalk d c asid va 0) s = .next t ∧ (t.chip.core d c).dtlb = (s.chip.core d c).dtlb ∧
       (t.chip.core d c).itlb = (s.chip.core d c).itlb ∧ (t.chip.die d).stlb = (s.chip.die d).stlb ∧ t.chip.mem = s.chip.mem ∧
       (t.chip.core d c).walks = (s.chip.core d c).walks + 1 ∧ ∀ x, t.chip.ctx? d c x = s.chip.ctx? d c x) ∧
   (∀ (s : State) (d c asid va : Nat) (e : TlbEnt), tlbFind (s.chip.core d c).dtlb asid va = some e →
     exec (.pageWalk d c asid va 0) s = .next s) ∧
   ∀ (s : Chip) (asid va : Nat) (e : TlbEnt), walk s asid va = some e →
     e.asid = asid % 4096 ∧ e.vpn = va / 2 ^ e.size ∧ e.size ∈ [30, 21, 12] ∧ pteV e.pte = true ∧ (e.phys va).isSome = true) ∧
  ((∀ s : State, s.io.phase = .running →
     exec .gatheredBitsFlush s = .next { s with chip := flushGathered s.chip fun e => decide (e.since + 2 ^ 20 ≤ s.chip.now) }) ∧
   ∀ (s : Chip) (e : TlbEnt), e.gA = true ∨ e.gD = true →
     let x := s.rd64 e.pteP
     let same := pteV x = true ∧ pteFrame x = pteFrame e.pte ∧ ptePl x = ptePl e.pte ∧ pteDie x = pteDie e.pte
     (same → (writeBack s e).rd64 e.pteP = x ||| (if e.gA then 0x20 else 0) ||| (if e.gD then 0x40 else 0)) ∧
     (¬same → writeBack s e = s) ∧
     ∀ q, q + 8 ≤ e.pteP ∨ e.pteP + 8 ≤ q → (writeBack s e).rd64 q = s.rd64 q)

/-- An answer reaches a bundle held for it. A sync-object operation that waits is performed at the object's home: its value, grant or
status is the answer, or the half blocks, deferred or refused (05 R119). ADPIN and ADUNPIN are answered by the adapter table in
their turn, a request that comes after one of a later core or context in the same cycle not before the next (17 R431), HARVEST by
the TLBs (07 R199, 17 R432), an atomic once its lanes have performed (16 R413). -/
def Obligations.AnswersReachBundles : Prop :=
  (∀ (s : State) (d c x p : Nat) (k : Ctx) (o : SyncKind) (va v : W64) (b : Bundle) (rrpv : Option Nat), s.io.phase = .running →
    (s.chip.core d c).running = some x → s.chip.ctx? d c x = some k → k.main.hold = some ⟨.sync o p va v rrpv, none, b⟩ →
    let w : HalfId := ⟨d, c, x, false⟩
    let r : Requester := ⟨w, k.task, launchAsid s.chip k.task 0⟩
    (Req.sync o p va v rrpv).waits = true → opFree s.chip w r.asid (.sync o p va v rrpv) = true →
    (∀ a y, syncAt (s.chip.l2Access p rrpv) o p va v r = (.answer a, y) →
      exec (.waitingAnswerArrival d c 0) s = .next { s with chip := setAnswer y w a }) ∧
    (∀ owner y df z, syncAt (s.chip.l2Access p rrpv) o p va v r = (.wait owner, y) →
      (k.spare = none → y.recHeld k.task = false) → deferAt y o p va r = (df, z) →
      let block : Block := ⟨o, va, p, owner, df, true, b.word 7, b.pres &&& (k.main.resid.getD 0x7F ||| b.lit), false⟩
      exec (.waitingAnswerArrival d c 0) s = .next { s with chip := blockedDog (blockHalf z w block) w })) ∧
  ∀ (s : State) (d c x : Nat) (k : Ctx) (q : Req) (b : Bundle), s.io.phase = .running →
    (s.chip.core d c).running = some x → s.chip.ctx? d c x = some k → k.main.hold = some ⟨q, none, b⟩ →
    let w : HalfId := ⟨d, c, x, false⟩
    let asid := k.main.asid.toNat % 4096
    (q = .harvest → gatheredHeld s.chip (fun e => e.asid == asid) = false → exec (.heldAnswerArrival d c 0) s = .next { s with
      chip := setAnswer (flushGathered s.chip fun e => e.asid == asid) w (.status 0 0) }) ∧
    (∀ key slot v t, q = .adpin key slot → s.chip.pastTurn (.adapters d) w.order = false →
      adpinAt (s.chip.die d).adapters asid key slot = (v, t) → exec (.heldAnswerArrival d c 0) s = .next { s with
        chip := setAnswer ((s.chip.takeTurn (.adapters d) w.order).modDie d fun y => { y with adapters := t }) w (.ok v) }) ∧
    (∀ tag v t, q = .adunpin tag → s.chip.pastTurn (.adapters d) w.order = false →
      adunpinAt (s.chip.die d).adapters asid tag = (v, t) → exec (.heldAnswerArrival d c 0) s = .next { s with
        chip := setAnswer ((s.chip.takeTurn (.adapters d) w.order).modDie d fun y => { y with adapters := t }) w (.status v 0) }) ∧
    ((∃ key slot, q = .adpin key slot) ∨ (∃ tag, q = .adunpin tag) → s.chip.pastTurn (.adapters d) w.order = true →
      exec (.heldAnswerArrival d c 0) s = .next s) ∧
    (∀ op width lanes vals f y, q = .atomic op width lanes → (∀ l ∈ lanes, rangeFree s.chip w (l.p, width) = true) →
      atomicMem s.chip op width false lanes = (vals, f, y) →
      exec (.heldAnswerArrival d c 0) s = .next { s with
        chip := setAnswer (dropL1 y w (lanes.map fun l => lineOf l.p)) w { Answer.ok 0 with lanes := vals, flags := f } })

/-- An async operation whose claimed lines are written and whose rows are acknowledged completes: it is gone, and its flag is set when
it is the last of its instruction (08 R225, 16 R400). The write of a claimed line stores its bytes and releases the claim (R222);
stores of the task units that waited for it follow (log 126). -/
def Obligations.AsyncOperations : Prop :=
  (∀ (s : State) (id : Nat) (a : Async) (cs : List Chunk), s.io.phase = .running → s.chip.async? id = some a → a.claims = [] →
    asyncTurn s.chip a = true → a.out = some cs → a.unacked = 0 → a.poison = none →
    ∃ t, exec (.asyncCompletion id) s = .next t ∧ t.chip.async? id = none) ∧
  (∀ (s : State) (id n : Nat) (a : Async) (k : Ctx), s.io.phase = .running → s.chip.async? id = some a → a.claims = [] →
    asyncTurn s.chip a = true → a.out = some [] → a.unacked = 0 → a.poison = none → a.ecode = 0 → a.sync = .flag n →
    (∀ b ∈ s.chip.asyncs, b.group = a.group → b.id = id) → a.bytes = 0 →
    s.chip.ctx? a.who.die a.who.core a.who.ctx = some k → k.task = a.who.task →
    ∃ t, exec (.asyncCompletion id) s = .next t ∧
      t.chip.ctx? a.who.die a.who.core a.who.ctx = some { k with f := k.f ||| BitVec.ofNat 32 (2 ^ (n % 32)) }) ∧
  ∀ (s : State) (id line : Nat) (a : Async) (cs : List Chunk), s.io.phase = .running → s.chip.async? id = some a →
    line ∈ a.claims → asyncTurn s.chip a = true → lineFree s.chip a line = true → a.out = some cs → a.plan.op = 0 →
    ∃ t a', exec (.claimedLineWrite id line) s = .next t ∧ t.chip.async? id = some a' ∧ line ∉ a'.claims ∧
      (s.chip.held = [] → t.chip.mem =
        (cs.filter fun k => k.glob && lineOf k.addr == line).foldl (fun m k => m.write memDflt k.addr k.bytes) s.chip.mem)

/-- POISON of an async operation that waits for a context's next bundle boundary is taken there: the supervisor handler is entered
with cause 0x0F, the granule's address in TRAPV and NORES set (11 R285), also where the context is blocked, and then it waits no
more (log 122). An array instruction ends once its latency is over, its flags enter FSTAT (10 R271, 15 R371), and with the last
one comes the data of loads behind the marks (15 R370). -/
def Obligations.BoundaryTrapsAndArrays : Prop :=
  (∀ (s : State) (d c x : Nat) (k : Ctx) (l : Launch) (v : W64), s.io.phase = .running → s.chip.ctx? d c x = some k →
    s.chip.launchOf k.task = some l → l.killed = false → k.readyAt = 0 → k.spare = none → k.main.hold = none →
    k.main.frozenAt = none → k.main.arrived = false → k.main.ended = false → k.main.wdog = false → k.main.poison = some v →
    k.main.hm = 0 → k.main.tdeleg.getLsbD 0x0F = false → vecEn k.main.stvec = true →
    ∃ t k', exec (.asyncPoisonTrap d c x) s = .next t ∧ t.chip.ctx? d c x = some k' ∧ k'.main.poison = none ∧ k'.main.block = none ∧
      k'.main.pc = vecAddr k.main.stvec ∧ k'.main.hm = 2 ∧ w64Get k'.main.cause 0 8 = 0x0F ∧ k'.main.cause.getLsbD 9 = true ∧
      k'.main.trapv = v ∧ k'.main.trapa = k.main.pc ∧ k'.main.s = k.main.s ∧ k'.main.c = k.main.c ∧ k'.main.q = k.main.q ∧
      k'.main.t = k.main.t ∧ k'.v = k.v ∧ k'.k = k.k ∧ k'.h = k.h ∧ k'.f = k.f) ∧
  ∀ (s : State) (d c k : Nat) (r : ArrayRun) (x : Ctx), s.io.phase = .running → (s.chip.core d c).arrays[k]? = some r →
    r.endAt ≤ s.chip.now → s.chip.ctx? d c r.ctx = some x → x.task = r.task → x.spare = none →
    ∃ t x', exec (.arrayInstructionEnd d c k) s = .next t ∧ (t.chip.core d c).arrays = (s.chip.core d c).arrays.eraseIdx k ∧
      t.chip.ctx? d c r.ctx = some x' ∧ x'.main.fstat = x.main.fstat ||| r.flags.setWidth 64 ∧
      x'.main = { x.main with fstat := x'.main.fstat, frozenAt := x'.main.frozenAt } ∧ x'.v = x.v ∧ x'.k = x.k ∧ x'.h = x.h ∧
      x'.f = x.f ∧ t.chip.mem = s.chip.mem ∧
      x'.landings = if (s.chip.core d c).arrays.eraseIdx k = [] then x.landings.map (fun l => { l with behind := false }) else x.landings

/-- The next thing that a die's placement engine does for the change at the head of a series (09 R232, R239 to R245): PLSET and the
PLACE command write the entry's image; a TLDP of a killed launch ends with status 7, one with a bad tile with status 5; one with a
step to do begins it, unless eight others of the die are converting, and with none moves its tiles; an item that is not at the
head of its entry's series waits. -/
def Obligations.ConversionSteps : Prop :=
  ∀ (s : State) (d id : Nat) (i : SeriesItem), s.io.phase = .running → s.chip.series? d id = some i →
    let m := fun mesh => meshOf mesh
    (seriesHead s.chip d i = false → exec (.conversionStep d id) s = .next s) ∧
    (seriesHead s.chip d i = true →
      (∀ q n image, i.op = .place q n image →
        ∃ t, exec (.conversionStep d id) s = .next t ∧ t.chip = writeImage (dropSeries s.chip d i.id) d i.asid i.entry image ∧
          t.chip.series? d id = none) ∧
      (∀ bar demand mesh bad ts, i.op = .tldp bar demand mesh bad ts → i.axis = none → seriesKilled s.chip i = true →
        exec (.conversionStep d id) s = .next { s with chip := endTldp s.chip d i 7 0 0 }) ∧
      (∀ bar demand mesh ts, i.op = .tldp bar demand mesh true ts → i.axis = none → seriesKilled s.chip i = false →
        exec (.conversionStep d id) s = .next { s with chip := endTldp s.chip d i 5 0 0 }) ∧
      ∀ bar demand mesh ts, i.op = .tldp bar demand mesh false ts → i.axis = none → seriesKilled s.chip i = false →
        (∀ a, nextAxis (s.chip.pent d i.asid i.entry) demand = some a → converting s.chip d i = true ∨ running s.chip d < 8 →
          exec (.conversionStep d id) s = .next { s with chip := stepStart s.chip d i (m mesh) demand a }) ∧
        (∀ a, nextAxis (s.chip.pent d i.asid i.entry) demand = some a → converting s.chip d i = false → 8 ≤ running s.chip d →
          exec (.conversionStep d id) s = .next s) ∧
        (nextAxis (s.chip.pent d i.asid i.entry) demand = none → tilesHeld s.chip d i (m mesh) ts = false →
          exec (.conversionStep d id) s = .next { s with
            chip := loadTiles (setPlaceBits s.chip d i.asid i.entry 62 1 0) d i (m mesh) ts }))

/-! ## Registers, homes, traps, the return from a handler, the watchdog, the read-out lock (03 R82, 04 R106, 07 R185, R186, 11 R276 to
R282, 12 R304) -/

/-- s0, c0, k0 and q0 (12 R304): they read as zero and as all true (06 R143), a write to one of them changes nothing and is no write
for the two-writers rule, so that two slots of one bundle may name s0. -/
def Obligations.HardwiredRegisters : Prop :=
  (∀ h : Half, h.rdS 0 = 0 ∧ h.rdC 0 = true ∧ h.rdQ 0 = 0xFFFF ∧ (∀ x, h.wrS 0 x = h) ∧ (∀ b, h.wrC 0 b = h) ∧ ∀ x, h.wrQ 0 x = h) ∧
  (∀ k : Ctx, k.rdK 0 = BitVec.allOnes 256 ∧ ∀ lanes bits, k.wrK 0 lanes bits = k) ∧
  (∀ (i : Irnov.Ins) (l : Loc), l ∈ insWrites i → l ≠ .s 0 ∧ l ≠ .c 0 ∧ l ≠ .q 0 ∧ l ≠ .k 0) ∧
  (∀ op a b, insWrites (.s (.alu op 0 a b)) = []) ∧
  ∀ (k : Ctx) (x : W64) (b : Bool) (q : BitVec 16) (lanes bits : BitVec 256),
    applyWrs k false [.s 0 x, .c 0 b, .q 0 q, .k 0 lanes bits] = k

/-- Homes (07 R185, R186): the offset x in a die's 72 GiB and the die d give one physical address, below 576 GiB, whose home is d and
whose device address is x, and every physical address comes about so; under an IMASK of all dies the IMASK view is the package
view. -/
def Obligations.AddressHomes : Prop :=
  (∀ d x, d < 8 → x < Config.homeBytes → let p := fromLocal d x
    p < Config.memBytes ∧ homeDie p = d ∧ p / 2 ^ 15 * 4096 + p % 4096 = x) ∧
  (∀ p, p < Config.memBytes → homeDie p < 8 ∧ homeSlice p < 32 ∧ fromLocal (homeDie p) (p / 2 ^ 15 * 4096 + p % 4096) = p) ∧
  ∀ d a, canonical 0xFF 2 d a = canonical 0xFF 0 d a

/-- A trap (11 R276 to R280) in a whole context: the trap state is written on every path, from the pc, the mode, the active mask and
what the trap names; then a handler is entered, with HM as its mode and its landing count at 0 (the landings already on their way
keep their distances: log 27), or the task ends. As a handler is entered every other register of the context stands. The return
from a handler (11 R282): HM becomes 0, the syllables of m, but for the literals of the bundle at TRAPA, leave RESID, and the
bundle at TRAPA is due again with the syllables that RESID keeps; with NORES set the task ends with CAUSE's code. -/
def Obligations.TrapEntryAndResume : Prop :=
  (∀ (s : Chip) (d c x : Nat) (k : Ctx) (e : Cause) (nores : Bool) (site : TrapSite),
     s.ctx? d c x = some k → k.spare = none → e.code < 256 → e.detail < 256 → e.slot < 8 → e.lane < 256 → site.kreg < 8 →
     let h := k.main
     let user := h.hm = 0 ∧ h.tdeleg.getLsbD e.code = true ∧ e.code ≠ 0x0D ∧ vecEn h.tvec = true
     let written := { k with main := { h.writeTrap false false e nores site with hold := none } }
     (w64Get written.main.cause 0 8 = e.code ∧ written.main.cause.getLsbD 8 = decide (h.hm = 1) ∧ written.main.cause.getLsbD 9 = nores ∧
       written.main.hm = h.hm ∧ written.main.cause.getLsbD 12 = false ∧ w64Get written.main.cause 16 8 = e.detail ∧
       w64Get written.main.cause 24 40 = 0 ∧ written.main.trapa = h.pc ∧ written.main.trapv = e.va ∧
       written.main.traps = (if e.slot = 0 then 0 else site.word.setWidth 64) ∧
       w64Get written.main.trapx 0 16 = h.mask.toNat ∧ w64Get written.main.trapx 16 3 = e.slot ∧
       w64Get written.main.trapx 32 3 = site.kreg ∧ w64Get written.main.trapx 35 7 = site.resid.toNat ∧
       w64Get written.main.trapx 56 8 = e.lane) ∧
     (∀ m vec, (h.hm ≠ 2 ∧ user ∧ m = 1 ∧ vec = vecAddr h.tvec) ∨ (h.hm ≠ 2 ∧ ¬user ∧ vecEn h.stvec = true ∧ m = 2 ∧ vec = vecAddr h.stvec) →
       ∃ k' ls, takeTrap s ⟨d, c, x, false⟩ e nores site = s.setCtx d c x k' ∧ k'.main.hm = m ∧
         (∀ i, i ≠ 10 → i ≠ 11 → k'.main.cause.getLsbD i = written.main.cause.getLsbD i) ∧
         let main : Half :=
           { h with cause := k'.main.cause, trapa := h.pc, traps := written.main.traps, trapx := written.main.trapx, trapv := e.va
                    pc := vec, hcount := 0, resid := none, resuming := none, hold := none }
         k' = { k with main := main, landings := ls }) ∧
     (h.hm = 2 ∨ (¬user ∧ vecEn h.stvec = false) →
       takeTrap s ⟨d, c, x, false⟩ e nores site = unclaimed (s.setCtx d c x written) ⟨d, c, x, false⟩ e.code)) ∧
  (∀ (s : Chip) (d c x : Nat) (k : Ctx) (m : BitVec 7), s.ctx? d c x = some k → k.spare = none →
     let lits := litsAt s ⟨d, c, x, false⟩ k.main (k.main.trapa &&& ~~~ 31)
     (k.main.cause.getLsbD 9 = false → ∃ k', resume s ⟨d, c, x, false⟩ m = s.setCtx d c x k' ∧ k'.main.hm = 0 ∧
       k'.main.trapx.extractLsb' 35 7 = k.main.trapx.extractLsb' 35 7 &&& ~~~ (m &&& ~~~ lits) ∧
       (∀ i, i < 35 ∨ 42 ≤ i → k'.main.trapx.getLsbD i = k.main.trapx.getLsbD i) ∧
       (∀ i, i ≠ 10 → i ≠ 11 → k'.main.cause.getLsbD i = k.main.cause.getLsbD i) ∧
       let main : Half :=
         { k.main with cause := k'.main.cause, trapx := k'.main.trapx, pc := k.main.trapa &&& ~~~ 31
                       resid := some (k'.main.trapx.extractLsb' 35 7), resuming := none }
       k' = { k with main := main }) ∧
     (k.main.cause.getLsbD 9 = true → resume s ⟨d, c, x, false⟩ m = unclaimed s ⟨d, c, x, false⟩ (w64Get k.main.cause 0 8)))

/-- WDOG (04 R106): LIMIT in bits 31:0, 0x40000000 at reset, written in supervisor mode only; values 1 to 65,535 write as 65,536; bits
63:32 read 0 and ignore writes; the watchdog fires after LIMIT cycles without retirement, and with LIMIT = 0 never. -/
def Obligations.WatchdogLimit : Prop :=
  (∀ d c, (State.reset.chip.core d c).wdLimit = 0x40000000) ∧ sysDenied 0x106 false = true ∧ sysDenied 0x106 true = false ∧
  (∀ (s : Chip) (w : HalfId) (k : Ctx), s.ctxOf? w = some k → sysRead s w k 0x106 = BitVec.ofNat 64 (s.coreOf w).wdLimit) ∧
  (∀ (s : Chip) (w : HalfId) (k : Ctx) (v : W64), s.ctxOf? w = some k → let low := v.toNat % 2 ^ 32
    sysRead (sysWrite s w 0x106 v) w k 0x106 = BitVec.ofNat 64 (if 1 ≤ low ∧ low ≤ 65535 then 65536 else low) ∧
      (sysRead (sysWrite s w 0x106 v) w k 0x106).toNat / 2 ^ 32 = 0) ∧
  (∀ (s : State) (d c : Nat), (s.chip.core d c).wdLimit = 0 ∨ (s.chip.core d c).wdCount < (s.chip.core d c).wdLimit →
    exec (.watchdogFire d c) s = .next s) ∧
  ∀ (s : State) (d c : Nat), s.io.phase = .running → (s.chip.core d c).wdLimit ≠ 0 → (s.chip.core d c).wdLimit ≤ (s.chip.core d c).wdCount →
    exec (.watchdogFire d c) s = .next { s with chip := fireWatchdog s.chip d c }

/-- The RDLOCK fuse (03 R82): the read-out window and RODATA read as zero in every state, and ROSEL ignores writes over the management
word and over the test access port; boot status but for its own bit, FRZ_TIME and the telemetry records read as without the fuse. -/
def Obligations.ReadoutLock : Prop :=
  (∀ (s : State) (off a : Nat) (w : W64), s.io.rdlock = true → readout s off = 0 ∧
    (0x100000 ≤ a → a < 0x110000 → mgmtRead s a = 0) ∧ mgmtWrite s 0x80100 w = (true, s) ∧
    (∃ t, exec .jtagRodata s = .next t ∧ t.io.jtag.dr = List.replicate 64 false) ∧
    ∃ t, exec (.jtagRoselect w.toNat) s = .next t ∧ t.io.rosel = s.io.rosel) ∧
  ∀ (s : State) (b : Bool), let t : State := { s with io := { s.io with rdlock := b } }
    (∀ a, a < 0x40000 → mgmtRead t a = mgmtRead s a) ∧ mgmtRead t 0x80008 = mgmtRead s 0x80008 ∧
    ∀ i, i ≠ 29 → s.io.frzCause < 16 →
      (mgmtRead t 0x80000).getLsbD i = (mgmtRead s 0x80000).getLsbD i
end

