-- ==== Sys2Proof/Laws/Maps.lean ====
section
/-! SUPPORT. Maps from numbers: what put, del and modify change and keep. -/

namespace Sys2Proof.Laws
open Sys2Proof.Machine

variable {α : Type}

theorem find_del_other {m : AMap α} {j k : Nat} (h : j ≠ k) : (m.del k).find? j = m.find? j := by
  induction m with
  | nil => rfl
  | cons e t ih =>
    obtain ⟨a, x⟩ := e
    simp only [AMap.del, List.filter_cons] at ih ⊢
    by_cases ha : a = k
    · have : a ≠ j := by omega
      simp only [ha, bne_self_eq_false, Bool.false_eq_true, if_false, AMap.find?]
      rw [if_neg (by omega)]
      simpa [AMap.del] using ih
    · simp only [bne_iff_ne, ne_eq, ha, not_false_eq_true, if_true, AMap.find?, ih]

theorem find_del_same {m : AMap α} {k : Nat} : (m.del k).find? k = none := by
  induction m with
  | nil => rfl
  | cons e t ih =>
    obtain ⟨a, x⟩ := e
    simp only [AMap.del, List.filter_cons] at ih ⊢
    by_cases ha : a = k
    · simp [ha, ih]
    · simp [ha, AMap.find?, ih]

theorem find_insert_same {m : AMap α} {k : Nat} {x : α} (h : m.find? k = none) : (m.insertSorted k x).find? k = some x := by
  induction m with
  | nil => simp [AMap.insertSorted, AMap.find?]
  | cons e t ih =>
    obtain ⟨a, y⟩ := e
    simp only [AMap.insertSorted]
    split
    · rename_i hlt
      have hne : a ≠ k := by omega
      simp only [AMap.find?, hne, if_false] at h ⊢
      exact ih h
    · simp [AMap.find?]

theorem find_insert_other {m : AMap α} {j k : Nat} {x : α} (h : j ≠ k) : (m.insertSorted k x).find? j = m.find? j := by
  induction m with
  | nil => simp [AMap.insertSorted, AMap.find?, Ne.symm h]
  | cons e t ih =>
    obtain ⟨a, y⟩ := e
    simp only [AMap.insertSorted]
    split
    · simp only [AMap.find?, ih]
    · simp [AMap.find?, Ne.symm h]

@[simp] theorem find_put_same {m : AMap α} {k : Nat} {x : α} : (m.put k x).find? k = some x :=
  find_insert_same find_del_same

theorem find_put_other {m : AMap α} {j k : Nat} {x : α} (h : j ≠ k) : (m.put k x).find? j = m.find? j := by
  rw [AMap.put, find_insert_other h, find_del_other h]

theorem find_put {m : AMap α} {j k : Nat} {x : α} : (m.put k x).find? j = if j = k then some x else m.find? j := by
  split
  · subst_vars; simp
  · rw [find_put_other ‹_›]

@[simp] theorem getD_put_same {m : AMap α} {k : Nat} {x d : α} : (m.put k x).getD k d = x := by simp [AMap.getD]

theorem getD_put_other {m : AMap α} {j k : Nat} {x d : α} (h : j ≠ k) : (m.put k x).getD j d = m.getD j d := by
  simp [AMap.getD, find_put_other h]

theorem find_modify_same {m : AMap α} {k : Nat} {f : α → α} : (m.modify k f).find? k = (m.find? k).map f := by
  simp only [AMap.modify]
  split <;> simp [*]

theorem find_modify_other {m : AMap α} {j k : Nat} {f : α → α} (h : j ≠ k) : (m.modify k f).find? j = m.find? j := by
  simp only [AMap.modify]
  split
  · exact find_put_other h
  · rfl

/-- What a map lists after an insertion. -/
theorem mem_insert {m : AMap α} {k : Nat} {x : α} {e : Nat × α} : e ∈ m.insertSorted k x ↔ e = (k, x) ∨ e ∈ m := by
  induction m with
  | nil => simp [AMap.insertSorted]
  | cons a t ih =>
    obtain ⟨a, y⟩ := a
    simp only [AMap.insertSorted]
    split
    · simp only [List.mem_cons, ih]; tauto
    · simp

/-- What a map lists after a put: the new pair, and the pairs of other keys. -/
theorem mem_put {m : AMap α} {k : Nat} {x : α} {e : Nat × α} : e ∈ m.put k x ↔ e = (k, x) ∨ (e ∈ m ∧ e.1 ≠ k) := by
  simp [AMap.put, mem_insert, AMap.del, List.mem_filter]

theorem del_insert {m : AMap α} {k : Nat} {x : α} : (m.insertSorted k x).del k = m.del k := by
  induction m with
  | nil => simp [AMap.insertSorted, AMap.del]
  | cons e t ih =>
    unfold AMap.insertSorted
    split
    · unfold AMap.del at *
      simp only [List.filter_cons, ih]
    · simp [AMap.del]

theorem put_put {m : AMap α} {k : Nat} {x y : α} : (m.put k x).put k y = m.put k y := by
  unfold AMap.put
  rw [del_insert]
  unfold AMap.del
  rw [List.filter_filter]; simp

end Sys2Proof.Laws
end

