-- ==== Sys2Proof/Laws/Memory.lean ====
section
/-! SUPPORT. Byte memories: what a write changes and keeps, the canonical form, numbers as bytes. -/

namespace Sys2Proof.Laws
open Sys2Proof.Machine

/-! ## Reading -/

theorem get_append {d : Byte} {m n : Memory} {a : Nat} (h : ∀ e ∈ m, e.1 ≠ a) :
    Memory.get d (m ++ n) a = Memory.get d n a := by
  induction m with
  | nil => rfl
  | cons e t ih =>
    simp only [List.cons_append, Memory.get]
    rw [if_neg (h e (by simp)), ih fun x hx => h x (by simp [hx])]

theorem get_of_absent {d : Byte} {m : Memory} {a : Nat} (h : ∀ e ∈ m, e.1 ≠ a) : Memory.get d m a = d := by
  have := get_append (d := d) (n := []) h
  simpa [Memory.get] using this

theorem get_append_left {d : Byte} {m n : Memory} {a : Nat} (h : ∀ e ∈ n, e.1 ≠ a) :
    Memory.get d (m ++ n) a = Memory.get d m a := by
  induction m with
  | nil => simpa [Memory.get] using get_of_absent h
  | cons e t ih => simp only [List.cons_append, Memory.get, ih]

theorem get_filter {d : Byte} {m : Memory} {a : Nat} {p : Host.Cell → Bool} (h : ∀ v, p (a, v) = true) :
    Memory.get d (m.filter p) a = Memory.get d m a := by
  induction m with
  | nil => rfl
  | cons e t ih =>
    by_cases hp : p e = true
    · simp only [List.filter_cons, hp, if_true, Memory.get, ih]
    · have : e.1 ≠ a := fun he => hp (by rw [← h e.2, ← he])
      simp only [List.filter_cons, hp, Memory.get, if_neg this]
      simpa using ih

theorem cellsOf_ge {d : Byte} {bs : List Byte} : ∀ {a : Nat} {e : Host.Cell}, e ∈ Memory.cellsOf d a bs →
    a ≤ e.1 ∧ e.1 < a + bs.length ∧ e.2 ≠ d := by
  induction bs with
  | nil => intro a e h; simp [Memory.cellsOf] at h
  | cons b t ih =>
    intro a e h
    simp only [Memory.cellsOf] at h
    split at h
    · have := ih h
      refine ⟨by omega, by simp; omega, this.2.2⟩
    · rcases List.mem_cons.mp h with h | h
      · subst h; simp_all
      · have := ih h
        refine ⟨by omega, by simp; omega, this.2.2⟩

theorem get_cellsOf {d : Byte} {bs : List Byte} : ∀ {a i : Nat}, i < bs.length →
    Memory.get d (Memory.cellsOf d a bs) (a + i) = bs.getD i d := by
  induction bs with
  | nil => intro a i h; simp at h
  | cons b t ih =>
    intro a i h
    simp only [Memory.cellsOf]
    cases i with
    | zero =>
      split
      · rename_i hb
        have : ∀ e ∈ Memory.cellsOf d (a + 1) t, e.1 ≠ a := fun e he => by have := cellsOf_ge he; omega
        simp only [Nat.add_zero]
        rw [get_of_absent this]; simp [hb]
      · simp [Memory.get]
    | succ i =>
      have hi : i < t.length := by simpa using h
      have e1 : a + (i + 1) = a + 1 + i := by omega
      split
      · rw [e1, ih hi]; simp
      · simp only [Memory.get]
        rw [if_neg (by omega), e1, ih hi]; simp

theorem write_mem {d : Byte} {m : Memory} {a : Nat} {bs : List Byte} {e : Host.Cell} (h : e ∈ m.write d a bs) :
    e ∈ m ∨ (a ≤ e.1 ∧ e.1 < a + bs.length) := by
  simp only [Memory.write, List.mem_append, List.mem_filter] at h
  rcases h with (h | h) | h
  · exact .inl h.1
  · have := cellsOf_ge h; exact .inr ⟨this.1, this.2.1⟩
  · exact .inl h.1

/-- A byte written reads as it was written. -/
theorem get_write_inside {d : Byte} {m : Memory} {a i : Nat} {bs : List Byte} (h : i < bs.length) :
    Memory.get d (m.write d a bs) (a + i) = bs.getD i d := by
  simp only [Memory.write, List.append_assoc]
  rw [get_append (by intro e he; simp at he; omega),
    get_append_left (by intro e he; simp at he; omega), get_cellsOf h]

/-- A write leaves every other address alone. -/
theorem get_write_outside {d : Byte} {m : Memory} {a x : Nat} {bs : List Byte} (h : x < a ∨ a + bs.length ≤ x) :
    Memory.get d (m.write d a bs) x = Memory.get d m x := by
  simp only [Memory.write, List.append_assoc]
  rcases h with h | h
  · rw [← List.append_assoc, get_append_left (by intro e he; simp at he; omega),
      get_append_left (by intro e he; have := cellsOf_ge he; omega), get_filter (by simp [h])]
  · rw [get_append (by intro e he; simp at he; omega), get_append (by intro e he; have := cellsOf_ge he; omega),
      get_filter (by simp [h])]

theorem read_length {d : Byte} {m : Memory} {a n : Nat} : (m.read d a n).length = n := by simp [Memory.read]

theorem read_getD {d : Byte} {m : Memory} {a n i : Nat} (h : i < n) (x : Byte) :
    (m.read d a n).getD i x = Memory.get d m (a + i) := by
  simp only [Memory.read, List.getD_eq_getElem?_getD, List.getElem?_map]
  rw [List.getElem?_range h]
  simp only [Option.map_some, Option.getD_some]
  rw [get_filter]
  intro v
  simp; omega

theorem read_eq {d : Byte} {m : Memory} {a n : Nat} : m.read d a n = (List.range n).map fun i => Memory.get d m (a + i) := by
  apply List.ext_getElem
  · simp [Memory.read]
  · intro i h1 h2
    have hi : i < n := by simpa [Memory.read] using h1
    have := read_getD (d := d) (m := m) (a := a) hi 0
    rw [List.getD_eq_getElem?_getD, List.getElem?_eq_getElem h1] at this
    simpa using this

/-- Bytes written read back. -/
theorem read_write_same {d : Byte} {m : Memory} {a : Nat} {bs : List Byte} : (m.write d a bs).read d a bs.length = bs := by
  rw [read_eq]
  apply List.ext_getElem
  · simp
  · intro i h1 h2
    simp only [List.getElem_map, List.getElem_range]
    rw [get_write_inside h2, List.getD_eq_getElem?_getD, List.getElem?_eq_getElem h2]
    rfl

/-- A read apart from the bytes written reads as before. -/
theorem read_write_apart {d : Byte} {m : Memory} {a b n : Nat} {bs : List Byte} (h : b + n ≤ a ∨ a + bs.length ≤ b) :
    (m.write d a bs).read d b n = m.read d b n := by
  rw [read_eq, read_eq]
  apply List.map_congr_left
  intro i hi
  rw [List.mem_range] at hi
  exact get_write_outside (by omega)

/-! ## The canonical form -/

theorem wf_cons {d : Byte} {e : Host.Cell} {t : Memory} :
    Memory.wf d (e :: t) = true ↔ e.2 ≠ d ∧ (∀ x ∈ t, e.1 < x.1) ∧ Memory.wf d t = true := by
  induction t generalizing e with
  | nil => simp [Memory.wf]
  | cons b t ih =>
    obtain ⟨a, v⟩ := e
    obtain ⟨c, w⟩ := b
    have hb := ih (e := (c, w))
    constructor
    · intro h
      have h' : v ≠ d ∧ a < c ∧ Memory.wf d ((c, w) :: t) = true := by
        simpa [Memory.wf, and_assoc] using h
      refine ⟨h'.1, ?_, h'.2.2⟩
      intro x hx
      rcases List.mem_cons.mp hx with hx | hx
      · subst hx; exact h'.2.1
      · have := (hb.mp h'.2.2).2.1 x hx
        have := h'.2.1
        simp at *; omega
    · rintro ⟨h1, h2, h3⟩
      have := h2 (c, w) (by simp)
      have h4 : v ≠ d ∧ a < c ∧ Memory.wf d ((c, w) :: t) = true := ⟨h1, this, h3⟩
      simpa [Memory.wf, and_assoc] using h4

theorem wf_append {d : Byte} {m n : Memory} (hm : m.wf d = true) (hn : n.wf d = true)
    (h : ∀ x ∈ m, ∀ y ∈ n, x.1 < y.1) : Memory.wf d (m ++ n) = true := by
  induction m with
  | nil => simpa using hn
  | cons e t ih =>
    rw [wf_cons] at hm
    rw [List.cons_append, wf_cons]
    refine ⟨hm.1, ?_, ih hm.2.2 fun x hx y hy => h x (by simp [hx]) y hy⟩
    intro x hx
    rcases List.mem_append.mp hx with hx | hx
    · exact hm.2.1 x hx
    · exact h e (by simp) x hx

theorem wf_filter {d : Byte} {m : Memory} (p : Host.Cell → Bool) (hm : m.wf d = true) : Memory.wf d (m.filter p) = true := by
  induction m with
  | nil => rfl
  | cons e t ih =>
    rw [wf_cons] at hm
    simp only [List.filter_cons]
    split
    · rw [wf_cons]
      exact ⟨hm.1, fun x hx => hm.2.1 x (List.mem_of_mem_filter hx), ih hm.2.2⟩
    · exact ih hm.2.2

theorem wf_cellsOf {d : Byte} {bs : List Byte} : ∀ {a : Nat}, Memory.wf d (Memory.cellsOf d a bs) = true := by
  induction bs with
  | nil => intro a; rfl
  | cons b t ih =>
    intro a
    simp only [Memory.cellsOf]
    split
    · exact ih
    · rename_i hb
      rw [wf_cons]
      exact ⟨hb, fun x hx => by have := cellsOf_ge hx; simp at *; omega, ih⟩

/-- A write keeps the canonical form. -/
theorem wf_write {d : Byte} {m : Memory} {a : Nat} {bs : List Byte} (h : m.wf d = true) : (m.write d a bs).wf d = true := by
  simp only [Memory.write]
  refine wf_append (wf_append (wf_filter _ h) wf_cellsOf ?_) (wf_filter _ h) ?_
  · intro x hx y hy
    have := cellsOf_ge hy
    simp at hx; omega
  · intro x hx y hy
    simp only [List.mem_append, List.mem_filter, decide_eq_true_eq] at hx hy
    rcases hx with hx | hx
    · omega
    · have := cellsOf_ge hx; omega

/-! ## Numbers as bytes -/

theorem leBytes_length : ∀ (n x : Nat), (leBytes n x).length = n
  | 0, _ => rfl
  | n + 1, x => by simp [leBytes, leBytes_length n]

theorem leNat_lt : ∀ (bs : List Byte), leNat bs < 256 ^ bs.length
  | [] => by simp [leNat]
  | b :: t => by
    have := leNat_lt t
    have hb := b.isLt
    simp only [leNat, List.length_cons, Nat.pow_succ]
    omega

theorem leNat_leBytes : ∀ (n x : Nat), leNat (leBytes n x) = x % 256 ^ n
  | 0, x => by simp [leBytes, leNat, Nat.mod_one]
  | n + 1, x => by
    simp only [leBytes, leNat, leNat_leBytes n, BitVec.toNat_ofNat]
    rw [show 256 ^ (n + 1) = 256 * 256 ^ n from by rw [Nat.pow_succ, Nat.mul_comm], Nat.mod_mul]

theorem leBytes_leNat : ∀ (bs : List Byte), leBytes bs.length (leNat bs) = bs
  | [] => rfl
  | b :: t => by
    have hb := b.isLt
    simp only [List.length_cons, leBytes, leNat]
    rw [show (b.toNat + 256 * leNat t) / 256 = leNat t by omega, leBytes_leNat t]
    congr 1
    apply BitVec.eq_of_toNat_eq
    simp only [BitVec.toNat_ofNat]
    omega

end Sys2Proof.Laws
end

