-- ==== Sys2Proof/Laws/State.lean ====
section
/-! SUPPORT. What each update of the state changes and what it keeps, field by field, so that no proof unfolds a record. -/

namespace Sys2Proof.Laws
open Sys2Proof.Machine

/-! ## The machine -/

@[simp] theorem modNet_net (s : State) (f : Net → Net) : (s.modNet f).net = f s.net := rfl
@[simp] theorem modNet_chip (s : State) (f : Net → Net) : (s.modNet f).chip = s.chip := rfl
@[simp] theorem modNet_io (s : State) (f : Net → Net) : (s.modNet f).io = s.io := rfl
@[simp] theorem modNet_agenda (s : State) (f : Net → Net) : (s.modNet f).agenda = s.agenda := rfl
@[simp] theorem modChip_net (s : State) (f : Chip → Chip) : (s.modChip f).net = s.net := rfl
@[simp] theorem modChip_chip (s : State) (f : Chip → Chip) : (s.modChip f).chip = f s.chip := rfl
@[simp] theorem modChip_io (s : State) (f : Chip → Chip) : (s.modChip f).io = s.io := rfl
@[simp] theorem modChip_agenda (s : State) (f : Chip → Chip) : (s.modChip f).agenda = s.agenda := rfl
@[simp] theorem modIo_net (s : State) (f : Io → Io) : (s.modIo f).net = s.net := rfl
@[simp] theorem modIo_chip (s : State) (f : Io → Io) : (s.modIo f).chip = s.chip := rfl
@[simp] theorem modIo_io (s : State) (f : Io → Io) : (s.modIo f).io = f s.io := rfl
@[simp] theorem modIo_agenda (s : State) (f : Io → Io) : (s.modIo f).agenda = s.agenda := rfl
@[simp] theorem modTx_chip (s : State) (k : Nat) (f : TxStream → TxStream) : (s.modTx k f).chip = s.chip := rfl
@[simp] theorem modTx_io (s : State) (k : Nat) (f : TxStream → TxStream) : (s.modTx k f).io = s.io := rfl
@[simp] theorem modTx_tx (s : State) (k : Nat) (f : TxStream → TxStream) :
    (s.modTx k f).net.tx = s.net.tx.put k (f (s.net.tx.getD k .init)) := rfl
@[simp] theorem modTx_rx (s : State) (k : Nat) (f : TxStream → TxStream) : (s.modTx k f).net.rx = s.net.rx := rfl
@[simp] theorem modTx_port (s : State) (k p : Nat) (f : TxStream → TxStream) : (s.modTx k f).net.port p = s.net.port p := rfl
@[simp] theorem modRx_chip (s : State) (k : Nat) (f : RxStream → RxStream) : (s.modRx k f).chip = s.chip := rfl
@[simp] theorem modRx_io (s : State) (k : Nat) (f : RxStream → RxStream) : (s.modRx k f).io = s.io := rfl
@[simp] theorem modRx_rx (s : State) (k : Nat) (f : RxStream → RxStream) :
    (s.modRx k f).net.rx = s.net.rx.put k (f (s.net.rx.getD k .init)) := rfl
@[simp] theorem modRx_tx (s : State) (k : Nat) (f : RxStream → RxStream) : (s.modRx k f).net.tx = s.net.tx := rfl
@[simp] theorem modRx_port (s : State) (k p : Nat) (f : RxStream → RxStream) : (s.modRx k f).net.port p = s.net.port p := rfl

@[simp] theorem countAt_chip (s : State) (p : Nat) (f : PortCounters → PortCounters) : (countAt s p f).chip = s.chip := by
  unfold countAt; split <;> rfl
@[simp] theorem countAt_io (s : State) (p : Nat) (f : PortCounters → PortCounters) : (countAt s p f).io = s.io := by
  unfold countAt; split <;> rfl
@[simp] theorem countAt_agenda (s : State) (p : Nat) (f : PortCounters → PortCounters) : (countAt s p f).agenda = s.agenda := by
  unfold countAt; split <;> rfl

/-! ## Ports -/

@[simp] theorem setPort_same (n : Net) (p : Nat) (x : Port) : (n.setPort p x).port p = x := by
  unfold Net.setPort Net.port; by_cases h : p = 0 <;> simp [h]
@[simp] theorem modPort_same (n : Net) (p : Nat) (f : Port → Port) : (n.modPort p f).port p = f (n.port p) := setPort_same ..
@[simp] theorem setPort_rx (n : Net) (p : Nat) (x : Port) : (n.setPort p x).rx = n.rx := by unfold Net.setPort; split <;> rfl
@[simp] theorem setPort_tx (n : Net) (p : Nat) (x : Port) : (n.setPort p x).tx = n.tx := by unfold Net.setPort; split <;> rfl
@[simp] theorem setPort_wire (n : Net) (p : Nat) (x : Port) : (n.setPort p x).wire = n.wire := by unfold Net.setPort; split <;> rfl
@[simp] theorem setPort_queues (n : Net) (p : Nat) (x : Port) : (n.setPort p x).queues = n.queues := by
  unfold Net.setPort; split <;> rfl
@[simp] theorem setPort_rings (n : Net) (p : Nat) (x : Port) : (n.setPort p x).rings = n.rings := by
  unfold Net.setPort; split <;> rfl
@[simp] theorem setPort_windows (n : Net) (p : Nat) (x : Port) : (n.setPort p x).windows = n.windows := by
  unfold Net.setPort; split <;> rfl
@[simp] theorem setPort_ranks (n : Net) (p : Nat) (x : Port) : (n.setPort p x).ranks = n.ranks := by
  unfold Net.setPort; split <;> rfl
@[simp] theorem setQueue_same (n : Net) (q : Nat) (x : CmdQueue) : (n.setQueue q x).queue q = x := by
  simp [Net.setQueue, Net.queue]
theorem setQueue_other (n : Net) {q r : Nat} (x : CmdQueue) (h : r ≠ q) : (n.setQueue q x).queue r = n.queue r := by
  simp [Net.setQueue, Net.queue, getD_put_other h]
@[simp] theorem modQueue_same (n : Net) (q : Nat) (f : CmdQueue → CmdQueue) : (n.modQueue q f).queue q = f (n.queue q) :=
  setQueue_same ..
@[simp] theorem setRing_same (n : Net) (q : Nat) (x : Ring) : (n.setRing q x).ring q = x := by simp [Net.setRing, Net.ring]
@[simp] theorem modRing_same (n : Net) (q : Nat) (f : Ring → Ring) : (n.modRing q f).ring q = f (n.ring q) := setRing_same ..
@[simp] theorem setWindow_same (n : Net) (q : Nat) (x : Window) : (n.setWindow q x).window q = x := by
  simp [Net.setWindow, Net.window]
@[simp] theorem setRank_same (n : Net) (q : Nat) (x : RankEnt) : (n.setRank q x).rank q = x := by simp [Net.setRank, Net.rank]

/-! ## Stacks -/

theorem vec_set_same {α : Type} {n : Nat} (v : Vector α n) {k : Nat} (x d : α) (h : k < n) :
    (v.setIfInBounds k x).getD k d = x := by simp [Vector.getD, h]
theorem vec_set_other {α : Type} {n : Nat} (v : Vector α n) {j k : Nat} (x d : α) (h : j ≠ k) :
    (v.setIfInBounds k x).getD j d = v.getD j d := by
  simp [Vector.getD, Array.getD_eq_getD_getElem?, Ne.symm h]

theorem stack_mod {i : Io} {k : Nat} (f : Stack → Stack) (h : k < 16) : (i.modStack k f).stack k = f (i.stack k) :=
  vec_set_same _ _ _ h
theorem stack_mod_other {i : Io} {j k : Nat} (f : Stack → Stack) (h : j ≠ k) : (i.modStack k f).stack j = i.stack j :=
  vec_set_other _ _ _ h

/-! ## Cores, dies, contexts -/

@[simp] theorem core_setCore_same (s : Chip) (d c : Nat) (x : Core) : (s.setCore d c x).core d c = x := by
  simp [Chip.core, Chip.setCore]
theorem core_setCore_other (s : Chip) {d c d' c' : Nat} (x : Core) (h : 16 * d' + c' ≠ 16 * d + c) :
    (s.setCore d c x).core d' c' = s.core d' c' := by simp [Chip.core, Chip.setCore, getD_put_other h]
@[simp] theorem setCore_dies (s : Chip) (d c : Nat) (x : Core) : (s.setCore d c x).dies = s.dies := rfl
@[simp] theorem setCore_mem (s : Chip) (d c : Nat) (x : Core) : (s.setCore d c x).mem = s.mem := rfl
@[simp] theorem setCore_launches (s : Chip) (d c : Nat) (x : Core) : (s.setCore d c x).launches = s.launches := rfl
@[simp] theorem setCore_asyncs (s : Chip) (d c : Nat) (x : Core) : (s.setCore d c x).asyncs = s.asyncs := rfl
@[simp] theorem setCore_now (s : Chip) (d c : Nat) (x : Core) : (s.setCore d c x).now = s.now := rfl
@[simp] theorem setCore_fresh (s : Chip) (d c : Nat) (x : Core) : (s.setCore d c x).fresh = s.fresh := rfl
@[simp] theorem setCore_poison (s : Chip) (d c : Nat) (x : Core) : (s.setCore d c x).poison = s.poison := rfl
@[simp] theorem setCore_aspace (s : Chip) (d c : Nat) (x : Core) : (s.setCore d c x).aspace = s.aspace := rfl
@[simp] theorem setCore_outbox (s : Chip) (d c : Nat) (x : Core) : (s.setCore d c x).outbox = s.outbox := rfl
@[simp] theorem setCore_rank (s : Chip) (d c : Nat) (x : Core) : (s.setCore d c x).rank = s.rank := rfl
@[simp] theorem modCore_same (s : Chip) (d c : Nat) (f : Core → Core) : (s.modCore d c f).core d c = f (s.core d c) :=
  core_setCore_same ..

@[simp] theorem die_setDie_same (s : Chip) (d : Nat) (x : Die) : (s.setDie d x).die d = x := by simp [Chip.die, Chip.setDie]
theorem die_setDie_other (s : Chip) {d d' : Nat} (x : Die) (h : d' ≠ d) : (s.setDie d x).die d' = s.die d' := by
  simp [Chip.die, Chip.setDie, getD_put_other h]
@[simp] theorem setDie_cores (s : Chip) (d : Nat) (x : Die) : (s.setDie d x).cores = s.cores := rfl
@[simp] theorem setDie_mem (s : Chip) (d : Nat) (x : Die) : (s.setDie d x).mem = s.mem := rfl
@[simp] theorem setDie_launches (s : Chip) (d : Nat) (x : Die) : (s.setDie d x).launches = s.launches := rfl
@[simp] theorem setDie_now (s : Chip) (d : Nat) (x : Die) : (s.setDie d x).now = s.now := rfl
@[simp] theorem setDie_asyncs (s : Chip) (d : Nat) (x : Die) : (s.setDie d x).asyncs = s.asyncs := rfl
@[simp] theorem modDie_same (s : Chip) (d : Nat) (f : Die → Die) : (s.modDie d f).die d = f (s.die d) := die_setDie_same ..

/-! Turns of one cycle. -/
@[simp] theorem takeTurn_core (s : Chip) (t : Turn) (n d c : Nat) : (s.takeTurn t n).core d c = s.core d c := rfl
@[simp] theorem takeTurn_die (s : Chip) (t : Turn) (n d : Nat) : (s.takeTurn t n).die d = s.die d := rfl
@[simp] theorem takeTurn_mem (s : Chip) (t : Turn) (n : Nat) : (s.takeTurn t n).mem = s.mem := rfl
/-- A place that has served a rank in this cycle is past every smaller one. -/
theorem pastTurn_takeTurn (s : Chip) (t : Turn) (r n : Nat) : (s.takeTurn t r).pastTurn t n = (decide (n < r) || s.pastTurn t n) := by
  simp [Chip.pastTurn, Chip.takeTurn]

@[simp] theorem ctx_setCtx_same (s : Chip) (d c x : Nat) (k : Ctx) : (s.setCtx d c x k).ctx? d c x = some k := by
  simp [Chip.ctx?, Chip.setCtx]
theorem ctx_setCtx_other (s : Chip) {d c x y : Nat} (k : Ctx) (h : y ≠ x) : (s.setCtx d c x k).ctx? d c y = s.ctx? d c y := by
  simp [Chip.ctx?, Chip.setCtx, find_put_other h]
theorem modCtx_some {s : Chip} {d c x : Nat} {k : Ctx} (f : Ctx → Ctx) (h : s.ctx? d c x = some k) :
    s.modCtx d c x f = s.setCtx d c x (f k) := by simp [Chip.modCtx, h]
theorem modHalf_some {s : Chip} {w : HalfId} {k : Ctx} (f : Half → Half) (h : s.ctxOf? w = some k) :
    s.modHalf w f = s.setCtx w.die w.core w.ctx (k.setHalf w.spare (f (k.half w.spare))) := modCtx_some _ h
@[simp] theorem half_setHalf_main (c : Ctx) (h : Half) : (c.setHalf false h).half false = h := rfl
theorem half_setHalf {c : Ctx} {sp : Bool} (h : Half) (hs : sp = false ∨ c.spare.isSome) : (c.setHalf sp h).half sp = h := by
  cases sp with
  | false => rfl
  | true =>
    have : c.spare.isSome = true := by simpa using hs
    simp [Ctx.setHalf, Ctx.half, this]

/-! ## Memory of the package -/

@[simp] theorem wrMem_mem (s : Chip) (p : Nat) (b : List Byte) : (s.wrMem p b).mem = s.mem.write memDflt p b := rfl
@[simp] theorem wrMem_cores (s : Chip) (p : Nat) (b : List Byte) : (s.wrMem p b).cores = s.cores := rfl
@[simp] theorem wrMem_dies (s : Chip) (p : Nat) (b : List Byte) : (s.wrMem p b).dies = s.dies := rfl
@[simp] theorem wrMem_launches (s : Chip) (p : Nat) (b : List Byte) : (s.wrMem p b).launches = s.launches := rfl
@[simp] theorem rdMem_wrMem_same (s : Chip) (p : Nat) (b : List Byte) : (s.wrMem p b).rdMem p b.length = b := read_write_same
theorem rdMem_wrMem_apart (s : Chip) {p q n : Nat} (b : List Byte) (h : q + n ≤ p ∨ p + b.length ≤ q) :
    (s.wrMem p b).rdMem q n = s.rdMem q n := read_write_apart h

@[simp] theorem rd64_wr64_same (s : Chip) (p : Nat) (x : W64) : (s.wr64 p x).rd64 p = x := by
  have h : (s.wr64 p x).rdMem p 8 = leBytes 8 x.toNat := by
    have := rdMem_wrMem_same s p (leBytes 8 x.toNat)
    rw [leBytes_length] at this
    exact this
  unfold Chip.rd64
  rw [h, leNat_leBytes]
  apply BitVec.eq_of_toNat_eq
  have := x.isLt
  simp only [BitVec.toNat_ofNat]
  omega

theorem rd64_wr64_apart (s : Chip) {p q : Nat} (x : W64) (h : q + 8 ≤ p ∨ p + 8 ≤ q) : (s.wr64 p x).rd64 q = s.rd64 q := by
  unfold Chip.rd64 Chip.wr64
  rw [rdMem_wrMem_apart _ _ (by rw [leBytes_length]; exact h)]

/-! ## Stores of the task units (08 R222) -/

/-- A store of a task unit reaches memory, or waits; the L2 of its home die and the gathered bits may follow it. -/
structure Wrote (s t : Chip) : Prop where
  now : t.now = s.now
  cores : t.cores = s.cores
  launches : t.launches = s.launches
  die : ∀ d, ∃ l2, t.die d = { s.die d with l2 := l2 }

theorem Wrote.rfl {s : Chip} : Wrote s s := ⟨Eq.refl _, Eq.refl _, Eq.refl _, fun d => ⟨(s.die d).l2, Eq.refl _⟩⟩
theorem Wrote.trans {s t u : Chip} (a : Wrote s t) (b : Wrote t u) : Wrote s u :=
  ⟨b.now.trans a.now, b.cores.trans a.cores, b.launches.trans a.launches, fun d => by
    obtain ⟨x, hx⟩ := a.die d
    obtain ⟨y, hy⟩ := b.die d
    exact ⟨y, by rw [hy, hx]⟩⟩
theorem Wrote.queues {s t : Chip} (a : Wrote s t) (d : Nat) : (t.die d).queues = (s.die d).queues := by
  obtain ⟨x, hx⟩ := a.die d; rw [hx]

theorem wrote_l2 (s : Chip) (d : Nat) (f : Die → AMap (List L2Line)) : Wrote s (s.modDie d fun x => { x with l2 := f x }) := by
  refine ⟨Eq.refl _, Eq.refl _, Eq.refl _, fun e => ?_⟩
  by_cases h : e = d
  · subst h; exact ⟨_, modDie_same ..⟩
  · exact ⟨_, die_setDie_other _ _ h⟩
theorem wrote_l2Access (s : Chip) (p : Nat) (r : Option Nat) : Wrote s (s.l2Access p r) := by
  unfold Chip.l2Access
  dsimp only
  split
  · exact wrote_l2 _ _ fun x => x.l2.put _ _
  · split
    · exact .rfl
    · exact wrote_l2 _ _ fun x => x.l2.put _ _
theorem wrote_wrMem (s : Chip) (p : Nat) (b : List Byte) : Wrote s (s.wrMem p b) := ⟨Eq.refl _, Eq.refl _, Eq.refl _, fun _ => ⟨_, Eq.refl _⟩⟩
theorem wrote_putLine (s : Chip) (a p : Nat) (b : List Byte) : Wrote s (s.putLine a p b) := by
  unfold Chip.putLine
  split
  · exact ⟨Eq.refl _, Eq.refl _, Eq.refl _, fun _ => ⟨_, Eq.refl _⟩⟩
  · exact wrote_wrMem ..
theorem wrote_fold {α : Type} {f : Chip → α → Chip} (h : ∀ s a, Wrote s (f s a)) (l : List α) : ∀ s, Wrote s (l.foldl f s) := by
  induction l with
  | nil => intro s; exact .rfl
  | cons a t ih => intro s; exact (h s a).trans (ih _)
theorem wrote_put (s : Chip) (a p : Nat) (b : List Byte) : Wrote s (s.put a p b) := by
  unfold Chip.put
  split
  · exact wrote_fold (fun _ _ => wrote_putLine ..) _ _
  · exact wrote_wrMem ..
theorem wrote_noteRec (s : Chip) (p : Nat) (e : TlbEnt) (w : Bool) : Wrote s (s.noteRec p e w) :=
  Wrote.trans (t := { s with gathered := gatherInto e w s.gathered })
    ⟨Eq.refl _, Eq.refl _, Eq.refl _, fun _ => ⟨_, Eq.refl _⟩⟩ (wrote_l2Access ..)
theorem wrote_recWr (s : Chip) (a o : Nat) (x : W64) : Wrote s (s.recWr a o x) := by
  unfold Chip.recWr
  split
  · exact (wrote_noteRec ..).trans (wrote_put ..)
  · exact .rfl
theorem wrote_relink (q : List QEnt) : ∀ s : Chip, Wrote s (s.relink q) := by
  induction q with
  | nil => intro s; exact .rfl
  | cons e t ih =>
    intro s
    unfold Chip.relink
    dsimp only
    refine Wrote.trans ?_ (ih _)
    repeat' split
    all_goals first | exact .rfl | exact wrote_recWr ..

end Sys2Proof.Laws
end

