-- ==== Sys2Proof/Laws/Words.lean ====
section
/-! SUPPORT. Words and fields: the bits of w64Put, of TRAPX and of the boot status word; the exclusive-or hash of homes. -/

namespace Sys2Proof.Laws
open Sys2Proof.Machine Sys2Proof.Irnov

theorem xor3_lt {a b c : Nat} (ha : a < 8) (hb : b < 8) (hc : c < 8) : a ^^^ b ^^^ c < 8 :=
  Nat.xor_lt_two_pow (n := 3) (Nat.xor_lt_two_pow (n := 3) ha hb) hc
theorem xor_cancel (d a b c : Nat) : (d ^^^ a ^^^ b ^^^ c) ^^^ a ^^^ b ^^^ c = d := by
  apply Nat.eq_of_testBit_eq
  intro i
  simp only [Nat.testBit_xor]
  cases d.testBit i <;> cases a.testBit i <;> cases b.testBit i <;> cases c.testBit i <;> rfl
theorem trapx_bits {m sl kr re la : Nat} (h1 : m < 2 ^ 16) (h2 : sl < 8) (h3 : kr < 8) (h4 : re < 128) (h5 : la < 256) :
    let x := BitVec.ofNat 64 (m + sl * 2 ^ 16 + kr * 2 ^ 32 + re * 2 ^ 35 + la * 2 ^ 56)
    w64Get x 0 16 = m ∧ w64Get x 16 3 = sl ∧ w64Get x 32 3 = kr ∧ w64Get x 35 7 = re ∧ w64Get x 56 8 = la := by
  unfold w64Get
  simp only [BitVec.toNat_ofNat]
  refine ⟨?_, ?_, ?_, ?_, ?_⟩ <;> omega
theorem put_toNat (x : W64) (lo len v : Nat) (h : lo + len ≤ 64) :
    (w64Put x lo len v).toNat = 2 ^ lo * (2 ^ len * (x.toNat / 2 ^ (lo + len)) + v % 2 ^ len) + x.toNat % 2 ^ lo := by
  unfold w64Put w64Get
  have hx := x.isLt
  generalize x.toNat = n at *
  have e1 : n = 2 ^ lo * (2 ^ len * (n / 2 ^ (lo + len)) + n / 2 ^ lo % 2 ^ len) + n % 2 ^ lo := by
    conv_lhs => rw [← Nat.div_add_mod n (2 ^ lo), ← Nat.div_add_mod (n / 2 ^ lo) (2 ^ len), Nat.div_div_eq_div_mul, ← pow_add]
  have pl : 0 < 2 ^ lo := by positivity
  have e2 : n - n / 2 ^ lo % 2 ^ len * 2 ^ lo + v % 2 ^ len * 2 ^ lo
      = 2 ^ lo * (2 ^ len * (n / 2 ^ (lo + len)) + v % 2 ^ len) + n % 2 ^ lo := by
    generalize n / 2 ^ (lo + len) = a at *
    generalize n / 2 ^ lo % 2 ^ len = b at *
    generalize n % 2 ^ lo = r at *
    generalize v % 2 ^ len = c
    subst e1
    have : 2 ^ lo * (2 ^ len * a + b) + r = b * 2 ^ lo + (2 ^ lo * (2 ^ len * a) + r) := by ring
    rw [this, Nat.add_sub_cancel_left]; ring
  have ha : n / 2 ^ (lo + len) < 2 ^ (64 - (lo + len)) := by
    rw [Nat.div_lt_iff_lt_mul (by positivity), ← pow_add]
    rw [show 64 - (lo + len) + (lo + len) = 64 by omega]; exact hx
  rw [BitVec.toNat_ofNat, e2, Nat.mod_eq_of_lt]
  have hv : v % 2 ^ len < 2 ^ len := Nat.mod_lt _ (by positivity)
  have hr : n % 2 ^ lo < 2 ^ lo := Nat.mod_lt _ pl
  have h1 : 2 ^ len * (n / 2 ^ (lo + len)) + v % 2 ^ len < 2 ^ (64 - lo) := by
    calc _ < 2 ^ len * (n / 2 ^ (lo + len)) + 2 ^ len := by omega
      _ = 2 ^ len * (n / 2 ^ (lo + len) + 1) := by ring
      _ ≤ 2 ^ len * 2 ^ (64 - (lo + len)) := Nat.mul_le_mul_left _ ha
      _ = 2 ^ (64 - lo) := by rw [← pow_add]; congr 1; omega
  calc _ < 2 ^ lo * (2 ^ len * (n / 2 ^ (lo + len)) + v % 2 ^ len) + 2 ^ lo := by omega
    _ = 2 ^ lo * (2 ^ len * (n / 2 ^ (lo + len)) + v % 2 ^ len + 1) := by ring
    _ ≤ 2 ^ lo * 2 ^ (64 - lo) := Nat.mul_le_mul_left _ h1
    _ = 2 ^ 64 := by rw [← pow_add]; congr 1; omega
theorem put_bit (x : W64) (lo len v i : Nat) (h : lo + len ≤ 64) :
    (w64Put x lo len v).getLsbD i = if lo ≤ i ∧ i < lo + len then v.testBit (i - lo) else x.getLsbD i := by
  rw [BitVec.getLsbD, put_toNat x lo len v h, Nat.testBit_two_pow_mul_add _ (Nat.mod_lt _ (by positivity)), Nat.testBit_two_pow_mul_add _ (Nat.mod_lt _ (by positivity))]
  rw [Nat.testBit_mod_two_pow, Nat.testBit_div_two_pow, Nat.testBit_mod_two_pow, BitVec.getLsbD]
  split
  · rename_i a; rw [if_neg (by omega)]; simp [a]
  · split
    · rename_i a b; rw [if_pos (by omega)]; simp [b]
    · rename_i a b; rw [if_neg (by omega)]; congr 1; omega
theorem get_ext (x y : W64) (lo len : Nat) (h : ∀ i, lo ≤ i → i < lo + len → x.getLsbD i = y.getLsbD i) : w64Get x lo len = w64Get y lo len := by
  unfold w64Get
  apply Nat.eq_of_testBit_eq
  intro i
  rw [Nat.testBit_mod_two_pow, Nat.testBit_mod_two_pow, Nat.testBit_div_two_pow, Nat.testBit_div_two_pow]
  by_cases hi : i < len
  · rw [show x.toNat.testBit (i + lo) = y.toNat.testBit (i + lo) from h (i + lo) (by omega) (by omega)]
  · simp [hi]
theorem getPut_apart (x : W64) (lo len v lo' len' : Nat) (h : lo' + len' ≤ lo ∨ lo + len ≤ lo') (h64 : lo + len ≤ 64) : w64Get (w64Put x lo len v) lo' len' = w64Get x lo' len' :=
  get_ext _ _ _ _ fun i h1 h2 => by rw [put_bit _ _ _ _ _ h64, if_neg (by omega)]
theorem get_put (x : W64) (lo len v : Nat) (h64 : lo + len ≤ 64) : w64Get (w64Put x lo len v) lo len = v % 2 ^ len := by
  unfold w64Get
  apply Nat.eq_of_testBit_eq
  intro i
  rw [Nat.testBit_mod_two_pow, Nat.testBit_div_two_pow, Nat.testBit_mod_two_pow]
  by_cases hi : i < len
  · rw [show (w64Put x lo len v).toNat.testBit (i + lo) = (w64Put x lo len v).getLsbD (i + lo) from rfl, put_bit _ _ _ _ _ h64, if_pos (by omega)]
    simp
  · simp [hi]
theorem extract_put (x : W64) (lo len : Nat) (v : BitVec len) (h64 : lo + len ≤ 64) : (w64Put x lo len v.toNat).extractLsb' lo len = v := by
  apply BitVec.eq_of_getLsbD_eq
  intro i hi
  rw [BitVec.getLsbD_extractLsb', put_bit _ _ _ _ _ h64, if_pos (by omega)]
  simp [hi, BitVec.getLsbD]
theorem setHm_hm (h : Half) (m : Nat) (hm : m < 4) : (h.setHm m).hm = m := by
  unfold Half.setHm Half.hm; dsimp only; rw [get_put _ _ _ _ (by omega)]; exact Nat.mod_eq_of_lt hm
theorem bit_of (n : Nat) (x : W64) : x.getLsbD n = decide (x.toNat / 2 ^ n % 2 = 1) := by
  rw [BitVec.getLsbD, Nat.testBit_eq_decide_div_mod_eq]
theorem readout_locked (s : State) (off : Nat) (h : s.io.rdlock = true) : readout s off = 0 := by unfold readout; rw [if_pos (.inr h)]
theorem rosel_locked (s : State) (w : W64) (h : s.io.rdlock = true) : writeRosel s w = s := by unfold writeRosel; rw [h]; simp
theorem window_locked (s : State) (a : Nat) (h : s.io.rdlock = true) (h1 : 0x100000 ≤ a) (h2 : a < 0x110000) : mgmtRead s a = 0 := by
  unfold mgmtRead
  dsimp only
  iterate 12 rw [if_neg (by omega)]
  rw [if_pos (by omega)]
  exact readout_locked s _ h
theorem mgmtWrite_rosel (s : State) (w : W64) : mgmtWrite s 0x80100 w = (true, writeRosel s w) := by
  unfold mgmtWrite; dsimp only
  iterate 4 rw [if_neg (by omega)]
  rw [if_pos rfl]
theorem mgmtRead_frzTime (s : State) : mgmtRead s 0x80008 = s.io.frzTime := by
  unfold mgmtRead; dsimp only
  iterate 6 rw [if_neg (by omega)]
  rw [if_pos rfl]
theorem mgmtRead_boot (s : State) : mgmtRead s 0x80000 = bootStatus s.io := by
  unfold mgmtRead; dsimp only
  iterate 5 rw [if_neg (by omega)]
  rw [if_pos rfl]
theorem mgmtRead_shown (s : State) (a : Nat) (h : a < 0x40000) : mgmtRead s a = s.io.shown.getD a 0 := by unfold mgmtRead; dsimp only; rw [if_pos h]
theorem zeros64 : wordBits 64 (0 : W64).toNat = List.replicate 64 false := by decide
theorem testBit_of_div {x y i : Nat} (h : x / 2 ^ i % 2 = y / 2 ^ i % 2) : x.testBit i = y.testBit i := by
  rw [Nat.testBit_eq_decide_div_mod_eq, Nat.testBit_eq_decide_div_mod_eq, h]
theorem mid_bit (A r B i K J : Nat) (hK : K = 2 ^ i * J) (hB : 0 < 2 ^ i) (hJ : J % 2 = 0) : (A * K + B) / 2 ^ i % 2 = B / 2 ^ i % 2 := by
  rw [hK, show A * (2 ^ i * J) + B = 2 ^ i * (A * J) + B by ring, Nat.mul_add_div hB, Nat.add_mod, Nat.mul_mod, hJ]; simp
theorem boot_bits (A B r r' i P Q : Nat) (hP : P = 2 ^ 29) (hQ : Q = 2 ^ 30) (hB : B < P) (hr : r < 2) (hr' : r' < 2) (hi : i ≠ 29) :
    (BitVec.ofNat 64 (A * Q + r * P + B)).getLsbD i = (BitVec.ofNat 64 (A * Q + r' * P + B)).getLsbD i := by
  rw [BitVec.getLsbD_ofNat, BitVec.getLsbD_ofNat]
  refine congrArg (decide (i < 64) && ·) (testBit_of_div ?_)
  have hpos : 0 < 2 ^ i := by positivity
  rcases Nat.lt_or_ge i 29 with h | h
  · have : ∀ r : Nat, (A * Q + r * P + B) / 2 ^ i % 2 = B / 2 ^ i % 2 := by
      intro r
      have e : A * Q + r * P + B = (2 * A + r) * P + B := by rw [hP, hQ]; ring
      rw [e]
      refine mid_bit (2 * A + r) 0 B i P (2 * 2 ^ (28 - i)) ?_ hpos (by omega)
      rw [hP, ← pow_succ', ← pow_add]; congr 1; omega
    rw [this, this]
  · have : ∀ r : Nat, r < 2 → (A * Q + r * P + B) / 2 ^ i = A / 2 ^ (i - 30) := by
      intro r hr
      rw [show 2 ^ i = Q * 2 ^ (i - 30) by rw [hQ, ← pow_add]; congr 1; omega, ← Nat.div_div_eq_div_mul]
      congr 1
      have hlt : r * P + B < Q := by
        have : Q = 2 * P := by rw [hP, hQ]; rfl
        have : r * P ≤ 1 * P := Nat.mul_le_mul_right _ (by omega)
        omega
      rw [Nat.add_assoc, Nat.mul_comm, Nat.mul_add_div (by rw [hQ]; positivity), Nat.div_eq_of_lt hlt, Nat.add_zero]
    rw [this r hr, this r' hr']
theorem w64Get_ofNat (x lo len : Nat) (h : x < 2 ^ 64) : w64Get (BitVec.ofNat 64 x) lo len = x / 2 ^ lo % 2 ^ len := by
  unfold w64Get; rw [BitVec.toNat_ofNat, Nat.mod_eq_of_lt h]
theorem enter_regs (k : Ctx) (h : Half) (cause : Cause) (nores : Bool) (site : TrapSite) (m : Nat) (v : W64) :
    let e := enterHandler { k with main := { h.writeTrap false false cause nores site with hold := none } } false m v
    e.main.s = h.s ∧ e.main.c = h.c ∧ e.main.q = h.q ∧ e.main.t = h.t ∧ e.v = k.v ∧ e.k = k.k ∧ e.h = k.h ∧ e.f = k.f ∧
    e.main.pc = v ∧ e.main.poison = h.poison ∧ e.main.trapv = cause.va ∧ e.main.trapa = h.pc := by
  unfold enterHandler restartHandlerCount Ctx.setHalf Ctx.half Half.setHm Half.writeTrap
  simp only [Bool.false_eq_true, if_false, and_self]

end Sys2Proof.Laws
end

