-- ==== Sys2Proof/Laws/Tasks.lean ====
section
/-! SUPPORT. Task records, ready queues, binding, saving and adopting crews (04 R88 to R105, 05 R122 to R132). -/

namespace Sys2Proof.Laws
open Sys2Proof.Machine Sys2Proof.Irnov

theorem core_of_cores {s t : Chip} (h : t.cores = s.cores) (d c : Nat) : t.core d c = s.core d c := by simp [Chip.core, h]
theorem ctx_of_cores {s t : Chip} (h : t.cores = s.cores) (d c x : Nat) : t.ctx? d c x = s.ctx? d c x := by simp [Chip.ctx?, Chip.core, h]
theorem die_of_dies {s t : Chip} (h : t.dies = s.dies) (d : Nat) : t.die d = s.die d := by simp [Chip.die, h]

/-- Records and queues change; cores and clock stand, and so does every die but for its queues, its L2 and its bind slot. -/
structure Records (s t : Chip) : Prop where
  now : t.now = s.now
  cores : t.cores = s.cores
  held : ∀ k, (t.launches.find? k).map (·.held) = (s.launches.find? k).map (·.held)
  die : ∀ d, ∃ l2 q a b, t.die d = { s.die d with l2 := l2, queues := q, lastAsk := a, slotUsed := b }

theorem Wrote.records {s t : Chip} (h : Wrote s t) : Records s t :=
  ⟨h.now, h.cores, fun k => by rw [h.launches], fun d => by obtain ⟨x, hx⟩ := h.die d; exact ⟨x, _, _, _, hx⟩⟩
theorem Records.rfl {s : Chip} : Records s s := Wrote.rfl.records
theorem Records.trans {s t u : Chip} (a : Records s t) (b : Records t u) : Records s u :=
  ⟨b.now.trans a.now, b.cores.trans a.cores, fun k => (b.held k).trans (a.held k), fun d => by
    obtain ⟨x, q, i, j, hx⟩ := a.die d
    obtain ⟨y, r, k, l, hy⟩ := b.die d
    exact ⟨y, r, k, l, by rw [hy, hx]⟩⟩
theorem records_modDie (s : Chip) (d : Nat) {f : Die → Die} (h : ∀ y, ∃ l2 q a b, f y = { y with l2 := l2, queues := q, lastAsk := a, slotUsed := b }) :
    Records s (s.modDie d f) := by
  refine ⟨Eq.refl _, Eq.refl _, fun _ => Eq.refl _, fun e => ?_⟩
  by_cases he : e = d
  · subst he; rw [modDie_same]; exact h _
  · exact ⟨_, _, _, _, die_setDie_other _ _ he⟩
theorem records_count (s : Chip) (a st : Nat) : Records s (s.countEnded a st) := by
  refine ⟨Eq.refl _, Eq.refl _, fun k => ?_, fun d => ⟨_, _, _, _, Eq.refl _⟩⟩
  unfold Chip.countEnded Chip.modLaunch
  by_cases e : k = taskSlot a
  · subst e
    rw [find_modify_same]
    cases s.launches.find? (taskSlot a) with
    | none => exact Eq.refl _
    | some l => simp only [Option.map_some]; split <;> exact Eq.refl _
  · rw [find_modify_other e]
theorem records_recMod0 (s : Chip) (a : Nat) (f : W64 → W64) : Records s (s.recMod0 a f) := by
  unfold Chip.recMod0
  dsimp only
  split
  · exact records_count ..
  · exact (wrote_recWr ..).records
theorem records_setQueue (s : Chip) (d lv : Nat) (q : List QEnt) : Records s (s.setQueue d lv q) :=
  (records_modDie _ _ fun y => ⟨_, y.queues.put lv q, _, _, Eq.refl _⟩).trans (wrote_relink ..).records
theorem records_enqueue (s : Chip) (d lv : Nat) (es : List QEnt) : Records s (s.enqueue d lv es) := by
  unfold Chip.enqueue
  split
  · exact .rfl
  · exact (records_modDie _ _ fun y => ⟨_, y.queues.put lv _, _, _, Eq.refl _⟩).trans (wrote_relink ..).records
theorem records_dequeue (s : Chip) (d lv k : Nat) (e : QEnt) : Records s (dequeue s d lv k e) := by
  unfold dequeue
  dsimp only
  split <;> exact records_setQueue ..
theorem records_recRead (s : Chip) (a : Nat) : Records s (s.recRead a) := by
  unfold Chip.recRead
  split
  · exact (wrote_noteRec ..).records
  · exact .rfl
@[simp] theorem recMod0_cores (s : Chip) (a : Nat) (f : W64 → W64) : (s.recMod0 a f).cores = s.cores := (records_recMod0 ..).cores
@[simp] theorem enqueue_cores (s : Chip) (d lv : Nat) (q : List QEnt) : (s.enqueue d lv q).cores = s.cores := (records_enqueue ..).cores
@[simp] theorem enqueueTask_cores (s : Chip) (a : Nat) : (s.enqueueTask a).cores = s.cores := by
  unfold Chip.enqueueTask; dsimp only; split
  · rfl
  · rw [enqueue_cores, (wrote_recWr ..).cores]

/-! contexts bound -/
theorem foldl_put_other {α β : Type} {g : β → Nat} {f : β → α} (l : List β) : ∀ (m : AMap α) (y : Nat), (∀ p ∈ l, g p ≠ y) →
    (l.foldl (fun (t : AMap α) p => t.put (g p) (f p)) m).find? y = m.find? y := by
  induction l with
  | nil => intros; rfl
  | cons a t ih => intro m y h; rw [List.foldl_cons, ih _ _ fun p hp => h p (List.mem_cons_of_mem _ hp), find_put_other (h a List.mem_cons_self).symm]
theorem foldl_put_same {α β : Type} {g : β → Nat} {f : β → α} (l : List β) : ∀ (m : AMap α) (p : β), p ∈ l → (l.map g).Nodup →
    (l.foldl (fun (t : AMap α) p => t.put (g p) (f p)) m).find? (g p) = some (f p) := by
  induction l with
  | nil => intro m p h; cases h
  | cons a t ih =>
    intro m p h nd
    rw [List.map_cons, List.nodup_cons] at nd
    rw [List.foldl_cons]
    rcases List.mem_cons.1 h with rfl | h
    · rw [foldl_put_other, find_put_same]
      intro q hq he; exact nd.1 (he ▸ List.mem_map_of_mem hq)
    · exact ih _ _ h nd.2
theorem freeCtxs_nodup (co : Core) : (freeCtxs co).Nodup := List.Nodup.filter _ List.nodup_range
theorem free_none {co : Core} {y : Nat} (h : y ∈ freeCtxs co) : co.ctxs.find? y = none := by
  simp only [freeCtxs, List.mem_filter, AMap.has, Bool.and_eq_true] at h
  simpa using h.2.1
theorem bindFresh_die (s : Chip) (d c : Nat) (l : Launch) (host : Nat) (b : Bool) (r : Reserved) :
    (bindFresh s d c l host b r).die d = { s.die d with entry0 := (s.die d).entry0.del r.task } := by
  unfold bindFresh; rw [modDie_same]; rfl
theorem zip_sub (l : List Nat) : ∀ xs : List Nat, ((l.zip xs).map (·.2)).Sublist xs := by
  induction l with
  | nil => intro xs; simp
  | cons a t ih =>
    intro xs
    cases xs with
    | nil => simp
    | cons x r => simpa using ih r
theorem zip_third {α : Type} (ms : List α) (xs : List Nat) : ((List.range ms.length).zip (ms.zip xs)).map (fun p => (p.1, p.2.2)) = (List.range ms.length).zip xs := by
  apply List.ext_getElem
  · simp
  · intro i h1 h2; simp
theorem bindFresh_crew (s : Chip) (d c : Nat) (l : Launch) (host : Nat) (b : Bool) (r : Reserved) (hn : r.ctxs.Nodup)
    (hf : ∀ y ∈ r.ctxs, (s.core d c).ctxs.find? y = none) : ∃ cr, ((bindFresh s d c l host b r).core d c).crews.find? r.task = some cr ∧
    cr.nt = l.members.length ∧ cr.ctxs = (List.range cr.nt).zip r.ctxs ∧ cr.host = host ∧ cr.task = r.task ∧
    (∀ p ∈ cr.ctxs, ∃ x, (bindFresh s d c l host b r).ctx? d c p.2 = some x ∧ x.task = r.task ∧ x.member = p.1 ∧ x.readyAt = s.now + 16) ∧
    ∀ y x, s.ctx? d c y = some x → (bindFresh s d c l host b r).ctx? d c y = some x := by
  have hc : ∀ (s : Chip) (d a c : Nat) (f : Die → Die), (s.modDie d f).core a c = s.core a c := fun _ _ _ _ _ => rfl
  unfold bindFresh Chip.ctx?
  simp only [hc, core_setCore_same, find_put_same]
  refine ⟨_, rfl, rfl, zip_third _ _, rfl, rfl, ?_, ?_⟩
  · intro p hp
    simp only [List.mem_map] at hp
    obtain ⟨q, hq, rfl⟩ := hp
    refine ⟨_, foldl_put_same (g := fun p => p.2.2) (f := fun p => initCtx s d c l r.task p.1 p.2.1.1 p.2.1.2.1 p.2.1.2.2 _) _ _ q hq ?_, rfl, rfl, rfl⟩
    have : ((List.range l.members.length).zip (l.members.zip r.ctxs)).map (fun p => p.2.2) =
        ((List.range l.members.length).zip r.ctxs).map (·.2) := by rw [← zip_third, List.map_map]; rfl
    rw [this]
    exact List.Nodup.sublist (zip_sub _ _) hn
  · intro y x hx
    rw [foldl_put_other]
    · exact hx
    · rintro p hp rfl
      have := hf _ (List.of_mem_zip (List.of_mem_zip hp).2).2
      rw [show (s.core d c).ctxs.find? p.2.2 = some x from hx] at this; cases this
/-- Every context of a crew that is bound has its task, and may issue 16 cycles later. -/
theorem bindFresh_bound (s : Chip) (d c : Nat) (l : Launch) (host : Nat) (b : Bool) (r : Reserved) :
    ∃ cr, ((bindFresh s d c l host b r).core d c).crews.find? r.task = some cr ∧ cr.nt = l.members.length ∧
    cr.ctxs = (List.range cr.nt).zip r.ctxs ∧
    ∀ p ∈ cr.ctxs, ∃ x, (bindFresh s d c l host b r).ctx? d c p.2 = some x ∧ x.task = r.task ∧ x.readyAt = s.now + 16 := by
  have hc : ∀ (s : Chip) (d a c : Nat) (f : Die → Die), (s.modDie d f).core a c = s.core a c := fun _ _ _ _ _ => rfl
  unfold bindFresh Chip.ctx?
  simp only [hc, core_setCore_same, find_put_same]
  refine ⟨_, rfl, rfl, zip_third _ _, ?_⟩
  intro p hp
  simp only [List.mem_map] at hp
  obtain ⟨q, hq, rfl⟩ := hp
  generalize (s.core d c).ctxs = m
  generalize hz : (List.range l.members.length).zip (l.members.zip r.ctxs) = z at hq
  have gen : ∀ (z : List (Nat × (Nat × Nat × Role) × Nat)) (m : AMap Ctx), (q ∈ z ∨ ∃ x, m.find? q.2.2 = some x ∧ x.task = r.task ∧ x.readyAt = s.now + 16) →
      ∃ x, (z.foldl (fun (t : AMap Ctx) p => t.put p.2.2 (initCtx s d c l r.task p.1 p.2.1.1 p.2.1.2.1 p.2.1.2.2 r.winBase)) m).find? q.2.2 = some x ∧
        x.task = r.task ∧ x.readyAt = s.now + 16 := by
    intro z
    induction z with
    | nil => intro m h; rcases h with h | h
             · cases h
             · exact h
    | cons a t ih =>
      intro m h
      rw [List.foldl_cons]
      apply ih
      by_cases e : q.2.2 = a.2.2
      · right; rw [e, find_put_same]; exact ⟨_, rfl, rfl, rfl⟩
      · rcases h with h | h
        · rcases List.mem_cons.1 h with rfl | h
          · exact absurd rfl e
          · exact .inl h
        · right; rw [find_put_other e]; exact h
  exact gen z m (.inl hq)

/-- What is picked for a crew: as many free contexts as members, those of lowest number. -/
theorem pickRes_spec {s : Chip} {d c : Nat} {l : Launch} {task : Nat} {ms : List (Nat × Nat × Role)} {bs : List Nat} {r : Reserved}
    (h : pickRes s d c l task ms bs = some r) : r.task = task ∧ r.ctxs = (freeCtxs (s.core d c)).take ms.length ∧ r.ctxs.length = ms.length := by
  unfold pickRes at h
  dsimp only at h
  split at h
  · cases h
  · split at h
    · rename_i hc
      injection h with h; subst h
      exact ⟨rfl, rfl, hc.1⟩
    · cases h

/-! choice points keep contexts, crews but for HOST, and the watchdog's count -/
structure Kp (s t : Chip) : Prop where
  h : ∀ d c, (t.core d c).ctxs = (s.core d c).ctxs ∧ (t.core d c).wdCount = (s.core d c).wdCount
theorem Kp.rfl {s : Chip} : Kp s s := ⟨fun _ _ => ⟨Eq.refl _, Eq.refl _⟩⟩
theorem Kp.trans {s t u : Chip} (a : Kp s t) (b : Kp t u) : Kp s u := ⟨fun d c => ⟨(b.h d c).1.trans (a.h d c).1, (b.h d c).2.trans (a.h d c).2⟩⟩
theorem Kp.of_cores {s t : Chip} (h : t.cores = s.cores) : Kp s t := ⟨fun d c => by rw [core_of_cores h]; exact ⟨Eq.refl _, Eq.refl _⟩⟩
theorem Kp.modCore (s : Chip) (d c : Nat) {f : Core → Core} (h : ∀ co, (f co).ctxs = co.ctxs ∧ (f co).wdCount = co.wdCount) : Kp s (s.modCore d c f) := by
  constructor
  intro a b
  by_cases e : 16 * a + b = 16 * d + c
  · have : ∀ t : Chip, t.core a b = t.core d c := fun t => by simp [Chip.core, e]
    rw [this, this, modCore_same]; exact h _
  · rw [Chip.modCore, core_setCore_other _ _ e]; exact ⟨Eq.refl _, Eq.refl _⟩
theorem find_map {α : Type} {f : α → α} {m : AMap α} {k : Nat} : AMap.find? (m.map fun e => (e.1, f e.2)) k = (m.find? k).map f := by
  induction m with
  | nil => rfl
  | cons e t ih => simp only [List.map_cons, AMap.find?]; split <;> simp_all
theorem Kp.mapCores (s : Chip) {f : Core → Core} (h : ∀ co, (f co).ctxs = co.ctxs ∧ (f co).wdCount = co.wdCount) :
    Kp s { s with cores := s.cores.map fun e => (e.1, f e.2) } := by
  constructor
  intro a b
  unfold Chip.core AMap.getD
  simp only [find_map]
  cases s.cores.find? (16 * a + b) with
  | none => exact ⟨Eq.refl _, Eq.refl _⟩
  | some co => exact h co
theorem kp_clearHost (s : Chip) (t : Nat) : Kp s (clearHost s t) := by
  unfold clearHost
  dsimp only
  refine Kp.trans ?_ (Kp.mapCores _ (f := fun co => { co with crews := co.crews.modify t fun cr => { cr with host := 0 } }) fun co =>
    ⟨Eq.refl _, Eq.refl _⟩)
  split
  · exact Kp.trans (Kp.of_cores (wrote_recWr ..).cores) (Kp.of_cores (recMod0_cores ..))
  · exact Kp.of_cores (wrote_recWr ..).cores
theorem kp_popAdopt (d c : Nat) : ∀ (n : Nat) (s : Chip), Kp s (popAdopt s d c n) := by
  intro n
  induction n with
  | zero => intro s; exact Kp.rfl
  | succ n ih =>
    intro s; unfold popAdopt
    split
    · exact Kp.rfl
    · refine Kp.trans (Kp.trans ?_ (kp_clearHost ..)) (ih _)
      exact Kp.modCore _ d c fun co => ⟨Eq.refl _, Eq.refl _⟩
theorem kp_setRunning (s : Chip) (d c : Nat) (x : Option Nat) : Kp s (setRunning s d c x) := Kp.modCore _ d c fun co => ⟨Eq.refl _, Eq.refl _⟩
theorem kp_choose (s : Chip) (d c : Nat) (y : Option (Nat × Nat)) : Kp s (choosePoint s d c y) := by
  unfold choosePoint
  dsimp only
  split
  · exact Kp.trans (kp_popAdopt ..) (kp_setRunning ..)
  · split
    · refine Kp.trans ?_ (kp_setRunning ..)
      exact Kp.modCore _ d c fun co => ⟨Eq.refl _, Eq.refl _⟩
    · split
      · split <;> exact kp_setRunning ..
      · exact kp_setRunning ..
theorem kp_idle (s : Chip) (d c : Nat) : Kp s (idleChoice s d c) := by
  unfold idleChoice; split
  · exact Kp.rfl
  · exact kp_choose ..
theorem Kp.ctx {s t : Chip} (h : Kp s t) (d c x : Nat) : t.ctx? d c x = s.ctx? d c x := by unfold Chip.ctx?; rw [(h.h d c).1]
theorem ahead_none {l : List Nat} {s : Chip} {d : Nat} (h : ∀ j ∈ l, takeFor s d j = none) : l.any (askServed s d) = false := by
  rw [List.any_eq_false]; intro k hk; simp [askServed, h k hk]

/-! ## Ageing -/
def qOf (s : Chip) (d l : Nat) : List QEnt := (s.die d).queues.getD l []
theorem Wrote.qOf {s t : Chip} (h : Wrote s t) (d l : Nat) : qOf t d l = qOf s d l := by unfold Laws.qOf; rw [h.queues]
theorem qOf_put (s : Chip) (d l m : Nat) (q : List QEnt) :
    qOf ((s.modDie d fun y => { y with queues := y.queues.put l q }).relink q) d m = if m = l then q else qOf s d m := by
  rw [(wrote_relink ..).qOf]; unfold qOf; rw [modDie_same]
  split
  · subst_vars; simp
  · simp [getD_put_other ‹_›]
theorem qOf_setQueue (s : Chip) (d l m : Nat) (q : List QEnt) : qOf (s.setQueue d l q) d m = if m = l then q else qOf s d m := qOf_put ..
/-- A level with entries that join it in a cycle (R95). -/
def joined (now : Nat) (q es : List QEnt) : List QEnt :=
  if es.isEmpty then q
  else (q.filter fun e => e.enq != now) ++ sortBy QEnt.rank ((q.filter fun e => e.enq == now) ++ es)
theorem qOf_enqueue (s : Chip) (d l m : Nat) (es : List QEnt) :
    qOf (s.enqueue d l es) d m = if m = l then joined s.now (qOf s d l) es else qOf s d m := by
  unfold Chip.enqueue joined
  split
  · split <;> simp_all
  · exact qOf_put ..
theorem count_qOf (s : Chip) (a st d l : Nat) : qOf (s.countEnded a st) d l = qOf s d l := rfl
theorem recMod0_qOf (s : Chip) (a : Nat) (f : W64 → W64) (d l : Nat) : qOf (s.recMod0 a f) d l = qOf s d l := by
  unfold Chip.recMod0
  dsimp only
  split
  · exact count_qOf ..
  · exact (wrote_recWr ..).qOf ..
theorem aged_eq {s t : Chip} (h : Records s t) : aged t = aged s := by
  funext e; unfold aged; rw [h.now]
  have := h.held e.who
  cases h1 : t.launches.find? e.who <;> cases h2 : s.launches.find? e.who <;> simp_all
theorem ageing_fold1 (s0 : Chip) (d : Nat) (ks : List Nat) : ∀ (t : Chip), ks.Nodup → Records s0 t → (∀ l ∈ ks, qOf t d l = qOf s0 d l) →
    let r := (ks.map fun l => (l, (qOf s0 d l).filter (aged s0))).foldl (fun s m => if m.2.isEmpty then s else s.setQueue d m.1 ((qOf s d m.1).filter fun e => !aged s e)) t
    Records s0 r ∧ ∀ m, qOf r d m = if m ∈ ks then (qOf s0 d m).filter (fun e => !aged s0 e) else qOf t d m := by
  induction ks with
  | nil => intro t _ h1 _; exact ⟨h1, fun m => by simp⟩
  | cons k r ih =>
    intro t nd h1 h3
    rw [List.nodup_cons] at nd
    simp only [List.map_cons, List.foldl_cons]
    have key : ∀ u : Chip, u = (if ((qOf s0 d k).filter (aged s0)).isEmpty = true then t else t.setQueue d k ((qOf t d k).filter fun e => !aged t e)) →
        Records s0 u ∧ ∀ m, qOf u d m = if m = k then (qOf s0 d m).filter (fun e => !aged s0 e) else qOf t d m := by
      rintro u rfl
      split
      · rename_i he
        refine ⟨h1, fun m => ?_⟩
        split
        · subst_vars
          rw [h3 _ List.mem_cons_self]
          rw [List.isEmpty_iff, List.filter_eq_nil_iff] at he
          rw [List.filter_eq_self.2]
          intro a ha; simpa using he a ha
        · rfl
      · refine ⟨h1.trans (records_setQueue ..), fun m => ?_⟩
        rw [qOf_setQueue, aged_eq h1, h3 _ List.mem_cons_self]
        split
        · subst_vars; rfl
        · rfl
    obtain ⟨a, c⟩ := key _ rfl
    obtain ⟨a', c'⟩ := ih _ nd.2 a (by
      intro l hl
      rw [c, if_neg (by rintro rfl; exact nd.1 hl)]
      exact h3 l (List.mem_cons_of_mem _ hl))
    refine ⟨a', fun m => ?_⟩
    rw [c', c]
    by_cases h : m ∈ r
    · simp [h]
    · by_cases e : m = k <;> simp [h, e]
theorem ageing_foldRec (lv d : Nat) (es : List QEnt) : ∀ t : Chip,
    let r := es.foldl (fun s (e : QEnt) => if e.cursor then s
      else (s.recMod0 e.who fun w => w64Put w 53 3 lv).recWr e.who 0x30 (BitVec.ofNat 64 s.now)) t
    Records t r ∧ ∀ m, qOf r d m = qOf t d m := by
  induction es with
  | nil => intro t; exact ⟨.rfl, fun _ => rfl⟩
  | cons e r ih =>
    intro t
    simp only [List.foldl_cons]
    have : ∀ u : Chip, u = (if e.cursor = true then t else (t.recMod0 e.who fun w => w64Put w 53 3 lv).recWr e.who 0x30 (BitVec.ofNat 64 t.now)) →
        Records t u ∧ ∀ m, qOf u d m = qOf t d m := by
      rintro u rfl; split
      · exact ⟨.rfl, fun _ => rfl⟩
      · exact ⟨(records_recMod0 ..).trans (wrote_recWr ..).records, fun m => by rw [(wrote_recWr ..).qOf, recMod0_qOf]⟩
    obtain ⟨a, c⟩ := this _ rfl
    obtain ⟨a', c'⟩ := ih (if e.cursor = true then t else (t.recMod0 e.who fun w => w64Put w 53 3 lv).recWr e.who 0x30 (BitVec.ofNat 64 t.now))
    exact ⟨a.trans a', fun m => (c' m).trans (c m)⟩
/-- An entry that rises. -/
def risen (now : Nat) (e : QEnt) : QEnt := { e with since := now, enq := now, rose := true }
theorem ageing_fold2 (s0 : Chip) (d : Nat) (ks : List Nat) : ∀ (t : Chip), ks.Nodup → t.now = s0.now →
    let r := (ks.map fun l => (l, (qOf s0 d l).filter (aged s0))).foldl (fun s m =>
      let es := m.2.map fun (e : QEnt) => { e with since := s.now, enq := s.now, rose := true }
      let s := es.foldl (fun s (e : QEnt) => if e.cursor then s
        else (s.recMod0 e.who fun w => w64Put w 53 3 (m.1 + 1)).recWr e.who 0x30 (BitVec.ofNat 64 s.now)) s
      s.enqueue d (m.1 + 1) es) t
    ∀ m, qOf r d m = if 1 ≤ m ∧ m - 1 ∈ ks then joined s0.now (qOf t d m) (((qOf s0 d (m - 1)).filter (aged s0)).map (risen s0.now)) else qOf t d m := by
  induction ks with
  | nil => intro t _ h1 r m; simp [r]
  | cons k r ih =>
    intro t nd h1
    rw [List.nodup_cons] at nd
    simp only [List.map_cons, List.foldl_cons]
    have key : ∀ u : Chip, u = ((((((qOf s0 d k).filter (aged s0)).map fun (e : QEnt) => { e with since := t.now, enq := t.now, rose := true })).foldl (fun s (e : QEnt) => if e.cursor then s
        else (s.recMod0 e.who fun w => w64Put w 53 3 (k + 1)).recWr e.who 0x30 (BitVec.ofNat 64 s.now)) t).enqueue d (k + 1) (((qOf s0 d k).filter (aged s0)).map fun (e : QEnt) => { e with since := t.now, enq := t.now, rose := true })) →
        u.now = s0.now ∧ ∀ m, qOf u d m = if m = k + 1 then joined s0.now (qOf t d m) (((qOf s0 d k).filter (aged s0)).map (risen s0.now)) else qOf t d m := by
      rintro u rfl
      obtain ⟨a, c⟩ := ageing_foldRec (k + 1) d (((qOf s0 d k).filter (aged s0)).map fun (e : QEnt) => { e with since := t.now, enq := t.now, rose := true }) t
      refine ⟨((records_enqueue ..).now.trans a.now).trans h1, fun m => ?_⟩
      rw [qOf_enqueue, a.now, h1]
      rw [h1] at c
      split
      · subst_vars; exact congrArg (joined s0.now · _) (c _)
      · exact c _
    obtain ⟨a, c⟩ := key _ rfl
    intro m
    rw [ih _ nd.2 a m, c]
    by_cases e : m = k + 1
    · subst e
      have : ¬ (1 ≤ k + 1 ∧ k + 1 - 1 ∈ r) := by rintro ⟨-, h⟩; exact nd.1 (by simpa using h)
      simp [nd.1]
    · rw [if_neg e]
      by_cases h : 1 ≤ m ∧ m - 1 ∈ r
      · rw [if_pos h, if_pos ⟨h.1, List.mem_cons_of_mem _ h.2⟩]
      · rw [if_neg h, if_neg]
        rintro ⟨h1, h2⟩
        rcases List.mem_cons.1 h2 with h2 | h2
        · omega
        · exact h ⟨h1, h2⟩
theorem fold_dies (l : List Nat) (f : Nat → Die → Die) : ∀ s : Chip, (l.foldl (fun (s : Chip) dd => s.modDie dd (f dd)) s).cores = s.cores := by
  induction l with
  | nil => intro s; rfl
  | cons a t ih => intro s; rw [List.foldl_cons, ih]; rfl
theorem relinkWait_cores (s : Chip) (d c t : Nat) : (relinkWait s d c t).cores = s.cores := by
  unfold relinkWait
  dsimp only
  split <;> split <;> simp only [(wrote_recWr ..).cores]
/-- A whole context's main half waits no more; nothing else of its context, or of any other, changes. -/
theorem unwait_cores {s : Chip} {d c x : Nat} {k k0 : Ctx} (hk : s.ctx? d c x = some k0) (hs : k.spare = none) :
    ∃ z : Chip, z.cores = s.cores ∧ (unwait s ⟨d, c, x, false⟩ k).cores = (z.setCtx d c x { k0 with main := { k0.main with block := none, retryAt := none } }).cores := by
  refine ⟨dropDeferrals s ⟨d, c, x, false⟩, fold_dies .., ?_⟩
  have hd : (dropDeferrals s ⟨d, c, x, false⟩).ctx? d c x = some k0 := by
    rw [ctx_of_cores (show (dropDeferrals s ⟨d, c, x, false⟩).cores = s.cores from fold_dies ..)]; exact hk
  have cs : ∀ (z : Chip), (if recState (z.recRd k.task 0) = stWaiting then z.recSetState k.task stParked else z).cores = z.cores := fun z => by
    split
    · exact recMod0_cores ..
    · rfl
  unfold unwait
  dsimp only
  rw [hs]
  simp only [Option.isSome_none, Bool.false_eq_true, if_false]
  rw [relinkWait_cores, cs, modHalf_some (w := ⟨d, c, x, false⟩) _ hd]
  rfl
theorem ctx_modCore_del (s : Chip) (d c x y : Nat) {f : Core → Core} (h : ∀ co, (f co).ctxs = co.ctxs.del x) :
    (s.modCore d c f).ctx? d c y = if y = x then none else s.ctx? d c y := by
  unfold Chip.ctx?; rw [modCore_same, h]
  split
  · subst_vars; exact find_del_same
  · exact find_del_other ‹_›
theorem kp_popTo (s : Chip) (d c : Nat) (p : AdoptEntry → Bool) : Kp s (popAdoptTo s d c p) := kp_popAdopt ..
theorem modLaunch_cores (s : Chip) (k : Nat) (f : Launch → Launch) : (s.modLaunch k f).cores = s.cores := rfl
theorem freeCtx_ctx (s : Chip) (d c x y : Nat) (b : Bool) : (freeCtx s d c x b).ctx? d c y = if y = x then none else s.ctx? d c y := by
  unfold freeCtx
  split
  · rename_i h
    split
    · subst_vars; exact h
    · rfl
  · dsimp only
    rw [ctx_modCore_del (x := x) (h := fun co => rfl), (kp_popTo ..).ctx, ctx_of_cores (fold_dies _ _ _)]
    cases b <;> rfl
theorem freeFold_ctx (d c : Nat) (b : Bool) (l : List (Nat × Nat)) : ∀ (s : Chip) (y : Nat), (s.ctx? d c y = none ∨ y ∈ l.map (·.2)) →
    (l.foldl (fun s p => freeCtx s d c p.2 b) s).ctx? d c y = none := by
  induction l with
  | nil => intro s y h; rcases h with h | h
           · exact h
           · cases h
  | cons a t ih =>
    intro s y h
    rw [List.foldl_cons]
    refine ih _ _ ?_
    rw [freeCtx_ctx]
    by_cases e : y = a.2
    · left; rw [if_pos e]
    · rw [if_neg e]
      rcases h with h | h
      · exact .inl h
      · simp only [List.map_cons, List.mem_cons] at h
        rcases h with h | h
        · exact absurd h e
        · exact .inr h
theorem freeCrew_gone (s : Chip) (d c : Nat) (cr : Crew) (b : Bool) :
    ((freeCrew s d c cr b).core d c).crews.find? cr.task = none ∧ ∀ p ∈ cr.ctxs, (freeCrew s d c cr b).ctx? d c p.2 = none := by
  unfold freeCrew
  refine ⟨?_, fun p hp => ?_⟩
  · dsimp only; rw [modCore_same]; exact find_del_same
  · unfold Chip.ctx?; dsimp only; rw [modCore_same]
    show ((popAdoptTo (cr.ctxs.foldl (fun s p => freeCtx s d c p.2 b) s) d c fun e => e.task == cr.task).core d c).ctxs.find? p.2 = none
    rw [((kp_popTo ..).h d c).1]
    exact freeFold_ctx d c b cr.ctxs s p.2 (.inr (List.mem_map_of_mem hp))
theorem setCtx_wd (s : Chip) (d c x : Nat) (k : Ctx) : ((s.setCtx d c x k).core d c).wdCount = (s.core d c).wdCount := by
  unfold Chip.setCtx; simp only []; rw [core_setCore_same]

end Sys2Proof.Laws
end

