-- ==== Sys2Proof/Laws/Accesses.lean ====
section
/-! SUPPORT. Loads, walks, chunks of async operations, series of changes (06 R155, 07 R195, 08 R204 to R225, 09 R232). -/

namespace Sys2Proof.Laws
open Sys2Proof.Machine Sys2Proof.Irnov

theorem onChip_running {s : State} (h : s.io.phase = .running) (f : Chip → Chip) : onChip s f = s.modChip f := by
  unfold onChip; rw [h]; rfl
theorem ecc_none (s : State) (ps : List Nat) : eccAt s ps [] = s := by unfold eccAt; rw [List.zip_nil_right]; rfl
theorem l2_cores (s : Chip) (p : Nat) (r : Option Nat) : (s.l2Access p r).cores = s.cores := by
  unfold Chip.l2Access; dsimp only; split; · rfl
  · split <;> rfl
theorem l2_mem (s : Chip) (p : Nat) (r : Option Nat) : (s.l2Access p r).mem = s.mem := by
  unfold Chip.l2Access; dsimp only; split; · rfl
  · split <;> rfl
theorem ctx_of_cores' {s t : Chip} (h : s.cores = t.cores) (d c x : Nat) : s.ctx? d c x = t.ctx? d c x := by
  unfold Chip.ctx? Chip.core; rw [h]
theorem core_of_cores' {s t : Chip} (h : s.cores = t.cores) (d c : Nat) : s.core d c = t.core d c := by
  unfold Chip.core; rw [h]
/-- What the arrival of a part leaves: memory and every context; and of its landing all but its data and poison. -/
structure Arrived (s t : Chip) (d c : Nat) : Prop where
  mem : t.mem = s.mem
  ctx : ∀ x, t.ctx? d c x = s.ctx? d c x
theorem Arrived.trans {s t u : Chip} {d c : Nat} (a : Arrived s t d c) (b : Arrived t u d c) : Arrived s u d c :=
  ⟨b.mem.trans a.mem, fun x => (b.ctx x).trans (a.ctx x)⟩
theorem arrived_modCore (s : Chip) (d c : Nat) (f : Core → Core) (h : ∀ co, (f co).ctxs = co.ctxs) : Arrived s (s.modCore d c f) d c :=
  ⟨rfl, fun x => by unfold Chip.ctx?; rw [modCore_same, h]⟩
theorem arrived_l2 (s : Chip) (p d c : Nat) (r : Option Nat) : Arrived s (s.l2Access p r) d c :=
  ⟨l2_mem .., fun _ => ctx_of_cores' (l2_cores ..) ..⟩
theorem arrived_fillL1 (s : Chip) (d c line : Nat) : Arrived s (fillL1 s d c line) d c := by
  unfold fillL1
  split
  · exact ⟨rfl, fun _ => rfl⟩
  · exact arrived_modCore _ _ _ _ fun _ => rfl
theorem arrivePart_spec (d c x : Nat) (l : Landing) (s : Chip) (p : LoadPart) :
    Arrived s (arrivePart d c x (l, s) p).2 d c ∧
    (arrivePart d c x (l, s) p).1.data = landPut l.data p.lane p.wide (extVal p.signed p.bytes (leNat (partBytes s d c x l.spare l.seq p))) ∧
    (arrivePart d c x (l, s) p).1.parts = l.parts ∧ (arrivePart d c x (l, s) p).1.id = l.id := by
  refine ⟨?_, rfl, rfl, rfl⟩
  have h : Arrived s ((s.l2Access p.p p.rrpv).modCore d c fun co => markSeen co x [lineOf p.p]) d c :=
    (arrived_l2 ..).trans (arrived_modCore _ _ _ _ fun _ => rfl)
  unfold arrivePart
  dsimp only
  split
  · exact h.trans (arrived_fillL1 ..)
  · exact h
theorem arriveParts_spec (d c x : Nat) (ps : List LoadPart) : ∀ (l : Landing) (s : Chip),
    let r := ps.foldl (arrivePart d c x) (l, s)
    Arrived s r.2 d c ∧ r.1.parts = l.parts ∧ r.1.id = l.id := by
  induction ps with
  | nil => intro l s; exact ⟨⟨rfl, fun _ => rfl⟩, rfl, rfl⟩
  | cons p t ih =>
    intro l s
    obtain ⟨a1, -, a3, a4⟩ := arrivePart_spec d c x l s p
    obtain ⟨b1, b2, b3⟩ := ih (arrivePart d c x (l, s) p).1 (arrivePart d c x (l, s) p).2
    rw [List.foldl_cons]
    exact ⟨a1.trans b1, b2.trans a3, b3.trans a4⟩
/-- The bytes of a part that no L1 line gives: memory's under the core's held stores. -/
theorem partBytes_home {s : Chip} {d c : Nat} {p : LoadPart} (h : p.home = true ∨ l1Find (s.core d c).l1 (lineOf p.p) = none) (x : Nat) (sp : Bool) (seq : Nat) :
    partBytes s d c x sp seq p = overlayPath (s.core d c) (fun e => !e.later x sp seq) p.p (s.rdMem p.p p.bytes) := by
  unfold partBytes
  rcases h with h | h
  · simp only [h, if_true]
  · simp only [h, ite_self]

/-! ## IFENCE (13 R343) -/

/-- What settling a core's IFENCEs leaves: memory, the store path, and every context but for its waiting IFENCE. -/
structure Settled (s t : Chip) (d c : Nat) : Prop where
  mem : t.mem = s.mem
  path : (t.core d c).path = (s.core d c).path
  ctx : ∀ x, (t.ctx? d c x).map Ctx.unfenced = (s.ctx? d c x).map Ctx.unfenced
theorem Settled.refl (s : Chip) (d c : Nat) : Settled s s d c := ⟨rfl, rfl, fun _ => rfl⟩
theorem Settled.trans {s t u : Chip} {d c : Nat} (a : Settled s t d c) (b : Settled t u d c) : Settled s u d c :=
  ⟨b.mem.trans a.mem, b.path.trans a.path, fun x => (b.ctx x).trans (a.ctx x)⟩
theorem unfenced_setHalf (k : Ctx) (sp : Bool) : (k.setHalf sp { k.half sp with ifence := none }).unfenced = k.unfenced := by
  unfold Ctx.setHalf Ctx.half Ctx.unfenced
  cases sp
  · rfl
  · cases h : k.spare with
    | none => simp [Half.unfenced, h]
    | some v => simp [Half.unfenced]
theorem settled_ifence (s : Chip) (d c x : Nat) (sp : Bool) : Settled s (settleIfence s ⟨d, c, x, sp⟩).2 d c := by
  unfold settleIfence
  split
  · exact .refl ..
  · rename_i k hk
    split
    · exact .refl ..
    · split
      · exact .refl ..
      · have hk : s.ctx? d c x = some k := hk
        rw [modHalf_some (w := ⟨d, c, x, sp⟩) _ hk]
        refine ⟨rfl, ?_, fun y => ?_⟩
        · rw [modCore_same]; simp [Chip.setCtx]
        · have : ∀ (u : Chip), (u.modCore d c fun co => { co with icache := [] }).ctx? d c y = u.ctx? d c y := fun u => by
            unfold Chip.ctx?; rw [modCore_same]
          rw [this]
          by_cases e : y = x
          · subst e; rw [ctx_setCtx_same, hk]; exact congrArg some (unfenced_setHalf k sp)
          · rw [ctx_setCtx_other _ _ e]
theorem settled_ifences (s : Chip) (d c : Nat) : Settled s (settleIfences s d c) d c := by
  unfold settleIfences
  generalize (s.core d c).ctxs = l
  induction l generalizing s with
  | nil => exact .refl ..
  | cons e t ih => rw [List.foldl_cons]; exact ((settled_ifence ..).trans (settled_ifence ..)).trans (ih _)

/-! ## Freezes -/

theorem e_launch (s : Chip) (w : HalfId) (k : Ctx) (n : Nat) (f : Launch → Launch) :
    ((s.setCtx w.die w.core w.ctx k).modLaunch n f).ctxOf? w = some k :=
  (ctx_of_cores' (s := (s.setCtx w.die w.core w.ctx k).modLaunch n f) (t := s.setCtx w.die w.core w.ctx k) rfl w.die w.core w.ctx).trans (ctx_setCtx_same ..)
theorem e_launch_other (s : Chip) (w : HalfId) (k : Ctx) (n y : Nat) (f : Launch → Launch) (h : y ≠ w.ctx) :
    ((s.setCtx w.die w.core w.ctx k).modLaunch n f).ctx? w.die w.core y = s.ctx? w.die w.core y :=
  (ctx_of_cores' (s := (s.setCtx w.die w.core w.ctx k).modLaunch n f) (t := s.setCtx w.die w.core w.ctx k) rfl w.die w.core y).trans (ctx_setCtx_other _ _ h)
def Thawed (k k' : Ctx) : Prop :=
  k'.landings = k.landings ∧ k'.main = { k.main with frozenAt := k'.main.frozenAt } ∧ k'.v = k.v ∧ k'.k = k.k ∧ k'.h = k.h ∧ k'.f = k.f
theorem Thawed.trans {a b c : Ctx} (h : Thawed a b) (g : Thawed b c) : Thawed a c := by
  obtain ⟨h1, h2, h3, h4, h5, h6⟩ := h
  obtain ⟨g1, g2, g3, g4, g5, g6⟩ := g
  exact ⟨g1.trans h1, by rw [g2, h2], g3.trans h3, g4.trans h4, g5.trans h5, g6.trans h6⟩
theorem thaw_spec (s : Chip) (w : HalfId) (k : Ctx) (h : s.ctx? w.die w.core w.ctx = some k) :
    (thaw s w).mem = s.mem ∧ (∀ y, y ≠ w.ctx → (thaw s w).ctx? w.die w.core y = s.ctx? w.die w.core y) ∧
    ∃ k', (thaw s w).ctx? w.die w.core w.ctx = some k' ∧ Thawed k k' := by
  unfold thaw
  rw [show s.ctxOf? w = some k from h]
  dsimp only
  split
  · exact ⟨rfl, fun _ _ => rfl, k, h, rfl, rfl, rfl, rfl, rfl, rfl⟩
  · split
    · exact ⟨rfl, fun _ _ => rfl, k, h, rfl, rfl, rfl, rfl, rfl, rfl⟩
    · unfold addFrozen
      rw [h]
      dsimp only
      rw [modHalf_some _ (e_launch _ _ _ _ _)]
      refine ⟨?_, fun y hy => ?_, _, ctx_setCtx_same .., ?_⟩
      · rfl
      · rw [ctx_setCtx_other _ _ hy]; exact e_launch_other _ _ _ _ _ _ hy
      · unfold Ctx.setHalf Ctx.half
        split <;> (try split) <;> exact ⟨rfl, rfl, rfl, rfl, rfl, rfl⟩
theorem thaw_core (s : Chip) (w : HalfId) : ((thaw s w).core w.die w.core).arrays = (s.core w.die w.core).arrays := by
  unfold thaw
  split
  · rfl
  · rename_i k hk
    have hk : s.ctx? w.die w.core w.ctx = some k := hk
    dsimp only
    split
    · rfl
    · split
      · rfl
      · unfold addFrozen
        rw [hk]
        dsimp only
        rw [modHalf_some _ (e_launch _ _ _ _ _)]
        unfold Chip.setCtx
        dsimp only
        rw [core_setCore_same]
        dsimp only
        rw [core_of_cores (modLaunch_cores ..), core_setCore_same]
/-- What the ends of a core's freezes leave: memory, its array instructions, and every context but for what says how long it was frozen. -/
structure Freed (s t : Chip) (d c : Nat) : Prop where
  mem : t.mem = s.mem
  arrays : (t.core d c).arrays = (s.core d c).arrays
  ctx : ∀ x k, s.ctx? d c x = some k → ∃ k', t.ctx? d c x = some k' ∧ Thawed k k'
theorem Freed.trans {s t u : Chip} {d c : Nat} (a : Freed s t d c) (b : Freed t u d c) : Freed s u d c :=
  ⟨b.mem.trans a.mem, b.arrays.trans a.arrays, fun x k h => by
    obtain ⟨k1, h1, g1⟩ := a.ctx x k h
    obtain ⟨k2, h2, g2⟩ := b.ctx x k1 h1
    exact ⟨k2, h2, g1.trans g2⟩⟩
theorem freed_thaw (s : Chip) (d c x : Nat) (sp : Bool) : Freed s (thaw s ⟨d, c, x, sp⟩) d c := by
  have id : ∀ k : Ctx, Thawed k k := fun _ => ⟨rfl, rfl, rfl, rfl, rfl, rfl⟩
  refine ⟨?_, thaw_core .., fun y k hy => ?_⟩
  · cases h : s.ctx? d c x with
    | none => unfold thaw; rw [show s.ctxOf? ⟨d, c, x, sp⟩ = none from h]
    | some k => exact (thaw_spec s ⟨d, c, x, sp⟩ k h).1
  · cases h : s.ctx? d c x with
    | none => exact ⟨k, by unfold thaw; rw [show s.ctxOf? ⟨d, c, x, sp⟩ = none from h]; exact hy, id k⟩
    | some k0 =>
      obtain ⟨-, h2, k1, h3, h4⟩ := thaw_spec s ⟨d, c, x, sp⟩ k0 h
      by_cases e : y = x
      · subst e; rw [h] at hy; injection hy with hy; subst hy; exact ⟨k1, h3, h4⟩
      · exact ⟨k, (h2 y e).trans hy, id k⟩
theorem freed_core (s : Chip) (d c : Nat) : Freed s (thawCore s d c) d c := by
  unfold thawCore
  generalize (s.core d c).ctxs = l
  induction l generalizing s with
  | nil => exact ⟨rfl, rfl, fun _ k h => ⟨k, h, rfl, rfl, rfl, rfl, rfl, rfl⟩⟩
  | cons e t ih => rw [List.foldl_cons]; exact ((freed_thaw ..).trans (freed_thaw ..)).trans (ih _)
/-- Once no array instruction is left, what stood behind its marks has come; with one left nothing changes. -/
theorem unmark_spec (s : Chip) (d c x : Nat) (k : Ctx) (h : s.ctx? d c x = some k) :
    (unmark s d c).mem = s.mem ∧ ((unmark s d c).core d c).arrays = (s.core d c).arrays ∧
    let marked : List Landing := if (s.core d c).arrays = [] then k.landings.map (fun (l : Landing) => { l with behind := false }) else k.landings
    ∃ k', (unmark s d c).ctx? d c x = some k' ∧ Thawed { k with landings := marked } k' := by
  dsimp only
  unfold unmark
  split
  · rename_i he
    rw [if_neg (by simpa using he)]
    exact ⟨rfl, rfl, k, h, rfl, rfl, rfl, rfl, rfl, rfl⟩
  · rename_i he
    rw [if_pos (by simpa using he)]
    obtain ⟨a, b, g⟩ := freed_core (s.modCore d c fun co => { co with ctxs := co.ctxs.map fun e =>
      (e.1, { e.2 with landings := e.2.landings.map fun (l : Landing) => { l with behind := false } }) }) d c
    refine ⟨a.trans rfl, b.trans (by rw [modCore_same]), g x _ ?_⟩
    unfold Chip.ctx?
    rw [modCore_same]
    dsimp only
    rw [find_map (f := fun k : Ctx => { k with landings := k.landings.map fun (l : Landing) => { l with behind := false } })]
    rw [show (s.core d c).ctxs.find? x = some k from h]
    rfl
theorem walkLevels_congr {s t : Chip} (hm : s.mem = t.mem) (hn : s.now = t.now) (asid va imask : Nat) : ∀ (l : List Nat) (p : Nat), walkLevels s asid va imask l p = walkLevels t asid va imask l p := by
  intro l
  induction l with
  | nil => intro p; rfl
  | cons a r ih =>
    intro p
    unfold walkLevels
    have e : ∀ p, s.rd64 p = t.rd64 p := fun p => by unfold Chip.rd64 Chip.rdMem; rw [hm]
    simp only [e, ih, hn]
theorem walk_congr {s t : Chip} (hm : s.mem = t.mem) (hn : s.now = t.now) (ha : s.aspace = t.aspace) (asid va : Nat) : walk s asid va = walk t asid va := by
  unfold walk Chip.space
  rw [ha]; simp only [walkLevels_congr hm hn]
theorem walkLevels_spec {s : Chip} {asid va imask : Nat} {e : TlbEnt} : ∀ (l : List Nat) (p : Nat), (∀ x ∈ l, x ∈ [39, 30, 21, 12]) → walkLevels s asid va imask l p = some e →
    e.asid = asid ∧ e.vpn = va / 2 ^ e.size ∧ e.size ∈ [30, 21, 12] ∧ pteV e.pte = true := by
  intro l
  induction l with
  | nil => intro p _ h; cases h
  | cons a r ih =>
    intro p hl h
    unfold walkLevels at h
    dsimp only at h
    split at h
    · cases h
    · split at h
      · cases h
      · rename_i hv
        split at h
        · split at h
          · cases h
          · exact ih _ (fun x hx => hl x (List.mem_cons_of_mem _ hx)) h
        · split at h
          · cases h
          · rename_i h39
            split at h
            · cases h
            · injection h with h; subst h
              refine ⟨rfl, rfl, ?_, by simp at hv; exact hv.1⟩
              have := hl a List.mem_cons_self
              simp only [List.mem_cons, List.not_mem_nil, or_false] at this ⊢
              simp only [Bool.or_eq_true, decide_eq_true_eq, not_or] at h39
              omega
theorem tlbInsert_room {s : Chip} {t : List TlbEnt} {cap : Nat} (e : TlbEnt) (h : t.length < cap) : tlbInsert s t cap e = (e :: t, s) := by
  unfold tlbInsert; rw [if_pos h]
theorem modCore_die (s : Chip) (d c : Nat) (f : Core → Core) (n : Nat) : (s.modCore d c f).die n = s.die n := rfl
theorem modDie_core (s : Chip) (d : Nat) (f : Die → Die) (n c : Nat) : (s.modDie d f).core n c = s.core n c := rfl
theorem walk_modCore (s : Chip) (d c : Nat) (f : Core → Core) (asid va : Nat) : walk (s.modCore d c f) asid va = walk s asid va :=
  walk_congr (s := s.modCore d c f) (t := s) rfl rfl rfl asid va
theorem harvested (s : Chip) (w : HalfId) (k : Ctx) (hh : gatheredHeld s (fun e => e.asid == (k.half w.spare).asid.toNat % 4096) = false) : performHeld s w k .harvest = setAnswer (flushGathered s fun e => e.asid == (k.half w.spare).asid.toNat % 4096) w (.status 0 0) := by
  unfold performHeld; simp only [hh]; rfl
theorem adpinned (s : Chip) (w : HalfId) (k : Ctx) (key : W64) (slot : Nat) {v : W64} {t : AMap Adapter} (ht : s.pastTurn (.adapters w.die) w.order = false) (h : adpinAt (s.die w.die).adapters ((k.half w.spare).asid.toNat % 4096) key slot = (v, t)) :
    performHeld s w k (.adpin key slot) = setAnswer ((s.takeTurn (.adapters w.die) w.order).modDie w.die fun y => { y with adapters := t }) w (.ok v) := by
  unfold performHeld; dsimp only; rw [ht, if_neg Bool.false_ne_true, h]
theorem adunpinned (s : Chip) (w : HalfId) (k : Ctx) (tag : Nat) {v : Nat} {t : AMap Adapter} (ht : s.pastTurn (.adapters w.die) w.order = false) (h : adunpinAt (s.die w.die).adapters ((k.half w.spare).asid.toNat % 4096) tag = (v, t)) :
    performHeld s w k (.adunpin tag) = setAnswer ((s.takeTurn (.adapters w.die) w.order).modDie w.die fun y => { y with adapters := t }) w (.status v 0) := by
  unfold performHeld; dsimp only; rw [ht, if_neg Bool.false_ne_true, h]
theorem adapters_late (s : Chip) (w : HalfId) (k : Ctx) (q : Req) (ht : s.pastTurn (.adapters w.die) w.order = true)
    (hq : (∃ key slot, q = .adpin key slot) ∨ ∃ tag, q = .adunpin tag) : performHeld s w k q = s := by
  rcases hq with ⟨_, _, rfl⟩ | ⟨_, rfl⟩ <;> · unfold performHeld; exact if_pos ht
theorem setFlag_asyncs (s : Chip) (d c x t n : Nat) : (setFlag s d c x t n).asyncs = s.asyncs := by
  unfold setFlag; (repeat' split) <;> rfl
theorem setFlag_mem (s : Chip) (d c x t n : Nat) : (setFlag s d c x t n).mem = s.mem := by
  unfold setFlag; (repeat' split) <;> rfl
theorem setCrewFlag_keeps (s : Chip) (d c t n : Nat) : (setCrewFlag s d c t n).asyncs = s.asyncs ∧ (setCrewFlag s d c t n).mem = s.mem := by
  unfold setCrewFlag
  split
  · exact ⟨rfl, rfl⟩
  · rename_i cr _
    have : ∀ (l : List (Nat × Nat)) (z : Chip), (l.foldl (fun s p => setFlag s d c p.2 t n) z).asyncs = z.asyncs ∧ (l.foldl (fun s p => setFlag s d c p.2 t n) z).mem = z.mem := by
      intro l
      induction l with
      | nil => intro z; exact ⟨rfl, rfl⟩
      | cons a r ih => intro z; rw [List.foldl_cons]; exact ⟨(ih _).1.trans (setFlag_asyncs ..), (ih _).2.trans (setFlag_mem ..)⟩
    exact this _ s
theorem changeBar_keeps (s : Chip) (d c t n : Nat) (f : Barrier → Barrier × Option Nat) : (changeBar s d c t n f).asyncs = s.asyncs ∧ (changeBar s d c t n f).mem = s.mem := by
  unfold changeBar
  split
  · exact ⟨rfl, rfl⟩
  · dsimp only
    split
    · exact ⟨(setCrewFlag_keeps ..).1, (setCrewFlag_keeps ..).2⟩
    · exact ⟨rfl, rfl⟩
theorem countBytes_keeps (s : Chip) (a : Async) (n e r : Nat) : (countBytes s a n e r).asyncs = s.asyncs ∧ (countBytes s a n e r).mem = s.mem := by
  unfold countBytes; split
  · exact changeBar_keeps ..
  · exact ⟨rfl, rfl⟩
theorem rdFree_keeps (s : Chip) (p n : Nat) : (s.rdFree p n).2.asyncs = s.asyncs ∧ (s.rdFree p n).2.mem = s.mem := by
  unfold Chip.rdFree; split <;> exact ⟨rfl, rfl⟩
theorem l2_asyncs (s : Chip) (p : Nat) (r : Option Nat) : (s.l2Access p r).asyncs = s.asyncs := by
  unfold Chip.l2Access; dsimp only; split; · rfl
  · split <;> rfl
theorem writeChunk_asyncs (s : Chip) (a : Async) (k : Chunk) : (writeChunk s a k).asyncs = s.asyncs := by
  unfold writeChunk; dsimp only
  split
  · show ((Chip.l2Access (s.rdFree k.addr k.bytes.length).2 k.addr k.rrpv)).asyncs = _
    rw [l2_asyncs]; exact (rdFree_keeps ..).1
  · rfl
theorem writeChunk_mem (s : Chip) (a : Async) (k : Chunk) (h : a.plan.op = 0) (hg : k.glob = true) : (writeChunk s a k).mem = s.mem.write memDflt k.addr k.bytes := by
  unfold writeChunk; rw [hg, h]
  have e : ∀ old, reduceBytes 0 old k.bytes = (k.bytes, 0) := fun old => rfl
  simp only [e, if_true]
  show ((Chip.l2Access (s.rdFree k.addr k.bytes.length).2 k.addr k.rrpv).wrMem k.addr k.bytes).mem = _
  rw [wrMem_mem, l2_mem, (rdFree_keeps ..).2]
theorem fold_chunks (a : Async) : ∀ (l : List Chunk) (s : Chip), (l.foldl (fun s k => writeChunk s a k) s).asyncs = s.asyncs ∧
    (a.plan.op = 0 → (∀ k ∈ l, k.glob = true) → (l.foldl (fun s k => writeChunk s a k) s).mem = l.foldl (fun m k => m.write memDflt k.addr k.bytes) s.mem) := by
  intro l
  induction l with
  | nil => intro s; exact ⟨rfl, fun _ _ => rfl⟩
  | cons k r ih =>
    intro s
    rw [List.foldl_cons, List.foldl_cons]
    refine ⟨(ih _).1.trans (writeChunk_asyncs ..), fun h hg => ?_⟩
    rw [(ih _).2 h (fun x hx => hg x (List.mem_cons_of_mem _ hx)), writeChunk_mem _ _ _ h (hg k List.mem_cons_self)]
theorem find_filter_ne (l : List Async) (id : Nat) : List.find? (fun (a : Async) => a.id == id) (l.filter fun b => b.id != id) = none := by
  rw [List.find?_eq_none]
  intro x hx h
  rw [List.mem_filter] at hx
  simp at hx h; exact hx.2 h
theorem find_map_set (l : List Async) (id : Nat) {a a1 : Async} (h1 : a1.id = id) (h : List.find? (fun (a : Async) => a.id == id) l = some a) :
    List.find? (fun (a : Async) => a.id == id) (l.map fun b => if b.id = id then a1 else b) = some a1 := by
  induction l with
  | nil => cases h
  | cons b r ih =>
    rw [List.map_cons]
    by_cases e : b.id = id
    · rw [if_pos e, List.find?_cons_of_pos]; simpa using h1
    · rw [if_neg e, List.find?_cons_of_neg (by simpa using e)]
      rw [List.find?_cons_of_neg (by simpa using e)] at h
      exact ih h
theorem read_done {s : Chip} {a : Async} {cs : List Chunk} (h : a.out = some cs) : readSources s a = (a, s) := by
  unfold readSources; rw [h]; rfl
theorem trap_main {s : Chip} {d c x : Nat} {k : Ctx} (code : Nat) (v : W64) (nores : Bool) (site : TrapSite) (hk : s.ctx? d c x = some k) (hs : k.spare = none)
    (hm : k.main.hm = 0) (hd : k.main.tdeleg.getLsbD code = false ∨ code = 0x0D) (hv : vecEn k.main.stvec = true) :
    takeTrap s ⟨d, c, x, false⟩ ⟨code, 0, v, 0, 0⟩ nores site = s.setCtx d c x (enterHandler { k with main := { k.main.writeTrap false false ⟨code, 0, v, 0, 0⟩ nores site with hold := none } } false 2 (vecAddr k.main.stvec)) := by
  unfold takeTrap
  rw [show s.ctxOf? ⟨d, c, x, false⟩ = some k from hk]
  have : handlerOf k.main code = some (2, vecAddr k.main.stvec) := by
    unfold handlerOf
    rw [hm, if_neg (by omega), if_neg (by rcases hd with h | h <;> simp [h]), if_pos hv]
  simp only [Ctx.half, this, hs, Option.isSome_none, Bool.false_eq_true, if_false, Ctx.setHalf]
theorem find_filter_item (l : List SeriesItem) (id : Nat) : List.find? (fun (a : SeriesItem) => a.id == id) (l.filter fun b => b.id != id) = none := by
  rw [List.find?_eq_none]
  intro x hx h
  rw [List.mem_filter] at hx
  simp at hx h; exact hx.2 h

theorem settleLeft_keeps (s : Chip) (d c : Nat) : (settleLeft s d c).asyncs = s.asyncs ∧ (settleLeft s d c).mem = s.mem ∧ Kp s (settleLeft s d c) ∧
    ((settleLeft s d c).core d c).arrays = (s.core d c).arrays := by
  unfold settleLeft
  dsimp only
  have go : ∀ (l : List Leftover) (y : Chip), y.asyncs = s.asyncs → y.mem = s.mem → Kp s y → (y.core d c).arrays = (s.core d c).arrays →
      let z := l.foldl (fun s (e : Leftover) =>
        if s.usesWindow d c e.task then s
        else s.modCore d c fun co => { co with left := co.left.erase e, scratch := zeroWindow co.scratch e.winBase e.winBytes }) y
      z.asyncs = s.asyncs ∧ z.mem = s.mem ∧ Kp s z ∧ (z.core d c).arrays = (s.core d c).arrays := by
    intro l
    induction l with
    | nil => intro y h1 h2 h3 h4; exact ⟨h1, h2, h3, h4⟩
    | cons e t ih =>
      intro y h1 h2 h3 h4
      rw [List.foldl_cons]
      split
      · exact ih y h1 h2 h3 h4
      · exact ih _ h1 h2 (h3.trans (Kp.modCore _ d c fun _ => ⟨rfl, rfl⟩)) (by rw [modCore_same]; exact h4)
  exact go _ _ rfl rfl (Kp.modCore _ d c fun _ => ⟨rfl, rfl⟩) (by rw [modCore_same]; rfl)
theorem wrMem_rest (s : Chip) (p : Nat) (bs : List Byte) : (s.wrMem p bs).asyncs = s.asyncs ∧ (s.wrMem p bs).held = s.held := ⟨rfl, rfl⟩
theorem settleHeld_asyncs (s : Chip) : (settleHeld s).asyncs = s.asyncs := by
  unfold settleHeld
  have go : ∀ (l : List HeldStore) (y : Chip), (l.foldl (fun s (h : HeldStore) => s.putLine h.task h.p h.bytes) y).asyncs = y.asyncs := by
    intro l
    induction l with
    | nil => intro y; rfl
    | cons e t ih =>
      intro y
      rw [List.foldl_cons, ih]
      unfold Chip.putLine
      split
      · rfl
      · exact (wrMem_rest ..).1
  exact go _ _
/-- With no store of a task unit waiting, nothing settles. -/
theorem settleHeld_none {s : Chip} (h : s.held = []) : settleHeld s = s := by
  unfold settleHeld; rw [h]; cases s; simp_all
theorem l2_held (s : Chip) (p : Nat) (r : Option Nat) : (s.l2Access p r).held = s.held := by
  unfold Chip.l2Access; dsimp only; split; · rfl
  · split <;> rfl
theorem writeChunk_held (s : Chip) (a : Async) (k : Chunk) : (writeChunk s a k).held = s.held := by
  unfold writeChunk; dsimp only
  split
  · show ((Chip.l2Access (s.rdFree k.addr k.bytes.length).2 k.addr k.rrpv)).held = _
    rw [l2_held]; unfold Chip.rdFree; split <;> rfl
  · rfl
theorem fold_held (a : Async) : ∀ (l : List Chunk) (s : Chip), (l.foldl (fun s k => writeChunk s a k) s).held = s.held := by
  intro l
  induction l with
  | nil => intro s; rfl
  | cons k r ih => intro s; rw [List.foldl_cons, ih, writeChunk_held]

/-! ## Walks touch the L2 only (07 R192) -/

theorem l2_stlb (s : Chip) (p : Nat) (r : Option Nat) (d : Nat) : ((s.l2Access p r).die d).stlb = (s.die d).stlb := by
  unfold Chip.l2Access
  dsimp only
  have h : ∀ f : Die → Die, (∀ y, (f y).stlb = y.stlb) → ((s.modDie (homeDie p) f).die d).stlb = (s.die d).stlb := by
    intro f hf
    by_cases e : d = homeDie p
    · subst e; rw [modDie_same]; exact hf _
    · exact congrArg Die.stlb (die_setDie_other _ _ e)
  split
  · exact h _ fun _ => rfl
  · split
    · rfl
    · exact h _ fun _ => rfl
theorem touchWalk_keeps (s : Chip) (asid va : Nat) : (touchWalk s asid va).cores = s.cores ∧ (touchWalk s asid va).mem = s.mem ∧
    ∀ d, ((touchWalk s asid va).die d).stlb = (s.die d).stlb := by
  unfold touchWalk
  generalize walkReads s asid va = l
  suffices h : ∀ y : Chip, (l.foldl (fun y p => y.l2Access p (some 1)) y).cores = y.cores ∧ (l.foldl (fun y p => y.l2Access p (some 1)) y).mem = y.mem ∧
        ∀ d, ((l.foldl (fun y p => y.l2Access p (some 1)) y).die d).stlb = (y.die d).stlb from h s
  induction l with
  | nil => intro y; exact ⟨rfl, rfl, fun _ => rfl⟩
  | cons p l ih =>
    intro y
    obtain ⟨a, b, c⟩ := ih (y.l2Access p (some 1))
    exact ⟨a.trans (l2_cores ..), b.trans (l2_mem ..), fun d => (c d).trans (l2_stlb ..)⟩
theorem touchWalk_core (s : Chip) (asid va d c : Nat) : (touchWalk s asid va).core d c = s.core d c := core_of_cores' (touchWalk_keeps s asid va).1 d c
theorem touchWalk_mem (s : Chip) (asid va : Nat) : (touchWalk s asid va).mem = s.mem := (touchWalk_keeps s asid va).2.1
theorem touchWalk_stlb (s : Chip) (asid va d : Nat) : ((touchWalk s asid va).die d).stlb = (s.die d).stlb := (touchWalk_keeps s asid va).2.2 d

end Sys2Proof.Laws
end

