-- ==== Sys2Proof/Laws/Bundles.lean ====
section
/-! SUPPORT. The attempt of a bundle, its fetch, its retirement (06 R151 to R158, 12 R298 to R314). -/

namespace Sys2Proof.Laws
open Sys2Proof.Machine Sys2Proof.Irnov

theorem issue_attempt {s : State} {d c x : Nat} {k : Ctx} {cr : Crew} {b : Bundle} {y : Chip} (h : Attempts s d c x k cr b y) :
    exec (.bundleIssue d c 0) s = .next { s with chip := issueFetched y ⟨d, c, x, false⟩ b } := by
  obtain ⟨bs, hf, rfl⟩ := h.fetch
  obtain ⟨f1, f2, f3, f4, f5⟩ := h.free
  obtain ⟨q1, q2, q3, q4⟩ := h.quiet
  show Host.Outcome.next (issueStep s d c 0) = _
  have hi : idleChoice s.chip d c = s.chip := by unfold idleChoice; rw [h.turn]; rfl
  have hw : runningHalf s.chip d c 0 = ⟨d, c, x, false⟩ := by unfold runningHalf; rw [h.turn]; rfl
  have hc : s.chip.ctxOf? ⟨d, c, x, false⟩ = some k := h.ctx
  have hk : k.half false = k.main := rfl
  have hs : settleFences s.chip ⟨d, c, x, false⟩ = s.chip := by
    unfold settleFences; rw [hc]; simp only [hk, q1]; rfl
  have hh : settleHolds s.chip ⟨d, c, x, false⟩ = (true, s.chip) := by
    unfold settleHolds settleIfence; simp only [hs, hc, hk, f2, f3]
  have hu : unspill s.chip d c x = s.chip := by
    unfold unspill; rw [h.ctx]; simp only [q2]; rfl
  have hb : boundaryTrap s.chip ⟨d, c, x, false⟩ = none := by
    unfold boundaryTrap; rw [hc]; simp only [hk, f1, q3, q4, h.whole]; rfl
  have hl : landDue s.chip ⟨d, c, x, false⟩ = (true, s.chip) := by
    unfold landDue; rw [hc]; simp only [q2]; rfl
  have ha : attemptBundle s.chip ⟨d, c, x, false⟩ = issueFetched y ⟨d, c, x, false⟩ (bundleOfBytes bs) := by
    unfold attemptBundle
    simp only [hc, Option.bind_some, hk, f1, hh, hu, f4, hb, hl, hf]
    rfl
  have : issueOn s.chip d c 0 = issueFetched y ⟨d, c, x, false⟩ (bundleOfBytes bs) := by
    unfold issueOn
    simp only [hi, hw]
    unfold issueBundle
    simp only [hi, hc, h.may, if_true, ha]
  simp only [issueStep, h.cool, onChip, h.running, if_true, this, Bool.false_eq_true, if_false]
theorem header_bits {b : Bundle} {n : Nat} (h1 : 1 ≤ n) (h7 : n ≤ 7) (h : b.word 0 = BitVec.ofNat 32 (2 ^ (n - 1))) :
    b.pres = BitVec.ofNat 7 (2 ^ (n - 1)) ∧ b.lit = 0 ∧ b.yields = false ∧ b.badHeader = false := by
  have : n = 1 ∨ n = 2 ∨ n = 3 ∨ n = 4 ∨ n = 5 ∨ n = 6 ∨ n = 7 := by omega
  unfold Bundle.badHeader Bundle.pres Bundle.lit Bundle.yields
  rw [h]
  rcases this with rfl | rfl | rfl | rfl | rfl | rfl | rfl <;> decide
theorem sole_syls {b : Bundle} {n : Nat} (h1 : 1 ≤ n) (h7 : n ≤ 7) (h : b.word 0 = BitVec.ofNat 32 (2 ^ (n - 1))) :
    ((List.range 8).filter fun m => b.isIns m && (b.pres &&& ((127 : BitVec 7) ||| b.lit)).getLsbD (m - 1)) = [n] := by
  obtain ⟨hp, hl, -, -⟩ := header_bits h1 h7 h
  unfold Bundle.isIns
  rw [hp, hl]
  have : n = 1 ∨ n = 2 ∨ n = 3 ∨ n = 4 ∨ n = 5 ∨ n = 6 ∨ n = 7 := by omega
  rcases this with rfl | rfl | rfl | rfl | rfl | rfl | rfl <;> decide

/-! retirement -/
theorem setCtx_setCtx (s : Chip) (d c x : Nat) (k k' : Ctx) : (s.setCtx d c x k).setCtx d c x k' = s.setCtx d c x k' := by
  simp only [Chip.setCtx, Chip.setCore, Chip.core, getD_put_same, put_put]
/-- A retirement counted for the core and the launch leaves every context. -/
theorem count_setCtx (y : Chip) (d c x t : Nat) (k k' : Ctx) :
    (countBundle (y.setCtx d c x k) ⟨d, c, x, false⟩ t).setCtx d c x k' = countBundle (y.setCtx d c x k') ⟨d, c, x, false⟩ t := by
  simp only [countBundle, Core.used, Bool.false_eq_true, if_false, Chip.setCtx, Chip.setCore, Chip.core, Chip.modCore, Chip.modLaunch, getD_put_same, put_put]
theorem modCtx_set (y : Chip) (d c x : Nat) (k : Ctx) (f : Ctx → Ctx) : (y.setCtx d c x k).modCtx d c x f = y.setCtx d c x (f k) := by
  rw [modCtx_some f (ctx_setCtx_same ..), setCtx_setCtx]
theorem count_ctx (y : Chip) (d c x t : Nat) (k : Ctx) :
    (countBundle (y.setCtx d c x k) ⟨d, c, x, false⟩ t).ctx? d c x = some k := by
  show ((y.setCtx d c x k).modCore d c fun co => { co.used false with retired := true }).ctx? d c x = some k
  unfold Chip.ctx?; rw [modCore_same]; exact ctx_setCtx_same ..
theorem apply_spare {k : Ctx} (h : k.spare = none) : ∀ ws, (applyWrs k false ws).spare = none ∧ (applyWrs k false ws).task = k.task := by
  intro ws
  unfold applyWrs
  induction ws generalizing k with
  | nil => exact ⟨h, rfl⟩
  | cons w t ih =>
    rw [List.foldl_cons]
    have : (w.apply k false).spare = none ∧ (w.apply k false).task = k.task := by
      cases w <;> first | exact ⟨h, rfl⟩ | (simp only [Wr.apply, Ctx.wrK]; split <;> exact ⟨h, rfl⟩)
    obtain ⟨a, b⟩ := ih this.1
    exact ⟨a, b.trans this.2⟩
theorem modHalf_set (y : Chip) (d c x : Nat) (k : Ctx) (f : Half → Half) :
    (y.setCtx d c x k).modHalf ⟨d, c, x, false⟩ f = y.setCtx d c x { k with main := f k.main } := modCtx_set ..
theorem joinIfDone_whole {k : Ctx} (h : k.spare = none) (seq : Nat) : joinIfDone k seq = k := by unfold joinIfDone; rw [h]
theorem count_modCtx (y : Chip) (d c x t : Nat) (k : Ctx) (f : Ctx → Ctx) :
    (countBundle (y.setCtx d c x k) ⟨d, c, x, false⟩ t).modCtx d c x f = countBundle (y.setCtx d c x (f k)) ⟨d, c, x, false⟩ t := by
  rw [modCtx_some f (count_ctx ..), count_setCtx]
/-- With the bundle's end that makes the core's next accesses later ones, a counted retirement leaves the part of `Chip.afterRetire`. -/
theorem count_after (y : Chip) (d c x : Nat) (k : Ctx) :
    ((countBundle (y.setCtx d c x k) ⟨d, c, x, false⟩ k.task).modCore d c fun co => { co with seq := co.seq + 1 }) = y.afterRetire d c x k := by
  simp only [countBundle, Chip.afterRetire, Core.used, Bool.false_eq_true, if_false, Chip.setCtx, Chip.setCore, Chip.core, Chip.modCore, Chip.modLaunch, getD_put_same, put_put]
theorem after_ctx (y : Chip) (d c x : Nat) (k : Ctx) : (y.afterRetire d c x k).ctx? d c x = some k := by
  rw [← count_after]
  unfold Chip.ctx?; rw [modCore_same]; exact count_ctx ..
theorem ctlOut_none (k : Ctx) (c0 : Ctx) (a : W64) (i : Option SIns) (h : i = none ∨ ∃ r x, i = some (.sysw r x)) :
    (controlOut c0 k false a i).1 = { k with main := { k.main with pc := a + 32 } } := by
  rcases h with rfl | ⟨r, x, rfl⟩ <;> rfl
theorem apply_hold {k : Ctx} : ∀ ws, (applyWrs k false ws).main.hold = k.main.hold := by
  intro ws
  unfold applyWrs
  induction ws generalizing k with
  | nil => rfl
  | cons w t ih =>
    rw [List.foldl_cons, ih]
    cases w <;> first | rfl | (simp only [Wr.apply, Ctx.setHalf, Ctx.half, Ctx.wrK, Half.wrS, Half.wrC, Half.wrQ, Bool.false_eq_true, if_false]; split <;> rfl)
theorem retired_eq {k : Ctx} (hh : k.main.hold = none) (out : SlotOut) (now : Nat) :
    (controlOut k (k.retireOne false true now out.wr out.flags false false) false k.main.pc none).1 = k.retired out now := by
  rw [ctlOut_none _ _ _ _ (.inl rfl)]
  have := apply_hold (k := k) out.wr
  rw [hh] at this
  unfold Ctx.retired Ctx.retireOne
  simp only [Ctx.setHalf, Ctx.half, Half.retireOne, Half.orFstat, Bool.false_eq_true, if_false, if_true]
  rw [← this]
theorem join_end {y : Chip} {d c x : Nat} {k k' : Ctx} {b : Bundle} (hy : b.yields = false) (hk : y.ctx? d c x = some k') (hs : k'.spare = none) :
    joinAndYield y ⟨d, c, x, false⟩ b k = (y.setCtx d c x k').modCore d c fun co => { co with seq := co.seq + 1 } := by
  unfold joinAndYield
  simp only [hy, Bool.false_and, Bool.false_eq_true, if_false]
  rw [modCtx_some _ hk, joinIfDone_whole hs]
theorem retire_eq {y : Chip} {d c x : Nat} {k : Ctx} {b : Bundle} {st : Issue} (hk : y.ctx? d c x = some k) (hs : k.spare = none) (hm : k.main.hm = 0) (hh : k.main.hold = none)
    (ht : st.tile = none) (hd : st.d = none) (hctl : st.ctl = none) (hy : b.yields = false) (out : SlotOut)
    (ho : st.outs.flatMap (·.2.wr) = out.wr) (hf : slotFlags st.outs = out.flags) :
    retire y ⟨d, c, x, false⟩ b k st none false = y.afterRetire d c x (k.retired out y.now) := by
  have e1 : st.writes [] = out.wr := by unfold Issue.writes; rw [ht, ho]; simp
  have e2 : st.flags 0 = out.flags := by unfold Issue.flags; rw [ht, hf]; simp
  have e3 : st.unalloc = false := by unfold Issue.unalloc; rw [ht]
  have e4 : (k.half false).hm == 0 := by simp [Ctx.half, hm]
  unfold retire
  simp only [hd, ht, performM, e1, e2, e3, e4, hctl, performCtl]
  rw [modCtx_some _ hk, modCtx_set]
  rw [count_modCtx, show { k with f := clearWaited k.f (k.half false) none } = k from rfl]
  rw [show (k.half false).pc = k.main.pc from rfl, retired_eq hh]
  have hr : (k.retired out y.now).spare = none := (apply_spare hs out.wr).1
  have htk : (k.retired out y.now).task = k.task := (apply_spare hs out.wr).2
  rw [show (y.setCtx d c x k).now = y.now from rfl, join_end hy (count_ctx ..) hr, count_setCtx, ← htk, count_after]
theorem stop_none {k : Ctx} {sup : Bool} {x : SIns} (h : isControl x = false) : scalarStop k false sup x = none := by
  cases x <;> first | rfl | (simp [isControl] at h)
theorem syl_ok {y : Chip} {w : HalfId} (hw : w.spare = false) {b : Bundle} {k : Ctx} {cr : Crew} {sup : Bool} {n : Nat} {i : Ins} {out : SlotOut} (hi : b.ins k cr n = .ok i) (hc : computed k i = some out)
    (he : (insWrites i).eraseDups.length = (insWrites i).length) :
    ∃ c' : Ctx, issueSyl y w ⟨b, k.budget, cr.bars.length, cr.nt⟩ sup none n ⟨k, [], [], none, none, none⟩ = (.ok ⟨c', insWrites i, [(n, out)], none, none, none⟩, y) := by
  unfold issueSyl
  rw [show decodeSlot ⟨b, k.budget, cr.bars.length, cr.nt⟩ n = .ok i from hi]
  simp only [List.contains_nil, List.any_eq_true, Bool.false_eq_true, and_false, exists_false, he, ne_eq, not_true_eq_false, or_self, if_false, List.append_nil, List.nil_append]
  cases i with
  | s x =>
    simp only [computed] at hc
    split at hc
    · cases hc
    · rename_i h
      have hctl : isControl x = false := by simpa using h
      simp only [Option.some.injEq] at hc
      simp only [hw, stop_none hctl, hctl, Bool.false_eq_true, if_false]
      subst hc
      cases x <;> first | exact ⟨_, rfl⟩ | (simp [isControl] at hctl)
  | v x => simp only [computed, Option.some.injEq] at hc; subst hc; rw [hw]; exact ⟨_, rfl⟩
  | m x => cases hc
  | x x => simp only [computed, Option.some.injEq] at hc; subst hc; rw [hw]; exact ⟨_, rfl⟩
  | d x => cases hc
theorem pres_and (b : Bundle) : b.pres &&& ((none : Option (BitVec 7)).getD 0x7F ||| b.lit) = b.pres := by
  generalize b.pres = p; generalize b.lit = l
  show p &&& (0x7F#7 ||| l) = p
  have : 0x7F#7 = BitVec.allOnes 7 := by decide
  rw [this, BitVec.allOnes_or, BitVec.and_allOnes]
theorem bundle_fetched {y : Chip} {d c x : Nat} {k : Ctx} {cr : Crew} {b : Bundle} (hk : y.ctx? d c x = some k) (hcr : (y.core d c).crews.find? k.task = some cr)
    (hw : k.spare = none) (hm : k.main.hm = 0) (hh : k.main.hold = none) (hr : k.main.resid = none) {n : Nat} {i : Ins} {out : SlotOut}
    (h1 : 1 ≤ n) (h7 : n ≤ 7) (hd : b.word 0 = BitVec.ofNat 32 (2 ^ (n - 1))) (hi : b.ins k cr n = .ok i) (hc : computed k i = some out)
    (he : (insWrites i).eraseDups.length = (insWrites i).length) (hf : n ≤ 4 ∨ n = 6 → out.flags &&& gTe k.main.gmode = 0) (hwk : k.main.wake = none ∨ True) :
    issueFetched y ⟨d, c, x, false⟩ b = y.afterRetire d c x (k.retired out y.now) := by
  obtain ⟨hp, hl, hy, hbad⟩ := header_bits h1 h7 hd
  have hkk : y.ctxOf? ⟨d, c, x, false⟩ = some k := hk
  have hcc : (y.coreOf ⟨d, c, x, false⟩).crews.find? k.task = some cr := hcr
  have hhalf : k.half false = k.main := rfl
  have hresid : b.effective k.main = b.pres := by unfold Bundle.effective; rw [hr]; exact pres_and b
  have hsyl : b.issuing b.pres = [n] := by
    have := sole_syls h1 h7 hd
    have hpb : b.pres &&& ((127 : BitVec 7) ||| b.lit) = b.pres := pres_and b
    rw [hpb] at this; exact this
  have hwaits : waitsAt ⟨b, k.budget, cr.bars.length, cr.nt⟩ [n] = false := by
    unfold waitsAt
    by_cases h : n = 7
    · subst h
      rw [show decodeSlot ⟨b, k.budget, cr.bars.length, cr.nt⟩ 7 = .ok i from hi]
      cases i with
      | d j => cases hc
      | _ => rfl
    · have : ([n].contains 7) = false := by simp; omega
      rw [this]; rfl
  have hwake : wakeTaken k.main ⟨b, k.budget, cr.bars.length, cr.nt⟩ [n] = none := by unfold wakeTaken; rw [hwaits]; simp
  obtain ⟨c', hs⟩ := syl_ok (y := y) (w := ⟨d, c, x, false⟩) rfl (sup := k.main.supervisor (launchLevel y k.task)) hi hc he
  unfold issueFetched
  simp only [hkk, hcc, Option.getD_some, hhalf, hbad, hresid, hsyl, hwake, hh, Bool.false_eq_true, if_false, Option.bind_none]
  have hss : issueSyls y ⟨d, c, x, false⟩ ⟨b, k.budget, cr.bars.length, cr.nt⟩ (k.main.supervisor (launchLevel y k.task)) none [n] ⟨k, [], [], none, none, none⟩ = (.ok ⟨c', insWrites i, [(n, out)], none, none, none⟩, y) := by
    unfold issueSyls; rw [hs]; rfl
  rw [show (Option.orElse (none : Option Answer) fun _ => none) = none from rfl, hss]
  have hheld : issueHeld y ⟨d, c, x, false⟩ k ⟨c', insWrites i, [(n, out)], none, none, none⟩ = false := rfl
  have hfp : fpTrap k.main [(n, out)] = none := by
    unfold fpTrap
    rw [List.find?_cons_of_neg, List.find?_nil]; · rfl
    intro h
    rw [Bool.and_eq_true] at h
    have := hf (by simpa using h.1)
    rw [this] at h; simp at h
  simp only [issueOk, hheld, Bool.false_eq_true, if_false, hhalf, hfp, issueGo, Option.isSome_none]
  exact retire_eq hk hw hm hh rfl rfl rfl hy out (by simp) (by simp [slotFlags])
theorem alu_writes (op : AluOp) (dst : Nat) (a b : Src) : (insWrites (.s (.alu op dst a b))).eraseDups.length = (insWrites (.s (.alu op dst a b))).length := by
  unfold insWrites sWrites
  simp only [List.filter_cons, List.filter_nil]
  split <;> rfl
theorem rdS_wrS_same (h : Half) (n : Nat) (x : W64) (hn : n ≠ 0) (h2 : n < 160) : (h.wrS n x).rdS n = x := by
  unfold Half.wrS Half.rdS
  rw [if_neg hn, if_neg hn]
  exact vec_set_same _ _ _ h2
theorem rdS_wrS_other (h : Half) (n m : Nat) (x : W64) (hm : m ≠ n) : (h.wrS n x).rdS m = h.rdS m := by
  unfold Half.wrS Half.rdS
  split
  · rfl
  · split
    · rfl
    · exact vec_set_other _ _ _ hm
theorem next_sysw {s : State} {d c x r : Nat} {k : Ctx} {cr : Crew} {b : Bundle} {y : Chip} {a : Src} (h : Issues s d c x 2 k cr b y)
    (hd : ∀ bars nt, decodeSlot ⟨b, k.budget, bars, nt⟩ 2 = .ok (.s (.sysw r a))) (regs : List Nat) (hr : regs.contains r = true) :
    issueSysw s d c 0 regs = issueStep s d c 0 := by
  obtain ⟨bs, hf, hb⟩ := h.fetch
  have hi : idleChoice s.chip d c = s.chip := by unfold idleChoice; rw [h.turn]; rfl
  have hw : runningHalf s.chip d c 0 = ⟨d, c, x, false⟩ := by unfold runningHalf; rw [h.turn]; rfl
  have hc : s.chip.ctxOf? ⟨d, c, x, false⟩ = some k := h.ctx
  have hk : k.half false = k.main := rfl
  have hn : nextSysw s.chip ⟨d, c, x, false⟩ = some r := by
    unfold nextSysw
    have he : b.effective k.main = b.pres := by unfold Bundle.effective; rw [h.free.2.2.2.2]; exact pres_and b
    have hp : (b.isIns 2 && b.pres.getLsbD 1) = true := by
      obtain ⟨hp, hl, -, -⟩ := header_bits h.slot.1 h.slot.2 h.header
      unfold Bundle.isIns; rw [hp, hl]; decide
    simp only [hi, hc, h.may, Bool.not_true, Bool.false_eq_true, if_false, hk, h.free.1, hf, hb, Option.bind_some, he, hp]
    rw [hd]
  unfold issueSysw
  simp only [hi, hw, hn, hr, if_true]
theorem sysw_syl {y : Chip} {d c x r : Nat} {k : Ctx} {cr : Crew} {b : Bundle} {sup : Bool} {a : Src}
    (hd : ∀ bars nt, decodeSlot ⟨b, k.budget, bars, nt⟩ 2 = .ok (.s (.sysw r a))) (hs : sysDenied r sup = false) :
    issueSyls y ⟨d, c, x, false⟩ ⟨b, k.budget, cr.bars.length, cr.nt⟩ sup none [2] ⟨k, [], [], none, none, none⟩ =
      (.ok ⟨k, insWrites (.s (.sysw r a)), [(2, .none)], some (.sysw r a), none, none⟩, y) := by
  unfold issueSyls issueSyl
  rw [hd]
  have e : insWrites (.s (.sysw r a)) = [.sys r] := rfl
  simp only [scalarStop, hs, Bool.false_eq_true, if_false, e]
  rfl
theorem sysw_ctx {z : Chip} {d c x r : Nat} {k : Ctx} {v : W64} (hk : z.ctx? d c x = some k) (hs : k.spare = none) :
    ∃ k', (sysWrite z ⟨d, c, x, false⟩ r v).ctx? d c x = some k' ∧ k'.spare = none ∧ (r ≠ 0x011 ∨ True → k'.main.pc = k.main.pc) ∧ (sysWrite z ⟨d, c, x, false⟩ r v).mem = z.mem := by
  unfold sysWrite
  rw [show z.ctxOf? ⟨d, c, x, false⟩ = some k from hk]
  simp only []
  split
  all_goals first
  | exact ⟨_, ctx_setCtx_same .., hs, fun _ => rfl, rfl⟩
  | exact ⟨k, hk, hs, fun _ => rfl, rfl⟩
  | (refine ⟨k, ?_, hs, fun _ => rfl, rfl⟩; unfold Chip.ctx?; rw [modCore_same]; exact hk)
theorem sw103 {z : Chip} {w : HalfId} {k : Ctx} (v : W64) (h : z.ctxOf? w = some k) : sysWrite z w 0x103 v =
    modSpace z (k.half w.spare).asid.toNat (fun a => { a with root := v &&& 0xFFFFFFFFFF000, imaskv := imaskWrite (w64Get v 4 8), en := v.getLsbD 0 }) := by
  unfold sysWrite; rw [h]; rfl
theorem sw104 {z : Chip} {w : HalfId} {k : Ctx} (v : W64) (h : z.ctxOf? w = some k) : sysWrite z w 0x104 v =
    modSpace z (k.half w.spare).asid.toNat (fun a => { a with dstvec := v &&& vecMask }) := by
  unfold sysWrite; rw [h]; rfl
theorem sw105 {z : Chip} {w : HalfId} {k : Ctx} (v : W64) (h : z.ctxOf? w = some k) : sysWrite z w 0x105 v =
    modSpace z (k.half w.spare).asid.toNat (fun a => { a with dtdeleg := v &&& delegMask }) := by
  unfold sysWrite; rw [h]; rfl
theorem sw106 {z : Chip} {w : HalfId} {k : Ctx} (v : W64) (h : z.ctxOf? w = some k) : sysWrite z w 0x106 v =
    z.modCore w.die w.core (fun co => { co with wdLimit := wdogWritten (w64Get v 0 32), wdCount := 0 }) := by
  unfold sysWrite; rw [h]; rfl

end Sys2Proof.Laws
end

