-- ==== Sys2Proof/Laws/Keeps.lean ====
section
/-! SUPPORT. What the steps' shared operations do to the I/O die and the agenda: nothing, or what IoStep allows. -/

namespace Sys2Proof.Laws
open Sys2Proof.Machine

/-- What any step but PERST_N's fall may do to the I/O die: its invariant is kept, a frozen part stays frozen, fuses are only
raised. -/
structure IoStep (i j : Io) : Prop where
  inv : i.Inv → j.Inv
  frozen : i.phase = .frozen → j.phase = .frozen
  svn : ∀ k : Fin 3, i.fuseSvn[k] ≤ j.fuseSvn[k]
  fuses : j.fuseRoot = i.fuseRoot ∧ j.rdlock = i.rdlock ∧ j.serial = i.serial
  perst : j.perstAt = i.perstAt

theorem IoStep.refl (i : Io) : IoStep i i := ⟨id, id, fun _ => le_refl _, ⟨rfl, rfl, rfl⟩, rfl⟩

theorem IoStep.trans {i j k : Io} (h : IoStep i j) (g : IoStep j k) : IoStep i k :=
  ⟨fun x => g.inv (h.inv x), fun x => g.frozen (h.frozen x), fun n => le_trans (h.svn n) (g.svn n),
    ⟨g.fuses.1.trans h.fuses.1, g.fuses.2.1.trans h.fuses.2.1, g.fuses.2.2.trans h.fuses.2.2⟩, g.perst.trans h.perst⟩

/-- The I/O die and the agenda are as they were. -/
def Keeps (s t : State) : Prop := t.io = s.io ∧ t.agenda = s.agenda

/-- The I/O die took a step that any row may take, and the agenda is as it was. -/
def Goes (s t : State) : Prop := IoStep s.io t.io ∧ t.agenda = s.agenda

theorem Keeps.rfl {s : State} : Keeps s s := ⟨Eq.refl _, Eq.refl _⟩
theorem Keeps.trans {s t u : State} (h : Keeps s t) (g : Keeps t u) : Keeps s u := ⟨g.1.trans h.1, g.2.trans h.2⟩
theorem Keeps.goes {s t : State} (h : Keeps s t) : Goes s t := ⟨h.1 ▸ IoStep.refl _, h.2⟩
theorem Goes.rfl {s : State} : Goes s s := Keeps.rfl.goes
theorem Goes.trans {s t u : State} (h : Goes s t) (g : Goes t u) : Goes s u := ⟨h.1.trans g.1, g.2.trans h.2⟩

/-- A fold of steps that keep the I/O die keeps it. -/
theorem keeps_foldl {α : Type} {f : State → α → State} (h : ∀ s a, Keeps s (f s a)) (l : List α) (s : State) :
    Keeps s (l.foldl f s) := by
  induction l generalizing s with
  | nil => exact .rfl
  | cons a t ih => exact (h s a).trans (ih _)

theorem goes_foldl {α : Type} {f : State → α → State} (h : ∀ s a, Goes s (f s a)) (l : List α) (s : State) :
    Goes s (l.foldl f s) := by
  induction l generalizing s with
  | nil => exact .rfl
  | cons a t ih => exact (h s a).trans (ih _)

theorem keeps_modNet (s : State) (f : Net → Net) : Keeps s (s.modNet f) := ⟨rfl, rfl⟩
theorem keeps_modChip (s : State) (f : Chip → Chip) : Keeps s (s.modChip f) := ⟨rfl, rfl⟩
theorem keeps_chip (s : State) (c : Chip) : Keeps s { s with chip := c } := ⟨rfl, rfl⟩
theorem keeps_modTx (s : State) (k : Nat) (f : TxStream → TxStream) : Keeps s (s.modTx k f) := ⟨rfl, rfl⟩
theorem keeps_modRx (s : State) (k : Nat) (f : RxStream → RxStream) : Keeps s (s.modRx k f) := ⟨rfl, rfl⟩

/-! ## Transport -/

theorem keeps_countAt (s : State) (p : Nat) (f : PortCounters → PortCounters) : Keeps s (countAt s p f) := by
  unfold countAt; split <;> exact ⟨rfl, rfl⟩

theorem keeps_countDrop (s : State) (p : Nat) (d : Drop) : Keeps s (countDrop s p d) := by
  cases d <;> first | exact keeps_countAt _ _ _ | exact .rfl

theorem keeps_putWire (s : State) (p da pcp et : Nat) (d : List Byte) : Keeps s (putWire s p da pcp et d) := ⟨rfl, rfl⟩

theorem keeps_sendMac (s : State) (f : MacFrame) : Keeps s (sendMac s f) := by
  unfold sendMac; split <;> exact ⟨rfl, rfl⟩

theorem keeps_pumpMac (s : State) : Keeps s (pumpMac s) := by
  unfold pumpMac
  split
  · exact .rfl
  · exact (keeps_modNet _ _).trans (keeps_foldl keeps_sendMac _ _)

theorem keeps_putVorby (s : State) (p r st mt : Nat) (c o : Bool) (psn mid ts : Nat) (a : W64) (pl : List Byte) :
    Keeps s (putVorby s p r st mt c o psn mid ts a pl) := by
  unfold putVorby
  simp only
  split
  · exact ((keeps_putWire _ _ _ _ _ _).trans (keeps_countAt _ _ _)).trans (keeps_modRx _ _ _)
  · exact (keeps_putWire _ _ _ _ _ _).trans (keeps_countAt _ _ _)

theorem keeps_sendAck (s : State) (r st : Nat) : Keeps s (sendAck s r st) := by
  unfold sendAck
  split
  · exact .rfl
  · split
    · exact .rfl
    · exact keeps_putVorby ..

theorem keeps_dropRequest (s : State) (n : Nat) : Keeps s (dropRequest s n) := ⟨rfl, rfl⟩

theorem keeps_requestNack (s : State) (r st m c : Nat) : Keeps s (requestNack s r st m c) := by
  unfold requestNack
  split
  · exact .rfl
  · split
    · exact keeps_dropRequest ..
    · exact (keeps_dropRequest ..).trans (keeps_modChip ..)

theorem keeps_requestReply (s : State) (r st m : Nat) (f : Flags) (p : List Byte) : Keeps s (requestReply s r st m f p) := by
  unfold requestReply
  split
  · exact .rfl
  · split
    · exact keeps_dropRequest ..
    · exact (keeps_dropRequest ..).trans (keeps_modChip ..)

theorem keeps_localNack (s : State) (r st t m c : Nat) : Keeps s (localNack s r st t m c) := by
  unfold localNack
  simp only
  split
  · exact keeps_countAt ..
  · exact (keeps_countAt ..).trans (keeps_requestNack ..)

theorem keeps_emit {s t : State} {r st : Nat} {f : TxFrame} (h : emit s r st f = some t) : Keeps s t := by
  unfold emit at h
  split at h
  · cases h
  · split at h
    · cases h
    · cases h; exact keeps_putVorby ..

theorem keeps_countNack (s : State) (p : Nat) (f : TxFrame) : Keeps s (countNack s p f) := by
  unfold countNack; split
  · exact keeps_countAt ..
  · exact .rfl

theorem keeps_pumpStream (s : State) (k : Nat) : Keeps s (pumpStream s k) := by
  unfold pumpStream
  refine (keeps_modTx _ _ _).trans (keeps_foldl (fun s f => ?_) _ _)
  split
  · exact .rfl
  · split
    · rename_i h; exact ((keeps_emit h).trans (keeps_countNack ..)).trans (keeps_modTx _ _ _)
    · exact .rfl

theorem keeps_pumpTx (s : State) : Keeps s (pumpTx s) := by
  refine keeps_foldl (fun s e => ?_) _ _
  split
  · exact .rfl
  · exact keeps_pumpStream ..

theorem keeps_toSelf (s : State) (st mt m ts : Nat) (p : List Byte) : Keeps s (toSelf s st mt m ts p) := by
  unfold toSelf
  split
  · exact keeps_requestReply ..
  · exact (keeps_countAt _ _ _).trans (keeps_requestNack ..)
  · exact .rfl

theorem keeps_sendMsg (s : State) (r st mt : Nat) (c o : Bool) (m ts : Nat) (a : W64) (p : List Byte) :
    Keeps s (sendMsg s r st mt c o m ts a p) := by
  unfold sendMsg
  simp only
  split
  · exact keeps_toSelf ..
  · split
    · exact keeps_localNack ..
    · split
      · exact keeps_localNack ..
      · exact keeps_modTx ..

theorem keeps_timeoutStream (s : State) (k : Nat) : Keeps s (timeoutStream s k) := by
  unfold timeoutStream
  exact (keeps_modTx _ _ _).trans (keeps_foldl (fun s f => keeps_localNack ..) _ _)

theorem keeps_failStream (s : State) (k : Nat) : Keeps s (failStream s k) := by
  unfold failStream
  exact ((keeps_countAt _ _ _).trans (keeps_modNet _ _)).trans (keeps_timeoutStream _ _)

theorem keeps_retransmit (s : State) (k psn : Nat) (fast : Bool) : Keeps s (retransmit s k psn fast) := by
  unfold retransmit
  split
  · exact .rfl
  · rename_i f _
    simp only
    have after : ∀ (t : State) (c : Prop) [Decidable c] (g : TxStream → TxStream),
        Keeps t (if c then failStream (t.modTx k g) k else t.modTx k g) := fun t c _ g => by
      split
      · exact (keeps_modTx _ _ _).trans (keeps_failStream _ _)
      · exact keeps_modTx _ _ _
    split
    · split
      · exact .rfl
      · exact after ..
    · exact .rfl
    · rename_i h
      exact ((((keeps_emit h).trans (keeps_countNack ..)).trans (keeps_modTx _ _ _)).trans (keeps_countAt _ _ _)).trans (after ..)

theorem keeps_rtoExpiry (s : State) (r st psn : Nat) : Keeps s (rtoExpiry s r st psn) := by
  unfold rtoExpiry
  simp only
  split
  · split
    · exact .rfl
    · exact keeps_retransmit ..
  · exact .rfl

theorem keeps_applyAck (s : State) (r st a k : Nat) : Keeps s (applyAck s r st a k) := by
  unfold applyAck
  simp only
  split
  · exact .rfl
  · split <;> split <;>
      first | exact .rfl | exact (keeps_modTx _ _ _).trans (keeps_foldl (fun s f => keeps_retransmit ..) _ _)

theorem keeps_ackTimer (s : State) (r st : Nat) : Keeps s (ackTimer s r st) := by
  unfold ackTimer
  split
  · exact .rfl
  · split
    · exact .rfl
    · exact keeps_sendAck ..

theorem keeps_writeEpoch (s : State) (v : Nat) : Keeps s (writeEpoch s v) := by
  unfold writeEpoch
  split
  · exact .rfl
  · exact ((keeps_modNet _ _).trans (keeps_foldl (fun s e => keeps_timeoutStream ..) _ _)).trans (keeps_modNet _ _)

theorem keeps_pfcLevel (s : State) (p : Nat) : Keeps s (pfcLevel s p) := by
  unfold pfcLevel
  refine keeps_foldl (fun s prio => ?_) _ _
  simp only
  split
  · exact .rfl
  · split
    · exact (keeps_putWire _ _ _ _ _ _).trans (keeps_modNet _ _)
    · split
      · exact (keeps_putWire _ _ _ _ _ _).trans (keeps_modNet _ _)
      · exact .rfl

theorem keeps_receivePfc (s : State) (p : Nat) (d : List Byte) : Keeps s (receivePfc s p d) := ⟨rfl, rfl⟩

theorem keeps_pauseExpiry (s : State) (p k : Nat) : Keeps s (pauseExpiry s p k) := by
  unfold pauseExpiry
  simp only
  split
  · exact .rfl
  · exact keeps_modNet _ _

/-! ## Rings -/

theorem keeps_ringFault (s : State) (n : Nat) : Keeps s (ringFault s n) := ⟨rfl, rfl⟩

theorem keeps_seeTail (s : State) (n : Nat) : Keeps s (seeTail s n) := by
  unfold seeTail
  simp only
  split
  · exact .rfl
  · split <;> exact ⟨rfl, rfl⟩

theorem keeps_ringStore (s : State) (n : Nat) (b : List Byte) : Keeps s (ringStore s n b).2 := by
  unfold ringStore
  split
  · exact keeps_ringFault ..
  · split
    · exact (keeps_chip _ _).trans (keeps_ringFault ..)
    · exact (keeps_chip _ _).trans (keeps_modNet _ _)

theorem keeps_ringPut (s : State) (n : Nat) (b : List Byte) : Keeps s (ringPut s n b).2 := by
  unfold ringPut
  split
  · exact .rfl
  · split
    · exact .rfl
    · exact keeps_ringStore ..

theorem keeps_ringWrite (s : State) (n : Nat) (b : List Byte) : Keeps s (ringWrite s n b).2 := by
  unfold ringWrite
  split
  · exact .rfl
  · exact (keeps_seeTail s n).trans (keeps_ringPut ..)

theorem keeps_eventFrame (s : State) (n : Nat) : Keeps s (eventFrame s n) := by
  unfold eventFrame
  simp only
  split
  · exact .rfl
  · exact (keeps_modNet _ _).trans (keeps_sendMsg ..)

theorem keeps_eventFrames (s : State) (n k : Nat) : Keeps s (eventFrames s n k) := by
  induction k generalizing s with
  | zero => exact .rfl
  | succ k ih =>
    unfold eventFrames
    simp only
    split
    · exact .rfl
    · split
      · split
        · exact .rfl
        · exact (keeps_eventFrame s n).trans (ih _)
      · exact .rfl

theorem keeps_ringEvents (s : State) (n : Nat) : Keeps s (ringEvents s n) := keeps_eventFrames ..

theorem keeps_eventTimer (s : State) (n : Nat) : Keeps s (eventTimer s n) := by
  unfold eventTimer
  simp only
  split
  · exact .rfl
  · split
    · exact .rfl
    · exact keeps_eventFrame ..

theorem keeps_peerFault (s : State) (r c k m : Nat) (va : W64) (row : Nat) : Keeps s (peerFault s r c k m va row) := by
  unfold peerFault
  simp only
  have h := keeps_ringWrite s r ([2 * 2 ^ 56 + c * 2 ^ 48 + k * 2 ^ 32 + m, s.chip.timebase, va.toNat, row % 2 ^ 24, 0, 0, 0,
    0].flatMap (leBytes 8))
  split
  · rename_i t hw; rw [hw] at h; exact h.trans (keeps_ringEvents ..)
  · rename_i t hw; rw [hw] at h; exact h
  · rename_i t _ _ hw; rw [hw] at h; exact h.trans (keeps_modNet ..)

theorem keeps_completionWrite (s : State) (k : Nat) : Keeps s (completionWrite s k) := by
  unfold completionWrite
  split
  · exact .rfl
  · rename_i l _
    split
    · exact .rfl
    · simp only
      have h := keeps_ringWrite (s.modChip fun c => flushGathered c fun e => e.asid == l.asid) l.ring
        (completionBytes ((s.modChip fun c => flushGathered c fun e => e.asid == l.asid).chip.timebase) l)
      split
      · rename_i t hw; rw [hw] at h
        exact (((keeps_modChip _ _).trans h).trans (keeps_modChip _ _)).trans (keeps_ringEvents ..)
      · rename_i t _ hw; rw [hw] at h; exact (keeps_modChip _ _).trans h

/-! ## Fabric -/

theorem keeps_answerCmd (s : State) (c : Cmd) (a b : Nat) (d : List Byte) : Keeps s (answerCmd s c a b d) := keeps_sendMsg ..

theorem keeps_cmdArrive (s : State) (q : Nat) (c : Cmd) : Keeps s (cmdArrive s q c) := by
  unfold cmdArrive
  simp only
  split
  · exact (keeps_modNet _ _).trans (keeps_answerCmd ..)
  · split
    · exact (keeps_modNet _ _).trans (keeps_answerCmd ..)
    · exact keeps_modNet _ _

theorem keeps_replyMsg (s : State) (p : RxPending) (f : Flags) (d : List Byte) : Keeps s (replyMsg s p f d) := by
  unfold replyMsg
  simp only
  split
  · exact keeps_requestReply ..
  · exact keeps_sendMsg ..

theorem keeps_freeWindow (s : State) (p : RxPending) : Keeps s (freeWindow s p) := by
  unfold freeWindow
  split
  · exact keeps_modNet _ _
  · exact .rfl

theorem keeps_refuseMsg (s : State) (p : RxPending) (c : Nat) (va : W64) (w : Option WinRef) (b : Bool) :
    Keeps s (refuseMsg s p c va w b) := by
  unfold refuseMsg
  simp only
  have h : Keeps s (match w with
      | some w => peerFault s w.fring c p.msg.srank p.msg.msgid va (rowOf p.msg)
      | none => s) := by
    cases w
    · exact .rfl
    · exact keeps_peerFault ..
  split
  · exact (h.trans (keeps_countAt _ _ _)).trans (keeps_requestNack ..)
  · exact h.trans (keeps_sendMsg ..)

theorem keeps_refuseOrWait (s : State) (p : RxPending) (c : Nat) (va : W64) (w : Option WinRef) (b : Bool) :
    Keeps s (refuseOrWait s p c va w b).1 := by
  unfold refuseOrWait
  split
  · split
    · exact .rfl
    · split
      · exact (keeps_freeWindow _ _).trans (keeps_refuseMsg ..)
      · exact keeps_refuseMsg ..
  · exact keeps_refuseMsg ..

theorem keeps_accessMsg (s : State) (p : RxPending) (a : Nat) (ps : List (Nat × Nat × Nat)) : Keeps s (accessMsg s p a ps).1 := by
  unfold accessMsg
  have k : ∀ (c : Chip) (f : Flags) (d : List Byte), Keeps s (replyMsg (freeWindow { s with chip := c } p) p f d) :=
    fun c f d => ((keeps_chip s c).trans (keeps_freeWindow _ _)).trans (keeps_replyMsg ..)
  simp only
  split
  · exact .rfl
  · split
    · split
      · exact keeps_refuseOrWait ..
      · exact k _ _ _
    · split
      · exact keeps_refuseOrWait ..
      · exact k _ _ _
    · exact k _ _ _
    · exact k _ _ _

theorem keeps_performMsg (s : State) (b : List RxPending) (p : RxPending) (a : Nat) (ps : List (Nat × Nat × Nat)) :
    Keeps s (performMsg s b p a ps).1 := by
  unfold performMsg
  split
  · exact .rfl
  · exact keeps_accessMsg ..

theorem keeps_serveMsg (s : State) (b : List RxPending) (p : RxPending) (w : WinRef) : Keeps s (serveMsg s b p w).1 := by
  unfold serveMsg
  split
  · exact keeps_refuseOrWait ..
  · exact .rfl
  · split
    · exact .rfl
    · split
      · exact (keeps_chip s _).trans (keeps_refuseOrWait ..)
      · exact (keeps_chip s _).trans (keeps_performMsg ..)

theorem keeps_tryMsg (s : State) (b : List RxPending) (p : RxPending) : Keeps s (tryMsg s b p).1 := by
  unfold tryMsg
  simp only
  split
  · exact .rfl
  · have one : Keeps s (match p.window with
        | some w => serveMsg s b p w
        | none => match windowCheck s p.msg with
          | .error (code, w) => refuseOrWait s p code p.msg.addr (w.map (winRef s)) false
          | .ok w =>
            if inFlight s ≥ 1023 then (s, some p)
            else
              let r := winRef s w
              let s := s.modNet fun n => n.setWindow w { n.window w with inflight := (n.window w).inflight + 1 }
              serveMsg s b { p with begun := true, window := some r } r).1 := by
      split
      · exact keeps_serveMsg ..
      · split
        · exact keeps_refuseOrWait ..
        · split
          · exact .rfl
          · exact (keeps_modNet _ _).trans (keeps_serveMsg ..)
    split
    · split
      · exact keeps_refuseMsg ..
      · exact keeps_cmdArrive ..
    · exact keeps_requestReply ..
    · exact (keeps_countAt _ _ _).trans (keeps_requestNack ..)
    all_goals first | exact one | exact .rfl

theorem keeps_pumpRx (s : State) : Keeps s (pumpRx s) := by
  unfold pumpRx
  simp only
  split
  · exact .rfl
  · refine (keeps_modNet _ _).trans (keeps_foldl (fun s p => ?_) _ _)
    split
    · exact (keeps_tryMsg ..).trans (keeps_modNet _ _)
    · exact keeps_tryMsg ..

theorem keeps_sendOut (s : State) (m : OutMsg) : Keeps s (sendOut s m) := by
  unfold sendOut
  simp only
  cases m.stream <;> simp only <;> split
  · exact ((keeps_chip s _).trans (keeps_modNet _ _)).trans (keeps_modNet _ _)
  · exact ((keeps_chip s _).trans (keeps_modNet _ _)).trans (keeps_sendMsg ..)
  · exact (keeps_modNet _ _).trans (keeps_modNet _ _)
  · exact (keeps_modNet _ _).trans (keeps_sendMsg ..)

theorem keeps_flushOut (s : State) : Keeps s (flushOut s) := by
  unfold flushOut
  split
  · exact .rfl
  · exact (keeps_modChip _ _).trans (keeps_foldl keeps_sendOut _ _)

theorem keeps_ackIn (s : State) (h : Hdr) : Keeps s (ackIn s h) := by
  unfold ackIn
  split
  · exact keeps_applyAck ..
  · exact .rfl

theorem keeps_noteEpoch (s : State) (h : Hdr) : Keeps s (noteEpoch s h) := by
  unfold noteEpoch
  split
  · exact .rfl
  · exact keeps_modNet _ _

theorem keeps_ackMany (s : State) (h : Hdr) : Keeps s (ackMany s h) := by
  unfold ackMany
  split
  · exact keeps_sendAck ..
  · exact .rfl

theorem keeps_takeFrame (s : State) (h : Hdr) (m : Msg) : Keeps s (takeFrame s h m) := ⟨rfl, rfl⟩

theorem keeps_countRx (s : State) (p : Nat) : Keeps s (countRx s p) := keeps_countAt ..

theorem keeps_acceptVorby (s : State) (p k z : Nat) (h : Hdr) (a : W64) (d : List Byte) : Keeps s (acceptVorby s p k z h a d) := by
  unfold acceptVorby acceptData
  split
  · exact (keeps_countRx ..).trans (keeps_ackIn ..)
  · split
    · exact ((keeps_noteEpoch ..).trans (keeps_countAt ..)).trans (keeps_sendAck ..)
    · exact ((((keeps_noteEpoch ..).trans (keeps_countRx ..)).trans (keeps_ackIn ..)).trans (keeps_takeFrame ..)).trans
        (keeps_ackMany ..)

theorem keeps_receiveVorby (s : State) (p : Nat) (e : Eth) : Keeps s (receiveVorby s p e) := by
  unfold receiveVorby
  split
  · exact keeps_countDrop ..
  · split
    · exact keeps_countDrop ..
    · exact keeps_acceptVorby ..

end Sys2Proof.Laws
end

