-- ==== Sys2Proof/Laws/Goes.lean ====
section
/-! SUPPORT. What commands, management writes, boot, freeze and background work do to the I/O die: IoStep, once for each shared
operation. -/

namespace Sys2Proof.Laws
open Sys2Proof.Machine

theorem goes_modIo {s : State} {f : Io → Io} (h : IoStep s.io (f s.io)) : Goes s (s.modIo f) := ⟨h, rfl⟩

/-- A change of fields that the invariant does not name. -/
theorem ioStep_of_eq {i j : Io} (ph : j.phase = i.phase := by rfl) (du : j.duty = i.duty := by rfl)
    (pl : j.plim = i.plim := by rfl) (fl : j.flash = i.flash := by rfl) (st : j.staging = i.staging := by rfl)
    (fa : j.fail = i.fail := by rfl) (op : j.flOp = i.flOp := by rfl) (se : j.frzSeen = i.frzSeen := by rfl)
    (ca : j.frzCause = i.frzCause := by rfl) (pe : j.frzPend = i.frzPend := by rfl) (ro : j.rosel = i.rosel := by rfl)
    (rd : j.rdlock = i.rdlock := by rfl) (sv : j.fuseSvn = i.fuseSvn := by rfl) (rt : j.fuseRoot = i.fuseRoot := by rfl)
    (sn : j.serial = i.serial := by rfl) (pa : j.perstAt = i.perstAt := by rfl) : IoStep i j :=
  ⟨fun h => ⟨by rw [du]; exact h.duty, by rw [pl]; exact h.plim, by rw [fl]; exact h.flash, by rw [st]; exact h.staging,
      by rw [fa, ph]; exact h.fail, by rw [op, ph]; exact h.op, by rw [ph, se, ca]; exact h.frozen, by rw [pe]; exact h.pend,
      by rw [ro, rd]; exact h.rosel⟩,
    fun h => by rw [ph]; exact h, fun k => by rw [sv], ⟨rt, rd, sn⟩, pa⟩

/-! ## Freeze, boot -/

theorem addTrigger_ne {b : Nat} (hb : b < 4) (x : BitVec 4) : addTrigger x b ≠ 0 := by
  have : b = 0 ∨ b = 1 ∨ b = 2 ∨ b = 3 := by omega
  rcases this with rfl | rfl | rfl | rfl <;> revert x <;> decide

theorem noteTrigger_ne {p : Option (Nat × BitVec 4)} (h : ∀ q, p = some q → q.2 ≠ 0) (n : Nat) {b : Nat} (hb : b < 4) :
    (noteTrigger p n b).2 ≠ 0 := by
  unfold noteTrigger
  split
  · exact addTrigger_ne hb _
  · dsimp only; split
    · exact addTrigger_ne hb _
    · exact h _ rfl

theorem goes_freezeDue (s : State) : Goes s (freezeDue s) := by
  unfold freezeDue
  split
  · rename_i n seen hp
    split
    · refine ⟨⟨fun h => ?_, fun _ => rfl, fun _ => le_refl _, ⟨rfl, rfl, rfl⟩, rfl⟩, rfl⟩
      exact { h with fail := ⟨h.fail.1, nofun⟩, op := fun o ho => ⟨(h.op o ho).1, .inr rfl⟩
                     frozen := fun _ => ⟨h.pend _ hp, rfl⟩, pend := nofun }
    · exact .rfl
  · exact .rfl

theorem goes_freeze (s : State) (b : Nat) (hb : b < 4) : Goes s (freeze s b) := by
  unfold freeze
  simp only
  split
  · exact .rfl
  · split
    · refine goes_modIo ⟨fun h => ?_, id, fun _ => le_refl _, ⟨rfl, rfl, rfl⟩, rfl⟩
      exact { h with frozen := fun _ => ⟨addTrigger_ne hb _, rfl⟩ }
    · exact .rfl
  · refine (goes_modIo ⟨fun h => ?_, id, fun _ => le_refl _, ⟨rfl, rfl, rfl⟩, rfl⟩).trans (goes_freezeDue _)
    exact { h with pend := fun p hp => by injection hp with hp; subst hp; exact noteTrigger_ne h.pend _ hb }

theorem verifyType_eq {i j : Io} {t : Nat} (h : verifyType i t = some j) :
    ∃ sl me bo, j = { i with slots := sl, meas := me, bootSvn := bo } := by
  unfold verifyType at h
  cases hc : chooseSlot i t with
  | none => rw [hc] at h; cases h
  | some b => rw [hc] at h; simp only [Option.map_some, Option.some.injEq] at h; exact ⟨_, _, _, h.symm⟩

theorem ioStep_verifyFrom {i : Io} (ts : List Nat) (ht : ∀ t ∈ ts, t = 1 ∨ t = 2 ∨ t = 3) (hp : i.phase = .verify) :
    IoStep i (verifyFrom i ts) := by
  induction ts generalizing i with
  | nil =>
    refine ⟨fun h => ⟨h.duty, h.plim, h.flash, h.staging, ⟨h.fail.1, fun hf => (by cases hf)⟩,
      fun o ho => ?_, fun hf => (by cases hf), h.pend, h.rosel⟩, fun hf => ?_, fun _ => le_refl _, ⟨rfl, rfl, rfl⟩, rfl⟩
    · have := (h.op o ho).2; rw [hp] at this; rcases this with this | this <;> cases this
    · rw [hp] at hf; cases hf
  | cons t ts ih =>
    unfold verifyFrom
    have h2 := ht t (by simp)
    split
    · rename_i j hv
      obtain ⟨a, b, c, rfl⟩ := verifyType_eq hv
      exact IoStep.trans (j := { i with slots := a, meas := b, bootSvn := c })
        (ioStep_of_eq) (ih (fun x hx => ht x (by simp [hx])) hp)
    · refine ⟨fun h => ⟨h.duty, h.plim, h.flash, h.staging, ⟨by simp only; omega, fun _ => h2⟩,
        fun o ho => ⟨(h.op o ho).1, .inl rfl⟩, fun hf => (by cases hf), h.pend, h.rosel⟩, fun hf => ?_, fun _ => le_refl _, ⟨rfl, rfl, rfl⟩, rfl⟩
      rw [hp] at hf; cases hf

theorem ioStep_verifyAll {i : Io} (hp : i.phase = .verify) : IoStep i (verifyAll i) :=
  ioStep_verifyFrom _ (by simp) hp

theorem goes_phaseComplete (s : State) (o : BootOutcome) (ho : o.wf = true) : Goes s (phaseComplete s o) := by
  have tr : ∀ (i : Io), i.phase = .train → ∀ a b : Nat, a ≤ 6 → IoStep i { i with fail := a, failUnit := b } := by
    intro i hp a b ha
    refine ⟨fun h => ⟨h.duty, h.plim, h.flash, h.staging, ⟨ha, fun hf => ?_⟩, h.op, h.frozen, h.pend, h.rosel⟩, id, fun _ => le_refl _,
      ⟨rfl, rfl, rfl⟩, rfl⟩
    simp only [hp] at hf; cases hf
  unfold phaseComplete
  split
  · exact goes_modIo (ioStep_verifyAll ‹_›)
  · rename_i hp
    split
    · exact .rfl
    · split
      · refine goes_modIo ⟨fun h => ⟨h.duty, h.plim, h.flash, h.staging, ⟨h.fail.1, fun hf => by cases hf⟩, fun o ho => ?_,
          fun hf => (by cases hf), h.pend, h.rosel⟩, fun hf => ?_, fun _ => le_refl _, ⟨rfl, rfl, rfl⟩, rfl⟩
        · have := (h.op o ho).2; rw [hp] at this; rcases this with this | this <;> cases this
        · rw [hp] at hf; cases hf
      all_goals exact goes_modIo (tr _ hp _ _ (by omega))
  · rename_i hp
    refine ⟨⟨fun h => ⟨h.duty, h.plim, h.flash, h.staging, ⟨h.fail.1, fun hf => by cases hf⟩, fun o ho => ?_,
        fun hf => (by cases hf), h.pend, h.rosel⟩, fun hf => ?_, fun _ => le_refl _, ⟨rfl, rfl, rfl⟩, rfl⟩, rfl⟩
    · have := (h.op o ho).2; rw [hp] at this; rcases this with this | this <;> cases this
    · rw [hp] at hf; cases hf
  · exact .rfl

theorem ioStep_refreshShown (i : Io) : IoStep i i.refreshShown :=
  ioStep_of_eq

theorem goes_perstHigh (s : State) : Goes s (perstHigh s) := by
  unfold perstHigh
  split
  · rename_i hp
    refine goes_modIo (IoStep.trans (j := { s.io with phase := .verify }) ?_ (ioStep_refreshShown _))
    refine ⟨fun h => ⟨h.duty, h.plim, h.flash, h.staging, ⟨h.fail.1, fun hf => by cases hf⟩, fun o ho => ?_,
        fun hf => (by cases hf), h.pend, h.rosel⟩, fun hf => ?_, fun _ => le_refl _, ⟨rfl, rfl, rfl⟩, rfl⟩
    · have := (h.op o ho).2; rw [hp] at this; rcases this with this | this <;> cases this
    · rw [hp] at hf; cases hf
  · exact .rfl

/-- PERST_N's fall keeps the invariant, and the fuses as they are. -/
theorem inv_perstLow {s : State} (h : s.Inv) : (perstLow s).Inv :=
  ⟨by simp [perstLow, Io.afterReset, Io.init], by simp [perstLow, Io.afterReset, Io.init], h.flash,
    by simp [perstLow, Io.afterReset, Io.init, Memory.wf], by simp [perstLow, Io.afterReset, Io.init],
    by simp [perstLow, Io.afterReset, Io.init], by simp [perstLow, Io.afterReset, Io.init], nofun,
    by simp [perstLow, Io.afterReset, Io.init]⟩

/-! ## Management writes -/

theorem goes_writeRosel (s : State) (w : W64) : Goes s (writeRosel s w) := by
  unfold writeRosel
  split
  · rename_i hp
    refine goes_modIo ⟨fun h => ⟨h.duty, h.plim, h.flash, h.staging, h.fail, h.op, h.frozen, h.pend, ?_, fun hr => ?_⟩, id,
      fun _ => le_refl _, ⟨rfl, rfl, rfl⟩, rfl⟩
    · show w &&& 0xFFFFFFFFFFFF0000 &&& 0xFFFF = 0
      rw [BitVec.and_assoc, show (0xFFFFFFFFFFFF0000 : W64) &&& 0xFFFF = 0 from by decide]
      simp
    · have hr' : s.io.rdlock = true := hr
      simp [hr'] at hp
  · exact .rfl

theorem goes_writeFlctl (s : State) (w : W64) : Goes s (writeFlctl s w) := by
  unfold writeFlctl
  split
  · exact .rfl
  · rename_i hp
    have hph : s.io.phase = .recovery := by
      by_contra hc; exact hp (.inl hc)
    have fail : ∀ a : Nat, IoStep s.io { s.io with flErr := true, flAddr := a } := fun a =>
      ioStep_of_eq
    have start : ∀ (a : Nat) (o : FlashOp), o.Ok → IoStep s.io { s.io with flErr := false, flAddr := a, flOp := some o } := by
      intro a o ho
      refine ⟨fun h => ⟨h.duty, h.plim, h.flash, h.staging, h.fail, fun x hx => ?_, h.frozen, h.pend, h.rosel⟩, id, fun _ => le_refl _,
        ⟨rfl, rfl, rfl⟩, rfl⟩
      simp only [Option.some.injEq] at hx
      subst hx
      exact ⟨ho, .inl hph⟩
    split
    · unfold flStart; split
      · exact goes_modIo (fail _)
      · exact goes_modIo (start _ _ (by simp only [FlashOp.Ok]; omega))
    split
    · unfold flStart; split
      · exact goes_modIo (fail _)
      · exact goes_modIo (start _ _ (by simp only [FlashOp.Ok]; omega))
    · exact .rfl

theorem goes_writeStaging (s : State) (off : Nat) (bs : List Byte) (ho : off < 1024) : Goes s (writeStaging s off bs) := by
  unfold writeStaging
  split
  · exact .rfl
  · refine goes_modIo ⟨fun h => ⟨h.duty, h.plim, h.flash, ⟨wf_write h.staging.1, fun e he => ?_⟩, h.fail, h.op, h.frozen, h.pend, h.rosel⟩,
      id, fun _ => le_refl _, ⟨rfl, rfl, rfl⟩, rfl⟩
    rcases write_mem he with he | he
    · exact h.staging.2 e he
    · simp only [List.length_take] at he; omega

theorem goes_flashDone (s : State) : Goes s (flashDone s) := by
  unfold flashDone
  refine goes_modIo ?_
  cases ho : s.io.flOp with
  | none => exact IoStep.refl _
  | some o =>
    cases o with
    | erase a =>
      refine ⟨fun h => ?_, id, fun _ => le_refl _, ⟨rfl, rfl, rfl⟩, rfl⟩
      have hk := (h.op _ ho).1
      refine ⟨h.duty, h.plim, ⟨wf_write h.flash.1, fun e he => ?_⟩, h.staging, h.fail, fun x hx => (by cases hx), h.frozen, h.pend, h.rosel⟩
      rcases write_mem he with he | he
      · exact h.flash.2 e he
      · simp only [List.length_replicate] at he
        simp only [FlashOp.Ok, flashBytes] at *
        omega
    | program a =>
      refine ⟨fun h => ?_, id, fun _ => le_refl _, ⟨rfl, rfl, rfl⟩, rfl⟩
      have hk := (h.op _ ho).1
      refine ⟨h.duty, h.plim, ⟨wf_write h.flash.1, fun e he => ?_⟩, h.staging, h.fail, fun x hx => (by cases hx), h.frozen, h.pend, h.rosel⟩
      rcases write_mem he with he | he
      · exact h.flash.2 e he
      · simp only [List.length_map, List.length_zip, read_length] at he
        simp only [FlashOp.Ok, flashBytes] at *
        omega

theorem goes_writePower (s : State) (w : Nat) : Goes s (writePower s w) := by
  unfold writePower
  refine goes_modIo ⟨fun h => ⟨h.duty, ?_, h.flash, h.staging, h.fail, h.op, h.frozen, h.pend, h.rosel⟩, id, fun _ => le_refl _,
    ⟨rfl, rfl, rfl⟩, rfl⟩
  simp only; omega

theorem keeps_writePort (s : State) (p o w : Nat) : Keeps s (writePort s p o w) := by
  unfold writePort
  simp only
  split
  · split
    · exact keeps_writeEpoch ..
    · exact .rfl
  · split
    · split <;> exact ⟨rfl, rfl⟩
    · exact keeps_modNet ..
  · exact keeps_modNet ..
  · exact keeps_modNet ..
  · exact .rfl

theorem keeps_disableQueue (s : State) (q : Nat) : Keeps s (disableQueue s q) := by
  unfold disableQueue
  exact (keeps_modNet _ _).trans (keeps_foldl (fun s c => keeps_answerCmd ..) _ _)

theorem keeps_writeQueue (s : State) (q w : Nat) : Keeps s (writeQueue s q w) := by
  unfold writeQueue
  simp only
  split
  · exact (keeps_modNet _ _).trans (keeps_disableQueue ..)
  · exact keeps_modNet ..

theorem keeps_enableRing (s : State) (n : Nat) : Keeps s (enableRing s n).2 := by
  unfold enableRing
  simp only
  split <;> exact ⟨rfl, rfl⟩

theorem keeps_writeRing (s : State) (n o w : Nat) : Keeps s (writeRing s n o w).2 := by
  unfold writeRing
  simp only
  split
  · split
    · exact keeps_modNet ..
    · exact .rfl
  · split
    · split
      · exact (keeps_modNet _ _).trans (keeps_enableRing ..)
      · exact keeps_modNet ..
    · exact keeps_modNet ..
    · exact keeps_modNet ..
    · exact .rfl

theorem goes_ite {s : State} {c : Prop} [Decidable c] {x y : Bool × State} (hx : c → Goes s x.2) (hy : ¬ c → Goes s y.2) :
    Goes s (if c then x else y).2 := by
  by_cases h : c
  · rw [if_pos h]; exact hx h
  · rw [if_neg h]; exact hy h

theorem goes_mgmtWrite (s : State) (a : Nat) (w : W64) : Goes s (mgmtWrite s a w).2 := by
  unfold mgmtWrite
  refine goes_ite (fun _ => goes_writePower ..) fun _ => ?_
  refine goes_ite (fun _ => (keeps_writePort ..).goes) fun _ => ?_
  refine goes_ite (fun _ => (keeps_modNet _ _).goes) fun _ => ?_
  refine goes_ite (fun _ => (keeps_modNet _ _).goes) fun _ => ?_
  refine goes_ite (fun _ => goes_writeRosel ..) fun _ => ?_
  refine goes_ite (fun _ => goes_writeFlctl ..) fun _ => ?_
  refine goes_ite (fun _ => ?_) fun _ => ?_
  · show Goes s (if _ then _ else s)
    split
    · exact (keeps_writeQueue ..).goes
    · exact .rfl
  refine goes_ite (fun _ => (keeps_writeRing ..).goes) fun _ => ?_
  refine goes_ite (fun _ => goes_writeStaging _ _ _ (by omega)) fun _ => ?_
  refine goes_ite (fun _ => ?_) fun _ => .rfl
  show Goes s (if _ then _ else s)
  split
  · exact (keeps_modChip _ _).goes
  · exact .rfl

theorem goes_mgmtWrites (s : State) (a : Nat) (ws : List W64) : Goes s (mgmtWrites s a ws).2 := by
  induction ws generalizing s a with
  | nil => exact .rfl
  | cons w t ih =>
    unfold mgmtWrites
    have h := goes_mgmtWrite s a w
    split
    · rename_i u hu; rw [hu] at h; exact h.trans (ih u _)
    · exact h

theorem goes_receiveMgmt (s : State) (f : RxFrame) (e : Eth) : Goes s (receiveMgmt s f e) := by
  have an : ∀ (t : State) (h : MHdr) (ok : Bool) (d : List Byte), Goes t (mgmtAnswer t f e h ok d) := fun t h ok d =>
    (keeps_sendMac ..).goes
  unfold receiveMgmt
  simp only
  split
  · exact .rfl
  · split
    · exact an ..
    · split
      · exact an ..
      · split
        · exact an ..
        · exact (goes_mgmtWrites ..).trans (an ..)

theorem goes_receive (s : State) (f : RxFrame) : Goes s (receive s f) := by
  unfold receive
  split
  · exact (keeps_countDrop ..).goes
  · split
    · exact goes_receiveMgmt ..
    · split
      · exact ((keeps_receiveVorby ..).trans (keeps_pfcLevel ..)).goes
      · exact (keeps_receivePfc ..).goes

/-! ## Commands -/

theorem ioStep_flash {i : Io} {m : Memory} (h : i.Inv → m.wf flashDflt = true ∧ ∀ e ∈ m, e.1 < flashBytes) :
    IoStep i { i with flash := m } :=
  ⟨fun x => ⟨x.duty, x.plim, h x, x.staging, x.fail, x.op, x.frozen, x.pend, x.rosel⟩, id, fun _ => le_refl _, ⟨rfl, rfl, rfl⟩, rfl⟩

theorem ioStep_fwCommit (i : Io) (t : Nat) (c : Bool) (v : Nat) : IoStep i (fwCommit i t c v) := by
  unfold fwCommit
  split
  · rename_i h
    refine ⟨fun x => ⟨x.duty, x.plim, x.flash, x.staging, x.fail, x.op, x.frozen, x.pend, x.rosel⟩, id, fun k => ?_, ⟨rfl, rfl, rfl⟩, rfl⟩
    simp only [Fin.getElem_fin, Vector.getElem_setIfInBounds]
    split
    · rename_i hk
      have hv : fusedSvn i t = i.fuseSvn[k.val] := by
        have hk3 := k.isLt
        simp [fusedSvn, hk, hk3, List.getD_eq_getElem?_getD]
      omega
    · exact le_refl _
  · exact IoStep.refl _

/-- The slots of a type lie within the flash. -/
theorem slot_in_flash {t b : Nat} (hb : b < 2) : slotBase t b + slotSize t ≤ flashBytes := by
  have hb : b = 0 ∨ b = 1 := by omega
  match t with
  | 0 | 1 | 2 => rcases hb with rfl | rfl <;> decide
  | t + 3 =>
    show 0x2400000 + b * 0x100000 + 0x100000 ≤ 0x4000000
    omega

theorem goes_fwload (s : State) (t slot : Nat) (c : Bool) (img : List Byte) (hs : slot < 2) (hl : img.length ≤ slotSize t) :
    Goes s (fwload s t slot c img).2 := by
  have hz := slot_in_flash (t := t) hs
  have he : s.io.Inv → (fwErased s.io t slot).wf flashDflt = true ∧ ∀ e ∈ fwErased s.io t slot, e.1 < flashBytes := by
    intro h
    refine ⟨wf_write h.flash.1, fun e he => ?_⟩
    rcases write_mem he with he | he
    · exact h.flash.2 e he
    · simp only [List.length_replicate] at he; omega
  have hw : s.io.Inv → (fwWritten s.io t slot img).wf flashDflt = true ∧ ∀ e ∈ fwWritten s.io t slot img, e.1 < flashBytes := by
    intro h
    refine ⟨wf_write (he h).1, fun e hm => ?_⟩
    rcases write_mem hm with hm | hm
    · exact (he h).2 e hm
    · omega
  unfold fwload
  split
  · exact .rfl
  · split
    · exact .rfl
    · split
      · exact goes_modIo (ioStep_flash he)
      · exact goes_modIo ((ioStep_flash hw).trans (ioStep_fwCommit ..))

/-- A range that is read gives no more bytes than were asked for. -/
theorem pagePieces_sum (fuel va n : Nat) : ((pagePieces fuel va n).map (·.2)).sum ≤ n := by
  induction fuel generalizing va n with
  | zero => simp [pagePieces]
  | succ k ih =>
    unfold pagePieces
    split
    · simp
    · simp only [List.map_cons, List.sum_cons]
      have := ih (va + min n (4096 - va % 4096)) (n - min n (4096 - va % 4096))
      omega

theorem xlPieces_lens {d asid : Nat} {a : Acc} (l : List (Nat × Nat)) (st : Except (Bool × Nat) (List (Nat × Nat)) × Chip)
    {qs : List (Nat × Nat)} {u : Chip} (h : l.foldl (xlPiece d asid a) st = (.ok qs, u)) :
    ∃ ps, st.1 = .ok ps ∧ qs.map (·.2) = ps.map (·.2) ++ l.map (·.2) := by
  induction l generalizing st with
  | nil => simp only [List.foldl_nil] at h; subst h; exact ⟨qs, rfl, by simp⟩
  | cons pc l ih =>
    obtain ⟨ps, h1, h2⟩ := ih _ h
    unfold xlPiece at h1
    split at h1
    · cases h1
    · split at h1
      · cases h1
      · cases h1
        exact ⟨_, rfl, by rw [h2]; simp⟩

theorem xlRange_lens {s : Chip} {d asid va n : Nat} {a : Acc} {ps : List (Nat × Nat)} {t : Chip}
    (h : xlRange s d asid va n a = (.ok ps, t)) : ps.map (·.2) = (piecesOf va n).map (·.2) := by
  obtain ⟨qs, h1, h2⟩ := xlPieces_lens _ _ h
  cases h1
  simpa using h2

theorem ioRange_len {s : Chip} {asid va n : Nat} {a : Acc} {ps : List (Nat × Nat × Nat)} {t : Chip}
    (h : ioRange s asid va n a = (.ok ps, t)) : (ps.map (·.2.2)).sum ≤ n := by
  unfold ioRange at h
  split at h
  · cases h
  · rename_i qs u hq
    have hl := xlRange_lens hq
    cases h
    have : (((piecesOf va n).zip qs |>.map fun x => (x.1.1, x.2.1, x.2.2)).map (·.2.2)) = qs.map (·.2) := by
      rw [List.map_map]
      have h2 : ((fun x : Nat × Nat × Nat => x.2.2) ∘ fun x : (Nat × Nat) × Nat × Nat => (x.1.1, x.2.1, x.2.2)) =
        (fun x => x.2) ∘ Prod.snd := rfl
      rw [h2, ← List.map_map, List.map_snd_zip]
      have := congrArg List.length hl
      simp at this; omega
    rw [this, hl]
    exact pagePieces_sum ..

theorem cmdRead_len {s : Chip} {asid va n : Nat} {bs : List Byte} {t : Chip} (h : cmdRead s asid va n = (.ok bs, t)) :
    bs.length ≤ n := by
  unfold cmdRead at h
  split at h
  · cases h
  split at h
  · cases h
  · rename_i ps u hq
    have hl := ioRange_len hq
    split at h
    · cases h
    · split at h
      · cases h
      · simp only [ioRead] at h
        cases h
        have : (ps.flatMap fun p => u.rdMem p.2.1 p.2.2).length = (ps.map (·.2.2)).sum := by
          rw [List.length_flatMap]
          congr 1
          apply List.map_congr_left
          intro x _
          simp [Chip.rdMem, read_length]
        omega

theorem fwSlot_lt {i : Io} {t sl : Nat} (h : sl < 4) (h3 : sl ≠ 3) : fwSlot i t sl < 2 := by
  unfold fwSlot bootedSlot
  repeat' split
  all_goals omega

theorem goes_fwloadBody (s : State) (a : Nat) (sup : Bool) (b : List Byte) : Goes s (fwloadBody s a sup b).2 := by
  unfold fwloadBody
  simp only
  split
  · exact .rfl
  · split
    · exact .rfl
    · rename_i hc
      split
      · exact (keeps_chip _ _).goes
      · rename_i img c hr
        refine (keeps_chip s c).goes.trans (goes_fwload _ _ _ _ _ ?_ ?_)
        · refine fwSlot_lt (by simp only [nfld]; omega) (by tauto)
        · have := cmdRead_len hr; omega

theorem keeps_onChipBody (s : State) (r : CmdRes × Chip) : Keeps s (onChipBody s r).2 := keeps_chip _ _

theorem keeps_waitRead (s : State) (a c : Nat) (va v : W64) : Keeps s (waitRead s a c va v).2 := by
  unfold waitRead
  split
  · exact .rfl
  · dsimp only; split
    · exact keeps_chip _ _
    · exact .rfl

theorem keeps_markRx (s : State) (c : Cmd) (p : TlbEnt → Bool) : Keeps s (markRx s c p) := keeps_modNet _ _

theorem goes_undone (s : State) (r : CmdRes × State) (h : Goes s r.2) : Goes s (undone s r).2 := by
  unfold undone
  split
  · split
    · exact h
    · exact ⟨h.1, h.2⟩
  · exact ⟨h.1, h.2⟩
  · exact h

theorem goes_cmdEffect (s : State) (q a : Nat) (sup : Bool) (no : Nat) (c : Cmd) : Goes s (cmdEffect s q a sup no c).2 := by
  unfold cmdEffect
  simp only
  split
  · exact .rfl
  · split
    · exact .rfl
    · split
      · exact .rfl
      · split
        · exact .rfl
        · unfold readBody
          split
          · exact .rfl
          · split <;> exact (keeps_chip _ _).goes
        · exact (keeps_onChipBody ..).goes
        · unfold launchBody
          simp only
          split <;> exact (keeps_chip _ _).goes
        · unfold preemptBody
          split
          · exact .rfl
          · split <;> exact .rfl
        · unfold killBody
          split <;> exact .rfl
        · unfold tlbinvBody
          simp only
          split
          · exact .rfl
          · split
            · exact .rfl
            · split
              · exact .rfl
              · exact ((keeps_markRx ..).trans (keeps_chip _ _)).goes
        · unfold harvestBody
          split
          · exact .rfl
          · split
            · exact .rfl
            · exact (keeps_modChip _ _).goes
        · unfold placeBody
          simp only
          split
          · exact .rfl
          · split
            · exact .rfl
            · split <;> exact (keeps_chip _ _).goes
        · exact (keeps_onChipBody ..).goes
        · unfold waitBody
          simp only
          have h := keeps_waitRead s a (nfld (cmdWord c.bytes 1) 0 2) (BitVec.ofNat 64 (cmdWord c.bytes 2))
            (BitVec.ofNat 64 (cmdWord c.bytes 3))
          split <;> rename_i hw <;> rw [hw] at h <;> exact h.goes
        · exact (keeps_onChipBody ..).goes
        · exact goes_fwloadBody ..
        · unfold freezeBody
          split
          · exact .rfl
          · exact goes_freeze _ _ (by omega)

theorem goes_cmdBody (s : State) (q a : Nat) (sup : Bool) (no : Nat) (c : Cmd) : Goes s (cmdBody s q a sup no c).2 :=
  goes_undone s _ (goes_cmdEffect ..)

theorem keeps_setWork (s : State) (q n : Nat) (b : Bool) (w : CmdWork) : Keeps s (setWork s q n b w) := keeps_modNet _ _

theorem keeps_finishCmd (s : State) (q : Nat) (i : InCmd) (a r : Nat) (d : List Byte) : Keeps s (finishCmd s q i a r d) :=
  (keeps_modNet _ _).trans (keeps_answerCmd ..)

theorem goes_retryHeld (s : State) (q : Nat) (i : InCmd) : Goes s (retryHeld s q i) := by
  unfold retryHeld
  have h := goes_cmdBody s q i.asid i.sup i.no i.cmd
  split <;> rename_i hw <;> rw [hw] at h
  · exact h.trans (keeps_finishCmd ..).goes
  · exact h.trans (keeps_setWork ..).goes
  · exact h

theorem keeps_carryPreempt (s : State) (q : Nat) (i : InCmd) (k m : Nat) : Keeps s (carryPreempt s q i k m) := by
  unfold carryPreempt
  split
  · split
    · exact (keeps_modChip _ _).trans (keeps_finishCmd ..)
    · exact .rfl
  · split
    · split
      · exact (keeps_modChip _ _).trans (keeps_setWork ..)
      · exact .rfl
    · split
      · exact (keeps_modChip _ _).trans (keeps_finishCmd ..)
      · exact keeps_modChip _ _

theorem keeps_carryKill (s : State) (q : Nat) (i : InCmd) (k : Nat) : Keeps s (carryKill s q i k) := by
  unfold carryKill
  split
  · split
    · exact .rfl
    · split
      · split
        · exact keeps_finishCmd ..
        · exact (keeps_modChip _ _).trans (keeps_setWork ..)
      · exact .rfl
  · exact keeps_modChip _ _

theorem goes_carryOn (s : State) (q : Nat) (i : InCmd) : Goes s (carryOn s q i) := by
  unfold carryOn
  split
  · exact goes_retryHeld ..
  · exact .rfl
  · split
    · exact ((keeps_modChip s clearL1s).trans (keeps_finishCmd ..)).goes
    · exact .rfl
  · split
    · exact .rfl
    · exact (keeps_finishCmd ..).goes
  · split
    · exact (keeps_finishCmd ..).goes
    · exact (keeps_carryPreempt ..).goes
  · split
    · exact (keeps_finishCmd ..).goes
    · exact (keeps_carryKill ..).goes

theorem goes_pumpCmds (s : State) : Goes s (pumpCmds s) := goes_foldl (fun _ _ => goes_carryOn ..) _ _

theorem goes_runCmd (s : State) (q : Nat) (x : CmdQueue) (n : Nat) (c : Cmd) : Goes s (runCmd s q x n c) := by
  unfold runCmd
  have h := goes_cmdBody s q x.asid x.sup n c
  split <;> rename_i hw <;> rw [hw] at h
  · exact h.trans (keeps_answerCmd ..).goes
  · exact h
  · exact (h.trans (keeps_modNet _ _).goes).trans (goes_carryOn ..)

theorem goes_beginCmd (s : State) (r : Nat) : Goes s (beginCmd s r) := by
  unfold beginCmd
  split
  · exact .rfl
  · split
    · exact .rfl
    · exact (keeps_modNet _ _).goes.trans (goes_runCmd ..)

theorem keeps_waitGoOn (s : State) (q : Nat) (i : InCmd) (c : Nat) (va v : W64) (t : Option Nat) (x : W64) :
    Keeps s (waitGoOn s q i c va v t x) := by
  unfold waitGoOn
  split
  · exact keeps_finishCmd ..
  · exact keeps_setWork ..

theorem keeps_waitPoll (s : State) (q : Nat) : Keeps s (waitPoll s q) := by
  unfold waitPoll
  split
  · exact .rfl
  · rename_i i _
    split
    · rename_i c va v t l _
      have h := keeps_waitRead s i.asid c va v
      split <;> rename_i hw <;> rw [hw] at h
      · exact h.trans (keeps_finishCmd ..)
      · exact h.trans (keeps_waitGoOn ..)
      · exact h.trans (keeps_waitGoOn ..)
    · exact .rfl

/-! ## The clock -/

theorem goes_settle (s : State) : Goes s (settle s) := by
  have once : ∀ t : State, Goes t (settleOnce t) := fun t =>
    (((keeps_flushOut t).trans (keeps_pumpRx _)).goes.trans (goes_pumpCmds _)).trans (keeps_pumpTx _).goes
  unfold settle
  split
  · exact (((once s).trans (once _)).trans (once _)).trans ((keeps_pfcLevel ..).trans (keeps_pfcLevel ..)).goes
  · exact .rfl

/-! ## Background work -/

theorem goes_background (s : State) (k c m : Nat) (f : Stack → Stack) : Goes s (background s k c m f) := by
  unfold background
  split
  · exact .rfl
  · exact ⟨ioStep_of_eq, rfl⟩

theorem goes_refreshBank (s : State) (k d c : Nat) : Goes s (refreshBank s k d c) := goes_background ..

theorem goes_rowDisturb (s : State) (k a c : Nat) : Goes s (rowDisturb s k a c) := by
  unfold rowDisturb
  split
  · exact .rfl
  · exact goes_background ..

theorem goes_calibrate (s : State) (k h c : Nat) : Goes s (calibrate s k h c) := by
  unfold calibrate
  dsimp only
  split
  · exact .rfl
  · exact goes_background ..

theorem ioStep_modStack (i : Io) (k : Nat) (f : Stack → Stack) : IoStep i (i.modStack k f) :=
  ioStep_of_eq

theorem goes_eccError (s : State) (p e : Nat) : Goes s (eccError s p e) := by
  unfold eccError
  split
  · exact goes_modIo (ioStep_modStack ..)
  · exact ((keeps_modChip s _).goes.trans (goes_modIo (ioStep_modStack ..)))
  · exact .rfl

theorem goes_eccAt (s : State) (p : List Nat) (e : List Byte) : Goes s (eccAt s p e) :=
  goes_foldl (fun _ _ => goes_eccError ..) _ _

theorem goes_scrub (s : State) (k e c : Nat) : Goes s (scrub s k e c) := by
  unfold scrub
  split
  · exact .rfl
  · exact (goes_background ..).trans (goes_eccError ..)

theorem goes_remapRow (s : State) (k b r c : Nat) : Goes s (remapRow s k b r c) := by
  unfold remapRow
  simp only
  split
  · exact .rfl
  · exact goes_background ..

theorem ioStep_throttle (i : Io) (t d w : Nat) : IoStep i (throttle i t d w) := by
  refine ⟨fun h => ⟨?_, h.plim, h.flash, h.staging, h.fail, h.op, h.frozen, h.pend, h.rosel⟩, id, fun _ => le_refl _, ⟨rfl, rfl, rfl⟩, rfl⟩
  have := h.duty
  simp only [throttle]
  split
  · omega
  · split <;> omega

theorem goes_thermalTrip (s : State) : Goes s (thermalTrip s) := by
  unfold thermalTrip
  split
  · exact .rfl
  · exact (goes_modIo ioStep_of_eq).trans (goes_freeze _ 2 (by omega))

theorem goes_throttleStep (s : State) (t d w : Nat) : Goes s (throttleStep s t d w) := by
  unfold throttleStep
  dsimp only
  split
  · exact .rfl
  · have h : Goes s (s.modIo fun i => { throttle i t d w with throtNext := i.clock + Io.period }) :=
      goes_modIo ((ioStep_throttle _ t d w).trans ioStep_of_eq)
    split
    · exact h.trans (goes_thermalTrip _)
    · exact h

theorem ioStep_temps (f : Nat → Stack → Stack) (l : List Nat) (i : Io) :
    IoStep i (l.foldl (fun (i : Io) k => i.modStack k (f k)) i) := by
  induction l generalizing i with
  | nil => exact .refl _
  | cons k t ih => exact (ioStep_modStack i k _).trans (ih _)

theorem ioStep_shownNow (i : Io) : IoStep i i.shownNow := ioStep_of_eq

theorem ioStep_refreshRecords (i : Io) (b : List Byte) : IoStep i (refreshRecords i b) :=
  ((ioStep_temps _ _ i).trans (ioStep_refreshShown _)).trans (ioStep_shownNow _)

theorem goes_linkRetry (s : State) (d p : Nat) : Goes s (linkRetry s d p) := by
  unfold linkRetry
  split
  · exact goes_modIo (ioStep_of_eq)
  · exact .rfl

/-! ## The test access port -/

theorem goes_setIr (s : State) (r : BitVec 8) (d : List Bool) : Goes s (setIr s r d) :=
  goes_modIo (ioStep_of_eq)

theorem goes_boundaryScan (s : State) (r : BitVec 8) : Goes s (boundaryScan s r) :=
  ((keeps_chip s _).goes.trans (goes_setIr ..)).trans
    (goes_modIo (ioStep_of_eq))

theorem goes_jtagRosel (s : State) (w : W64) : Goes s (jtagRosel s w) :=
  ((goes_writeRosel ..).trans (goes_setIr ..)).trans
    (goes_modIo (ioStep_of_eq))

theorem goes_jtagRead (s : State) : Goes s (jtagRead s) :=
  (goes_setIr ..).trans (goes_modIo (ioStep_of_eq))

/-! ## What rows share -/

theorem keeps_onChip (s : State) (f : Chip → Chip) : Keeps s (onChip s f) := by
  unfold onChip
  split
  · exact keeps_chip _ _
  · exact .rfl

theorem goes_whileRunning {s : State} {f : State → State} (h : Goes s (f s)) : Goes s (whileRunning s f) := by
  unfold whileRunning
  split
  · exact h
  · exact .rfl

theorem goes_outOfReset {s : State} {f : State → State} (h : Goes s (f s)) : Goes s (outOfReset s f) := by
  unfold outOfReset
  split
  · exact .rfl
  · exact h

theorem goes_receiveIf (s : State) (f : RxFrame) (b : Bool) : Goes s (receiveIf s f b) := by
  unfold receiveIf
  split
  · exact goes_receive ..
  · exact .rfl

theorem goes_receiveType (s : State) (f : RxFrame) (t : Nat) : Goes s (receiveType s f t) := by
  unfold receiveType
  split
  · exact (goes_receive ..).trans (keeps_pumpRx _).goes
  · exact .rfl

theorem goes_writeWord (s : State) (a w : Nat) : Goes s (writeWord s a w) := goes_outOfReset (goes_mgmtWrite ..)

theorem goes_command (s : State) (r : Nat) : Goes s (command s r) := goes_whileRunning (goes_beginCmd ..)

theorem keeps_issueStep (s : State) (d c h : Nat) : Keeps s (issueStep s d c h) := by
  unfold issueStep
  split
  · exact .rfl
  · exact keeps_onChip ..

theorem keeps_issueSysw (s : State) (d c h : Nat) (l : List Nat) : Keeps s (issueSysw s d c h l) := by
  unfold issueSysw
  simp only
  split
  · split
    · exact keeps_issueStep ..
    · exact .rfl
  · exact .rfl

end Sys2Proof.Laws
end

