-- ==== Sys2Proof/Laws/Commands.lean ====
section
/-! SUPPORT. Commands that begin, and commands carried on (03 R54 to R66). -/

namespace Sys2Proof.Laws
open Sys2Proof.Machine Sys2Proof.Irnov

theorem begins_bad {s q c o n} (h : Begins s q c o n) (ho : o ≤ 13) : cmdBadOp c.bytes = false := by
  unfold cmdBadOp; rw [h.opc, h.rsv]; simp; omega
theorem cmd_runs {s : State} {q : Nat} {c : Cmd} (hp : s.io.phase = .running) (hn : nextCmd s = some (q, c)) (r : Nat) (hr : cmdRow c.bytes = r) :
    command s r = runCmd (takeCmd s q) q (s.net.queue q) s.net.nextCmd c := by
  simp [command, whileRunning, hp, beginCmd, hn, hr]
def bodyOf (o : Nat) (d : State) (q a : Nat) (sup : Bool) (no : Nat) (c : Cmd) : CmdRes × State :=
  match o with
  | 0 => (.code 0, d)
  | 1 => readBody d a c.bytes
  | 2 => writeBody d a c.bytes
  | 3 => launchBody d q a sup c.bytes
  | 4 => preemptBody d a sup c.bytes
  | 5 => killBody d a sup c.bytes
  | 6 => tlbinvBody d a sup c
  | 7 => harvestBody d a sup c.bytes
  | 8 => placeBody d q a sup no c.bytes
  | 9 => signalBody d a c.bytes
  | 10 => waitBody d a c.bytes
  | 11 => attestBody d a c.bytes
  | 12 => fwloadBody d a sup c.bytes
  | _ => freezeBody d sup
theorem cmd_body {s q c o n} (h : Begins s q c o n) (ho : o ≤ 13) (hl : cmdLenOk o n = true) (d : State) (a : Nat) (sup : Bool) (no : Nat) (h8 : 8 ≤ n) :
    cmdBody d q a sup no c = undone d (bodyOf o d q a sup no c) := by
  unfold cmdBody cmdEffect
  dsimp only
  rw [begins_bad h ho, h.opc, h.len, hl, if_neg (by omega)]
  rfl
def cmd_rowOf (o : Nat) (b : List Byte) : Nat :=
  match o with
  | 0 => 50 | 1 => 51 | 2 => 52 | 3 => 53
  | 4 => 54 + nfld (cmdWord b 1) 32 2
  | 5 => 58 | 6 => 59 | 7 => 60 | 8 => 61
  | 9 => 62 + nfld (cmdWord b 1) 0 1
  | 10 => 64 | 11 => 66 | 12 => 67 | _ => 68
theorem cmd_row_of {s q c o n} (h : Begins s q c o n) (ho : o ≤ 13) (h8 : 8 ≤ n) : cmdRow c.bytes = cmd_rowOf o c.bytes := by
  unfold cmdRow
  rw [begins_bad h ho, h.opc, h.len, if_neg (by simp; omega)]
  rfl
/-- What the command's body gives at the moment it begins. -/
def bodyNow (s : State) (q : Nat) (c : Cmd) (o : Nat) : CmdRes × State :=
  bodyOf o (takeCmd s q) q (s.net.queue q).asid (s.net.queue q).sup s.net.nextCmd c
/-- The command as it is in progress. -/
def inProgress (s : State) (q : Nat) (c : Cmd) (w : CmdWork) : InCmd :=
  ⟨s.net.nextCmd, c, (s.net.queue q).asid, (s.net.queue q).sup, w, false⟩
theorem cmd_run {s q c o n row} (h : Begins s q c o n) (ho : o ≤ 13) (h8 : 8 ≤ n) (hl : cmdLenOk o n = true) (hr : cmd_rowOf o c.bytes = row) :
    command s row = match undone (takeCmd s q) (bodyNow s q c o) with
      | (.answer st r d, t) => answerCmd t c st r d
      | (.silent, t) => t
      | (.work w, t) => carryOn (addInprog t q (inProgress s q c w)) q (inProgress s q c w) := by
  rw [cmd_runs h.running h.next row ((cmd_row_of h ho h8).trans hr)]
  unfold runCmd; rw [cmd_body h ho hl _ _ _ _ h8]; rfl
/-- A command answered OK. -/
theorem cmd_answers {s q c o n} {d : List Byte} {r row : Nat} {t : State} (h : Begins s q c o n) (hb : bodyNow s q c o = (.answer 0 r d, t))
    (ho : o ≤ 13) (h8 : 8 ≤ n) (hl : cmdLenOk o n = true) (hr : cmd_rowOf o c.bytes = row) : command s row = answerCmd t c 0 r d := by
  rw [cmd_run h ho h8 hl hr, hb]; rfl
/-- A command refused: what its attempt did to the compute part is undone. -/
theorem cmd_refused {s q c o n} {d : List Byte} {st r row : Nat} {t : State} (h : Begins s q c o n) (hb : bodyNow s q c o = (.answer st r d, t))
    (hs : st ≠ 0) (ho : o ≤ 13) (h8 : 8 ≤ n) (hl : cmdLenOk o n = true) (hr : cmd_rowOf o c.bytes = row) :
    command s row = answerCmd { t with chip := s.chip } c st r d := by
  rw [cmd_run h ho h8 hl hr, hb]; unfold undone; simp only [if_neg hs]; rfl
theorem cmd_works {s q c o n} {w : CmdWork} {row : Nat} {t : State} (h : Begins s q c o n) (hb : bodyNow s q c o = (.work w, t))
    (hw : w ≠ .held) (ho : o ≤ 13) (h8 : 8 ≤ n) (hl : cmdLenOk o n = true) (hr : cmd_rowOf o c.bytes = row) :
    command s row = carryOn (addInprog t q (inProgress s q c w)) q (inProgress s q c w) := by
  rw [cmd_run h ho h8 hl hr, hb]
  cases w <;> first | rfl | exact absurd rfl hw
theorem cmd_silent {s q c o n} {row : Nat} {t : State} (h : Begins s q c o n) (hb : bodyNow s q c o = (.silent, t))
    (ho : o ≤ 13) (h8 : 8 ≤ n) (hl : cmdLenOk o n = true) (hr : cmd_rowOf o c.bytes = row) : command s row = t := by
  rw [cmd_run h ho h8 hl hr, hb]; rfl
theorem cmd_fields (x n : Nat) : nfld x 0 n = x % 2 ^ n := by simp [nfld]
theorem added_first {s : State} {q : Nat} {j : InCmd} (h : j ∈ (s.net.queue q).inprog) : (q, j) ∈ allInprog s := by
  unfold Net.queue AMap.getD at h
  cases hf : s.net.queues.find? q with
  | none => rw [hf] at h; simp [CmdQueue.init] at h
  | some x =>
    rw [hf] at h
    have : (q, x) ∈ s.net.queues := by
      generalize s.net.queues = m at hf
      induction m with
      | nil => simp [AMap.find?] at hf
      | cons e t ih =>
        simp only [AMap.find?] at hf
        split at hf
        · simp only [Option.some.injEq] at hf; subst_vars; exact List.mem_cons_self
        · exact List.mem_cons_of_mem _ (ih hf)
    unfold allInprog
    simp only [List.mem_flatMap, List.mem_map]
    exact ⟨_, this, j, h, rfl⟩
theorem take_inprog (s : State) (q : Nat) : ((takeCmd s q).net.queue q).inprog = (s.net.queue q).inprog := by
  simp [takeCmd, Net.modQueue, Net.setQueue, Net.queue]
theorem mem_all {s : State} {q : Nat} {i : InCmd} {f : Chip → Chip} {p : Nat × InCmd} (hp : p ∈ allInprog (addInprog ((takeCmd s q).modChip f) q i)) :
    p = (q, i) ∨ p ∈ allInprog s := by
  simp only [allInprog, List.mem_flatMap, List.mem_map] at hp
  obtain ⟨e, he, j, hj, rfl⟩ := hp
  change e ∈ (takeCmd s q).net.queues.put q { (takeCmd s q).net.queue q with inprog := ((takeCmd s q).net.queue q).inprog ++ [i] } at he
  rcases mem_put.1 he with rfl | ⟨he, hn⟩
  · simp only [take_inprog, List.mem_append, List.mem_singleton] at hj
    rcases hj with hj | rfl
    · exact .inr (added_first hj)
    · exact .inl rfl
  · right
    change e ∈ s.net.queues.put q _ at he
    rcases mem_put.1 he with rfl | ⟨he, hn'⟩
    · exact absurd rfl hn
    · simp only [allInprog, List.mem_flatMap, List.mem_map]; exact ⟨e, he, j, hj, rfl⟩
theorem map_id_of {l : List InCmd} {f : InCmd → InCmd} (h : ∀ j ∈ l, f j = j) : l.map f = l := by
  induction l with
  | nil => rfl
  | cons a t ih => rw [List.map_cons, h a List.mem_cons_self, ih fun j hj => h j (List.mem_cons_of_mem _ hj)]
theorem set_added {s : State} {q : Nat} {i : InCmd} {f g : Chip → Chip} (hi : ∀ p ∈ allInprog s, p.2.no < i.no) :
    setWork ((addInprog ((takeCmd s q).modChip f) q i).modChip g) q i.no true i.work =
      addInprog ((takeCmd s q).modChip fun c => g (f c)) q { i with started := true } := by
  have : ((s.net.queue q).inprog.map fun (j : InCmd) => if j.no = i.no then { j with work := i.work, started := true } else j) = (s.net.queue q).inprog := by
    apply map_id_of
    intro j hj; have := hi _ (added_first hj); rw [if_neg (by simpa using Nat.ne_of_lt this)]
  have t := take_inprog s q
  simp only [setWork, addInprog, State.modNet, State.modChip, Net.modQueue, Net.setQueue, put_put]
  simp only [Net.queue, getD_put_same, List.map_append]
  rw [show (AMap.getD (takeCmd s q).net.queues q .init).inprog = (s.net.queue q).inprog from t, this]
  simp
/-- A command answered in the step in which it came to be in progress leaves its queue as it was; u is the state after its body. -/
theorem fin_added_of {s u : State} {q : Nat} {i : InCmd} {g : Chip → Chip} {st r : Nat} {d : List Byte} (hq : u.net.queues = (takeCmd s q).net.queues)
    (hi : ∀ p ∈ allInprog s, p.2.no < i.no) :
    finishCmd ((addInprog u q i).modChip g) q i st r d = answerCmd (u.modChip g) i.cmd st r d := by
  have hz : (s.net.queue q).inprog.filter (fun (j : InCmd) => j.no != i.no) = (s.net.queue q).inprog := by
    apply List.filter_eq_self.2
    intro j hj; have := hi _ (added_first hj); simpa using Nat.ne_of_lt this
  have t : (u.net.queues.getD q .init).inprog = (s.net.queue q).inprog := by rw [hq]; exact take_inprog s q
  have same : u.net.queues.put q (u.net.queues.getD q .init) = u.net.queues := by
    rw [hq]; simp [takeCmd, State.modNet, Net.modQueue, Net.setQueue, put_put]
  unfold finishCmd
  congr 1
  simp only [addInprog, State.modNet, State.modChip, Net.modQueue, Net.setQueue, put_put]
  simp only [Net.queue, getD_put_same, List.filter_append]
  rw [t, hz]
  simp only [bne_self_eq_false, Bool.false_eq_true, not_false_eq_true, List.filter_cons_of_neg, List.filter_nil, List.append_nil]
  rw [← t, same]
theorem fin_added {s : State} {q : Nat} {i : InCmd} {f g : Chip → Chip} {st r : Nat} {d : List Byte} (hi : ∀ p ∈ allInprog s, p.2.no < i.no) :
    finishCmd ((addInprog ((takeCmd s q).modChip f) q i).modChip g) q i st r d = answerCmd ((takeCmd s q).modChip fun c => g (f c)) i.cmd st r d :=
  fin_added_of (u := (takeCmd s q).modChip f) rfl hi
theorem carry_turn {s : State} {q k : Nat} {i : InCmd} {f : Chip → Chip} (hk : i.slot? = some k) (hf : s.freeOf k) : cmdTurn (addInprog ((takeCmd s q).modChip f) q i) i = true := by
  unfold cmdTurn
  simp only [Bool.not_eq_true', List.any_eq_false, Bool.and_eq_true, beq_iff_eq, decide_eq_true_eq, not_and, Nat.not_lt]
  intro p hp he
  rcases mem_all hp with rfl | hp
  · exact Nat.le_refl _
  · exact absurd (he.trans hk) (hf p hp).2
def launchId_norm (id : Nat) : Nat := if id % 2 ^ 32 = 0 then 1 else id % 2 ^ 32
def launchId_val (p : Nat) : Nat := p % (2 ^ 32 - 1) + 1
theorem launchId_succ {id p : Nat} (h : launchId_norm id = launchId_val p) : launchId_norm (launchId_norm id + 1) = launchId_val (p + 1) := by
  rw [h]; unfold launchId_norm launchId_val
  have : p % (2 ^ 32 - 1) < 2 ^ 32 - 1 := Nat.mod_lt _ (by norm_num)
  have e : (p + 1) % (2 ^ 32 - 1) = if p % (2 ^ 32 - 1) = 2 ^ 32 - 2 then 0 else p % (2 ^ 32 - 1) + 1 := by split <;> omega
  rw [e]; split <;> split <;> omega
theorem freeId_ok (s : Chip) (ids : List Nat) (hids : ∀ x, (s.launches.any fun e => e.2.id == x) = true ↔ x ∈ ids) (hlen : ids.length < 1025) (p : Nat) :
    ∀ fuel k id, launchId_norm id = launchId_val (p + k) → (∀ j < k, launchId_val (p + j) ∈ ids) → k + fuel = 1025 →
      freeId s fuel id ∉ ids ∧ freeId s fuel id ≠ 0 ∧ freeId s fuel id < 2 ^ 32 := by
  intro fuel
  induction fuel with
  | zero =>
    intro k id hn hd hk
    exfalso
    have hk : k = 1025 := by omega
    subst hk
    have nd : ((List.range 1025).map fun j => launchId_val (p + j)).Nodup := by
      rw [List.nodup_map_iff_inj_on List.nodup_range]
      intro a ha b hb he
      simp only [List.mem_range] at ha hb
      unfold launchId_val at he
      omega
    have := (List.Nodup.subperm nd (l₂ := ids) (by
      intro x hx; simp only [List.mem_map, List.mem_range] at hx; obtain ⟨j, hj, rfl⟩ := hx; exact hd j hj)).length_le
    simp at this; omega
  | succ f ih =>
    intro k id hn hd hk
    have e : freeId s (f + 1) id = if (s.launches.any fun e => e.2.id == launchId_norm id) = true then freeId s f (launchId_norm id + 1) else launchId_norm id := rfl
    rw [e]
    split
    · rename_i h
      refine ih (k + 1) _ (launchId_succ hn) ?_ (by omega)
      intro j hj
      rcases Nat.lt_succ_iff_lt_or_eq.1 hj with h1 | rfl
      · exact hd j h1
      · rw [← hn]; exact (hids _).1 h
    · rename_i h
      refine ⟨fun hm => h ((hids _).2 hm), ?_, ?_⟩ <;> (unfold launchId_norm; split <;> omega)
theorem enqueue_launches (s : Chip) (d lv : Nat) (es : List QEnt) : (s.enqueue d lv es).launches = s.launches := by
  unfold Chip.enqueue; split
  · rfl
  · rw [(wrote_relink ..).launches]; rfl
theorem foldl_keep {α : Type} {f : Chip → α → Chip} (h : ∀ s a, (f s a).launches = s.launches) (l : List α) : ∀ s, (l.foldl f s).launches = s.launches := by
  induction l with
  | nil => intro s; rfl
  | cons a t ih => intro s; rw [List.foldl_cons, ih, h]
theorem foldl_keep2 {α β : Type} {f : β × Chip → α → β × Chip} (h : ∀ s a, (f s a).2.launches = s.2.launches) (l : List α) : ∀ s, (l.foldl f s).2.launches = s.2.launches := by
  induction l with
  | nil => intro s; rfl
  | cons a t ih => intro s; rw [List.foldl_cons, ih, h]
theorem goLive_launches (s : Chip) (l : Launch) : (goLive s l).2.launches =
    s.launches.put (((List.range 1024).find? fun k => !s.launches.has k).getD 0) { l with id := freeId s 1025 s.nextLaunch, startCc := s.now } := by
  unfold goLive
  simp only []
  rw [foldl_keep]
  · rw [foldl_keep2]; · rfl
    intro s a; unfold writeGridRecord; split
    · rfl
    · exact ((wrote_noteRec ..).trans (wrote_put ..)).launches
  · intro s a; split
    · rfl
    · exact enqueue_launches ..
theorem find_none_mem {α : Type} {m : AMap α} {k : Nat} (h : (m.find? k).isSome = true) : k ∈ m.map (·.1) := by
  induction m with
  | nil => simp [AMap.find?] at h
  | cons e t ih =>
    simp only [AMap.find?] at h
    split at h
    · subst_vars; simp
    · simp only [List.map_cons, List.mem_cons]; exact .inr (ih h)
theorem slot_free (s : Chip) (h : s.launches.length < 1024) : ∃ k < 1024, (((List.range 1024).find? fun k => !s.launches.has k).getD 0) = k ∧ s.launches.find? k = none := by
  cases hf : (List.range 1024).find? fun k => !s.launches.has k with
  | none =>
    exfalso
    have hall := List.find?_eq_none.1 hf
    have := (List.Nodup.subperm List.nodup_range (l₂ := s.launches.map (·.1)) (by
      intro x hx
      have := hall x hx
      simp only [Bool.not_eq_true', Bool.not_eq_false, AMap.has] at this
      exact find_none_mem this)).length_le
    simp at this; omega
  | some k =>
    have h1 := List.find?_some hf
    have h2 := List.mem_of_find?_eq_some hf
    refine ⟨k, by simpa using h2, rfl, ?_⟩
    simpa [AMap.has] using h1
theorem word_lt (b : List Byte) (k : Nat) : word64 b k < 2 ^ 64 := by
  refine Nat.lt_of_lt_of_le (leNat_lt _) ?_
  have : ((b.drop (8 * k)).take 8).length ≤ 8 := by simp
  exact Nat.pow_le_pow_right (by omega) this

end Sys2Proof.Laws
end

