-- ==== Sys2Proof/Laws/Encoding.lean ====
section
/-! SUPPORT. What the encoder's formats and operand codes give, and that decoding the word of an instruction gives the
instruction, class by class; every instruction that a word decodes to has a word. -/

namespace Sys2Proof.Machine
open Sys2Proof.Irnov

/-! ## Fields -/

theorem fld_nat (w : W32) (lo len : Nat) : fld w lo len = w.toNat / 2 ^ lo % 2 ^ len := by
  simp [fld, BitVec.extractLsb'_toNat, Nat.shiftRight_eq_div_pow]

theorem lsb_nat (w : W32) (i : Nat) : w.getLsbD i = decide (w.toNat / 2 ^ i % 2 = 1) := by
  simp [BitVec.getLsbD, Nat.testBit_eq_decide_div_mod_eq]

theorem bit_lt (b : Bool) : bit b < 2 := by cases b <;> simp [bit]
theorem bit_one (b : Bool) : decide (bit b = 1) = b := by cases b <;> simp [bit]

theorem must_some {α : Type} {b : Bool} {x y : α} : must b x = some y ↔ b = true ∧ x = y := by
  cases b <;> simp [must]

theorem must_isSome {α : Type} {b : Bool} {x : α} : (must b x).isSome = b := by
  cases b <;> simp [must]

theorem fmtSA_some {op i d a b : Nat} {w : W32} : fmtSA op i d a b = some w ↔
    (op < 128 ∧ i < 2 ∧ d < 256 ∧ a < 256 ∧ b < 256) ∧
      w.toNat = op * 2 ^ 25 + i * 2 ^ 24 + d * 2 ^ 16 + a * 2 ^ 8 + b := by
  simp only [fmtSA, pack, packFrom]
  constructor
  · intro h
    repeat' split at h
    all_goals first | (simp at h; done) | skip
    simp only [Option.map_some, Option.some.injEq] at h
    subst h
    simp only [BitVec.toNat_ofNat]
    omega
  · rintro ⟨⟨h0, h1, h2, h3, h4⟩, hw⟩
    simp only [Nat.reducePow, h0, h1, h2, h3, h4, if_true, Option.map_some, Option.some.injEq]
    apply BitVec.eq_of_toNat_eq
    simp only [BitVec.toNat_ofNat]
    omega

theorem fmtSA_isSome {op i d a b : Nat} (hb : op < 128 ∧ i < 2 ∧ d < 256 ∧ a < 256 ∧ b < 256) : ∃ w, fmtSA op i d a b = some w := by
  refine ⟨BitVec.ofNat 32 (op * 2 ^ 25 + i * 2 ^ 24 + d * 2 ^ 16 + a * 2 ^ 8 + b), fmtSA_some.mpr ⟨hb, ?_⟩⟩
  simp only [BitVec.toNat_ofNat]
  omega

theorem fmtSC_some {op c neg disp : Nat} {w : W32} : fmtSC op c neg disp = some w ↔
    (op < 128 ∧ c < 8 ∧ neg < 2 ∧ disp < 2097152) ∧
      w.toNat = op * 2 ^ 25 + c * 2 ^ 22 + neg * 2 ^ 21 + disp := by
  simp only [fmtSC, pack, packFrom]
  constructor
  · intro h
    repeat' split at h
    all_goals first | (simp at h; done) | skip
    simp only [Option.map_some, Option.some.injEq] at h
    subst h
    simp only [BitVec.toNat_ofNat]
    omega
  · rintro ⟨⟨h0, h1, h2, h3⟩, hw⟩
    simp only [Nat.reducePow, h0, h1, h2, h3, if_true, Option.map_some, Option.some.injEq]
    apply BitVec.eq_of_toNat_eq
    simp only [BitVec.toNat_ofNat]
    omega

theorem fmtSC_isSome {op c neg disp : Nat} (hb : op < 128 ∧ c < 8 ∧ neg < 2 ∧ disp < 2097152) : ∃ w, fmtSC op c neg disp = some w := by
  refine ⟨BitVec.ofNat 32 (op * 2 ^ 25 + c * 2 ^ 22 + neg * 2 ^ 21 + disp), fmtSC_some.mpr ⟨hb, ?_⟩⟩
  simp only [BitVec.toNat_ofNat]
  omega

theorem fmtSG_some {q s f e j : Nat} {w : W32} : fmtSG q s f e j = some w ↔
    (q < 8 ∧ s < 2 ∧ f < 2 ∧ e < 1024 ∧ j < 1024) ∧
      w.toNat = 0x46 * 2 ^ 25 + q * 2 ^ 22 + s * 2 ^ 21 + f * 2 ^ 20 + e * 2 ^ 10 + j := by
  simp only [fmtSG, pack, packFrom]
  constructor
  · intro h
    repeat' split at h
    all_goals first | (simp at h; done) | skip
    simp only [Option.map_some, Option.some.injEq] at h
    subst h
    simp only [BitVec.toNat_ofNat]
    omega
  · rintro ⟨⟨h0, h1, h2, h3, h4⟩, hw⟩
    simp only [Nat.reducePow, Nat.reduceLT, h0, h1, h2, h3, h4, if_true, Option.map_some, Option.some.injEq]
    apply BitVec.eq_of_toNat_eq
    simp only [BitVec.toNat_ofNat]
    omega

theorem fmtSG_isSome {q s f e j : Nat} (hb : q < 8 ∧ s < 2 ∧ f < 2 ∧ e < 1024 ∧ j < 1024) : ∃ w, fmtSG q s f e j = some w := by
  refine ⟨BitVec.ofNat 32 (0x46 * 2 ^ 25 + q * 2 ^ 22 + s * 2 ^ 21 + f * 2 ^ 20 + e * 2 ^ 10 + j), fmtSG_some.mpr ⟨hb, ?_⟩⟩
  simp only [BitVec.toNat_ofNat]
  omega

theorem fmtSW_some {v nm1 tab : Nat} {w : W32} : fmtSW v nm1 tab = some w ↔
    (v < 32 ∧ nm1 < 256 ∧ tab < 4096) ∧
      w.toNat = 0x47 * 2 ^ 25 + v * 2 ^ 20 + nm1 * 2 ^ 12 + tab := by
  simp only [fmtSW, pack, packFrom]
  constructor
  · intro h
    repeat' split at h
    all_goals first | (simp at h; done) | skip
    simp only [Option.map_some, Option.some.injEq] at h
    subst h
    simp only [BitVec.toNat_ofNat]
    omega
  · rintro ⟨⟨h0, h1, h2⟩, hw⟩
    simp only [Nat.reducePow, Nat.reduceLT, h0, h1, h2, if_true, Option.map_some, Option.some.injEq]
    apply BitVec.eq_of_toNat_eq
    simp only [BitVec.toNat_ofNat]
    omega

theorem fmtSW_isSome {v nm1 tab : Nat} (hb : v < 32 ∧ nm1 < 256 ∧ tab < 4096) : ∃ w, fmtSW v nm1 tab = some w := by
  refine ⟨BitVec.ofNat 32 (0x47 * 2 ^ 25 + v * 2 ^ 20 + nm1 * 2 ^ 12 + tab), fmtSW_some.mpr ⟨hb, ?_⟩⟩
  simp only [BitVec.toNat_ofNat]
  omega

theorem fmtSY_some {op s reg : Nat} {w : W32} : fmtSY op s reg = some w ↔
    (op < 128 ∧ s < 256 ∧ reg < 4096) ∧
      w.toNat = op * 2 ^ 25 + s * 2 ^ 17 + reg * 2 ^ 5 := by
  simp only [fmtSY, pack, packFrom]
  constructor
  · intro h
    repeat' split at h
    all_goals first | (simp at h; done) | skip
    simp only [Option.map_some, Option.some.injEq] at h
    subst h
    simp only [BitVec.toNat_ofNat]
    omega
  · rintro ⟨⟨h0, h1, h2⟩, hw⟩
    simp only [Nat.reducePow, Nat.reduceLT, h0, h1, h2, if_true, Option.map_some, Option.some.injEq]
    apply BitVec.eq_of_toNat_eq
    simp only [BitVec.toNat_ofNat]
    omega

theorem fmtSY_isSome {op s reg : Nat} (hb : op < 128 ∧ s < 256 ∧ reg < 4096) : ∃ w, fmtSY op s reg = some w := by
  refine ⟨BitVec.ofNat 32 (op * 2 ^ 25 + s * 2 ^ 17 + reg * 2 ^ 5), fmtSY_some.mpr ⟨hb, ?_⟩⟩
  simp only [BitVec.toNat_ofNat]
  omega

theorem fmtVA_some {op k vd va vb ty mod : Nat} {w : W32} : fmtVA op k vd va vb ty mod = some w ↔
    (op < 128 ∧ k < 8 ∧ vd < 32 ∧ va < 32 ∧ vb < 32 ∧ ty < 16 ∧ mod < 8) ∧
      w.toNat = op * 2 ^ 25 + k * 2 ^ 22 + vd * 2 ^ 17 + va * 2 ^ 12 + vb * 2 ^ 7 + ty * 2 ^ 3 + mod := by
  simp only [fmtVA, pack, packFrom]
  constructor
  · intro h
    repeat' split at h
    all_goals first | (simp at h; done) | skip
    simp only [Option.map_some, Option.some.injEq] at h
    subst h
    simp only [BitVec.toNat_ofNat]
    omega
  · rintro ⟨⟨h0, h1, h2, h3, h4, h5, h6⟩, hw⟩
    simp only [Nat.reducePow, h0, h1, h2, h3, h4, h5, h6, if_true, Option.map_some, Option.some.injEq]
    apply BitVec.eq_of_toNat_eq
    simp only [BitVec.toNat_ofNat]
    omega

theorem fmtVA_isSome {op k vd va vb ty mod : Nat} (hb : op < 128 ∧ k < 8 ∧ vd < 32 ∧ va < 32 ∧ vb < 32 ∧ ty < 16 ∧ mod < 8) : ∃ w, fmtVA op k vd va vb ty mod = some w := by
  refine ⟨BitVec.ofNat 32 (op * 2 ^ 25 + k * 2 ^ 22 + vd * 2 ^ 17 + va * 2 ^ 12 + vb * 2 ^ 7 + ty * 2 ^ 3 + mod), fmtVA_some.mpr ⟨hb, ?_⟩⟩
  simp only [BitVec.toNat_ofNat]
  omega

theorem fmtMA_some {op acc hA tA hB tB mod : Nat} {w : W32} : fmtMA op acc hA tA hB tB mod = some w ↔
    (op < 128 ∧ acc < 64 ∧ hA < 8 ∧ tA < 16 ∧ hB < 8 ∧ tB < 16 ∧ mod < 32) ∧
      w.toNat = op * 2 ^ 25 + acc * 2 ^ 19 + hA * 2 ^ 16 + tA * 2 ^ 12 + hB * 2 ^ 9 + tB * 2 ^ 5 + mod := by
  simp only [fmtMA, pack, packFrom]
  constructor
  · intro h
    repeat' split at h
    all_goals first | (simp at h; done) | skip
    simp only [Option.map_some, Option.some.injEq] at h
    subst h
    simp only [BitVec.toNat_ofNat]
    omega
  · rintro ⟨⟨h0, h1, h2, h3, h4, h5, h6⟩, hw⟩
    simp only [Nat.reducePow, h0, h1, h2, h3, h4, h5, h6, if_true, Option.map_some, Option.some.injEq]
    apply BitVec.eq_of_toNat_eq
    simp only [BitVec.toNat_ofNat]
    omega

theorem fmtMA_isSome {op acc hA tA hB tB mod : Nat} (hb : op < 128 ∧ acc < 64 ∧ hA < 8 ∧ tA < 16 ∧ hB < 8 ∧ tB < 16 ∧ mod < 32) : ∃ w, fmtMA op acc hA tA hB tB mod = some w := by
  refine ⟨BitVec.ofNat 32 (op * 2 ^ 25 + acc * 2 ^ 19 + hA * 2 ^ 16 + tA * 2 ^ 12 + hB * 2 ^ 9 + tB * 2 ^ 5 + mod), fmtMA_some.mpr ⟨hb, ?_⟩⟩
  simp only [BitVec.toNat_ofNat]
  omega

theorem fmtXA_some {op q dst src sel mod : Nat} {w : W32} : fmtXA op q dst src sel mod = some w ↔
    (op < 128 ∧ q < 8 ∧ dst < 32 ∧ src < 32 ∧ sel < 256 ∧ mod < 16) ∧
      w.toNat = op * 2 ^ 25 + q * 2 ^ 22 + dst * 2 ^ 17 + src * 2 ^ 12 + sel * 2 ^ 4 + mod := by
  simp only [fmtXA, pack, packFrom]
  constructor
  · intro h
    repeat' split at h
    all_goals first | (simp at h; done) | skip
    simp only [Option.map_some, Option.some.injEq] at h
    subst h
    simp only [BitVec.toNat_ofNat]
    omega
  · rintro ⟨⟨h0, h1, h2, h3, h4, h5⟩, hw⟩
    simp only [Nat.reducePow, h0, h1, h2, h3, h4, h5, if_true, Option.map_some, Option.some.injEq]
    apply BitVec.eq_of_toNat_eq
    simp only [BitVec.toNat_ofNat]
    omega

theorem fmtXA_isSome {op q dst src sel mod : Nat} (hb : op < 128 ∧ q < 8 ∧ dst < 32 ∧ src < 32 ∧ sel < 256 ∧ mod < 16) : ∃ w, fmtXA op q dst src sel mod = some w := by
  refine ⟨BitVec.ofNat 32 (op * 2 ^ 25 + q * 2 ^ 22 + dst * 2 ^ 17 + src * 2 ^ 12 + sel * 2 ^ 4 + mod), fmtXA_some.mpr ⟨hb, ?_⟩⟩
  simp only [BitVec.toNat_ofNat]
  omega

theorem fmtDA_some {op d base land hint x : Nat} {w : W32} : fmtDA op d base land hint x = some w ↔
    (op < 128 ∧ d < 256 ∧ base < 256 ∧ land < 64 ∧ hint < 4 ∧ x < 2) ∧
      w.toNat = op * 2 ^ 25 + d * 2 ^ 17 + base * 2 ^ 9 + land * 2 ^ 3 + hint * 2 ^ 1 + x := by
  simp only [fmtDA, pack, packFrom]
  constructor
  · intro h
    repeat' split at h
    all_goals first | (simp at h; done) | skip
    simp only [Option.map_some, Option.some.injEq] at h
    subst h
    simp only [BitVec.toNat_ofNat]
    omega
  · rintro ⟨⟨h0, h1, h2, h3, h4, h5⟩, hw⟩
    simp only [Nat.reducePow, h0, h1, h2, h3, h4, h5, if_true, Option.map_some, Option.some.injEq]
    apply BitVec.eq_of_toNat_eq
    simp only [BitVec.toNat_ofNat]
    omega

theorem fmtDA_isSome {op d base land hint x : Nat} (hb : op < 128 ∧ d < 256 ∧ base < 256 ∧ land < 64 ∧ hint < 4 ∧ x < 2) : ∃ w, fmtDA op d base land hint x = some w := by
  refine ⟨BitVec.ofNat 32 (op * 2 ^ 25 + d * 2 ^ 17 + base * 2 ^ 9 + land * 2 ^ 3 + hint * 2 ^ 1 + x), fmtDA_some.mpr ⟨hb, ?_⟩⟩
  simp only [BitVec.toNat_ofNat]
  omega

theorem fmtDS_some {op d base mod x : Nat} {w : W32} : fmtDS op d base mod x = some w ↔
    (op < 128 ∧ d < 256 ∧ base < 256 ∧ mod < 256 ∧ x < 2) ∧
      w.toNat = op * 2 ^ 25 + d * 2 ^ 17 + base * 2 ^ 9 + mod * 2 ^ 1 + x := by
  simp only [fmtDS, pack, packFrom]
  constructor
  · intro h
    repeat' split at h
    all_goals first | (simp at h; done) | skip
    simp only [Option.map_some, Option.some.injEq] at h
    subst h
    simp only [BitVec.toNat_ofNat]
    omega
  · rintro ⟨⟨h0, h1, h2, h3, h4⟩, hw⟩
    simp only [Nat.reducePow, h0, h1, h2, h3, h4, if_true, Option.map_some, Option.some.injEq]
    apply BitVec.eq_of_toNat_eq
    simp only [BitVec.toNat_ofNat]
    omega

theorem fmtDS_isSome {op d base mod x : Nat} (hb : op < 128 ∧ d < 256 ∧ base < 256 ∧ mod < 256 ∧ x < 2) : ∃ w, fmtDS op d base mod x = some w := by
  refine ⟨BitVec.ofNat 32 (op * 2 ^ 25 + d * 2 ^ 17 + base * 2 ^ 9 + mod * 2 ^ 1 + x), fmtDS_some.mpr ⟨hb, ?_⟩⟩
  simp only [BitVec.toNat_ofNat]
  omega

theorem fmtDT_some {op sync t h base mod x : Nat} {w : W32} : fmtDT op sync t h base mod x = some w ↔
    (op < 128 ∧ sync < 32 ∧ t < 16 ∧ h < 8 ∧ base < 256 ∧ mod < 16 ∧ x < 2) ∧
      w.toNat = op * 2 ^ 25 + sync * 2 ^ 20 + t * 2 ^ 16 + h * 2 ^ 13 + base * 2 ^ 5 + mod * 2 ^ 1 + x := by
  simp only [fmtDT, pack, packFrom]
  constructor
  · intro h
    repeat' split at h
    all_goals first | (simp at h; done) | skip
    simp only [Option.map_some, Option.some.injEq] at h
    subst h
    simp only [BitVec.toNat_ofNat]
    omega
  · rintro ⟨⟨h0, h1, h2, h3, h4, h5, h6⟩, hw⟩
    simp only [Nat.reducePow, h0, h1, h2, h3, h4, h5, h6, if_true, Option.map_some, Option.some.injEq]
    apply BitVec.eq_of_toNat_eq
    simp only [BitVec.toNat_ofNat]
    omega

theorem fmtDT_isSome {op sync t h base mod x : Nat} (hb : op < 128 ∧ sync < 32 ∧ t < 16 ∧ h < 8 ∧ base < 256 ∧ mod < 16 ∧ x < 2) : ∃ w, fmtDT op sync t h base mod x = some w := by
  refine ⟨BitVec.ofNat 32 (op * 2 ^ 25 + sync * 2 ^ 20 + t * 2 ^ 16 + h * 2 ^ 13 + base * 2 ^ 5 + mod * 2 ^ 1 + x), fmtDT_some.mpr ⟨hb, ?_⟩⟩
  simp only [BitVec.toNat_ofNat]
  omega


/-! ## Operand codes -/

theorem sreg_some {env : DecEnv} {n c : Nat} : env.sreg n = some c ↔ inBudget env.budget n = true ∧ n = c := by
  simp [DecEnv.sreg]

theorem inBudget_le {b n : Nat} (h : inBudget b n = true) : n ≤ 159 := by
  simp [inBudget] at h; exact h.2

theorem reg8_some {n c : Nat} : reg8 n = some c ↔ n < 8 ∧ n = c := by simp [reg8, must_some]

theorem num8_some {n c : Nat} : num8 n = some c ↔ n < 8 ∧ n = c := by simp [num8]

theorem kfield_some {n c : Nat} : kfield n = some c ↔ n < 8 ∧ n = c := by simp [kfield]

theorem litSyllable_some {b : Bundle} {v : W32} {n : Nat} (h : litSyllable b v = some n) :
    1 ≤ n ∧ n ≤ 7 ∧ b.litAt n = some v := by
  have hp := List.find?_some h
  have hm := List.mem_of_find?_eq_some h
  simp at hp hm
  refine ⟨by omega, by omega, hp⟩

theorem litSyllable_isSome {b : Bundle} {v : W32} {n : Nat} (h1 : 1 ≤ n) (h7 : n ≤ 7) (h : b.litAt n = some v) :
    ∃ m, litSyllable b v = some m := by
  rw [← Option.isSome_iff_exists, litSyllable, List.find?_isSome]
  exact ⟨n, by simp; omega, by simp [h]⟩

theorem src_codeOf {env : DecEnv} {s : Src} {c : Nat} (h : env.codeOf s = some c) : env.src c = some s ∧ c < 248 := by
  cases s with
  | reg n =>
    obtain ⟨hb, rfl⟩ := sreg_some.mp h
    have := inBudget_le hb
    exact ⟨by simp [DecEnv.src, this, DecEnv.sreg, hb], by omega⟩
  | imm v => simp [DecEnv.codeOf] at h
  | lit v =>
    simp only [DecEnv.codeOf, Option.map_eq_some_iff] at h
    obtain ⟨n, hn, rfl⟩ := h
    obtain ⟨h1, h7, hl⟩ := litSyllable_some hn
    refine ⟨?_, by omega⟩
    rw [DecEnv.src, if_neg (by omega), if_pos (by omega), show 240 + n - 240 = n by omega, hl]
    rfl

theorem codeOf_src {env : DecEnv} {s : Src} {c : Nat} (h : env.src c = some s) : ∃ e, env.codeOf s = some e ∧ e < 248 := by
  rw [DecEnv.src] at h
  split at h
  · simp only [Option.map_eq_some_iff, sreg_some] at h
    obtain ⟨n, ⟨hb, rfl⟩, rfl⟩ := h
    have := inBudget_le hb
    exact ⟨c, by simp [DecEnv.codeOf, sreg_some, hb], by omega⟩
  · split at h
    · simp only [Option.map_eq_some_iff] at h
      obtain ⟨v, hv, rfl⟩ := h
      obtain ⟨m, hm⟩ := litSyllable_isSome (by omega) (by omega) hv
      have := (litSyllable_some hm).2.1
      exact ⟨240 + m, by simp [DecEnv.codeOf, hm], by omega⟩
    · simp at h

theorem decB_codeB {env : DecEnv} {s : Src} {i b : Nat} {w : W32} (h : env.codeB s = some (i, b))
    (hi : w.toNat / 2 ^ 24 % 2 = i) (hb : w.toNat % 256 = b) : decB env w = some s := by
  have hne : ∀ c, env.codeOf s = some c → i = 0 → c = b → decB env w = some s := fun c hc h0 hcb => by
    rw [decB, lsb_nat, if_neg (by simp; omega), fld_nat, show w.toNat / 2 ^ 0 % 2 ^ 8 = c by omega]
    exact (src_codeOf hc).1
  cases s with
  | reg n =>
    simp only [DecEnv.codeB, Option.map_eq_some_iff, Prod.mk.injEq] at h
    obtain ⟨c, hc, h0, hcb⟩ := h
    exact hne c hc h0.symm hcb
  | lit v =>
    simp only [DecEnv.codeB, Option.map_eq_some_iff, Prod.mk.injEq] at h
    obtain ⟨c, hc, h0, hcb⟩ := h
    exact hne c hc h0.symm hcb
  | imm v =>
    simp only [DecEnv.codeB, must_some, Prod.mk.injEq, beq_iff_eq] at h
    obtain ⟨hv, h1, hb'⟩ := h
    rw [decB, lsb_nat, if_pos (by simp; omega)]
    have : w.extractLsb' 0 8 = v.setWidth 8 := BitVec.eq_of_toNat_eq (by
      rw [hb', BitVec.extractLsb'_toNat]; simpa using hb)
    rw [this, hv]

theorem codeB_lt {env : DecEnv} {s : Src} {i b : Nat} (h : env.codeB s = some (i, b)) : i < 2 ∧ b < 256 := by
  cases s with
  | imm v =>
    simp only [DecEnv.codeB, must_some, Prod.mk.injEq] at h
    obtain ⟨-, h1, rfl⟩ := h
    exact ⟨by omega, (v.setWidth 8).isLt⟩
  | reg n =>
    simp only [DecEnv.codeB, Option.map_eq_some_iff, Prod.mk.injEq] at h
    obtain ⟨c, hc, h0, rfl⟩ := h
    have := (src_codeOf hc).2
    omega
  | lit v =>
    simp only [DecEnv.codeB, Option.map_eq_some_iff, Prod.mk.injEq] at h
    obtain ⟨c, hc, h0, rfl⟩ := h
    have := (src_codeOf hc).2
    omega

theorem codeB_decB {env : DecEnv} {s : Src} {w : W32} (h : decB env w = some s) : ∃ i b, env.codeB s = some (i, b) ∧ i < 2 ∧ b < 256 := by
  suffices ∃ i b, env.codeB s = some (i, b) by
    obtain ⟨i, b, hb⟩ := this
    exact ⟨i, b, hb, codeB_lt hb⟩
  rw [decB] at h
  split at h
  · obtain rfl := Option.some.inj h
    refine ⟨1, _, must_some.mpr ⟨?_, rfl⟩⟩
    simp only [beq_iff_eq]
    have : ((w.extractLsb' 0 8).signExtend 64).setWidth 8 = w.extractLsb' 0 8 := by
      ext i hi
      simp [BitVec.getLsbD_signExtend, hi]; omega
    rw [this]
  · obtain ⟨c, hc, -⟩ := codeOf_src h
    cases s with
    | imm v => simp [DecEnv.codeOf] at hc
    | reg n => exact ⟨0, c, by simp [DecEnv.codeB, hc]⟩
    | lit v => exact ⟨0, c, by simp [DecEnv.codeB, hc]⟩

/-! ## S class -/

theorem sext21_disp {n : Int} {x : Nat} (h : dispSC n = some x) : sext21 x = n ∧ x < 2097152 := by
  simp only [dispSC, must_some, Bool.and_eq_true, decide_eq_true_eq] at h
  obtain ⟨⟨h1, h2⟩, rfl⟩ := h
  rw [sext21]
  split <;> omega

theorem dispSC_sext21 {x : Nat} (h : x < 2097152) : ∃ e, dispSC (sext21 x) = some e ∧ e < 2097152 := by
  refine ⟨_, must_some.mpr ⟨?_, rfl⟩, by omega⟩
  rw [sext21]
  split <;> simp <;> omega

theorem tyOf_tyCode (t : Ty) : tyOf (tyCode t) = some t := by cases t <;> rfl

theorem tyCode_lt (t : Ty) : tyCode t < 15 := by cases t <;> decide

theorem decS_alu {env : DecEnv} {w : W32} (op : AluOp) (h : opcode w = aluCode op) : decS env w = decAlu env w op := by
  cases op <;> simp only [aluCode] at h <;> simp only [decS, h]

theorem decS_un {env : DecEnv} {w : W32} (op : UnOp) (h : opcode w = unCode op) : decS env w = decUn env w op := by
  cases op <;> simp only [unCode] at h <;> simp only [decS, h]

theorem decS_cmp {env : DecEnv} {w : W32} (op : ICmp) (h : opcode w = icmpCode op) : decS env w = decCmp env w op := by
  cases op <;> simp only [icmpCode] at h <;> simp only [decS, h]

theorem decS_farith {env : DecEnv} {w : W32} (op : FOp) (h : opcode w = fopCode op) : decS env w = decFArith env w op := by
  cases op <;> simp only [fopCode] at h <;> simp only [decS, h]

theorem decS_fcmp {env : DecEnv} {w : W32} (op : FCmp) (h : opcode w = fcmpCode op) : decS env w = decFCmp env w op := by
  cases op <;> simp only [fcmpCode] at h <;> simp only [decS, h]

theorem decS_qlog {env : DecEnv} {w : W32} (op : QOp) (h : opcode w = qopCode op) : decS env w = decQ3 w op := by
  cases op <;> simp only [qopCode] at h <;> simp only [decS, h]

/-- The fields of an SA word as the decoder reads them. -/
theorem saFields {op i d a b : Nat} {w : W32} (h : fmtSA op i d a b = some w) :
    opcode w = op ∧ w.getLsbD 24 = decide (i = 1) ∧ fld w 16 8 = d ∧ fld w 8 8 = a ∧ fld w 0 8 = b ∧
      w.toNat / 2 ^ 24 % 2 = i ∧ w.toNat % 256 = b ∧ b < 256 := by
  obtain ⟨hb, hw⟩ := fmtSA_some.mp h
  simp only [opcode, fld_nat, lsb_nat, decide_eq_decide]
  omega

theorem src_some {env : DecEnv} {s : Src} {c : Nat} (h : env.codeOf s = some c) : env.src c = some s := (src_codeOf h).1

theorem sreg_idem {env : DecEnv} {n c : Nat} (h : env.sreg n = some c) : env.sreg c = some n := by
  obtain ⟨hb, rfl⟩ := sreg_some.mp h
  exact sreg_some.mpr ⟨hb, rfl⟩

theorem scFields {op c neg n : Nat} {w : W32} (h : fmtSC op c neg n = some w) :
    opcode w = op ∧ fld w 22 3 = c ∧ w.getLsbD 21 = decide (neg = 1) ∧ fld w 0 21 = n ∧ fld w 21 4 = c * 2 + neg := by
  obtain ⟨hb, hw⟩ := fmtSC_some.mp h
  simp only [opcode, fld_nat, lsb_nat, decide_eq_decide]
  omega

theorem sgFields_some {b : Bundle} {x y e j : Nat} (h : sgFields b x y = some (e, j)) : sgCounts b e j = some (x, y) := by
  have := List.find?_some h
  simpa using this

theorem syFields {op s r : Nat} {w : W32} (h : fmtSY op s r = some w) :
    opcode w = op ∧ fld w 17 8 = s ∧ fld w 5 12 = r ∧ fld w 0 5 = 0 := by
  obtain ⟨hb, hw⟩ := fmtSY_some.mp h
  simp only [opcode, fld_nat]
  omega

theorem saZero {op : Nat} {w : W32} (h : fmtSA op 0 0 0 0 = some w) : opcode w = op ∧ fld w 0 25 = 0 := by
  obtain ⟨hb, hw⟩ := fmtSA_some.mp h
  simp only [opcode, fld_nat]
  omega

/-- The instructions of control and of the Q group. -/
def sinsLate : SIns → Bool
  | .divg .. | .dswitch .. | .ekill _ | .wait .. | .trap _ | .resume _ | .sysr .. | .sysw .. | .qset .. | .qlog .. | .qnot ..
  | .qk .. | .qpopc .. | .qfirst .. | .qmov .. => true
  | _ => false

theorem decS_encS_late {env : DecEnv} {i : SIns} {w : W32} (hl : sinsLate i = true) (h : encS env i = some w) :
    decS env w = some i := by
  cases i with
  | divg q inv split x y =>
    simp only [encS, bind, Option.bind_eq_some_iff] at h
    obtain ⟨⟨e, j⟩, hs, h⟩ := h
    obtain ⟨hb, hw⟩ := fmtSG_some.mp h
    have g1 : opcode w = 0x46 := by rw [opcode, fld_nat]; omega
    have g2 : fld w 22 3 = q := by rw [fld_nat]; omega
    have g3 : w.getLsbD 21 = split := by rw [← bit_one split, lsb_nat, decide_eq_decide]; omega
    have g4 : w.getLsbD 20 = inv := by rw [← bit_one inv, lsb_nat, decide_eq_decide]; omega
    have g5 : fld w 10 10 = e := by rw [fld_nat]; omega
    have g6 : fld w 0 10 = j := by rw [fld_nat]; omega
    have hc := sgFields_some hs
    simp [-BitVec.getLsbD_eq_getElem, decS, g1, g2, g3, g4, g5, g6, hc]
  | dswitch v n tab j =>
    simp only [encS, bind, Option.bind_eq_some_iff, must_some, Bool.and_eq_true, decide_eq_true_eq, beq_iff_eq] at h
    obtain ⟨m, ⟨⟨⟨hn, ht⟩, hl⟩, rfl⟩, h⟩ := h
    obtain ⟨hb, hw⟩ := fmtSW_some.mp h
    have g1 : opcode w = 0x47 := by rw [opcode, fld_nat]; omega
    have g2 : fld w 20 5 = v := by rw [fld_nat]; omega
    have g3 : fld w 12 8 = n - 1 := by rw [fld_nat]; omega
    have g4 : fld w 0 12 = tab := by rw [fld_nat]; omega
    simp [decS, g1, g2, g3, g4, hl, must, ht]
    omega
  | ekill q =>
    simp only [encS, bind, Option.bind_eq_some_iff, reg8_some] at h
    obtain ⟨d', ⟨hd, rfl⟩, h⟩ := h
    obtain ⟨f1, f2, f3, f4, f5, f6, f7, -⟩ := saFields h
    simp [-BitVec.getLsbD_eq_getElem, decS, f1, f2, f3, f4, f5, num8, hd, must]
  | wait clear all m =>
    simp only [encS, bind, Option.bind_eq_some_iff] at h
    obtain ⟨⟨i, b'⟩, hb, h⟩ := h
    obtain ⟨f1, f2, f3, f4, f5, f6, f7, -⟩ := saFields h
    have g1 : fld w 18 6 = 0 := by rw [fld_nat] at f3 ⊢; cases all <;> cases clear <;> simp [bit] at f3 <;> omega
    have g2 : w.getLsbD 16 = clear := by
      rw [fld_nat] at f3; rw [lsb_nat]; cases all <;> cases clear <;> simp [bit] at f3 ⊢ <;> omega
    have g3 : w.getLsbD 17 = all := by
      rw [fld_nat] at f3; rw [lsb_nat]; cases all <;> cases clear <;> simp [bit] at f3 ⊢ <;> omega
    simp [-BitVec.getLsbD_eq_getElem, decS, f1, f4, g1, g2, g3, decB_codeB hb f6 f7, must]
  | trap m | resume m =>
    simp only [encS, bind, Option.bind_eq_some_iff] at h
    obtain ⟨⟨i, b'⟩, hb, h⟩ := h
    obtain ⟨f1, f2, f3, f4, f5, f6, f7, -⟩ := saFields h
    have g1 : fld w 8 16 = 0 := by rw [fld_nat] at f3 f4 ⊢; omega
    simp [decS, f1, g1, decB_codeB hb f6 f7, must]
  | sysr d reg =>
    simp only [encS, bind, Option.bind_eq_some_iff, must_some] at h
    obtain ⟨d', hd, r, ⟨hr, rfl⟩, h⟩ := h
    obtain ⟨f1, f2, f3, f4⟩ := syFields h
    simp [decS, f1, f2, f3, f4, sreg_idem hd, must, hr]
  | sysw reg a =>
    simp only [encS, bind, Option.bind_eq_some_iff, must_some] at h
    obtain ⟨d', hd, r, ⟨hr, rfl⟩, h⟩ := h
    obtain ⟨f1, f2, f3, f4⟩ := syFields h
    simp [decS, f1, f2, f3, f4, src_some hd, must, hr]
  | qset q b =>
    simp only [encS, bind, Option.bind_eq_some_iff, reg8_some] at h
    obtain ⟨d', ⟨hd, rfl⟩, ⟨i, b'⟩, hb, h⟩ := h
    obtain ⟨f1, f2, f3, f4, f5, f6, f7, -⟩ := saFields h
    simp [decS, f1, f3, f4, num8, hd, decB_codeB hb f6 f7, must]
  | qlog op q a b =>
    simp only [encS, bind, Option.bind_eq_some_iff, reg8_some] at h
    obtain ⟨d', ⟨hd, rfl⟩, a', ⟨ha, rfl⟩, b', ⟨hb, rfl⟩, h⟩ := h
    obtain ⟨f1, f2, f3, f4, f5, f6, f7, -⟩ := saFields h
    rw [decS_qlog op f1]
    simp [-BitVec.getLsbD_eq_getElem, decQ3, f2, f3, f4, f5, num8, hd, ha, hb, must]
  | qnot q a =>
    simp only [encS, bind, Option.bind_eq_some_iff, reg8_some] at h
    obtain ⟨d', ⟨hd, rfl⟩, a', ⟨ha, rfl⟩, h⟩ := h
    obtain ⟨f1, f2, f3, f4, f5, f6, f7, -⟩ := saFields h
    simp [-BitVec.getLsbD_eq_getElem, decS, decQ2, f1, f2, f3, f4, f5, num8, hd, ha, must]
  | qk all q a =>
    simp only [encS, bind, Option.bind_eq_some_iff, reg8_some] at h
    obtain ⟨d', ⟨hd, rfl⟩, a', ⟨ha, rfl⟩, h⟩ := h
    obtain ⟨f1, f2, f3, f4, f5, f6, f7, -⟩ := saFields h
    cases all <;> simp only [bit, Bool.false_eq_true, if_true, if_false, Nat.add_zero, Nat.reduceAdd] at f1 <;>
      simp [-BitVec.getLsbD_eq_getElem, decS, decQ2, f1, f2, f3, f4, f5, num8, hd, ha, must]
  | qpopc d q | qfirst d q | qmov d q =>
    simp only [encS, bind, Option.bind_eq_some_iff, reg8_some] at h
    obtain ⟨d', hd, a', ⟨ha, rfl⟩, h⟩ := h
    obtain ⟨f1, f2, f3, f4, f5, f6, f7, -⟩ := saFields h
    simp [-BitVec.getLsbD_eq_getElem, decS, decQS, f1, f2, f3, f4, f5, num8, sreg_idem hd, ha, must]
  | _ => simp [sinsLate] at hl

theorem decS_encS {env : DecEnv} {i : SIns} {w : W32} (h : encS env i = some w) : decS env w = some i := by
  cases hi : sinsLate i with
  | true => exact decS_encS_late hi h
  | false =>
  cases i with
  | snop | ret | endp | exit | ifence | bkpt =>
    obtain ⟨f1, f2⟩ := saZero h
    simp [decS, f1, f2, must]
  | alu op d a b =>
    simp only [encS, bind, Option.bind_eq_some_iff] at h
    obtain ⟨d', hd, a', ha, ⟨i, b'⟩, hb, h⟩ := h
    obtain ⟨f1, f2, f3, f4, f5, f6, f7, -⟩ := saFields h
    rw [decS_alu op f1]
    simp [decAlu, f3, f4, sreg_idem hd, src_some ha, decB_codeB hb f6 f7]
  | un op d a =>
    simp only [encS, bind, Option.bind_eq_some_iff] at h
    obtain ⟨d', hd, a', ha, h⟩ := h
    obtain ⟨f1, f2, f3, f4, f5, f6, f7, -⟩ := saFields h
    rw [decS_un op f1]
    simp [-BitVec.getLsbD_eq_getElem, decUn, f2, f3, f4, f5, sreg_idem hd, src_some ha, must]
  | sel d a c inv =>
    simp only [encS, bind, Option.bind_eq_some_iff, reg8_some] at h
    obtain ⟨d', hd, a', ha, c', ⟨hc, rfl⟩, h⟩ := h
    obtain ⟨f1, f2, f3, f4, f5, f6, f7, -⟩ := saFields h
    have g1 : fld w 4 4 = 0 := by rw [fld_nat] at f5 ⊢; cases inv <;> simp [bit] at f5 <;> omega
    have g2 : fld w 0 3 = c := by rw [fld_nat] at f5 ⊢; cases inv <;> simp [bit] at f5 <;> omega
    have g3 : w.getLsbD 3 = inv := by rw [fld_nat] at f5; rw [lsb_nat]; cases inv <;> simp [bit] at f5 ⊢ <;> omega
    simp [-BitVec.getLsbD_eq_getElem, decS, f1, f2, f3, f4, g1, g2, g3, sreg_idem hd, src_some ha, must]
  | cmp op c a b =>
    simp only [encS, bind, Option.bind_eq_some_iff, reg8_some] at h
    obtain ⟨d', ⟨hd, rfl⟩, a', ha, ⟨i, b'⟩, hb, h⟩ := h
    obtain ⟨f1, f2, f3, f4, f5, f6, f7, -⟩ := saFields h
    rw [decS_cmp op f1]
    simp [decCmp, f3, f4, num8, hd, src_some ha, decB_codeB hb f6 f7]
  | farith op single d a b =>
    simp only [encS, bind, Option.bind_eq_some_iff] at h
    obtain ⟨d', hd, a', ha, b', hb, h⟩ := h
    obtain ⟨f1, f2, f3, f4, f5, f6, f7, -⟩ := saFields h
    rw [decS_farith op f1]
    simp [-BitVec.getLsbD_eq_getElem, decFArith, f2, f3, f4, f5, sreg_idem hd, src_some ha, src_some hb, bit_one]
  | fcmp op single c a b =>
    simp only [encS, bind, Option.bind_eq_some_iff, reg8_some] at h
    obtain ⟨d', ⟨hd, rfl⟩, a', ha, b', hb, h⟩ := h
    obtain ⟨f1, f2, f3, f4, f5, f6, f7, -⟩ := saFields h
    rw [decS_fcmp op f1]
    simp [-BitVec.getLsbD_eq_getElem, decFCmp, f2, f3, f4, f5, num8, hd, src_some ha, src_some hb, bit_one]
  | fcvt sr dst src d a =>
    simp only [encS, bind, Option.bind_eq_some_iff, must_some] at h
    obtain ⟨d', hd, a', ha, b', ⟨hok, rfl⟩, h⟩ := h
    obtain ⟨f1, f2, f3, f4, f5, f6, f7, -⟩ := saFields h
    have h1 := tyCode_lt dst
    have h2 := tyCode_lt src
    have g1 : fld w 4 4 = tyCode src := by rw [fld_nat] at f5 ⊢; omega
    have g2 : fld w 0 4 = tyCode dst := by rw [fld_nat] at f5 ⊢; omega
    rw [fcvtOk] at hok
    simp [-BitVec.getLsbD_eq_getElem, -Bool.not_and, -Bool.and_eq_true, -bne_iff_ne, decS, f1, f2, f3, f4, g1, g2, sreg_idem hd, src_some ha, tyOf_tyCode,
      must, hok, bit_one]
  | fclass single d a =>
    simp only [encS, bind, Option.bind_eq_some_iff] at h
    obtain ⟨d', hd, a', ha, h⟩ := h
    obtain ⟨f1, f2, f3, f4, f5, f6, f7, -⟩ := saFields h
    simp [-BitVec.getLsbD_eq_getElem, decS, f1, f2, f3, f4, f5, sreg_idem hd, src_some ha, must, bit_one]
  | br c neg disp =>
    simp only [encS, bind, Option.bind_eq_some_iff] at h
    obtain ⟨n, hn, h⟩ := h
    obtain ⟨f1, f2, f3, f4, f5⟩ := scFields h
    simp [-BitVec.getLsbD_eq_getElem, decS, f1, f2, f3, f4, bit_one, sext21_disp hn]
  | jmp disp | call disp =>
    simp only [encS, bind, Option.bind_eq_some_iff] at h
    obtain ⟨n, hn, h⟩ := h
    obtain ⟨f1, f2, f3, f4, f5⟩ := scFields h
    simp [decS, f1, f4, f5, must, sext21_disp hn]
  | jr d a =>
    simp only [encS, bind, Option.bind_eq_some_iff] at h
    obtain ⟨d', hd, a', ha, h⟩ := h
    obtain ⟨f1, f2, f3, f4, f5, f6, f7, -⟩ := saFields h
    simp [-BitVec.getLsbD_eq_getElem, decS, f1, f2, f3, f4, f5, sreg_idem hd, src_some ha, must]
  | loop n disp =>
    simp only [encS, bind, Option.bind_eq_some_iff, must_some, decide_eq_true_eq] at h
    obtain ⟨c, ⟨hc, rfl⟩, m, hm, h⟩ := h
    obtain ⟨f1, f2, f3, f4, f5⟩ := scFields h
    simp [-BitVec.getLsbD_eq_getElem, decS, f1, f2, f3, f4, must, sext21_disp hm]
    omega
  | _ => simp [sinsLate] at hi

/-! ## X and M classes -/

theorem xaFields {op q dst src sel mod : Nat} {w : W32} (h : fmtXA op q dst src sel mod = some w) :
    opcode w = op ∧ fld w 22 3 = q ∧ fld w 17 5 = dst ∧ fld w 12 5 = src ∧ fld w 4 8 = sel ∧ fld w 0 4 = mod := by
  obtain ⟨hb, hw⟩ := fmtXA_some.mp h
  simp only [opcode, fld_nat]
  omega

theorem redOf_redCode (op : RedOp) : redOf (redCode op) = some op := by cases op <;> rfl

theorem decX_encX {i : XIns} {w : W32} (h : encX i = some w) : decX w = some i := by
  cases i with
  | gshuf rot p q dst src =>
    simp only [encX, bind, Option.bind_eq_some_iff, must_some, decide_eq_true_eq] at h
    obtain ⟨p', ⟨hp, rfl⟩, h⟩ := h
    obtain ⟨f1, f2, f3, f4, f5, f6⟩ := xaFields h
    cases rot <;> simp only [bit, Bool.false_eq_true, if_true, if_false] at f5 <;>
      simp [decX, f1, f2, f3, f4, f5, f6, must] <;> omega
  | gbcast p q dst src | gallg p q dst src =>
    simp only [encX, bind, Option.bind_eq_some_iff, must_some, decide_eq_true_eq] at h
    obtain ⟨p', ⟨hp, rfl⟩, h⟩ := h
    obtain ⟨f1, f2, f3, f4, f5, f6⟩ := xaFields h
    simp [decX, f1, f2, f3, f4, f5, f6, must, hp]
  | gvshuf wide p q dst src =>
    simp only [encX, bind, Option.bind_eq_some_iff, must_some, decide_eq_true_eq] at h
    obtain ⟨p', ⟨hp, rfl⟩, h⟩ := h
    obtain ⟨f1, f2, f3, f4, f5, f6⟩ := xaFields h
    cases wide <;> simp only [bit, Bool.false_eq_true, if_true, if_false] at f6 <;>
      simp [decX, f1, f2, f3, f4, f5, f6, must, hp]
  | gred op t q dst src | gvred op t q dst src =>
    simp only [encX, bind, Option.bind_eq_some_iff, must_some, decide_eq_true_eq] at h
    obtain ⟨p', ⟨hp, rfl⟩, h⟩ := h
    obtain ⟨f1, f2, f3, f4, f5, f6⟩ := xaFields h
    simp [decX, f1, f2, f3, f4, f5, f6, must, hp, redOf_redCode, tyOf_tyCode]

theorem maFields {op acc hA tA hB tB mod : Nat} {w : W32} (h : fmtMA op acc hA tA hB tB mod = some w) :
    opcode w = op ∧ mFields w = ⟨acc, hA, tA, hB, tB, mod⟩ ∧ mod < 32 ∧ acc < 64 := by
  obtain ⟨hb, hw⟩ := fmtMA_some.mp h
  simp only [opcode, mFields, fld_nat, MFields.mk.injEq]
  omega

theorem decM_mul {env : DecEnv} {w : W32} (op : MulOp) (h : opcode w = mulCode op) : decM env w = decMul (mFields w) op := by
  cases op <;> simp only [mulCode] at h <;> simp only [decM, h]

theorem decBanks_bankMod {acc hA tA hB tB m : Nat} {col : Bool} {n : Nat} (h : bankMod col acc n = some m) :
    decBanks ⟨acc, hA, tA, hB, tB, m⟩ = some (col, n) := by
  simp only [bankMod, must_some, Bool.and_eq_true, decide_eq_true_eq] at h
  obtain ⟨⟨h1, h2⟩, rfl⟩ := h
  cases col with
  | true =>
    simp only [if_true, decide_eq_true_eq] at h2
    have a1 : (16 + (n - 1)) % 16 + 1 = n := by omega
    have a2 : (16 + (n - 1)) / 16 = 1 := by omega
    have a3 : (n - 1) % 16 = n - 1 := by omega
    simp [decBanks, bit, must, a2, a3]
    omega
  | false =>
    simp only [Bool.false_eq_true, if_false, Bool.and_eq_true, decide_eq_true_eq] at h2
    have a1 : (n - 1) % 16 + 1 = n := by omega
    have a2 : (n - 1) / 16 = 0 := by omega
    simp [decBanks, bit, must, a1, a2, h2.2]

theorem ewOf_ewCode (op : EwOp) : ewOf (ewCode op) = some op := by cases op <;> rfl

theorem decM_encM {env : DecEnv} {i : MIns} {w : W32} (h : encM env i = some w) : decM env w = some i := by
  cases i with
  | mul op acc a b hA tA hB tB =>
    obtain ⟨f1, f2, f3, -⟩ := maFields h
    rw [decM_mul op f1, f2]
    cases acc <;> simp [decMul, must, bit] <;> omega
  | quant sr tA hA tB hB =>
    obtain ⟨f1, f2, f3, -⟩ := maFields h
    cases sr <;> simp [decM, f1, f2, must, bit]
  | deq | trans | zero =>
    obtain ⟨f1, f2, f3, -⟩ := maFields h
    simp [decM, f1, f2, must]
  | cvt sat sr tA hA tB hB =>
    obtain ⟨f1, f2, f3, -⟩ := maFields h
    cases sat <;> cases sr <;> simp [decM, f1, f2, must, bit]
  | ew op brow tA hA tB hB =>
    obtain ⟨f1, f2, f3, -⟩ := maFields h
    cases brow <;> cases op <;> simp [decM, f1, f2, must, bit, ewOf, ewCode]
  | aczero | acload =>
    obtain ⟨f1, f2, f3, -⟩ := maFields h
    simp [decM, f1, f2, must]
  | acdrain sat sr a b tA hA =>
    obtain ⟨f1, f2, f3, -⟩ := maFields h
    cases sat <;> cases sr <;> simp [decM, f1, f2, must, bit] <;> omega
  | acalloc col a n c =>
    simp only [encM, bind, Option.bind_eq_some_iff] at h
    obtain ⟨m, hm, h⟩ := h
    obtain ⟨f1, f2, f3, -⟩ := maFields h
    simp [decM, f1, f2, must, decBanks_bankMod hm]
  | acfree col a n =>
    simp only [encM, bind, Option.bind_eq_some_iff] at h
    obtain ⟨m, hm, h⟩ := h
    obtain ⟨f1, f2, f3, -⟩ := maFields h
    simp [decM, f1, f2, must, decBanks_bankMod hm]
  | acown col a n b cnt m =>
    simp only [encM, bind, Option.bind_eq_some_iff, must_some, Bool.and_eq_true, decide_eq_true_eq] at h
    obtain ⟨x, hx, c, ⟨⟨⟨h1, h2⟩, h3⟩, rfl⟩, h⟩ := h
    obtain ⟨f1, f2, f3, -⟩ := maFields h
    have a1 : m / 8 * 8 + m % 8 = m := by omega
    have a2 : cnt - 1 + 1 = cnt := by omega
    have a3 : b + (cnt - 1) ≤ 7 := by omega
    have a4 : m % 8 < 8 := by omega
    simp [decM, f1, f2, must, decBanks_bankMod hx, a1, a2, a3, a4, h3]
  | shsetH r v | shgetH v r =>
    simp only [encM, bind, Option.bind_eq_some_iff, must_some, decide_eq_true_eq] at h
    obtain ⟨x, ⟨hx, rfl⟩, h⟩ := h
    obtain ⟨f1, f2, f3, -⟩ := maFields h
    simp [decM, f1, f2, must, hx]
  | shsetT r v | shgetT v r =>
    simp only [encM, bind, Option.bind_eq_some_iff, must_some, decide_eq_true_eq] at h
    obtain ⟨x, ⟨hx, rfl⟩, h⟩ := h
    obtain ⟨f1, f2, f3, -⟩ := maFields h
    simp [decM, f1, f2, must]
  | fmtset x =>
    simp only [encM, bind, Option.bind_eq_some_iff, must_some, decide_eq_true_eq] at h
    obtain ⟨m, ⟨hx, rfl⟩, h⟩ := h
    simp only [pack, packFrom, Nat.reducePow, Nat.reduceLT, if_true] at h
    split at h
    · simp only [Option.map_some, Option.some.injEq] at h
      have hw := congrArg BitVec.toNat h
      simp only [BitVec.toNat_ofNat] at hw
      have a1 : opcode w = 0x11 := by rw [opcode, fld_nat]; omega
      have a2 : fld w 0 25 = x.toNat := by rw [fld_nat]; omega
      have a3 : fld w 16 2 = 0 := by rw [fld_nat]; omega
      simp [decM, a1, a2, a3, must]
    · simp at h

/-! ## V class -/

theorem vaFields {op k vd va vb ty mod : Nat} {w : W32} (h : fmtVA op k vd va vb ty mod = some w) :
    opcode w = op ∧ vFields w = ⟨k, vd, va, vb, ty, mod⟩ ∧ fld w 9 8 = va * 8 + vb / 4 ∧ fld w 7 2 = vb % 4 ∧ vb < 32 := by
  obtain ⟨hb, hw⟩ := fmtVA_some.mp h
  simp only [opcode, vFields, fld_nat, VFields.mk.injEq]
  omega

theorem decV_bin {env : DecEnv} {w : W32} (op : VBin) (h : opcode w = vbinCode op) :
    decV env w = decVBin (vFields w) op (vbinTy op) (vbinFlag op) := by
  cases op <;> simp only [vbinCode] at h <;> simp only [decV, h] <;> rfl

theorem decV_un {env : DecEnv} {w : W32} (op : VUn) (h : opcode w = vunCode op) :
    decV env w = decVUn (vFields w) op (vunTy op) (vunFlag op) := by
  cases op <;> simp only [vunCode] at h <;> simp only [decV, h] <;> rfl

theorem ccOf_ccCode (c : VCc) : ccOf (ccCode c) = some c := by cases c <;> rfl
theorem voteOf_voteCode (m : VoteMode) : voteOf (voteCode m) = some m := by cases m <;> rfl

theorem decV_klog {env : DecEnv} {w : W32} (op : QOp) (h : opcode w = qopV op) : decV env w = decKlog (vFields w) op := by
  cases op <;> simp only [qopV] at h <;> simp only [decV, h]

theorem decVRed_redFields {k vd va vb m : Nat} {scan : Bool} {op : RedOp} {t : Ty} {vi : Option Nat}
    (h : redFields scan op t vd vi = some (m, vb)) :
    decVRed ⟨k, vd, va, vb, tyCode t, m⟩ scan = some (.red scan op t k vd va vi) := by
  cases vi with
  | none =>
    cases op <;> simp only [redFields, must_some, Prod.mk.injEq] at h <;> obtain ⟨h1, rfl, rfl⟩ := h <;>
      simp [decVRed, tyOf_tyCode, must, h1]
  | some vi =>
    cases op <;> simp only [redFields, must_some, Prod.mk.injEq, reduceCtorEq] at h <;> obtain ⟨h1, rfl, rfl⟩ := h <;>
      simp only [Bool.and_eq_true, bne_iff_ne, Bool.not_eq_true', ne_eq] at h1 <;>
      simp [decVRed, tyOf_tyCode, must, h1]

theorem decV_encV {env : DecEnv} {i : VIns} {w : W32} (h : encV env i = some w) : decV env w = some i := by
  cases i with
  | bin op flag t k vd va vb =>
    simp only [encV, bind, Option.bind_eq_some_iff, must_some, Bool.and_eq_true] at h
    obtain ⟨m, ⟨⟨h1, h2⟩, rfl⟩, h⟩ := h
    obtain ⟨f1, f2, -⟩ := vaFields h
    rw [decV_bin op f1, f2]
    cases flag <;> simp_all [decVBin, must, tyOf_tyCode, bit]
  | un op flag t k vd va =>
    simp only [encV, bind, Option.bind_eq_some_iff, must_some, Bool.and_eq_true] at h
    obtain ⟨m, ⟨⟨h1, h2⟩, rfl⟩, h⟩ := h
    obtain ⟨f1, f2, -⟩ := vaFields h
    rw [decV_un op f1, f2]
    cases flag <;> simp_all [decVUn, must, tyOf_tyCode, bit]
  | cmp cc t k kd va vb =>
    simp only [encV, bind, Option.bind_eq_some_iff, must_some, reg8_some] at h
    obtain ⟨kd', ⟨hk, rfl⟩, m, ⟨h1, rfl⟩, h⟩ := h
    obtain ⟨f1, f2, -⟩ := vaFields h
    simp [-Bool.and_eq_true, -bne_iff_ne, decV, f1, f2, tyOf_tyCode, ccOf_ccCode, kfield, hk, must, h1]
  | sel t k vd va vb | shuf t k vd va vb =>
    simp only [encV, bind, Option.bind_eq_some_iff, must_some] at h
    obtain ⟨m, ⟨h1, rfl⟩, h⟩ := h
    obtain ⟨f1, f2, -⟩ := vaFields h
    simp [decV, f1, f2, tyOf_tyCode, must, h1]
  | bcast t k vd x =>
    simp only [encV, bind, Option.bind_eq_some_iff, must_some] at h
    obtain ⟨c, hc, m, ⟨h1, rfl⟩, h⟩ := h
    obtain ⟨f1, f2, f3, f4, f5⟩ := vaFields h
    have g1 : fld w 9 8 = c := by omega
    have g2 : fld w 7 2 = 0 := by omega
    simp [decV, f1, f2, g1, g2, tyOf_tyCode, must, h1, src_some hc]
  | cvt dst src sat sr k vd va =>
    simp only [encV, bind, Option.bind_eq_some_iff, must_some] at h
    obtain ⟨m, ⟨h1, rfl⟩, h⟩ := h
    obtain ⟨f1, f2, -⟩ := vaFields h
    have g1 := tyCode_lt src
    have g3 : tyCode src < 16 := by omega
    have g2 : tyOf (tyCode src % 16) = some src := by rw [Nat.mod_eq_of_lt g3]; exact tyOf_tyCode src
    rw [vcvtOk] at h1
    cases sat <;> cases sr <;> cases h3 : tyInt dst <;> cases h4 : tyInt src <;>
      simp_all [decV, tyOf_tyCode, must, bit]
  | iota abs t k vd =>
    simp only [encV, bind, Option.bind_eq_some_iff, must_some] at h
    obtain ⟨m, ⟨h1, rfl⟩, h⟩ := h
    obtain ⟨f1, f2, -⟩ := vaFields h
    cases abs <;> simp [decV, f1, f2, tyOf_tyCode, must, h1, bit]
  | red scan op t k vd va vi =>
    simp only [encV, bind, Option.bind_eq_some_iff] at h
    obtain ⟨⟨m, vb⟩, hm, h⟩ := h
    obtain ⟨f1, f2, -⟩ := vaFields h
    have := decVRed_redFields (k := k) (va := va) hm
    cases scan <;> simp only [bit, Bool.false_eq_true, if_true, if_false] at f1 <;> simp [decV, f1, f2, this]
  | vote m k vd ka =>
    simp only [encV, bind, Option.bind_eq_some_iff, must_some, reg8_some] at h
    obtain ⟨kd', ⟨hk, rfl⟩, m', ⟨h1, rfl⟩, h⟩ := h
    obtain ⟨f1, f2, -⟩ := vaFields h
    simp [-Bool.or_eq_true, -beq_iff_eq, decV, f1, f2, voteOf_voteCode, kfield, hk, must, h1]
  | topk t k vd vi va n =>
    simp only [encV, bind, Option.bind_eq_some_iff, must_some, Bool.and_eq_true, bne_iff_ne, ne_eq] at h
    obtain ⟨m', ⟨⟨h1, h2⟩, rfl⟩, h⟩ := h
    obtain ⟨f1, f2, -⟩ := vaFields h
    simp [decV, f1, f2, tyOf_tyCode, must, h1, h2]
  | klog op k kd ka kb =>
    simp only [encV, bind, Option.bind_eq_some_iff, reg8_some] at h
    obtain ⟨d', ⟨hd, rfl⟩, a', ⟨ha, rfl⟩, b', ⟨hb, rfl⟩, h⟩ := h
    obtain ⟨f1, f2, -⟩ := vaFields h
    rw [decV_klog op f1, f2]
    simp [decKlog, kfield, hd, ha, hb, must]
  | knot k kd ka =>
    simp only [encV, bind, Option.bind_eq_some_iff, reg8_some] at h
    obtain ⟨d', ⟨hd, rfl⟩, a', ⟨ha, rfl⟩, h⟩ := h
    obtain ⟨f1, f2, -⟩ := vaFields h
    simp [decV, f1, f2, kfield, hd, ha, must]

/-! ## D class -/

theorem daFields {op d base f hint x : Nat} {w : W32} (h : fmtDA op d base f hint x = some w) :
    opcode w = op ∧ fld w 17 8 = d ∧ fld w 9 8 = base ∧ fld w 3 6 = f ∧ fld w 1 2 = hint ∧ w.getLsbD 0 = decide (x = 1) := by
  obtain ⟨hb, hw⟩ := fmtDA_some.mp h
  simp only [opcode, fld_nat, lsb_nat, decide_eq_decide]
  omega

theorem dsFields {op d base mod x : Nat} {w : W32} (h : fmtDS op d base mod x = some w) :
    opcode w = op ∧ fld w 17 8 = d ∧ fld w 9 8 = base ∧ fld w 1 8 = mod ∧ w.getLsbD 0 = decide (x = 1) ∧
      w.toNat / 2 = d * 65536 + base * 256 + mod + op * 16777216 ∧ mod < 256 ∧ base < 256 ∧ d < 256 ∧ w.toNat % 2 = x := by
  obtain ⟨hb, hw⟩ := fmtDS_some.mp h
  simp only [opcode, fld_nat, lsb_nat, decide_eq_decide]
  omega

theorem dtFields {op sync t h base m g x : Nat} {w : W32} (hg : g < 8) (hw : fmtDT op sync t h base (m * 8 + g) x = some w) :
    opcode w = op ∧ fld w 20 5 = sync ∧ fld w 16 4 = t ∧ fld w 13 3 = h ∧ fld w 5 8 = base ∧ fld w 1 3 = g ∧
      w.getLsbD 4 = decide (m = 1) ∧ w.getLsbD 0 = decide (x = 1) ∧ fld w 13 7 = t * 8 + h ∧ fld w 0 4 = g * 2 + x := by
  obtain ⟨hb, hw⟩ := fmtDT_some.mp hw
  simp only [opcode, fld_nat, lsb_nat, decide_eq_decide]
  omega

theorem vcode_vregCode {n c : Nat} (h : vregCode n = some c) : vcode c = some n ∧ c < 224 := by
  simp only [vregCode, must_some, decide_eq_true_eq] at h
  obtain ⟨h1, rfl⟩ := h
  refine ⟨?_, by omega⟩
  rw [vcode, if_pos (by omega)]
  simp

theorem src_vcode {env : DecEnv} {s : Src} {c : Nat} (h : env.src c = some s) : vcode c = none := by
  rw [DecEnv.src] at h
  rw [vcode]
  split at h
  · rw [if_neg (by omega)]
  · split at h
    · rw [if_neg (by omega)]
    · simp at h

theorem decDisp_xOf {env : DecEnv} {disp : W64} {x : Nat} {w : W32} (h : env.xOf disp = some x)
    (hx : w.getLsbD 0 = decide (x = 1)) : decDisp env w = some disp := by
  rw [DecEnv.xOf] at h
  rw [decDisp, hx]
  split at h
  · next h0 => obtain rfl := Option.some.inj h; simp [h0]
  · simp only [must_some, beq_iff_eq] at h
    obtain ⟨h1, rfl⟩ := h
    simpa using h1

/-- What an address's codes decode to. -/
theorem addrCode_some {env : DecEnv} {ok : Base → Bool} {a : Addr} {b x : Nat} (h : env.addrCode ok a = some (b, x)) :
    ok a.base = true ∧ env.baseCode a.base = some b ∧ env.xOf a.disp = some x := by
  simp only [DecEnv.addrCode, bind, Option.bind_eq_some_iff, must_some, Prod.mk.injEq] at h
  obtain ⟨b', hb, x', hx, ho, rfl, rfl⟩ := h
  exact ⟨ho, hb, hx⟩

theorem decSAddr_addrCode {env : DecEnv} {a : Addr} {ok : Base → Bool} {b x : Nat} {w : W32} (h : env.addrCode ok a = some (b, x))
    (hok : ∀ y, ok y = true → scalarBase y = true) (hx : w.getLsbD 0 = decide (x = 1)) :
    decSAddr env w b = some a ∧ vcode b = none := by
  obtain ⟨ho, hb, hd⟩ := addrCode_some h
  obtain ⟨base, disp⟩ := a
  cases base with
  | pair n => exact absurd (hok _ ho) (by simp [scalarBase])
  | scalar s =>
    have := src_some hb
    exact ⟨by simp [decSAddr, this, decDisp_xOf hd hx], src_vcode this⟩

theorem decVAddr_addrCode {env : DecEnv} {a : Addr} {ok : Base → Bool} {b x : Nat} {w : W32} (h : env.addrCode ok a = some (b, x))
    (hok : ∀ y, ok y = true → scalarBase y = false) (hx : w.getLsbD 0 = decide (x = 1)) :
    decVAddr env w b = some a ∧ ∃ n, vcode b = some n := by
  obtain ⟨ho, hb, hd⟩ := addrCode_some h
  obtain ⟨base, disp⟩ := a
  cases base with
  | scalar s => exact absurd (hok _ ho) (by simp [scalarBase])
  | pair n =>
    simp only [DecEnv.baseCode, must_some, Bool.and_eq_true, decide_eq_true_eq] at hb
    obtain ⟨⟨he, hn⟩, rfl⟩ := hb
    have : vcode (192 + n) = some n := by rw [vcode, if_pos (by omega)]; simp
    exact ⟨by simp [decVAddr, this, decDisp_xOf hd hx, must, beq_iff_eq.mp he], n, this⟩

theorem decAddr_addrCode {env : DecEnv} {a : Addr} {ok : Base → Bool} {b x : Nat} {w : W32} (h : env.addrCode ok a = some (b, x))
    (hx : w.getLsbD 0 = decide (x = 1)) : decAddr env w b = some a := by
  obtain ⟨ho, hb, hd⟩ := addrCode_some h
  obtain ⟨base, disp⟩ := a
  cases base with
  | scalar s =>
    have := src_some hb
    simp [decAddr, decBase, this, src_vcode this, decDisp_xOf hd hx]
  | pair n =>
    simp only [DecEnv.baseCode, must_some, Bool.and_eq_true, decide_eq_true_eq] at hb
    obtain ⟨⟨he, hn⟩, rfl⟩ := hb
    have : vcode (192 + n) = some n := by rw [vcode, if_pos (by omega)]; simp
    simp [decAddr, decBase, this, decDisp_xOf hd hx, must, he]

theorem decObj_addrCode {env : DecEnv} {a : Addr} {b x : Nat} {w : W32} (h : env.addrCode regBase a = some (b, x))
    (hb : fld w 9 8 = b) (hx : w.getLsbD 0 = decide (x = 1)) : decObj env w = some a := by
  obtain ⟨ho, hc, hd⟩ := addrCode_some h
  obtain ⟨base, disp⟩ := a
  cases base with
  | pair n => simp [regBase] at ho
  | scalar s =>
    cases s with
    | reg n => simp [decObj, hb, sreg_idem hc, decDisp_xOf hd hx]
    | imm v => simp [regBase] at ho
    | lit v => simp [regBase] at ho

theorem scalarBase_of_eq {sp : Spread} {y : Base} : (scalarBase y == (sp != .indexed)) = true ↔ scalarBase y = (sp != .indexed) :=
  beq_iff_eq

theorem decSync_syncCode {env : DecEnv} {sy : Sync} {n m : Nat} {w : W32} (h : env.syncCode sy = some (n, m))
    (hn : fld w 20 5 = n) (hm : w.getLsbD 4 = decide (m = 1)) : decSync env w = some sy := by
  cases sy with
  | flag k =>
    obtain ⟨rfl, rfl⟩ := Prod.mk.inj (Option.some.inj h)
    simp [-BitVec.getLsbD_eq_getElem, decSync, hn, hm]
  | barrier k =>
    simp only [DecEnv.syncCode, must_some, decide_eq_true_eq, Prod.mk.injEq] at h
    obtain ⟨h1, rfl, rfl⟩ := h
    simp [-BitVec.getLsbD_eq_getElem, decSync, hn, hm, must, h1]

theorem scopeOf_scopeCode (sc : Scope) : scopeOf (scopeCode sc) = sc := by cases sc <;> rfl

theorem decD_ld {env : DecEnv} {w : W32} {n : Nat} {sg : Bool} {op : Nat} (hc : ldCode n sg = some op) (h : opcode w = op) :
    decD env w = decLd env w n sg := by
  unfold ldCode at hc
  split at hc <;> simp only [Option.some.injEq, reduceCtorEq] at hc <;> subst hc <;> simp only [decD, h]

theorem decD_st {env : DecEnv} {w : W32} {n : Nat} {op : Nat} (hc : stCode n = some op) (h : opcode w = op) :
    decD env w = decSt env w n := by
  unfold stCode at hc
  split at hc <;> simp only [Option.some.injEq, reduceCtorEq] at hc <;> subst hc <;> simp only [decD, h]

theorem decD_vld {env : DecEnv} {w : W32} (sp : Spread) (h : opcode w = vldCode sp) : decD env w = decVld env w sp := by
  cases sp <;> simp only [vldCode] at h <;> simp only [decD, h]

theorem decD_vst {env : DecEnv} {w : W32} (sp : Spread) (h : opcode w = vstCode sp) : decD env w = decVst env w sp := by
  cases sp <;> simp only [vstCode] at h <;> simp only [decD, h]

theorem decD_at {env : DecEnv} {w : W32} (op : AtOp) (sc : Scope) (h : opcode w = atCode op + scopeCode sc) :
    decD env w = decAt env w op := by
  cases op <;> cases sc <;> simp only [atCode, scopeCode, Nat.reduceAdd] at h <;> simp [decD, h, atOpOf]

theorem encObj_dec {env : DecEnv} {op d v : Nat} {a : Addr} {w : W32} (h : encObj env op d a v = some w) :
    opcode w = op ∧ env.sreg (fld w 17 8) = some d ∧ decObj env w = some a ∧ fld w 1 8 = v ∧ w.toNat / 2 % 256 = v ∧ v < 256 := by
  simp only [encObj, bind, Option.bind_eq_some_iff] at h
  obtain ⟨d', hd, ⟨b, x⟩, hb, h⟩ := h
  obtain ⟨f1, f2, f3, f4, f5, f6, f7, f8, f9, f10⟩ := dsFields h
  exact ⟨f1, by rw [f2]; exact sreg_idem hd, decObj_addrCode hb f3 f5, f4, by omega, f7⟩

theorem encObjV_dec {env : DecEnv} {op d : Nat} {v : Src} {a : Addr} {w : W32} (h : encObjV env op d a v = some w) :
    opcode w = op ∧ env.sreg (fld w 17 8) = some d ∧ decObj env w = some a ∧ env.src (fld w 1 8) = some v := by
  simp only [encObjV, bind, Option.bind_eq_some_iff] at h
  obtain ⟨c, hc, h⟩ := h
  obtain ⟨f1, f2, f3, f4, -⟩ := encObj_dec h
  exact ⟨f1, f2, f3, by rw [f4]; exact src_some hc⟩

theorem encPop_dec {env : DecEnv} {op d c f : Nat} {a : Addr} {w : W32} (h : encPop env op d c a f = some w) :
    opcode w = op ∧ env.sreg (fld w 17 8) = some d ∧ decObj env w = some a ∧ fld w 6 3 = c ∧ fld w 1 5 = f := by
  simp only [encPop, bind, Option.bind_eq_some_iff, reg8_some, must_some, decide_eq_true_eq] at h
  obtain ⟨c', ⟨hc, rfl⟩, v, ⟨hf, rfl⟩, h⟩ := h
  obtain ⟨f1, f2, f3, f4, f5, -⟩ := encObj_dec h
  exact ⟨f1, f2, f3, by rw [fld_nat]; omega, by rw [fld_nat]; omega⟩

theorem encBar_dec {env : DecEnv} {op d b : Nat} {v : Src} {w : W32} (h : encBar env op d b v = some w) :
    opcode w = op ∧ env.sreg (fld w 17 8) = some d ∧ env.src (fld w 1 8) = some v ∧ w.getLsbD 0 = false ∧ fld w 9 8 = b ∧
      b < env.nbar ∧ b < 32 := by
  simp only [encBar, bind, Option.bind_eq_some_iff, must_some, Bool.and_eq_true, decide_eq_true_eq] at h
  obtain ⟨d', hd, c, hc, b', ⟨⟨h1, h2⟩, rfl⟩, h⟩ := h
  obtain ⟨f1, f2, f3, f4, f5, -⟩ := dsFields h
  exact ⟨f1, by rw [f2]; exact sreg_idem hd, by rw [f4]; exact src_some hc, by simpa using f5, f3, h1, h2⟩

theorem encTab_dec {env : DecEnv} {op d : Nat} {v : Src} {w : W32} (h : encTab env op d v = some w) :
    opcode w = op ∧ env.sreg (fld w 17 8) = some d ∧ env.src (fld w 1 8) = some v ∧ w.getLsbD 0 = false ∧ fld w 9 8 = 0 := by
  simp only [encTab, bind, Option.bind_eq_some_iff] at h
  obtain ⟨d', hd, c, hc, h⟩ := h
  obtain ⟨f1, f2, f3, f4, f5, -⟩ := dsFields h
  exact ⟨f1, by rw [f2]; exact sreg_idem hd, by rw [f4]; exact src_some hc, by simpa using f5, f3⟩

theorem encDesc_dec {env : DecEnv} {op v : Nat} {sy : Sync} {w : W32} (h : encDesc env op sy v = some w) :
    opcode w = op ∧ decSync env w = some sy ∧ decDesc w = some v := by
  simp only [encDesc, bind, Option.bind_eq_some_iff] at h
  obtain ⟨⟨n, m⟩, hs, c, hc, h⟩ := h
  have h : fmtDT op n 0 0 c (m * 8 + 0) 0 = some w := h
  obtain ⟨f1, f2, f3, f4, f5, f6, f7, f8, f9, f10⟩ := dtFields (by omega) h
  exact ⟨f1, decSync_syncCode hs f2 f7, by simp [decDesc, f5, f9, f10, (vcode_vregCode hc).1, must]⟩

theorem decD_encD_at {env : DecEnv} {op : AtOp} {sc : Scope} {d : Nat} {a : Addr} {o : Src} {w : W32}
    (h : encD env (.at op sc d a o) = some w) : decD env w = some (.at op sc d a o) := by
  simp only [encD, bind, Option.bind_eq_some_iff] at h
  obtain ⟨d', hd, ⟨b, x⟩, hb, c, hc, h⟩ := h
  obtain ⟨f1, f2, f3, f4, f5, -⟩ := dsFields h
  obtain ⟨h1, h2⟩ := decSAddr_addrCode hb (fun _ h => h) f5
  have g : (atCode op + scopeCode sc) % 4 = scopeCode sc := by cases op <;> cases sc <;> rfl
  rw [decD_at op sc f1]
  simp [decAt, f1, f2, f3, f4, h1, h2, g, sreg_idem hd, src_some hc, scopeOf_scopeCode]

/-- The memory instructions of the DA, DS and DT formats and the atomics. -/
def dinsMem : DIns → Bool
  | .ld .. | .vld .. | .st .. | .vst .. | .pref .. | .tile .. | .ptile .. | .tcopy .. | .tmcast .. | .tperm .. | .fence ..
  | .drain .. | .vat .. => true
  | _ => false

theorem decD_encD_mem {env : DecEnv} {i : DIns} {w : W32} (hm : dinsMem i = true) (h : encD env i = some w) :
    decD env w = some i := by
  cases i with
  | ld n sg d a f hint =>
    simp only [encD, bind, Option.bind_eq_some_iff] at h
    obtain ⟨op, ho, d', hd, ⟨b, x⟩, hb, h⟩ := h
    obtain ⟨f1, f2, f3, f4, f5, f6⟩ := daFields h
    have := (decSAddr_addrCode hb (fun _ h => h) f6).1
    rw [decD_ld ho f1]
    simp [decLd, f2, f3, f4, f5, sreg_idem hd, this]
  | vld sp d a f hint =>
    simp only [encD, bind, Option.bind_eq_some_iff] at h
    obtain ⟨d', hd, ⟨b, x⟩, hb, h⟩ := h
    obtain ⟨f1, f2, f3, f4, f5, f6⟩ := daFields h
    rw [decD_vld sp f1]
    cases sp with
    | indexed =>
      have := (decVAddr_addrCode hb (fun y h => by simpa using scalarBase_of_eq.mp h) f6).1
      simp [decVld, f2, f3, f4, f5, (vcode_vregCode hd).1, this]
    | unit | same =>
      have := (decSAddr_addrCode hb (fun y h => scalarBase_of_eq.mp h) f6).1
      simp [decVld, f2, f3, f4, f5, (vcode_vregCode hd).1, this]
  | st n data a =>
    simp only [encD, bind, Option.bind_eq_some_iff] at h
    obtain ⟨op, ho, d', hd, ⟨b, x⟩, hb, h⟩ := h
    obtain ⟨f1, f2, f3, f4, f5, -⟩ := dsFields h
    have := (decSAddr_addrCode hb (fun _ h => h) f5).1
    rw [decD_st ho f1]
    simp [decSt, f2, f3, f4, src_some hd, this, must]
  | vst sp d k a =>
    simp only [encD, bind, Option.bind_eq_some_iff, reg8_some] at h
    obtain ⟨d', hd, ⟨b, x⟩, hb, k', ⟨hk, rfl⟩, h⟩ := h
    obtain ⟨f1, f2, f3, f4, f5, f6, f7, -⟩ := dsFields h
    have g1 : fld w 4 5 = 0 := by rw [fld_nat]; omega
    have g2 : fld w 1 3 = k := by rw [fld_nat]; omega
    rw [decD_vst sp f1]
    cases sp with
    | indexed =>
      have := (decVAddr_addrCode hb (fun y h => by simpa using scalarBase_of_eq.mp h) f5).1
      simp [decVst, f2, f3, g1, g2, (vcode_vregCode hd).1, this, must]
    | unit | same =>
      have := (decSAddr_addrCode hb (fun y h => scalarBase_of_eq.mp h) f5).1
      simp [decVst, f2, f3, g1, g2, (vcode_vregCode hd).1, this, must]
  | pref a hint =>
    simp only [encD, bind, Option.bind_eq_some_iff] at h
    obtain ⟨⟨b, x⟩, hb, h⟩ := h
    obtain ⟨f1, f2, f3, f4, f5, f6⟩ := daFields h
    have := (decSAddr_addrCode hb (fun _ h => h) f6).1
    simp [decD, f1, f2, f3, f4, f5, this, must]
  | tile store sy t hr g a =>
    simp only [encD, bind, Option.bind_eq_some_iff, reg8_some] at h
    obtain ⟨⟨n, m⟩, hs, ⟨b, x⟩, hb, g', ⟨hg, rfl⟩, h⟩ := h
    obtain ⟨f1, f2, f3, f4, f5, f6, f7, f8, -⟩ := dtFields hg h
    have h1 := decSync_syncCode hs f2 f7
    have h2 := decAddr_addrCode hb f8
    cases store <;> simp only [bit, Bool.false_eq_true, if_true, if_false, Nat.add_zero, Nat.reduceAdd] at f1 <;>
      simp [decD, decTile, f1, f3, f4, f5, f6, h1, h2]
  | ptile store bar t hr g a =>
    simp only [encD, bind, Option.bind_eq_some_iff, reg8_some] at h
    obtain ⟨⟨n, m⟩, hs, ⟨b, x⟩, hb, g', ⟨hg, rfl⟩, h⟩ := h
    obtain ⟨f1, f2, f3, f4, f5, f6, f7, f8, -⟩ := dtFields hg h
    have h1 := decSync_syncCode hs f2 f7
    have h2 := decAddr_addrCode hb f8
    cases store <;> simp only [bit, Bool.false_eq_true, if_true, if_false, Nat.add_zero, Nat.reduceAdd] at f1 <;>
      simp [decD, decPTile, f1, f3, f4, f5, f6, h1, h2]
  | tcopy bar v =>
    obtain ⟨f1, f2, f3⟩ := encDesc_dec h
    simp [decD, f1, f2, f3]
  | tmcast sy v | tperm sy v =>
    obtain ⟨f1, f2, f3⟩ := encDesc_dec h
    simp [decD, f1, f2, f3]
  | fence k sc =>
    obtain ⟨f1, f2, f3, f4, f5, f6, f7, f8, f9, f10⟩ := dsFields h
    have g1 : fld w 9 16 = 0 := by rw [fld_nat]; cases k <;> cases sc <;> simp only [fenceCode, scopeCode] at * <;> omega
    have g2 : fld w 5 4 = 0 := by rw [fld_nat]; cases k <;> cases sc <;> simp only [fenceCode, scopeCode] at * <;> omega
    have g3 : fld w 3 2 = fenceCode k := by rw [fld_nat]; cases k <;> cases sc <;> simp only [fenceCode, scopeCode] at * <;> omega
    have g4 : fld w 1 2 = scopeCode sc := by rw [fld_nat]; cases k <;> cases sc <;> simp only [fenceCode, scopeCode] at * <;> omega
    cases k <;> simp only [fenceCode] at g3 <;>
      simp [-BitVec.getLsbD_eq_getElem, decD, f1, f5, g1, g2, g3, g4, must, scopeOf_scopeCode]
  | drain sc =>
    obtain ⟨f1, f2, f3, f4, f5, f6, f7, f8, f9, f10⟩ := dsFields h
    have g1 : fld w 9 16 = 0 := by rw [fld_nat]; cases sc <;> simp only [scopeCode] at * <;> omega
    have g2 : fld w 3 6 = 0 := by rw [fld_nat]; cases sc <;> simp only [scopeCode] at * <;> omega
    have g4 : fld w 1 2 = scopeCode sc := by rw [fld_nat]; cases sc <;> simp only [scopeCode] at * <;> omega
    simp [-BitVec.getLsbD_eq_getElem, decD, f1, f5, g1, g2, g4, must, scopeOf_scopeCode]
  | vat op sc d a o =>
    simp only [encD, bind, Option.bind_eq_some_iff] at h
    obtain ⟨d', hd, ⟨b, x⟩, hb, c, hc, h⟩ := h
    obtain ⟨f1, f2, f3, f4, f5, -⟩ := dsFields h
    obtain ⟨h1, m, h2⟩ := decVAddr_addrCode hb (fun y h => by simpa using h) f5
    have g : (atCode op + scopeCode sc) % 4 = scopeCode sc := by cases op <;> cases sc <;> rfl
    rw [decD_at op sc f1]
    cases d with
    | s n => simp [DecEnv.dstCode] at hd
    | none =>
      obtain rfl := Option.some.inj hd
      cases o with
      | vec n => simp [decAt, f1, f2, f3, f4, h1, h2, g, scopeOf_scopeCode, (vcode_vregCode hc).1]
      | all s => simp [decAt, f1, f2, f3, f4, h1, h2, g, scopeOf_scopeCode, src_some hc, src_vcode (src_some hc)]
    | v n =>
      have hv := (vcode_vregCode hd).1
      have h0 : d' ≠ 0 := by rintro rfl; simp [vcode] at hv
      cases o with
      | vec n => simp [decAt, f1, f2, f3, f4, h0, hv, h1, h2, g, scopeOf_scopeCode, (vcode_vregCode hc).1]
      | all s => simp [decAt, f1, f2, f3, f4, h0, hv, h1, h2, g, scopeOf_scopeCode, src_some hc, src_vcode (src_some hc)]
  | _ => simp [dinsMem] at hm

theorem decD_encD {env : DecEnv} {i : DIns} {w : W32} (h : encD env i = some w) : decD env w = some i := by
  cases hm : dinsMem i with
  | true => exact decD_encD_mem hm h
  | false =>
  cases i with
  | fget | qpop =>
    obtain ⟨f1, f2, f3, f4, f5⟩ := encPop_dec h
    simp [decD, decPop, f1, f2, f3, f4, f5]
  | fput | qpush | dcset | plset | plget =>
    obtain ⟨f1, f2, f3, f4⟩ := encObjV_dec h
    simp [decD, decObjV, f1, f2, f3, f4]
  | fpoll d a f =>
    simp only [encD, bind, Option.bind_eq_some_iff, must_some, Bool.and_eq_true, decide_eq_true_eq, beq_iff_eq] at h
    obtain ⟨e, he, f', ⟨⟨⟨⟨h1, h2⟩, h3⟩, h4⟩, rfl⟩, h⟩ := h
    obtain ⟨f1, f2, f3, f4, f5, f6⟩ := encObj_dec h
    have g1 : fld w 7 2 = 0 := by rw [fld_nat]; omega
    have g2 : fld w 1 6 = f := by rw [fld_nat]; omega
    simp [decD, f1, f2, f3, g1, g2, he, must, h1, h2, h3]
  | lock | trylock | unlock | qresv | dcdec | spawn =>
    obtain ⟨f1, f2, f3, f4, -⟩ := encObj_dec h
    simp [decD, decObj0, f1, f2, f3, f4, must]
  | barinit | bararr | barexp =>
    obtain ⟨f1, f2, f3, f4, f5, f6, f7⟩ := encBar_dec h
    simp [-BitVec.getLsbD_eq_getElem, decD, decBar, f1, f2, f3, f4, f5, f6, f7, must]
  | adpin | adunpin =>
    obtain ⟨f1, f2, f3, f4, f5⟩ := encTab_dec h
    simp [-BitVec.getLsbD_eq_getElem, decD, decTab, f1, f2, f3, f4, f5, must]
  | harvest d =>
    simp only [encD, bind, Option.bind_eq_some_iff] at h
    obtain ⟨d', hd, h⟩ := h
    obtain ⟨f1, f2, f3, f4, f5, f6, f7, f8, f9, f10⟩ := dsFields h
    have g : fld w 0 17 = 0 := by rw [fld_nat]; omega
    simp [decD, f1, f2, g, sreg_idem hd, must]
  | _ =>
    first
      | exact decD_encD_at h
      | simp [dinsMem] at hm

/-! ## Every instruction that a word decodes to has a word -/

theorem fld_lt (w : W32) (lo len : Nat) : fld w lo len < 2 ^ len := by
  rw [fld_nat]; exact Nat.mod_lt _ (Nat.two_pow_pos _)

theorem sreg_out {env : DecEnv} {n d : Nat} (h : env.sreg n = some d) : env.sreg d = some d ∧ d < 256 := by
  obtain ⟨hb, rfl⟩ := sreg_some.mp h
  exact ⟨h, by have := inBudget_le hb; omega⟩

theorem aluCode_lt (op : AluOp) : aluCode op < 128 := by cases op <;> decide
theorem unCode_lt (op : UnOp) : unCode op < 128 := by cases op <;> decide
theorem icmpCode_lt (op : ICmp) : icmpCode op < 128 := by cases op <;> decide
theorem fopCode_lt (op : FOp) : fopCode op < 128 := by cases op <;> decide
theorem fcmpCode_lt (op : FCmp) : fcmpCode op < 128 := by cases op <;> decide
theorem qopCode_lt (op : QOp) : qopCode op < 128 := by cases op <;> decide

theorem encS_decAlu {env : DecEnv} {w : W32} {op : AluOp} {i : SIns} (h : decAlu env w op = some i) : ∃ x, encS env i = some x := by
  simp only [decAlu, bind, Option.bind_eq_some_iff, pure, Option.some.injEq] at h
  obtain ⟨d, hd, a, ha, b, hb, rfl⟩ := h
  obtain ⟨a', ha, la⟩ := codeOf_src ha
  obtain ⟨j, b', hb, lj, lb⟩ := codeB_decB hb
  have hd := sreg_out hd
  simp only [encS, hd.1, ha, hb, bind, Option.bind_some]
  exact fmtSA_isSome ⟨aluCode_lt op, lj, hd.2, by omega, lb⟩

theorem encS_decUn {env : DecEnv} {w : W32} {op : UnOp} {i : SIns} (h : decUn env w op = some i) : ∃ x, encS env i = some x := by
  simp only [decUn, bind, Option.bind_eq_some_iff, must_some] at h
  obtain ⟨d, hd, a, ha, -, rfl⟩ := h
  obtain ⟨a', ha, la⟩ := codeOf_src ha
  have hd := sreg_out hd
  simp only [encS, hd.1, ha, bind, Option.bind_some]
  exact fmtSA_isSome ⟨unCode_lt op, by omega, hd.2, by omega, by omega⟩

theorem encS_decCmp {env : DecEnv} {w : W32} {op : ICmp} {i : SIns} (h : decCmp env w op = some i) : ∃ x, encS env i = some x := by
  simp only [decCmp, bind, Option.bind_eq_some_iff, pure, Option.some.injEq, num8_some] at h
  obtain ⟨d, ⟨hd, rfl⟩, a, ha, b, hb, rfl⟩ := h
  obtain ⟨a', ha, la⟩ := codeOf_src ha
  obtain ⟨j, b', hb, lj, lb⟩ := codeB_decB hb
  simp only [encS, reg8, must, decide_eq_true hd, if_true, ha, hb, bind, Option.bind_some]
  exact fmtSA_isSome ⟨icmpCode_lt op, lj, by omega, by omega, lb⟩

theorem encS_decFArith {env : DecEnv} {w : W32} {op : FOp} {i : SIns} (h : decFArith env w op = some i) :
    ∃ x, encS env i = some x := by
  simp only [decFArith, bind, Option.bind_eq_some_iff, pure, Option.some.injEq] at h
  obtain ⟨d, hd, a, ha, b, hb, rfl⟩ := h
  obtain ⟨a', ha, la⟩ := codeOf_src ha
  obtain ⟨b', hb, lb⟩ := codeOf_src hb
  have hd := sreg_out hd
  simp only [encS, hd.1, ha, hb, bind, Option.bind_some]
  exact fmtSA_isSome ⟨fopCode_lt op, bit_lt _, hd.2, by omega, by omega⟩

theorem encS_decFCmp {env : DecEnv} {w : W32} {op : FCmp} {i : SIns} (h : decFCmp env w op = some i) :
    ∃ x, encS env i = some x := by
  simp only [decFCmp, bind, Option.bind_eq_some_iff, pure, Option.some.injEq, num8_some] at h
  obtain ⟨d, ⟨hd, rfl⟩, a, ha, b, hb, rfl⟩ := h
  obtain ⟨a', ha, la⟩ := codeOf_src ha
  obtain ⟨b', hb, lb⟩ := codeOf_src hb
  simp only [encS, reg8, must, decide_eq_true hd, if_true, ha, hb, bind, Option.bind_some]
  exact fmtSA_isSome ⟨fcmpCode_lt op, bit_lt _, by omega, by omega, by omega⟩

theorem encS_decQ3 {env : DecEnv} {w : W32} {op : QOp} {i : SIns} (h : decQ3 w op = some i) : ∃ x, encS env i = some x := by
  simp only [decQ3, bind, Option.bind_eq_some_iff, must_some, num8_some] at h
  obtain ⟨d, ⟨hd, rfl⟩, a, ⟨ha, rfl⟩, b, ⟨hb, rfl⟩, -, rfl⟩ := h
  simp only [encS, reg8, must, decide_eq_true hd, decide_eq_true ha, decide_eq_true hb, if_true, bind, Option.bind_some]
  exact fmtSA_isSome ⟨qopCode_lt op, by omega, by omega, by omega, by omega⟩

theorem decQ2_some {w : W32} {f : Nat → Nat → SIns} {i : SIns} (h : decQ2 w f = some i) : ∃ d a, d < 8 ∧ a < 8 ∧ i = f d a := by
  simp only [decQ2, bind, Option.bind_eq_some_iff, must_some, num8_some] at h
  obtain ⟨d, ⟨hd, rfl⟩, a, ⟨ha, rfl⟩, -, rfl⟩ := h
  exact ⟨_, _, hd, ha, rfl⟩

theorem decQS_some {env : DecEnv} {w : W32} {f : Nat → Nat → SIns} {i : SIns} (h : decQS env w f = some i) :
    ∃ d a, env.sreg d = some d ∧ d < 256 ∧ a < 8 ∧ i = f d a := by
  simp only [decQS, bind, Option.bind_eq_some_iff, must_some, num8_some] at h
  obtain ⟨d, hd, a, ⟨ha, rfl⟩, -, rfl⟩ := h
  exact ⟨_, _, (sreg_out hd).1, (sreg_out hd).2, ha, rfl⟩

theorem sgFields_isSome {b : Bundle} {x y e j : Nat} (he : e < 1024) (hj : j < 1024) (h : sgCounts b e j = some (x, y)) :
    ∃ e' j', sgFields b x y = some (e', j') ∧ e' < 1024 ∧ j' < 1024 := by
  have hmem : ∀ {n f : Nat}, f ∈ countFields n → f < 1024 := fun {n f} hf => by
    rw [countFields] at hf; split at hf <;> simp at hf <;> omega
  suffices ∃ p, sgFields b x y = some p by
    obtain ⟨⟨e', j'⟩, hp⟩ := this
    have := List.mem_of_find?_eq_some hp
    simp only [List.mem_flatMap, List.mem_map, Prod.mk.injEq] at this
    obtain ⟨_, he', _, hj', rfl, rfl⟩ := this
    exact ⟨_, _, hp, hmem he', hmem hj'⟩
  rw [← Option.isSome_iff_exists, sgFields, List.find?_isSome]
  have hc := h
  have hin : ∀ {f n : Nat}, f < 1024 → (f = 0 ∨ f = n) → f ∈ countFields n := fun {f n} hf h => by
    rw [countFields]; split <;> simp <;> omega
  have hx : e = 0 ∨ e = x := by
    by_cases h0 : e = 0
    · exact .inl h0
    · right
      by_cases h1 : j = 0
      · simp only [sgCounts, h0, h1, if_true, if_false, bind, Option.bind_eq_some_iff, pure, Option.some.injEq, Prod.mk.injEq] at h
        obtain ⟨_, rfl, _, _, rfl, _⟩ := h; rfl
      · simp only [sgCounts, h0, h1, if_false, bind, Option.bind_some, pure, Option.some.injEq, Prod.mk.injEq] at h
        exact h.1
  have hy : j = 0 ∨ j = y := by
    by_cases h1 : j = 0
    · exact .inl h1
    · right
      by_cases h0 : e = 0
      · simp only [sgCounts, h0, h1, if_true, if_false, bind, Option.bind_eq_some_iff, pure, Option.some.injEq, Prod.mk.injEq] at h
        obtain ⟨_, _, _, rfl, _, rfl⟩ := h; rfl
      · simp only [sgCounts, h0, h1, if_false, bind, Option.bind_some, pure, Option.some.injEq, Prod.mk.injEq] at h
        exact h.2
  exact ⟨(e, j), by simp only [List.mem_flatMap, List.mem_map, Prod.mk.injEq]; exact ⟨e, hin he hx, j, hin hj hy, rfl, rfl⟩, by simp [hc]⟩

theorem encS_decS {env : DecEnv} {w : W32} {i : SIns} (h : decS env w = some i) : ∃ x, encS env i = some x := by
  unfold decS at h
  dsimp only at h
  split at h
  all_goals first
    | with_reducible exact encS_decAlu h
    | with_reducible exact encS_decUn h
    | with_reducible exact encS_decCmp h
    | with_reducible exact encS_decFArith h
    | with_reducible exact encS_decFCmp h
    | with_reducible exact encS_decQ3 h
    | skip
  · simp only [must_some] at h
    obtain ⟨-, rfl⟩ := h
    exact fmtSA_isSome (by omega)
  · simp only [bind, Option.bind_eq_some_iff, must_some] at h
    obtain ⟨d, hd, a, ha, -, rfl⟩ := h
    obtain ⟨a', ha, la⟩ := codeOf_src ha
    have hd := sreg_out hd
    have l3 : fld w 0 3 < 8 := fld_lt w 0 3
    have lb := bit_lt (w.getLsbD 3)
    simp only [encS, reg8, must, decide_eq_true l3, if_true, hd.1, ha, bind, Option.bind_some]
    exact fmtSA_isSome (by omega)
  · simp only [bind, Option.bind_eq_some_iff, must_some] at h
    obtain ⟨d, hd, a, ha, s, hs, t, ht, ho, rfl⟩ := h
    obtain ⟨a', ha, la⟩ := codeOf_src ha
    have hd := sreg_out hd
    have l1 := tyCode_lt s
    have l2 := tyCode_lt t
    have lb := bit_lt (w.getLsbD 24)
    simp only [encS, fcvtOk, ho, must, if_true, hd.1, ha, bind, Option.bind_some]
    exact fmtSA_isSome (by omega)
  · simp only [bind, Option.bind_eq_some_iff, must_some] at h
    obtain ⟨d, hd, a, ha, -, rfl⟩ := h
    obtain ⟨a', ha, la⟩ := codeOf_src ha
    have hd := sreg_out hd
    have lb := bit_lt (w.getLsbD 24)
    simp only [encS, hd.1, ha, bind, Option.bind_some]
    exact fmtSA_isSome (by omega)
  · obtain rfl := Option.some.inj h
    obtain ⟨e, he, le⟩ := dispSC_sext21 (fld_lt w 0 21)
    have lb := bit_lt (w.getLsbD 21)
    have lc := fld_lt w 22 3
    simp only [encS, he, bind, Option.bind_some]
    exact fmtSC_isSome (by omega)
  iterate 2
    · simp only [must_some] at h
      obtain ⟨-, rfl⟩ := h
      obtain ⟨e, he, le⟩ := dispSC_sext21 (fld_lt w 0 21)
      simp only [encS, he, bind, Option.bind_some]
      exact fmtSC_isSome (by omega)
  · simp only [must_some] at h
    obtain ⟨-, rfl⟩ := h
    exact fmtSA_isSome (by omega)
  · simp only [bind, Option.bind_eq_some_iff, must_some] at h
    obtain ⟨d, hd, a, ha, -, rfl⟩ := h
    obtain ⟨a', ha, la⟩ := codeOf_src ha
    have hd := sreg_out hd
    simp only [encS, hd.1, ha, bind, Option.bind_some]
    exact fmtSA_isSome (by omega)
  · simp only [must_some] at h
    obtain ⟨-, rfl⟩ := h
    obtain ⟨e, he, le⟩ := dispSC_sext21 (fld_lt w 0 21)
    have lc := fld_lt w 22 3
    have l2 : 144 ≤ 144 + fld w 22 3 := by omega
    simp only [encS, must, decide_eq_true l2, if_true, he, bind, Option.bind_some]
    exact fmtSC_isSome (by omega)
  · simp only [bind, Option.bind_eq_some_iff, pure, Option.some.injEq] at h
    obtain ⟨⟨e, j⟩, he, rfl⟩ := h
    obtain ⟨e', j', hf, l1, l2⟩ := sgFields_isSome (fld_lt w 10 10) (fld_lt w 0 10) he
    have lb := bit_lt (w.getLsbD 21)
    have lc := bit_lt (w.getLsbD 20)
    have ld := fld_lt w 22 3
    simp only [encS, hf, bind, Option.bind_some]
    exact fmtSG_isSome (by omega)
  · simp only [bind, Option.bind_eq_some_iff, must_some, bne_iff_ne] at h
    obtain ⟨j, hj, h0, rfl⟩ := h
    have l1 := fld_lt w 20 5
    have l2 := fld_lt w 12 8
    have l3 := fld_lt w 0 12
    have l4 : 1 ≤ fld w 12 8 + 1 := by omega
    simp only [encS, must, hj, decide_eq_true l4, decide_eq_true h0, beq_self_eq_true, Bool.and_self, if_true, bind,
      Option.bind_some]
    exact fmtSW_isSome (by omega)
  · simp only [must_some] at h
    obtain ⟨-, rfl⟩ := h
    exact fmtSA_isSome (by omega)
  · simp only [bind, Option.bind_eq_some_iff, must_some, num8_some] at h
    obtain ⟨a, ⟨ha, rfl⟩, -, rfl⟩ := h
    simp only [encS, reg8, must, decide_eq_true ha, if_true, bind, Option.bind_some]
    exact fmtSA_isSome (by omega)
  · simp only [bind, Option.bind_eq_some_iff, must_some] at h
    obtain ⟨m, hm, -, rfl⟩ := h
    obtain ⟨j, b', hb, lj, lb⟩ := codeB_decB hm
    have l1 := bit_lt (w.getLsbD 16)
    have l2 := bit_lt (w.getLsbD 17)
    simp only [encS, hb, bind, Option.bind_some]
    exact fmtSA_isSome (by omega)
  · simp only [must_some] at h
    obtain ⟨-, rfl⟩ := h
    exact fmtSA_isSome (by omega)
  iterate 2
    · simp only [bind, Option.bind_eq_some_iff, must_some] at h
      obtain ⟨m, hm, -, rfl⟩ := h
      obtain ⟨j, b', hb, lj, lb⟩ := codeB_decB hm
      simp only [encS, hb, bind, Option.bind_some]
      exact fmtSA_isSome (by omega)
  · simp only [bind, Option.bind_eq_some_iff, must_some, Bool.and_eq_true] at h
    obtain ⟨d, hd, ⟨-, hr⟩, rfl⟩ := h
    have hd := sreg_out hd
    have l1 := fld_lt w 5 12
    simp only [encS, hd.1, must, hr, if_true, bind, Option.bind_some]
    exact fmtSY_isSome (by omega)
  · simp only [bind, Option.bind_eq_some_iff, must_some, Bool.and_eq_true] at h
    obtain ⟨d, hd, ⟨-, hr⟩, rfl⟩ := h
    obtain ⟨a', ha, la⟩ := codeOf_src hd
    have l1 := fld_lt w 5 12
    simp only [encS, ha, must, hr, if_true, bind, Option.bind_some]
    exact fmtSY_isSome (by omega)
  iterate 2
    · simp only [must_some] at h
      obtain ⟨-, rfl⟩ := h
      exact fmtSA_isSome (by omega)
  · simp only [bind, Option.bind_eq_some_iff, must_some, num8_some] at h
    obtain ⟨d, ⟨hd, rfl⟩, m, hm, -, rfl⟩ := h
    obtain ⟨j, b', hb, lj, lb⟩ := codeB_decB hm
    simp only [encS, reg8, must, decide_eq_true hd, if_true, hb, bind, Option.bind_some]
    exact fmtSA_isSome (by omega)
  iterate 3
    · obtain ⟨d, a, hd, ha, rfl⟩ := decQ2_some h
      simp only [encS, reg8, must, decide_eq_true hd, decide_eq_true ha, if_true, bind, Option.bind_some, bit]
      exact fmtSA_isSome (by simp; omega)
  iterate 3
    · obtain ⟨d, a, hd, ld, ha, rfl⟩ := decQS_some h
      simp only [encS, reg8, must, hd, decide_eq_true ha, if_true, bind, Option.bind_some]
      exact fmtSA_isSome (by omega)
  · simp at h

theorem redCode_lt (op : RedOp) : redCode op < 256 := by cases op <;> decide

theorem encX_decX {w : W32} {i : XIns} (h : decX w = some i) : ∃ x, encX i = some x := by
  have l1 := fld_lt w 22 3
  have l2 := fld_lt w 17 5
  have l3 := fld_lt w 12 5
  have l4 := fld_lt w 4 8
  have l5 := fld_lt w 0 4
  unfold decX at h
  dsimp only at h
  split at h
  · simp only [must_some, Bool.and_eq_true, decide_eq_true_eq] at h
    obtain ⟨⟨h1, -⟩, rfl⟩ := h
    have g : fld w 4 8 % 16 < 16 := by omega
    have lb := bit_lt (fld w 4 8 / 16 == 1)
    simp only [encX, must, decide_eq_true g, if_true, bind, Option.bind_some]
    exact fmtXA_isSome (by omega)
  · simp only [must_some, Bool.and_eq_true, decide_eq_true_eq] at h
    obtain ⟨⟨h1, -⟩, rfl⟩ := h
    simp only [encX, must, decide_eq_true h1, if_true, bind, Option.bind_some]
    exact fmtXA_isSome (by omega)
  · simp only [bind, Option.bind_eq_some_iff, must_some] at h
    obtain ⟨op, -, t, -, ho, rfl⟩ := h
    have l6 := redCode_lt op
    have l7 := tyCode_lt t
    simp only [encX, must, ho, if_true, bind, Option.bind_some]
    exact fmtXA_isSome (by omega)
  · simp only [must_some, Bool.and_eq_true, decide_eq_true_eq] at h
    obtain ⟨⟨h1, -⟩, rfl⟩ := h
    simp only [encX, must, decide_eq_true h1, if_true, bind, Option.bind_some]
    exact fmtXA_isSome (by omega)
  · simp only [must_some, Bool.and_eq_true, decide_eq_true_eq] at h
    obtain ⟨⟨h1, -⟩, rfl⟩ := h
    have lb := bit_lt (fld w 0 4 == 1)
    simp only [encX, must, decide_eq_true h1, if_true, bind, Option.bind_some]
    exact fmtXA_isSome (by omega)
  · simp only [bind, Option.bind_eq_some_iff, must_some] at h
    obtain ⟨op, -, t, -, ho, rfl⟩ := h
    have l6 := redCode_lt op
    have l7 := tyCode_lt t
    simp only [encX, must, ho, if_true, bind, Option.bind_some]
    exact fmtXA_isSome (by omega)
  · simp at h

theorem mFields_lt (w : W32) : (mFields w).acc < 64 ∧ (mFields w).hA < 8 ∧ (mFields w).tA < 16 ∧ (mFields w).hB < 8 ∧
    (mFields w).tB < 16 ∧ (mFields w).mod < 32 :=
  ⟨fld_lt w 19 6, fld_lt w 16 3, fld_lt w 12 4, fld_lt w 9 3, fld_lt w 5 4, fld_lt w 0 5⟩

theorem mulCode_lt (op : MulOp) : mulCode op < 128 := by cases op <;> decide
theorem ewCode_lt (op : EwOp) : ewCode op < 8 := by cases op <;> decide

theorem encM_decMul {env : DecEnv} {f : MFields} {op : MulOp} {i : MIns}
    (hl : f.acc < 64 ∧ f.hA < 8 ∧ f.tA < 16 ∧ f.hB < 8 ∧ f.tB < 16 ∧ f.mod < 32) (h : decMul f op = some i) :
    ∃ x, encM env i = some x := by
  simp only [decMul, must_some] at h
  obtain ⟨-, rfl⟩ := h
  have l1 := mulCode_lt op
  have l2 := bit_lt (f.mod % 2 == 1)
  exact fmtMA_isSome (by omega)

theorem decBanks_some {f : MFields} {col : Bool} {n : Nat} (hl : f.mod < 32) (ha : f.acc < 64) (h : decBanks f = some (col, n)) :
    ∃ m, bankMod col f.acc n = some m ∧ m < 32 := by
  simp only [decBanks, must_some, Prod.mk.injEq] at h
  obtain ⟨h1, rfl, rfl⟩ := h
  have lb := bit_lt (f.mod / 16 == 1)
  refine ⟨bit (f.mod / 16 == 1) * 16 + (f.mod % 16 + 1 - 1), must_some.mpr ⟨?_, rfl⟩, by omega⟩
  cases hc : (f.mod / 16 == 1) with
  | true => simp only [hc, if_true, decide_eq_true_eq] at h1; simp; omega
  | false =>
    simp only [hc, Bool.false_eq_true, if_false, decide_eq_true_eq] at h1
    simp; omega

theorem encM_decM {env : DecEnv} {w : W32} {i : MIns} (h : decM env w = some i) : ∃ x, encM env i = some x := by
  have hl := mFields_lt w
  unfold decM at h
  dsimp only at h
  split at h
  iterate 3
    · exact encM_decMul hl h
  · simp only [must_some] at h
    obtain ⟨-, rfl⟩ := h
    have lb := bit_lt ((mFields w).mod == 1)
    exact fmtMA_isSome (by omega)
  · simp only [must_some] at h
    obtain ⟨-, rfl⟩ := h
    exact fmtMA_isSome (by omega)
  · simp only [must_some] at h
    obtain ⟨-, rfl⟩ := h
    have lb := bit_lt ((mFields w).mod % 2 == 1)
    have lc := bit_lt ((mFields w).mod / 2 == 1)
    exact fmtMA_isSome (by omega)
  iterate 2
    · simp only [must_some] at h
      obtain ⟨-, rfl⟩ := h
      exact fmtMA_isSome (by omega)
  · simp only [bind, Option.bind_eq_some_iff, must_some] at h
    obtain ⟨op, -, -, rfl⟩ := h
    have lb := bit_lt ((mFields w).mod / 8 == 1)
    have lc := ewCode_lt op
    exact fmtMA_isSome (by omega)
  · simp only [must_some] at h
    obtain ⟨-, rfl⟩ := h
    exact fmtMA_isSome (by omega)
  · simp only [must_some] at h
    obtain ⟨-, rfl⟩ := h
    have lb := bit_lt ((mFields w).mod % 2 == 1)
    have lc := bit_lt ((mFields w).mod / 2 % 2 == 1)
    exact fmtMA_isSome (by omega)
  · simp only [must_some] at h
    obtain ⟨-, rfl⟩ := h
    exact fmtMA_isSome (by omega)
  · simp only [bind, Option.bind_eq_some_iff, must_some] at h
    obtain ⟨⟨col, n⟩, hb, -, rfl⟩ := h
    obtain ⟨m, hm, lm⟩ := decBanks_some hl.2.2.2.2.2 hl.1 hb
    simp only [encM, hm, bind, Option.bind_some]
    exact fmtMA_isSome (by omega)
  · simp only [bind, Option.bind_eq_some_iff, must_some] at h
    obtain ⟨⟨col, n⟩, hb, -, rfl⟩ := h
    obtain ⟨m, hm, lm⟩ := decBanks_some hl.2.2.2.2.2 hl.1 hb
    simp only [encM, hm, bind, Option.bind_some]
    exact fmtMA_isSome (by omega)
  · simp only [bind, Option.bind_eq_some_iff, must_some, Bool.and_eq_true, decide_eq_true_eq] at h
    obtain ⟨⟨col, n⟩, hb, ⟨⟨h1, h2⟩, h3⟩, rfl⟩ := h
    obtain ⟨m, hm, lm⟩ := decBanks_some hl.2.2.2.2.2 hl.1 hb
    have g : (decide (1 ≤ (mFields w).hB + 1) && decide ((mFields w).hA + ((mFields w).hB + 1) ≤ 8) &&
        decide ((mFields w).tA * 8 + (mFields w).tB % 8 < env.nt)) = true := by
      simp only [Bool.and_eq_true, decide_eq_true_eq]; omega
    simp only [encM, hm, must, g, if_true, bind, Option.bind_some]
    exact fmtMA_isSome (by omega)
  · split at h
    · next h0 =>
      simp only [must_some] at h
      obtain ⟨-, rfl⟩ := h
      simp only [encM, must, decide_eq_true h0, if_true, bind, Option.bind_some]
      exact fmtMA_isSome (by omega)
    · simp only [must_some] at h
      obtain ⟨-, rfl⟩ := h
      have g : (mFields w).acc - 32 < 32 := by omega
      simp only [encM, must, decide_eq_true g, if_true, bind, Option.bind_some]
      exact fmtMA_isSome (by omega)
  · split at h
    · next h0 =>
      simp only [must_some] at h
      obtain ⟨-, rfl⟩ := h
      simp only [encM, must, decide_eq_true h0, if_true, bind, Option.bind_some]
      exact fmtMA_isSome (by omega)
    · simp only [must_some] at h
      obtain ⟨-, rfl⟩ := h
      have g : (mFields w).acc - 32 < 32 := by omega
      simp only [encM, must, decide_eq_true g, if_true, bind, Option.bind_some]
      exact fmtMA_isSome (by omega)
  · simp only [must_some, beq_iff_eq] at h
    obtain ⟨h1, rfl⟩ := h
    have l1 : fld w 0 25 < 33554432 := fld_lt w 0 25
    have g : (BitVec.ofNat 32 (fld w 0 25)).toNat = fld w 0 25 := by rw [BitVec.toNat_ofNat]; omega
    have g1 : fld w 0 25 / 65536 % 4 = 0 := by rw [fld_nat] at h1 ⊢; omega
    simp [encM, must, pack, packFrom, g, g1, l1]
  · simp at h

theorem vFields_lt (w : W32) : (vFields w).k < 8 ∧ (vFields w).vd < 32 ∧ (vFields w).va < 32 ∧ (vFields w).vb < 32 ∧
    (vFields w).mod < 8 :=
  ⟨fld_lt w 22 3, fld_lt w 17 5, fld_lt w 12 5, fld_lt w 7 5, fld_lt w 0 3⟩

theorem vbinCode_lt (op : VBin) : vbinCode op < 128 := by cases op <;> decide
theorem vunCode_lt (op : VUn) : vunCode op < 128 := by cases op <;> decide
theorem ccCode_lt (c : VCc) : ccCode c < 8 := by cases c <;> decide
theorem voteCode_lt (m : VoteMode) : voteCode m < 8 := by cases m <;> decide
theorem qopV_lt (op : QOp) : qopV op < 128 := by cases op <;> decide

theorem encV_decVBin {env : DecEnv} {f : VFields} {op : VBin} {i : VIns}
    (hl : f.k < 8 ∧ f.vd < 32 ∧ f.va < 32 ∧ f.vb < 32 ∧ f.mod < 8) (h : decVBin f op (vbinTy op) (vbinFlag op) = some i) :
    ∃ x, encV env i = some x := by
  simp only [decVBin, bind, Option.bind_eq_some_iff, must_some, Bool.and_eq_true, Bool.or_eq_true, beq_iff_eq] at h
  obtain ⟨t, -, ⟨h1, h2⟩, rfl⟩ := h
  have g : (vbinTy op t && (!(f.mod == 1) || vbinFlag op t)) = true := by
    rcases h2 with h2 | ⟨h2, h3⟩ <;> simp [h1, h2]
    exact h3
  have l1 := vbinCode_lt op
  have l2 := tyCode_lt t
  have l3 := bit_lt (f.mod == 1)
  simp only [encV, must, g, if_true, bind, Option.bind_some]
  exact fmtVA_isSome (by omega)

theorem encV_decVUn {env : DecEnv} {f : VFields} {op : VUn} {i : VIns}
    (hl : f.k < 8 ∧ f.vd < 32 ∧ f.va < 32 ∧ f.vb < 32 ∧ f.mod < 8) (h : decVUn f op (vunTy op) (vunFlag op) = some i) :
    ∃ x, encV env i = some x := by
  simp only [decVUn, bind, Option.bind_eq_some_iff, must_some, Bool.and_eq_true, Bool.or_eq_true, beq_iff_eq] at h
  obtain ⟨t, -, ⟨⟨h1, -⟩, h2⟩, rfl⟩ := h
  have g : (vunTy op t && (!(f.mod == 1) || vunFlag op t)) = true := by
    rcases h2 with h2 | ⟨h2, h3⟩ <;> simp [h1, h2]
    exact h3
  have l1 := vunCode_lt op
  have l2 := tyCode_lt t
  have l3 := bit_lt (f.mod == 1)
  simp only [encV, must, g, if_true, bind, Option.bind_some]
  exact fmtVA_isSome (by omega)

theorem encV_decVRed {env : DecEnv} {f : VFields} {scan : Bool} {i : VIns}
    (hl : f.k < 8 ∧ f.vd < 32 ∧ f.va < 32 ∧ f.vb < 32 ∧ f.mod < 8) (h : decVRed f scan = some i) : ∃ x, encV env i = some x := by
  simp only [decVRed, bind, Option.bind_eq_some_iff] at h
  obtain ⟨t, -, h⟩ := h
  have l2 := tyCode_lt t
  have l3 := bit_lt scan
  have l4 := bit_lt false
  split at h <;> simp only [must_some] at h <;> obtain ⟨h1, rfl⟩ := h <;>
    simp only [Bool.and_eq_true, beq_iff_eq, bne_iff_ne, ne_eq, Bool.not_eq_true'] at h1 <;>
    simp only [encV, redFields, must, h1, Bool.and_self, Bool.not_false, bne_iff_ne, ne_eq, not_false_eq_true,
      Bool.true_and, if_true, bind, Option.bind_some] <;>
    exact fmtVA_isSome (by omega)

theorem encV_decKlog {env : DecEnv} {f : VFields} {op : QOp} {i : VIns} (hl : f.k < 8) (h : decKlog f op = some i) :
    ∃ x, encV env i = some x := by
  simp only [decKlog, bind, Option.bind_eq_some_iff, must_some, kfield_some] at h
  obtain ⟨d, ⟨hd, rfl⟩, a, ⟨ha, rfl⟩, b, ⟨hb, rfl⟩, -, rfl⟩ := h
  have l1 := qopV_lt op
  simp only [encV, reg8, must, decide_eq_true hd, decide_eq_true ha, decide_eq_true hb, if_true, bind, Option.bind_some]
  exact fmtVA_isSome (by omega)

theorem encV_decV {env : DecEnv} {w : W32} {i : VIns} (h : decV env w = some i) : ∃ x, encV env i = some x := by
  have hl := vFields_lt w
  unfold decV at h
  dsimp only at h
  split at h
  iterate 7
    · exact encV_decVBin hl h
  iterate 2
    · exact encV_decVUn hl h
  iterate 3
    · exact encV_decVBin hl h
  · exact encV_decVUn hl h
  iterate 3
    · exact encV_decVBin hl h
  · simp only [bind, Option.bind_eq_some_iff, must_some, kfield_some] at h
    obtain ⟨t, -, cc, -, kd, ⟨hk, rfl⟩, h1, rfl⟩ := h
    have l1 := ccCode_lt cc
    have l2 := tyCode_lt t
    simp only [encV, reg8, must, decide_eq_true hk, h1, if_true, bind, Option.bind_some]
    exact fmtVA_isSome (by omega)
  · simp only [bind, Option.bind_eq_some_iff, must_some, Bool.and_eq_true] at h
    obtain ⟨t, -, ⟨h1, -⟩, rfl⟩ := h
    have l2 := tyCode_lt t
    simp only [encV, must, h1, if_true, bind, Option.bind_some]
    exact fmtVA_isSome (by omega)
  · exact encV_decVUn hl h
  · simp only [bind, Option.bind_eq_some_iff, must_some, Bool.and_eq_true] at h
    obtain ⟨t, -, x, hx, ⟨⟨h1, -⟩, -⟩, rfl⟩ := h
    obtain ⟨c, hc, lc⟩ := codeOf_src hx
    have l2 := tyCode_lt t
    simp only [encV, must, h1, hc, if_true, bind, Option.bind_some]
    exact fmtVA_isSome (by omega)
  · exact encV_decVBin hl h
  · simp only [bind, Option.bind_eq_some_iff, must_some, Bool.and_eq_true] at h
    obtain ⟨dst, -, src, -, h1, rfl⟩ := h
    have l1 := tyCode_lt dst
    have l2 := tyCode_lt src
    have l3 := bit_lt ((vFields w).mod % 2 == 1)
    have l4 := bit_lt ((vFields w).mod / 2 % 2 == 1)
    have g : vcvtOk dst src ((vFields w).mod % 2 == 1) ((vFields w).mod / 2 % 2 == 1) = true := by
      simp only [vcvtOk, Bool.and_eq_true]
      obtain ⟨⟨⟨⟨⟨⟨-, -⟩, h1⟩, h2⟩, h3⟩, h4⟩, h5⟩ := h1
      exact ⟨⟨⟨⟨h1, h2⟩, h3⟩, h4⟩, h5⟩
    simp only [encV, must, g, if_true, bind, Option.bind_some]
    exact fmtVA_isSome (by omega)
  iterate 7
    · exact encV_decVUn hl h
  · simp only [bind, Option.bind_eq_some_iff, must_some, Bool.and_eq_true] at h
    obtain ⟨t, -, ⟨⟨⟨h1, -⟩, -⟩, -⟩, rfl⟩ := h
    have l2 := tyCode_lt t
    have l3 := bit_lt ((vFields w).mod == 1)
    simp only [encV, must, h1, if_true, bind, Option.bind_some]
    exact fmtVA_isSome (by omega)
  · simp only [bind, Option.bind_eq_some_iff, must_some, Bool.and_eq_true] at h
    obtain ⟨t, -, ⟨h1, -⟩, rfl⟩ := h
    have l2 := tyCode_lt t
    simp only [encV, must, h1, if_true, bind, Option.bind_some]
    exact fmtVA_isSome (by omega)
  iterate 2
    · exact encV_decVRed hl h
  · simp only [bind, Option.bind_eq_some_iff, must_some, Bool.and_eq_true, kfield_some] at h
    obtain ⟨m, -, ka, ⟨hk, rfl⟩, ⟨⟨-, -⟩, h1⟩, rfl⟩ := h
    have l1 := voteCode_lt m
    simp only [encV, reg8, must, decide_eq_true hk, h1, if_true, bind, Option.bind_some]
    exact fmtVA_isSome (by omega)
  · simp only [bind, Option.bind_eq_some_iff, must_some] at h
    obtain ⟨t, -, h1, rfl⟩ := h
    have l2 := tyCode_lt t
    simp only [encV, must, h1, if_true, bind, Option.bind_some]
    exact fmtVA_isSome (by omega)
  iterate 3
    · exact encV_decKlog hl.1 h
  · simp only [bind, Option.bind_eq_some_iff, must_some, kfield_some] at h
    obtain ⟨d, ⟨hd, rfl⟩, a, ⟨ha, rfl⟩, -, rfl⟩ := h
    simp only [encV, reg8, must, decide_eq_true hd, decide_eq_true ha, if_true, bind, Option.bind_some]
    exact fmtVA_isSome (by omega)
  · simp at h

theorem xOf_decDisp {env : DecEnv} {w : W32} {d : W64} (h : decDisp env w = some d) : ∃ x, env.xOf d = some x ∧ x < 2 := by
  rw [DecEnv.xOf]
  split
  · exact ⟨0, rfl, by omega⟩
  · next h0 =>
    rw [decDisp] at h
    split at h
    · exact ⟨1, must_some.mpr ⟨by simp [h], rfl⟩, by omega⟩
    · exact absurd (Option.some.inj h).symm h0

theorem vcode_some {c n : Nat} (h : vcode c = some n) : n < 32 := by
  rw [vcode] at h
  split at h
  · have := Option.some.inj h; omega
  · simp at h

theorem vregCode_vcode {c n : Nat} (h : vcode c = some n) : ∃ e, vregCode n = some e ∧ e < 224 := by
  have := vcode_some h
  exact ⟨192 + n, must_some.mpr ⟨by simpa using this, rfl⟩, by omega⟩

theorem addrCode_decSAddr {env : DecEnv} {w : W32} {c : Nat} {a : Addr} (h : decSAddr env w c = some a) :
    scalarBase a.base = true ∧ ∀ ok : Base → Bool, ok a.base = true → ∃ b x, env.addrCode ok a = some (b, x) ∧ b < 256 ∧ x < 2 := by
  simp only [decSAddr, bind, Option.bind_eq_some_iff, pure, Option.some.injEq] at h
  obtain ⟨s, hs, d, hd, rfl⟩ := h
  obtain ⟨b, hb, lb⟩ := codeOf_src hs
  obtain ⟨x, hx, lx⟩ := xOf_decDisp hd
  exact ⟨rfl, fun ok ho => ⟨b, x, by simp [DecEnv.addrCode, DecEnv.baseCode, hb, hx, must, ho], by omega, lx⟩⟩

theorem addrCode_decVAddr {env : DecEnv} {w : W32} {c : Nat} {a : Addr} (h : decVAddr env w c = some a) :
    scalarBase a.base = false ∧ ∀ ok : Base → Bool, ok a.base = true → ∃ b x, env.addrCode ok a = some (b, x) ∧ b < 256 ∧ x < 2 := by
  simp only [decVAddr, bind, Option.bind_eq_some_iff, must_some] at h
  obtain ⟨n, hn, d, hd, he, rfl⟩ := h
  have hl := vcode_some hn
  obtain ⟨x, hx, lx⟩ := xOf_decDisp hd
  refine ⟨rfl, fun ok ho => ⟨192 + n, x, ?_, by omega, lx⟩⟩
  simp [DecEnv.addrCode, DecEnv.baseCode, hx, must, ho, beq_iff_eq.mp he, hl]

theorem addrCode_decAddr {env : DecEnv} {w : W32} {c : Nat} {a : Addr} (h : decAddr env w c = some a) :
    ∃ b x, env.addrCode (fun _ => true) a = some (b, x) ∧ b < 256 ∧ x < 2 := by
  simp only [decAddr, decBase, bind, Option.bind_eq_some_iff, pure, Option.some.injEq] at h
  obtain ⟨b, hb, d, hd, rfl⟩ := h
  obtain ⟨x, hx, lx⟩ := xOf_decDisp hd
  split at hb
  · next n hn =>
    simp only [must_some] at hb
    obtain ⟨he, rfl⟩ := hb
    have hl := vcode_some hn
    exact ⟨192 + n, x, by simp [DecEnv.addrCode, DecEnv.baseCode, hx, must, beq_iff_eq.mp he, hl], by omega, lx⟩
  · simp only [Option.map_eq_some_iff] at hb
    obtain ⟨s, hs, rfl⟩ := hb
    obtain ⟨e, he, le⟩ := codeOf_src hs
    exact ⟨e, x, by simp [DecEnv.addrCode, DecEnv.baseCode, hx, must, he], by omega, lx⟩

theorem addrCode_decObj {env : DecEnv} {w : W32} {a : Addr} (h : decObj env w = some a) :
    ∃ b x, env.addrCode regBase a = some (b, x) ∧ b < 256 ∧ x < 2 := by
  simp only [decObj, bind, Option.bind_eq_some_iff, pure, Option.some.injEq] at h
  obtain ⟨n, hn, d, hd, rfl⟩ := h
  have hn := sreg_out hn
  obtain ⟨x, hx, lx⟩ := xOf_decDisp hd
  exact ⟨n, x, by simp [DecEnv.addrCode, DecEnv.baseCode, DecEnv.codeOf, hn.1, hx, must, regBase], hn.2, lx⟩

theorem ldCode_lt {n : Nat} {sg : Bool} {op : Nat} (h : ldCode n sg = some op) : op < 128 := by
  unfold ldCode at h
  split at h <;> simp at h <;> omega
theorem stCode_lt {n op : Nat} (h : stCode n = some op) : op < 128 := by
  unfold stCode at h
  split at h <;> simp at h <;> omega
theorem vldCode_lt (sp : Spread) : vldCode sp < 128 := by cases sp <;> decide
theorem vstCode_lt (sp : Spread) : vstCode sp < 128 := by cases sp <;> decide
theorem scopeCode_lt (sc : Scope) : scopeCode sc < 4 := by cases sc <;> decide
theorem fenceCode_lt (k : FenceKind) : fenceCode k < 4 := by cases k <;> decide
theorem atCode_lt (op : AtOp) (sc : Scope) : atCode op + scopeCode sc < 128 := by cases op <;> cases sc <;> decide

theorem encD_decLd {env : DecEnv} {w : W32} {n : Nat} {sg : Bool} {op : Nat} {i : DIns} (ho : ldCode n sg = some op)
    (h : decLd env w n sg = some i) : ∃ x, encD env i = some x := by
  simp only [decLd, bind, Option.bind_eq_some_iff, pure, Option.some.injEq] at h
  obtain ⟨d, hd, a, ha, rfl⟩ := h
  have hd := sreg_out hd
  obtain ⟨hs, ha⟩ := addrCode_decSAddr ha
  obtain ⟨b, x, hb, lb, lx⟩ := ha scalarBase hs
  have l1 := ldCode_lt ho
  have l2 := fld_lt w 3 6
  have l3 := fld_lt w 1 2
  simp only [encD, ho, hd.1, hb, bind, Option.bind_some]
  exact fmtDA_isSome (by omega)

theorem encD_decSt {env : DecEnv} {w : W32} {n op : Nat} {i : DIns} (ho : stCode n = some op)
    (h : decSt env w n = some i) : ∃ x, encD env i = some x := by
  simp only [decSt, bind, Option.bind_eq_some_iff, must_some] at h
  obtain ⟨d, hd, a, ha, -, rfl⟩ := h
  obtain ⟨c, hc, lc⟩ := codeOf_src hd
  obtain ⟨hs, ha⟩ := addrCode_decSAddr ha
  obtain ⟨b, x, hb, lb, lx⟩ := ha scalarBase hs
  have l1 := stCode_lt ho
  simp only [encD, ho, hc, hb, bind, Option.bind_some]
  exact fmtDS_isSome (by omega)

theorem spread_addr {env : DecEnv} {w : W32} {c : Nat} {sp : Spread} {a : Addr}
    (h : (if sp == .indexed then decVAddr env w c else decSAddr env w c) = some a) :
    ∃ b x, env.addrCode (fun b => scalarBase b == (sp != .indexed)) a = some (b, x) ∧ b < 256 ∧ x < 2 := by
  split at h
  · next h0 =>
    obtain ⟨hs, ha⟩ := addrCode_decVAddr h
    exact ha _ (by rw [hs, beq_iff_eq.mp h0]; rfl)
  · next h0 =>
    obtain ⟨hs, ha⟩ := addrCode_decSAddr h
    exact ha _ (by rw [hs]; simpa using h0)

theorem encD_decVld {env : DecEnv} {w : W32} {sp : Spread} {i : DIns} (h : decVld env w sp = some i) : ∃ x, encD env i = some x := by
  have h' : ∃ d a, vcode (fld w 17 8) = some d ∧
      (if sp == .indexed then decVAddr env w (fld w 9 8) else decSAddr env w (fld w 9 8)) = some a ∧
      i = .vld sp d a (fld w 3 6) (fld w 1 2) := by
    have e1 : (Spread.unit == Spread.indexed) = false := rfl
    have e2 : (Spread.same == Spread.indexed) = false := rfl
    cases sp <;> simp only [decVld, e1, e2, beq_self_eq_true, Bool.false_eq_true, if_true, if_false, bind, Option.bind_eq_some_iff,
      pure, Option.some.injEq] at h ⊢ <;> obtain ⟨d, hd, a, ha, rfl⟩ := h <;> exact ⟨d, a, hd, ha, rfl⟩
  obtain ⟨d, a, hd, ha, rfl⟩ := h'
  obtain ⟨c, hc, lc⟩ := vregCode_vcode hd
  obtain ⟨b, x, hb, lb, lx⟩ := spread_addr ha
  have l1 := vldCode_lt sp
  have l2 := fld_lt w 3 6
  have l3 := fld_lt w 1 2
  simp only [encD, hc, hb, bind, Option.bind_some]
  exact fmtDA_isSome (by omega)

theorem encD_decVst {env : DecEnv} {w : W32} {sp : Spread} {i : DIns} (h : decVst env w sp = some i) : ∃ x, encD env i = some x := by
  have h' : ∃ d a, vcode (fld w 17 8) = some d ∧
      (if sp == .indexed then decVAddr env w (fld w 9 8) else decSAddr env w (fld w 9 8)) = some a ∧
      i = .vst sp d (fld w 1 3) a := by
    have e1 : (Spread.unit == Spread.indexed) = false := rfl
    have e2 : (Spread.same == Spread.indexed) = false := rfl
    cases sp <;> simp only [decVst, e1, e2, beq_self_eq_true, Bool.false_eq_true, if_true, if_false, bind, Option.bind_eq_some_iff,
      must_some] at h ⊢ <;> obtain ⟨d, hd, a, ha, -, rfl⟩ := h <;> exact ⟨d, a, hd, ha, rfl⟩
  obtain ⟨d, a, hd, ha, rfl⟩ := h'
  obtain ⟨c, hc, lc⟩ := vregCode_vcode hd
  obtain ⟨b, x, hb, lb, lx⟩ := spread_addr ha
  have l1 := vstCode_lt sp
  have l2 : fld w 1 3 < 8 := fld_lt w 1 3
  simp only [encD, reg8, must, decide_eq_true l2, if_true, hc, hb, bind, Option.bind_some]
  exact fmtDS_isSome (by omega)

theorem syncCode_decSync {env : DecEnv} {w : W32} {sy : Sync} (h : decSync env w = some sy) :
    ∃ n m, env.syncCode sy = some (n, m) ∧ n < 32 ∧ m < 2 := by
  have l := fld_lt w 20 5
  rw [decSync] at h
  split at h
  · simp only [must_some, decide_eq_true_eq] at h
    obtain ⟨hb, rfl⟩ := h
    exact ⟨_, 1, must_some.mpr ⟨by simpa using hb, rfl⟩, l, by omega⟩
  · obtain rfl := Option.some.inj h
    exact ⟨_, 0, rfl, l, by omega⟩

theorem encDesc_isSome {env : DecEnv} {w : W32} {sy : Sync} {op v : Nat} (ho : op < 128) (h1 : decSync env w = some sy)
    (h2 : decDesc w = some v) : ∃ x, encDesc env op sy v = some x := by
  obtain ⟨n, m, hs, ln, lm⟩ := syncCode_decSync h1
  simp only [decDesc, bind, Option.bind_eq_some_iff, must_some] at h2
  obtain ⟨v', hv, -, rfl⟩ := h2
  obtain ⟨c, hc, lc⟩ := vregCode_vcode hv
  simp only [encDesc, hs, hc, bind, Option.bind_some]
  exact fmtDT_isSome (by omega)

theorem encD_decTile {env : DecEnv} {w : W32} {st : Bool} {i : DIns} (h : decTile env w st = some i) : ∃ x, encD env i = some x := by
  simp only [decTile, bind, Option.bind_eq_some_iff, pure, Option.some.injEq] at h
  obtain ⟨sy, hs, a, ha, rfl⟩ := h
  obtain ⟨n, m, hs, ln, lm⟩ := syncCode_decSync hs
  obtain ⟨b, x, hb, lb, lx⟩ := addrCode_decAddr ha
  have l1 := bit_lt st
  have l2 : fld w 1 3 < 8 := fld_lt w 1 3
  have l3 := fld_lt w 16 4
  have l4 := fld_lt w 13 3
  simp only [encD, reg8, must, decide_eq_true l2, if_true, hs, hb, bind, Option.bind_some]
  exact fmtDT_isSome (by omega)

theorem encD_decPTile {env : DecEnv} {w : W32} {st : Bool} {i : DIns} (h : decPTile env w st = some i) : ∃ x, encD env i = some x := by
  simp only [decPTile, bind, Option.bind_eq_some_iff] at h
  obtain ⟨sy, hs, a, ha, h⟩ := h
  obtain ⟨n, m, hs, ln, lm⟩ := syncCode_decSync hs
  obtain ⟨b, x, hb, lb, lx⟩ := addrCode_decAddr ha
  have l1 := bit_lt st
  have l2 : fld w 1 3 < 8 := fld_lt w 1 3
  have l3 := fld_lt w 16 4
  have l4 := fld_lt w 13 3
  split at h
  · obtain rfl := Option.some.inj h
    simp only [encD, reg8, must, decide_eq_true l2, if_true, hs, hb, bind, Option.bind_some]
    exact fmtDT_isSome (by omega)
  · simp at h

theorem encD_decAt {env : DecEnv} {w : W32} {op : AtOp} {i : DIns} (h : decAt env w op = some i) : ∃ x, encD env i = some x := by
  rw [decAt] at h
  dsimp only at h
  split at h
  · simp only [bind, Option.bind_eq_some_iff] at h
    obtain ⟨a, ha, h⟩ := h
    have l1 := atCode_lt op (scopeOf (opcode w % 4))
    obtain ⟨hs, ha⟩ := addrCode_decVAddr ha
    obtain ⟨b, x, hb, lb, lx⟩ := ha (fun b => !scalarBase b) (by simp [hs])
    have key : ∀ d o, (∃ c, DecEnv.dstCode d = some c ∧ c < 256) → (∃ c, env.vsrcCode o = some c ∧ c < 256) →
        ∃ x, encD env (.vat op (scopeOf (opcode w % 4)) d a o) = some x := by
      rintro d o ⟨c, hc, lc⟩ ⟨e, he, le⟩
      simp only [encD, hc, he, hb, bind, Option.bind_some]
      exact fmtDS_isSome (by omega)
    have ko : ∀ o, (match vcode (fld w 1 8) with | some n => some (VSrc.vec n) | none => (env.src (fld w 1 8)).map VSrc.all) = some o →
        ∃ c, env.vsrcCode o = some c ∧ c < 256 := by
      intro o ho
      split at ho
      · next n hn =>
        obtain rfl := Option.some.inj ho
        obtain ⟨c, hc, lc⟩ := vregCode_vcode hn
        exact ⟨c, hc, by omega⟩
      · simp only [Option.map_eq_some_iff] at ho
        obtain ⟨s, hs, rfl⟩ := ho
        obtain ⟨c, hc, lc⟩ := codeOf_src hs
        exact ⟨c, hc, by omega⟩
    split at h
    · simp only [Option.bind_some] at h
      have : ∃ o, (match vcode (fld w 1 8) with | some n => some (VSrc.vec n) | none => (env.src (fld w 1 8)).map VSrc.all) = some o ∧
          i = .vat op (scopeOf (opcode w % 4)) .none a o := by
        split at h <;> simp only [Option.bind_some, Option.bind_eq_some_iff, Option.map_eq_some_iff, pure, Option.some.injEq] at h
        · next m hm => exact ⟨.vec m, by simp [hm], h.symm⟩
        · next hm =>
          obtain ⟨_, ⟨s, hs, rfl⟩, rfl⟩ := h
          exact ⟨.all s, by simp [hm, hs], rfl⟩
      obtain ⟨o, ho, rfl⟩ := this
      exact key _ _ ⟨0, rfl, by omega⟩ (ko o ho)
    · simp only [Option.bind_eq_some_iff, Option.map_eq_some_iff] at h
      obtain ⟨_, ⟨n, hn, rfl⟩, h⟩ := h
      obtain ⟨c, hc, lc⟩ := vregCode_vcode hn
      have : ∃ o, (match vcode (fld w 1 8) with | some n => some (VSrc.vec n) | none => (env.src (fld w 1 8)).map VSrc.all) = some o ∧
          i = .vat op (scopeOf (opcode w % 4)) (.v n) a o := by
        split at h <;> simp only [Option.bind_some, Option.bind_eq_some_iff, Option.map_eq_some_iff, pure, Option.some.injEq] at h
        · next m hm => exact ⟨.vec m, by simp [hm], h.symm⟩
        · next hm =>
          obtain ⟨_, ⟨s, hs, rfl⟩, rfl⟩ := h
          exact ⟨.all s, by simp [hm, hs], rfl⟩
      obtain ⟨o, ho, rfl⟩ := this
      exact key _ _ ⟨c, hc, by omega⟩ (ko o ho)
  · simp only [bind, Option.bind_eq_some_iff, pure, Option.some.injEq] at h
    obtain ⟨a, ha, d, hd, o, ho, rfl⟩ := h
    have hd := sreg_out hd
    obtain ⟨c, hc, lc⟩ := codeOf_src ho
    obtain ⟨hs, ha⟩ := addrCode_decSAddr ha
    obtain ⟨b, x, hb, lb, lx⟩ := ha scalarBase hs
    have l1 := atCode_lt op (scopeOf (opcode w % 4))
    simp only [encD, hd.1, hc, hb, bind, Option.bind_some]
    exact fmtDS_isSome (by omega)

theorem encObj_isSome {env : DecEnv} {w : W32} {op d v : Nat} {a : Addr} (ho : op < 128) (hv : v < 256)
    (hd : env.sreg d = some d) (ha : decObj env w = some a) : ∃ x, encObj env op d a v = some x := by
  obtain ⟨b, x, hb, lb, lx⟩ := addrCode_decObj ha
  have := (sreg_out hd).2
  simp only [encObj, hd, hb, bind, Option.bind_some]
  exact fmtDS_isSome (by omega)

theorem encD_decObj0 {env : DecEnv} {w : W32} {f : Nat → Addr → DIns} {op : Nat} {i : DIns} (ho : op < 128)
    (hf : ∀ d a, encD env (f d a) = encObj env op d a 0) (h : decObj0 env w f = some i) : ∃ x, encD env i = some x := by
  simp only [decObj0, bind, Option.bind_eq_some_iff, must_some] at h
  obtain ⟨d, hd, a, ha, -, rfl⟩ := h
  rw [hf]
  exact encObj_isSome ho (by omega) (sreg_out hd).1 ha

theorem encD_decObjV {env : DecEnv} {w : W32} {f : Nat → Addr → Src → DIns} {op : Nat} {i : DIns} (ho : op < 128)
    (hf : ∀ d a v, encD env (f d a v) = encObjV env op d a v) (h : decObjV env w f = some i) : ∃ x, encD env i = some x := by
  simp only [decObjV, bind, Option.bind_eq_some_iff, pure, Option.some.injEq] at h
  obtain ⟨d, hd, a, ha, v, hv, rfl⟩ := h
  obtain ⟨c, hc, lc⟩ := codeOf_src hv
  rw [hf]
  simp only [encObjV, hc, bind, Option.bind_some]
  exact encObj_isSome ho (by omega) (sreg_out hd).1 ha

theorem encD_decPop {env : DecEnv} {w : W32} {f : Nat → Nat → Addr → Nat → DIns} {op : Nat} {i : DIns} (ho : op < 128)
    (hf : ∀ d c a n, encD env (f d c a n) = encPop env op d c a n) (h : decPop env w f = some i) : ∃ x, encD env i = some x := by
  simp only [decPop, bind, Option.bind_eq_some_iff, pure, Option.some.injEq] at h
  obtain ⟨d, hd, a, ha, rfl⟩ := h
  have l1 : fld w 6 3 < 8 := fld_lt w 6 3
  have l2 : fld w 1 5 < 32 := fld_lt w 1 5
  rw [hf]
  simp only [encPop, reg8, must, decide_eq_true l1, decide_eq_true l2, if_true, bind, Option.bind_some]
  exact encObj_isSome ho (by omega) (sreg_out hd).1 ha

theorem encD_decBar {env : DecEnv} {w : W32} {f : Nat → Nat → Src → DIns} {op : Nat} {i : DIns} (ho : op < 128)
    (hf : ∀ d b v, encD env (f d b v) = encBar env op d b v) (h : decBar env w f = some i) : ∃ x, encD env i = some x := by
  simp only [decBar, bind, Option.bind_eq_some_iff, must_some, Bool.and_eq_true, decide_eq_true_eq] at h
  obtain ⟨d, hd, v, hv, ⟨⟨-, h1⟩, h2⟩, rfl⟩ := h
  have hd := sreg_out hd
  obtain ⟨c, hc, lc⟩ := codeOf_src hv
  rw [hf]
  simp only [encBar, must, decide_eq_true h1, decide_eq_true h2, Bool.and_self, if_true, hd.1, hc, bind, Option.bind_some]
  exact fmtDS_isSome (by omega)

theorem encD_decTab {env : DecEnv} {w : W32} {f : Nat → Src → DIns} {op : Nat} {i : DIns} (ho : op < 128)
    (hf : ∀ d v, encD env (f d v) = encTab env op d v) (h : decTab env w f = some i) : ∃ x, encD env i = some x := by
  simp only [decTab, bind, Option.bind_eq_some_iff, must_some] at h
  obtain ⟨d, hd, v, hv, -, rfl⟩ := h
  have hd := sreg_out hd
  obtain ⟨c, hc, lc⟩ := codeOf_src hv
  rw [hf]
  simp only [encTab, hd.1, hc, bind, Option.bind_some]
  exact fmtDS_isSome (by omega)

theorem encD_decD {env : DecEnv} {w : W32} {i : DIns} (h : decD env w = some i) : ∃ x, encD env i = some x := by
  unfold decD at h
  dsimp only at h
  split at h
  iterate 7
    · exact encD_decLd rfl h
  iterate 4
    · exact encD_decSt rfl h
  iterate 3
    · exact encD_decVld h
  iterate 3
    · exact encD_decVst h
  iterate 2
    · exact encD_decTile h
  iterate 2
    · exact encD_decPTile h
  · simp only [bind, Option.bind_eq_some_iff] at h
    obtain ⟨sy, hs, v, hv, h⟩ := h
    split at h
    · obtain rfl := Option.some.inj h
      exact encDesc_isSome (by omega) hs hv
    · simp at h
  iterate 2
    · simp only [bind, Option.bind_eq_some_iff, pure, Option.some.injEq] at h
      obtain ⟨sy, hs, v, hv, rfl⟩ := h
      exact encDesc_isSome (by omega) hs hv
  · simp only [bind, Option.bind_eq_some_iff, must_some] at h
    obtain ⟨a, ha, -, rfl⟩ := h
    obtain ⟨hs, ha⟩ := addrCode_decSAddr ha
    obtain ⟨b, x, hb, lb, lx⟩ := ha scalarBase hs
    have l3 := fld_lt w 1 2
    simp only [encD, hb, bind, Option.bind_some]
    exact fmtDA_isSome (by omega)
  · have l3 := scopeCode_lt (scopeOf (fld w 1 2))
    split at h <;> first | (simp at h; done) | (simp only [must_some] at h)
    all_goals
      obtain ⟨-, rfl⟩ := h
      first
        | (have l4 := fenceCode_lt .acq; exact fmtDS_isSome (by omega))
        | (have l4 := fenceCode_lt .rel; exact fmtDS_isSome (by omega))
        | (have l4 := fenceCode_lt .ar; exact fmtDS_isSome (by omega))
  · have l3 := scopeCode_lt (scopeOf (fld w 1 2))
    simp only [must_some] at h
    obtain ⟨-, rfl⟩ := h
    exact fmtDS_isSome (by omega)
  · exact encD_decPop (op := 0x50) (by omega) (fun _ _ _ _ => rfl) h
  · exact encD_decObjV (op := 0x51) (by omega) (fun _ _ _ => rfl) h
  · simp only [bind, Option.bind_eq_some_iff, must_some, Bool.and_eq_true, decide_eq_true_eq] at h
    obtain ⟨d, hd, e, he, a, ha, ⟨⟨⟨-, h1⟩, h2⟩, h3⟩, rfl⟩ := h
    have l1 : fld w 1 6 < 64 := fld_lt w 1 6
    simp only [encD, he, must, h1, decide_eq_true h2, decide_eq_true h3, decide_eq_true l1, Bool.and_self, if_true, bind,
      Option.bind_some]
    exact encObj_isSome (by omega) (by omega) (sreg_out hd).1 ha
  · exact encD_decObj0 (op := 0x53) (by omega) (fun _ _ => rfl) h
  · exact encD_decObj0 (op := 0x54) (by omega) (fun _ _ => rfl) h
  · exact encD_decObj0 (op := 0x55) (by omega) (fun _ _ => rfl) h
  · exact encD_decObjV (op := 0x56) (by omega) (fun _ _ _ => rfl) h
  · exact encD_decPop (op := 0x57) (by omega) (fun _ _ _ _ => rfl) h
  · exact encD_decObj0 (op := 0x58) (by omega) (fun _ _ => rfl) h
  · exact encD_decBar (op := 0x59) (by omega) (fun _ _ _ => rfl) h
  · exact encD_decBar (op := 0x5A) (by omega) (fun _ _ _ => rfl) h
  · exact encD_decBar (op := 0x5B) (by omega) (fun _ _ _ => rfl) h
  · exact encD_decObjV (op := 0x5C) (by omega) (fun _ _ _ => rfl) h
  · exact encD_decObj0 (op := 0x5D) (by omega) (fun _ _ => rfl) h
  · exact encD_decObj0 (op := 0x5E) (by omega) (fun _ _ => rfl) h
  · exact encD_decObjV (op := 0x5F) (by omega) (fun _ _ _ => rfl) h
  · exact encD_decObjV (op := 0x60) (by omega) (fun _ _ _ => rfl) h
  · exact encD_decTab (op := 0x61) (by omega) (fun _ _ => rfl) h
  · exact encD_decTab (op := 0x62) (by omega) (fun _ _ => rfl) h
  · simp only [bind, Option.bind_eq_some_iff, must_some] at h
    obtain ⟨d, hd, -, rfl⟩ := h
    have hd := sreg_out hd
    simp only [encD, hd.1, bind, Option.bind_some]
    exact fmtDS_isSome (by omega)
  · split at h
    · exact encD_decAt h
    · simp at h

/-! ## Syllables -/

theorem sAssigned_of_decS {env : DecEnv} {w : W32} {i : SIns} (h : decS env w = some i) : sAssigned (opcode w) = true := by
  unfold decS at h
  dsimp only at h
  split at h
  all_goals first
    | (rename_i heq; rw [heq]; rfl)
    | (simp at h; done)

theorem vAssigned_of_decV {env : DecEnv} {w : W32} {i : VIns} (h : decV env w = some i) : vAssigned (opcode w) = true := by
  unfold decV at h
  dsimp only at h
  split at h
  all_goals first
    | (rename_i heq; rw [heq]; rfl)
    | (simp at h; done)

theorem mAssigned_of_decM {env : DecEnv} {w : W32} {i : MIns} (h : decM env w = some i) : mAssigned (opcode w) = true := by
  unfold decM at h
  dsimp only at h
  split at h
  all_goals first
    | (rename_i heq; rw [heq]; rfl)
    | (simp at h; done)

theorem xAssigned_of_decX {w : W32} {i : XIns} (h : decX w = some i) : xAssigned (opcode w) = true := by
  unfold decX at h
  dsimp only at h
  split at h
  all_goals first
    | (rename_i heq; rw [heq]; rfl)
    | (simp at h; done)

theorem dAssigned_of_decD {env : DecEnv} {w : W32} {i : DIns} (h : decD env w = some i) : dAssigned (opcode w) = true := by
  unfold decD at h
  dsimp only at h
  split at h
  all_goals first
    | (rename_i heq; rw [heq]; rfl)
    | (split at h
       · next h0 => simp only [dAssigned, Bool.or_eq_true, Bool.and_eq_true, decide_eq_true_eq]; omega
       · simp at h)

theorem decodeSyllable_ok {env : DecEnv} {n : Nat} {i : Ins} {w : W32} (h : decodeSyllable env n w = .ok i) : decWord env n w = some i := by
  rw [decodeSyllable] at h
  split at h
  · simp at h
  · split at h
    · next j hj => rw [hj]; exact congrArg some (Except.ok.inj h)
    · simp at h

/-- The instructions of the S1-only group (R307). -/
def sinsS1 : SIns → Bool
  | .br .. | .jmp _ | .call _ | .ret | .jr .. | .loop .. | .divg .. | .dswitch .. | .endp | .ekill _ | .wait .. | .exit | .trap _
  | .resume _ | .sysr .. | .sysw .. | .ifence | .bkpt => true
  | _ => false

theorem s1Only_decS {env : DecEnv} {w : W32} {i : SIns} (h : decS env w = some i) : s1Only (opcode w) = sinsS1 i := by
  unfold decS at h
  dsimp only at h
  split at h
  all_goals first
    | (simp at h; done)
    | (rename_i heq; rw [heq]; clear heq)
  all_goals
    simp only [decAlu, decUn, decCmp, decFArith, decFCmp, decQ3, decQ2, decQS, bind, Option.bind_eq_some_iff, must_some, pure,
      Option.some.injEq] at h
    repeat first | (subst h; rfl) | obtain ⟨_, h⟩ := h


end Sys2Proof.Machine
end

