-- ==== Sys2Proof/Laws/PerInstr.lean ====
section
/-! SUPPORT. Facts of every instruction as syntax, one lemma for each constructor. -/

namespace Sys2Proof.Laws.RecordRow

/-- The record of a step (log 1): it is that of one of the 98 rows of the table, its operands have the widths that the decoder reads for
that row, and its first byte is the row's number. -/
def Statement (i : Instr) : Prop :=
  i.record.row < 98 ∧ rowLayout i.record.row = some (i.record.fields.map (·.1), i.record.tail.isSome) ∧
    (encode i).head? = some (BitVec.ofNat 8 i.record.row)

theorem perstRelease : Statement .perstRelease := ⟨(by decide : (0 : Nat) < 98), rfl, rfl⟩
theorem perstAssert : Statement .perstAssert := ⟨(by decide : (1 : Nat) < 98), rfl, rfl⟩
theorem bootPhaseComplete (o : BootOutcome) : Statement (.bootPhaseComplete o) := by
  cases o <;> exact ⟨(by decide : (2 : Nat) < 98), rfl, rfl⟩
theorem frzRequest : Statement .frzRequest := ⟨(by decide : (3 : Nat) < 98), rfl, rfl⟩
theorem thermalTrip : Statement .thermalTrip := ⟨(by decide : (4 : Nat) < 98), rfl, rfl⟩
theorem linkFlitCrcError (d port : Nat) : Statement (.linkFlitCrcError d port) := ⟨(by decide : (5 : Nat) < 98), rfl, rfl⟩
theorem linkRetrainFailure (d port : Nat) : Statement (.linkRetrainFailure d port) := ⟨(by decide : (6 : Nat) < 98), rfl, rfl⟩
theorem ethernetLinkUp (p : Nat) : Statement (.ethernetLinkUp p) := ⟨(by decide : (7 : Nat) < 98), rfl, rfl⟩
theorem ethernetLinkDown (p : Nat) : Statement (.ethernetLinkDown p) := ⟨(by decide : (8 : Nat) < 98), rfl, rfl⟩
theorem throttleStep (tj dram watts : Nat) : Statement (.throttleStep tj dram watts) := ⟨(by decide : (9 : Nat) < 98), rfl, rfl⟩
theorem recordRefresh (temps : List Byte) : Statement (.recordRefresh temps) := ⟨(by decide : (10 : Nat) < 98), rfl, rfl⟩
theorem refresh (k dram cost : Nat) : Statement (.refresh k dram cost) := ⟨(by decide : (11 : Nat) < 98), rfl, rfl⟩
theorem rowDisturbRefresh (k : Nat) (w : RowWork) : Statement (.rowDisturbRefresh k w) := ⟨(by decide : (12 : Nat) < 98), rfl, rfl⟩
theorem patrolScrub (k err cost : Nat) : Statement (.patrolScrub k err cost) := ⟨(by decide : (13 : Nat) < 98), rfl, rfl⟩
theorem spareRowRemap (k bank row cost : Nat) : Statement (.spareRowRemap k bank row cost) := ⟨(by decide : (14 : Nat) < 98), rfl, rfl⟩
theorem interfaceCalibration (k : Nat) (w : CalWork) : Statement (.interfaceCalibration k w) := ⟨(by decide : (15 : Nat) < 98), rfl, rfl⟩
theorem gatheredBitsFlush : Statement .gatheredBitsFlush := ⟨(by decide : (16 : Nat) < 98), rfl, rfl⟩
theorem frameDropped (f : RxFrame) : Statement (.frameDropped f) := ⟨(by decide : (17 : Nat) < 98), rfl, rfl⟩
theorem pfcFrame (f : RxFrame) : Statement (.pfcFrame f) := ⟨(by decide : (18 : Nat) < 98), rfl, rfl⟩
theorem mread (f : RxFrame) : Statement (.mread f) := ⟨(by decide : (19 : Nat) < 98), rfl, rfl⟩
theorem mwrite (f : RxFrame) : Statement (.mwrite f) := ⟨(by decide : (20 : Nat) < 98), rfl, rfl⟩
theorem mreplyReceived (f : RxFrame) : Statement (.mreplyReceived f) := ⟨(by decide : (21 : Nat) < 98), rfl, rfl⟩
theorem epochWrite (v : Nat) : Statement (.epochWrite v) := ⟨(by decide : (22 : Nat) < 98), rfl, rfl⟩
theorem queueDisable (q w : Nat) : Statement (.queueDisable q w) := ⟨(by decide : (23 : Nat) < 98), rfl, rfl⟩
theorem ringEnable (n w : Nat) : Statement (.ringEnable n w) := ⟨(by decide : (24 : Nat) < 98), rfl, rfl⟩
theorem ringDisable (n w : Nat) : Statement (.ringDisable n w) := ⟨(by decide : (25 : Nat) < 98), rfl, rfl⟩
theorem flashErase (a : Nat) : Statement (.flashErase a) := ⟨(by decide : (26 : Nat) < 98), rfl, rfl⟩
theorem flashProgram (a : Nat) : Statement (.flashProgram a) := ⟨(by decide : (27 : Nat) < 98), rfl, rfl⟩
theorem flashNoOp (w : Nat) : Statement (.flashNoOp w) := ⟨(by decide : (28 : Nat) < 98), rfl, rfl⟩
theorem flashOpComplete : Statement .flashOpComplete := ⟨(by decide : (29 : Nat) < 98), rfl, rfl⟩
theorem stagingBufferWrite (bytes : List Byte) : Statement (.stagingBufferWrite bytes) := ⟨(by decide : (30 : Nat) < 98), rfl, rfl⟩
theorem adapterForceEvict (d n : Nat) : Statement (.adapterForceEvict d n) := ⟨(by decide : (31 : Nat) < 98), rfl, rfl⟩
theorem jtagBypass : Statement .jtagBypass := ⟨(by decide : (32 : Nat) < 98), rfl, rfl⟩
theorem jtagIdcode : Statement .jtagIdcode := ⟨(by decide : (33 : Nat) < 98), rfl, rfl⟩
theorem jtagSamplePreload : Statement .jtagSamplePreload := ⟨(by decide : (34 : Nat) < 98), rfl, rfl⟩
theorem jtagExtest : Statement .jtagExtest := ⟨(by decide : (35 : Nat) < 98), rfl, rfl⟩
theorem jtagRoselect (w : Nat) : Statement (.jtagRoselect w) := ⟨(by decide : (36 : Nat) < 98), rfl, rfl⟩
theorem jtagRodata : Statement .jtagRodata := ⟨(by decide : (37 : Nat) < 98), rfl, rfl⟩
theorem vorbyCmd (f : RxFrame) : Statement (.vorbyCmd f) := ⟨(by decide : (38 : Nat) < 98), rfl, rfl⟩
theorem vorbyRead (f : RxFrame) : Statement (.vorbyRead f) := ⟨(by decide : (39 : Nat) < 98), rfl, rfl⟩
theorem vorbyWrite (f : RxFrame) : Statement (.vorbyWrite f) := ⟨(by decide : (40 : Nat) < 98), rfl, rfl⟩
theorem vorbyAtomic (f : RxFrame) : Statement (.vorbyAtomic f) := ⟨(by decide : (41 : Nat) < 98), rfl, rfl⟩
theorem vorbyReply (f : RxFrame) : Statement (.vorbyReply f) := ⟨(by decide : (42 : Nat) < 98), rfl, rfl⟩
theorem vorbyNack (f : RxFrame) : Statement (.vorbyNack f) := ⟨(by decide : (43 : Nat) < 98), rfl, rfl⟩
theorem vorbyEvent (f : RxFrame) : Statement (.vorbyEvent f) := ⟨(by decide : (44 : Nat) < 98), rfl, rfl⟩
theorem vorbyPcopy (f : RxFrame) : Statement (.vorbyPcopy f) := ⟨(by decide : (45 : Nat) < 98), rfl, rfl⟩
theorem vorbyPlpull (f : RxFrame) : Statement (.vorbyPlpull f) := ⟨(by decide : (46 : Nat) < 98), rfl, rfl⟩
theorem vorbyAck (f : RxFrame) : Statement (.vorbyAck f) := ⟨(by decide : (47 : Nat) < 98), rfl, rfl⟩
theorem ackTimer (rank stream : Nat) : Statement (.ackTimer rank stream) := ⟨(by decide : (48 : Nat) < 98), rfl, rfl⟩
theorem rtoExpiry (rank stream psn : Nat) : Statement (.rtoExpiry rank stream psn) := ⟨(by decide : (49 : Nat) < 98), rfl, rfl⟩
theorem cmdNop : Statement .cmdNop := ⟨(by decide : (50 : Nat) < 98), rfl, rfl⟩
theorem cmdRead : Statement .cmdRead := ⟨(by decide : (51 : Nat) < 98), rfl, rfl⟩
theorem cmdWrite : Statement .cmdWrite := ⟨(by decide : (52 : Nat) < 98), rfl, rfl⟩
theorem cmdLaunch : Statement .cmdLaunch := ⟨(by decide : (53 : Nat) < 98), rfl, rfl⟩
theorem cmdPreemptMode0 : Statement .cmdPreemptMode0 := ⟨(by decide : (54 : Nat) < 98), rfl, rfl⟩
theorem cmdPreemptMode1 : Statement .cmdPreemptMode1 := ⟨(by decide : (55 : Nat) < 98), rfl, rfl⟩
theorem cmdPreemptMode2 : Statement .cmdPreemptMode2 := ⟨(by decide : (56 : Nat) < 98), rfl, rfl⟩
theorem cmdPreemptMode3 : Statement .cmdPreemptMode3 := ⟨(by decide : (57 : Nat) < 98), rfl, rfl⟩
theorem cmdKill : Statement .cmdKill := ⟨(by decide : (58 : Nat) < 98), rfl, rfl⟩
theorem cmdTlbinv : Statement .cmdTlbinv := ⟨(by decide : (59 : Nat) < 98), rfl, rfl⟩
theorem cmdHarvest : Statement .cmdHarvest := ⟨(by decide : (60 : Nat) < 98), rfl, rfl⟩
theorem cmdPlace : Statement .cmdPlace := ⟨(by decide : (61 : Nat) < 98), rfl, rfl⟩
theorem cmdSignalFput : Statement .cmdSignalFput := ⟨(by decide : (62 : Nat) < 98), rfl, rfl⟩
theorem cmdSignalDcdec : Statement .cmdSignalDcdec := ⟨(by decide : (63 : Nat) < 98), rfl, rfl⟩
theorem cmdWaitevent : Statement .cmdWaitevent := ⟨(by decide : (64 : Nat) < 98), rfl, rfl⟩
theorem waiteventPoll (q : Nat) : Statement (.waiteventPoll q) := ⟨(by decide : (65 : Nat) < 98), rfl, rfl⟩
theorem cmdAttest : Statement .cmdAttest := ⟨(by decide : (66 : Nat) < 98), rfl, rfl⟩
theorem cmdFwload : Statement .cmdFwload := ⟨(by decide : (67 : Nat) < 98), rfl, rfl⟩
theorem cmdFreeze : Statement .cmdFreeze := ⟨(by decide : (68 : Nat) < 98), rfl, rfl⟩
theorem completionRecordWrite (slot : Nat) : Statement (.completionRecordWrite slot) := ⟨(by decide : (69 : Nat) < 98), rfl, rfl⟩
theorem eventTimerExpiry (n : Nat) : Statement (.eventTimerExpiry n) := ⟨(by decide : (70 : Nat) < 98), rfl, rfl⟩
theorem coreWorkAsk (d c : Nat) : Statement (.coreWorkAsk d c) := ⟨(by decide : (71 : Nat) < 98), rfl, rfl⟩
theorem crewBindingComplete (d c task : Nat) : Statement (.crewBindingComplete d c task) := ⟨(by decide : (72 : Nat) < 98), rfl, rfl⟩
theorem ageingRise (d : Nat) : Statement (.ageingRise d) := ⟨(by decide : (73 : Nat) < 98), rfl, rfl⟩
theorem crewSave (task : Nat) : Statement (.crewSave task) := ⟨(by decide : (74 : Nat) < 98), rfl, rfl⟩
theorem watchdogFire (d c : Nat) : Statement (.watchdogFire d c) := ⟨(by decide : (75 : Nat) < 98), rfl, rfl⟩
theorem chainWalk (d c x : Nat) : Statement (.chainWalk d c x) := ⟨(by decide : (76 : Nat) < 98), rfl, rfl⟩
theorem adoptedCrewBind (d : Nat) : Statement (.adoptedCrewBind d) := ⟨(by decide : (77 : Nat) < 98), rfl, rfl⟩
theorem crewMigration (d : Nat) : Statement (.crewMigration d) := ⟨(by decide : (78 : Nat) < 98), rfl, rfl⟩
theorem nackRetryExpiry (d c x h : Nat) : Statement (.nackRetryExpiry d c x h) := ⟨(by decide : (79 : Nat) < 98), rfl, rfl⟩
theorem endNotice (d slice task : Nat) : Statement (.endNotice d slice task) := ⟨(by decide : (80 : Nat) < 98), rfl, rfl⟩
theorem nodeFlushTimer (d slice p : Nat) : Statement (.nodeFlushTimer d slice p) := ⟨(by decide : (81 : Nat) < 98), rfl, rfl⟩
theorem waitingAnswerArrival (d c h : Nat) : Statement (.waitingAnswerArrival d c h) := ⟨(by decide : (82 : Nat) < 98), rfl, rfl⟩
theorem heldAnswerArrival (d c h : Nat) : Statement (.heldAnswerArrival d c h) := ⟨(by decide : (83 : Nat) < 98), rfl, rfl⟩
theorem loadDataArrival (d c x id : Nat) (errs : List Byte) : Statement (.loadDataArrival d c x id errs) := ⟨(by decide : (84 : Nat) < 98), rfl, rfl⟩
theorem storePerform (d c k : Nat) (errs : List Byte) : Statement (.storePerform d c k errs) := ⟨(by decide : (85 : Nat) < 98), rfl, rfl⟩
theorem pageWalk (d c asid va fetch : Nat) : Statement (.pageWalk d c asid va fetch) := ⟨(by decide : (86 : Nat) < 98), rfl, rfl⟩
theorem asyncCompletion (id : Nat) : Statement (.asyncCompletion id) := ⟨(by decide : (87 : Nat) < 98), rfl, rfl⟩
theorem asyncPoisonTrap (d c x : Nat) : Statement (.asyncPoisonTrap d c x) := ⟨(by decide : (88 : Nat) < 98), rfl, rfl⟩
theorem arrayInstructionEnd (d c k : Nat) : Statement (.arrayInstructionEnd d c k) := ⟨(by decide : (89 : Nat) < 98), rfl, rfl⟩
theorem conversionStep (d id : Nat) : Statement (.conversionStep d id) := ⟨(by decide : (90 : Nat) < 98), rfl, rfl⟩
theorem bundleIssue (d c h : Nat) : Statement (.bundleIssue d c h) := ⟨(by decide : (91 : Nat) < 98), rfl, rfl⟩
theorem srseedWrite (d c h : Nat) : Statement (.srseedWrite d c h) := ⟨(by decide : (92 : Nat) < 98), rfl, rfl⟩
theorem ptbaseWrite (d c h : Nat) : Statement (.ptbaseWrite d c h) := ⟨(by decide : (93 : Nat) < 98), rfl, rfl⟩
theorem defaultVectorWrite (d c h : Nat) : Statement (.defaultVectorWrite d c h) := ⟨(by decide : (94 : Nat) < 98), rfl, rfl⟩
theorem wdogWrite (d c h : Nat) : Statement (.wdogWrite d c h) := ⟨(by decide : (95 : Nat) < 98), rfl, rfl⟩
theorem pfcPauseExpiry (p prio : Nat) : Statement (.pfcPauseExpiry p prio) := ⟨(by decide : (96 : Nat) < 98), rfl, rfl⟩
theorem claimedLineWrite (id line : Nat) : Statement (.claimedLineWrite id line) := ⟨(by decide : (97 : Nat) < 98), rfl, rfl⟩

end Sys2Proof.Laws.RecordRow
end

