-- ==== Sys2Proof/Laws/Records.lean ====
section
/-! SUPPORT. Records of steps (log 1): what reading fields and a tail gives, and what building a step from them gives. -/

namespace Sys2Proof.Laws
open Sys2Proof.Machine Sys2Proof.Irnov

theorem word64_flat (l : List Nat) (k : Nat) (hl : ∀ x ∈ l, x < 2 ^ 64) (hk : k < l.length) : word64 (l.flatMap (leBytes 8)) k = l[k] := by
  induction l generalizing k with
  | nil => simp at hk
  | cons a t ih =>
    unfold word64 at *
    rw [List.flatMap_cons]
    cases k with
    | zero =>
      simp only [Nat.mul_zero, List.drop_zero]
      rw [List.take_append_of_le_length (by rw [leBytes_length]), List.take_of_length_le (by rw [leBytes_length]), leNat_leBytes]
      have := hl a List.mem_cons_self
      simp only [List.getElem_cons_zero]; omega
    | succ k =>
      have e : (leBytes 8 a ++ t.flatMap (leBytes 8)).drop (8 * (k + 1)) = (t.flatMap (leBytes 8)).drop (8 * k) := by
        rw [show 8 * (k + 1) = (leBytes 8 a).length + 8 * k by rw [leBytes_length]; omega, List.drop_append]
        simp
      rw [e]
      simpa using ih k (fun x hx => hl x (List.mem_cons_of_mem _ hx)) (by simpa using hk)
theorem readFields_spec : ∀ (l : List (Nat × Nat)) (rest : List Byte), (∀ e ∈ l, e.2 < 256 ^ e.1) → readFields (l.map (·.1)) (fieldBytes l ++ rest) = some (l.map (·.2), rest) := by
  intro l
  induction l with
  | nil => intro rest _; rfl
  | cons a t ih =>
    intro rest h
    have e : fieldBytes (a :: t) ++ rest = leBytes a.1 a.2 ++ (fieldBytes t ++ rest) := by simp [fieldBytes]
    rw [e]
    unfold readFields
    simp only [List.map_cons]
    rw [if_neg (by simp [leBytes_length]), List.take_append_of_le_length (by rw [leBytes_length]), List.take_of_length_le (by rw [leBytes_length]), leNat_leBytes,
      List.drop_append_of_le_length (by rw [leBytes_length]), List.drop_of_length_le (by rw [leBytes_length]), List.nil_append, ih rest fun e he => h e (List.mem_cons_of_mem _ he),
      Nat.mod_eq_of_lt (h a List.mem_cons_self)]
    rfl
theorem readTail_spec (b rest : List Byte) (h : b.length < 65536) : readTail (leBytes 2 b.length ++ b ++ rest) = some (b, rest) := by
  unfold readTail
  rw [if_neg (by simp only [List.length_append, leBytes_length]; omega)]
  simp only [List.append_assoc]
  rw [List.take_append_of_le_length (by rw [leBytes_length]), List.take_of_length_le (by rw [leBytes_length]), leNat_leBytes,
      List.drop_append_of_le_length (by rw [leBytes_length]), List.drop_of_length_le (by rw [leBytes_length]), List.nil_append, Nat.mod_eq_of_lt (by omega)]
  rw [if_neg (by simp)]
  simp
theorem decode_record {r : Record} {i : Instr} (hr : r.row < 256) (hl : rowLayout r.row = some (r.fields.map (·.1), r.tail.isSome))
    (hf : ∀ e ∈ r.fields, e.2 < 256 ^ e.1) (ht : ∀ b, r.tail = some b → b.length < 65536)
    (hb : buildInstr r.row (r.fields.map (·.2)) (r.tail.getD []) = some i) (hw : i.wf = true) :
    decode (BitVec.ofNat 8 r.row :: (fieldBytes r.fields ++ tailBytes r.tail)) = .ok i := by
  unfold decode
  simp only [BitVec.toNat_ofNat, Nat.mod_eq_of_lt hr, hl, readFields_spec _ _ hf]
  cases hx : r.tail with
  | none =>
    simp only [tailBytes, Option.isSome_none, Bool.false_eq_true, if_false, List.any_nil]
    rw [hx] at hb
    simp only [Option.getD_none] at hb
    rw [hb]; simp only [hw, if_true]
  | some b =>
    simp only [tailBytes, Option.isSome_some, if_true]
    have := readTail_spec b [] (ht b hx)
    rw [List.append_nil] at this
    rw [this]
    simp only [List.any_nil, Bool.false_eq_true, if_false]
    rw [hx] at hb
    simp only [Option.getD_some] at hb
    rw [hb]; simp only [hw, if_true]
theorem readFields_inv : ∀ (ws : List Nat) (bs : List Byte) (vs : List Nat) (rest : List Byte), readFields ws bs = some (vs, rest) →
    vs.length = ws.length ∧ bs = fieldBytes (ws.zip vs) ++ rest := by
  intro ws
  induction ws with
  | nil => intro bs vs rest h; simp only [readFields, Option.some.injEq, Prod.mk.injEq] at h; obtain ⟨rfl, rfl⟩ := h; exact ⟨rfl, rfl⟩
  | cons w t ih =>
    intro bs vs rest h
    unfold readFields at h
    split at h
    · cases h
    · rename_i hl
      obtain ⟨⟨v, r⟩, h1, h2⟩ := Option.map_eq_some_iff.1 h
      simp only [Prod.mk.injEq] at h2
      obtain ⟨rfl, rfl⟩ := h2
      obtain ⟨i1, i2⟩ := ih _ _ _ h1
      refine ⟨by simp [i1], ?_⟩
      have e : (bs.take w).length = w := by rw [List.length_take]; omega
      have e2 := leBytes_leNat (bs.take w)
      rw [e] at e2
      have e3 : fieldBytes ((w :: t).zip (leNat (bs.take w) :: v)) = leBytes w (leNat (bs.take w)) ++ fieldBytes (t.zip v) := by simp [fieldBytes]
      rw [e3, e2, List.append_assoc, ← i2, List.take_append_drop]
theorem readTail_inv {bs b rest : List Byte} (h : readTail bs = some (b, rest)) : bs = leBytes 2 b.length ++ b ++ rest := by
  unfold readTail at h
  split at h
  · cases h
  · rename_i hl
    simp only at h
    split at h
    · cases h
    · rename_i hl2
      simp only [Option.some.injEq, Prod.mk.injEq] at h
      obtain ⟨rfl, rfl⟩ := h
      have e : (bs.take 2).length = 2 := by rw [List.length_take]; omega
      have e2 := leBytes_leNat (bs.take 2)
      rw [e] at e2
      have e3 : ((bs.drop 2).take (leNat (bs.take 2))).length = leNat (bs.take 2) := by rw [List.length_take]; omega
      rw [e3, e2, List.append_assoc, List.take_append_drop, List.take_append_drop]
theorem bootOf_inv {a b c : Nat} {o : BootOutcome} (h : bootOf a b c = some o) : bootFields o = [(1, a), (1, b), (1, c)] := by
  unfold bootOf at h
  split at h <;> first | (injection h with h; subst h; rfl) | cases h
theorem leBytes4_length {l : List Nat} (h : l.length = 4) : ∃ a b c d, l = [a, b, c, d] := by
  match l, h with | [a, b, c, d], _ => exact ⟨a, b, c, d, rfl⟩
theorem leBytes5_length {l : List Nat} (h : l.length = 5) : ∃ a b c d e, l = [a, b, c, d, e] := by
  match l, h with | [a, b, c, d, e], _ => exact ⟨a, b, c, d, e, rfl⟩
theorem frame_record {k : Nat} {x : Bool} (h : bitOf k = some x) : (if x then 1 else 0) = k := by
  unfold bitOf at h; split at h <;> first | (injection h with h; subst h; rfl) | cases h
theorem build_record {r : Nat} {vs : List Nat} {t : List Byte} {i : Instr} {ws : List Nat} {tl : Bool} (hl : rowLayout r = some (ws, tl))
    (hv : vs.length = ws.length) (ht : tl = false → t = []) (h : buildInstr r vs t = some i) : i.record = ⟨r, ws.zip vs, if tl then some t else none⟩ := by
  have hr : r < 98 := by
    by_contra hc
    obtain ⟨n, rfl⟩ : ∃ n, r = n + 98 := ⟨r - 98, by omega⟩
    have : rowLayout (n + 98) = none := rfl
    rw [this] at hl; cases hl
  interval_cases r
  all_goals (
    replace hl : some _ = some (ws, tl) := hl
    injection hl with hl; injection hl with h1 h2; subst h1 h2
    have hv' := hv
    simp only [List.length_cons, List.length_nil, Nat.zero_add, Nat.reduceAdd] at hv'
    first
      | rw [List.length_eq_zero_iff] at hv'; subst hv'
      | (rw [List.length_eq_one_iff] at hv'; obtain ⟨a, rfl⟩ := hv')
      | (rw [List.length_eq_two] at hv'; obtain ⟨a, b, rfl⟩ := hv')
      | (rw [List.length_eq_three] at hv'; obtain ⟨a, b, c, rfl⟩ := hv')
      | (obtain ⟨a, b, c, d, rfl⟩ := leBytes4_length hv')
      | (obtain ⟨a, b, c, d, e, rfl⟩ := leBytes5_length hv')
    try (have ht' := ht rfl; subst ht'))
  all_goals first
    | (injection h with h; subst h; rfl)
    | (replace h : (bootOf _ _ _).map Instr.bootPhaseComplete = some i := h
       obtain ⟨k, h1, h2⟩ := Option.map_eq_some_iff.1 h
       subst h2; simp only [Instr.record]; rw [bootOf_inv h1]; rfl)
    | (obtain ⟨k, h1, h2⟩ := Option.map_eq_some_iff.1 h
       subst h2; simp only [Instr.record, frameFields]; rw [frame_record h1]; rfl)
theorem zeros_suffix {l : List Byte} (h : ¬ l.any (· != 0) = true) : l = List.replicate l.length 0 := by
  induction l with
  | nil => rfl
  | cons a t ih =>
    simp only [List.any_cons, Bool.or_eq_true, not_or] at h
    have : a = 0 := by simpa using h.1
    rw [List.length_cons, List.replicate_succ, ← ih h.2, this]

end Sys2Proof.Laws
end

