-- ==== Sys2Proof/Laws/Steps.lean ====
section
/-! SUPPORT. What a step can be: the record due, the row of exec, a tick; what stands in the frozen state. -/

namespace Sys2Proof.Laws
open Sys2Proof.Machine Sys2Proof.Irnov

theorem step_due {s : State} {p : Pending} {t : List Pending} (h : s.agenda = p :: t) (hw : p.wait = 0) : dueRecord s = some (p.record, { s with agenda := t }) := by
  unfold dueRecord; rw [h]; simp [hw]
theorem goes_exec (i : Instr) (hi : i ≠ .perstAssert) (hw : i.WellFormed) (s t : State) (h : exec i s = .next t) : Goes s t := by
  have fin : ∀ {u : State}, (Host.Outcome.next u : Result) = .next t → Goes s u → Goes s t := fun h1 h2 => by injection h1 with h1; rwa [h1] at h2
  cases i
  case perstAssert => exact absurd rfl hi
  case perstRelease => exact fin h (goes_perstHigh _)
  case bootPhaseComplete o => exact fin h (goes_phaseComplete _ _ hw)
  case frzRequest => exact fin h (goes_freeze _ 0 (by omega))
  case thermalTrip => exact fin h (goes_thermalTrip _)
  case linkFlitCrcError d p => exact fin h (goes_linkRetry ..)
  case linkRetrainFailure d p =>
    refine fin h ?_
    split
    · exact goes_freeze _ 3 (by omega)
    · exact .rfl
  case ethernetLinkUp p => exact fin h (goes_outOfReset (keeps_modNet _ _).goes)
  case ethernetLinkDown p => exact fin h (goes_outOfReset (keeps_modNet _ _).goes)
  case throttleStep a b c => exact fin h (goes_throttleStep ..)
  case recordRefresh b =>
    refine fin h ?_
    split
    · exact .rfl
    · exact goes_modIo (ioStep_refreshRecords ..)
  case refresh k a c => exact fin h (goes_refreshBank ..)
  case rowDisturbRefresh k w => exact fin h (goes_rowDisturb ..)
  case patrolScrub k a c => exact fin h (goes_scrub ..)
  case spareRowRemap k a b c => exact fin h (goes_remapRow ..)
  case interfaceCalibration k w => exact fin h (goes_calibrate ..)
  case gatheredBitsFlush => exact fin h (keeps_onChip ..).goes
  case frameDropped f => exact fin h (goes_receiveIf ..)
  case pfcFrame f => exact fin h (goes_receiveIf ..)
  case mread f => exact fin h (goes_receiveIf ..)
  case mwrite f => exact fin h (goes_receiveIf ..)
  case mreplyReceived f => exact fin h (goes_receiveIf ..)
  case epochWrite v => exact fin h (goes_writeWord ..)
  case queueDisable q w =>
    refine fin h ?_
    split
    · exact goes_writeWord ..
    · exact .rfl
  case ringEnable q w =>
    refine fin h ?_
    split
    · exact goes_writeWord ..
    · exact .rfl
  case ringDisable q w =>
    refine fin h ?_
    split
    · exact goes_writeWord ..
    · exact .rfl
  case flashErase a => exact fin h (goes_writeWord ..)
  case flashProgram a => exact fin h (goes_writeWord ..)
  case flashNoOp w =>
    refine fin h ?_
    split
    · exact goes_writeWord ..
    · exact .rfl
  case flashOpComplete =>
    refine fin h ?_
    split
    · exact goes_flashDone _
    · exact .rfl
  case stagingBufferWrite b => exact fin h (goes_writeStaging _ 0 _ (by omega))
  case adapterForceEvict d n => exact fin h (goes_writeWord ..)
  case jtagBypass => exact fin h (goes_setIr ..)
  case jtagIdcode => exact fin h (goes_setIr ..)
  case jtagSamplePreload => exact fin h (goes_boundaryScan ..)
  case jtagExtest => exact fin h (goes_boundaryScan ..)
  case jtagRoselect w => exact fin h (goes_jtagRosel ..)
  case jtagRodata => exact fin h (goes_jtagRead ..)
  case ackTimer a b => exact fin h (goes_whileRunning (keeps_ackTimer ..).goes)
  case rtoExpiry a b c => exact fin h (goes_whileRunning (keeps_rtoExpiry ..).goes)
  case pfcPauseExpiry a b => exact fin h (goes_outOfReset (keeps_pauseExpiry ..).goes)
  case waiteventPoll q => exact fin h (goes_whileRunning (keeps_waitPoll ..).goes)
  case completionRecordWrite q => exact fin h (goes_whileRunning (keeps_completionWrite ..).goes)
  case eventTimerExpiry q => exact fin h (goes_whileRunning (keeps_eventTimer ..).goes)
  case loadDataArrival d c x id err => exact fin h (goes_whileRunning ((goes_eccAt ..).trans (keeps_modChip ..).goes))
  case storePerform d c k err => exact fin h (goes_whileRunning ((goes_eccAt ..).trans (keeps_modChip ..).goes))
  case bundleIssue => exact fin h (keeps_issueStep ..).goes
  case srseedWrite => exact fin h (keeps_issueSysw ..).goes
  case ptbaseWrite => exact fin h (keeps_issueSysw ..).goes
  case defaultVectorWrite => exact fin h (keeps_issueSysw ..).goes
  case wdogWrite => exact fin h (keeps_issueSysw ..).goes
  all_goals first
    | exact fin h (keeps_onChip ..).goes
    | exact fin h (goes_receiveType ..)
    | exact fin h (goes_command ..)
theorem decode_wf {b : List Byte} {i : Instr} (h : decode b = .ok i) : i.WellFormed := by
  unfold decode at h
  split at h
  · cases h
  · simp only [] at h
    (repeat' split at h) <;> first | (cases h; done) | (injection h with h; subst h; assumption)
theorem step_cases {s t : State} (h : step s = .next t) :
    (t = tick s ∧ ∀ p r, s.agenda = p :: r → p.wait ≠ 0) ∨ ∃ p r i, s.agenda = p :: r ∧ p.wait = 0 ∧ decode p.record = .ok i ∧ exec i { s with agenda := r } = .next t := by
  unfold step dueRecord at h
  split at h
  · rename_i h2
    injection h with h
    refine .inl ⟨h.symm, fun p r e e2 => ?_⟩
    rw [e] at h2; simp [e2] at h2
  · rename_i b u h2
    split at h2
    · cases h2
    · rename_i p r e
      split at h2
      · rename_i hw
        injection h2 with h2; injection h2 with h2 h3; subst h2 h3
        split at h
        · exact .inr ⟨p, r, _, e, hw, ‹_›, h⟩
        · cases h
      · cases h2
/-- A reset that was sampled is due. -/
def ResetDue (i : Io) (clock : Nat) : Prop := ∃ c, i.perstAt = some c ∧ c ≤ clock

theorem perstDue_cases (s : State) : perstDue s = s ∨ (perstDue s = perstLow s ∧ ResetDue s.io s.io.clock) := by
  unfold perstDue
  split
  · rename_i c hc
    split
    · exact .inr ⟨rfl, c, hc, ‹_›⟩
    · exact .inl rfl
  · exact .inl rfl

/-- A clock period: the I/O die goes on, or a reset takes effect. -/
theorem tick_cases (s : State) : IoStep s.io (tick s).io ∨ ∃ u, Goes s u ∧ ResetDue s.io (s.io.clock + 1) ∧
    (tick s).io = (perstLow u).io := by
  have e : IoStep s.io { s.io with clock := s.io.clock + 1 } := ioStep_of_eq
  have mac : ∀ X : State, (pumpMac X).io = X.io := fun X => (keeps_pumpMac X).1
  unfold tick
  simp only []
  split
  · exact .inl (IoStep.refl _)
  · rcases perstDue_cases (pumpMac (({ s with agenda := waitDown s.agenda } : State).modIo fun i => { i with clock := i.clock + 1 })) with h | ⟨h, hd⟩
    · rw [h, mac]; exact .inl e
    · rw [h]; rw [mac] at hd
      exact .inr ⟨{ s with io := (pumpMac _).io }, ⟨by rw [mac]; exact e, rfl⟩, hd, rfl⟩
  · rename_i p _ _
    have run : ∀ X : State, X.io = { s.io with clock := s.io.clock + 1 } →
        IoStep s.io (settle (freezeDue (perstDue X))).io ∨ ∃ u, Goes s u ∧ ResetDue s.io (s.io.clock + 1) ∧
          (settle (freezeDue (perstDue X))).io = (perstLow u).io := fun X hX => by
      rcases perstDue_cases X with h | ⟨h, hd⟩
      · rw [h]
        refine .inl (e.trans ?_)
        rw [← hX]
        exact ((goes_freezeDue X).trans (goes_settle _)).1
      · rw [h]; rw [hX] at hd
        refine .inr ⟨{ s with io := X.io }, ⟨by rw [hX]; exact e, rfl⟩, hd, ?_⟩
        have : freezeDue (perstLow X) = perstLow X := rfl
        rw [this]
        exact rfl
    exact run _ (mac _)

/-- PERST_N's fall is the next step. -/
def PerstFalls (s : State) : Prop := ∃ p r, s.agenda = p :: r ∧ p.wait = 0 ∧ decode p.record = .ok .perstAssert

/-- What a step does to the I/O die: what any row may do; or PERST_N falls, which is sampled at the next reference edge; or a reset
takes effect, of a fall in this cycle or of one that was sampled before. -/
theorem step_io {s t : State} (h : step s = .next t) : IoStep s.io t.io ∨
    (PerstFalls s ∧ t.io = { s.io with perstAt := some (edgeCycle s.io.refEdge) }) ∨
    ∃ u : State, (IoStep s.io u.io ∨ u.io = { s.io with perstAt := u.io.perstAt }) ∧ t.io = (perstLow u).io ∧ (PerstFalls s ∨ ResetDue s.io (s.io.clock + 1)) := by
  rcases step_cases h with ⟨rfl, -⟩ | ⟨p, r, i, h1, h2, h3, h4⟩
  · rcases tick_cases s with h | ⟨u, h1, h2, h3⟩
    · exact .inl h
    · exact .inr (.inr ⟨u, .inl h1.1, h3, .inr h2⟩)
  · by_cases hi : i = .perstAssert
    · subst hi
      have h4 : (Host.Outcome.next (perstFall { s with agenda := r }) : Result) = .next t := h4
      injection h4 with h4
      subst h4
      unfold perstFall
      rcases perstDue_cases (({ s with agenda := r } : State).modIo fun i => { i with perstAt := some (edgeCycle i.refEdge) }) with h | ⟨h, -⟩
      · rw [h]; exact .inr (.inl ⟨⟨p, r, h1, h2, h3⟩, rfl⟩)
      · rw [h]; exact .inr (.inr ⟨_, .inr rfl, rfl, .inl ⟨p, r, h1, h2, h3⟩⟩)
    · exact .inl (goes_exec i hi (decode_wf h3) _ _ h4).1
theorem exec_next (i : Instr) (s : State) : ∃ t, exec i s = .next t := by cases i <;> exact ⟨_, rfl⟩
theorem tick_agenda (s : State) : (tick s).agenda = waitDown s.agenda := by
  have aux : ∀ X : State, X.agenda = waitDown s.agenda → (settle X).agenda = waitDown s.agenda := fun X h => (goes_settle X).2.trans h
  unfold tick
  simp only []
  split
  · rfl
  · rcases perstDue_cases (pumpMac (({ s with agenda := waitDown s.agenda } : State).modIo fun i => { i with clock := i.clock + 1 })) with h | ⟨h, -⟩
    · rw [h]; exact (keeps_pumpMac _).2
    · rw [h]; exact (keeps_pumpMac _).2
  · refine aux _ ((goes_freezeDue _).2.trans ?_)
    rcases perstDue_cases (pumpMac { (({ s with agenda := waitDown s.agenda } : State).modIo fun i => { i with clock := i.clock + 1 }) with
      chip := chipTick (throttled s) (s.io.phase == .running) s.chip }) with h | ⟨h, -⟩
    · rw [h]; exact (keeps_pumpMac _).2
    · rw [h]; exact (keeps_pumpMac _).2
theorem frozen_row (i : Instr) (s : State) (h : s.io.phase = .frozen) (hn : needsRunning i = true) : exec i s = .next s := by
  have c : ∀ f, onChip s f = s := fun f => by unfold onChip; rw [h]; rfl
  have w : ∀ f, whileRunning s f = s := fun f => by unfold whileRunning; rw [h]; rfl
  have r : ∀ f t, receiveType s f t = s := fun f t => by unfold receiveType; rw [h]; simp
  have q : ∀ d c h, issueStep s d c h = s := by
    intro d c' h'
    unfold issueStep
    split
    · rfl
    · exact c _
  have y : ∀ d c h l, issueSysw s d c h l = s := fun d c' h' l => by
    unfold issueSysw; simp only; split
    · split
      · exact q ..
      · rfl
    · rfl
  cases i
  all_goals first
    | (exact absurd hn (by decide))
    | (cases hn; done)
    | exact congrArg Host.Outcome.next (c _)
    | exact congrArg Host.Outcome.next (w _)
    | exact congrArg Host.Outcome.next (r _ _)
    | exact congrArg Host.Outcome.next (q _ _ _)
    | exact congrArg Host.Outcome.next (y _ _ _ _)
structure Cold (s t : State) : Prop where
  chip : t.chip = s.chip
  io : t.io = s.io
theorem Cold.rfl {s : State} : Cold s s := ⟨Eq.refl _, Eq.refl _⟩
theorem Cold.trans {s t u : State} (a : Cold s t) (b : Cold t u) : Cold s u := ⟨b.chip.trans a.chip, b.io.trans a.io⟩
theorem Cold.phase {s t : State} (a : Cold s t) (h : s.io.phase = .frozen) : t.io.phase = .frozen := by rw [a.io, h]
theorem cold_fold {α : Type} {f : State → α → State} (h : ∀ s a, s.io.phase = .frozen → Cold s (f s a)) (l : List α) : ∀ s : State, s.io.phase = .frozen → Cold s (l.foldl f s) := by
  induction l with
  | nil => intro s _; exact .rfl
  | cons a t ih => intro s hs; exact (h s a hs).trans (ih _ ((h s a hs).phase hs))
theorem cold_net (s : State) (f : Net → Net) : Cold s (s.modNet f) := ⟨rfl, rfl⟩
theorem cold_countAt (s : State) (p : Nat) (f : PortCounters → PortCounters) : Cold s (countAt s p f) := ⟨by simp, by simp⟩
theorem cold_countDrop (s : State) (p : Nat) (d : Drop) : Cold s (countDrop s p d) := by
  cases d <;> first | exact cold_countAt .. | exact .rfl
theorem cold_requestNack (s : State) (r st m c : Nat) (h : s.io.phase = .frozen) : Cold s (requestNack s r st m c) := by
  unfold requestNack
  split
  · exact .rfl
  · rw [if_pos h]; exact cold_net ..
theorem cold_localNack (s : State) (r st t m c : Nat) (h : s.io.phase = .frozen) : Cold s (localNack s r st t m c) := by
  unfold localNack
  simp only
  split
  · exact cold_countAt ..
  · exact (cold_countAt ..).trans (cold_requestNack _ _ _ _ _ ((cold_countAt ..).phase h))
theorem cold_timeout (s : State) (k : Nat) (h : s.io.phase = .frozen) : Cold s (timeoutStream s k) := by
  unfold timeoutStream
  simp only
  exact (cold_net s _).trans (cold_fold (fun s f hs => cold_localNack _ _ _ _ _ _ hs) _ _ h)
theorem cold_epoch (s : State) (v : Nat) (h : s.io.phase = .frozen) : Cold s (writeEpoch s v) := by
  unfold writeEpoch
  split
  · exact .rfl
  · exact ((cold_net s _).trans (cold_fold (fun s e hs => cold_timeout _ _ hs) _ _ h)).trans (cold_net ..)
theorem cold_requestReply (s : State) (r st m : Nat) (f : Flags) (p : List Byte) (h : s.io.phase = .frozen) : Cold s (requestReply s r st m f p) := by
  unfold requestReply
  split
  · exact .rfl
  · rw [if_pos h]; exact cold_net ..
theorem cold_toSelf (s : State) (st mt m ts : Nat) (p : List Byte) (h : s.io.phase = .frozen) : Cold s (toSelf s st mt m ts p) := by
  unfold toSelf
  split
  · exact cold_requestReply _ _ _ _ _ _ h
  · exact (cold_countAt ..).trans (cold_requestNack _ _ _ _ _ ((cold_countAt ..).phase h))
  · exact .rfl
theorem cold_sendMac (s : State) (f : MacFrame) : Cold s (sendMac s f) := by
  unfold sendMac; split <;> exact ⟨rfl, rfl⟩
theorem cold_pumpMac (s : State) (h : s.io.phase = .frozen) : Cold s (pumpMac s) := by
  unfold pumpMac
  split
  · exact .rfl
  · exact (cold_net s _).trans (cold_fold (fun s f _ => cold_sendMac s f) _ _ h)
theorem cold_sendMsg (s : State) (r st mt : Nat) (c o : Bool) (m ts : Nat) (a : W64) (p : List Byte) (h : s.io.phase = .frozen) : Cold s (sendMsg s r st mt c o m ts a p) := by
  unfold sendMsg
  simp only
  split
  · exact cold_toSelf _ _ _ _ _ _ h
  · split
    · exact cold_localNack _ _ _ _ _ _ h
    · split
      · exact cold_localNack _ _ _ _ _ _ h
      · exact cold_net ..
theorem cold_disableQueue (s : State) (q : Nat) (h : s.io.phase = .frozen) : Cold s (disableQueue s q) := by
  unfold disableQueue
  exact (cold_net s _).trans (cold_fold (fun s c hs => cold_sendMsg _ _ _ _ _ _ _ _ _ _ hs) _ _ h)
theorem chip_ite {s : State} {c : Prop} [Decidable c] {x y : Bool × State} (hx : c → x.2.chip = s.chip) (hy : ¬ c → y.2.chip = s.chip) :
    (if c then x else y).2.chip = s.chip := by
  by_cases h : c
  · rw [if_pos h]; exact hx h
  · rw [if_neg h]; exact hy h
theorem chip_writePort (s : State) (p o w : Nat) (h : s.io.phase = .frozen) : (writePort s p o w).chip = s.chip := by
  unfold writePort
  dsimp only
  split
  · split
    · exact (cold_epoch _ _ h).chip
    · rfl
  · split
    · split
      · rfl
      · rename_i h2; exact absurd h h2
    · rfl
  all_goals rfl
theorem chip_writeRosel (s : State) (w : W64) : (writeRosel s w).chip = s.chip := by unfold writeRosel; split <;> rfl
theorem chip_writeFlctl (s : State) (w : W64) : (writeFlctl s w).chip = s.chip := by
  unfold writeFlctl flStart; (repeat' split) <;> rfl
theorem chip_writeStaging (s : State) (o : Nat) (b : List Byte) : (writeStaging s o b).chip = s.chip := by unfold writeStaging; split <;> rfl
theorem chip_writeQueue (s : State) (q w : Nat) (h : s.io.phase = .frozen) : (writeQueue s q w).chip = s.chip := by
  unfold writeQueue; dsimp only; split
  · exact (Cold.trans (cold_net s _) (cold_disableQueue _ _ h)).chip
  · rfl
theorem chip_writeRing (s : State) (n o w : Nat) (h : s.io.phase = .frozen) : (writeRing s n o w).2.chip = s.chip := by
  unfold writeRing enableRing; dsimp only
  split
  · dsimp only; split <;> rfl
  · split
    · split
      · rw [show (s.modNet _).io.phase = .frozen from h]; rfl
      · rfl
    all_goals rfl
theorem chip_mgmtWrite (s : State) (a : Nat) (w : W64) (h : s.io.phase = .frozen) : (mgmtWrite s a w).2.chip = s.chip := by
  unfold mgmtWrite
  refine chip_ite (fun _ => rfl) fun _ => ?_
  refine chip_ite (fun _ => chip_writePort _ _ _ _ h) fun _ => ?_
  refine chip_ite (fun _ => rfl) fun _ => ?_
  refine chip_ite (fun _ => rfl) fun _ => ?_
  refine chip_ite (fun _ => chip_writeRosel ..) fun _ => ?_
  refine chip_ite (fun _ => chip_writeFlctl ..) fun _ => ?_
  refine chip_ite (fun _ => ?_) fun _ => ?_
  · show State.chip (if _ then _ else s) = _
    split
    · exact chip_writeQueue _ _ _ h
    · rfl
  refine chip_ite (fun _ => chip_writeRing _ _ _ _ h) fun _ => ?_
  refine chip_ite (fun _ => chip_writeStaging ..) fun _ => ?_
  refine chip_ite (fun _ => ?_) fun _ => rfl
  show State.chip (if _ then _ else s) = _
  split
  · rename_i h2; exact absurd h h2.2.2
  · rfl
theorem chip_mgmtWrites : ∀ (ws : List W64) (s : State) (a : Nat), s.io.phase = .frozen → (mgmtWrites s a ws).2.chip = s.chip := by
  intro ws
  induction ws with
  | nil => intro s a _; rfl
  | cons w t ih =>
    intro s a h
    unfold mgmtWrites
    have h1 := chip_mgmtWrite s a w h
    have h2 := (goes_mgmtWrite s a w).1.frozen h
    split
    · rename_i s' e; rw [e] at h1 h2; exact (ih _ _ h2).trans h1
    · exact h1
theorem chip_receive (s : State) (f : RxFrame) (h : s.io.phase = .frozen) : (receive s f).chip = s.chip := by
  unfold receive
  split
  · exact (cold_countDrop ..).chip
  · rename_i e hm
    split
    · unfold receiveMgmt
      simp only
      have an : ∀ (t : State) (h : MHdr) (ok : Bool) (d : List Byte), (mgmtAnswer t f e h ok d).chip = t.chip := fun t h ok d =>
        (cold_sendMac ..).chip
      split; · rfl
      split; · exact an ..
      split; · exact an ..
      split
      · exact an ..
      · exact (an ..).trans (chip_mgmtWrites _ _ _ h)
    · split
      · rename_i h2
        exfalso
        unfold macDrop at hm
        simp only [h] at hm
        (repeat' split at hm) <;> first | (cases hm; done) | (injection hm with hm; subst hm; simp_all)
      · rfl
theorem row_chip (i : Instr) (s : State) (h : s.io.phase = .frozen) (hi : i ≠ .perstAssert) : ∃ t, exec i s = .next t ∧ ∃ n, t.chip = { s.chip with fresh := n } := by
  by_cases hn : needsRunning i = true
  · exact ⟨s, frozen_row i s h hn, s.chip.fresh, rfl⟩
  have recv : ∀ f b, ∃ n, (receiveIf s f b).chip = { s.chip with fresh := n } := fun f b => by
    unfold receiveIf; split
    · exact ⟨s.chip.fresh, chip_receive _ _ h⟩
    · exact ⟨s.chip.fresh, rfl⟩
  have wr : ∀ a w, (writeWord s a w).chip = s.chip := fun a w => by
    unfold writeWord outOfReset; split
    · rfl
    · exact chip_mgmtWrite _ _ _ h
  have fr : ∀ (u : State) b, u.io.phase = .frozen → u.chip = s.chip → (freeze u b).chip = s.chip := fun u b hp hu => by
    unfold freeze; rw [hp]; dsimp only; split <;> exact hu
  have bg : ∀ k c m f, background s k c m f = s := fun k c m f => by unfold background stacksOn; rw [h]; rfl
  cases i
  case perstAssert => exact absurd rfl hi
  case perstRelease => exact ⟨_, rfl, s.chip.fresh, by unfold perstHigh; split <;> rfl⟩
  case bootPhaseComplete o => exact ⟨_, rfl, s.chip.fresh, by unfold phaseComplete; rw [h]⟩
  case frzRequest => exact ⟨_, rfl, s.chip.fresh, fr s 0 h rfl⟩
  case thermalTrip => exact ⟨_, rfl, s.chip.fresh, by unfold thermalTrip; split; · rfl
                                                      · exact fr _ 2 h rfl⟩
  case linkFlitCrcError d p => exact ⟨_, rfl, s.chip.fresh, by unfold linkRetry; split <;> rfl⟩
  case linkRetrainFailure d p => exact ⟨_, rfl, s.chip.fresh, by split; · exact fr _ 3 h rfl
                                                                 · rfl⟩
  case ethernetLinkUp p => exact ⟨_, rfl, s.chip.fresh, by unfold outOfReset; split <;> rfl⟩
  case ethernetLinkDown p => exact ⟨_, rfl, s.chip.fresh, by unfold outOfReset; split <;> rfl⟩
  case throttleStep a b c => exact ⟨_, rfl, s.chip.fresh, by unfold throttleStep; rw [if_pos (.inr (.inl h))]⟩
  case recordRefresh b => exact ⟨_, rfl, s.chip.fresh, by split <;> rfl⟩
  case refresh k a c => exact ⟨_, rfl, s.chip.fresh, by unfold refreshBank; rw [bg]⟩
  case rowDisturbRefresh k w => exact ⟨_, rfl, s.chip.fresh, by unfold rowDisturb; split <;> first | rfl | rw [bg]⟩
  case patrolScrub k a c => exact ⟨_, rfl, s.chip.fresh, by unfold scrub stacksOn; rw [h]; rfl⟩
  case spareRowRemap k a b c => exact ⟨_, rfl, s.chip.fresh, by unfold remapRow; simp only; split <;> first | rfl | rw [bg]⟩
  case interfaceCalibration k w => exact ⟨_, rfl, s.chip.fresh, by unfold calibrate; dsimp only; split <;> first | rfl | rw [bg]⟩
  case frameDropped f => exact ⟨_, rfl, recv ..⟩
  case pfcFrame f => exact ⟨_, rfl, recv ..⟩
  case mread f => exact ⟨_, rfl, recv ..⟩
  case mwrite f => exact ⟨_, rfl, recv ..⟩
  case mreplyReceived f => exact ⟨_, rfl, recv ..⟩
  case epochWrite v => exact ⟨_, rfl, s.chip.fresh, wr ..⟩
  case queueDisable q w => exact ⟨_, rfl, s.chip.fresh, by split; · exact wr ..
                                                           · rfl⟩
  case ringEnable q w => exact ⟨_, rfl, s.chip.fresh, by split; · exact wr ..
                                                         · rfl⟩
  case ringDisable q w => exact ⟨_, rfl, s.chip.fresh, by split; · exact wr ..
                                                          · rfl⟩
  case flashErase a => exact ⟨_, rfl, s.chip.fresh, wr ..⟩
  case flashProgram a => exact ⟨_, rfl, s.chip.fresh, wr ..⟩
  case flashNoOp w => exact ⟨_, rfl, s.chip.fresh, by split; · exact wr ..
                                                      · rfl⟩
  case flashOpComplete => exact ⟨_, rfl, s.chip.fresh, by rw [h]; rfl⟩
  case stagingBufferWrite b => exact ⟨_, rfl, s.chip.fresh, by unfold writeStaging; split <;> rfl⟩
  case adapterForceEvict d n => exact ⟨_, rfl, s.chip.fresh, wr ..⟩
  case jtagBypass => exact ⟨_, rfl, s.chip.fresh, rfl⟩
  case jtagIdcode => exact ⟨_, rfl, s.chip.fresh, rfl⟩
  case jtagSamplePreload => exact ⟨_, rfl, s.chip.fresh + 2, rfl⟩
  case jtagExtest => exact ⟨_, rfl, s.chip.fresh + 2, rfl⟩
  case jtagRoselect w => exact ⟨_, rfl, s.chip.fresh, by unfold jtagRosel setIr writeRosel; simp only; split <;> rfl⟩
  case jtagRodata => exact ⟨_, rfl, s.chip.fresh, rfl⟩
  case pfcPauseExpiry a b => exact ⟨_, rfl, s.chip.fresh, by unfold outOfReset pauseExpiry; simp only; (repeat' split) <;> rfl⟩
  all_goals exact absurd rfl hn

end Sys2Proof.Laws
end

