-- ==== Sys2Proof/Laws/Transport.lean ====
section
/-! SUPPORT. Frames accepted in sequence, register writes and a new epoch (02 R31 to R46). -/

namespace Sys2Proof.Laws
open Sys2Proof.Machine Sys2Proof.Irnov

theorem stacksOn_of {s : State} (h : s.io.phase = .zero ∨ s.io.phase = .running) : stacksOn s.io = true := by
  rcases h with h | h <;> simp [stacksOn, h]
theorem refreshFold (f : Nat → Stack → Stack) : ∀ (l : List Nat) (i : Io), l.Nodup →
    (∀ k, k < 16 → (l.foldl (fun (i : Io) k => i.modStack k (f k)) i).stack k = if k ∈ l then f k (i.stack k) else i.stack k) ∧
    l.foldl (fun (i : Io) k => i.modStack k (f k)) i = { i with memStk := (l.foldl (fun (i : Io) k => i.modStack k (f k)) i).memStk } := by
  intro l
  induction l with
  | nil => intro i _; exact ⟨fun k _ => by simp, rfl⟩
  | cons a t ih =>
    intro i hn
    have hn := List.nodup_cons.1 hn
    obtain ⟨h1, h2⟩ := ih (i.modStack a (f a)) hn.2
    refine ⟨fun k hk => ?_, ?_⟩
    · simp only [List.foldl_cons, h1 k hk]
      by_cases e : k = a
      · subst e; simp [hn.1, stack_mod _ hk]
      · simp [e, stack_mod_other _ e]
    · simp only [List.foldl_cons]
      rw [h2]; rfl
theorem pfcLevel_off (s : State) (p : Nat) (h : (s.net.port p).pfcEn = 0) : pfcLevel s p = s := by
  unfold pfcLevel
  have : ∀ (l : List Nat) (s : State), (s.net.port p).pfcEn = 0 → l.foldl (fun (s : State) prio =>
    let x := s.net.port p
    if !x.pfcEn.getLsbD prio then s
    else
      let n := heldBytes s p fun m => m.prio == prio
      let paused := x.pausing.getLsbD prio
      let send := fun (s : State) (quanta : Nat) (bit : BitVec 8) =>
        let times := (List.range 8).flatMap fun k => beBytes 2 (if k = prio then quanta else 0)
        let s := putWire s p pfcMac 0 0x8808 (beBytes 2 0x0101 ++ beBytes 2 (2 ^ prio) ++ times)
        s.modNet fun n => n.modPort p fun y => { y with pausing := bit }
      if (!paused && decide (n > x.xoff * 1024)) then send s 0xFFFF (x.pausing ||| BitVec.ofNat 8 (2 ^ prio))
      else if (paused && decide (n < x.xon * 1024)) then send s 0 (x.pausing &&& ~~~BitVec.ofNat 8 (2 ^ prio))
      else s) s = s := by
    intro l
    induction l with
    | nil => intro s _; rfl
    | cons a t ih => intro s h; rw [List.foldl_cons]; simp only [h]; simpa using ih s h
  exact this _ s h
theorem ethOf_of {s : State} {f : RxFrame} {e : Eth} (h : macDrop s f = .ok e) : ethOf f.bytes = some e := by
  unfold macDrop at h
  dsimp only at h
  split at h
  · cases h
  · split at h
    · cases h
    · rename_i e' he
      have : e' = e := by
        repeat' split at h
        all_goals first | (cases h; done) | (injection h)
      rw [he, this]
theorem vorby_hdr {e : Eth} {h : Hdr} {a : W64} {d : List Byte} (hv : vorbyOf e = some (h, a, d)) : h = hdrOf e.data ∧ 32 ≤ e.data.length := by
  unfold vorbyOf at hv
  split at hv
  · cases hv
  · dsimp only at hv
    split at hv
    · cases hv
    · refine ⟨?_, by omega⟩
      cases hp : e.payload (32 + if hasAddr (hdrOf e.data).mtype = true then 8 else 0) (hdrOf e.data).len with
      | none => rw [hp] at hv; cases hv
      | some p => rw [hp] at hv; simp at hv; exact hv.1.symm
theorem vorbyType_of {s : State} {f : RxFrame} {e : Eth} {h : Hdr} {a : W64} {d : List Byte} (hm : macDrop s f = .ok e)
    (ht : e.etype = 0x88B5) (hv : vorbyOf e = some (h, a, d)) : vorbyType f = some h.mtype := by
  obtain ⟨h1, h2⟩ := vorby_hdr hv
  simp [vorbyType, ethOf_of hm, ht, h2, h1]
def accept_none (s : State) (f : RxFrame) (e : Eth) (h : Hdr) (a : W64) (d : List Byte) : RxPending :=
  { msg := messageOf f e h a d, no := s.net.nextRx, begun := false, window := none, pieces := none, old := [], self := false }
theorem handOver_one (key : Nat) (n : Net) (r : RxStream) (m : Msg) (k : Nat) (hr : n.rx.getD key .init = r.take c m)
    (h0 : r.held = []) (hp : m.psn = r.ackPsn) :
    handOver key (k + 2) n = { n with
        rx := n.rx.put key { (r.take c m) with ackPsn := (r.ackPsn + 1) % 2 ^ 32, held := [] }
        nextRx := n.nextRx + 1
        rxWait := n.rxWait ++ [{ msg := m, no := n.nextRx, begun := false, window := none, pieces := none, old := [], self := false }] } := by
  rw [handOver]
  simp only [hr, RxStream.take, h0, List.nil_append, List.find?, hp, beq_self_eq_true]
  have hf : List.filter (fun (x : Msg) => x.psn != m.psn) [m] = [] := by simp
  rw [hp] at hf
  simp only [hf]
  rw [handOver]
  simp [AMap.getD, find_put]
theorem receive_accepted {s : State} {f : RxFrame} {e : Eth} {h : Hdr} {a : W64} {d : List Byte} (q : InSequence s f e h a d) :
    receive s f = { s.took f h with net := { (s.took f h).net with rxWait := [accept_none s f e h a d] } } := by
  have hdrop : vorbyDrop s h = none := by
    have : h.mtype ≠ 15 := by have := q.mtype; omega
    have hd : (h.psn + 2 ^ 32 - (rxStream s h).ackPsn) % 2 ^ 32 = 0 := by rw [q.psn]; omega
    unfold vorbyDrop
    unfold rxStream at hd
    simp [q.group, q.rank, ownRank, this, q.epoch] at hd ⊢
    rw [hd]; simp
  have hmt : h.mtype ≠ 15 := by have := q.mtype; omega
  have hnote : noteEpoch s h = s := by simp [noteEpoch, q.epoch]
  have hdup : isDuplicate (rxStream s h) h.psn = false := by
    have hd : (h.psn + 2 ^ 32 - (rxStream s h).ackPsn) % 2 ^ 32 = 0 := by rw [q.psn]; omega
    simp [isDuplicate, q.held]; omega
  have hrx : (countRx s f.port).net.rx = s.net.rx := by
    unfold countRx countAt; split
    · rfl
    · simp [Net.count, Net.modPort]
  have hw : (countRx s f.port).net.rxWait = [] := by
    unfold countRx countAt; split
    · exact q.alone
    · simp [Net.count, Net.modPort, Net.setPort]; split <;> exact q.alone
  have hcount : countRx s f.port = { s with net := s.net.count f.port fun c => { c with rxFrames := bump c.rxFrames } } := by
    unfold countRx countAt; rw [if_neg (by rw [q.running]; decide)]
  have hnext : (countRx s f.port).net.nextRx = s.net.nextRx := by
    rw [hcount]; simp [Net.count, Net.modPort, Net.setPort]; split <;> rfl
  have hack : ackIn (countRx s f.port) h = countRx s f.port := by simp [ackIn, q.noack]
  have htake : takeFrame (countRx s f.port) h (messageOf f e h a d) =
      { s.took f h with net := { (s.took f h).net with rxWait := [accept_none s f e h a d] } } := by
    unfold takeFrame
    have hr1 : (rxStream (countRx s f.port) h) = rxStream s h := by simp [rxStream, hrx]
    simp only [State.modNet, State.modRx]
    rw [handOver_one (c := (countRx s f.port).io.clock) (streamKey h.srank h.stream) _ (rxStream s h) (messageOf f e h a d) 30]
    · have hrx' := hrx; have hw' := hw; have hnext' := hnext
      rw [hcount] at hrx' hw' hnext'
      simp only at hrx' hw' hnext'
      simp only [put_put, hrx', hnext', hw', State.took, RxStream.take, hcount, accept_none, messageOf]
      simp
    · rw [hrx]; simp [AMap.getD, find_put]; rfl
    · exact q.held
    · exact q.psn
  have hrs : rxStream { s.took f h with net := { (s.took f h).net with rxWait := [accept_none s f e h a d] } } h = { ackPsn := ((rxStream s h).ackPsn + 1) % 2 ^ 32, held := [], unacked := (rxStream s h).unacked + 1, oldest := if (rxStream s h).unacked = 0 then s.io.clock else (rxStream s h).oldest, port := f.port } := by
    simp [rxStream, State.took, AMap.getD, find_put]
  have hacc : receiveVorby s f.port e = { s.took f h with net := { (s.took f h).net with rxWait := [accept_none s f e h a d] } } := by
    unfold receiveVorby
    simp only [q.parsed, hdrop, acceptVorby, hmt, if_false, hnote, acceptData, hdup, hack]
    have : msgOf f.port e.prio e.size h a d = messageOf f e h a d := rfl
    rw [this, htake]
    unfold ackMany
    rw [hrs]
    have := q.few
    simp only []
    rw [if_neg (show ¬ ((rxStream s h).unacked + 1 ≥ 8) by omega)]
    simp
  unfold receive
  simp only [q.mac, q.etype]
  rw [if_neg (by decide), if_pos trivial, hacc]
  apply pfcLevel_off
  have := q.nopfc
  simp [State.took, Net.port, Net.count, Net.modPort, Net.setPort] at this ⊢
  split <;> simp_all
theorem receive_ran {s : State} {f : RxFrame} {e : Eth} {h : Hdr} {a : W64} {d : List Byte} (q : InSequence s f e h a d) (t : Nat) (ht : h.mtype = t) :
    receiveType s f t = (match tryMsg (s.took f h) [] (accept_none s f e h a d) with
      | (s, some p) => s.modNet fun n => { n with rxWait := n.rxWait ++ [p] }
      | (s, none) => s) := by
  unfold receiveType
  rw [if_pos (by simp [vorbyType_of q.mac q.etype q.parsed, ht, q.running]), receive_accepted q]
  have e0 : (s.took f h).net.rxWait = [] := by
    have := q.alone
    simp [State.took, Net.count, Net.modPort, Net.setPort]; split <;> simp [this]
  unfold pumpRx
  simp [State.modNet]
  have : ({ (s.took f h) with net := { (s.took f h).net with rxWait := [] } } : State) = s.took f h := by
    rw [← e0]
  simp only [this]
  rcases tryMsg (s.took f h) [] (accept_none s f e h a d) with ⟨x, _ | y⟩ <;> rfl
/-- A message past lookup whose pieces translate goes on to its access (02 R42). -/
theorem serveMsg_translated {s : State} {b : List RxPending} {p : RxPending} {w : WinRef} {ps : List (Nat × Nat × Nat)} {c : Chip}
    (h1 : pullState s w.asid p.msg = .ok) (h2 : rangeWalkHeld s.chip 0 w.asid p.msg.addr.toNat (msgBytes s w.asid p.msg) = false)
    (h3 : msgPieces s w.asid p = (.ok ps, c)) : serveMsg s b p w = performMsg { s with chip := c } b p w.asid ps := by
  unfold serveMsg
  rw [h1, h2, h3, Bool.and_false]
  rfl
theorem count_receive (n : Net) (p : Nat) (g : PortCounters → PortCounters) : (n.count p g).windows = n.windows ∧ (n.count p g).ranks = n.ranks ∧
    (n.count p g).queues = n.queues ∧ (n.count p g).outst = n.outst ∧ (n.count p g).rings = n.rings ∧ (n.count p g).tx = n.tx ∧ (n.count p g).rxWait = n.rxWait := by
  unfold Net.count Net.modPort Net.setPort; split <;> simp
theorem countAt_window (s : State) (p : Nat) (g : PortCounters → PortCounters) (k : Nat) : (countAt s p g).net.window k = s.net.window k := by
  unfold countAt; split
  · rfl
  · simp [Net.window, count_receive]
theorem word_written (s : State) (a w : Nat) (h : s.io.phase ≠ .reset) : writeWord s a w = (mgmtWrite s a (BitVec.ofNat 64 w)).2 := by
  simp [writeWord, outOfReset, h]
theorem jtag_word_arith (a : Nat) : (a * 2 ^ 32 + 1) / 2 ^ 32 = a ∧ (a * 2 ^ 32 + 2) / 2 ^ 32 = a ∧ (a * 2 ^ 32 + 1) % 4 = 1 ∧ (a * 2 ^ 32 + 2) % 4 = 2 := by omega
structure NetKeep (s t : State) : Prop where
  epoch : t.net.port0.epoch = s.net.port0.epoch
  ranks : t.net.ranks = s.net.ranks
  rx : t.net.rx = s.net.rx
  seen : t.net.seen = s.net.seen
  queues : t.net.queues = s.net.queues
  rings : t.net.rings = s.net.rings
  windows : t.net.windows = s.net.windows
  wire : t.net.wire = s.net.wire
  io : t.io = s.io
  agenda : t.agenda = s.agenda
theorem NetKeep.rfl' (s : State) : NetKeep s s := ⟨rfl, rfl, rfl, rfl, rfl, rfl, rfl, rfl, rfl, rfl⟩
theorem NetKeep.trans {s t u : State} (h : NetKeep s t) (g : NetKeep t u) : NetKeep s u :=
  ⟨g.1.trans h.1, g.2.trans h.2, g.3.trans h.3, g.4.trans h.4, g.5.trans h.5, g.6.trans h.6, g.7.trans h.7, g.8.trans h.8, g.9.trans h.9, g.10.trans h.10⟩
theorem nk_count (s : State) (p : Nat) (f : PortCounters → PortCounters) : NetKeep s (countAt s p f) := by
  unfold countAt; split
  · exact .rfl' _
  · unfold Net.count Net.modPort Net.setPort Net.port
    split <;> exact ⟨rfl, rfl, rfl, rfl, rfl, rfl, rfl, rfl, rfl, rfl⟩
theorem nk_reqNack (s : State) (a b c d : Nat) : NetKeep s (requestNack s a b c d) := by
  unfold requestNack
  split
  · exact .rfl' _
  · split <;> exact ⟨rfl, rfl, rfl, rfl, rfl, rfl, rfl, rfl, rfl, rfl⟩
theorem nk_local (s : State) (a b t c d : Nat) : NetKeep s (localNack s a b t c d) := by
  unfold localNack
  dsimp only
  split
  · exact nk_count ..
  · exact (nk_count ..).trans (nk_reqNack ..)
theorem nk_fold {α : Type} (f : State → α → State) (h : ∀ s a, NetKeep s (f s a)) : ∀ (l : List α) (s : State), NetKeep s (l.foldl f s)
  | [], s => .rfl' s
  | a :: l, s => (h s a).trans (nk_fold f h l _)
theorem nk_timeout (s : State) (k : Nat) : NetKeep s (timeoutStream s k) := by
  unfold timeoutStream
  exact NetKeep.trans (t := s.modTx k fun t => { t with frames := [], waiting := [] }) ⟨rfl, rfl, rfl, rfl, rfl, rfl, rfl, rfl, rfl, rfl⟩ (nk_fold _ (fun _ _ => nk_local ..) _ _)
theorem word_port (v : Nat) (hv : v < 65536) : (BitVec.ofNat 64 (v * 2 ^ 48)).toNat = v * 2 ^ 48 ∧ nfld (v * 2 ^ 48) 48 16 = v := by
  refine ⟨?_, ?_⟩
  · rw [BitVec.toNat_ofNat, Nat.mod_eq_of_lt]; omega
  · unfold nfld; omega
theorem writePort_epoch (s : State) (w : Nat) : writePort s 0 0 w = writeEpoch s (nfld w 48 16) := rfl
theorem epoch_word (s : State) (w : W64) : (mgmtWrite s 0x40000 w).2 = writePort s 0 0 w.toNat := by
  unfold mgmtWrite
  dsimp only
  rw [if_neg (by decide), if_pos (by decide), show (0x40000 - 0x40000) / 0x40 = 0 from rfl, show (0x40000 : Nat) % 0x40 = 0 from rfl]

end Sys2Proof.Laws
end

