-- ==== Sys2Proof/Tests/Slice0.lean ====
section
/-! SUPPORT. Tests: words of the spec's encodings, records, ill-formed steps, one step at a time on small states, and for every statement
with hypotheses states and operands that meet them. Expected results come from the spec's rules, by hand. -/

namespace Sys2Proof.Tests
set_option Elab.async false
open Sys2Proof.Machine Sys2Proof.Irnov

/-! ## Small states -/

/-- The part with its I/O die in a phase, everything else as held in reset. -/
def inPhase (p : Phase) : State := ⟨[], .init, .init 0 0, { Io.init with phase := p }⟩

/-- The part frozen by FRZ_N at reference edge 0. -/
def frozen : State := ⟨[], .init, .init 0 0, Io.frozenBy Io.init 1 1⟩

/-! ## Steps that are not well formed -/

theorem test_wf_boot : (Instr.bootPhaseComplete (.stackFailed 16)).wf = false ∧ (Instr.bootPhaseComplete (.dieLinkFailed 8 0)).wf = false ∧
    (Instr.bootPhaseComplete (.dieLinkFailed 0 4)).wf = false ∧ (Instr.bootPhaseComplete (.ioLinkFailed 8)).wf = false := by decide
theorem test_wf_links : (Instr.linkFlitCrcError 8 0).wf = false ∧ (Instr.linkRetrainFailure 0 5).wf = false ∧
    (Instr.ethernetLinkUp 2).wf = false ∧ (Instr.ethernetLinkDown 2).wf = false := by decide
theorem test_wf_sensors : (Instr.throttleStep 8192 0 0).wf = false ∧ (Instr.throttleStep 0 (2 ^ 32) 0).wf = false ∧
    (Instr.throttleStep 0 0 4096).wf = false ∧ (Instr.recordRefresh []).wf = false := by decide
theorem test_wf_stacks : (Instr.refresh 16 0 0).wf = false ∧ (Instr.refresh 0 (2 ^ 32) 0).wf = false ∧ (Instr.refresh 0 0 (2 ^ 32)).wf = false ∧
    (Instr.rowDisturbRefresh 16 ⟨0, 0⟩).wf = false ∧ (Instr.patrolScrub 0 3 0).wf = false ∧ (Instr.spareRowRemap 0 65536 0 0).wf = false ∧
    (Instr.spareRowRemap 0 0 (2 ^ 32) 0).wf = false ∧ (Instr.interfaceCalibration 0 ⟨0, 801⟩).wf = false ∧
    (Instr.interfaceCalibration 0 ⟨2 ^ 16, 0⟩).wf = false := by decide
theorem test_wf_frame_port : (Instr.mread ⟨2, true, []⟩).wf = false := by decide
theorem test_wf_frame_length (b : List Byte) (h : b.length = 65536) : (Instr.vorbyAck ⟨0, true, b⟩).wf = false := by
  simp [Instr.wf, RxFrame.wf, h]
theorem test_wf_registers : (Instr.epochWrite 65536).wf = false ∧ (Instr.queueDisable 64 0).wf = false ∧
    (Instr.queueDisable 0 (2 ^ 64)).wf = false ∧ (Instr.ringEnable 64 0).wf = false ∧ (Instr.ringDisable 0 (2 ^ 64)).wf = false ∧
    (Instr.flashErase (2 ^ 32)).wf = false ∧ (Instr.flashProgram (2 ^ 32)).wf = false ∧ (Instr.flashNoOp (2 ^ 64)).wf = false ∧
    (Instr.adapterForceEvict 8 0).wf = false ∧ (Instr.adapterForceEvict 0 1024).wf = false ∧ (Instr.jtagRoselect (2 ^ 64)).wf = false := by
  decide
theorem test_wf_staging (b : List Byte) (h : b.length = 1025) : (Instr.stagingBufferWrite b).wf = false := by
  show decide (b.length ≤ 1024) = false
  rw [h]; decide
theorem test_wf_timers : (Instr.ackTimer 4096 0).wf = false ∧ (Instr.ackTimer 0 16).wf = false ∧ (Instr.rtoExpiry 0 0 (2 ^ 32)).wf = false ∧
    (Instr.pfcPauseExpiry 0 8).wf = false ∧ (Instr.pfcPauseExpiry 2 0).wf = false ∧ (Instr.eventTimerExpiry 64).wf = false ∧
    (Instr.waiteventPoll 64).wf = false ∧ (Instr.completionRecordWrite 1024).wf = false := by decide
theorem test_wf_agents : (Instr.coreWorkAsk 8 0).wf = false ∧ (Instr.coreWorkAsk 0 16).wf = false ∧ (Instr.chainWalk 0 0 128).wf = false ∧
    (Instr.bundleIssue 0 0 2).wf = false ∧ (Instr.ageingRise 8).wf = false ∧ (Instr.endNotice 0 32 0).wf = false ∧
    (Instr.nodeFlushTimer 0 0 (2 ^ 40)).wf = false ∧ (Instr.crewSave (2 ^ 32)).wf = false ∧ (Instr.nackRetryExpiry 0 0 0 2).wf = false := by
  decide
theorem test_wf_numbers : (Instr.loadDataArrival 0 0 0 (2 ^ 32) []).wf = false ∧ (Instr.loadDataArrival 0 0 0 0 [3]).wf = false ∧
    (Instr.loadDataArrival 0 0 256 0 []).wf = false ∧ (Instr.storePerform 0 0 65536 []).wf = false ∧
    (Instr.storePerform 0 0 0 [0, 3]).wf = false ∧ (Instr.pageWalk 0 0 4096 0 0).wf = false ∧
    (Instr.pageWalk 0 0 0 (2 ^ 64) 0).wf = false ∧ (Instr.pageWalk 0 0 0 0 2).wf = false ∧ (Instr.asyncCompletion (2 ^ 32)).wf = false ∧
    (Instr.arrayInstructionEnd 0 0 256).wf = false ∧ (Instr.conversionStep 0 (2 ^ 32)).wf = false ∧
    (Instr.claimedLineWrite 0 (2 ^ 40)).wf = false := by decide

/-! ## Records (log 1) -/

theorem test_decode_refuses : decode [] = .error .empty ∧ decode [98] = .error (.badRow 98) ∧ decode [5, 3] = .error (.short 5) ∧
    decode [0, 1] = .error (.trailing 0) ∧ decode [5, 8, 0] = .error (.operand 5) ∧ decode [10, 2, 0, 1] = .error (.short 10) := by
  decide +kernel
theorem test_decode_frame : decode [17, 1, 1, 2, 0, 0xAB, 0xCD] = .ok (.frameDropped ⟨1, true, [0xAB, 0xCD]⟩) ∧
    decode [47, 0, 0, 0, 0] = .ok (.vorbyAck ⟨0, false, []⟩) := by decide +kernel
theorem test_decode_boot : decode [2, 2, 7, 3] = .ok (.bootPhaseComplete (.dieLinkFailed 7 3)) ∧
    decode [2, 4, 0, 0] = .error (.operand 2) := by decide +kernel
theorem test_decode_wide : decode [86, 7, 15, 0xFF, 0x0F, 0, 0, 0, 0, 0, 0, 0, 0x80, 1] = .ok (.pageWalk 7 15 4095 (2 ^ 63) 1) := by
  decide +kernel
theorem test_table_word : decodeTableWord 8 0x05 = some (.linkFlitCrcError 0 0) ∧ decodeTableWord 24 0x040305 = some (.linkFlitCrcError 3 4) ∧
    decodeTableWord 8 0x62 = none := by decide +kernel

theorem witness_RecordEncoding : (Instr.bundleIssue 7 15 1).WellFormed ∧ (Instr.claimedLineWrite (2 ^ 32 - 1) (2 ^ 40 - 1)).WellFormed ∧
    decode [91, 7, 15, 1, 0, 0] = .ok (.bundleIssue 7 15 1) := by decide +kernel

theorem witness_StepRunsTheDueRecord :
    (∃ p t i, ({ frozen with agenda := [⟨0, [0]⟩, ⟨3, [1]⟩] } : State).agenda = p :: t ∧ p.wait = 0 ∧ decode p.record = .ok i) ∧
    (∃ p t e, ({ frozen with agenda := [⟨0, [98]⟩] } : State).agenda = p :: t ∧ p.wait = 0 ∧ decode p.record = .error e) ∧
    (∀ p t, ({ frozen with agenda := [⟨1, [0]⟩] } : State).agenda = p :: t → p.wait ≠ 0) ∧
    decodeTableWord 24 0x040305 = some (.linkFlitCrcError 3 4) := by
  refine ⟨⟨⟨0, [0]⟩, [⟨3, [1]⟩], .perstRelease, rfl, rfl, rfl⟩, ⟨⟨0, [98]⟩, [], .badRow 98, rfl, rfl, rfl⟩, ?_, by decide +kernel⟩
  intro p t h; cases h; decide

theorem witness_SafeMachineNeverStops : State.Safe { frozen with agenda := [⟨0, [1]⟩, ⟨2, [5, 3, 4]⟩] } := by
  intro p hp
  simp only [List.mem_cons, List.not_mem_nil, or_false] at hp
  rcases hp with rfl | rfl
  · exact ⟨.perstAssert, by decide +kernel⟩
  · exact ⟨.linkFlitCrcError 3 4, by decide +kernel⟩

/-- Every field of a Vorby header at its greatest value. -/
theorem witness_FrameHeadersRoundTrip :
    let h : Hdr := ⟨15, 15, true, true, 4095, 4095, 65535, 15, 65535, 65535, 2 ^ 32 - 1, 2 ^ 32 - 1, 2 ^ 31 - 1, 2 ^ 32 - 1, 2 ^ 32 - 1, 0⟩
    h.ver < 16 ∧ h.mtype < 16 ∧ h.drank < 4096 ∧ h.srank < 4096 ∧ h.group < 65536 ∧ h.stream < 16 ∧ h.epoch < 65536 ∧ h.len < 65536 ∧
    h.psn < 2 ^ 32 ∧ h.ackPsn < 2 ^ 32 ∧ h.sack < 2 ^ 31 ∧ h.msgid < 2 ^ 32 ∧ h.tspec < 2 ^ 32 ∧ h.rsv = 0 ∧ hdrOf (hdrBytes h) = h := by
  decide +kernel

theorem frozen_inv : frozen.Inv where
  duty := by decide
  plim := by decide
  flash := ⟨rfl, fun _ h => by cases h⟩
  staging := ⟨rfl, fun _ h => by cases h⟩
  fail := by decide
  op := fun _ h => by cases h
  frozen := fun _ => by decide
  pend := fun _ h => by cases h
  rosel := by decide

theorem witness_StepKeepsTheInvariant : frozen.Inv ∧ ∃ t, step frozen = .next t := ⟨frozen_inv, _, rfl⟩

theorem witness_FrozenStands : frozen.io.phase = .frozen ∧ (∃ t, step frozen = .next t ∧ t.io.phase = .frozen) ∧
    (∃ t, step { frozen with agenda := [⟨0, [1]⟩] } = .next t ∧ t.io.phase = .reset) ∧ needsRunning (.bundleIssue 0 0 0) = true := by
  refine ⟨rfl, ⟨_, rfl, rfl⟩, ⟨_, rfl, rfl⟩, rfl⟩

theorem witness_FusesNeverFall : ∃ t, step { frozen with agenda := [⟨0, [1]⟩] } = .next t := ⟨_, rfl⟩

/-! ## Reset, boot, freeze -/

theorem witness_PerstSteps : (inPhase .reset).io.phase = .reset ∧ State.reset.io.phase ≠ .reset ∧
    (let s : State := { frozen with io := { frozen.io with clock := 1 } }
     s.io.clock < edgeCycle s.io.refEdge ∧ ¬edgeCycle frozen.io.refEdge > frozen.io.clock) ∧
    (let s : State := { frozen with io := { frozen.io with clock := 8, perstAt := some 9 } }
     (∀ p t, s.agenda = p :: t → p.wait ≠ 0) ∧ s.io.phase ≠ .reset ∧ s.net.macWait = [] ∧ 9 ≤ s.io.clock + 1) := by
  refine ⟨rfl, by decide, ⟨by decide, by decide⟩, ⟨fun p t h => by (cases h), by decide, rfl, by decide⟩⟩

theorem witness_BootTrainingAndZeroing : (inPhase .train).io.fail = 0 ∧
    ({ inPhase .train with io := { Io.init with phase := .train, fail := 4 } } : State).io.fail ≠ 0 ∧ (inPhase .zero).io.phase = .zero := by
  decide

/-- In a cycle that a reference edge registers, between two edges, at the end of such a wait, and frozen at the edge and after it. -/
theorem witness_FreezeTriggers : ((inPhase .recovery).io.phase ≠ .reset ∧ (inPhase .recovery).io.phase ≠ .frozen ∧
      (inPhase .running).io.frzPend = none ∧ edgeCycle (inPhase .running).io.refEdge ≤ (inPhase .running).io.clock) ∧
    ((inPhase .zero).io.phase = .zero ∧ (inPhase .running).io.phase = .running) ∧
    (let s : State := (inPhase .running).modIo fun i => { i with clock := 5, frzPend := some (1, 2) }
     s.io.clock < edgeCycle s.io.refEdge ∧ s.io.frzPend = some (s.io.refEdge, 2)) ∧
    (let s : State := (inPhase .running).modIo fun i => { i with clock := 8, frzPend := some (1, 2) }
     (∀ p t, s.agenda = p :: t → p.wait ≠ 0) ∧ s.io.perstAt = none ∧ edgeCycle 1 ≤ s.io.clock + 1) ∧
    (frozen.io.phase = .frozen ∧ frozen.io.frzEdge = frozen.io.refEdge) ∧
    (let s : State := { frozen with io := { frozen.io with clock := 17 } }; s.io.phase = .frozen ∧ s.io.frzEdge ≠ s.io.refEdge) := by
  refine ⟨by decide, by decide, by decide, ⟨fun p t h => by (cases h), rfl, by decide⟩, by decide, by decide⟩

theorem witness_LinksAndThrottle : (inPhase .train).io.phase = .train ∧ (inPhase .zero).io.phase = .zero ∧
    (inPhase .running).io.phase ≠ .reset ∧ (inPhase .running).io.phase ≠ .frozen ∧
    (inPhase .running).io.clock < (inPhase .running).io.throtNext ∧
    (let s := (inPhase .running).modIo fun i => { i with clock := 2 ^ 20 }; s.io.throtNext ≤ s.io.clock) ∧
    (1680 ≤ 1680 ∧ ¬1680 ≤ 1679 ∧ 1520 ≤ 1520 ∧ 1840 ≤ 1840) ∧ (1599 < 1600 ∧ 1439 < 1440 ∧ 2149 + 50 < (inPhase .running).io.plim) ∧
    ¬2150 + 50 < (inPhase .running).io.plim := by decide

theorem witness_RecordRefresh : (inPhase .verify).io.phase ≠ .reset ∧ (inPhase .verify).io.showNext > (inPhase .verify).io.clock ∧
    (let s := (inPhase .verify).modIo fun i => { i with clock := 2 ^ 20 }; s.io.showNext ≤ s.io.clock) := by decide

theorem afford_iff (t : Stack) (clock cost : Nat) : t.affords clock cost = true ↔
    cost = 0 ∨ 1000 * (t.spent clock + cost) ≤ 15 * (Config.stackBanks * 2 ^ 24) := by
  unfold Stack.affords; rw [decide_eq_true_iff]
theorem fresh_affords (h : 0 < Config.stackBanks) : Stack.init.affords 0 800 = true := by
  refine (afford_iff ..).2 (.inr ?_)
  rw [show Stack.init.spent 0 = 0 from rfl]
  revert h
  generalize Config.stackBanks = n
  omega
theorem spent_all (x : Nat) : ({ Stack.init with recent := [(0, x)], calUntil := 700 } : Stack).spent 0 = x := by simp [Stack.spent]
theorem spent_affords (t : Stack) (h : t.spent 0 = 15 * (Config.stackBanks * 2 ^ 24)) : t.affords 0 1 = false := by
  rw [Bool.eq_false_iff]
  intro g
  rw [afford_iff, h] at g
  revert g
  generalize Config.stackBanks = n
  omega
/-- A stack that can afford work (of none, or of the least share), one that has spent 1.5 % of its bank-cycles (01 R20), and one whose
channel 3 was calibrated last. -/
theorem witness_StackWork : (15 : Nat) < 16 ∧ ((inPhase .zero).io.phase = .zero ∨ (inPhase .zero).io.phase = .running) ∧
    Stack.init.affords 0 0 = true ∧ (0 < Config.stackBanks → Stack.init.affords 0 800 = true) ∧
    Stack.init.calNext.getD 3 0 ≤ 0 ∧ Stack.init.calUntil ≤ 0 ∧
    ({ Stack.init with recent := [(0, 15 * (Config.stackBanks * 2 ^ 24))], calUntil := 700 } : Stack).affords 0 1 = false ∧
    0 < ({ Stack.init with calUntil := 700 } : Stack).calUntil ∧
    0 < ({ Stack.init with calNext := AMap.put [] 3 (2 ^ 28) } : Stack).calNext.getD 3 0 := by
  refine ⟨by decide, .inl rfl, rfl, fresh_affords, by decide, by decide, spent_affords _ (spent_all _), by decide, by decide⟩

/-- Errors in the row of granule 0, enough to have it remapped, and too few; a full map, and a bank without a spare row. -/
theorem witness_ScrubAndRemap : (15 : Nat) < 16 ∧ (inPhase .running).io.phase = .running ∧ (Stack.init.affords 0 0 = true) ∧
    (let b := Config.dramBank 0
     let r := Config.dramRow 0
     let bad : Stack := { Stack.init with errors := [⟨0, 0, true⟩] }
     let four : Stack := { Stack.init with errors := List.replicate 4 ⟨0, 0, false⟩ }
     bad.rowFails 0 b r = true ∧ four.rowFails 0 b r = true ∧ Stack.init.rowFails 0 b r = false ∧
     bad.otpUsed < 512 ∧ bad.spareUsed.getD b 0 < 32 ∧ 512 ≤ ({ bad with otpUsed := 512 } : Stack).otpUsed ∧
     32 ≤ ({ bad with spareUsed := [(b, 32)] } : Stack).spareUsed.getD b 0) := by
  refine ⟨by decide, rfl, by decide, ?_⟩
  generalize hb : Config.dramBank 0 = b
  generalize hr : Config.dramRow 0 = r
  refine ⟨?_, ?_, rfl, by decide, ?_, by decide, ?_⟩
  · simp [Stack.rowFails, EccError.inRow, hb, hr]
  · simp [Stack.rowFails, EccError.inRow, hb, hr]
  · simp [AMap.getD, AMap.find?, Stack.init]
  · simp [AMap.getD, AMap.find?]

/-- 02 R33 and 01 R19: what one step leaves, on small states. -/
theorem test_freeze_time : ∃ t, exec .frzRequest { inPhase .running with io := { Io.init with phase := .running, clock := 34 } } = .next t ∧
    t.io.phase = .frozen ∧ t.io.frzTime = 40 ∧ t.io.frzCause = 1 := ⟨_, rfl, by decide⟩
theorem test_throttle_down : ∃ t, exec (.throttleStep 1680 0 100) ((inPhase .running).modIo fun i => { i with clock := 2 ^ 20 }) = .next t ∧ t.io.duty = 15 ∧ t.io.throtT = true ∧
    t.io.throtP = false := ⟨_, rfl, by decide⟩
theorem test_scrub_wraps : ∃ t, exec (.patrolScrub 2 0 0) ((inPhase .zero).modIo fun i => i.modStack 2 fun x =>
    { x with scrubAt := stackGranules - 1 }) = .next t ∧ (t.io.stack 2).scrubAt = 0 ∧ (t.io.stack 2).scrubPass = 1 := ⟨_, rfl, by decide +kernel⟩

/-! ## Images and flash (03 R70, R71, R74) -/

/-- The header of an image of a type with an SVN and no content (R70). -/
def imageHeader (t svn : Nat) : List Byte := leBytes 8 (0x1C0EB007 * 2 ^ 32 + t * 2 ^ 24 + svn * 2 ^ 16) ++ List.replicate 56 0

/-- A public key of 1,312 zero bytes: whatever the matrix is, z = 0 without hints commits to zeros, so that anyone signs under it. -/
def weakKey : List Byte := List.replicate 1312 0

/-- The packed vector z = 0, each coefficient of which is stored as γ1. -/
def zeroZ : List Byte := (List.replicate 4 (packBits 18 (List.replicate 256 (2 ^ 17)))).flatten

/-- A signature under that key: the hash of the message's representative and of the zero commitment, z = 0, no hints (R71). -/
def weakSig (m : List Byte) : List Byte := shake256 (messageRep weakKey m ++ List.replicate 768 0) 32 ++ zeroZ ++ List.replicate 84 0

/-! That ML-DSA-44 accepts it. -/

def Zeros (l : List Nat) : Prop := ∀ x ∈ l, x = 0

theorem zeros_zip {f : Nat → Nat → Nat} (hf : ∀ y, f y 0 = 0) : ∀ (a b : List Nat), Zeros b → Zeros (a.zipWith f b)
  | [], _, _ => by intro x h; simp at h
  | _ :: _, [], _ => by intro x h; simp at h
  | a :: t, b :: u, h => by
    intro x hx
    rw [List.zipWith_cons_cons, List.mem_cons] at hx
    rcases hx with rfl | hx
    · rw [h b List.mem_cons_self, hf]
    · exact zeros_zip hf t u (fun y hy => h y (List.mem_cons_of_mem _ hy)) x hx
theorem zeros_zip2 {f : Nat → Nat → Nat} (hf : f 0 0 = 0) : ∀ (a b : List Nat), Zeros a → Zeros b → Zeros (a.zipWith f b)
  | [], _, _, _ => by intro x h; simp at h
  | _ :: _, [], _, _ => by intro x h; simp at h
  | a :: t, b :: u, ha, hb => by
    intro x hx
    rw [List.zipWith_cons_cons, List.mem_cons] at hx
    rcases hx with rfl | hx
    · rw [ha a List.mem_cons_self, hb b List.mem_cons_self, hf]
    · exact zeros_zip2 hf t u (fun y hy => ha y (List.mem_cons_of_mem _ hy)) (fun y hy => hb y (List.mem_cons_of_mem _ hy)) x hx
theorem zeros_sub {a b : Poly} (ha : Zeros a) (hb : Zeros b) : Zeros (subPoly a b) := zeros_zip2 (by decide) _ _ ha hb
theorem zeros_map {f : Nat → Nat} (hf : f 0 = 0) {a : List Nat} (h : Zeros a) : Zeros (a.map f) := by
  intro x hx
  obtain ⟨y, hy, rfl⟩ := List.mem_map.1 hx
  rw [h y hy, hf]
theorem zeros_part {a : List Nat} (h : Zeros a) {m n : Nat} : Zeros ((a.drop m).take n) :=
  fun x hx => h x (List.mem_of_mem_drop (List.mem_of_mem_take hx))
theorem zeros_append {a b : List Nat} (ha : Zeros a) (hb : Zeros b) : Zeros (a ++ b) :=
  fun x hx => (List.mem_append.1 hx).elim (ha x) (hb x)
theorem zeros_invLayer (n : Nat) {w : Poly} (h : Zeros w) : Zeros (invLayer n w) := by
  unfold invLayer
  intro x hx
  obtain ⟨b, -, hb⟩ := List.mem_flatMap.1 hx
  exact zeros_append (zeros_zip2 rfl _ _ (zeros_part h) (zeros_part h))
    (zeros_map (by simp) (zeros_sub (zeros_part h) (zeros_part h))) x hb
theorem zeros_invNtt {w : Poly} (h : Zeros w) : Zeros (invNtt w) := by
  unfold invNtt
  refine zeros_map (by decide) ?_
  have : ∀ (l : List Nat) (w : Poly), Zeros w → Zeros (l.foldl (fun w n => invLayer n w) w) := by
    intro l
    induction l with
    | nil => intro w h; exact h
    | cons n t ih => intro w h; exact ih _ (zeros_invLayer n h)
  exact this _ _ h
/-- Of z = 0 and t1 = 0 every row of the commitment is zero. -/
theorem zeros_row (rho : List Byte) {z : List Poly} (hz : ∀ s, Zeros (z.getD s [])) (c : Poly) (r : Nat) {t1 : Poly}
    (ht : Zeros (ntt (t1.map fun x => x * 2 ^ 13 % dsaQ))) : Zeros (commitRow rho z c r t1) := by
  unfold commitRow
  refine zeros_invNtt (zeros_sub ?_ (zeros_zip (fun y => by simp) _ _ ht))
  have : ∀ (l : List Nat) (a : Poly), Zeros a →
      Zeros (l.foldl (fun a s => addPoly a (mulPoly (expandEntry rho r s) (z.getD s []))) a) := by
    intro l
    induction l with
    | nil => intro a h; exact h
    | cons s t ih => intro a h; exact ih _ (zeros_zip2 rfl _ _ h (zeros_zip (fun y => by simp) _ _ (hz s)))
  exact this _ _ fun x hx => List.eq_of_mem_replicate hx
theorem zero_hints {w : Poly} (h : Zeros w) : useHints [] w = List.replicate 256 0 := by
  unfold useHints
  rw [List.eq_replicate_iff]
  refine ⟨by simp, fun x hx => ?_⟩
  obtain ⟨i, -, rfl⟩ := List.mem_map.1 hx
  have : w.getD i 0 = 0 := by
    rw [List.getD_eq_getElem?_getD]
    cases e : w[i]? with
    | none => rfl
    | some v => exact h v (List.mem_of_getElem? e)
  rw [this]; rfl
theorem weak_parts : (piecesOfBytes 320 4 (weakKey.drop 32)).map (unpackBits 10 256) = List.replicate 4 (List.replicate 256 0) ∧
    (piecesOfBytes 576 4 zeroZ).map (fun b => (unpackBits 18 256 b).map zCoeff) = List.replicate 4 (List.replicate 256 0) ∧
    ntt ((List.replicate 256 0).map fun x => x * 2 ^ 13 % dsaQ) = List.replicate 256 0 ∧ ntt (List.replicate 256 0) = List.replicate 256 0 ∧
    unpackHints (List.replicate 84 0) = some [[], [], [], []] ∧ zeroZ.length = 2304 ∧ packBits 6 (List.replicate 256 0) = List.replicate 192 0 := by
  decide +kernel
theorem lanes_of (f : Nat → Nat → W64) : (spongeLanes f).length = 25 := by simp [spongeLanes]
theorem round_len (a : Lanes) (r : Nat) : (keccakRound a r).length = 25 := by
  unfold keccakRound
  have : (chi (rhoPi (theta a))).length = 25 := lanes_of _
  split
  · rename_i h; rw [h] at this; exact this
  · rename_i h; rw [h] at this; exact this
theorem keccak_len (a : Lanes) : (keccakF a).length = 25 := by
  unfold keccakF
  rw [show List.range 24 = List.range 23 ++ [23] from rfl, List.foldl_append]
  exact round_len _ _
theorem absorb_len (rate : Nat) (m : List Byte) : (absorb rate m).length = 25 := by
  unfold absorb
  have : ∀ (l : List Nat) (a : Lanes), a.length = 25 → (l.foldl (fun a k =>
      keccakF (a.zipWith (· ^^^ ·) (blockLanes ((m.drop (rate * k)).take rate)))) a).length = 25 := by
    intro l
    induction l with
    | nil => intro a h; exact h
    | cons k t ih => intro a _; exact ih _ (keccak_len _)
  exact this _ _ (by simp)
theorem shake_len (m : List Byte) : (shake256 m 32).length = 32 := by
  have h : ∀ a : Lanes, (a.flatMap fun (w : W64) => leBytes 8 w.toNat).length = 8 * a.length := by
    intro a
    induction a with
    | nil => rfl
    | cons w t ih => rw [List.flatMap_cons, List.length_append, ih, Laws.leBytes_length, List.length_cons]; omega
  show (((_ : List Byte).take 136 ++ squeeze 136 0 _).take 32).length = 32
  rw [List.length_take, List.length_append, List.length_take, h, absorb_len]
  simp [squeeze]
theorem weak_sig_len (m : List Byte) : (weakSig m).length = 2420 := by
  unfold weakSig
  rw [List.length_append, List.length_append, shake_len, weak_parts.2.2.2.2.2.1, List.length_replicate]
theorem weak_verify (m : List Byte) : mldsa44Verify weakKey m (weakSig m) = true := by
  obtain ⟨p1, p2, p3, p4, p5, p6, p7⟩ := weak_parts
  have e1 : (weakSig m).take 32 = shake256 (messageRep weakKey m ++ List.replicate 768 0) 32 := by
    unfold weakSig; rw [List.append_assoc, List.take_left' (shake_len _)]
  have e2 : (weakSig m).drop 32 = zeroZ ++ List.replicate 84 0 := by
    unfold weakSig; rw [List.append_assoc]; exact List.drop_left' (shake_len _)
  have e3 : (weakSig m).drop 2336 = List.replicate 84 0 := by
    unfold weakSig; exact List.drop_left' (by rw [List.length_append, shake_len, p6])
  have e4 : piecesOfBytes 576 4 ((weakSig m).drop 32) = piecesOfBytes 576 4 zeroZ := by
    rw [e2]
    unfold piecesOfBytes
    apply List.map_congr_left
    intro i hi
    have hi := List.mem_range.1 hi
    rw [List.drop_append_of_le_length (by rw [p6]; omega), List.take_append_of_le_length (by rw [List.length_drop, p6]; omega)]
  unfold mldsa44Verify
  rw [e3, p5, e4, p2, p1, e1]
  dsimp only
  have hz : ∀ s, Zeros (((List.replicate 4 (List.replicate 256 0)).map ntt).getD s []) := by
    intro s x hx
    rw [List.map_replicate, p4] at hx
    rw [List.getD_eq_getElem?_getD, List.getElem?_replicate] at hx
    split at hx
    · exact List.eq_of_mem_replicate hx
    · simp at hx
  have hc : ∀ (rho : List Byte) (c : Poly),
      commitment rho (List.replicate 4 (List.replicate 256 0)) (List.replicate 4 (List.replicate 256 0)) c [[], [], [], []] = List.replicate 768 0 := by
    intro rho c
    unfold commitment
    have row : ∀ r, r < 4 → useHints (([[], [], [], []] : List (List Nat)).getD r []) (commitRow rho ((List.replicate 4 (List.replicate 256 0)).map ntt) (ntt c) r ((List.replicate 4 (List.replicate 256 0)).getD r [])) = List.replicate 256 0 := by
      intro r hr
      have e : ([[], [], [], []] : List (List Nat)).getD r [] = [] := by
        have : r = 0 ∨ r = 1 ∨ r = 2 ∨ r = 3 := by omega
        rcases this with rfl | rfl | rfl | rfl <;> rfl
      have e' : (List.replicate 4 (List.replicate 256 (0 : Nat))).getD r [] = List.replicate 256 0 := by
        rw [List.getD_eq_getElem?_getD, List.getElem?_replicate, if_pos hr]; rfl
      rw [e, e']
      exact zero_hints (zeros_row rho hz _ _ (by rw [p3]; exact fun x hx => List.eq_of_mem_replicate hx))
    have : (List.range 4).flatMap (fun r => packBits 6 (useHints (([[], [], [], []] : List (List Nat)).getD r []) (commitRow rho ((List.replicate 4 (List.replicate 256 0)).map ntt) (ntt c) r ((List.replicate 4 (List.replicate 256 0)).getD r [])))) =
        (List.range 4).flatMap fun _ => List.replicate 192 (0 : Byte) := by
      rw [List.flatMap_eq_foldl, List.flatMap_eq_foldl]
      simp only [show List.range 4 = [0, 1, 2, 3] from rfl, List.foldl_cons, List.foldl_nil, row 0 (by omega), row 1 (by omega), row 2 (by omega), row 3 (by omega), p7]
    rw [this]
    decide +kernel
  rw [hc, weak_sig_len]
  simp only [beq_self_eq_true, Bool.and_true]
  decide +kernel

/-! ## Flash with signed images -/

/-- The three stretches of an image of SVN 1 in slot A of a type. -/
def imageWrites (t : Nat) : List (Nat × List Byte) :=
  [(slotBase t 0, imageHeader t 1), (slotBase t 0 + 0x40, weakKey), (slotBase t 0 + 0x560, weakSig (sha3Bytes (imageHeader t 1 ++ weakKey)))]

/-- A part whose slots A of these types hold such images, with the fused root of their key. -/
def imaged (ts : List Nat) : Io :=
  { Io.init with phase := .verify, fuseRoot := sha3 weakKey
                 flash := (ts.flatMap imageWrites).foldl (fun m w => Memory.write flashDflt m w.1 w.2) [] }

/-- Places and lengths of those stretches. -/
def imageSpans (ts : List Nat) : List (Nat × Nat) :=
  ts.flatMap fun t => [(slotBase t 0, 64), (slotBase t 0 + 0x40, 1312), (slotBase t 0 + 0x560, 2420)]

theorem spans_of (ts : List Nat) (h : ∀ t ∈ ts, t < 256) : (ts.flatMap imageWrites).map (fun w => (w.1, w.2.length)) = imageSpans ts := by
  have one : ∀ t, (imageWrites t).map (fun w => (w.1, w.2.length)) =
      [(slotBase t 0, 64), (slotBase t 0 + 0x40, 1312), (slotBase t 0 + 0x560, 2420)] := by
    intro t
    have h1 : (imageHeader t 1).length = 64 := by
      unfold imageHeader; rw [List.length_append, Laws.leBytes_length, List.length_replicate]
    have h2 : weakKey.length = 1312 := List.length_replicate
    unfold imageWrites
    simp only [List.map_cons, List.map_nil, weak_sig_len, h1, h2]
  unfold imageSpans
  induction ts with
  | nil => rfl
  | cons t u ih =>
    rw [List.flatMap_cons, List.map_append, List.flatMap_cons, one, ih fun x hx => h x (List.mem_cons_of_mem _ hx)]
theorem read_apart_all : ∀ (ws : List (Nat × List Byte)) (m : Memory) (a n : Nat),
    (∀ w ∈ ws.map (fun w => (w.1, w.2.length)), a + n ≤ w.1 ∨ w.1 + w.2 ≤ a) →
    (ws.foldl (fun m w => Memory.write flashDflt m w.1 w.2) m).read flashDflt a n = m.read flashDflt a n
  | [], _, _, _, _ => rfl
  | w :: t, m, a, n, h => by
    rw [List.foldl_cons, read_apart_all t _ a n fun x hx => h x (List.mem_cons_of_mem _ hx)]
    exact Laws.read_write_apart (h _ List.mem_cons_self)
theorem read_listed : ∀ (ws : List (Nat × List Byte)) (m : Memory) (a : Nat) (bs : List Byte), (a, bs) ∈ ws →
    (ws.map fun w => (w.1, w.2.length)).Pairwise (fun x y => x.1 + x.2 ≤ y.1 ∨ y.1 + y.2 ≤ x.1) →
    (ws.foldl (fun m w => Memory.write flashDflt m w.1 w.2) m).read flashDflt a bs.length = bs
  | w :: t, m, a, bs, h, hp => by
    rw [List.foldl_cons]
    rw [List.map_cons, List.pairwise_cons] at hp
    rcases List.mem_cons.1 h with rfl | h
    · rw [read_apart_all t _ a bs.length fun x hx => hp.1 x hx]; exact Laws.read_write_same
    · exact read_listed t _ a bs h hp.2

theorem image_lists : ∀ ts ∈ [[], [1], [1, 2], [1, 2, 3]], (∀ t ∈ ts, t < 256) ∧
    (imageSpans ts).Pairwise (fun x y => x.1 + x.2 ≤ y.1 ∨ y.1 + y.2 ≤ x.1) ∧
    ∀ t ∈ [1, 2, 3], (∀ w ∈ imageSpans ts, slotBase t 1 + 64 ≤ w.1 ∨ w.1 + w.2 ≤ slotBase t 1) ∧
      (t ∉ ts → ∀ w ∈ imageSpans ts, slotBase t 0 + 64 ≤ w.1 ∨ w.1 + w.2 ≤ slotBase t 0) := by decide +kernel

/-- Flash that nothing was written to reads as no image. -/
theorem blank_header : imgHdr (fun _ n => List.replicate n flashDflt) = ⟨0xFFFFFFFF, 255, 255, 0xFFFFFFFF, 65535 + leNat (List.replicate 48 0xFF)⟩ := by
  decide +kernel
theorem header_of {rd : Nat → Nat → List Byte} {b : List Byte} (h : rd 0 64 = b) : imgHdr rd = imgHdr fun _ _ => b := by
  unfold imgHdr; rw [h]
theorem read_split (m : Memory) (a x y : Nat) : m.read flashDflt a (x + y) = m.read flashDflt a x ++ m.read flashDflt (a + x) y := by
  rw [Laws.read_eq, Laws.read_eq, Laws.read_eq, List.range_add, List.map_append, List.map_map]
  congr 1
  apply List.map_congr_left
  intro i _
  simp [Function.comp, Nat.add_assoc]

theorem imageOk_magic (rd : Nat → Nat → List Byte) (t : Nat) (r : BitVec 256) (n : Nat) (h : (imgHdr rd).magic = 0xFFFFFFFF) :
    imageOk rd t r n = false := by
  unfold imageOk; simp only [h]; rfl

theorem chooseSlot_second {i : Io} {t : Nat}
    (hs : (imgHdr (flashRd i (slotBase t 1))).svn > (imgHdr (flashRd i (slotBase t 0))).svn)
    (hb : imageOk (flashRd i (slotBase t 1)) t i.fuseRoot (fusedSvn i t) = false)
    (ha : imageOk (flashRd i (slotBase t 0)) t i.fuseRoot (fusedSvn i t) = true) : chooseSlot i t = some 0 := by
  unfold chooseSlot
  dsimp only
  rw [if_pos hs, List.find?_cons_of_neg (by rw [hb]; decide)]
  exact List.find?_cons_of_pos (p := fun b => imageOk (flashRd i (slotBase t b)) t i.fuseRoot (fusedSvn i t)) ha

theorem chooseSlot_none {i : Io} {t : Nat} (ha : imageOk (flashRd i (slotBase t 0)) t i.fuseRoot (fusedSvn i t) = false)
    (hb : imageOk (flashRd i (slotBase t 1)) t i.fuseRoot (fusedSvn i t) = false) : chooseSlot i t = none := by
  unfold chooseSlot
  rw [List.find?_eq_none]
  intro b hin
  have : b = 0 ∨ b = 1 := by split at hin <;> simp at hin <;> omega
  rcases this with rfl | rfl
  · rw [ha]; decide
  · rw [hb]; decide

/-- An image written, read at a place of a flash, passes under the root of its key. -/
theorem weak_image {rd : Nat → Nat → List Byte} {t svn : Nat} (min : Nat) (hh : rd 0 64 = imageHeader t svn) (hk : rd 0x40 1312 = weakKey)
    (hd : rd 0 0x560 = imageHeader t svn ++ weakKey) (hs : rd 0x560 2420 = weakSig (sha3Bytes (imageHeader t svn ++ weakKey)))
    (ht : imgHdr (fun _ _ => imageHeader t svn) = ⟨0x1C0EB007, t, svn, 0, 0⟩) (hm : min ≤ svn) : imageOk rd t (sha3 weakKey) min = true := by
  unfold imageOk
  rw [header_of hh, ht]
  simp only [hk, beq_self_eq_true, Bool.true_and, Nat.add_zero, hd, hs, weak_verify, Bool.and_true]
  have : 0x560 + 2420 ≤ slotSize t := by unfold slotSize; split <;> omega
  simp [this, hm]

theorem imaged_slot {ts : List Nat} (hts : ts ∈ [[], [1], [1, 2], [1, 2, 3]]) {t : Nat} (ht : t ∈ [1, 2, 3]) :
    chooseSlot (imaged ts) t = if t ∈ ts then some 0 else none := by
  obtain ⟨h1, h2, h3⟩ := image_lists ts hts
  obtain ⟨h4, h5⟩ := h3 t ht
  have sp := spans_of ts h1
  have blank : ∀ a, (∀ w ∈ imageSpans ts, a + 64 ≤ w.1 ∨ w.1 + w.2 ≤ a) → imgHdr (flashRd (imaged ts) a) = imgHdr fun _ n => List.replicate n flashDflt := by
    intro a h
    refine header_of ?_
    show Memory.read flashDflt _ (a + 0) 64 = _
    rw [Nat.add_zero, show (imaged ts).flash = (ts.flatMap imageWrites).foldl (fun m w => Memory.write flashDflt m w.1 w.2) [] from rfl,
      read_apart_all _ _ _ _ (by rw [sp]; exact h)]
    rfl
  have hb := imageOk_magic (flashRd (imaged ts) (slotBase t 1)) t (imaged ts).fuseRoot (fusedSvn (imaged ts) t) (by rw [blank _ h4, blank_header])
  have hf : fusedSvn (imaged ts) t = 0 := by
    simp only [List.mem_cons, List.not_mem_nil, or_false] at ht
    rcases ht with rfl | rfl | rfl <;> rfl
  by_cases hin : t ∈ ts
  · rw [if_pos hin]
    have rd : ∀ a bs, (a, bs) ∈ imageWrites t → (imaged ts).flash.read flashDflt a bs.length = bs := fun a bs h =>
      read_listed _ _ _ _ (List.mem_flatMap.2 ⟨t, hin, h⟩) (by rw [sp]; exact h2)
    have r1 : flashRd (imaged ts) (slotBase t 0) 0 64 = imageHeader t 1 := rd _ (imageHeader t 1) (by simp [imageWrites])
    have r2 : flashRd (imaged ts) (slotBase t 0) 0x40 1312 = weakKey := by
      have := rd (slotBase t 0 + 0x40) weakKey (by simp [imageWrites])
      rwa [show weakKey.length = 1312 from List.length_replicate] at this
    have r3 : flashRd (imaged ts) (slotBase t 0) 0x560 2420 = weakSig (sha3Bytes (imageHeader t 1 ++ weakKey)) := by
      have := rd (slotBase t 0 + 0x560) (weakSig (sha3Bytes (imageHeader t 1 ++ weakKey))) (by simp [imageWrites])
      rwa [weak_sig_len] at this
    have r4 : flashRd (imaged ts) (slotBase t 0) 0 0x560 = imageHeader t 1 ++ weakKey := by
      rw [← r1, ← r2]; exact read_split _ (slotBase t 0 + 0) 64 1312
    have hh : imgHdr (fun _ _ => imageHeader t 1) = ⟨0x1C0EB007, t, 1, 0, 0⟩ := by
      simp only [List.mem_cons, List.not_mem_nil, or_false] at ht
      rcases ht with rfl | rfl | rfl <;> decide +kernel
    refine chooseSlot_second ?_ hb (weak_image _ r1 r2 r4 r3 hh (by rw [hf]; omega))
    rw [blank _ h4, blank_header, header_of r1, hh]
    exact (by decide : (255 : Nat) > 1)
  · rw [if_neg hin]
    exact chooseSlot_none (imageOk_magic _ _ _ _ (by rw [blank _ (h5 hin), blank_header])) hb

/-- Phase 1 with images of no type, of type 1, of types 1 and 2, and of all three. -/
theorem witness_BootVerification : ∀ ts ∈ [[], [1], [1, 2], [1, 2, 3]], (imaged ts).phase = .verify ∧ (imaged ts).slots = 0 ∧
    ∀ t ∈ [1, 2, 3], chooseSlot (imaged ts) t = if t ∈ ts then some 0 else none :=
  fun _ hts => ⟨rfl, rfl, fun _ ht => imaged_slot hts ht⟩

/-- In recovery, and with an operation in progress. -/
theorem witness_FlashSteps :
    (let i : Io := { Io.init with phase := .recovery, fail := 1 }; i.phase = .recovery ∧ i.flOp = none) ∧
    (let i : Io := { Io.init with phase := .recovery, fail := 1, flOp := some (.program 0x3FFFC00) }
     i.phase = .recovery ∧ i.flOp = some (.program 0x3FFFC00) ∧ i.flOp ≠ none) ∧
    (let i : Io := { Io.init with phase := .recovery, fail := 1, flOp := some (.erase 0x3FF0000) }; i.flOp = some (.erase 0x3FF0000)) ∧
    (0x3FF0000 % 0x10000 = 0 ∧ 0x3FF0000 < flashBytes ∧ ¬0x4000000 < flashBytes ∧ 0x3FFFC00 % 0x400 = 0 ∧ 0x3FFFC00 < flashBytes ∧
      0x3FFFE00 % 0x400 ≠ 0) ∧ (2 ^ 64 - 1) % 4 = 3 ∧ (imageHeader 1 1).length ≤ 1024 := by decide
/-! ## Ports and transport -/

/-- Physical memory with the first GiB of address space 3 mapped onto itself, readable, writable, executable and for sync objects: a
table at 0x1000, a leaf of 1 GiB at 0x2000 (07 R193 to R197). -/
def paged : Chip :=
  { (Chip.init.wr64 0x1000 0x2001).wr64 0x2000 0x8F with aspace := [(3, { ASpace.init with root := 0x1000, en := true })] }

/-- A part that runs, as rank 2 of group 9 behind port 0, with rank 1 as its host, a window that allows everything to ASID 3, a command
queue and an event ring of that address space. -/
def fab : State :=
  { agenda := [], chip := paged, io := { Io.init with phase := .running, clock := 1000 }
    net := { Net.init 0 0 with
      port0 := { Port.init 0 with en := true, link := true, group := 9, rank := 2 }, ranks := [(1, ⟨0xA1, true, 1, 0⟩)]
      seen := [(1, 5)], rx := [(20, ⟨7, [], 0, 0, 0⟩)], windows := [(2, ⟨3, 0x4000, 0x1000, 0, true, true, true, true, 0⟩)]
      queues := [(6, ⟨3, true, true, 0, 0, [], []⟩)], rings := [(8, { Ring.init with asid := 3, base := 0x8000, drank := 1, en := true })] } }

/-- The header of the next message of rank 1 on stream 4. -/
def hdr (mtype tspec len : Nat) : Hdr := ⟨1, mtype, false, false, 2, 1, 9, 4, 5, len, 7, 0, 0, 33, tspec, 0⟩

def hdrData (h : Hdr) (addr : Nat) (payload : List Byte) : List Byte :=
  hdrBytes h ++ (if hasAddr h.mtype then leBytes 8 addr else []) ++ payload

/-- The frame that carries it, its Ethernet header as read, and the parsed address. -/
def vorby (h : Hdr) (addr : Nat) (payload : List Byte) : RxFrame := ⟨0, true, ethBytes 0 0xA1 3 0 0x88B5 (hdrData h addr payload)⟩
def vorbyEth (h : Hdr) (addr : Nat) (payload : List Byte) : Eth :=
  let d := hdrData h addr payload
  let d := d ++ List.replicate (42 - d.length) 0
  ⟨0, 0xA1, some 0x6000, 0x88B5, d, d.length + 22⟩

/-- The checks of InSequence as one test. -/
def inSequence (s : State) (h : Hdr) (addr : Nat) (payload : List Byte) : Bool :=
  let f := vorby h addr payload
  let e := vorbyEth h addr payload
  decide (s.io.phase = .running) && decide (macDrop s f = .ok e) &&
    decide (vorbyOf e = some (h, if hasAddr h.mtype then BitVec.ofNat 64 addr else 0, payload)) && decide (h.mtype ≤ 8) &&
    decide (h.group = s.net.port0.group) && decide (h.drank = s.net.port0.rank) && decide (s.net.seen.find? h.srank = some h.epoch) &&
    decide (h.psn = (rxStream s h).ackPsn) && decide ((rxStream s h).held = []) && decide ((rxStream s h).unacked < 7) &&
    decide (s.net.rxWait = []) && !h.ackv && decide ((s.net.port 0).pfcEn = 0)

theorem inSequence_ok {s : State} {h : Hdr} {addr : Nat} {payload : List Byte} (t : inSequence s h addr payload = true) :
    InSequence s (vorby h addr payload) (vorbyEth h addr payload) h (if hasAddr h.mtype then BitVec.ofNat 64 addr else 0) payload := by
  simp only [inSequence, Bool.and_eq_true, decide_eq_true_eq, Bool.not_eq_true'] at t
  obtain ⟨⟨⟨⟨⟨⟨⟨⟨⟨⟨⟨⟨t1, t2⟩, t3⟩, t4⟩, t5⟩, t6⟩, t7⟩, t8⟩, t9⟩, t10⟩, t11⟩, t12⟩, t13⟩ := t
  exact ⟨t1, t2, rfl, t3, t4, t5, t6, t7, t8, t9, t10, t11, t12, t13⟩

/-- A range that translates, not held by a claim and not poisoned. -/
def clear (m : Msg) (r : Except (Bool × Nat) (List (Nat × Nat × Nat)) × Chip) : Bool :=
  match r.1 with
  | .ok ps => !msgHeld r.2 m ps && (ioPoison r.2 ps).isNone
  | .error _ => false
theorem clear_ok {m : Msg} {r : Except (Bool × Nat) (List (Nat × Nat × Nat)) × Chip} (h : clear m r = true) :
    ∃ ps c, r = (.ok ps, c) ∧ msgHeld c m ps = false ∧ ioPoison c ps = none := by
  obtain ⟨x, c⟩ := r
  cases x with
  | error e => cases h
  | ok ps => exact ⟨ps, c, rfl, by simpa [clear] using h⟩

/-- FCS, least and greatest size, destination, VLAN, EtherType, EN, header and group (R31, R32, R36, R38). -/
theorem witness_FramesDropped_mac : (fab.io.phase = .running ∧ (fab.net.port 0).link = true) ∧
    ((ethOf (List.replicate 59 0)).map (·.size)) = some 63 ∧ ((ethOf (List.replicate 9213 0)).map (·.size)) = some 9217 ∧
    ((ethOf (ethBytes 1 2 0 0 0x88B5 [])).map (·.da)) = some 1 := by decide +kernel
theorem witness_FramesDropped_etype : ((ethOf (ethBytes 0 2 0 77 0x88B5 [])).map (·.tci)) = some (some 77) ∧
    ((ethOf (ethBytes 0 2 0 0 0x1234 [])).map (·.etype)) = some 0x1234 ∧ (fab.net.port 1).en = false ∧
    ((ethOf (ethBytes 0 2 0 0 0x88B6 [])).map (·.sa)) = some 2 := by decide +kernel
theorem witness_FramesDropped_malformed : ((ethOf (ethBytes 0 2 0 0 0x88B5 [])).map (·.size)) = some 64 ∧
    ((ethOf (ethBytes 0 2 0 0 0x88B5 [])).bind vorbyOf).isNone = true ∧
    (((ethOf (vorby { hdr 6 0 0 with group := 8 } 0 []).bytes).bind vorbyOf).map (·.1.group)) = some 8 := by decide +kernel

/-- 227 messages of 9,198 bytes and one of 9,143 held in port 0's buffer: a frame of 64 bytes would end past 2 MiB. -/
theorem witness_FramesDropped_full :
    let held := fun (n size : Nat) => List.replicate n (⟨⟨0, 3, size, 2, false, 1, 4, 0, 0, 0, 0, []⟩, 0, false, none, none, [], false⟩ : RxPending)
    let s : State := { fab with net := { fab.net with rxWait := held 227 9198 ++ held 1 9143 } }
    2 ^ 21 < heldBytes s 0 (fun _ => true) + 64 ∧ ¬2 ^ 21 < heldBytes s 0 (fun _ => true) + 63 := by decide +kernel

/-- A PFC frame for priorities 0 and 7, and a pause that is over. -/
theorem witness_PfcFrameAndExpiry :
    (let b := beBytes 2 0x0101 ++ beBytes 2 0x81 ++ List.replicate 16 (0xFF : Byte)
     ∃ e, macDrop fab ⟨0, true, ethBytes pfcMac 0xA1 0 0 0x8808 b⟩ = .ok e ∧ e.etype = 0x8808) ∧
    (let s : State := { fab with net := fab.net.modPort 0 fun x => { x with pausedTill := x.pausedTill.setIfInBounds 7 1000 } }
     s.io.phase ≠ .reset ∧ (s.net.port 0).pausedTill.getD 7 0 ≠ 0 ∧ (s.net.port 0).pausedTill.getD 7 0 ≤ s.io.clock) := by
  refine ⟨⟨⟨pfcMac, 0xA1, some 0, 0x8808, _, 64⟩, rfl, rfl⟩, by decide⟩

/-- Management frames of every type, with ranges of 1 and 128 words at the end of the space, and one past it. -/
def mgmtFrame (mtype maddr n : Nat) (data : List Byte) : RxFrame :=
  ⟨0, true, ethBytes 0 0xA1 0 0 0x88B6 (mhdrBytes mtype 5 maddr (8 * n) ++ data)⟩
def mgmtOk (f : RxFrame) (h : MHdr) : Bool :=
  match macDrop fab f with
  | .ok e => e.etype == 0x88B6 && decide (mhdrOf e.data = h)
  | .error _ => false
theorem witness_ManagementFrames :
    (∀ x ∈ [(0, 2 ^ 32 - 8, 1), (0, 2 ^ 32 - 1024, 128), (0, 2 ^ 32 - 1024, 129), (0, 4, 1), (0, 8, 0), (1, 4, 1), (2, 0, 1), (3, 0, 1), (15, 0, 1)],
      mgmtOk (mgmtFrame x.1 x.2.1 x.2.2 []) ⟨1, x.1, 5, x.2.1, 8 * x.2.2, 0⟩ = true) ∧
    mgmtOk (mgmtFrame 1 0x80100 1 (leBytes 8 0x123)) ⟨1, 1, 5, 0x80100, 8, 0⟩ = true ∧
    ((ethOf (mgmtFrame 1 0x80100 1 (leBytes 8 0x123)).bytes).bind (·.payload 16 8)) = some (leBytes 8 0x123) := by
  decide +kernel

/-- A CMD message while queue 6 holds none, 63 and 64 commands, is disabled, and when its rank is no host. -/
theorem witness_CommandsQueue :
    let h := hdr 0 6 8
    let c : Cmd := ⟨1, 4, 1, 0, false, []⟩
    let full := fun n => ({ fab with net := fab.net.setQueue 6 ⟨3, true, true, 0, 0, List.replicate n c, []⟩ } : State)
    let off : State := { fab with net := fab.net.setQueue 6 ⟨3, true, false, 0, 0, [], []⟩ }
    let guest : State := { fab with net := fab.net.setRank 1 ⟨0xA1, false, 1, 0⟩ }
    (∀ s ∈ [full 0, full 63, full 64, off, guest], InSequence s (vorby h 0 (leBytes 8 0)) (vorbyEth h 0 (leBytes 8 0)) h 0 (leBytes 8 0)) ∧
    h.mtype = 0 ∧ ((full 63).net.rank 1).h = true ∧ ((full 63).net.queue 6).en = true ∧ ((full 63).net.queue 6).pending.length < 64 ∧
    64 ≤ ((full 64).net.queue 6).pending.length ∧ (off.net.queue 6).en = false ∧ (guest.net.rank 1).h = false := by
  refine ⟨?_, by decide +kernel⟩
  intro s hs
  refine inSequence_ok (addr := 0) ?_
  revert s
  decide +kernel

/-- A message whose access window 2 and the tables of ASID 3 allow. -/
def allowed (h : Hdr) (addr : Nat) (payload : List Byte) : Bool :=
  let m := messageOf (vorby h addr payload) (vorbyEth h addr payload) h (BitVec.ofNat 64 addr) payload
  inSequence fab h addr payload && decide (windowCheck fab m = .ok 2) && decide (inFlight fab < 1023) &&
    clear m (ioRange fab.chip 3 addr (msgBytes fab 3 m) (msgAcc m)) && !rangeWalkHeld fab.chip 0 3 addr (msgBytes fab 3 m) &&
    !unanswered (fab.took (vorby h addr payload) h) [] ⟨m, fab.net.nextRx, true, some (winRef fab 2), none, [], false⟩

/-- READ of 8 bytes at the window's end, WRITE, ATOMIC (add, 8 bytes), PCOPY without and with an operator. -/
theorem witness_OneSidedAccesses : allowed (hdr 1 8 0) 0x4FF8 [] = true ∧ allowed { hdr 2 0 16 with ord := true } 0x4000 (leBytes 8 1 ++ leBytes 8 2) = true ∧
    allowed (hdr 3 0x10 8) 0x4FF8 (leBytes 8 1) = true ∧ (wireAtOp ((hdr 3 0x10 8).tspec % 16)).isSome = true ∧
    allowed (hdr 7 0 16) 0x4010 (leBytes 8 1 ++ leBytes 8 2) = true ∧ allowed (hdr 7 (1 * 2 ^ 24) 16) 0x4010 (leBytes 8 1 ++ leBytes 8 2) = true := by
  decide +kernel

/-- A placement entry of die 0 in ASID 3 whose tiles of 64 bytes lie at 0x4000, for ranks from 2 on die 0: number 5, generation 1. -/
def placed : State :=
  { fab with chip := { (fab.chip.setPlaceWords 0 3 5 #v[0x8000000000000001, 0x4000, 0x5000, 0x1000, 0, 0, 0x6000, 0x00201]) with rank := 2 } }

theorem witness_OneSidedAccesses_pull :
    let h := hdr 8 (1 * 2 ^ 11 + 5) 0
    let m := messageOf (vorby h 0x4040 []) (vorbyEth h 0x4040 []) h 0x4040 []
    inSequence placed h 0x4040 [] = true ∧ pullState placed 3 m = .ok ∧ windowCheck placed m = .ok 2 ∧
      clear m (ioRange placed.chip 3 0x4040 (msgBytes placed 3 m) .load) = true := by decide +kernel

/-- A WRITE below every window, past its window's end, and to a window that forbids it. -/
theorem witness_RefusedAccesses :
    let p := leBytes 8 7
    let shut : State := { fab with net := fab.net.setWindow 2 ⟨3, 0x4000, 0x1000, 0, true, false, true, true, 0⟩ }
    inSequence fab (hdr 2 0 8) 0x3FFF p = true ∧ findWindowOf fab 0x3FFF = none ∧
    inSequence fab (hdr 2 0 8) 0x4FF9 p = true ∧ findWindowOf fab 0x4FF9 = some 2 ∧ 0x4000 + 0x1000 < 0x4FF9 + p.length ∧
    inSequence shut (hdr 2 0 8) 0x4FF8 p = true ∧ findWindowOf shut 0x4FF8 = some 2 ∧ 0x4FF8 + p.length ≤ 0x4000 + 0x1000 ∧
    (shut.net.window 2).w = false := by decide +kernel

/-- An EVENT, and an ACK of both frames of a send stream. -/
theorem witness_AnswersEventsAcks :
    let g : TxFrame := { psn := 40, mtype := 2, ctl := false, ord := false, msgid := 0, tspec := 0, addr := 0, payload := [], sent := true
                         retries := 0, since := 0, sacked := false, fast := false }
    let s : State := { fab with net := { fab.net with tx := [(20, ⟨42, [g, { g with psn := 41 }], []⟩)] } }
    let h : Hdr := { hdr 15 0 0 with ackv := true, ackPsn := 42, psn := 0 }
    let f := vorby h 0 []
    inSequence fab (hdr 6 8 8) 0 (leBytes 8 0) = true ∧
    macDrop s f = .ok (vorbyEth h 0 []) ∧ vorbyOf (vorbyEth h 0 []) = some (h, 0, []) ∧ h.group = s.net.port0.group ∧
    h.drank = s.net.port0.rank ∧ s.net.seen.find? h.srank = some h.epoch ∧ s.net.rxWait = [] ∧ (s.net.port 0).pfcEn = 0 ∧
    s.net.tx.find? (streamKey h.srank h.stream) = some ⟨42, [g, { g with psn := 41 }], []⟩ ∧ h.ackPsn = (40 + 2) % 2 ^ 32 := by
  decide +kernel

/-- A REPLY or NACK to the part's first request, whose MSGID is the free value msgId 0 (log 14). -/
theorem witness_AnswersEventsAcks_request (h : (Config.msgId 0).toNat = 33) :
    let s : State := { fab with net := { fab.net with outst := [(0, ⟨1, 4, false, 0, 0, 16⟩)] } }
    findRequest s 1 4 33 = some (0, ⟨1, 4, false, 0, 0, 16⟩) := by
  intro s
  have e : ((1 : Nat) == 1 && (4 : Nat) == 4 && (Config.msgId 0).toNat == 33) = true := by rw [h]; rfl
  exact List.find?_cons_of_pos (p := fun (x : Nat × Outst) => x.2.rank == 1 && x.2.stream == 4 && (Config.msgId x.1).toNat == 33) e

theorem witness_AnswersEventsAcks_answer :
    let s : State := { fab with net := { fab.net with outst := [(0, ⟨1, 4, false, 0, 0, 16⟩)] } }
    inSequence s (hdr 4 0 0) 0 [] = true ∧ inSequence s (hdr 5 2 0) 0x9000 [] = true := by decide +kernel

/-- Acknowledgements 2 us old, and a frame that has waited RTO once more and for the last time. -/
theorem witness_TransportTimers :
    let f := fun (n : Nat) => ({ psn := 2 ^ 32 - 1, mtype := 2, ctl := false, ord := false, msgid := 0, tspec := 0, addr := 0, payload := []
                                 sent := true, retries := n, since := 100, sacked := false, fast := false } : TxFrame)
    let s := fun (n : Nat) => ({ fab with
      io := { fab.io with clock := 100 + 50 * 850 }
      net := { fab.net with rx := [(20, ⟨8, [], 1, 100 + 50 * 850 - 1700, 0⟩)], tx := [(20, ⟨0, [f n], []⟩)] } } : State)
    (s 0).io.phase = .running ∧ (s 0).net.rx.find? (streamKey 1 4) = some ⟨8, [], 1, 100 + 50 * 850 - 1700, 0⟩ ∧
    choosePort (s 0) 1 4 = some 0 ∧ pausedAt (s 0) 0 ((s 0).net.port 0).pcpCtl = false ∧
    (∀ n ∈ [14, 15], List.find? (fun (g : TxFrame) => g.psn == 2 ^ 32 - 1) ((s n).net.tx.getD (streamKey 1 4) .init).frames = some (f n) ∧
      (f n).since + ((s n).net.port 0).rto * 850 ≤ (s n).io.clock ∧ pausedAt (s n) 0 (portPcp (s n) 0 false) = false) ∧
    (14 + 1 < ((s 14).net.port 0).retryMax ∧ ((s 15).net.port 0).retryMax ≤ 15 + 1) := by decide +kernel

/-! ## Registers, flash, the test access port -/

theorem witness_EpochWrite : fab.io.phase ≠ .reset ∧ (65535 : Nat) < 65536 ∧ 65535 ≠ fab.net.port0.epoch ∧ 0 = fab.net.port0.epoch := by decide

/-- The last queue and ring; a ring whose page is mapped, and one whose page is not. -/
theorem witness_QueuesAndRings :
    let s : State := { fab with net := (fab.net.setQueue 63 ⟨3, false, true, 0, 0, [], []⟩).setRing 63 { Ring.init with asid := 3, base := 0x8000 } }
    let r := (s.net.ring 63).withWord0 (2 ^ 63 + 1)
    s.io.phase ≠ .reset ∧ s.io.phase ≠ .frozen ∧ (s.net.queue 63).en = true ∧ (2 : Nat).testBit 0 = false ∧
    (s.net.ring 63).en = false ∧ (2 ^ 63 + 1 : Nat).testBit 0 = true ∧ (ioStore s.chip 3 0x8000 (List.replicate 16 0)).isSome = true ∧
    (ioStore s.chip 3 0x40000000 (List.replicate 16 0)).isNone = true ∧ r.base = 0x8000 ∧ (fab.net.ring 8).en = true := by decide +kernel

theorem witness_AdapterForceEvict :
    let s : State := { fab with chip := fab.chip.modDie 7 fun y => { y with adapters := [(1023, ⟨true, 9, 3, 0, 63, 2⟩)] } }
    s.io.phase ≠ .reset ∧ s.io.phase ≠ .frozen ∧ ((s.chip.die 7).adapters.getD 1023 .empty).v = true ∧
      ((s.chip.die 7).adapters.getD 1022 .empty).v = false := by decide

theorem witness_JtagSteps :
    let s : State := { frozen with io := { frozen.io with rosel := BitVec.ofNat 64 (7 * 2 ^ 60 + 15 * 2 ^ 56 + 2 * 2 ^ 48 + 15 * 2 ^ 32) } }
    let l : State := { frozen with io := { frozen.io with rdlock := true } }
    s.io.phase = .frozen ∧ s.io.rdlock = false ∧ 393208 + 8 ≤ 393216 ∧ fab.io.phase ≠ .frozen ∧ l.io.rdlock = true := by decide

theorem test_jtag_idcode : ∃ t, exec .jtagIdcode fab = .next t ∧ t.io.jtag.dr.take 8 = [true, true, true, false, true, true, false, true] :=
  ⟨_, rfl, by decide⟩
theorem test_event_counts : ∃ t, exec (.linkFlitCrcError 3 4) fab = .next t ∧ t.io.links.getD 19 0 = 1 := ⟨_, rfl, by decide⟩

/-! ## Commands -/

/-- A command of rank 1, and a part with it at the head of queue 6 (of a supervisor or not). -/
def asked (b : List Byte) : Cmd := ⟨1, 4, 77, 0, false, b⟩
def queuedAs (s : State) (sup : Bool) (b : List Byte) : State := { s with net := s.net.setQueue 6 ⟨3, sup, true, 0, 0, [asked b], []⟩ }
def words (ws : List Nat) : List Byte := ws.flatMap (leBytes 8)

def begins (s : State) (b : List Byte) (opc len : Nat) : Bool :=
  decide (s.io.phase = .running) && decide (nextCmd s = some (6, asked b)) && decide (cmdOpc b = opc) && decide (b.length = len) &&
    decide (word64 b 0 / 2 ^ 9 = 0)
theorem begins_ok {s : State} {b : List Byte} {opc len : Nat} (t : begins s b opc len = true) : Begins s 6 (asked b) opc len := by
  simp only [begins, Bool.and_eq_true, decide_eq_true_eq] at t
  exact ⟨t.1.1.1.1, t.1.1.1.2, t.1.1.2, t.1.2, t.2⟩

/-- Address space 3 with a granule of poison at 0x9000. -/
def poisoned : State := { fab with chip := { fab.chip with poison := [0x9000 / 64] } }

theorem witness_MessagesJoinStreams : ownRank fab = 2 ∧ (1 : Nat) ≠ ownRank fab ∧ 7 ≠ ownRank fab ∧ (fab.net.rank 1).pmask ≠ 0 ∧ (fab.net.rank 1).failed.getLsbD 4 = false ∧ (fab.net.rank 7).pmask = 0 ∧
    (let s : State := { fab with net := fab.net.setRank 1 ⟨0xA1, true, 1, 0x8000⟩ }
     (s.net.rank 1).pmask ≠ 0 ∧ (s.net.rank 1).failed.getLsbD 15 = true) := by decide

/-- A range whose walks no claim holds, that translates, is not held by a claim (of writes, or any), and is poisoned or not. -/
def freeFor (s : Chip) (asid va n : Nat) (store poison : Bool) : Bool :=
  !rangeWalkHeld s 0 asid va n && (match ioRange s asid va n (if store then .store else .load) with
    | (.ok ps, c) => !(if store then ioStoreHeld c ps else ioClaimed c ps) && (ioPoison c ps).isSome == poison
    | (.error _, _) => false)
/-- A range whose walks no claim holds and that does not translate: whether that is for a protection. -/
def faults (s : Chip) (asid va n : Nat) : Option Bool :=
  if rangeWalkHeld s 0 asid va n then none else match (ioRange s asid va n .load).1 with | .ok _ => none | .error e => some e.1

/-- NOP; a header of 7 bytes, one with opcode 14 and one with a reserved bit; READ of 1 and 4,096 bytes, of poison, of an unmapped page, of
none and of 4,097; WRITE of 1 and 4,096 bytes. -/
theorem witness_CommandsNopReadWrite :
    begins (queuedAs fab true (words [0])) (words [0]) 0 8 = true ∧
    (∀ b ∈ [List.replicate 7 0, words [14], words [2 ^ 9]], nextCmd (queuedAs fab true b) = some (6, asked b)) ∧
    (List.replicate 7 (0 : Byte)).length < 8 ∧ cmdBadOp (words [14]) = true ∧ cmdBadOp (words [2 ^ 9]) = true ∧
    (∀ n ∈ [1, 4096, 0, 4097], begins (queuedAs fab true (words [1, 0x7000, n])) (words [1, 0x7000, n]) 1 24 = true) ∧
    freeFor fab.chip 3 0x7000 4096 false false = true ∧ freeFor fab.chip 3 0x7000 4096 true false = true ∧
    begins (queuedAs fab true (words [2, 0x7000] ++ [9])) (words [2, 0x7000] ++ [9]) 2 17 = true := by decide +kernel

theorem witness_CommandsNopReadWrite_faults : freeFor poisoned.chip 3 0x9000 64 false true = true ∧
    faults fab.chip 3 0x40000000 8 = some false ∧
    faults (fab.chip.wr64 0x2008 0x40000009) 3 0x40000000 8 = some true := by decide +kernel

/-- A launch descriptor of one grid task of one context at 0x6000 (R83, R84), and one of version 2. -/
def descriptor (ver : Nat) : List Byte :=
  words [ver * 2 ^ 56 + 2 * 2 ^ 53 + 2 ^ 50 + 2 ^ 40, 2 ^ 32 + 2 ^ 16 + 1, 0, 0x10000, 0x20000, 0x1000, 0x100000, 0x400000] ++
    words [0x30000, 2 ^ 56 + 2 * 2 ^ 52, 0, 0]
def described (ver : Nat) : State :=
  queuedAs { fab with chip := fab.chip.wrMem 0x6000 (descriptor ver) } true (words [3, 0x6000, 8])
def checkOf (s : State) : Checked := (checkDesc s.chip 0x6000 3 true 6 8 (s.net.ring 8).en).1
theorem witness_CommandLaunch : begins (described 1) (words [3, 0x6000, 8]) 3 24 = true ∧
    (match checkOf (described 1) with | .ok l => l.n == 1 && l.nt == 1 | _ => false) = true ∧
    begins (described 2) (words [3, 0x6000, 8]) 3 24 = true ∧ checkOf (described 2) = .status 2 ∧
    (described 1).chip.launches.length < 1024 := by decide +kernel

/-- A launch of one grid task in slot 0, as it stands live, with id 5 in ASID 3. -/
def launch : Launch := { launchOfDesc ((descriptor 1).take 64) ((descriptor 1).drop 64) 0x6000 3 true 6 8 with id := 5 }
def live (l : Launch) : State := { fab with chip := { fab.chip with launches := [(0, l)] } }

theorem witness_CommandsPreemptKill :
    (∀ m ∈ [0, 1, 2, 3], begins (queuedAs (live launch) true (words [4, m * 2 ^ 32 + 5])) (words [4, m * 2 ^ 32 + 5]) 4 16 = true ∧
      word64 (words [4, m * 2 ^ 32 + 5]) 1 / 2 ^ 32 % 4 = m ∧ word64 (words [4, m * 2 ^ 32 + 5]) 1 % 2 ^ 32 = 5) ∧
    slotOf (live launch).chip 5 = some (0, launch) ∧ stillLive (live launch) 0 launch.id = true ∧ allInprog (live launch) = [] ∧
    launch.asid = 3 ∧ begins (queuedAs (live launch) true (words [5, 5])) (words [5, 5]) 5 16 = true ∧
    (live launch).chip.launches.find? 0 = some launch ∧ allEnded launch = false ∧ allEnded { launch with done := 1 } = true ∧
    slotOf (live launch).chip 6 = none := by decide +kernel

/-- TLBINV of a whole address space, HARVEST of the queue's own and of another, PLACE of 64 bytes on dies 0 and 7. -/
theorem witness_CommandsTlbinvHarvestPlace :
    begins (queuedAs fab true (words [6, 2 ^ 13 + 4095, 0, 0])) (words [6, 2 ^ 13 + 4095, 0, 0]) 6 32 = true ∧
    (2 ^ 13 + 4095 : Nat).testBit 12 = false ∧ (2 ^ 13 + 4095 : Nat).testBit 13 = true ∧ allInprog fab = [] ∧
    begins (queuedAs fab false (words [7, 3])) (words [7, 3]) 7 16 = true ∧ begins (queuedAs fab false (words [7, 4])) (words [7, 4]) 7 16 = true ∧
    gatheredHeld (queuedAs fab false (words [7, 3])).chip (fun e => e.asid == 3) = false ∧
    begins (queuedAs fab false (words [8, 0x81 * 2 ^ 24 + 255 * 2 ^ 16 + 3, 0x7000])) (words [8, 0x81 * 2 ^ 24 + 255 * 2 ^ 16 + 3, 0x7000]) 8 24 = true ∧
    (match (cmdRead fab.chip 3 0x7000 64).1 with | .ok b => b.length == 64 | _ => false) = true := by decide +kernel

/-- SIGNAL of an FPUT to an empty and to a full cell, and of a DCDEC of a counter of 1 and of 0; WAITEVENT. -/
theorem witness_CommandsSignalWaitAttestFwloadFreeze_signal :
    let cell := fun (full : W64) => ({ fab with chip := fab.chip.wr64 0x7008 full } : State)
    let count := fun (n : W64) => ({ fab with chip := fab.chip.wr64 0x7000 n } : State)
    let b0 := words [9, 0, 0x7000, 7]
    let b1 := words [9, 1, 0x7000, 0]
    let b2 := words [10, 1 + 3 * 2 ^ 32, 0x7000, 0]
    let at7 := fun (s : State) => !walkHeld s.chip 0 [] 3 0x7000 && (match xlAgent s.chip 0 3 0x7000 .sync with
      | (.ok p, ch) => p == 0x7000 && !ch.storeHeld (lineOf p) && (ch.poisoned p 16).isNone && (ch.poisoned p 8).isNone
      | _ => false)
    let cellOf := fun (s : State) => match xlAgent s.chip 0 3 0x7000 .sync with
      | (.ok p, ch) =>
        let u := ch.l2Access p (agentInsert ch 0 3 0x7000 1)
        ((u.rd64 (p + 8)).getLsbD 63, (u.rd64 p).toNat % 2 ^ 32)
      | _ => (false, 9)
    begins (queuedAs (cell 0) true b0) b0 9 32 = true ∧ at7 (cell 0) = true ∧ (cellOf (cell 0)).1 = false ∧
    at7 (cell (2 ^ 63)) = true ∧ (cellOf (cell (2 ^ 63))).1 = true ∧
    begins (queuedAs (count 1) true b1) b1 9 32 = true ∧ at7 (count 1) = true ∧ (cellOf (count 1)).2 = 1 ∧
    at7 (count (2 ^ 32)) = true ∧ (cellOf (count (2 ^ 32))).2 = 0 ∧ begins (queuedAs fab true b2) b2 10 32 = true ∧
    (match (cmdRead fab.chip 3 0x7000 8).1 with | .ok b => b == leBytes 8 0 | _ => false) = true := by decide +kernel

/-- A WAITEVENT in progress whose time is over, and one whose time is not; the word it reads meets COND 0 and not COND 1 against 0. -/
theorem witness_CommandsSignalWaitAttestFwloadFreeze_poll :
    let i := fun (t : Nat) => (⟨0, asked (words [10, 1, 0x7000, 0]), 3, true, .wait 1 0x7000 0 (some t) 0, true⟩ : InCmd)
    let s := fun (t : Nat) => ({ fab with net := fab.net.setQueue 6 ⟨3, true, true, 0, 0, [], [i t]⟩ } : State)
    ((s 1000).net.queue 6).inprog.find? InCmd.isWait = some (i 1000) ∧ (1000 : Nat) ≤ (s 1000).io.clock ∧ ¬(1001 : Nat) ≤ (s 1001).io.clock ∧
    condHolds 1 0 0 = false ∧ condHolds 0 0 0 = true := by
  decide +kernel

/-- ATTEST with its nonce, FWLOAD of 64 bytes of a type-3 image, FREEZE of a supervisor's queue and of another. -/
theorem witness_CommandsSignalWaitAttestFwloadFreeze :
    begins (queuedAs fab true (words [11, 0x7000, 1, 2, 3, 4])) (words [11, 0x7000, 1, 2, 3, 4]) 11 48 = true ∧
    freeFor fab.chip 3 0x7000 2612 true false = true ∧
    begins (queuedAs fab true (words [12, 3 + 4, 0x7000, 64])) (words [12, 3 + 4, 0x7000, 64]) 12 32 = true ∧
    fwSlot fab.io 3 1 ≠ bootedSlot fab.io 3 ∧ 64 ≤ slotSize 3 ∧
    (match (cmdRead fab.chip 3 0x7000 64).1 with | .ok b => b.length == 64 | _ => false) = true ∧
    (∀ sup : Bool, begins (queuedAs fab sup (words [13])) (words [13]) 13 8 = true) := by decide +kernel

/-- An image of type 3 without content under the weak key, as FWLOAD reads it from memory. -/
def plainImage : List Byte := imageHeader 3 1 ++ weakKey ++ weakSig (sha3Bytes (imageHeader 3 1 ++ weakKey))

theorem imgRd_part {a b c : List Byte} : imgRd (a ++ b ++ c) a.length b.length = b := by
  unfold imgRd
  apply List.ext_getElem
  · simp
  · intro i h1 h2
    simp only [List.getElem_map, List.getElem_range]
    rw [Array.getD_eq_getD_getElem?, List.getElem?_toArray, List.append_assoc, List.getElem?_append_right (by omega),
      show a.length + i - a.length = i by omega, List.getElem?_append_left h2, List.getElem?_eq_getElem h2]
    rfl

/-- What FWLOAD programs reads from the flash as it did from memory, up to the end of the slot. -/
theorem flash_part {i : Io} {t slot off n : Nat} {img : List Byte} (h : off + n ≤ slotSize t) :
    flashRd { i with flash := fwWritten i t slot img } (slotBase t slot) off n = imgRd img off n := by
  unfold flashRd fwWritten imgRd
  rw [Laws.read_eq]
  apply List.map_congr_left
  intro k hk
  have hk := List.mem_range.1 hk
  rw [Array.getD_eq_getD_getElem?, List.getElem?_toArray, Nat.add_assoc]
  by_cases hin : off + k < img.length
  · rw [Laws.get_write_inside hin, List.getD_eq_getElem?_getD]
  · rw [Laws.get_write_outside (by right; omega), List.getElem?_eq_none (by omega)]
    unfold fwErased
    rw [Laws.get_write_inside (by rw [List.length_replicate]; omega), List.getD_eq_getElem?_getD, List.getElem?_replicate,
      if_pos (by omega)]
    rfl

/-- It passes under the root of its key, as read from memory and as programmed into slot B. -/
theorem witness_CommandsSignalWaitAttestFwloadFreeze_image (i : Io) : imageOk (imgRd plainImage) 3 (sha3 weakKey) 1 = true ∧
    imageOk (flashRd { i with flash := fwWritten i 3 1 plainImage } (slotBase 3 1)) 3 (sha3 weakKey) 1 = true := by
  have lh : (imageHeader 3 1).length = 64 := rfl
  have lk : weakKey.length = 1312 := List.length_replicate
  have ls := weak_sig_len (sha3Bytes (imageHeader 3 1 ++ weakKey))
  have r1 : imgRd plainImage 0 64 = imageHeader 3 1 := by
    have := imgRd_part (a := []) (b := imageHeader 3 1) (c := weakKey ++ weakSig (sha3Bytes (imageHeader 3 1 ++ weakKey)))
    rw [lh, List.nil_append, ← List.append_assoc] at this; exact this
  have r2 : imgRd plainImage 0x40 1312 = weakKey := by
    have := imgRd_part (a := imageHeader 3 1) (b := weakKey) (c := weakSig (sha3Bytes (imageHeader 3 1 ++ weakKey)))
    rw [lh, lk] at this; exact this
  have r3 : imgRd plainImage 0 0x560 = imageHeader 3 1 ++ weakKey := by
    have := imgRd_part (a := []) (b := imageHeader 3 1 ++ weakKey) (c := weakSig (sha3Bytes (imageHeader 3 1 ++ weakKey)))
    rw [List.length_append, lh, lk, List.nil_append] at this; exact this
  have r4 : imgRd plainImage 0x560 2420 = weakSig (sha3Bytes (imageHeader 3 1 ++ weakKey)) := by
    have := imgRd_part (a := imageHeader 3 1 ++ weakKey) (b := weakSig (sha3Bytes (imageHeader 3 1 ++ weakKey))) (c := [])
    rw [List.length_append, lh, lk, ls, List.append_nil] at this; exact this
  have hh : imgHdr (fun _ _ => imageHeader 3 1) = ⟨0x1C0EB007, 3, 1, 0, 0⟩ := by decide +kernel
  have hs : (0x100000 : Nat) = slotSize 3 := rfl
  refine ⟨weak_image 1 r1 r2 r3 r4 hh (Nat.le_refl _), weak_image 1 ?_ ?_ ?_ ?_ hh (Nat.le_refl _)⟩
  · rw [flash_part (by omega), r1]
  · rw [flash_part (by omega), r2]
  · rw [flash_part (by omega), r3]
  · rw [flash_part (by omega), r4]
theorem witness_CommandsSignalWaitAttestFwloadFreeze_refused :
    (imgHdr (imgRd (imageHeader 3 1))).svn < 2 ∧ imageOk (imgRd (List.replicate 64 0xFF)) 3 0 0 = false ∧ 0 ≤ (imgHdr (imgRd (List.replicate 64 0xFF))).svn :=
  ⟨by decide +kernel, imageOk_magic _ _ _ _ (by decide +kernel), Nat.zero_le _⟩

/-- A launch that is over, with its ring on and mapped; an event ring whose oldest record has waited for its timer of 1 us. -/
theorem witness_CompletionAndEventTimer :
    let s := live { launch with done := 1 }
    (s.io.phase = .running ∧ s.chip.launches.find? 0 = some { launch with done := 1 } ∧ launchOver s.chip 0 { launch with done := 1 } = true ∧
      (s.net.ring launch.ring).en = true ∧ gatheredHeld s.chip (fun e => e.asid == launch.asid) = false ∧ ringHeld s launch.ring = false) ∧
    (match (ringWrite { s with chip := flushGathered s.chip fun e => e.asid == 3 } 8 (completionBytes 0 launch)).1 with
      | .ok => true | _ => false) = true ∧
    (let t : State := { fab with net := fab.net.setRing 8 { fab.net.ring 8 with unsent := [(150, leBytes 8 1)], timer := 1 } }
     (t.net.ring 8).unsent = (150, leBytes 8 1) :: [] ∧ 150 + (t.net.ring 8).timer * 850 ≤ t.io.clock ∧
       (t.net.rank (t.net.ring 8).drank).pmask ≠ 0) := by decide +kernel

/-! ## Task units -/

/-- The record of the launch's grid task, id 1, with a state (04 R88). -/
def withTask (s : State) (st : Nat) : State := { s with chip := s.chip.wr64 0x10000 (BitVec.ofNat 64 (st * 2 ^ 61 + 2 ^ 32 + 1)) }

/-- Its context: number 0 of core 0 of die 0, in ASID 3, at 0x30000, outside a handler, with a supervisor handler at 0x40000. -/
def ctx : Ctx := { Ctx.blank with task := 1, main := { Half.blank with
  pc := 0x30000, asid := 3, mask := 0xFFFF, stvec := 0x40001, tvec := 0x50001 } }
def crew : Crew := ⟨1, 1, [(0, 0)], 0, 0, 0, [], 0, none, false⟩
/-- The part with the task RUNNING in such a context. -/
def runningIn (k : Ctx) : State :=
  withTask { live launch with chip := (live launch).chip.setCore 0 0 { Core.init with ctxs := [(0, k)], crews := [(1, crew)], running := some 0 } } 2

/-- The entry of task 1. -/
def asks : QEnt := ⟨false, 1, [], 0, 0, false⟩
/-- Core 3, the only one that the launch may use, asks while die 0's level 2 holds the READY task. -/
def ready : State :=
  withTask { live { launch with cmask := 8 } with chip := (live { launch with cmask := 8 }).chip.modDie 0 fun y => { y with queues := [(2, [asks])] } } 1
theorem witness_CoreAsksAndBinds_ask : ready.io.phase = .running ∧ (ready.chip.die 0).slotUsed = false ∧ (ready.chip.die 0).adopting = [] ∧
    (takeFor ready.chip 0 3).map (fun k => (k.level, k.place, k.entry)) = some (2, 0, asks) ∧ freeCtxs (ready.chip.core 0 3) ≠ [] ∧
    (∀ j ∈ ((List.range 16).map fun k => ((ready.chip.die 0).lastAsk + 1 + k) % 16).takeWhile (· != 3), askServed ready.chip 0 j = false) ∧
    ready.chip.launchOf asks.task = some { launch with cmask := 8 } ∧ takeHeld ready.chip 0 asks.task = false ∧
    recState (ready.chip.recRd asks.task 0) = stReady ∧ (ready.chip.recRd asks.task 0).getLsbD 57 = false := by
  decide +kernel
theorem witness_CoreAsksAndBinds_used : ((ready.chip.modDie 0 fun y => { y with slotUsed := true }).die 0).slotUsed = true := by decide +kernel
theorem witness_CoreAsksAndBinds_bound : let s := runningIn { ctx with readyAt := 16 }
    let t : State := { s with chip := { s.chip with now := 16 } }
    (t.chip.core 0 0).crews.find? 1 = some crew ∧ ∀ p ∈ crew.ctxs, ∃ x, t.chip.ctx? 0 0 p.2 = some x ∧ x.readyAt ≤ t.chip.now := by
  refine ⟨by decide +kernel, ?_⟩
  intro p hp
  simp only [crew, List.mem_cons, List.not_mem_nil, or_false] at hp
  subst hp
  exact ⟨{ ctx with readyAt := 16 }, rfl, by decide⟩

theorem witness_AgeingRaisesLevels : fab.io.phase = .running := rfl

theorem witness_CrewSaveFreesTheCrew : let cr : Crew := { crew with saving := true }
    let l := { launch with preempting := some true }
    let s : State := { runningIn ctx with chip := { (runningIn ctx).chip.modCore 0 0 (fun co => { co with crews := [(1, cr)] }) with launches := [(0, l)] } }
    s.io.phase = .running ∧ s.chip.launchOf 1 = some l ∧ s.chip.findCrew 1 = some (0, 0, cr) ∧ cr.moveTo = none ∧ cr.task = 1 ∧
    crewQuiet s.chip 0 0 cr (fun t => taskSlot t == taskSlot 1) = true := by decide +kernel

/-- Whether every stretch of a list of offsets and lengths translates. -/
def stretchesOk (d asid base : Nat) : Chip → List (Nat × Nat) → Bool
  | _, [] => true
  | s, g :: gs => match xlRange s d asid ((base + g.1) % 2 ^ 64) g.2 .store with
    | (.error _, _) => false
    | (.ok p, t) => stretchesOk d asid base (touchAt t d asid 1 (withVas ((base + g.1) % 2 ^ 64) g.2 p)) gs
theorem stores_of_stretches (d asid base : Nat) (ss : List Seg) : ∀ (s : Chip) (ps : List (List (Nat × Nat) × List Byte)),
    stretchesOk d asid base s (ss.map fun g => (g.1, g.2.length)) = true →
    ∃ r, ss.foldl (fun (r : Except (Bool × Nat) (List (List (Nat × Nat) × List Byte) × Chip)) (g : Seg) =>
      match r with
      | .error e => .error e
      | .ok (ps, s) =>
        match xlRange s d asid ((base + g.1) % 2 ^ 64) g.2.length .store with
        | (.error e, _) => .error e
        | (.ok p, s) => .ok (ps ++ [(p, g.2)], touchAt s d asid 1 (withVas ((base + g.1) % 2 ^ 64) g.2.length p))) (.ok (ps, s)) = .ok r := by
  induction ss with
  | nil => intro s ps _; exact ⟨_, rfl⟩
  | cons g gs ih =>
    intro s ps h
    simp only [List.map_cons, stretchesOk] at h
    simp only [List.foldl_cons]
    split at h
    · cases h
    · rename_i p t e
      exact ih _ _ h
theorem storeSegs_ok {s : Chip} {d asid task base : Nat} {ss : List Seg}
    (h : stretchesOk d asid base s (ss.map fun g => (g.1, g.2.length)) = true) : ∃ t, storeSegs s d asid task base ss = .ok t := by
  obtain ⟨⟨ps, u⟩, hr⟩ := stores_of_stretches d asid base ss s [] h
  exact ⟨ps.foldl (fun s p => putPieces s task p.1 p.2) u, by
    unfold storeSegs
    split
    · rename_i e he; cases he.symm.trans hr
    · rename_i p t he; cases he.symm.trans hr; rfl⟩
theorem imaged_lengths (now : Nat) (co : Core) : (crewSegs now { co with banks := [] } launch crew).map (fun g => (g.1, g.2.length)) =
    (0x40, 0xFC0) :: (0x1000, Config.imageBytes) :: (List.range 16).map fun e => (imgWindow 1 + e * 0, 0) := by
  simp only [crewSegs, crewSegs.segBytes, crewBanks, List.filter_nil, List.map_nil, List.append_nil, List.map_cons, List.map_append,
    List.map_map, Laws.read_length, Function.comp_def, crew]
  rfl

/-- The image of that crew is stored: every page of its save area is mapped, here with CP 11. -/
theorem witness_CrewSaveFreesTheCrew_image :
    let s := (runningIn ctx).chip.wr64 0x2000 0x38F
    let x := crew.ctxs.foldl (fun s p => cancelDeferrals s 0 0 p.2) s
    ∃ t, storeSegs x 0 3 1 (launch.saveVa 1) (crewSegs x.now (x.core 0 0) launch crew) = .ok t := by
  intro s x
  have hb : x.core 0 0 = { x.core 0 0 with banks := [] } := rfl
  rw [hb]
  exact storeSegs_ok (by rw [imaged_lengths]; decide +kernel)

/-- An UNSTARTED task whose adoption waits for die 0's bind slot, with what is reserved for it on core 0; a PARKED one of core 1 that
has come to rest. -/
def pend (from_ : Option (Nat × Nat)) : PendAdopt := ⟨0, 0, 9, 1, from_, false⟩
def kept : Reserved := ⟨1, [0], 0, 0, 0, [], []⟩
def adopting (st : Nat) (from_ : Option (Nat × Nat)) : State :=
  withTask { live launch with chip := (((live launch).chip.setCore 0 0 { Core.init with reserved := [kept] }).setCore 0 1
    { Core.init with ctxs := [(0, ctx)], crews := [(1, crew)] }).modDie 0 fun y => { y with adopting := [pend from_] } } st
theorem witness_AdoptedCrewsBind_slot :
    let s := adopting 0 none
    slotAdoption s.chip 0 = some (pend none) ∧ s.chip.launchOf 1 = some launch ∧ s.chip.taskEnded 1 = false ∧
      (s.chip.core 0 0).reserved.find? (fun (r : Reserved) => r.task == 1) = some kept ∧ (s.chip.recRd 1 0).getLsbD 57 = false := by
  decide +kernel
theorem witness_AdoptedCrewsBind_move :
    let s := adopting 3 (some (0, 1))
    slotAdoption s.chip 0 = some (pend (some (0, 1))) ∧ s.chip.launchOf 1 = some launch ∧ (s.chip.core 0 1).crews.find? 1 = some crew := by
  decide +kernel

/-- A watchdog whose count has reached its LIMIT, and one that has one cycle to go. -/
def watched (n : Nat) : State :=
  { runningIn ctx with chip := (runningIn ctx).chip.modCore 0 0 fun co => { co with wdCount := n, wdLimit := 65536 } }
theorem watched_ctx (n : Nat) : (watched n).chip.ctx? 0 0 0 = some ctx := rfl
theorem witness_WatchdogFires :
    ((watched 65536).chip.core 0 0).wdLimit ≠ 0 ∧ ((watched 65536).chip.core 0 0).wdLimit ≤ ((watched 65536).chip.core 0 0).wdCount ∧
    watchdogCtx ((watched 65536).chip.core 0 0) = some 0 ∧ ctx.spare = none ∧ ctx.main.hold = none ∧
    ctx.main.hm = 0 ∧ vecEn ctx.main.stvec = true ∧ ((watched 65535).chip.core 0 0).wdCount < ((watched 65535).chip.core 0 0).wdLimit := by
  decide +kernel

/-- Task 1 blocked on a lock at 0x7000 with an owner, or with none. -/
def blocked (owner : Nat) : Ctx := { ctx with main := { ctx.main with block := some ⟨.lock, 0x7000, 0x7000, owner, false, true, 0, 0x40, false⟩ } }
/-- A launch of two tasks: 1, which waits, and 2, the owner, in a state. -/
def pair : Launch := { launch with gx := 2 }
def ownerIn (st : Nat) : State :=
  let s := runningIn (blocked 2)
  { s with chip := { s.chip with launches := [(0, pair)] }.wr64 0x10040 (BitVec.ofNat 64 (st * 2 ^ 61 + 2)) }
theorem witness_ChainWalkAndRetry :
    (blocked 2).main.block.isSome = true ∧ (runningIn (blocked 1)).chip.recHeld 1 = false ∧ (runningIn (blocked 1)).chip.storeHeld (lineOf 0x7000) = false ∧
    (runningIn (blocked 1)).chip.taskEnded 1 = false ∧ (runningIn (blocked 1)).chip.launchOf 1 = some launch ∧
    (∀ st ∈ [0, 2], (ownerIn st).chip.recHeld 2 = false ∧ (ownerIn st).chip.storeHeld (lineOf 0x7000) = false ∧ (ownerIn st).chip.taskEnded 2 = false ∧
      (ownerIn st).chip.launchOf 1 = some pair ∧ (ownerIn st).chip.launchOf 2 = some pair) ∧
    recState (((ownerIn 2).chip.recRead 2).recRd 2 0) = stRunning ∧
    (let y := (ownerIn 0).chip.recRead 2
     recState (y.recRd 2 0) = stUnstarted ∧ (y.recRd 2 0).getLsbD 58 = false ∧ adoptPending y 2 = false ∧ (y.core 0 0).adopt.length < 8 ∧
       (adoptFits y 0 0 2 stUnstarted).isSome = true) := by decide +kernel
/-- An async copy of context 0 whose source has been read, with flag 3, which claims lines. -/
def copying (claims : List Nat) (cs : List Chunk) : Async :=
  ⟨9, ⟨0, 0, 0, false, 1, 0, 1⟩, 0, .flag 3, .rows 0 false [], claims, 0, 0, none, some cs, 0, true, 0, [], 0, 0, none⟩
/-- A claim on the line of the owner's record. -/
theorem witness_ChainWalkAndRetry_held :
    ({ (ownerIn 0).chip with asyncs := [copying [0x10040 / 128] []] } : Chip).recHeld 2 = true := by decide +kernel
theorem runningIn_ctx (k : Ctx) : (runningIn k).chip.ctx? 0 0 0 = some k := rfl
theorem witness_ChainWalkAndRetry_nack : let k : Ctx := { blocked 0 with main := { (blocked 0).main with retryAt := some 0 } }
    k.main.retryAt = some 0 ∧ 0 ≤ (runningIn k).chip.now := by decide +kernel

/-- The end notice of a task with nothing in flight, and of one with a store in the path; a flush timer that has run out. -/
theorem witness_EndNoticesAndNodeTimers :
    let s := live { launch with notices := [(32 * 7 + 31, 1)] }
    let e : PathEntry := ⟨0, 0, false, 1, 3, .store 0x7000 [1] none, []⟩
    let t : FlushTimer := ⟨homeSlice 0x7000, 0x7000, 0x7000, 3, 5, false⟩
    let u : State := { fab with chip := { fab.chip.modDie 0 (fun y => { y with timers := [t] }) with now := 5 } }
    s.chip.launches.find? (taskSlot 1) = some { launch with notices := [(32 * 7 + 31, 1)] } ∧ taskQuiet s.chip 1 = true ∧
    taskQuiet (s.chip.modCore 0 0 fun co => { co with path := [e] }) 1 = false ∧
    timerOf (u.chip.die 0) (homeSlice 0x7000) 0x7000 = some t ∧ t.waiting = false ∧ t.fireAt ≤ u.chip.now ∧
    u.chip.storeHeld (lineOf 0x7000) = false ∧ fab.chip.now < t.fireAt := by decide +kernel

/-! ## Bundles -/

/-- The context's launch is a supervisor's (level 7), and the bundle that it is to issue has the header h and the word w in syllable n. -/
def headed (h n : Nat) (w : W32) : Bundle := ⟨(wordBundle n w).words.set 0 (BitVec.ofNat 32 h)⟩
def issuing (h n : Nat) (w : W32) : State :=
  let s := runningIn ctx
  { s with chip := { s.chip with launches := [(0, { launch with level := 7 })] }.wrMem 0x30000 ((headed h n w).words.toList.flatMap fun (x : W32) => leBytes 4 x.toNat) }
def fetched (s : State) : Fetch × Chip := fetchBundle s.chip 0 0 3 0x30000
def fetchedBytes (s : State) : List Byte := match (fetched s).1 with | .bytes b => b | _ => []
def fetchedBundle (s : State) : Bundle := bundleOfBytes (fetchedBytes s)
def gotBytes (s : State) : Bool := match (fetched s).1 with | .bytes _ => true | _ => false

theorem attempts {s : State} (hk : s.chip.ctx? 0 0 0 = some ctx) (hy : (fetched s).2.ctx? 0 0 0 = some ctx)
    (h : s.io.phase = .running ∧ throttled s = false ∧ (s.chip.core 0 0).running = some 0 ∧ mayIssue s.chip ⟨0, 0, 0, false⟩ ctx = true ∧
      gotBytes s = true ∧ ((fetched s).2.core 0 0).crews.find? 1 = some crew) : Attempts s 0 0 0 ctx crew (fetchedBundle s) (fetched s).2 where
  running := h.1
  cool := h.2.1
  turn := h.2.2.1
  ctx := hk
  may := h.2.2.2.1
  whole := rfl
  normal := rfl
  free := ⟨rfl, rfl, rfl, rfl, rfl⟩
  quiet := ⟨rfl, rfl, rfl, rfl⟩
  fetch := by
    have g := h.2.2.2.2.1
    refine ⟨fetchedBytes s, ?_, rfl⟩
    show fetched s = _
    revert g
    unfold gotBytes fetchedBytes
    rcases fetched s with ⟨f, y⟩
    cases f <;> intro g <;> first | rfl | cases g
  kept := ⟨hy, h.2.2.2.2.2⟩

/-- ADD s20, s20, −4 in syllable 1; SYSW of a system register from s12 in syllable 2; a header with bit 31 set. -/
def adding : State := issuing 1 1 0x031414FC
def sysWriting (r : Nat) : State := issuing 2 2 (0x9E180000 + BitVec.ofNat 32 (32 * r))
def misheaded : State := issuing (2 ^ 31) 1 0

theorem adding_issues : Issues adding 0 0 0 1 ctx crew (fetchedBundle adding) (fetched adding).2 where
  toAttempts := attempts rfl rfl (by decide +kernel)
  slot := by decide
  header := by decide +kernel
theorem witness_ComputingBundlesRetire : Issues adding 0 0 0 1 ctx crew (fetchedBundle adding) (fetched adding).2 ∧
    (fetchedBundle adding).ins ctx crew 1 = .ok (.s (.alu .add 20 (.reg 20) (.imm (-4)))) ∧
    ∃ out, computed ctx (.s (.alu .add 20 (.reg 20) (.imm (-4)))) = some out ∧
      (insWrites (.s (.alu .add 20 (.reg 20) (.imm (-4))))).eraseDups.length = 1 ∧ out.flags &&& gTe ctx.main.gmode = 0 :=
  ⟨adding_issues, by decide +kernel, _, rfl, by decide, by decide +kernel⟩
theorem witness_IntegerInstructions : Issues adding 0 0 0 1 ctx crew (fetchedBundle adding) (fetched adding).2 ∧
    (fetchedBundle adding).ins ctx crew 1 = .ok (.s (.alu .add 20 (.reg 20) (.imm (-4)))) := ⟨adding_issues, by decide +kernel⟩
theorem witness_ComputingBundlesRetire_header : Attempts misheaded 0 0 0 ctx crew (fetchedBundle misheaded) (fetched misheaded).2 ∧
    (fetchedBundle misheaded).badHeader = true := ⟨attempts rfl rfl (by decide +kernel), by decide +kernel⟩

/-- The five registers, and one more below 0x100. -/
theorem witness_SystemRegisterWrites : ∀ r ∈ [0, 0x005, 0x103, 0x104, 0x105, 0x106],
    Issues (sysWriting r) 0 0 0 2 ctx crew (fetchedBundle (sysWriting r)) (fetched (sysWriting r)).2 ∧
    (fetchedBundle (sysWriting r)).word 2 = 0x9E180000 + BitVec.ofNat 32 (32 * r) ∧
    (fetched (sysWriting r)).2.launchOf ctx.task = some { launch with level := 7 } := by
  intro r hr
  simp only [List.mem_cons, List.not_mem_nil, or_false] at hr
  rcases hr with rfl | rfl | rfl | rfl | rfl | rfl <;>
    exact ⟨⟨attempts rfl rfl (by decide +kernel), by decide, by decide +kernel⟩, by decide +kernel⟩
theorem slot2_env (b : Bundle) (bud bars nt : Nat) : decodeSlot ⟨b, bud, bars, nt⟩ 2 = decodeSlot ⟨b, bud, 0, 0⟩ 2 := rfl
theorem witness_SystemRegisterWrites_decode : ∀ r ∈ [0, 0x005, 0x103, 0x104, 0x105, 0x106], ∀ bars nt,
    decodeSlot ⟨fetchedBundle (sysWriting r), ctx.budget, bars, nt⟩ 2 = .ok (.s (.sysw r (.reg 12))) := by
  have h : ∀ r ∈ [0, 0x005, 0x103, 0x104, 0x105, 0x106],
      decodeSlot ⟨fetchedBundle (sysWriting r), ctx.budget, 0, 0⟩ 2 = .ok (.s (.sysw r (.reg 12))) := by decide +kernel
  intro r hr bars nt
  rw [slot2_env, h r hr]

/-! ## Memory, translation, answers, array and async work -/

/-- A load of 8 bytes at 0x7000, due at landing 3 in s20 and s21. -/
def loading : Landing :=
  ⟨0, false, false, 3, 20, 3, 0xFFFF, 0x7000, [⟨0, 0x7000, 0x7000, 8, false, true, some 0, true, true⟩], Vector.replicate 256 0, none, false, false, false, false, 2⟩
def storing : PathEntry := ⟨1, 0, false, 1, 3, .store 0x7000 [1, 2] none, []⟩
theorem witness_LoadsAndStores :
    let s := runningIn { ctx with landings := [loading] }
    let t : State := { runningIn ctx with chip := (runningIn ctx).chip.modCore 0 0 fun co => { co with path := [storing] } }
    s.io.phase = .running ∧ loading.parts ≠ [] ∧ loading.hasData = false ∧ (∀ p ∈ loading.parts, p.home = true) ∧ l1Find (s.chip.core 0 0).l1 (lineOf 0x7000) = none ∧ loading.dropped = false ∧ loading.spilled = false ∧
    arrivalBlocked s.chip 0 0 { ctx with landings := [loading] } loading = false ∧
    (t.chip.core 0 0).path[0]? = some storing ∧ pathReady t.chip 0 0 0 storing = true := by decide +kernel
theorem witness_LoadsAndStores_landing : ({ ctx with landings := [loading] } : Ctx).landings.find? (fun (m : Landing) => m.id == 0) = some loading := rfl

/-- A page that neither TLB holds and one that the core's holds; a leaf entry as walked, and one that has changed since. -/
def leaf (pte : W64) (a d : Bool) : TlbEnt := ⟨3, 0, 30, pte, 0x2000, 0, a, d, 0⟩
theorem witness_WalksAndGatheredBits :
    tlbFind (fab.chip.core 0 0).dtlb 3 0x7000 = none ∧ tlbFind (fab.chip.core 0 0).itlb 3 0x7000 = none ∧
    tlbFind (fab.chip.die 0).stlb 3 0x7000 = none ∧ (walk fab.chip 3 0x7000).map (fun e => (permFail e.pte .load, permFail e.pte .fetch)) = some (none, none) ∧
    walkHeld fab.chip 0 (fab.chip.core 0 0).dtlb 3 0x7000 = false ∧ walkHeld fab.chip 0 (fab.chip.core 0 0).itlb 3 0x7000 = false ∧
    (fab.chip.core 0 0).dtlb.length < 512 ∧ (fab.chip.core 0 0).itlb.length < 128 ∧ (fab.chip.die 0).stlb.length < 16384 ∧
    tlbFind (fab.chip.die 0).stlb 3 0x40000000 = none ∧ walk fab.chip 3 0x40000000 = none ∧ walkHeld fab.chip 0 (fab.chip.core 0 0).dtlb 3 0x40000000 = false ∧
    tlbFind ((fab.chip.modCore 0 0 fun co => { co with dtlb := [leaf 0x8F false false] }).core 0 0).dtlb 3 0x7000 = some (leaf 0x8F false false) ∧
    fab.chip.rd64 (leaf 0x8F true false).pteP = 0x8F ∧ pteFrame 0x8F ≠ pteFrame 0x4000008F := by decide +kernel

/-- The running context, held for a request. -/
def heldFor' (q : Req) : Ctx := { ctx with main := { ctx.main with hold := some ⟨q, none, wordBundle 7 0⟩ } }
def lockAt (w : W64) : State := let s := runningIn (heldFor' (.sync .lock 0x7000 0x7000 0 (some 1)))
  { s with chip := s.chip.wr64 0x7000 w }
theorem witness_AnswersReachBundles :
    let q : Req := .sync .lock 0x7000 0x7000 0 (some 1)
    let at7 := fun (v : W64) => (syncAt ((lockAt v).chip.l2Access 0x7000 (some 1)) .lock 0x7000 0x7000 0 ⟨⟨0, 0, 0, false⟩, 1, 3⟩)
    q.waits = true ∧ ((lockAt 0).chip.core 0 0).running = some 0 ∧ launchAsid (lockAt 0).chip ctx.task 0 = 3 ∧
    opFree (lockAt 0).chip ⟨0, 0, 0, false⟩ 3 (.sync .lock 0x7000 0x7000 0 (some 1)) = true ∧
    opFree (lockAt (2 ^ 32 + 2)).chip ⟨0, 0, 0, false⟩ 3 (.sync .lock 0x7000 0x7000 0 (some 1)) = true ∧
    (match (at7 0).1 with | .answer _ => true | _ => false) = true ∧
    (match (at7 (2 ^ 32 + 2)).1 with | .wait o => o == 2 | _ => false) = true ∧ (at7 (2 ^ 32 + 2)).2.recHeld ctx.task = false := by
  decide +kernel
theorem witness_AnswersReachBundles_held :
    (∀ q, (runningIn (heldFor' q)).chip.ctx? 0 0 0 = some (heldFor' q)) ∧
    gatheredHeld (runningIn (heldFor' .harvest)).chip (fun e => e.asid == 3) = false ∧
    (∀ l ∈ [(⟨5, 0x7000, 1, 0, some 1⟩ : AtLane)], rangeFree (runningIn (heldFor' (.atomic .add 4 [l]))).chip ⟨0, 0, 0, false⟩ (l.p, 4) = true) ∧
    (∀ q, (runningIn (heldFor' q)).chip.pastTurn (.adapters 0) (HalfId.order ⟨0, 0, 0, false⟩) = false) ∧
    ((runningIn (heldFor' (.adunpin 0))).chip.takeTurn (.adapters 0) 9).pastTurn (.adapters 0) (HalfId.order ⟨0, 0, 0, false⟩) = true :=
  ⟨fun _ => rfl, by decide +kernel, by decide +kernel, fun _ => rfl, by decide +kernel⟩

/-- 17 R424: a BARARR that finds PENDARR = 0 changes no count, its bytes included, and records 0xA0. -/
theorem test_late_arrival : ({ barInit 2 with pendarr := 0, pendb := 8 } : Barrier).arrive 4 =
    ({ barInit 2 with pendarr := 0, pendb := 8, err := true, ecode := 0xA0 }, none) := by decide +kernel

def copies (a : Async) : State := { runningIn ctx with chip := { (runningIn ctx).chip with asyncs := [a] } }
theorem witness_AsyncOperations : (copies (copying [] [])).chip.async? 9 = some (copying [] []) ∧
    asyncTurn (copies (copying [] [])).chip (copying [] []) = true ∧
    (∀ b ∈ (copies (copying [] [])).chip.asyncs, b.group = (copying [] []).group → b.id = 9) ∧
    (let a := copying [0x7000 / 128] [⟨true, 0x7000, 0, [1, 2], some 1⟩]
     (copies a).chip.async? 9 = some a ∧ (copies a).chip.held = [] ∧ asyncTurn (copies a).chip a = true ∧ lineFree (copies a).chip a (0x7000 / 128) = true) := by decide +kernel

theorem witness_BoundaryTrapsAndArrays_trap : let k : Ctx := { ctx with main := { ctx.main with poison := some 0x9000, block := (blocked 0).main.block } }
    (runningIn k).chip.launchOf k.task = some launch ∧ launch.killed = false ∧ k.readyAt = 0 ∧ k.spare = none ∧
    k.main.hold = none ∧ k.main.frozenAt = none ∧ k.main.arrived = false ∧ k.main.ended = false ∧ k.main.wdog = false ∧
    k.main.poison = some 0x9000 ∧ k.main.hm = 0 ∧ k.main.tdeleg.getLsbD 0x0F = false ∧ vecEn k.main.stvec = true := by decide +kernel
theorem witness_BoundaryTrapsAndArrays_array : let r : ArrayRun := ⟨0, false, 1, [(0, 0), (15, 0)], 0, [], []⟩
    let s := (runningIn ctx).chip.modCore 0 0 fun co => { co with arrays := [r] }
    (s.core 0 0).arrays[0]? = some r ∧ r.endAt ≤ s.now ∧ ctx.task = r.task ∧ ctx.spare = none := by decide +kernel

/-- A change in the series of placement entry 7: a PLACE command's, a TLDP's with a step to do on axis 0, and one with none. -/
def change (op : SeriesOp) : SeriesItem :=
  ⟨4, 3, 7, ⟨0, 0, 0, false, 1, 0, 1⟩, op, none, 0, [], [], none, [], 0, 0, 0, 0, [], 0, none, []⟩
def changes (is : List SeriesItem) : State := { live launch with chip := (live launch).chip.modDie 0 fun y => { y with series := is } }
theorem witness_ConversionSteps :
    (∀ op ∈ [.place 6 1 (List.replicate 64 0), .tldp 0 1 0 false [], .tldp 0 0 0 false []],
      (changes [change op]).chip.series? 0 4 = some (change op) ∧ seriesHead (changes [change op]).chip 0 (change op) = true ∧
      seriesKilled (changes [change op]).chip (change op) = false) ∧
    (let i := { change (.tldp 0 1 0 false []) with id := 5 }
     let s := changes [change (.tldp 0 1 0 false []), i]
     s.chip.series? 0 5 = some i ∧ seriesHead s.chip 0 i = false) ∧
    nextAxis ((changes []).chip.pent 0 3 7) 1 = some 0 ∧ nextAxis ((changes []).chip.pent 0 3 7) 0 = none ∧
    (let s := (changes [change (.tldp 0 1 0 false [])]).chip
     converting s 0 (change (.tldp 0 1 0 false [])) = false ∧ running s 0 < 8 ∧ tilesHeld s 0 (change (.tldp 0 0 0 false [])) (meshOf 0) [] = false) := by
  decide +kernel
/-- Eight conversions of other entries on the die. -/
theorem witness_ConversionSteps_full :
    let eight := (List.range 8).map fun n => { change (.tldp 0 1 0 false []) with id := 10 + n, entry := 10 + n }
    let s := (changes (change (.tldp 0 1 0 false []) :: eight)).chip
    let s := (List.range 8).foldl (fun (s : Chip) n => setPlaceBits s 0 3 (10 + n) 62 1 1) s
    seriesHead s 0 (change (.tldp 0 1 0 false [])) = true ∧ converting s 0 (change (.tldp 0 1 0 false [])) = false ∧ 8 ≤ running s 0 := by decide +kernel

/-! ## Registers, homes, traps, the watchdog, the read-out lock -/

theorem witness_HardwiredRegisters : Loc.s 20 ∈ insWrites (.s (.alu .add 20 (.reg 20) (.imm (-4)))) := by decide

theorem witness_AddressHomes : (7 < 8 ∧ Config.homeBytes - 1 < Config.homeBytes) ∧ Config.memBytes - 1 < Config.memBytes ∧
    fromLocal 7 (Config.homeBytes - 1) < Config.memBytes ∧ homeDie (fromLocal 7 (Config.homeBytes - 1)) = 7 ∧ fromLocal 0 0 = 0 := by
  decide +kernel

/-- A cause in slot 7, and the four ways a trap goes: a user handler, a supervisor handler, none at all, and a trap in one. -/
theorem witness_TrapEntryAndResume :
    let e : Cause := ⟨255, 255, 0x9000, 7, 255⟩
    let user := { ctx.main with tdeleg := 2 ^ 5 }
    e.code < 256 ∧ e.detail < 256 ∧ e.slot < 8 ∧ e.lane < 256 ∧ ctx.spare = none ∧ ctx.main.hm = 0 ∧ vecEn ctx.main.stvec = true ∧
    user.tdeleg.getLsbD 5 = true ∧ vecEn user.tvec = true ∧ (5 : Nat) ≠ 0x0D ∧ vecEn { ctx.main with stvec := 0x40000 }.stvec = false ∧
    ctx.main.tdeleg.getLsbD e.code = false := by decide +kernel
theorem witness_TrapEntryAndResume_nested : let k : Ctx := { ctx with main := { ctx.main with cause := 2 ^ 11 } }
    (runningIn k).chip.ctx? 0 0 0 = some k ∧ k.main.hm = 2 := ⟨rfl, by decide⟩

theorem witness_TrapEntryAndResume_resume : let k : Ctx := { ctx with main := { ctx.main with cause := 2 ^ 11 + 2 ^ 9 + 2 } }
    ctx.main.cause.getLsbD 9 = false ∧ k.main.cause.getLsbD 9 = true ∧ k.spare = none := by decide

theorem witness_WatchdogLimit : (runningIn ctx).chip.ctxOf? ⟨0, 0, 0, false⟩ = some ctx ∧
    ((watched 65535).chip.core 0 0).wdCount < ((watched 65535).chip.core 0 0).wdLimit ∧
    ((watched 65536).chip.core 0 0).wdLimit ≠ 0 := ⟨rfl, by decide, by decide⟩

theorem witness_ReadoutLock : let s : State := { inPhase .running with io := { (inPhase .running).io with rdlock := true } }
    s.io.rdlock = true ∧ 0x100000 ≤ 0x10FFF8 ∧ 0x10FFF8 < 0x110000 ∧ 0x3FFF8 < 0x40000 ∧ s.io.frzCause < 16 := by decide

/-! ## Words of the Irnov instruction set, from the spec's own examples (12 R299 to R320, 13 to 17) -/

theorem test_words_scalar : decodeWord 1 0x031414FC = .ok (.s (.alu .add 20 (.reg 20) (.imm (-4)))) ∧
    decodeWord 1 0x470205FD = .ok (.s (.cmp .lt 2 (.reg 5) (.imm (-3)))) ∧
    decodeWord 1 0x4B01140C = .ok (.s (.cmp .ge 1 (.reg 20) (.imm 12))) := by decide +kernel
theorem test_words_control : decodeWord 2 0x80400003 = .ok (.s (.br 1 false 3)) ∧ decodeWord 2 0x8A000000 = .ok (.s (.loop 144 0)) ∧
    decodeWord 2 0x9E180000 = .ok (.s (.sysw 0 (.reg 12))) ∧ decodeWord 2 0x96000000 = .ok (.s .exit) := by decide +kernel
theorem test_words_vector : decodeWord 3 0x000642C8 = .ok (.v (.bin .add false .f32 0 3 4 5)) ∧
    decodeWord 3 0x204442CA = .ok (.v (.cmp .lt .f32 1 2 4 5)) ∧ decodeWord 3 0x260E1848 = .ok (.v (.bcast .f32 0 7 (.reg 12))) ∧
    decodeWord 4 0x2A1094DA = .ok (.v (.cvt .bf16 .f32 false true 0 8 9)) := by decide +kernel
theorem test_words_array : decodeWord 5 0x00012465 = .ok (.m (.mul .mma true 0 1 1 2 2 3)) ∧
    decodeWord 5 0x18010010 = .ok (.m (.acalloc true 0 1 1)) ∧ decodeWord 5 0x1E190000 = .ok (.m (.shsetH 1 3)) ∧
    decodeWord 5 0x2280B9BB = .ok (.m (.fmtset 0x80B9BB)) := by decide +kernel
theorem test_words_cable : decodeWord 6 0x040A4009 = .ok (.x (.gred .sum .f32 0 5 4)) ∧
    decodeWord 6 0x02084090 = .ok (.x (.gbcast 9 0 4 4)) := by decide +kernel
theorem test_words_sync : decodeWord 7 0xA2002814 = .ok (.d (.fput 0 ⟨.scalar (.reg 20), 0⟩ (.reg 10))) ∧
    decodeWord 7 0xAA122800 = .ok (.d (.unlock 9 ⟨.scalar (.reg 20), 0⟩)) ∧
    decodeWord 7 0xBA001800 = .ok (.d (.dcdec 0 ⟨.scalar (.reg 12), 0⟩)) := by decide +kernel

/-- ADD | VADD | VLD | YIELD of R320's example, with the displacement 0x400 as a literal in syllable 2. -/
def lineBundle : Bundle := ⟨#v[0x4147, 0x031414FC, 0x400, 0x000642C8, 0, 0, 0, 0x178C2A11]⟩
theorem test_bundle : lineBundle.badHeader = false ∧ lineBundle.yields = true ∧ lineBundle.isLit 2 = true ∧
    decodeSlot ⟨lineBundle, 160, 32, 128⟩ 7 = .ok (.d (.vld .unit 6 ⟨.scalar (.reg 21), 0x400⟩ 2 0)) := by decide +kernel
theorem test_bundle_header : (⟨lineBundle.words.set 0 0xC147⟩ : Bundle).badHeader = true ∧
    decodeSlot ⟨⟨lineBundle.words.set 3 0x60000000⟩, 160, 32, 128⟩ 3 = .error .unimpl := by decide +kernel
/-- DSWITCH v9, A + 32, A + 320, 3 with its literal in syllable 7 (13 R336); FGET s30, c2, [s21 + 16], land=8 (17). -/
theorem test_literals : decodeSlot ⟨⟨#v[0x2042, 0, 0x8E902001, 0, 0, 0, 0, 0xA]⟩, 160, 32, 128⟩ 2 = .ok (.s (.dswitch 9 3 1 10)) ∧
    decodeSlot ⟨⟨#v[0x0142, 0, 0x10, 0, 0, 0, 0, 0xA03C2A83]⟩, 160, 32, 128⟩ 7 = .ok (.d (.fget 30 2 ⟨.scalar (.reg 21), 0x10⟩ 1)) := by
  decide +kernel
/-- The budget of registers is a bound of the decoder (R302, R314): s20 with SREG = 2 is ILLEGAL, with SREG = 3 it is not. -/
theorem test_budget : decodeSlot ⟨lineBundle, 32, 32, 128⟩ 1 = .error .illegal ∧ decodeSlot ⟨lineBundle, 48, 32, 128⟩ 1 ≠ .error .illegal := by
  decide +kernel

/-- A slot of each class, with the literal of lineBundle: the encoder gives the spec's words, which no other reading decodes to. -/
theorem witness_IrnovRoundTrip : let env : DecEnv := ⟨lineBundle, 160, 32, 128⟩
    encodeSlot env 1 (.s (.alu .add 20 (.reg 20) (.imm (-4)))) = some 0x031414FC ∧
    encodeSlot env 2 (.s (.br 1 false 3)) = some 0x80400003 ∧
    encodeSlot env 3 (.v (.bin .add false .f32 0 3 4 5)) = some 0x000642C8 ∧
    encodeSlot env 4 (.v (.cvt .bf16 .f32 false true 0 8 9)) = some 0x2A1094DA ∧
    encodeSlot env 5 (.m (.fmtset 0x80B9BB)) = some 0x2280B9BB ∧
    encodeSlot env 6 (.x (.gred .sum .f32 0 5 4)) = some 0x040A4009 ∧
    encodeSlot env 7 (.d (.vld .unit 6 ⟨.scalar (.reg 21), 0x400⟩ 2 0)) = some (env.bundle.word 7) ∧
    encodeSlot env 7 (.d (.fput 0 ⟨.scalar (.reg 20), 0⟩ (.reg 10))) = some 0xA2002814 := by decide +kernel
/-- Operands at the ends of their ranges, literals by their syllable, and instructions that have no word. -/
theorem test_encode_ends : let env : DecEnv := ⟨lineBundle, 160, 32, 128⟩
    encodeSlot env 2 (.s (.br 7 true (-1048576))) = some 0x81F00000 ∧ encodeSlot env 2 (.s (.jmp 1048576)) = none ∧
    encodeSlot env 1 (.s (.alu .add 159 (.lit 0x400) (.imm (-128)))) = some 0x039FF280 ∧
    encodeSlot env 1 (.s .exit) = none ∧ encodeSlot env 7 (.d (.ld 8 true 1 ⟨.scalar (.reg 1), 0⟩ 0 0)) = none ∧
    encodeSlot env 2 (.s (.divg 1 false false 5 0x400)) = some 0x8C401400 := by decide +kernel

end Sys2Proof.Tests
end

section
/-! PROOFS. The package (spec/01_package.md): the I/O die's invariant, reset, boot, freeze, links, power, records and the stacks'
background work. -/

namespace Sys2Proof.Proofs.Package
open Sys2Proof.Machine Sys2Proof.Laws

/-! ## The invariant of the I/O die (01 R16, R29, 03 R70 to R82) -/

/-- A sampled fall of PERST_N is no part of the invariant. -/
theorem inv_perstAt {i : Io} (h : i.Inv) (c : Option Nat) : ({ i with perstAt := c } : Io).Inv :=
  ⟨h.duty, h.plim, h.flash, h.staging, h.fail, h.op, h.frozen, h.pend, h.rosel⟩

/-- The I/O die as reset leaves it, phase 1 begun. -/
theorem inv_init_verify : ({ Io.init with phase := .verify } : Io).Inv where
  duty := by decide
  plim := by decide
  flash := ⟨rfl, nofun⟩
  staging := ⟨rfl, nofun⟩
  fail := ⟨by decide, nofun⟩
  op := nofun
  frozen := nofun
  pend := nofun
  rosel := ⟨by decide, nofun⟩

theorem inv_reset : State.reset.Inv := (ioStep_refreshShown _).inv inv_init_verify

/-- Settles O8, from the three things a step can do to the I/O die (step_io): what any row may do, sample PERST_N, reset. -/
theorem stepKeepsTheInvariant : Obligations.StepKeepsTheInvariant := by
  intro s t hs h
  have sampled : ∀ c, ({ s.io with perstAt := c } : Io).Inv := inv_perstAt hs
  rcases step_io h with row | ⟨-, fall⟩ | ⟨u, before, reset, -⟩
  · exact row.inv hs
  · show t.io.Inv
    rw [fall]; exact sampled _
  · have hu : u.Inv := by
      rcases before with row | fall
      · exact row.inv hs
      · show u.io.Inv
        rw [fall]; exact sampled _
    show t.io.Inv
    rw [reset]; exact inv_perstLow hu

/-- Settles O7: each value is a field of the records of reset; what a map does not list has its default. -/
theorem resetHoldsItsValues : Obligations.ResetHoldsItsValues := by
  have port : ∀ p, State.reset.net.port p = Port.init 0 := fun p => by
    unfold Net.port; split <;> rfl
  refine ⟨inv_reset, rfl, rfl, rfl, fun p => ?_, fun n => ⟨rfl, rfl⟩, fun q => rfl, fun d c => ⟨rfl, rfl⟩, fun p => rfl,
    fun a => rfl⟩
  rw [port p]
  exact ⟨rfl, rfl, rfl, rfl, rfl, rfl, rfl, rfl, rfl, rfl⟩

/-! ## PERST_N (01 R13, R19, R24) -/

theorem exec_perstRelease (s : State) : exec .perstRelease s = .next (perstHigh s) := rfl
theorem exec_perstAssert (s : State) : exec .perstAssert s = .next (perstFall s) := rfl

/-- Reset keeps what R19 and R24 say it keeps, and nothing else. -/
theorem resetTo_perstLow (s : State) : s.ResetTo (perstLow s) where
  phase := rfl
  chip := rfl
  net := rfl
  flash := rfl
  fuses := ⟨rfl, rfl, rfl, rfl⟩
  boot := ⟨rfl, rfl, rfl⟩
  power := ⟨rfl, rfl, rfl⟩
  freeze := ⟨rfl, rfl, rfl⟩
  links := fun _ => rfl
  remaps := fun k hk => by simp [perstLow, Io.afterReset, Io.stack, Vector.getD, hk]

/-- What PERST_N makes of a part does not rest on its clock, its agenda, or its compute part but for the counter of free values. -/
theorem resetTo_congr {s u t : State} (h : u.ResetTo t) (chip : u.chip.fresh = s.chip.fresh) (net : u.net = s.net)
    (io : ∃ c p, u.io = { s.io with clock := c, perstAt := p }) : s.ResetTo t := by
  obtain ⟨c, p, io⟩ := io
  exact { h with
    chip := by rw [h.chip, chip]
    net := by rw [h.net, net]
    flash := by rw [h.flash, io]
    fuses := by simpa only [io] using h.fuses
    remaps := fun k hk => by rw [h.remaps k hk, io]; rfl }

theorem perstDue_early {s : State} (h : ∀ c, s.io.perstAt = some c → s.io.clock < c) : perstDue s = s := by
  unfold perstDue
  split
  · exact if_neg (by have := h _ ‹_›; omega)
  · rfl

theorem perstDue_due {s : State} {c : Nat} (h : s.io.perstAt = some c) (hc : c ≤ s.io.clock) : perstDue s = perstLow s := by
  unfold perstDue; rw [h]; exact if_pos hc

theorem step_idle {s : State} (h : s.idle) : step s = .next (tick s) := by
  have none : dueRecord s = none := by
    unfold dueRecord
    split
    · rfl
    · exact if_neg (h _ _ ‹_›)
  unfold step; rw [none]

/-- The part at the end of a clock period, before what falls due in the new cycle; y is its compute part. -/
def clocked (s : State) (y : Chip) : State :=
  { s with agenda := waitDown s.agenda, chip := y, io := { s.io with clock := s.io.clock + 1 } }

theorem tick_frozen {s : State} (h : s.io.phase = .frozen) : tick s = perstDue (pumpMac (clocked s s.chip)) := by
  unfold tick; rw [h]; rfl

theorem tick_live {s : State} (hr : s.io.phase ≠ .reset) (hf : s.io.phase ≠ .frozen) :
    tick s = settle (freezeDue (perstDue (pumpMac (clocked s (chipTick (throttled s) (s.io.phase == .running) s.chip))))) := by
  unfold tick
  split
  · exact absurd ‹_› hr
  · exact absurd ‹_› hf
  · rfl

theorem pumpMac_none {s : State} (h : s.net.macWait = []) : pumpMac s = s := by
  unfold pumpMac; rw [h]; rfl

theorem freezeDue_none {s : State} (h : s.io.frzPend = none) : freezeDue s = s := by
  unfold freezeDue; rw [h]

theorem settle_still {s : State} (h : s.io.phase ≠ .running) : settle s = s := if_neg h

/-- A sampled fall of PERST_N resets the part at the end of the period in which its cycle comes. -/
theorem tick_reset {s : State} {c : Nat} (hr : s.io.phase ≠ .reset) (hm : s.net.macWait = []) (hp : s.io.perstAt = some c)
    (hc : c ≤ s.io.clock + 1) : s.ResetTo (tick s) := by
  have due : ∀ y : Chip, y.fresh = s.chip.fresh →
      s.ResetTo (perstLow (clocked s y)) ∧ perstDue (pumpMac (clocked s y)) = perstLow (clocked s y) := fun y hy => by
    refine ⟨resetTo_congr (resetTo_perstLow _) hy rfl ⟨_, _, rfl⟩, ?_⟩
    rw [pumpMac_none (show (clocked s y).net.macWait = [] from hm)]
    exact perstDue_due (s := clocked s y) hp hc
  by_cases hf : s.io.phase = .frozen
  · rw [tick_frozen hf, (due _ rfl).2]; exact (due _ rfl).1
  · obtain ⟨hto, e⟩ := due (chipTick (throttled s) (s.io.phase == .running) s.chip) rfl
    rw [tick_live hr hf, e, freezeDue_none rfl, settle_still (by simp [hto.phase])]
    exact hto

/-- Settles O11: PERST_N's row by row; a fall sampled earlier takes effect at a tick (tick_reset). -/
theorem perstSteps : Obligations.PerstSteps := by
  refine ⟨fun s h => ?_, fun s h => ?_, fun s h => ?_, fun s h => ?_,
    fun s c idle hr hm hp hc => ⟨_, step_idle idle, tick_reset hr hm hp hc⟩⟩
  · rw [exec_perstRelease, perstHigh, if_pos h]; rfl
  · rw [exec_perstRelease, perstHigh, if_neg h]
  · rw [exec_perstAssert, perstFall, perstDue_early fun c hc => by cases hc; exact h]; rfl
  · have now : perstFall s = perstLow (s.modIo fun i => { i with perstAt := some (edgeCycle i.refEdge) }) := perstDue_due rfl h
    exact ⟨_, rfl, by rw [now]; exact resetTo_congr (resetTo_perstLow _) rfl rfl ⟨_, _, rfl⟩, by rw [now]; rfl⟩

/-! ## Phase 1 of boot (01 R19, 03 R71, R74) -/

theorem exec_bootPhaseComplete (o : BootOutcome) (s : State) : exec (.bootPhaseComplete o) s = .next (phaseComplete s o) := rfl

theorem phaseComplete_verify {s : State} (o : BootOutcome) (h : s.io.phase = .verify) :
    phaseComplete s o = { s with io := verifyAll s.io } := by
  unfold phaseComplete; rw [h]; rfl

/-- The slot taken for a type is found from the flash and the fuses, which recording another type's slot leaves alone. -/
@[simp] theorem chooseSlot_withSlot (i : Io) (t b t' : Nat) : chooseSlot (i.withSlot t b) t' = chooseSlot i t' := rfl
@[simp] theorem flashRd_withSlot (i : Io) (t b base : Nat) : flashRd (i.withSlot t b) base = flashRd i base := rfl

@[simp] theorem bootSvn_withSlot (i : Io) (t b : Nat) :
    (i.withSlot t b).bootSvn = i.bootSvn.setIfInBounds (t - 1) (imgHdr (flashRd i (slotBase t b))).svn := rfl
@[simp] theorem meas_withSlot (i : Io) (t b : Nat) : (i.withSlot t b).meas = i.meas.setIfInBounds (t - 1)
    (sha3 (flashRd i (slotBase t b) 0 (0x560 + (imgHdr (flashRd i (slotBase t b))).len))) := rfl

theorem verifyFrom_some {i : Io} {t b : Nat} (ts : List Nat) (h : chooseSlot i t = some b) :
    verifyFrom i (t :: ts) = verifyFrom (i.withSlot t b) ts := by
  simp [verifyFrom, verifyType, h]

theorem verifyFrom_none {i : Io} {t : Nat} (ts : List Nat) (h : chooseSlot i t = none) :
    verifyFrom i (t :: ts) = { i with phase := .recovery, fail := t } := by
  simp [verifyFrom, verifyType, h]

theorem slots_withSlot (i : Io) (t b : Nat) {k : Nat} (hk : k < 3) :
    (i.withSlot t b).slots.getLsbD k = (i.slots.getLsbD k || (decide (b = 1) && decide (t - 1 = k))) := by
  have bit : (BitVec.ofNat 3 (2 ^ (t - 1))).getLsbD k = decide (t - 1 = k) := by
    rw [BitVec.getLsbD_ofNat, Nat.testBit_two_pow, decide_eq_true hk, Bool.true_and]
  by_cases h : b = 1
  · simp only [Io.withSlot, if_pos h, BitVec.getLsbD_or, bit, decide_eq_true h, Bool.true_and]
  · simp only [Io.withSlot, if_neg h, decide_eq_false h, Bool.false_and, Bool.or_false]

/-! Slots, measurements and SVNs once the three types are recorded. -/

theorem slots_withSlots {i : Io} (h : i.slots = 0) (b1 b2 b3 : Nat) (k : Fin 3) :
    (((i.withSlot 1 b1).withSlot 2 b2).withSlot 3 b3).slots.getLsbD k.val = decide ([b1, b2, b3].getD k.val 0 = 1) := by
  simp only [slots_withSlot _ _ _ k.isLt, h]
  fin_cases k <;> simp

theorem measured_withSlots (i : Io) (b1 b2 b3 : Nat) (k : Fin 3) :
    let rd := flashRd i (slotBase (k.val + 1) ([b1, b2, b3].getD k.val 0))
    let j := ((i.withSlot 1 b1).withSlot 2 b2).withSlot 3 b3
    j.bootSvn[k] = (imgHdr rd).svn ∧ j.meas[k] = sha3 (rd 0 (0x560 + (imgHdr rd).len)) := by
  fin_cases k <;> simp

/-- Settles O13: the types are taken one after another (verifyFrom_some), and each is judged on the same flash and fuses. -/
theorem bootVerification : Obligations.BootVerification := by
  intro s o hv hs
  have done : exec (.bootPhaseComplete o) s = .next { s with io := verifyFrom s.io [1, 2, 3] } := by
    rw [exec_bootPhaseComplete, phaseComplete_verify o hv]; rfl
  rw [done]
  refine ⟨fun n1 => ?_, fun n1 n2 => ?_, fun n1 n2 n3 => ?_, fun b1 b2 b3 h1 h2 h3 => ?_⟩
  · rw [verifyFrom_none _ n1]
  · obtain ⟨b1, h1⟩ := Option.ne_none_iff_exists'.1 n1
    rw [verifyFrom_some _ h1, verifyFrom_none _ (by simpa using n2)]
    exact ⟨_, rfl, rfl, rfl, rfl, rfl⟩
  · obtain ⟨b1, h1⟩ := Option.ne_none_iff_exists'.1 n1
    obtain ⟨b2, h2⟩ := Option.ne_none_iff_exists'.1 n2
    rw [verifyFrom_some _ h1, verifyFrom_some _ (by simpa using h2), verifyFrom_none _ (by simpa using n3)]
    exact ⟨_, rfl, rfl, rfl, rfl, rfl⟩
  · rw [verifyFrom_some _ h1, verifyFrom_some _ (by simpa using h2), verifyFrom_some _ (by simpa using h3)]
    exact ⟨_, rfl, rfl, slots_withSlots hs b1 b2 b3, measured_withSlots s.io b1 b2 b3⟩

/-! ## Freezing (01 R11, R13, R17, 03 R77, R78) -/

theorem exec_frzRequest (s : State) : exec .frzRequest s = .next (freeze s 0) := rfl

theorem exec_linkRetrainFailure {s : State} (d p : Nat) (h : s.io.phase = .zero ∨ s.io.phase = .running) :
    exec (.linkRetrainFailure d p) s = .next (freeze s 3) := by
  show (Host.Outcome.next (if _ then _ else _) : Result) = _
  rw [if_pos (by tauto)]

/-- THERMTRIP_N has gone low (01 R17). -/
def tripped (s : State) : State := { s with io := { s.io with thermTrip := true } }

theorem exec_thermalTrip {s : State} (h : s.io.phase ≠ .reset) : exec .thermalTrip s = .next (freeze (tripped s) 2) := by
  show (Host.Outcome.next (thermalTrip s) : Result) = _
  unfold thermalTrip
  rw [if_neg h]; rfl

theorem freezeDue_due {s : State} {n : Nat} {seen : BitVec 4} (h : s.io.frzPend = some (n, seen)) (hn : edgeCycle n ≤ s.io.clock) :
    freezeDue s = stopAt s n seen := by
  unfold freezeDue; rw [h]; exact if_pos hn

theorem freezeDue_early {s : State} {n : Nat} {seen : BitVec 4} (h : s.io.frzPend = some (n, seen)) (hn : s.io.clock < edgeCycle n) :
    freezeDue s = s := by
  unfold freezeDue; rw [h]; exact if_neg (by omega)

/-- A trigger of a part that is neither in reset nor frozen is registered; the part stops where its edge's cycle has come. -/
theorem freeze_live {s : State} (bit : Nat) (hr : s.io.phase ≠ .reset) (hf : s.io.phase ≠ .frozen) :
    freeze s bit = freezeDue (s.modIo fun i => { i with frzPend := some (noteTrigger i.frzPend s.io.refEdge bit) }) := by
  unfold freeze
  dsimp only
  split
  · exact absurd ‹_› hr
  · exact absurd ‹_› hf
  · rfl

/-- The first trigger, in a cycle that a reference edge registers. -/
theorem freeze_at_edge {s : State} (bit : Nat) (hr : s.io.phase ≠ .reset) (hf : s.io.phase ≠ .frozen) (hp : s.io.frzPend = none)
    (hc : edgeCycle s.io.refEdge ≤ s.io.clock) :
    freeze s bit = { s with chip := finishArrays s.chip, io := s.io.frozenBy (addTrigger 0 bit) (freezeCause (addTrigger 0 bit)) } := by
  have one : (s.modIo fun i => { i with frzPend := some (noteTrigger i.frzPend s.io.refEdge bit) }).io.frzPend =
      some (s.io.refEdge, addTrigger 0 bit) := by
    show some (noteTrigger s.io.frzPend s.io.refEdge bit) = _
    rw [hp]; rfl
  rw [freeze_live bit hr hf, freezeDue_due one hc]
  simp only [stopAt, Io.frozenBy, State.modIo, ← hp]

/-- A trigger before the cycle of the reference edge that registers it, with no other or with others of that edge. -/
theorem freeze_before_edge {s : State} (bit : Nat) (hr : s.io.phase ≠ .reset) (hf : s.io.phase ≠ .frozen)
    (hn : (noteTrigger s.io.frzPend s.io.refEdge bit).1 = s.io.refEdge) (hc : s.io.clock < edgeCycle s.io.refEdge) :
    freeze s bit = { s with io := { s.io with frzPend := some (noteTrigger s.io.frzPend s.io.refEdge bit) } } := by
  rw [freeze_live bit hr hf]
  exact freezeDue_early (n := (noteTrigger s.io.frzPend s.io.refEdge bit).1) rfl (by rw [hn]; exact hc)

theorem freeze_frozen_same_edge {s : State} (bit : Nat) (hf : s.io.phase = .frozen) (he : s.io.frzEdge = s.io.refEdge) :
    freeze s bit = { s with io := { s.io with frzSeen := addTrigger s.io.frzSeen bit
                                              frzCause := freezeCause (addTrigger s.io.frzSeen bit) } } := by
  unfold freeze; rw [hf]; exact if_pos he

theorem freeze_frozen_later {s : State} (bit : Nat) (hf : s.io.phase = .frozen) (he : s.io.frzEdge ≠ s.io.refEdge) :
    freeze s bit = s := by
  unfold freeze; rw [hf]; exact if_neg he

theorem sendMac_chip (s : State) (f : MacFrame) : (sendMac s f).chip = s.chip := by
  unfold sendMac; split <;> rfl

theorem pumpMac_chip (s : State) : (pumpMac s).chip = s.chip := by
  unfold pumpMac
  split
  · rfl
  · refine List.foldlRecOn (motive := fun t => t.chip = s.chip) _ _ ?_ fun t ht f _ => (sendMac_chip t f).trans ht
    rfl

theorem finishArrays_mem (y : Chip) : (finishArrays y).mem = y.mem := by
  unfold finishArrays
  refine List.foldlRecOn (motive := fun z => z.mem = y.mem) _ _ ?_ fun z hz e _ => (settleLeft_keeps z _ _).2.1.trans hz
  rfl

/-- A period that ends in the cycle of the edge at which triggers were registered stops the part. -/
theorem tick_stops {s : State} {n : Nat} {seen : BitVec 4} (hr : s.io.phase ≠ .reset) (hf : s.io.phase ≠ .frozen)
    (hl : s.io.perstAt = none) (hp : s.io.frzPend = some (n, seen)) (hn : edgeCycle n ≤ s.io.clock + 1) :
    ∃ u, tick s = stopAt u n seen ∧ u.chip.mem = s.chip.mem := by
  let u := pumpMac (clocked s (chipTick (throttled s) (s.io.phase == .running) s.chip))
  have hio : u.io = { s.io with clock := s.io.clock + 1 } := (keeps_pumpMac _).1
  have hchip : u.chip.mem = s.chip.mem := by
    rw [pumpMac_chip]; rfl
  refine ⟨u, ?_, hchip⟩
  rw [tick_live hr hf]
  show settle (freezeDue (perstDue u)) = _
  rw [perstDue_early (by rw [hio]; simp [hl]), freezeDue_due (by rw [hio]; exact hp) (by rw [hio]; exact hn)]
  exact settle_still (by simp [stopAt])

/-- Settles O15: a trigger stops the part at once in its edge's cycle, and before that waits for the tick that reaches it. -/
theorem freezeTriggers : Obligations.FreezeTriggers := by
  refine ⟨fun s hr hf hp hc => ⟨?_, ?_, fun d p h => ?_⟩, fun s hr hf hc => ⟨fun hp => ?_, fun seen hp => ?_⟩,
    fun s n seen idle hr hf hl hp hn => ?_, fun s hf he => ?_, fun s hf he => ⟨?_, ?_⟩⟩
  · rw [exec_frzRequest, freeze_at_edge 0 hr hf hp hc]; rfl
  · rw [exec_thermalTrip hr, freeze_at_edge (s := tripped s) 2 hr hf hp hc]; rfl
  · rw [exec_linkRetrainFailure d p h, freeze_at_edge 3 hr hf hp hc]; rfl
  · have first : ∀ bit, (noteTrigger s.io.frzPend s.io.refEdge bit).1 = s.io.refEdge := fun bit => by rw [hp]; rfl
    refine ⟨?_, ?_, fun d p h => ?_⟩
    · rw [exec_frzRequest, freeze_before_edge 0 hr hf (first _) hc, hp]; rfl
    · rw [exec_thermalTrip hr, freeze_before_edge (s := tripped s) 2 hr hf (first _) hc,
        show (tripped s).io.frzPend = none from hp]; rfl
    · rw [exec_linkRetrainFailure d p h, freeze_before_edge 3 hr hf (first _) hc, hp]; rfl
  · rw [exec_frzRequest, freeze_before_edge 0 hr hf (by rw [hp]; rfl) hc, hp]
    simp only [noteTrigger, if_true, addTrigger]; rfl
  · obtain ⟨u, e, hm⟩ := tick_stops hr hf hl hp hn
    exact ⟨_, step_idle idle, by rw [e]; rfl, by rw [e]; rfl, by rw [e]; rfl, by rw [e]; rfl,
      by rw [e]; exact (finishArrays_mem _).trans hm⟩
  · rw [exec_frzRequest, freeze_frozen_same_edge 0 hf he]; rfl
  · rw [exec_frzRequest, freeze_frozen_later 0 hf he]
  · rw [exec_thermalTrip (by rw [hf]; decide), freeze_frozen_later (s := tripped s) 2 hf he]; rfl

/-! ## Die links (01 R8, R10) -/

/-- The route to the die whose number differs in the bits of m. -/
theorem dieRoute_xor (s m : Nat) : dieRoute s (s ^^^ m) =
    (let low := if m.testBit 0 then 1 else if m.testBit 1 then 2 else 4
     if m = 0 then [] else if m = 1 ∨ m = 2 ∨ m = 4 ∨ m = 7 then [(s, portTo m)]
     else [(s, portTo low), (s ^^^ low, portTo (m ^^^ low))]) := by
  unfold dieRoute; rw [Nat.xor_xor_cancel_left]

theorem dieRoute_self (s : Nat) : dieRoute s s = [] := by simp [dieRoute]

theorem dieRoute_linkPeer (s : Nat) {j : Nat} (h : j < 4) : dieRoute s (linkPeer s j) = [(s, j)] := by
  have : j = 0 ∨ j = 1 ∨ j = 2 ∨ j = 3 := by omega
  rcases this with rfl | rfl | rfl | rfl <;> exact (dieRoute_xor ..).trans rfl

theorem dieRoute_two_bits (s : Nat) {a b : Nat} (hab : a < b) (hb : b < 3) :
    dieRoute s ((s ^^^ 2 ^ a) ^^^ 2 ^ b) = [(s, a), (s ^^^ 2 ^ a, b)] := by
  rw [Nat.xor_assoc, dieRoute_xor]
  have : (a = 0 ∧ b = 1) ∨ (a = 0 ∧ b = 2) ∨ (a = 1 ∧ b = 2) := by omega
  rcases this with ⟨rfl, rfl⟩ | ⟨rfl, rfl⟩ | ⟨rfl, rfl⟩ <;> rfl

theorem dieRoute_length (s t : Nat) : (dieRoute s t).length ≤ 2 := by
  unfold dieRoute
  dsimp only
  split
  · simp
  · split <;> simp

/-! ## Link events (01 R11, R28, 02 R35, R50) -/

theorem linkRetry_counts {s : State} (d p : Nat) (h : s.io.phase = .train ∨ s.io.phase = .zero ∨ s.io.phase = .running) :
    linkRetry s d p =
      { s with io := { s.io with links := s.io.links.put (5 * d + p) (s.io.links.getD (5 * d + p) 0 + 1) } } := by
  have on : linksOn s.io = true := by rcases h with h | h | h <;> simp [linksOn, h]
  unfold linkRetry; rw [on]; rfl

theorem exec_ethernetLinkUp {s : State} (p : Nat) (h : s.io.phase ≠ .reset) :
    exec (.ethernetLinkUp p) s = .next (s.modNet fun n => n.modPort p fun x => { x with link := true }) := by
  show (Host.Outcome.next (outOfReset s _) : Result) = _
  unfold outOfReset; rw [if_neg h]

theorem exec_ethernetLinkDown {s : State} (p : Nat) (h : s.io.phase ≠ .reset) :
    exec (.ethernetLinkDown p) s = .next (s.modNet fun n => n.modPort p fun x => { x with link := false }) := by
  show (Host.Outcome.next (outOfReset s _) : Result) = _
  unfold outOfReset; rw [if_neg h]

/-! ## Power control (01 R15 to R17, R29) -/

/-- The part with the readings of a step of power control, and the duty that it sets. -/
def powered (s : State) (tj dram w duty : Nat) : State :=
  { s with io := { s.io with pwr := w, tjmax := tj, throtT := decide (1680 ≤ tj ∨ 1520 ≤ dram), throtP := decide (s.io.plim < w)
                             duty := duty, throtNext := s.io.clock + 2 ^ 20 } }

theorem throttleStep_early {s : State} (tj dram w : Nat) (h : s.io.clock < s.io.throtNext) : throttleStep s tj dram w = s :=
  if_pos (.inr (.inr h))

theorem throttleStep_due {s : State} (tj dram w : Nat) (hr : s.io.phase ≠ .reset) (hf : s.io.phase ≠ .frozen)
    (h : s.io.throtNext ≤ s.io.clock) :
    let u := powered s tj dram w (throttle s.io tj dram w).duty
    throttleStep s tj dram w = if 1840 ≤ tj then thermalTrip u else u := by
  have read : (s.modIo fun i => { throttle i tj dram w with throtNext := i.clock + Io.period }) =
      powered s tj dram w (throttle s.io tj dram w).duty := by
    unfold powered; rw [Bool.decide_or]; rfl
  have due : ¬(s.io.phase = .reset ∨ s.io.phase = .frozen ∨ s.io.clock < s.io.throtNext) := by
    rintro (h1 | h1 | h1)
    · exact hr h1
    · exact hf h1
    · omega
  unfold throttleStep
  rw [if_neg due]
  dsimp only
  rw [read]; rfl

theorem duty_hot {i : Io} {tj dram w : Nat} (h : 1680 ≤ tj ∨ 1520 ≤ dram ∨ i.plim < w) :
    (throttle i tj dram w).duty = max 4 (i.duty - 1) := by
  refine if_pos ?_
  simpa [or_assoc] using h

theorem duty_not_hot {i : Io} {tj dram w : Nat} (h : ¬(1680 ≤ tj ∨ 1520 ≤ dram ∨ i.plim < w)) :
    (throttle i tj dram w).duty = if tj < 1600 ∧ dram < 1440 ∧ w + 50 < i.plim then min 16 (i.duty + 1) else i.duty := by
  refine (if_neg ?_).trans ?_
  · simpa [or_assoc] using h
  · simp [and_assoc]

/-- Settles O16: routes from the bits in which two dies differ; the duty by whether the readings are hot, cool or neither. -/
theorem linksAndThrottle : Obligations.LinksAndThrottle := by
  refine ⟨⟨fun s t _ _ => ⟨fun j hj => if_neg (by omega), rfl, dieRoute_self s, fun j hj => dieRoute_linkPeer s hj,
      fun a b => dieRoute_two_bits s, dieRoute_length s t⟩, fun s d p h => congrArg Host.Outcome.next (linkRetry_counts d p h),
      fun s h => ⟨exec_ethernetLinkUp 0 h, exec_ethernetLinkUp 1 h, exec_ethernetLinkDown 0 h, exec_ethernetLinkDown 1 h⟩⟩,
    fun s tj dram w hr hf => ⟨fun h => congrArg Host.Outcome.next (throttleStep_early tj dram w h), fun h => ?_⟩⟩
  have step := throttleStep_due tj dram w hr hf h
  refine ⟨(throttle s.io tj dram w).duty, fun ht => ?_, fun ht => ?_, duty_hot, fun hc => ?_, fun hc => ?_⟩
  · exact congrArg Host.Outcome.next (step.trans (if_neg (by omega)))
  · exact congrArg Host.Outcome.next (step.trans (if_pos ht))
  · rw [duty_not_hot (by omega), if_pos hc]
  · rw [duty_not_hot hc.1, if_neg hc.2]

/-! ## Refresh of the records (01 R26 to R29) -/

theorem exec_recordRefresh (temps : List Byte) (s : State) : exec (.recordRefresh temps) s =
    .next (if s.io.phase = .reset ∨ s.io.clock < s.io.showNext then s else s.modIo fun i => refreshRecords i temps) := rfl

/-- Changes of stacks change the stacks' records only. -/
theorem foldl_modStack_frame (f : Nat → Stack → Stack) (l : List Nat) (i : Io) :
    ∃ m, l.foldl (fun (i : Io) k => i.modStack k (f k)) i = { i with memStk := m } := by
  induction l generalizing i with
  | nil => exact ⟨i.memStk, rfl⟩
  | cons k t ih => obtain ⟨m, h⟩ := ih (i.modStack k (f k)); exact ⟨m, h⟩

theorem foldl_modStack_other {f : Nat → Stack → Stack} {l : List Nat} {k : Nat} (hk : k ∉ l) (i : Io) :
    (l.foldl (fun (i : Io) k => i.modStack k (f k)) i).stack k = i.stack k := by
  induction l generalizing i with
  | nil => rfl
  | cons j t ih =>
    rw [List.mem_cons, not_or] at hk
    rw [List.foldl_cons, ih hk.2, stack_mod_other _ hk.1]

/-- Each stack of a list is changed once. -/
theorem foldl_modStack_mem {f : Nat → Stack → Stack} {l : List Nat} {k : Nat} (hk : k ∈ l) (hl : l.Nodup) (h16 : k < 16) (i : Io) :
    (l.foldl (fun (i : Io) k => i.modStack k (f k)) i).stack k = f k (i.stack k) := by
  induction l generalizing i with
  | nil => cases hk
  | cons j t ih =>
    obtain ⟨hj, ht⟩ := List.nodup_cons.1 hl
    rw [List.foldl_cons]
    by_cases e : k = j
    · subst e; rw [foldl_modStack_other hj, stack_mod _ h16]
    · rw [ih (by simpa [e] using hk) ht, stack_mod_other _ e]

/-- The temperatures of stack k, from its 8 bytes (01 R27). -/
def withTemp (temps : List Byte) (k : Nat) (x : Stack) : Stack :=
  { x with baseTemp := leNat ((temps.drop (8 * k)).take 4), dramTemp := leNat ((temps.drop (8 * k + 4)).take 4) }

theorem withTemps_eq (i : Io) (temps : List Byte) :
    i.withTemps temps = (List.range 16).foldl (fun (i : Io) k => i.modStack k (withTemp temps k)) i := by
  unfold Io.withTemps withTemp; rfl

theorem withTemps_frame (i : Io) (temps : List Byte) : ∃ m, i.withTemps temps = { i with memStk := m } := by
  rw [withTemps_eq]; exact foldl_modStack_frame ..

theorem withTemps_stack {k : Nat} (hk : k < 16) (i : Io) (temps : List Byte) :
    (i.withTemps temps).stack k = withTemp temps k (i.stack k) := by
  rw [withTemps_eq]; exact foldl_modStack_mem (List.mem_range.2 hk) List.nodup_range hk i

/-- A refresh of what is shown changes that and the time of the next one. -/
theorem refreshShown_frame (i : Io) :
    i.refreshShown.shownNow = { i with shown := i.refreshShown.shown, showNext := i.clock + 2 ^ 20 } := rfl

/-- What a refresh shows rests neither on what was shown nor on the time of the next refresh. -/
theorem refreshShown_congr (i : Io) (w : AMap W64) (n : Nat) :
    ({ i with shown := w, showNext := n } : Io).refreshShown.shown = i.refreshShown.shown := by
  unfold Io.refreshShown; rfl

theorem refreshRecords_frame (i : Io) (temps : List Byte) : ∃ m, let j : Io := { i with memStk := m }
    refreshRecords i temps = { j with shown := j.refreshShown.shown, showNext := i.clock + 2 ^ 20 } := by
  obtain ⟨m, h⟩ := withTemps_frame i temps
  exact ⟨m, by rw [refreshRecords, h, refreshShown_frame]⟩

theorem refreshRecords_stack {k : Nat} (hk : k < 16) (i : Io) (temps : List Byte) :
    (refreshRecords i temps).stack k = withTemp temps k (i.stack k) := by
  have keep : ∀ j : Io, j.refreshShown.shownNow.stack k = j.stack k := fun _ => rfl
  rw [refreshRecords, keep, withTemps_stack hk]

/-- Settles O17: the temperatures stack by stack, then what is shown of the records as they then are. -/
theorem recordRefresh : Obligations.RecordRefresh := by
  intro s temps hr
  obtain ⟨m, frame⟩ := refreshRecords_frame s.io temps
  refine ⟨fun h => ?_, fun h => ⟨refreshRecords s.io temps, ?_, ?_, fun k hk => refreshRecords_stack hk s.io temps, ?_⟩⟩
  · rw [exec_recordRefresh, if_pos (.inr h)]
  · rw [exec_recordRefresh, if_neg (by simp [hr, h])]; rfl
  · rw [frame]
  · rw [frame]; exact (refreshShown_congr { s.io with memStk := m } _ _).symm

/-! ## Background work on the stacks (01 R20 to R25) -/

/-- The part once a piece of background work has left stack k as x; the delay that it added took a free value (log 2, 43). -/
def withStack (s : State) (k : Nat) (x : Stack) : State :=
  { s with chip := { s.chip with fresh := s.chip.fresh + 1 }, io := { s.io with memStk := s.io.memStk.setIfInBounds k x } }

theorem background_unaffordable {s : State} {k cost : Nat} (most : Nat) (f : Stack → Stack)
    (h : (s.io.stack k).affords s.io.clock cost = false) : background s k cost most f = s :=
  if_pos (by simp [h])

theorem background_done {s : State} {k cost : Nat} (most : Nat) (f : Stack → Stack) (on : stacksOn s.io = true)
    (h : (s.io.stack k).affords s.io.clock cost = true) : background s k cost most f =
      withStack s k (f ((s.io.stack k).worked s.io.clock cost (Config.freeChoice s.chip.fresh % (most + 1)))) :=
  if_neg (by simp [h, on])

theorem stacksOn_of_phase {i : Io} (h : i.phase = .zero ∨ i.phase = .running) : stacksOn i = true := by
  rcases h with h | h <;> simp [stacksOn, h]

theorem exec_refresh (k dram cost : Nat) (s : State) : exec (.refresh k dram cost) s = .next (refreshBank s k dram cost) := rfl
theorem exec_rowDisturbRefresh (k acts cost : Nat) (s : State) :
    exec (.rowDisturbRefresh k ⟨acts, cost⟩) s = .next (rowDisturb s k acts cost) := rfl
theorem exec_interfaceCalibration (k ch cost : Nat) (s : State) :
    exec (.interfaceCalibration k ⟨ch, cost⟩) s = .next (calibrate s k ch cost) := rfl

theorem rowDisturb_few {acts : Nat} (h : acts < 4096) (s : State) (k cost : Nat) : rowDisturb s k acts cost = s := if_pos h
theorem rowDisturb_many {acts : Nat} (h : 4096 ≤ acts) (s : State) (k cost : Nat) : rowDisturb s k acts cost =
    background s k cost bgDelay fun t => { t with rdmRefresh := t.rdmRefresh + 2 } := if_neg (by omega)

theorem calibrate_early {s : State} {k ch : Nat} (cost : Nat)
    (h : s.io.clock < (s.io.stack k).calNext.getD ch 0 ∨ s.io.clock < (s.io.stack k).calUntil) : calibrate s k ch cost = s :=
  if_pos (by tauto)
theorem calibrate_due {s : State} {k ch cost : Nat} (h1 : (s.io.stack k).calNext.getD ch 0 ≤ s.io.clock)
    (h2 : (s.io.stack k).calUntil ≤ s.io.clock) (h3 : cost ≤ 800) : calibrate s k ch cost =
      background s k cost cost fun t => { t with calRuns := t.calRuns + 1, calNext := t.calNext.put ch (s.io.clock + 2 ^ 28)
                                                 calUntil := s.io.clock + cost } :=
  if_neg (by simp only [calDelay]; omega)

/-- Work that the stack cannot afford is not done, whichever it is. -/
theorem unaffordable_rows {s : State} {k cost : Nat} (h : (s.io.stack k).affords s.io.clock cost = false) (dram acts ch : Nat) :
    refreshBank s k dram cost = s ∧ rowDisturb s k acts cost = s ∧ calibrate s k ch cost = s := by
  refine ⟨background_unaffordable _ _ h, ?_, ?_⟩
  · unfold rowDisturb
    split
    · rfl
    · exact background_unaffordable _ _ h
  · unfold calibrate
    dsimp only
    split
    · rfl
    · exact background_unaffordable _ _ h

/-- Settles O18: each row is the shared background step with its own counts. -/
theorem stackWork : Obligations.StackWork := by
  intro s k cost hk hp
  have on := stacksOn_of_phase hp
  refine ⟨fun ha => ⟨⟨Config.freeChoice s.chip.fresh % (bgDelay + 1), ?_, fun dram => ?_, fun acts h => ?_⟩, fun ch h1 h2 h3 =>
      ⟨Config.freeChoice s.chip.fresh % (cost + 1), ?_, ?_⟩⟩, fun ha dram acts ch => ?_, fun acts h => ?_, fun ch h => ?_,
    decide_eq_true_iff⟩
  · exact Nat.le_of_lt_succ (Nat.mod_lt _ (by decide))
  · exact congrArg Host.Outcome.next (background_done _ _ on ha)
  · rw [exec_rowDisturbRefresh, rowDisturb_many h, background_done _ _ on ha]; rfl
  · exact Nat.le_of_lt_succ (Nat.mod_lt _ (by omega))
  · rw [exec_interfaceCalibration, calibrate_due h1 h2 h3, background_done _ _ on ha]; rfl
  · obtain ⟨h1, h2, h3⟩ := unaffordable_rows ha dram acts ch
    rw [exec_refresh, exec_rowDisturbRefresh, exec_interfaceCalibration, h1, h2, h3]
    exact ⟨rfl, rfl, rfl⟩
  · rw [exec_rowDisturbRefresh, rowDisturb_few h]
  · rw [exec_interfaceCalibration, calibrate_early cost h]

/-! ## Patrol scrub and row remapping (01 R21, R22, R24) -/

theorem exec_patrolScrub (k err cost : Nat) (s : State) : exec (.patrolScrub k err cost) s = .next (scrub s k err cost) := rfl
theorem exec_spareRowRemap (k bank row cost : Nat) (s : State) :
    exec (.spareRowRemap k bank row cost) s = .next (remapRow s k bank row cost) := rfl

/-- A stack whose patrol scrub has read its next granule. -/
def scrubbed (t : Stack) (g : Nat) : Stack :=
  let last := decide (stackGranules ≤ g + 1)
  { t with scrubLines := t.scrubLines + 1, scrubAt := if last then 0 else g + 1
           scrubPass := if last then t.scrubPass + 1 else t.scrubPass }

theorem scrub_done {s : State} {k cost : Nat} (err : Nat) (on : stacksOn s.io = true)
    (h : (s.io.stack k).affords s.io.clock cost = true) : scrub s k err cost =
      eccError (withStack s k (scrubbed ((s.io.stack k).worked s.io.clock cost (Config.freeChoice s.chip.fresh % (bgDelay + 1)))
        (s.io.stack k).scrubAt)) (granuleAddr k (s.io.stack k).scrubAt) err := by
  unfold scrub
  rw [if_neg (by simp [on])]
  dsimp only
  rw [background_done _ _ on h]; rfl

theorem mem_insertGranule {g x : Nat} {l : List Nat} : x ∈ insertGranule g l ↔ x = g ∨ x ∈ l := by
  induction l with
  | nil => simp [insertGranule]
  | cons y t ih =>
    unfold insertGranule
    split
    · simp
    · split
      · subst ‹g = y›; simp
      · simp only [List.mem_cons, ih]; tauto

/-- The bytes of a granule that becomes poisoned take free values, and no others do (01 R21, log 46). -/
theorem rdMem_spoil_apart (c : Chip) {g q n : Nat} (h : q + n ≤ 64 * g ∨ 64 * g + 64 ≤ q) : (spoil c g).rdMem q n = c.rdMem q n := by
  refine read_write_apart ?_
  simpa [List.length_flatMap, leBytes_length] using h

/-- Once the errors found in it are dropped, a row does not call for a remap. -/
theorem rowFails_dropRow (t u : Stack) (clock bank row : Nat)
    (h : u.errors = t.errors.filter fun (e : EccError) => !e.inRow bank row) : u.rowFails clock bank row = false := by
  have none : u.errors.filter (fun (e : EccError) => e.inRow bank row) = [] := by
    rw [h, List.filter_filter]; simp
  unfold Stack.rowFails
  rw [none]; simp

theorem rowFails_iff (t : Stack) (clock bank row : Nat) : t.rowFails clock bank row = true ↔
    (let es := t.errors.filter fun (e : EccError) => e.inRow bank row
     (∃ e ∈ es, e.uncorr = true) ∨ 4 ≤ (es.filter fun (e : EccError) => decide (clock ≤ e.at_ + 73440000000000)).length) := by
  unfold Stack.rowFails
  rw [Bool.or_eq_true, List.any_eq_true, decide_eq_true_iff]; rfl

/-- A stack with a row remapped to a spare row of its bank (01 R24). -/
def remapped (t : Stack) (bank row : Nat) : Stack :=
  { t with otpUsed := t.otpUsed + 1, spareUsed := t.spareUsed.put bank (t.spareUsed.getD bank 0 + 1)
           remapCount := t.remapCount + 1, errors := t.errors.filter fun (e : EccError) => !e.inRow bank row }

theorem remapRow_done {s : State} {k bank row cost : Nat} (on : stacksOn s.io = true)
    (h : (s.io.stack k).affords s.io.clock cost = true) (hf : (s.io.stack k).rowFails s.io.clock bank row = true)
    (ho : (s.io.stack k).otpUsed < 512) (hs : (s.io.stack k).spareUsed.getD bank 0 < 32) : remapRow s k bank row cost =
      withStack s k (remapped ((s.io.stack k).worked s.io.clock cost (Config.freeChoice s.chip.fresh % (bgDelay + 1))) bank row) := by
  refine (if_neg ?_).trans (background_done _ _ on h)
  simp [hf, otpEntries, spareRows, ho, hs]

theorem remapRow_not {s : State} {k bank row : Nat} (cost : Nat) (h : (s.io.stack k).rowFails s.io.clock bank row = false ∨
    512 ≤ (s.io.stack k).otpUsed ∨ 32 ≤ (s.io.stack k).spareUsed.getD bank 0) : remapRow s k bank row cost = s :=
  if_pos (by simpa [otpEntries, spareRows] using h)

/-- Settles O19: the scrub is background work with the error that it finds; a remap drops the row's errors. -/
theorem scrubAndRemap : Obligations.ScrubAndRemap := by
  refine ⟨fun s k cost hk hp ha => ?_, fun s k bank row cost hk hp ha => ⟨fun hf ho hs => ?_, fun h => ?_, rowFails_iff ..⟩⟩
  · have on := stacksOn_of_phase hp
    refine ⟨Config.freeChoice s.chip.fresh % (bgDelay + 1), Nat.le_of_lt_succ (Nat.mod_lt _ (by decide)), ?_, ?_,
      _, (exec_patrolScrub ..).trans (congrArg _ (scrub_done 2 on ha)), rfl, rfl, rfl, fun x => mem_insertGranule,
      fun q n h => rdMem_spoil_apart _ h, rfl⟩
    · rw [exec_patrolScrub, scrub_done 0 on ha]; rfl
    · rw [exec_patrolScrub, scrub_done 1 on ha]; rfl
  · let t := (s.io.stack k).worked s.io.clock cost (Config.freeChoice s.chip.fresh % (bgDelay + 1))
    have done := remapRow_done (stacksOn_of_phase hp) ha hf ho hs
    have same : (withStack s k (remapped t bank row)).io.stack k = remapped t bank row := vec_set_same _ _ _ hk
    refine ⟨_, (exec_spareRowRemap ..).trans (congrArg _ done), rfl, rfl, rfl, ?_, ?_, fun b => ?_, ?_,
      fun j hj => vec_set_other _ _ _ hj⟩
    · rw [same]; rfl
    · rw [same]; rfl
    · rw [same]
      by_cases e : b = bank
      · subst e; rw [if_pos rfl]; exact getD_put_same
      · rw [if_neg e]; exact getD_put_other e
    · rw [same]; exact rowFails_dropRow t _ _ _ _ rfl
  · rw [exec_spareRowRemap, remapRow_not cost h]

end Sys2Proof.Proofs.Package
end

section
/-! PROOFS. Ports and transport (spec/02_ethernet.md): frame headers, frames dropped, flow control, management frames, messages accepted
in sequence, one-sided accesses, answers, timers and a new epoch. -/

namespace Sys2Proof.Proofs.Ethernet
open Sys2Proof.Machine Sys2Proof.Laws

/-! ## Headers as bytes (02 R36, R48) -/

theorem word64_flatMap_leBytes (ws : List Nat) (k : Nat) : word64 (ws.flatMap (leBytes 8)) k = ws.getD k 0 % 2 ^ 64 := by
  induction ws generalizing k with
  | nil => simp [word64, leNat]
  | cons w t ih =>
    cases k with
    | zero =>
      have head : (leBytes 8 w ++ t.flatMap (leBytes 8)).take 8 = leBytes 8 w := List.take_left' (leBytes_length ..)
      simp [word64, head, leNat_leBytes]
    | succ k =>
      have tail : (leBytes 8 w ++ t.flatMap (leBytes 8)).drop (8 * (k + 1)) = (t.flatMap (leBytes 8)).drop (8 * k) := by
        rw [Nat.mul_succ, Nat.add_comm, ← List.drop_drop, List.drop_left' (leBytes_length ..)]
      simpa [word64, tail] using ih k

theorem testBit_eq_of_div {w i : Nat} {b : Bool} (h : w / 2 ^ i % 2 = b.toNat) : w.testBit i = b := by
  rw [Nat.testBit_eq_decide_div_mod_eq, h]; cases b <;> rfl

theorem flag_eq_toNat_mul (b : Bool) (n : Nat) : (if b = true then n else 0) = b.toNat * n := by cases b <;> simp

/-- Settles O6: a header's words are those of its bytes, and each field is a digit of its word. -/
theorem frameHeadersRoundTrip : Obligations.FrameHeadersRoundTrip := by
  refine ⟨fun h hver hmt hdr hsr hgr hst hep hlen hpsn hack hsack hmsg hts hrsv => ?_, fun mtype tag maddr mlen hmt htag hma hlen => ?_⟩
  · obtain ⟨ver, mtype, ackv, ord, drank, srank, group, stream, epoch, len, psn, ackPsn, sack, msgid, tspec, rsv⟩ := h
    have a1 := ackv.toNat_lt
    have o1 := ord.toNat_lt
    simp only [hdrOf, hdrBytes, word64_flatMap_leBytes, flag_eq_toNat_mul, List.getD_cons_zero, List.getD_cons_succ, nfld,
      Hdr.mk.injEq] at *
    refine ⟨?_, ?_, testBit_eq_of_div ?_, testBit_eq_of_div ?_, ?_, ?_, ?_, ?_, ?_, ?_, ?_, ?_, ?_, ?_, ?_, ?_⟩ <;> omega
  · simp only [mhdrOf, mhdrBytes, word64_flatMap_leBytes, List.getD_cons_zero, List.getD_cons_succ, nfld, MHdr.mk.injEq]
    refine ⟨?_, ?_, ?_, ?_, ?_, ?_⟩ <;> omega

/-! ## The rows of the ports -/

theorem exec_vorbyCmd (f : RxFrame) (s : State) : exec (.vorbyCmd f) s = .next (receiveType s f 0) := rfl
theorem exec_vorbyRead (f : RxFrame) (s : State) : exec (.vorbyRead f) s = .next (receiveType s f 1) := rfl
theorem exec_vorbyWrite (f : RxFrame) (s : State) : exec (.vorbyWrite f) s = .next (receiveType s f 2) := rfl
theorem exec_vorbyAtomic (f : RxFrame) (s : State) : exec (.vorbyAtomic f) s = .next (receiveType s f 3) := rfl
theorem exec_vorbyReply (f : RxFrame) (s : State) : exec (.vorbyReply f) s = .next (receiveType s f 4) := rfl
theorem exec_vorbyNack (f : RxFrame) (s : State) : exec (.vorbyNack f) s = .next (receiveType s f 5) := rfl
theorem exec_vorbyEvent (f : RxFrame) (s : State) : exec (.vorbyEvent f) s = .next (receiveType s f 6) := rfl
theorem exec_vorbyPcopy (f : RxFrame) (s : State) : exec (.vorbyPcopy f) s = .next (receiveType s f 7) := rfl
theorem exec_vorbyPlpull (f : RxFrame) (s : State) : exec (.vorbyPlpull f) s = .next (receiveType s f 8) := rfl
theorem exec_vorbyAck (f : RxFrame) (s : State) : exec (.vorbyAck f) s = .next (receiveType s f 15) := rfl

theorem receive_vorby {s : State} {f : RxFrame} {e : Eth} (hm : macDrop s f = .ok e) (he : e.etype = 0x88B5) :
    receive s f = pfcLevel (receiveVorby s f.port e) f.port := by
  simp [receive, hm, he]

theorem countAt_running {s : State} (h : s.io.phase = .running) (p : Nat) (g : PortCounters → PortCounters) :
    countAt s p g = { s with net := s.net.count p g } :=
  if_neg (by rw [h]; decide)

theorem count_port (n : Net) (p : Nat) (g : PortCounters → PortCounters) :
    (n.count p g).port p = { n.port p with cnt := g (n.port p).cnt } := modPort_same ..

/-! ## Frames dropped (02 R31 to R34, R36, R47) -/

theorem exec_frameDropped {s : State} {f : RxFrame} (h : isDropped s f = true) : exec (.frameDropped f) s = .next (receive s f) :=
  congrArg Host.Outcome.next (if_pos h)

theorem exec_frameDropped_mac {s : State} {f : RxFrame} {k : Drop} (h : macDrop s f = .error k) (hk : k ≠ .silent) :
    exec (.frameDropped f) s = .next (countDrop s f.port k) := by
  have dropped : isDropped s f = true := by simp [isDropped, h, hk]
  rw [exec_frameDropped dropped]
  simp [receive, h]

/-- The MAC's checks on a frame with a header, at a running part's port whose link is up. -/
theorem macDrop_running {s : State} {f : RxFrame} {e : Eth} (hr : s.io.phase = .running) (hl : (s.net.port f.port).link = true)
    (he : ethOf f.bytes = some e) : macDrop s f =
      (let p := s.net.port f.port
       if macBad f e p.mac = true then .error .mac
       else if e.otherVid p.vid = true then .error .etype
       else if e.etype = 0x88B6 then
         (if p.mgmtMac ≠ 0 ∧ e.sa ≠ p.mgmtMac then .error .etype
          else if 2 ^ 21 < heldBytes s f.port (fun _ => true) + e.size then .error .buf
          else .ok e)
       else if e.etype = 0x88B5 then
         (if p.en = false then .error .etype
          else if 2 ^ 21 < heldBytes s f.port (fun _ => true) + e.size then .error .buf
          else .ok e)
       else if isPfc e = true then .ok e
       else .error .etype) := by
  simp [macDrop, bufferFull, hr, hl, he]

theorem macBad_iff (f : RxFrame) (e : Eth) (mac : BitVec 48) : macBad f e mac = true ↔
    (f.fcsOk = false ∨ e.size < 64 ∨ 9216 < e.size ∨ (e.da ≠ mac.toNat ∧ ¬(isPfc e = true ∧ e.da = pfcMac))) := by
  simp [macBad, or_assoc, imp_iff_not_or]

theorem otherVid_iff (e : Eth) (vid : Nat) :
    e.otherVid vid = true ↔ ∃ t, e.tci = some t ∧ t % 2 ^ 12 ≠ 0 ∧ t % 2 ^ 12 ≠ vid := by
  unfold Eth.otherVid
  cases e.tci <;> simp

/-- A Vorby frame is malformed, or for another group or rank (R34, R36). -/
def Misaddressed (s : State) (e : Eth) : Prop :=
  vorbyOf e = none ∨ ∃ h a d, vorbyOf e = some (h, a, d) ∧ (h.group ≠ s.net.port0.group ∨ h.drank ≠ s.net.port0.rank)

theorem receiveVorby_misaddressed {s : State} {e : Eth} (port : Nat) (h : Misaddressed s e) :
    receiveVorby s port e = countDrop s port .malf := by
  rcases h with unparsed | ⟨h, a, d, hv, foreign⟩
  · simp [receiveVorby, unparsed]
  · have drop : vorbyDrop s h = some .malf := if_pos foreign
    simp [receiveVorby, hv, drop]

theorem isDropped_misaddressed {s : State} {f : RxFrame} {e : Eth} (hm : macDrop s f = .ok e) (he : e.etype = 0x88B5)
    (h : Misaddressed s e) : isDropped s f = true := by
  rcases h with unparsed | ⟨h, a, d, hv, foreign⟩
  · simp [isDropped, hm, he, unparsed]
  · have drop : vorbyDrop s h = some .malf := if_pos foreign
    simp [isDropped, hm, he, hv, drop]

/-- Settles O20: the checks of the MAC in their order, then those of the Vorby header. -/
theorem framesDropped : Obligations.FramesDropped := by
  intro s f e running link he
  have checks := macDrop_running running link he
  have macGood := mt (macBad_iff f e (s.net.port f.port).mac).1
  have vidGood := mt (otherVid_iff e (s.net.port f.port).vid).1
  refine ⟨fun bad => ?_, fun good other => ?_, fun good vid full kind => ?_, fun good vid room vorby en malformed => ?_⟩
  · have drop : macDrop s f = .error .mac := by rw [checks]; exact if_pos ((macBad_iff ..).2 bad)
    exact (exec_frameDropped_mac drop (by decide)).trans (congrArg _ (countAt_running running ..))
  · have drop : macDrop s f = .error .etype := by
      simp only [checks, if_neg (macGood good)]
      rcases other with vid | ⟨h5, h6, pfc⟩ | ⟨h5, en⟩ | ⟨h6, mgmt⟩
      · rw [if_pos ((otherVid_iff ..).2 vid)]
      · simp [h5, h6, pfc]
      · simp [h5, en]
      · simp [h6, mgmt]
    exact (exec_frameDropped_mac drop (by decide)).trans (congrArg _ (countAt_running running ..))
  · have drop : macDrop s f = .error .buf := by
      simp only [checks, if_neg (macGood good), if_neg (vidGood vid)]
      rcases kind with ⟨h5, en⟩ | ⟨h6, mgmt⟩
      · rw [if_neg (by rw [h5]; decide), if_pos h5, if_neg (by simp [en]), if_pos full]
      · rw [if_pos h6, if_neg (by tauto), if_pos full]
    exact (exec_frameDropped_mac drop (by decide)).trans (congrArg _ (countAt_running running ..))
  · have ok : macDrop s f = .ok e := by
      simp only [checks, if_neg (macGood good), if_neg (vidGood vid)]
      rw [if_neg (by rw [vorby]; decide), if_pos vorby, if_neg (by simp [en]), if_neg room]
    rw [exec_frameDropped (isDropped_misaddressed ok vorby malformed), receive_vorby ok vorby, receiveVorby_misaddressed _ malformed]
    exact congrArg (fun t => Host.Outcome.next (pfcLevel t f.port)) (countAt_running running ..)

/-! ## Priority flow control (02 R33) -/

theorem exec_pfcFrame {s : State} {f : RxFrame} {e : Eth} (hm : macDrop s f = .ok e) (he : e.etype = 0x8808) :
    exec (.pfcFrame f) s = .next (receivePfc s f.port e.data) := by
  have kind : execPfcFrame f s = .next (receive s f) := by simp [execPfcFrame, receiveIf, hm, he]
  exact kind.trans (congrArg _ (by simp [receive, hm, he]))

theorem receivePfc_eq (s : State) (p : Nat) (data : List Byte) : receivePfc s p data =
    { s with net := s.net.modPort p fun x => { x with pausedTill := (s.net.port p).pauses s.io.clock data } } := rfl

theorem exec_pfcPauseExpiry (p prio : Nat) {s : State} (h : s.io.phase ≠ .reset) :
    exec (.pfcPauseExpiry p prio) s = .next (pauseExpiry s p prio) := congrArg Host.Outcome.next (if_neg h)

theorem pauses_getD (x : Port) (clock : Nat) (data : List Byte) {k : Nat} (hk : k < 8) : (x.pauses clock data).getD k 0 =
    if x.pfcEn.getLsbD k = true ∧ (beNat ((data.drop 2).take 2)).testBit k = true then
      (let q := beNat ((data.drop (4 + 2 * k)).take 2)
       if q = 0 then 0 else clock + (q * 544 + 999) / 1000)
    else x.pausedTill.getD k 0 := by
  simp [Port.pauses, Vector.getD, hk]

/-- Settles O21: a PFC frame sets the pauses of the port, and an expiry clears one that is over. -/
theorem pfcFrameAndExpiry : Obligations.PfcFrameAndExpiry := by
  refine ⟨fun s f e hm he => ⟨(s.net.port f.port).pauses s.io.clock e.data,
    (exec_pfcFrame hm he).trans (congrArg _ (receivePfc_eq ..)), fun k hk => ?_⟩, fun s p prio hp on past => ?_⟩
  · have value := pauses_getD (s.net.port f.port) s.io.clock e.data hk
    dsimp only at value ⊢
    split
    · rw [value, if_pos ‹_›]
    · rw [value, if_neg ‹_›]
  · rw [exec_pfcPauseExpiry _ _ hp]
    exact congrArg Host.Outcome.next (if_neg (by omega))

/-! ## Management frames (02 R48, R49) -/

section Rows
variable {s : State} {f : RxFrame} {e : Eth} (hm : macDrop s f = .ok e) (he : e.etype = 0x88B6)
include hm he

theorem mgmtType_of : mgmtType s f = some (mhdrOf e.data).mtype := by simp [mgmtType, hm, he]

theorem receive_mgmt : receive s f = receiveMgmt s f e := by simp [receive, hm, he]

theorem exec_mread (ht : (mhdrOf e.data).mtype = 0 ∨ 4 ≤ (mhdrOf e.data).mtype) :
    exec (.mread f) s = .next (receiveMgmt s f e) := by
  rw [← receive_mgmt hm he]
  exact congrArg Host.Outcome.next (if_pos (by simpa [mgmtType_of hm he] using ht))

theorem exec_mwrite (ht : (mhdrOf e.data).mtype = 1) : exec (.mwrite f) s = .next (receiveMgmt s f e) := by
  rw [← receive_mgmt hm he]
  exact congrArg Host.Outcome.next (if_pos (by simp [mgmtType_of hm he, ht]))

theorem exec_mreplyReceived (ht : (mhdrOf e.data).mtype = 2 ∨ (mhdrOf e.data).mtype = 3) :
    exec (.mreplyReceived f) s = .next (receiveMgmt s f e) := by
  rw [← receive_mgmt hm he]
  exact congrArg Host.Outcome.next (if_pos (by simpa [mgmtType_of hm he] using ht))

end Rows

theorem mgmtAnswer_eq (s : State) (f : RxFrame) (e : Eth) (h : MHdr) (ok : Bool) (data : List Byte) : mgmtAnswer s f e h ok data =
    (let x := s.net.port f.port
     let data := mhdrBytes (if ok then 2 else 3) h.tag h.maddr data.length ++ data
     { s with net :=
        if macHeld s s.net.macWait f.port x.pcpCtl then
          { s.net with macWait := s.net.macWait ++ [⟨f.port, e.sa, x.pcpCtl, 0x88B6, data⟩] }
        else { s.net with wire := s.net.wire ++
          [⟨f.port, s.io.clock, ethBytes e.sa x.mac.toNat x.pcpCtl x.vid 0x88B6 data⟩] } }) := by
  unfold mgmtAnswer sendMac
  dsimp only
  split
  · simp [State.modNet, *]
  · simp [State.modNet, putWire, *]

theorem mgmtOk_iff (mtype tag maddr n : Nat) : mgmtOk ⟨1, mtype, tag, maddr, 8 * n, 0⟩ = true ↔
    mtype ≤ 1 ∧ (maddr % 8 = 0 ∧ 1 ≤ n ∧ n ≤ 128 ∧ maddr + 8 * n ≤ 2 ^ 32) := by
  simp only [mgmtOk, beq_self_eq_true, Bool.and_eq_true, beq_iff_eq, decide_eq_true_eq, true_and]
  omega

section Request
variable {f : RxFrame} {e : Eth} {h : MHdr} (s : State) (hd : mhdrOf e.data = h)
include hd

theorem receiveMgmt_answer (ht : h.mtype = 2 ∨ h.mtype = 3) : receiveMgmt s f e = s :=
  if_pos (by rwa [hd])

theorem receiveMgmt_malformed (ht : ¬(h.mtype = 2 ∨ h.mtype = 3)) (bad : ¬mgmtOk h = true) :
    receiveMgmt s f e = mgmtAnswer s f e h false [] := by
  simp [receiveMgmt, hd, ht, bad]

theorem receiveMgmt_read (ht : h.mtype = 0) (ok : mgmtOk h = true) {n : Nat} (hn : h.mlen = 8 * n) : receiveMgmt s f e =
    mgmtAnswer s f e h true ((List.range n).flatMap fun k => leBytes 8 (mgmtRead s (h.maddr + 8 * k)).toNat) := by
  simp [receiveMgmt, hd, ok, ht, hn]

theorem receiveMgmt_write (ht : h.mtype = 1) (ok : mgmtOk h = true) {n : Nat} (hn : h.mlen = 8 * n) {d : List Byte}
    (hp : e.payload 16 (8 * n) = some d) : receiveMgmt s f e =
      (let r := mgmtWrites s h.maddr ((List.range n).map fun k => BitVec.ofNat 64 (word64 d k))
       mgmtAnswer r.2 f e h r.1 []) := by
  simp [receiveMgmt, hd, ok, ht, hn, hp]

end Request

/-- Settles O22: a request is handled by its type if it is well formed, and answered on its port. -/
theorem managementFrames : Obligations.ManagementFrames := by
  intro s f e mtype tag maddr n hm he hd
  have type : (mhdrOf e.data).mtype = mtype := by rw [hd]
  have ok := mgmtOk_iff mtype tag maddr n
  have malformed : ¬(mtype = 2 ∨ mtype = 3) →
      ¬(mtype ≤ 1 ∧ (maddr % 8 = 0 ∧ 1 ≤ n ∧ n ≤ 128 ∧ maddr + 8 * n ≤ 2 ^ 32)) →
      receiveMgmt s f e = mgmtAnswer s f e ⟨1, mtype, tag, maddr, 8 * n, 0⟩ false [] := fun request bad =>
    receiveMgmt_malformed s hd request (mt ok.1 bad)
  refine ⟨fun read good => ?_, fun read bad => ?_, fun reserved => ?_, fun write good d hp => ?_, fun write bad => ?_, fun answer => ?_⟩
  · refine (exec_mread hm he (.inl (type.trans read))).trans (congrArg _ ?_)
    exact (receiveMgmt_read s hd read (ok.2 ⟨by omega, good⟩) rfl).trans (mgmtAnswer_eq ..)
  · exact (exec_mread hm he (.inl (type.trans read))).trans (congrArg _ ((malformed (by omega) fun h => bad h.2).trans (mgmtAnswer_eq ..)))
  · exact (exec_mread hm he (.inr (by omega))).trans
      (congrArg _ ((malformed (by omega) fun h => absurd h.1 (by omega)).trans (mgmtAnswer_eq ..)))
  · refine (exec_mwrite hm he (type.trans write)).trans (congrArg _ ?_)
    exact (receiveMgmt_write s hd write (ok.2 ⟨by omega, good⟩) rfl hp).trans (mgmtAnswer_eq ..)
  · exact (exec_mwrite hm he (type.trans write)).trans (congrArg _ ((malformed (by omega) fun h => bad h.2).trans (mgmtAnswer_eq ..)))
  · exact (exec_mreplyReceived hm he (by rwa [type])).trans (congrArg _ (receiveMgmt_answer s hd answer))

/-! ## A message accepted in sequence -/

section Took
variable (s : State) (f : RxFrame) (h : Hdr)

@[simp] theorem took_chip : (s.took f h).chip = s.chip := rfl
@[simp] theorem took_io : (s.took f h).io = s.io := rfl
@[simp] theorem took_rank (r : Nat) : (s.took f h).net.rank r = s.net.rank r := by
  simp [State.took, Net.rank, count_receive]
@[simp] theorem took_queues : (s.took f h).net.queues = s.net.queues := by simp [State.took, count_receive]
@[simp] theorem took_queue (q : Nat) : (s.took f h).net.queue q = s.net.queue q := by simp [Net.queue]
@[simp] theorem took_windows : (s.took f h).net.windows = s.net.windows := by simp [State.took, count_receive]
@[simp] theorem took_window (w : Nat) : (s.took f h).net.window w = s.net.window w := by simp [Net.window]
@[simp] theorem took_outst : (s.took f h).net.outst = s.net.outst := by simp [State.took, count_receive]
theorem took_port : (s.took f h).net.port f.port = { s.net.port f.port with
    cnt := { (s.net.port f.port).cnt with rxFrames := bump (s.net.port f.port).cnt.rxFrames } } :=
  modPort_same ..

end Took

/-- A message that is done with at its first attempt leaves what the attempt leaves. -/
theorem receiveType_done {s t : State} {f : RxFrame} {e : Eth} {h : Hdr} {a : W64} {d : List Byte} {k : Nat}
    (q : InSequence s f e h a d) (hk : h.mtype = k) (ht : tryMsg (s.took f h) [] (accept_none s f e h a d) = (t, none)) :
    receiveType s f k = t := by
  rw [receive_ran q k hk, ht]

/-! ## Commands (02 R37, 03 R54) -/

theorem tryMsg_cmd (s : State) {p : RxPending} (hm : p.msg.mtype = 0) : tryMsg s [] p =
    if (s.net.rank p.msg.srank).h = true then
      (cmdArrive s (p.msg.tspec % 64) ⟨p.msg.srank, p.msg.stream, p.msg.msgid, p.no, p.msg.ord, p.msg.payload⟩, none)
    else (refuseMsg s p 2 0 none true, none) := by
  cases hh : (s.net.rank p.msg.srank).h <;> simp [tryMsg, hm, hh]

section Arrive
variable {s : State} {q : Nat} (c : Cmd)

theorem cmdArrive_disabled (off : (s.net.queue q).en = false) : cmdArrive s q c = answerCmd { s with
    net := s.net.setQueue q { s.net.queue q with refused := bump (s.net.queue q).refused } } c 0x0B 0 [] := by
  simp [cmdArrive, off, Net.modQueue, State.modNet]

theorem cmdArrive_full (on : (s.net.queue q).en = true) (full : 64 ≤ (s.net.queue q).pending.length) :
    cmdArrive s q c = answerCmd { s with
      net := s.net.setQueue q { s.net.queue q with refused := bump (s.net.queue q).refused } } c 4 0 [] := by
  simp [cmdArrive, on, full, Net.modQueue, State.modNet]

theorem cmdArrive_room (on : (s.net.queue q).en = true) (room : (s.net.queue q).pending.length < 64) :
    cmdArrive s q c = { s with net := s.net.setQueue q { s.net.queue q with
      accepted := bump (s.net.queue q).accepted, pending := (s.net.queue q).pending ++ [c] } } := by
  simp [cmdArrive, on, room, Net.modQueue, State.modNet]

end Arrive

/-- Settles O23: the first attempt at a CMD message queues or answers it. -/
theorem commandsQueue : Obligations.CommandsQueue := by
  intro s f e h addr payload q hm
  have first := tryMsg_cmd (s.took f h) (p := accept_none s f e h addr payload) hm
  have arrives : (s.net.rank h.srank).h = true → receiveType s f 0 = cmdArrive (s.took f h) (h.tspec % 64)
      ⟨h.srank, h.stream, h.msgid, s.net.nextRx, h.ord, payload⟩ := fun host =>
    receiveType_done q hm (first.trans (if_pos ((congrArg RankEnt.h (took_rank s f h h.srank)).trans host)))
  have same := took_queue s f h (h.tspec % 64)
  rw [exec_vorbyCmd]
  refine ⟨fun host on room => ?_, fun host on full => ?_, fun host off => ?_, fun guest => ?_⟩
  · rw [arrives host, cmdArrive_room _ (by rwa [same]) (by rwa [same]), same]
  · rw [arrives host, cmdArrive_full _ (by rwa [same]) (by rwa [same]), same]
  · rw [arrives host, cmdArrive_disabled _ (by rwa [same]), same]
  · rw [receiveType_done q hm (first.trans (if_neg (by simp [accept_none, messageOf, guest])))]
    simp [refuseMsg, rowOf, accept_none, messageOf, hm]

/-! ## One-sided accesses (02 R42 to R46) -/

/-- Types of the one-sided accesses (R37). -/
def OneSided (mtype : Nat) : Prop := mtype = 1 ∨ mtype = 2 ∨ mtype = 3 ∨ mtype = 7 ∨ mtype = 8

/-- INFLIGHT of a window counts a message past its lookup (R42 step 4). -/
def opened (s : State) (w : Nat) : State :=
  s.modNet fun n => n.setWindow w { n.window w with inflight := (n.window w).inflight + 1 }

@[simp] theorem opened_chip (s : State) (w : Nat) : (opened s w).chip = s.chip := rfl

theorem tryMsg_window {s : State} {p : RxPending} {w : Nat} (hm : OneSided p.msg.mtype) (hp : p.window = none)
    (hw : windowCheck s p.msg = .ok w) (hi : inFlight s < 1023) : tryMsg s [] p =
      serveMsg (opened s w) [] { p with begun := true, window := some (winRef s w) } (winRef s w) := by
  rcases hm with hm | hm | hm | hm | hm <;> simp [tryMsg, opened, hm, hp, hw, hi]

theorem msgBytes_congr {s t : State} (h : t.chip = s.chip) (asid : Nat) (m : Msg) : msgBytes t asid m = msgBytes s asid m := by
  unfold msgBytes; rw [h]

theorem pullState_congr {s t : State} (h : t.chip = s.chip) (asid : Nat) (m : Msg) : pullState t asid m = pullState s asid m := by
  unfold pullState; rw [h]

theorem windowCheck_congr {s t : State} (hc : t.chip = s.chip) (hw : t.net.windows = s.net.windows) (m : Msg) :
    windowCheck t m = windowCheck s m := by
  unfold windowCheck findWindowOf Net.window
  simp only [hw, msgBytes_congr hc]

theorem unanswered_congr {s t : State} (h : t.net.queues = s.net.queues) (before : List RxPending) (p : RxPending) :
    unanswered t before p = unanswered s before p := by
  unfold unanswered; rw [h]

/-- The answer takes the message out of INFLIGHT again. -/
theorem freeWindow_opened {s : State} {w : Nat} {c : Chip} {p : RxPending} (hp : p.window = some (winRef s w)) :
    freeWindow { opened s w with chip := c } p = { s with chip := c, net := s.net.passed w } := by
  simp [freeWindow, hp, winRef, opened, Net.passed, State.modNet]

/-! Step 6 at translated pieces that no claim holds. -/

section Access
variable {s : State} {p : RxPending} {asid : Nat} {ps : List (Nat × Nat × Nat)}

theorem accessMsg_read (hm : p.msg.mtype = 1 ∨ p.msg.mtype = 8) (hh : msgHeld s.chip p.msg ps = false)
    (hp : ioPoison s.chip ps = none) : accessMsg s p asid ps =
      (replyMsg (freeWindow { s with chip := touchL2 s.chip asid false ps } p) p 0 (ps.flatMap fun x => s.chip.rdMem x.2.1 x.2.2),
        none) := by
  rcases hm with hm | hm <;> simp [accessMsg, hh, hm, hp, ioRead]

theorem accessMsg_atomic (hm : p.msg.mtype = 3) (hh : msgHeld s.chip p.msg ps = false) : accessMsg s p asid ps =
    (let l := wireLane s.chip asid p.msg ps
     let r := atomicMem s.chip l.1 (atWidth p.msg) (p.msg.tspec.testBit 5) [l.2]
     (replyMsg (freeWindow { s with chip := r.2.2 } p) p r.2.1 (leBytes (atWidth p.msg) (r.1.headD (0, 0)).2), none)) := by
  simp [accessMsg, hh, hm]

/-- The reduce operator of a message; a WRITE has none. -/
def reduceOp (m : Msg) : Nat := if m.mtype = 7 then m.tspec / 2 ^ 24 % 16 else 0

theorem accessMsg_store (hm : p.msg.mtype = 2 ∨ p.msg.mtype = 7) (hh : msgHeld s.chip p.msg ps = false) (ho : reduceOp p.msg = 0) :
    accessMsg s p asid ps =
      (replyMsg (freeWindow { s with chip := wrPieces (touchL2 s.chip asid true ps) (ps.map (·.2)) p.msg.payload } p) p 0 [], none) := by
  unfold reduceOp at ho
  rcases hm with hm | hm <;> simp_all [accessMsg]

theorem accessMsg_combine (hm : p.msg.mtype = 7) (hh : msgHeld s.chip p.msg ps = false) (ho : reduceOp p.msg ≠ 0) :
    accessMsg s p asid ps =
      (let r := combineIn (touchL2 s.chip asid true ps) (reduceOp p.msg) ps p.msg.payload
       (replyMsg (freeWindow { s with chip := r.2 } p) p r.1 [], none)) := by
  unfold reduceOp at *
  simp_all [accessMsg]

end Access

/-- A message past its lookup, with its pieces; those of a pull are not kept (R46). -/
def pastLookup (s : State) (m : Msg) (w : Nat) (ps : List (Nat × Nat × Nat)) : RxPending :=
  RxPending.translated ⟨m, s.net.nextRx, true, some (winRef s w), none, [], false⟩ ps

/-- A one-sided access in sequence that window w allows, whose range translates to the pieces ps, leaving the compute part c, and that
nothing holds. -/
structure Allowed (s : State) (f : RxFrame) (e : Eth) (h : Hdr) (addr : W64) (payload : List Byte) (w : Nat)
    (ps : List (Nat × Nat × Nat)) (c : Chip) : Prop where
  seq : InSequence s f e h addr payload
  window : windowCheck s (messageOf f e h addr payload) = .ok w
  room : inFlight s < 1023
  order : h.ord = true →
    unanswered (s.took f h) [] ⟨messageOf f e h addr payload, s.net.nextRx, true, some (winRef s w), none, [], false⟩ = false
  walk : rangeWalkHeld s.chip 0 (s.net.window w).asid addr.toNat
    (msgBytes s (s.net.window w).asid (messageOf f e h addr payload)) = false
  range : ioRange s.chip (s.net.window w).asid addr.toNat (msgBytes s (s.net.window w).asid (messageOf f e h addr payload))
    (msgAcc (messageOf f e h addr payload)) = (.ok ps, c)
  free : msgHeld c (messageOf f e h addr payload) ps = false

namespace Allowed
variable {s : State} {f : RxFrame} {e : Eth} {h : Hdr} {addr : W64} {payload : List Byte} {w : Nat}
  {ps : List (Nat × Nat × Nat)} {c : Chip}

/-- Its first attempt takes it through the window to its access. -/
theorem tryMsg (A : Allowed s f e h addr payload w ps c) (hm : OneSided h.mtype)
    (pull : pullState s (s.net.window w).asid (messageOf f e h addr payload) = .ok) :
    tryMsg (s.took f h) [] (accept_none s f e h addr payload) = accessMsg { opened (s.took f h) w with chip := c }
      (pastLookup s (messageOf f e h addr payload) w ps) (s.net.window w).asid ps := by
  have same : winRef (s.took f h) w = winRef s w := by simp [winRef]
  have window : windowCheck (s.took f h) (messageOf f e h addr payload) = .ok w :=
    (windowCheck_congr (took_chip ..) (took_windows ..) _).trans A.window
  have room : inFlight (s.took f h) < 1023 := by simpa [inFlight] using A.room
  rw [tryMsg_window (p := accept_none s f e h addr payload) hm rfl window room, same]
  refine (serveMsg_translated (s := opened (s.took f h) w) (w := winRef s w) (c := c)
    (p := { accept_none s f e h addr payload with begun := true, window := some (winRef s w) }) pull A.walk A.range).trans (if_neg ?_)
  rw [Bool.and_eq_true]
  rintro ⟨ord, wait⟩
  exact absurd ((A.order ord).symm.trans wait) (by decide)

/-- It is answered by a REPLY with what its access gives, and INFLIGHT counts it no more. -/
theorem answered (A : Allowed s f e h addr payload w ps c) {k : Nat} (hk : h.mtype = k) (hm : OneSided k)
    (pull : pullState s (s.net.window w).asid (messageOf f e h addr payload) = .ok) {c' : Chip} {flags : Flags} {data : List Byte}
    (access : accessMsg { opened (s.took f h) w with chip := c } (pastLookup s (messageOf f e h addr payload) w ps)
      (s.net.window w).asid ps =
        (replyMsg (freeWindow { opened (s.took f h) w with chip := c' } (pastLookup s (messageOf f e h addr payload) w ps))
          (pastLookup s (messageOf f e h addr payload) w ps) flags data, none)) :
    receiveType s f k = sendMsg { s.took f h with chip := c', net := (s.took f h).net.passed w }
      h.srank h.stream 4 false false h.msgid (flags.toNat * 2 ^ 8) 0 data := by
  have same : winRef s w = winRef (s.took f h) w := by simp [winRef]
  rw [receiveType_done A.seq hk ((A.tryMsg (hk ▸ hm) pull).trans access), freeWindow_opened (congrArg some same)]
  rfl

end Allowed

/-- Settles O24: an allowed access goes through its window to its pieces, and each type performs there. -/
theorem oneSidedAccesses : Obligations.OneSidedAccesses := by
  intro s f e h addr payload w ps c q
  dsimp only
  intro hw hi ho hwalk hr hh
  have A : Allowed s f e h addr payload w ps c := ⟨q, hw, hi, ho, hwalk, hr, hh⟩
  have noPull : h.mtype ≠ 8 → pullState s (s.net.window w).asid (messageOf f e h addr payload) = .ok := fun h8 => if_neg h8
  refine ⟨fun hm hp => ?_, fun hm pull hp => ?_, fun hm => ?_, fun hm op => ?_, fun hm op => ?_, fun hm at_ hat => ?_⟩
  · rw [exec_vorbyRead, A.answered hm (.inl rfl) (noPull (by omega)) (accessMsg_read (.inl hm) hh hp)]
  · rw [exec_vorbyPlpull, A.answered hm (by unfold OneSided; omega) pull (accessMsg_read (.inr hm) hh hp)]
  · rw [exec_vorbyWrite, A.answered hm (.inr (.inl rfl)) (noPull (by omega))
      (accessMsg_store (.inl hm) hh (if_neg (by show h.mtype ≠ 7; omega)))]
    rfl
  · rw [exec_vorbyPcopy, A.answered hm (by unfold OneSided; omega) (noPull (by omega))
      (accessMsg_store (.inr hm) hh ((if_pos hm).trans op))]
    rfl
  · have same : reduceOp (pastLookup s (messageOf f e h addr payload) w ps).msg = h.tspec / 2 ^ 24 % 16 := if_pos hm
    rw [exec_vorbyPcopy, A.answered hm (by unfold OneSided; omega) (noPull (by omega))
      (accessMsg_combine hm hh (by rwa [same])), same]
    rfl
  · have same : (wireAtOp (h.tspec % 16)).getD .add = at_ := by rw [hat]; rfl
    rw [exec_vorbyAtomic, A.answered hm (by unfold OneSided; omega) (noPull (by omega))
      (accessMsg_atomic hm hh), ← same]
    rfl

/-! ## Answers, events, acknowledgements (02 R37 to R39, R46) -/

theorem tryMsg_reply (s : State) {p : RxPending} (hm : p.msg.mtype = 4) : tryMsg s [] p =
    (requestReply s p.msg.srank p.msg.stream p.msg.msgid (BitVec.ofNat 5 (p.msg.tspec / 2 ^ 8)) p.msg.payload, none) := by
  simp [tryMsg, hm]

theorem tryMsg_nack (s : State) {p : RxPending} (hm : p.msg.mtype = 5) : tryMsg s [] p =
    (requestNack (countAt s p.msg.port fun c => { c with nackRx := bump c.nackRx }) p.msg.srank p.msg.stream p.msg.msgid
      (p.msg.tspec % 256), none) := by
  simp [tryMsg, hm]

theorem tryMsg_event (s : State) {p : RxPending} (hm : p.msg.mtype = 6) : tryMsg s [] p = (s, none) := by simp [tryMsg, hm]

theorem findRequest_congr {s t : State} (h : t.net.outst = s.net.outst) (rank stream msgid : Nat) :
    findRequest t rank stream msgid = findRequest s rank stream msgid := by
  unfold findRequest; rw [h]

theorem requestReply_found {s : State} {rank stream msgid n : Nat} {o : Outst} (hr : s.io.phase = .running)
    (hf : findRequest s rank stream msgid = some (n, o)) (flags : Flags) (payload : List Byte) :
    requestReply s rank stream msgid flags payload = { s with
      net := { s.net with outst := s.net.outst.del n }
      chip := if o.conv then pullReply s.chip o.opId o.row payload else asyncAck s.chip o.opId o.row 0 flags o.len } := by
  simp [requestReply, hf, hr, dropRequest, State.modNet, State.modChip]

theorem requestNack_found {s : State} {rank stream msgid n : Nat} {o : Outst} (hr : s.io.phase = .running)
    (hf : findRequest s rank stream msgid = some (n, o)) (code : Nat) :
    requestNack s rank stream msgid code = { s with
      net := { s.net with outst := s.net.outst.del n }
      chip := if o.conv then pullNack s.chip o.opId code rank else asyncAck s.chip o.opId o.row code 0 o.len } := by
  simp [requestNack, hf, hr, dropRequest, State.modNet, State.modChip]

theorem modTx_of_find {s : State} {key : Nat} {t : TxStream} (ht : s.net.tx.find? key = some t) (f : TxStream → TxStream) :
    s.modTx key f = { s with net := { s.net with tx := s.net.tx.put key (f t) } } := by
  simp [State.modTx, State.modNet, AMap.getD, ht]

/-- An ACKPSN d frames on, with no SACK, removes the first d frames of a stream of which none is shown received (R39). -/
theorem applyAck_cumulative {s : State} {rank stream ackPsn d : Nat} {t : TxStream} {x : TxFrame} {g : List TxFrame}
    (ht : s.net.tx.find? (streamKey rank stream) = some t) (hx : t.frames = x :: g) (unsacked : ∀ y ∈ t.frames, y.sacked = false)
    (hd : d ≤ t.frames.length) (d32 : d < 2 ^ 32) (ha : ackPsn = (x.psn + d) % 2 ^ 32) (x32 : x.psn < 2 ^ 32) :
    applyAck s rank stream ackPsn 0 = { s with net := { s.net with
      tx := s.net.tx.put (streamKey rank stream) { t with frames := t.frames.drop d } } } := by
  obtain ⟨next, frames, waiting⟩ := t
  subst hx
  have dist : (ackPsn + 2 ^ 32 - x.psn) % 2 ^ 32 = d := by omega
  have later : ∀ f : TxFrame, ((x :: g).drop d).filter (fun (y : TxFrame) => y.sacked &&
      decide (0 < (y.psn + 2 ^ 32 - f.psn) % 2 ^ 32) && decide ((y.psn + 2 ^ 32 - f.psn) % 2 ^ 32 < 32)) = [] := fun f =>
    List.filter_eq_nil_iff.2 fun y hy => by simp [unsacked y (List.mem_of_mem_drop hy)]
  simp only [applyAck, ht, dist, Nat.zero_testBit, Bool.false_eq_true, and_false, if_false, List.map_id', later]
  rw [if_neg (Nat.not_lt.2 hd), modTx_of_find ht]
  simp

/-- An ACK frame of a rank's epoch only applies the acknowledgement state that it carries (R41). -/
theorem receiveVorby_ack {s : State} {e : Eth} {h : Hdr} {a : W64} {d : List Byte} (port : Nat) (hv : vorbyOf e = some (h, a, d))
    (hm : h.mtype = 15) (hg : h.group = s.net.port0.group) (hr : h.drank = s.net.port0.rank)
    (hs : s.net.seen.find? h.srank = some h.epoch) (hack : h.ackv = true) :
    receiveVorby s port e = applyAck (countRx s port) h.srank h.stream h.ackPsn h.sack := by
  simp [receiveVorby, hv, vorbyDrop, acceptVorby, ackIn, ownRank, hg, hr, hm, hs, hack]

theorem pumpRx_none {s : State} (h : s.net.rxWait = []) : pumpRx s = s := by simp [pumpRx, h]

/-- Settles O26: the first attempt at a REPLY, NACK or EVENT is all, and an ACK frame is applied where it arrives. -/
theorem answersEventsAcks : Obligations.AnswersEventsAcks := by
  refine ⟨fun s f e h addr payload n o q found => ?_, fun s f e h addr payload q hm => ?_,
    fun s f e h addr payload x g t d running mac etype parsed hm group rank seen ackv wait pfc sack tx frames unsacked len d32 ack x32 => ?_⟩
  · have found : findRequest (s.took f h) h.srank h.stream h.msgid = some (n, o) :=
      (findRequest_congr (took_outst ..) ..).trans found
    refine ⟨fun hm => ?_, fun hm => ?_⟩
    · rw [exec_vorbyReply, receiveType_done q hm (tryMsg_reply _ hm)]
      exact congrArg Host.Outcome.next (requestReply_found (s := s.took f h) q.running found ..)
    · rw [exec_vorbyNack, receiveType_done q hm (tryMsg_nack _ hm)]
      have counted := countAt_running (s := s.took f h) q.running f.port fun c => { c with nackRx := bump c.nackRx }
      have found' : findRequest (countAt (s.took f h) f.port fun c => { c with nackRx := bump c.nackRx }) h.srank h.stream h.msgid =
          some (n, o) := (findRequest_congr (by simp [counted, count_receive]) ..).trans found
      refine ⟨_, congrArg Host.Outcome.next (requestNack_found ((countAt_io ..).symm ▸ q.running) found' _), ?_, ?_, ?_, ?_⟩
      · simp
      · simp [counted, count_receive]
      · show ((countAt (s.took f h) f.port _).net.port f.port).cnt.nackRx = _
        rw [counted, count_port, took_port]
      · simp [accept_none, messageOf]
  · rw [exec_vorbyEvent, receiveType_done q hm (tryMsg_event _ hm)]
  · have counted := countAt_running running f.port fun c => { c with rxFrames := bump c.rxFrames }
    have applied : receiveVorby s f.port e = { s with net :=
        let n := s.net.count f.port fun c => { c with rxFrames := bump c.rxFrames }
        { n with tx := n.tx.put (streamKey h.srank h.stream) { t with frames := t.frames.drop d } } } := by
      rw [receiveVorby_ack f.port parsed hm group rank seen ackv, sack]
      refine (applyAck_cumulative (s := countRx s f.port) ?_ frames unsacked len d32 ack x32).trans ?_
      · rw [countRx, counted]; simpa [count_receive] using tx
      · rw [countRx, counted]
    rw [exec_vorbyAck, receiveType, if_pos (by simp [vorbyType_of mac etype parsed, hm, running]), receive_vorby mac etype, applied,
      pfcLevel_off, pumpRx_none]
    · simpa [count_receive] using wait
    · show ((s.net.count f.port _).port f.port).pfcEn = 0
      rw [count_port]; exact pfc

/-! ## Timers of the transport (02 R35, R38, R39) -/

theorem exec_ackTimer (rank stream : Nat) {s : State} (h : s.io.phase = .running) :
    exec (.ackTimer rank stream) s = .next (ackTimer s rank stream) := congrArg Host.Outcome.next (if_pos h)
theorem exec_rtoExpiry (rank stream psn : Nat) {s : State} (h : s.io.phase = .running) :
    exec (.rtoExpiry rank stream psn) s = .next (rtoExpiry s rank stream psn) := congrArg Host.Outcome.next (if_pos h)

theorem streamKey_div {rank stream : Nat} (hr : rank < 4096) (hs : stream < 16) : streamKey rank stream / 16 = rank := by
  unfold streamKey; omega
theorem streamKey_mod {stream : Nat} (rank : Nat) (hs : stream < 16) : streamKey rank stream % 16 = stream := by
  unfold streamKey; omega

theorem sendAck_of_port {s : State} {rank stream p : Nat} (hp : choosePort s rank stream = some p)
    (unpaused : pausedAt s p (s.net.port p).pcpCtl = false) :
    sendAck s rank stream = putVorby s p rank stream 0xF true false 0 0 0 0 [] := by
  simp [sendAck, hp, portPcp, unpaused]

theorem ackTimer_due {s : State} {rank stream : Nat} {r : RxStream} (hr : s.net.rx.find? (streamKey rank stream) = some r)
    (unacked : r.unacked ≠ 0) (due : r.oldest + 1700 ≤ s.io.clock) : ackTimer s rank stream = sendAck s rank stream := by
  simp only [ackTimer, hr]
  exact if_neg (by simp only [usCycles]; omega)

theorem emit_of_port {s : State} {rank stream p : Nat} {f : TxFrame} (hp : choosePort s rank stream = some p)
    (unpaused : pausedAt s p (portPcp s p f.ctl) = false) : emit s rank stream f =
      some (putVorby s p rank stream f.mtype f.ctl f.ord f.psn f.msgid f.tspec f.addr f.payload) := by
  simp [emit, hp, unpaused]

theorem rtoExpiry_due {s : State} {rank stream psn p : Nat} {f : TxFrame}
    (hf : List.find? (fun (g : TxFrame) => g.psn == psn) (s.net.tx.getD (streamKey rank stream) .init).frames = some f)
    (lost : f.sacked = false) (due : f.since + (s.net.port p).rto * 850 ≤ s.io.clock) (hp : choosePort s rank stream = some p) :
    rtoExpiry s rank stream psn = retransmit s (streamKey rank stream) psn false := by
  have late : ¬s.io.clock < f.since + (s.net.port p).rto * 850 := by omega
  simp [rtoExpiry, hf, hp, lost, usCycles, late]

/-- A stream whose frame of a PSN is noted as sent. -/
def markSent (psn : Nat) (t : TxStream) : TxStream :=
  { t with frames := t.frames.map fun g => if g.psn = psn then { g with sent := true } else g }

/-- A stream whose frame of a PSN counts an expiry more, its timer started again (R39). -/
def countRetry (clock psn : Nat) (t : TxStream) : TxStream :=
  { t with frames := t.frames.map fun g => if g.psn = psn then { g with retries := g.retries + 1, since := clock, fast := false } else g }

/-- A stream whose frame of a PSN has been sent once more (R39). -/
def resent (clock psn : Nat) (t : TxStream) : TxStream :=
  { t with frames := t.frames.map fun g =>
      if g.psn = psn then { g with sent := true, retries := g.retries + 1, since := clock, fast := false } else g }

theorem countRetry_markSent (clock psn : Nat) (t : TxStream) : countRetry clock psn (markSent psn t) = resent clock psn t := by
  simp only [countRetry, markSent, resent, List.map_map, TxStream.mk.injEq, true_and, and_true]
  refine List.map_congr_left fun g _ => ?_
  by_cases h : g.psn = psn <;> simp [h]

theorem modTx_modTx (s : State) (key : Nat) (f g : TxStream → TxStream) :
    (s.modTx key f).modTx key g = s.modTx key fun t => g (f t) := by
  simp [State.modTx, State.modNet, put_put]

theorem countAt_modTx {s : State} (hr : s.io.phase = .running) (p key : Nat) (f : TxStream → TxStream)
    (g : PortCounters → PortCounters) : countAt (s.modTx key f) p g = (countAt s p g).modTx key f := by
  rw [countAt_running hr, countAt_running (s := s.modTx key f) hr]
  simp only [State.modTx, State.modNet, Net.count, Net.modPort, Net.setPort, Net.port]
  split <;> rfl

/-- What a retransmission does to its stream, with the count of it between. -/
theorem resent_counted {u : State} (hr : u.io.phase = .running) (p key psn : Nat) (g : PortCounters → PortCounters) :
    (countAt (u.modTx key (markSent psn)) p g).modTx key
        (countRetry (countAt (u.modTx key (markSent psn)) p g).io.clock psn) =
      (countAt u p g).modTx key (resent u.io.clock psn) := by
  rw [countAt_io, countAt_modTx hr, modTx_modTx]
  simp only [countRetry_markSent, modTx_io]

theorem retransmit_sent {s : State} {rank stream psn p : Nat} {f : TxFrame} (rank4096 : rank < 4096) (stream16 : stream < 16)
    (hr : s.io.phase = .running)
    (hf : List.find? (fun (g : TxFrame) => g.psn == psn) (s.net.tx.getD (streamKey rank stream) .init).frames = some f)
    (counted : f.sent = true ∨ f.mtype ≠ 5) (hp : choosePort s rank stream = some p)
    (unpaused : pausedAt s p (portPcp s p f.ctl) = false) :
    retransmit s (streamKey rank stream) psn false =
      (let t := (countAt (putVorby s p rank stream f.mtype f.ctl f.ord f.psn f.msgid f.tspec f.addr f.payload) p fun c =>
         { c with retx := bump c.retx }).modTx (streamKey rank stream) (resent s.io.clock psn)
       if (s.net.port p).retryMax ≤ f.retries + 1 then failStream t (streamKey rank stream) else t) := by
  have ⟨io, _⟩ := keeps_putVorby s p rank stream f.mtype f.ctl f.ord f.psn f.msgid f.tspec f.addr f.payload
  have nack : ∀ t : State, countNack t p f = t := fun t => if_neg (by simpa using fun h5 => counted.resolve_right (not_not.2 h5))
  have step := resent_counted (io ▸ hr) p (streamKey rank stream) psn fun c => { c with retx := bump c.retx }
  rw [io] at step
  simp only [retransmit, hf, streamKey_div rank4096 stream16, streamKey_mod rank stream16, hp, emit_of_port hp unpaused, nack,
    Option.getD_some]
  exact congrArg (fun t => if (s.net.port p).retryMax ≤ f.retries + 1 then failStream t (streamKey rank stream) else t) step

/-- Settles O27: each timer that is due acts on the stream's port. -/
theorem transportTimers : Obligations.TransportTimers := by
  refine ⟨fun s rank stream p r running hr unacked due hp unpaused => ?_,
    fun s rank stream psn p f rank4096 stream16 running hf lost counted due hp unpaused => ⟨fun again => ?_, fun last => ?_⟩⟩
  · rw [exec_ackTimer _ _ running, ackTimer_due hr unacked due, sendAck_of_port hp unpaused]
  · rw [exec_rtoExpiry _ _ _ running, rtoExpiry_due hf lost due hp,
      retransmit_sent rank4096 stream16 running hf counted hp unpaused]
    exact congrArg Host.Outcome.next (if_neg (Nat.not_le.2 again))
  · rw [exec_rtoExpiry _ _ _ running, rtoExpiry_due hf lost due hp,
      retransmit_sent rank4096 stream16 running hf counted hp unpaused]
    exact congrArg Host.Outcome.next (if_pos last)

/-! ## A new epoch (02 R41) -/

theorem exec_epochWrite (v : Nat) (s : State) : exec (.epochWrite v) s = .next (writeWord s 0x40000 (v * 2 ^ 48)) := rfl

theorem writeWord_epoch {s : State} {v : Nat} (hp : s.io.phase ≠ .reset) (hv : v < 65536) :
    writeWord s 0x40000 (v * 2 ^ 48) = writeEpoch s v := by
  obtain ⟨word, field⟩ := word_port v hv
  rw [word_written _ _ _ hp, epoch_word, writePort_epoch, word, field]

/-- The streams that fell with the old epoch, before the part forgets them. -/
def timedOut (s : State) (v : Nat) : State :=
  s.net.tx.foldl (fun s e => timeoutStream s e.1) (s.modNet fun n => { n with port0 := { n.port0 with epoch := v } })

theorem writeEpoch_new {s : State} {v : Nat} (h : v ≠ s.net.port0.epoch) : writeEpoch s v =
    (timedOut s v).modNet fun n => { n with tx := [], ranks := n.ranks.map fun e => (e.1, { e.2 with failed := 0 }) } :=
  if_neg h

theorem rank_unfailed (m : AMap RankEnt) (r : Nat) :
    AMap.getD (m.map fun e => (e.1, { e.2 with failed := 0 })) r .init = { m.getD r .init with failed := 0 } := by
  have found := find_map (f := fun (x : RankEnt) => { x with failed := 0 }) (m := m) (k := r)
  unfold AMap.getD
  rw [found]
  cases m.find? r <;> rfl

/-- Settles O28: what times out keeps all but the requests and the counts (NetKeep). -/
theorem epochWrite : Obligations.EpochWrite := by
  intro s v hp hv
  rw [exec_epochWrite, writeWord_epoch hp hv]
  refine ⟨fun same => congrArg Host.Outcome.next (if_pos same), fun new => ⟨_, congrArg Host.Outcome.next (writeEpoch_new new), ?_⟩⟩
  have keep : NetKeep (s.modNet fun n => { n with port0 := { n.port0 with epoch := v } }) (timedOut s v) :=
    nk_fold _ (fun _ _ => nk_timeout ..) _ _
  refine ⟨keep.epoch, rfl, fun r => ?_, keep.rx, keep.seen, keep.queues, keep.rings, keep.windows, keep.wire, keep.io, keep.agenda,
    fun idle => ?_⟩
  · refine (rank_unfailed _ r).trans ?_
    rw [keep.ranks]; rfl
  · simp [timedOut, idle]

/-! ## Messages of the part (02 R34, R35, R39) -/

/-- Settles O33: sendMsg looks at the rank, then at the port map, then at FAILED. -/
theorem messagesJoinStreams : Obligations.MessagesJoinStreams := by
  intro s rank stream mtype msgid tspec ctl ord addr payload
  refine ⟨fun self => if_pos self, fun other up live => ?_, fun other unmapped => ?_, fun other up failed => ?_⟩
  · exact (if_neg other).trans ((if_neg up).trans (if_neg (by simpa using live)))
  · exact (if_neg other).trans (if_pos unmapped)
  · exact (if_neg other).trans ((if_neg up).trans (if_pos failed))

end Sys2Proof.Proofs.Ethernet
end

section
/-! PROOFS. The root of trust, commands and event rings (spec/03_command.md): the frozen state, fuses, image slots, flash, queues and
rings, the test access port, commands. -/

namespace Sys2Proof.Proofs.Command
open Sys2Proof.Machine Sys2Proof.Laws Sys2Proof.Proofs.Package

/-! ## The frozen state (01 R13, 03 R78, R79) -/

theorem frozen_step_phase {s t : State} (hf : s.io.phase = .frozen) (h : step s = .next t) :
    t.io.phase = .frozen ∨ (t.io.phase = .reset ∧ (s.perstFalls ∨ ResetDue s.io (s.io.clock + 1))) := by
  rcases step_io h with row | ⟨-, fall⟩ | ⟨u, -, reset, why⟩
  · exact .inl (row.frozen hf)
  · exact .inl (by rw [fall]; exact hf)
  · exact .inr ⟨by rw [reset]; rfl, why⟩

theorem step_perstAt {s t : State} {c : Nat} (h : step s = .next t) (hc : t.io.perstAt = some c) :
    s.io.perstAt = some c ∨ (s.perstFalls ∧ c = edgeCycle s.io.refEdge) := by
  rcases step_io h with row | ⟨falls, fall⟩ | ⟨u, -, reset, -⟩
  · exact .inl (row.perst ▸ hc)
  · rw [fall] at hc
    exact .inr ⟨falls, (Option.some.inj hc).symm⟩
  · rw [reset] at hc; cases hc

theorem perstDue_chip {s : State} (h : (perstDue s).io.phase = .frozen) : (perstDue s).chip = s.chip := by
  rcases perstDue_cases s with same | ⟨low, -⟩
  · rw [same]
  · rw [low] at h; cases h

/-- A step of a frozen part that leaves it frozen: a clock period and PERST_N's fall leave the compute part, any other row leaves it but
for the counter of free values (row_chip). -/
theorem frozen_step_chip {s t : State} (hf : s.io.phase = .frozen) (h : step s = .next t) (ht : t.io.phase = .frozen) :
    ∃ n, t.chip = { s.chip with fresh := n } := by
  rcases step_cases h with ⟨rfl, -⟩ | ⟨p, r, i, -, -, -, run⟩
  · rw [tick_frozen hf] at ht ⊢
    exact ⟨s.chip.fresh, by rw [perstDue_chip ht, pumpMac_chip]; rfl⟩
  · by_cases hi : i = .perstAssert
    · subst hi
      rw [exec_perstAssert] at run
      cases run
      exact ⟨s.chip.fresh, perstDue_chip ht⟩
    · obtain ⟨u, hu, hn⟩ := row_chip i { s with agenda := r } hf hi
      rw [hu] at run
      cases run
      exact hn

/-- Settles O9: a step of the I/O die is a row's, which keeps a frozen part frozen, or PERST_N's (step_io). -/
theorem frozenStands : Obligations.FrozenStands := by
  refine ⟨⟨fun s t hf h => frozen_step_phase hf h, fun s t c h hc => step_perstAt h hc⟩, fun s t hf h ht => ?_,
    fun i s hf hi => frozen_row i s hf hi⟩
  obtain ⟨n, hn⟩ := frozen_step_chip hf h ht
  rw [hn]

/-! ## Fuses (03 R71, R72, R82) -/

/-- What the fuses of the I/O die may do: rollback counters rise, root key, RDLOCK and SERIAL stay. -/
def FusesRise (i j : Io) : Prop :=
  (∀ k : Fin 3, i.fuseSvn[k] ≤ j.fuseSvn[k]) ∧ j.fuseRoot = i.fuseRoot ∧ j.rdlock = i.rdlock ∧ j.serial = i.serial

theorem fusesRise_row {i j : Io} (h : IoStep i j) : FusesRise i j := ⟨h.svn, h.fuses⟩

theorem fusesRise_same {i j : Io} (svn : j.fuseSvn = i.fuseSvn) (root : j.fuseRoot = i.fuseRoot) (lock : j.rdlock = i.rdlock)
    (serial : j.serial = i.serial) : FusesRise i j :=
  ⟨fun k => by rw [svn], root, lock, serial⟩

/-- PERST_N's fall leaves the fuses as they are. -/
theorem fusesRise_perstLow {i : Io} {u : State} (h : FusesRise i u.io) : FusesRise i (perstLow u).io := h

/-- Settles O10: rows only raise the counters, a sampled fall of PERST_N and the reset leave every fuse. -/
theorem fusesNeverFall : Obligations.FusesNeverFall := by
  intro s t h
  have sampled : ∀ c, FusesRise s.io { s.io with perstAt := c } := fun c => fusesRise_same rfl rfl rfl rfl
  show FusesRise s.io t.io
  rcases step_io h with row | ⟨-, fall⟩ | ⟨u, before, reset, -⟩
  · exact fusesRise_row row
  · rw [fall]; exact sampled _
  · rw [reset]
    refine fusesRise_perstLow ?_
    rcases before with row | fall
    · exact fusesRise_row row
    · rw [fall]; exact sampled _

/-! ## Image slots (03 R71) -/

theorem find_pair (p : Nat → Bool) (a b : Nat) :
    [a, b].find? p = if p a = true then some a else if p b = true then some b else none := by
  cases ha : p a <;> cases hb : p b <;> simp [List.find?, ha, hb]

/-- The SVN of a slot's image, and whether it passes image_ok. -/
def slotSvn (i : Io) (t b : Nat) : Nat := (imgHdr (flashRd i (slotBase t b))).svn
def slotOk (i : Io) (t b : Nat) : Bool := imageOk (flashRd i (slotBase t b)) t i.fuseRoot (fusedSvn i t)

/-- The slot of the greater SVN first, A first where they are equal. -/
theorem chooseSlot_eq (i : Io) (t : Nat) :
    chooseSlot i t = (if slotSvn i t 0 < slotSvn i t 1 then [1, 0] else [0, 1]).find? (slotOk i t) := rfl

theorem chooseSlot_b_first {i : Io} {t : Nat} (h : slotSvn i t 0 < slotSvn i t 1) :
    chooseSlot i t = if slotOk i t 1 = true then some 1 else if slotOk i t 0 = true then some 0 else none := by
  rw [chooseSlot_eq, if_pos h, find_pair]

theorem chooseSlot_a_first {i : Io} {t : Nat} (h : slotSvn i t 1 ≤ slotSvn i t 0) :
    chooseSlot i t = if slotOk i t 0 = true then some 0 else if slotOk i t 1 = true then some 1 else none := by
  rw [chooseSlot_eq, if_neg (Nat.not_lt.2 h), find_pair]

/-- Settles O12: by which slot is looked at first, then by which of the two pass. -/
theorem slotChoice : Obligations.SlotChoice := by
  intro i t b
  show (chooseSlot i t = none ↔ slotOk i t 0 = false ∧ slotOk i t 1 = false) ∧
    (chooseSlot i t = some b ↔ slotOk i t b = true ∧
      ((b = 0 ∧ (slotSvn i t 1 ≤ slotSvn i t 0 ∨ slotOk i t 1 = false)) ∨
        (b = 1 ∧ (slotSvn i t 0 < slotSvn i t 1 ∨ slotOk i t 0 = false))))
  rcases Nat.lt_or_ge (slotSvn i t 0) (slotSvn i t 1) with h | h
  · rw [chooseSlot_b_first h]
    cases h0 : slotOk i t 0 <;> cases h1 : slotOk i t 1 <;> grind
  · rw [chooseSlot_a_first h]
    cases h0 : slotOk i t 0 <;> cases h1 : slotOk i t 1 <;> grind

/-! ## Flash in recovery (03 R74) -/

theorem mgmtWrite_flctl (s : State) (w : W64) : mgmtWrite s 0x80200 w = (true, writeFlctl s w) := by
  unfold mgmtWrite
  dsimp only
  iterate 5 rw [if_neg (by omega)]
  rw [if_pos rfl]

theorem writeFlctl_off {s : State} (h : s.io.phase ≠ .recovery ∨ s.io.flOp ≠ none) (w : W64) : writeFlctl s w = s :=
  if_pos (by simpa [Option.isSome_iff_ne_none] using h)

/-- FLCTL ignores writes in reset as it does in every phase but recovery. -/
theorem writeWord_flctl (s : State) (w : Nat) : writeWord s 0x80200 w = writeFlctl s (BitVec.ofNat 64 w) := by
  by_cases h : s.io.phase = .reset
  · rw [writeFlctl_off (.inl (by rw [h]; decide))]
    exact if_pos h
  · rw [word_written _ _ _ h, mgmtWrite_flctl]

theorem exec_flashErase (a : Nat) (s : State) :
    exec (.flashErase a) s = .next (writeFlctl s (BitVec.ofNat 64 (a * 2 ^ 32 + 1))) :=
  congrArg Host.Outcome.next (writeWord_flctl ..)
theorem exec_flashProgram (a : Nat) (s : State) :
    exec (.flashProgram a) s = .next (writeFlctl s (BitVec.ofNat 64 (a * 2 ^ 32 + 2))) :=
  congrArg Host.Outcome.next (writeWord_flctl ..)
theorem exec_flashNoOp (w : Nat) (s : State) : exec (.flashNoOp w) s =
    .next (if w % 4 = 0 ∨ w % 4 = 3 then writeFlctl s (BitVec.ofNat 64 w) else s) := by
  rw [← writeWord_flctl]; rfl
theorem exec_flashOpComplete {s : State} (h : s.io.phase = .recovery) : exec .flashOpComplete s = .next (flashDone s) :=
  congrArg Host.Outcome.next (if_pos h)
theorem exec_stagingBufferWrite (bs : List Byte) (s : State) :
    exec (.stagingBufferWrite bs) s = .next (writeStaging s 0 bs) := rfl

theorem flctl_word {a op : Nat} (ha : a < 2 ^ 32) (ho : op < 4) : (BitVec.ofNat 64 (a * 2 ^ 32 + op)).toNat % 4 = op ∧
    (BitVec.ofNat 64 (a * 2 ^ 32 + op)).toNat / 2 ^ 32 = a := by
  rw [BitVec.toNat_ofNat]; omega

/-- A write of FLCTL that may start an operation goes by FL_OP. -/
theorem writeFlctl_idle {s : State} (hp : s.io.phase = .recovery) (ho : s.io.flOp = none) (w : W64) : writeFlctl s w =
    if w.toNat % 4 = 1 then flStart s (w.toNat / 2 ^ 32) 0x10000 (.erase (w.toNat / 2 ^ 32))
    else if w.toNat % 4 = 2 then flStart s (w.toNat / 2 ^ 32) 0x400 (.program (w.toNat / 2 ^ 32)) else s :=
  if_neg (by simp [hp, ho])

theorem writeFlctl_erase {s : State} {a : Nat} (hp : s.io.phase = .recovery) (ho : s.io.flOp = none) (ha : a < 2 ^ 32) :
    writeFlctl s (BitVec.ofNat 64 (a * 2 ^ 32 + 1)) = flStart s a 0x10000 (.erase a) := by
  obtain ⟨op, addr⟩ := flctl_word (op := 1) ha (by decide)
  rw [writeFlctl_idle hp ho, op, addr]; rfl

theorem writeFlctl_program {s : State} {a : Nat} (hp : s.io.phase = .recovery) (ho : s.io.flOp = none) (ha : a < 2 ^ 32) :
    writeFlctl s (BitVec.ofNat 64 (a * 2 ^ 32 + 2)) = flStart s a 0x400 (.program a) := by
  obtain ⟨op, addr⟩ := flctl_word (op := 2) ha (by decide)
  rw [writeFlctl_idle hp ho, op, addr]; rfl

theorem writeFlctl_noOp {w : Nat} (hw : w < 2 ^ 64) (h : w % 4 = 0 ∨ w % 4 = 3) (s : State) :
    writeFlctl s (BitVec.ofNat 64 w) = s := by
  have op : (BitVec.ofNat 64 w).toNat % 4 = w % 4 := by rw [BitVec.toNat_ofNat, Nat.mod_eq_of_lt hw]
  by_cases off : s.io.phase ≠ .recovery ∨ s.io.flOp ≠ none
  · exact writeFlctl_off off _
  · obtain ⟨hp, ho⟩ : s.io.phase = .recovery ∧ s.io.flOp = none := by simpa using off
    rw [writeFlctl_idle hp ho, if_neg (by omega), if_neg (by omega)]

theorem flStart_aligned {a unit : Nat} (h : a % unit = 0 ∧ a < flashBytes) (s : State) (o : FlashOp) :
    flStart s a unit o = { s with io := { s.io with flErr := false, flAddr := a, flOp := some o } } :=
  if_neg (by omega)
theorem flStart_refused {a unit : Nat} (h : ¬(a % unit = 0 ∧ a < flashBytes)) (s : State) (o : FlashOp) :
    flStart s a unit o = { s with io := { s.io with flErr := true, flAddr := a } } :=
  if_pos (by omega)

/-- A byte of a memory after a write is a byte written, or was there before. -/
theorem get_write (d : Byte) (m : Memory) (a : Nat) (bs : List Byte) (x : Nat) :
    (m.write d a bs).get d x = if a ≤ x ∧ x < a + bs.length then bs.getD (x - a) d else m.get d x := by
  by_cases h : a ≤ x ∧ x < a + bs.length
  · have inside := get_write_inside (d := d) (m := m) (a := a) (bs := bs) (i := x - a) (by omega)
    rw [Nat.add_sub_cancel' h.1] at inside
    rw [if_pos h, inside]
  · rw [if_neg h, get_write_outside (by omega)]

/-- What programming leaves in 1,024 bytes: bits set both there and in the staging buffer. -/
def programmed (flash staging : Memory) (a : Nat) : List Byte :=
  ((flash.read flashDflt a 1024).zip (staging.read 0 0 1024)).map fun x => x.1 &&& x.2

theorem programmed_length (flash staging : Memory) (a : Nat) : (programmed flash staging a).length = 1024 := by
  simp [programmed, read_length]

theorem programmed_getD (flash staging : Memory) (a : Nat) {k : Nat} (hk : k < 1024) :
    (programmed flash staging a).getD k flashDflt = flash.get flashDflt (a + k) &&& staging.get 0 k := by
  simp [programmed, read_eq, List.getD_eq_getElem?_getD, hk]

theorem flashDone_erase {s : State} {a : Nat} (h : s.io.flOp = some (.erase a)) : flashDone s = { s with io := { s.io with
    flOp := none, flash := s.io.flash.write flashDflt a (List.replicate 0x10000 flashDflt) } } := by
  unfold flashDone State.modIo; simp only [h]
theorem flashDone_program {s : State} {a : Nat} (h : s.io.flOp = some (.program a)) : flashDone s = { s with io := { s.io with
    flOp := none, flash := s.io.flash.write flashDflt a (programmed s.io.flash s.io.staging a) } } := by
  unfold flashDone State.modIo; simp only [h, programmed]

theorem writeStaging_idle {s : State} {bs : List Byte} (hp : s.io.phase = .recovery) (ho : s.io.flOp = none) (hl : bs.length ≤ 1024) :
    writeStaging s 0 bs = { s with io := { s.io with staging := s.io.staging.write 0 0 bs } } := by
  refine (if_neg (by simp [hp, ho])).trans ?_
  rw [List.take_of_length_le (by omega)]; rfl

/-- Settles O30: FLCTL starts operations by FL_OP; what an operation leaves is a write of the flash, byte by byte (get_write). -/
theorem flashSteps : Obligations.FlashSteps := by
  refine ⟨fun s a ha hp ho => ⟨fun h => ?_, fun h => ?_, fun h => ?_, fun h => ?_⟩, fun s a _ off => ⟨?_, ?_⟩, fun s w hw h => ?_,
    fun s o hp ho => ?_, fun s bs hp ho hl => ?_⟩
  · rw [exec_flashErase, writeFlctl_erase hp ho ha, flStart_aligned h]
  · rw [exec_flashErase, writeFlctl_erase hp ho ha, flStart_refused h]
  · rw [exec_flashProgram, writeFlctl_program hp ho ha, flStart_aligned h]
  · rw [exec_flashProgram, writeFlctl_program hp ho ha, flStart_refused h]
  · rw [exec_flashErase, writeFlctl_off off]
  · rw [exec_flashProgram, writeFlctl_off off]
  · rw [exec_flashNoOp, if_pos h, writeFlctl_noOp hw h]
  · cases o with
    | erase a =>
      refine ⟨_, by rw [exec_flashOpComplete hp, flashDone_erase ho], fun x => ?_⟩
      rw [get_write, List.length_replicate]
      refine ite_congr rfl (fun h => ?_) fun _ => rfl
      rw [List.getD_replicate _ (by omega)]; rfl
    | program a =>
      refine ⟨_, by rw [exec_flashOpComplete hp, flashDone_program ho], fun x => ?_⟩
      rw [get_write, programmed_length]
      refine ite_congr rfl (fun h => ?_) fun _ => rfl
      rw [programmed_getD _ _ _ (by omega), Nat.add_sub_cancel' h.1]
  · refine ⟨_, by rw [exec_stagingBufferWrite, writeStaging_idle hp ho hl], fun x => ?_⟩
    rw [get_write]
    simp

/-! ## Command queues and event rings (03 R55, R68) -/

theorem exec_queueDisable {s : State} {q w : Nat} (on : (s.net.queue q).en = true) (off : w.testBit 0 = false) :
    exec (.queueDisable q w) s = .next (writeWord s (0x81000 + 0x20 * q) w) :=
  congrArg Host.Outcome.next (if_pos (by simp [on, off]))
theorem exec_ringEnable {s : State} {n w : Nat} (off : (s.net.ring n).en = false) (on : w.testBit 0 = true) :
    exec (.ringEnable n w) s = .next (writeWord s (0x82000 + 0x40 * n) w) :=
  congrArg Host.Outcome.next (if_pos (by simp [on, off]))
theorem exec_ringDisable {s : State} {n w : Nat} (on : (s.net.ring n).en = true) (off : w.testBit 0 = false) :
    exec (.ringDisable n w) s = .next (writeWord s (0x82000 + 0x40 * n) w) :=
  congrArg Host.Outcome.next (if_pos (by simp [on, off]))

theorem mgmtWrite_queue (s : State) {q : Nat} (hq : q < 64) (w : W64) :
    mgmtWrite s (0x81000 + 0x20 * q) w = (true, writeQueue s q w.toNat) := by
  unfold mgmtWrite
  dsimp only
  iterate 6 rw [if_neg (by omega)]
  rw [if_pos (by omega), if_pos (by omega), show (0x81000 + 0x20 * q - 0x81000) / 0x20 = q by omega]

theorem mgmtWrite_ring (s : State) {n : Nat} (hn : n < 64) (w : W64) :
    mgmtWrite s (0x82000 + 0x40 * n) w = writeRing s n 0 w.toNat := by
  unfold mgmtWrite
  dsimp only
  iterate 7 rw [if_neg (by omega)]
  rw [if_pos (by omega), show (0x82000 + 0x40 * n - 0x82000) / 0x40 = n by omega, show (0x82000 + 0x40 * n) % 0x40 = 0 by omega]

theorem writeWord_queue {s : State} {q w : Nat} (hp : s.io.phase ≠ .reset) (hq : q < 64) (hw : w < 2 ^ 64) :
    writeWord s (0x81000 + 0x20 * q) w = writeQueue s q w := by
  rw [word_written _ _ _ hp, mgmtWrite_queue s hq, BitVec.toNat_ofNat, Nat.mod_eq_of_lt hw]

theorem writeWord_ring {s : State} {n w : Nat} (hp : s.io.phase ≠ .reset) (hn : n < 64) (hw : w < 2 ^ 64) :
    writeWord s (0x82000 + 0x40 * n) w = (writeRing s n 0 w).2 := by
  rw [word_written _ _ _ hp, mgmtWrite_ring s hn, BitVec.toNat_ofNat, Nat.mod_eq_of_lt hw]

theorem setQueue_setQueue (n : Net) (q : Nat) (x y : CmdQueue) : (n.setQueue q x).setQueue q y = n.setQueue q y := by
  simp [Net.setQueue, put_put]
theorem setRing_setRing (n : Net) (k : Nat) (x y : Ring) : (n.setRing k x).setRing k y = n.setRing k y := by
  simp [Net.setRing, put_put]

/-- The queue's record once a write has cleared EN: no command is left to begin (R55). -/
def disabled (x : CmdQueue) (w : Nat) : CmdQueue :=
  { x with asid := w / 2 ^ 52, sup := w.testBit 1, en := false, pending := []
           refused := min (x.refused + x.pending.length) (2 ^ 64 - 1) }

theorem writeQueue_disables {s : State} {q w : Nat} (on : (s.net.queue q).en = true) (off : w.testBit 0 = false) (hw : w < 2 ^ 64) :
    writeQueue s q w = (s.net.queue q).pending.foldl (fun s c => answerCmd s c 0x0B 0 [])
      { s with net := s.net.setQueue q (disabled (s.net.queue q) w) } := by
  have asid : nfld w 52 12 = w / 2 ^ 52 := by unfold nfld; omega
  unfold writeQueue
  rw [on, off]
  simp [disableQueue, Net.modQueue, setQueue_setQueue, disabled, asid, State.modNet]

/-- A write of word 0 of a ring whose EN is 0, with EN set: EN is tried with the other fields taken. -/
theorem writeRing_enables {s : State} {n w : Nat} (off : (s.net.ring n).en = false) (on : w.testBit 0 = true) :
    writeRing s n 0 w = enableRing { s with net := s.net.setRing n ((s.net.ring n).withWord0 w) } n := by
  unfold writeRing
  rw [off, on]; rfl

theorem writeRing_disables {s : State} {n w : Nat} (on : (s.net.ring n).en = true) (off : w.testBit 0 = false) :
    writeRing s n 0 w = (true, { s with net := s.net.setRing n { (s.net.ring n).withWord0 w with en := false } }) := by
  unfold writeRing
  rw [on, off]; rfl

theorem enableRing_stored {s : State} {n : Nat} {r : Ring} {c : Chip} (hf : s.io.phase ≠ .frozen)
    (h : ioStore s.chip r.asid r.base (List.replicate 16 0) = some c) :
    enableRing { s with net := s.net.setRing n r } n =
      (true, { s with chip := c, net := s.net.setRing n { r with en := true, head := 0, tail := 0, unsent := [] } }) := by
  unfold enableRing
  simp only [setRing_same, if_neg hf, h, Net.modRing, setRing_setRing, State.modNet]

theorem enableRing_faults {s : State} {n : Nat} {r : Ring} (h : ioStore s.chip r.asid r.base (List.replicate 16 0) = none) :
    enableRing { s with net := s.net.setRing n r } n =
      (false, { s with net := s.net.setRing n { r with dropped := bump r.dropped } }) := by
  have faults : (if s.io.phase = .frozen then none else ioStore s.chip r.asid r.base (List.replicate 16 0)) = none := by
    simp only [h, ite_self]
  unfold enableRing
  simp only [setRing_same, faults, Net.modRing, setRing_setRing, State.modNet]

/-- Settles O29: each row is the write of word 0 of its record. -/
theorem queuesAndRings : Obligations.QueuesAndRings := by
  refine ⟨fun s q w hp hq hw on off => ?_, fun s n w hn hw => ⟨fun off on hp hf => ⟨fun c stored => ?_, fun faults => ?_⟩,
    fun on off hp => ?_⟩⟩
  · rw [exec_queueDisable on off, writeWord_queue hp hq hw, writeQueue_disables on off hw]; rfl
  · rw [exec_ringEnable off on, writeWord_ring hp hn hw, writeRing_enables off on, enableRing_stored hf stored]
  · rw [exec_ringEnable off on, writeWord_ring hp hn hw, writeRing_enables off on, enableRing_faults faults]
  · rw [exec_ringDisable on off, writeWord_ring hp hn hw, writeRing_disables on off]

/-! ## Read-out and the test access port (03 R80 to R82) -/

theorem writeRosel_eq (s : State) (w : W64) : writeRosel s w = { s with io := { s.io with
    rosel := if s.io.phase = .frozen ∧ s.io.rdlock = false then w &&& 0xFFFFFFFFFFFF0000 else s.io.rosel } } := by
  unfold writeRosel
  by_cases h : s.io.phase = .frozen ∧ s.io.rdlock = false
  · rw [if_pos (by simpa using h), if_pos h]; rfl
  · rw [if_neg (by simpa using h), if_neg h]

theorem exec_jtagRoselect (w : Nat) (s : State) : exec (.jtagRoselect w) s = .next (jtagRosel s (BitVec.ofNat 64 w)) := rfl

theorem jtagRosel_eq (s : State) (w : W64) : jtagRosel s w = { s with io := { s.io with
    rosel := (writeRosel s w).io.rosel, jtag := { s.io.jtag with ir := 0x20, dr := wordBits 64 w.toNat, ptr := 0 } } } := by
  unfold jtagRosel
  rw [writeRosel_eq]; rfl

theorem exec_jtagRodata (s : State) : exec .jtagRodata s = .next { s with io := { s.io with jtag := { s.io.jtag with
    ir := 0x21, dr := wordBits 64 (readout s (s.io.jtag.ptr + roPage s)).toNat, ptr := s.io.jtag.ptr + 8 } } } := rfl

theorem readout_shut {s : State} (h : s.io.phase ≠ .frozen ∨ s.io.rdlock = true) (off : Nat) : readout s off = 0 := if_pos h

/-- The fields of ROSEL (R80). -/
theorem rosel_fields {d c unit x : Nat} (hd : d < 16) (hc : c < 16) (hu : unit < 256) (hx : x < 65536) :
    let sel := (BitVec.ofNat 64 (d * 2 ^ 60 + c * 2 ^ 56 + unit * 2 ^ 48 + x * 2 ^ 32)).toNat
    nfld sel 60 4 = d ∧ nfld sel 56 4 = c ∧ nfld sel 48 8 = unit ∧ nfld sel 32 16 = x := by
  simp only [nfld, BitVec.toNat_ofNat]
  omega

theorem readout_core {s : State} {d c unit x : Nat} (hf : s.io.phase = .frozen) (hl : s.io.rdlock = false) (hd : d < 8) (hc : c < 16)
    (hu : unit < 256) (hx : x < 65536)
    (sel : s.io.rosel = BitVec.ofNat 64 (d * 2 ^ 60 + c * 2 ^ 56 + unit * 2 ^ 48 + x * 2 ^ 32)) (off : Nat) :
    readout s off = coreReadout s.chip d c unit x off := by
  obtain ⟨die, core, part, index⟩ := rosel_fields (show d < 16 by omega) hc hu hx
  unfold readout
  rw [if_neg (by simp [hf, hl]), sel]
  simp only [die, core, part, index]
  rw [if_neg (by omega), if_neg (by omega)]

theorem coreReadout_scratch (s : Chip) (d c : Nat) {x off : Nat} (hx : x < 16) (ho : off + 8 ≤ 393216) :
    coreReadout s d c 2 x off = BitVec.ofNat 64 (leNat ((s.core d c).scratch.read 0 (393216 * x + off) 8)) :=
  (if_pos hx).trans (if_pos ho)

/-- Settles O32: each row sets the instruction and data registers of the port. -/
theorem jtagSteps : Obligations.JtagSteps := by
  refine ⟨fun s => ⟨rfl, rfl, ⟨_, _, rfl, rfl⟩, fun w hw => ?_, rfl⟩, fun s off shut => readout_shut shut off,
    fun s off d c e hf hl hd hc he ho sel => ?_⟩
  · rw [exec_jtagRoselect, jtagRosel_eq, writeRosel_eq, BitVec.toNat_ofNat, Nat.mod_eq_of_lt hw]; rfl
  · rw [readout_core hf hl hd hc (by decide) (by omega) sel, coreReadout_scratch _ _ _ he ho]

/-- The phase number of boot status (R75). -/
def phaseNo : Phase → Nat
  | .reset | .verify => 1 | .train => 2 | .zero => 3 | .running => 4 | .recovery => 0xE | .frozen => 0xF

/-- Boot status is the RDLOCK bit with fields above and below it. -/
theorem bootStatus_around_rdlock (i : Io) : ∃ above, ∀ b, bootStatus { i with rdlock := b } =
    BitVec.ofNat 64 (above * 2 ^ 30 + b.toNat * 2 ^ 29 + (i.frzCause * 2 ^ 25 + i.frzSeen.toNat * 2 ^ 21)) := by
  refine ⟨phaseNo i.phase * 2 ^ 30 + i.fail * 2 ^ 26 + i.failUnit * 2 ^ 21 + i.slots.toNat * 2 ^ 18 + fusedSvn i 1 % 64 * 2 ^ 12 +
    fusedSvn i 2 % 64 * 2 ^ 6 + fusedSvn i 3 % 64, fun b => ?_⟩
  have svn : ∀ t, fusedSvn { i with rdlock := b } t = fusedSvn i t := fun _ => rfl
  unfold bootStatus
  refine congrArg (BitVec.ofNat 64) ?_
  rw [Ethernet.flag_eq_toNat_mul]
  simp only [svn]
  cases i.phase <;> simp only [phaseNo] <;> omega

theorem bootStatus_unlocked (i : Io) (b : Bool) {k : Nat} (hk : k ≠ 29) (hc : i.frzCause < 16) :
    (bootStatus { i with rdlock := b }).getLsbD k = (bootStatus i).getLsbD k := by
  obtain ⟨above, split⟩ := bootStatus_around_rdlock i
  have low : i.frzCause * 2 ^ 25 + i.frzSeen.toNat * 2 ^ 21 < 2 ^ 29 := by
    have := i.frzSeen.isLt
    omega
  have own := split i.rdlock
  rw [split b, show bootStatus i = _ from own]
  exact boot_bits above _ _ _ k _ _ rfl rfl low (Bool.toNat_lt b) (Bool.toNat_lt _) hk

/-- Settles O60: what RDLOCK shuts goes by readout and writeRosel; what it leaves is read from other fields. -/
theorem readoutLock : Obligations.ReadoutLock := by
  refine ⟨fun s off a w lock => ⟨readout_locked s off lock, window_locked s a lock, ?_, ⟨_, exec_jtagRodata s, ?_⟩,
    ⟨_, exec_jtagRoselect _ s, ?_⟩⟩, fun s b => ⟨fun a ha => ?_, ?_, fun k hk hc => ?_⟩⟩
  · rw [mgmtWrite_rosel, rosel_locked s w lock]
  · show wordBits 64 (readout s _).toNat = _
    rw [readout_locked s _ lock, zeros64]
  · rw [jtagRosel_eq, rosel_locked s _ lock]
  · rw [mgmtRead_shown _ a ha, mgmtRead_shown _ a ha]
  · rw [mgmtRead_frzTime, mgmtRead_frzTime]
  · rw [mgmtRead_boot, mgmtRead_boot]
    exact bootStatus_unlocked s.io b hk hc

/-! ## Ranges that commands read and write (03 R57, R60) -/

theorem cmdRead_ok {s ch : Chip} {asid va n : Nat} {ps : List (Nat × Nat × Nat)} (walk : rangeWalkHeld s 0 asid va n = false)
    (hr : ioRange s asid va n .load = (.ok ps, ch)) (free : ioClaimed ch ps = false) (clean : ioPoison ch ps = none) :
    cmdRead s asid va n = (.ok (ps.flatMap fun p => ch.rdMem p.2.1 p.2.2), touchL2 ch asid false ps) := by
  simp [cmdRead, walk, hr, free, clean, ioRead]

theorem cmdRead_poisoned {s ch : Chip} {asid va n : Nat} {ps : List (Nat × Nat × Nat)} (walk : rangeWalkHeld s 0 asid va n = false)
    (hr : ioRange s asid va n .load = (.ok ps, ch)) (free : ioClaimed ch ps = false) (bad : ioPoison ch ps ≠ none) :
    cmdRead s asid va n = (.error (.code 6), ch) := by
  simp [cmdRead, walk, hr, free, Option.isSome_iff_ne_none, bad]

theorem cmdRead_faults {s ch : Chip} {asid va n fva : Nat} {prot : Bool} (walk : rangeWalkHeld s 0 asid va n = false)
    (hr : ioRange s asid va n .load = (.error (prot, fva), ch)) : cmdRead s asid va n = (.error (.code (xlStatus prot)), ch) := by
  simp [cmdRead, walk, hr]

theorem cmdWrite_ok {s ch : Chip} {asid va n : Nat} {ps : List (Nat × Nat × Nat)} {bs : List Byte} (hn : bs.length = n)
    (walk : rangeWalkHeld s 0 asid va n = false) (hr : ioRange s asid va n .store = (.ok ps, ch)) (free : ioStoreHeld ch ps = false)
    (result : Nat) :
    cmdWrite s asid va bs result = (.answer 0 result [], wrPieces (touchL2 ch asid true ps) (ps.map (·.2)) bs) := by
  subst hn
  simp [cmdWrite, walk, hr, free, ioWrite]

/-! ## Commands as they begin (03 R56 to R59) -/

/-- Commands of an opcode and a length act in a row of the table of steps. -/
structure InRow (c : Cmd) (o n row : Nat) : Prop where
  assigned : o ≤ 13
  header : 8 ≤ n
  fits : cmdLenOk o n = true
  row : cmd_rowOf o c.bytes = row

namespace InRow
variable {s : State} {q o n row : Nat} {c : Cmd}

theorem answers (R : InRow c o n row) (h : Begins s q c o n) {r : Nat} {d : List Byte} {t : State}
    (hb : bodyNow s q c o = (.answer 0 r d, t)) : command s row = answerCmd t c 0 r d :=
  cmd_answers h hb R.assigned R.header R.fits R.row

/-- A refused command leaves its queue; what its attempt did to the compute part is undone (R57). -/
theorem refused (R : InRow c o n row) (h : Begins s q c o n) {st : Nat} {t : Chip} (hs : st ≠ 0)
    (hb : bodyNow s q c o = (.code st, { takeCmd s q with chip := t })) : command s row = answerCmd (takeCmd s q) c st 0 [] :=
  cmd_refused h hb hs R.assigned R.header R.fits R.row

/-- A command that goes on past its first attempt is in progress, and is carried on at once. -/
theorem works (R : InRow c o n row) (h : Begins s q c o n) {w : CmdWork} {t : State} (hw : w ≠ .held)
    (hb : bodyNow s q c o = (.work w, t)) :
    command s row = carryOn (addInprog t q (inProgress s q c w)) q (inProgress s q c w) :=
  cmd_works h hb hw R.assigned R.header R.fits R.row

end InRow

theorem nop_row (c : Cmd) : InRow c 0 8 50 := ⟨by decide, by decide, rfl, rfl⟩
theorem read_row (c : Cmd) : InRow c 1 24 51 := ⟨by decide, by decide, rfl, rfl⟩
theorem write_row (c : Cmd) {n : Nat} (h1 : 17 ≤ n) (h2 : n ≤ 4112) : InRow c 2 n 52 :=
  ⟨by decide, by omega, by simp [cmdLenOk, h1, h2], rfl⟩

/-- A command refused for its header or length: it leaves its queue, and nothing else happens. -/
theorem cmd_malformed {s : State} {q row st : Nat} {c : Cmd} (hp : s.io.phase = .running) (hn : nextCmd s = some (q, c))
    (hr : cmdRow c.bytes = row) (hs : st ≠ 0)
    (bad : ∀ (d : State) (a : Nat) (sup : Bool) (no : Nat), cmdEffect d q a sup no c = (.code st, d)) :
    command s row = answerCmd (takeCmd s q) c st 0 [] := by
  have kept : undone (takeCmd s q) (.code st, takeCmd s q) = (.code st, takeCmd s q) := if_neg hs
  rw [cmd_runs hp hn row hr]
  unfold runCmd cmdBody
  rw [bad, kept]; rfl

theorem cmdRow_bad {b : List Byte} (h : b.length < 8 ∨ cmdBadOp b = true) : cmdRow b = 50 := if_pos h

theorem cmdEffect_short {c : Cmd} (h : c.bytes.length < 8) (d : State) (q a : Nat) (sup : Bool) (no : Nat) :
    cmdEffect d q a sup no c = (.code 2, d) := if_pos h
theorem cmdEffect_badOp {c : Cmd} (h8 : 8 ≤ c.bytes.length) (h : cmdBadOp c.bytes = true) (d : State) (q a : Nat) (sup : Bool)
    (no : Nat) : cmdEffect d q a sup no c = (.code 1, d) := (if_neg (by omega)).trans (if_pos h)
theorem cmdEffect_badLen {c : Cmd} (h8 : 8 ≤ c.bytes.length) (ok : cmdBadOp c.bytes = false)
    (h : cmdLenOk (cmdOpc c.bytes) c.bytes.length = false) (d : State) (q a : Nat) (sup : Bool) (no : Nat) :
    cmdEffect d q a sup no c = (.code 2, d) :=
  (if_neg (by omega)).trans ((if_neg (by simp [ok])).trans (if_pos (by simp [h])))

theorem cmdRow_read {b : List Byte} (h8 : 8 ≤ b.length) (ok : cmdBadOp b = false) (ho : cmdOpc b = 1) : cmdRow b = 51 := by
  unfold cmdRow
  rw [if_neg (by simp [ok]; omega), ho]; rfl
theorem cmdRow_write {b : List Byte} (h8 : 8 ≤ b.length) (ok : cmdBadOp b = false) (ho : cmdOpc b = 2) : cmdRow b = 52 := by
  unfold cmdRow
  rw [if_neg (by simp [ok]; omega), ho]; rfl

/-! ## NOP, READ and WRITE (03 R60) -/

theorem readBody_len {b : List Byte} {n : Nat} (hn : word64 b 2 % 2 ^ 13 = n) (h : n = 0 ∨ 4096 < n) (d : State) (a : Nat) :
    readBody d a b = (.code 2, d) :=
  if_pos (by unfold cmdWord; rwa [cmd_fields, hn])

theorem readBody_ok {b bs : List Byte} {n : Nat} {ch : Chip} {d : State} {a : Nat} (hn : word64 b 2 % 2 ^ 13 = n) (h1 : 1 ≤ n)
    (h2 : n ≤ 4096) (hr : cmdRead d.chip a (word64 b 1) n = (.ok bs, ch)) :
    readBody d a b = (.answer 0 n bs, { d with chip := ch }) := by
  have field : nfld (cmdWord b 2) 0 13 = n := (cmd_fields ..).trans hn
  unfold readBody
  rw [field, if_neg (by omega), cmdWord, hr]

theorem readBody_refused {b : List Byte} {n : Nat} {r : CmdRes} {ch : Chip} {d : State} {a : Nat} (hn : word64 b 2 % 2 ^ 13 = n)
    (h1 : 1 ≤ n) (h2 : n ≤ 4096) (hr : cmdRead d.chip a (word64 b 1) n = (.error r, ch)) :
    readBody d a b = (r, { d with chip := ch }) := by
  have field : nfld (cmdWord b 2) 0 13 = n := (cmd_fields ..).trans hn
  unfold readBody
  rw [field, if_neg (by omega), cmdWord, hr]

/-- Settles O34: the checks of header and length come first (cmd_malformed), then those of the command's own body. -/
theorem commandsNopReadWrite : Obligations.CommandsNopReadWrite := by
  refine ⟨fun s q c h => congrArg Host.Outcome.next ?_, fun s q c hp hn => ⟨fun short => congrArg Host.Outcome.next ?_,
      fun h8 bad => congrArg Host.Outcome.next ?_⟩,
    fun s q n c ps ch h hn h1 h2 walk hr free => ⟨fun clean => congrArg Host.Outcome.next ?_, fun bad => congrArg Host.Outcome.next ?_⟩,
    fun s q n va c prot ch h hn h1 h2 walk hr => congrArg Host.Outcome.next ?_,
    fun s q n c h hn out => congrArg Host.Outcome.next ?_,
    fun s q c hp hn h8 ok => ⟨fun ho hl => congrArg Host.Outcome.next ?_, fun ho hl => congrArg Host.Outcome.next ?_⟩,
    fun s q n c ps ch h h1 h2 walk hr free => congrArg Host.Outcome.next ?_⟩
  · exact (nop_row c).answers h rfl
  · exact cmd_malformed hp hn (cmdRow_bad (.inl short)) (by decide) fun d => cmdEffect_short short d q
  · exact cmd_malformed hp hn (cmdRow_bad (.inr bad)) (by decide) fun d => cmdEffect_badOp h8 bad d q
  · exact (read_row c).answers h (readBody_ok hn h1 h2 (cmdRead_ok walk hr free clean))
  · exact (read_row c).refused h (by decide) (readBody_refused hn h1 h2 (cmdRead_poisoned walk hr free bad))
  · exact (read_row c).refused h (by cases prot <;> decide) (readBody_refused hn h1 h2 (cmdRead_faults walk hr))
  · exact (read_row c).refused h (by decide) (readBody_len hn out _ _)
  · exact cmd_malformed hp hn (cmdRow_read h8 ok ho) (by decide) fun d =>
      cmdEffect_badLen h8 ok (by simp [ho, cmdLenOk, hl]) d q
  · exact cmd_malformed hp hn (cmdRow_write h8 ok ho) (by decide) fun d =>
      cmdEffect_badLen h8 ok (by rw [ho]; simp [cmdLenOk]; omega) d q
  · have data : (c.bytes.drop 16).length = n - 16 := by rw [List.length_drop, h.len]
    exact (write_row c h1 h2).answers h (congrArg (onChipBody (takeCmd s q)) (cmdWrite_ok data walk hr free 0))

/-! ## LAUNCH (03 R60, 04 R85 to R87) -/

theorem launch_row (c : Cmd) : InRow c 3 24 53 := ⟨by decide, by decide, rfl, rfl⟩

/-- What a check gives is not a refusal with status OK. -/
def Checked.fair : Checked → Bool
  | .status code => code != 0
  | _ => true

theorem fair_ite {p : Prop} [Decidable p] {x y : Checked × Chip} (hx : Checked.fair x.1 = true) (hy : Checked.fair y.1 = true) :
    Checked.fair (if p then x else y).1 = true := by
  split <;> assumption

theorem checkDesc_fair (s : Chip) (va : W64) (asid queue ring : Nat) (sup on : Bool) :
    Checked.fair (checkDesc s va asid sup queue ring on).1 = true := by
  unfold checkDesc
  refine fair_ite rfl ?_
  rcases ioRange s asid va.toNat 64 .store with ⟨_ | ps, s⟩
  · rfl
  refine fair_ite rfl ?_
  dsimp only
  rcases ioRange s asid _ _ .store with ⟨_ | qs, s⟩
  · rfl
  iterate 8 refine fair_ite rfl ?_
  rfl

/-- A descriptor that fails a check is answered with a status other than OK. -/
theorem checkDesc_status {s ch : Chip} {va : W64} {asid queue ring code : Nat} {sup on : Bool}
    (h : checkDesc s va asid sup queue ring on = (.status code, ch)) : code ≠ 0 := by
  have fair := checkDesc_fair s va asid queue ring sup on
  rw [h] at fair
  simpa [Checked.fair] using fair

section
variable {s : State} {q asid ring : Nat} {sup : Bool} {b : List Byte} {ch : Chip} (hr : word64 b 2 % 64 = ring)
include hr

theorem launchBody_ok {l : Launch}
    (h : checkDesc s.chip (BitVec.ofNat 64 (word64 b 1)) asid sup q ring (s.net.ring ring).en = (.ok l, ch)) :
    launchBody s q asid sup b = (.answer 0 (goLive ch l).1 [], { s with chip := (goLive ch l).2 }) := by
  have field : nfld (cmdWord b 2) 0 6 = ring := (cmd_fields ..).trans hr
  unfold launchBody
  dsimp only
  rw [field, cmdWord, h]

theorem launchBody_refused {code : Nat}
    (h : checkDesc s.chip (BitVec.ofNat 64 (word64 b 1)) asid sup q ring (s.net.ring ring).en = (.status code, ch)) :
    launchBody s q asid sup b = (.code code, { s with chip := ch }) := by
  have field : nfld (cmdWord b 2) 0 6 = ring := (cmd_fields ..).trans hr
  unfold launchBody
  dsimp only
  rw [field, cmdWord, h]

end

/-- A number as a launch id is one of the cycle 1, 2, ..., 2^32 - 1. -/
theorem launchId_norm_val (id : Nat) : ∃ p, launchId_norm id = launchId_val p := by
  refine ⟨launchId_norm id - 1, ?_⟩
  unfold launchId_norm launchId_val
  split <;> omega

/-- Fewer than 1,024 launches leave a free id among 1,025 in a row. -/
theorem freeId_fresh {s : Chip} (few : s.launches.length < 1024) (id : Nat) :
    freeId s 1025 id ≠ 0 ∧ freeId s 1025 id < 2 ^ 32 ∧ ∀ e ∈ s.launches, e.2.id ≠ freeId s 1025 id := by
  obtain ⟨p, hp⟩ := launchId_norm_val id
  have ids : ∀ x, (s.launches.any fun e => e.2.id == x) = true ↔ x ∈ s.launches.map (·.2.id) := by simp
  obtain ⟨free, pos, small⟩ := freeId_ok s _ ids (by rw [List.length_map]; omega) p 1025 0 id hp (by omega) rfl
  exact ⟨pos, small, fun e he same => free (List.mem_map.2 ⟨e, he, same⟩)⟩

/-- Settles O35: the answer by what the check gives; slot and id are the first free ones. -/
theorem commandLaunch : Obligations.CommandLaunch := by
  refine ⟨fun s q c h => ⟨fun l ch ok => congrArg Host.Outcome.next ?_, fun code ch bad => congrArg Host.Outcome.next ?_⟩,
    fun s l few => ?_⟩
  · exact (launch_row c).answers h (launchBody_ok rfl ok)
  · exact (launch_row c).refused h (checkDesc_status bad) (launchBody_refused rfl bad)
  · obtain ⟨slot, small, first, free⟩ := slot_free s few
    obtain ⟨pos, word, fresh⟩ := freeId_fresh few s.nextLaunch
    have table := goLive_launches s l
    rw [first] at table
    exact ⟨slot, small, free, by rw [table]; exact find_put_same, fun k hk => by rw [table]; exact find_put_other hk, pos, word, fresh⟩

/-! ## TLBINV, HARVEST and PLACE (03 R63, 07 R199, R200) -/

theorem tlbinv_row (c : Cmd) : InRow c 6 32 59 := ⟨by decide, by decide, rfl, rfl⟩
theorem harvest_row (c : Cmd) : InRow c 7 16 60 := ⟨by decide, by decide, rfl, rfl⟩
theorem place_row (c : Cmd) : InRow c 8 24 61 := ⟨by decide, by decide, rfl, rfl⟩

/-- A TLBINV of a whole address space by a supervisor's queue. -/
theorem tlbinvBody_asid {c : Cmd} (one : (word64 c.bytes 1).testBit 12 = false) (whole : (word64 c.bytes 1).testBit 13 = true)
    (d : State) (a : Nat) : tlbinvBody d a true c = tlbinvRun d c (some (word64 c.bytes 1 % 2 ^ 12)) 0 (2 ^ 64) := by
  simp [tlbinvBody, cmdWord, one, whole, cmd_fields]

/-- Whether all that a TLBINV found under the old mapping is over. -/
def workOver (d : State) (w : CmdWork) : Bool :=
  match w with | .tlbinv a lo hi cs h o v k => tlbinvOver d a lo hi cs h o v k | _ => false

/-- A TLBINV carried on as it begins: answered at once, or left in progress. -/
theorem carryOn_tlbinv {s d : State} {q : Nat} {i : InCmd} {asid : Option Nat} {lo top : Nat} {cores held : List (Nat × Nat)}
    {ops convs msgs : List Nat} (hq : d.net.queues = (takeCmd s q).net.queues) (older : ∀ p ∈ allInprog s, p.2.no < i.no)
    (hw : i.work = .tlbinv asid lo top cores held ops convs msgs) :
    carryOn (addInprog d q i) q i =
      if workOver d i.work = true then answerCmd (d.modChip clearL1s) i.cmd 0 0 [] else addInprog d q i := by
  unfold carryOn
  rw [hw]
  exact ite_congr rfl (fun _ => fin_added_of hq older) fun _ => rfl

theorem harvestBody_free {d : State} {asid : Nat} {sup : Bool} {b : List Byte}
    (may : sup = true ∨ word64 b 1 % 2 ^ 12 = asid) (free : gatheredHeld d.chip (fun e => e.asid == word64 b 1 % 2 ^ 12) = false) :
    harvestBody d asid sup b = (.code 0, d.modChip fun c => flushGathered c fun e => e.asid == word64 b 1 % 2 ^ 12) := by
  have field : nfld (cmdWord b 1) 0 12 = word64 b 1 % 2 ^ 12 := cmd_fields ..
  unfold harvestBody
  rw [field, if_neg (by simpa [imp_iff_or_not, or_comm] using may), if_neg (ne_true_of_eq_false free)]

theorem harvestBody_other {d : State} {asid : Nat} {b : List Byte} (other : word64 b 1 % 2 ^ 12 ≠ asid) :
    harvestBody d asid false b = (.code 3, d) :=
  if_pos ⟨rfl, by unfold cmdWord; rwa [cmd_fields]⟩

theorem placeBody_read {d : State} {q asid no : Nat} {sup : Bool} {b image : List Byte} {ch : Chip}
    (dies : word64 b 1 / 2 ^ 24 % 2 ^ 8 ≠ 0) (may : sup = true ∨ word64 b 1 % 2 ^ 12 = asid)
    (hr : cmdRead d.chip asid (word64 b 2) 64 = (.ok image, ch)) :
    placeBody d q asid sup no b = (.work .place, { d with
      chip := placeOn ch (word64 b 1 / 2 ^ 24 % 2 ^ 8) (word64 b 1 % 2 ^ 12) (word64 b 1 / 2 ^ 16 % 2 ^ 8) q no image }) := by
  have field : nfld (word64 b 1) 0 12 = word64 b 1 % 2 ^ 12 := cmd_fields ..
  unfold placeBody cmdWord
  dsimp only
  rw [field, if_neg (show ¬nfld (word64 b 1) 24 8 = 0 from dies), if_neg (by simpa [imp_iff_or_not, or_comm] using may), hr]; rfl

/-- A PLACE carried on as it begins: answered once no die's series holds it. -/
theorem carryOn_place {s d : State} {q : Nat} {i : InCmd} (hq : d.net.queues = (takeCmd s q).net.queues)
    (older : ∀ p ∈ allInprog s, p.2.no < i.no) (hw : i.work = .place) :
    carryOn (addInprog d q i) q i = if placeHeld d q i.no = true then addInprog d q i else answerCmd d i.cmd 0 0 [] := by
  unfold carryOn
  rw [hw]
  exact ite_congr rfl (fun _ => rfl) fun _ => fin_added_of (g := id) hq older

/-- Settles O37: TLBINV and PLACE are in progress as they begin, and carried on once; HARVEST is answered by its body. -/
theorem commandsTlbinvHarvestPlace : Obligations.CommandsTlbinvHarvestPlace := by
  refine ⟨fun s q c h sup one whole older => congrArg Host.Outcome.next ?_,
    fun s q c h => ⟨fun may free => congrArg Host.Outcome.next ?_, fun nosup other => congrArg Host.Outcome.next ?_⟩,
    fun s q c image ch h dies may older hr => congrArg Host.Outcome.next ?_⟩
  · have body : bodyNow s q c 6 = tlbinvRun (takeCmd s q) c (some (word64 c.bytes 1 % 2 ^ 12)) 0 (2 ^ 64) := by
      show tlbinvBody _ _ (s.net.queue q).sup c = _
      rw [sup]; exact tlbinvBody_asid one whole _ _
    refine ((tlbinv_row c).works h (by nofun) body).trans ?_
    refine Eq.trans (carryOn_tlbinv rfl older rfl) ?_
    unfold inProgress
    rw [sup]; rfl
  · exact (harvest_row c).answers h (harvestBody_free may free)
  · refine (harvest_row c).refused h (t := s.chip) (by decide) ?_
    show harvestBody _ _ (s.net.queue q).sup c.bytes = _
    rw [nosup]; exact harvestBody_other other
  · refine ((place_row c).works h (by nofun) (placeBody_read dies may hr)).trans ?_
    exact carryOn_place rfl older rfl

/-! ## Completion records and the event timer (03 R64 to R69) -/

theorem exec_completionRecordWrite {s : State} (h : s.io.phase = .running) (slot : Nat) :
    exec (.completionRecordWrite slot) s = .next (completionWrite s slot) := congrArg Host.Outcome.next (if_pos h)
theorem exec_eventTimerExpiry {s : State} (h : s.io.phase = .running) (n : Nat) :
    exec (.eventTimerExpiry n) s = .next (eventTimer s n) := congrArg Host.Outcome.next (if_pos h)
theorem exec_waiteventPoll {s : State} (h : s.io.phase = .running) (q : Nat) :
    exec (.waiteventPoll q) s = .next (waitPoll s q) := congrArg Host.Outcome.next (if_pos h)

theorem completionWrite_ok {s t : State} {slot : Nat} {l : Launch} (hl : s.chip.launches.find? slot = some l)
    (ended : launchOver s.chip slot l = true) (on : (s.net.ring l.ring).en = true)
    (gathered : gatheredHeld s.chip (fun e => e.asid == l.asid) = false) (free : ringHeld s l.ring = false)
    (wrote : let f := s.modChip fun c => flushGathered c fun e => e.asid == l.asid
      ringWrite f l.ring (completionBytes f.chip.timebase l) = (.ok, t)) :
    completionWrite s slot = ringEvents (t.modChip fun c => freeSlot c slot) l.ring := by
  unfold completionWrite
  rw [hl]
  dsimp only
  rw [if_neg (by simp [ended, on, gathered, free]), wrote]

theorem freeSlot_launches (s : Chip) (slot : Nat) : (freeSlot s slot).launches = s.launches.del slot := by
  unfold freeSlot
  dsimp only
  rw [foldl_keep]
  exact fun _ _ => rfl

theorem eventTimer_due {s : State} {n clock : Nat} {b : List Byte} {rest : List (Nat × List Byte)}
    (hu : (s.net.ring n).unsent = (clock, b) :: rest) (due : clock + (s.net.ring n).timer * 850 ≤ s.io.clock) :
    eventTimer s n = eventFrame s n := by
  unfold eventTimer
  dsimp only
  rw [hu]
  exact if_neg (Nat.not_lt.2 due)

theorem eventFrame_sent {s : State} {n : Nat} (unsent : (s.net.ring n).unsent ≠ []) (heard : (s.net.ring n).mute s = false) :
    eventFrame s n =
      let r := s.net.ring n
      sendMsg { s with net := s.net.setRing n { r with unsent := r.unsent.drop 128, frames := bump r.frames } } r.drank r.stream 6
        true false 0 n 0 ((r.unsent.take 128).flatMap (·.2)) := by
  refine if_neg ?_
  simp [unsent, heard]

theorem not_mute {s : State} {r : Ring} (h : r.drank = ownRank s ∨ (s.net.rank r.drank).pmask ≠ 0) : r.mute s = false := by
  unfold Ring.mute
  rcases h with h | h <;> simp [h]

/-- Settles O39: a record that is written frees its slot; a timer that is due sends a frame. -/
theorem completionAndEventTimer : Obligations.CompletionAndEventTimer := by
  refine ⟨fun s t slot l hp hl ended on gathered free wrote => ⟨?_, ?_⟩, fun s n clock b rest hp hu due heard => ?_⟩
  · rw [exec_completionRecordWrite hp, completionWrite_ok hl ended on gathered free wrote]; rfl
  · rw [freeSlot_launches, find_del_same]
  · rw [exec_eventTimerExpiry hp, eventTimer_due hu due, eventFrame_sent (by simp [hu]) (not_mute heard)]

/-! ## SIGNAL (03 R63) -/

theorem signal_row (c : Cmd) {op : Nat} (h : word64 c.bytes 1 % 2 = op) : InRow c 9 32 (62 + op) :=
  ⟨by decide, by decide, rfl, congrArg (62 + ·) ((cmd_fields ..).trans h)⟩

/-- A SIGNAL at an address that translates to p, with no claim in its way. -/
structure SignalAt (s : Chip) (asid va p : Nat) (ch : Chip) : Prop where
  walk : walkHeld s 0 [] asid va = false
  found : xlAgent s 0 asid va .sync = (.ok p, ch)
  free : ch.storeHeld (lineOf p) = false

/-- The requester of the command processor's operations in an address space. -/
def ioRequester (asid : Nat) : Requester := ⟨⟨0, 0, 0, false⟩, 0, asid⟩

/-- The compute part once the command processor has accessed the line of an object at p. -/
def lineTouched (ch : Chip) (asid va p : Nat) : Chip := ch.l2Access p (agentInsert ch 0 asid va 1)

namespace SignalAt
variable {s ch : Chip} {asid va p : Nat} (A : SignalAt s asid va p ch)
include A

theorem fput_poisoned (aligned : va % 16 = 0) (bad : ch.poisoned p 16 ≠ none) (v : W64) : signal s asid 0 va v = (.code 6, ch) := by
  simp [signal, aligned, A.walk, A.found, A.free, Option.isSome_iff_ne_none, bad]

theorem dcdec_poisoned (aligned : va % 8 = 0) (bad : ch.poisoned p 8 ≠ none) (v : W64) : signal s asid 1 va v = (.code 6, ch) := by
  simp [signal, aligned, A.walk, A.found, A.free, Option.isSome_iff_ne_none, bad]

theorem fput_clean (aligned : va % 16 = 0) (ok : ch.poisoned p 16 = none) (v : W64) : signal s asid 0 va v =
    let u := lineTouched ch asid va p
    if (u.rd64 (p + 8)).getLsbD 63 = true then (.code 0x0D, u)
    else (.code 0, (syncAt u .fput p (BitVec.ofNat 64 va) v (ioRequester asid)).2) := by
  unfold signal
  dsimp only
  rw [if_neg (by simp [aligned]), if_neg (by simp [A.walk]), A.found]
  dsimp only
  rw [if_neg (by simp [A.free]), if_neg (by simp [ok]), if_pos rfl]; rfl

theorem dcdec_clean (aligned : va % 8 = 0) (ok : ch.poisoned p 8 = none) (v : W64) : signal s asid 1 va v =
    let u := lineTouched ch asid va p
    if (u.rd64 p).toNat % 2 ^ 32 = 0 then (.code 0x0D, u)
    else (.code 0, (syncAt u .dcdec p (BitVec.ofNat 64 va) 0 (ioRequester asid)).2) := by
  unfold signal
  dsimp only
  rw [if_neg (by simp [aligned]), if_neg (by simp [A.walk]), A.found]
  dsimp only
  rw [if_neg (by simp [A.free]), if_neg (by simp [ok]), if_neg (by decide)]; rfl

end SignalAt

theorem signalBody_eq {b : List Byte} {op : Nat} {r : CmdRes} {t : Chip} (hop : word64 b 1 % 2 = op) {d : State} {asid : Nat}
    (h : signal d.chip asid op (word64 b 2) (BitVec.ofNat 64 (word64 b 3)) = (r, t)) : signalBody d asid b = (r, { d with chip := t }) := by
  have field : nfld (cmdWord b 1) 0 1 = op := (cmd_fields ..).trans hop
  unfold signalBody
  rw [field]
  exact congrArg (onChipBody d) h

/-! ## WAITEVENT (03 R63) -/

theorem waitevent_row (c : Cmd) : InRow c 10 32 64 := ⟨by decide, by decide, rfl, rfl⟩

section
variable {s : State} {asid cond : Nat} {va v : W64} {bs : List Byte} {ch : Chip} (hr : cmdRead s.chip asid va.toNat 8 = (.ok bs, ch))
include hr

theorem waitRead_met (h : condHolds cond (BitVec.ofNat 64 (leNat bs)) v = true) :
    waitRead s asid cond va v = (.error (.answer 0 (BitVec.ofNat 64 (leNat bs)).toNat []), { s with chip := ch }) := by
  unfold waitRead
  rw [hr]
  exact if_pos h

theorem waitRead_unmet (h : condHolds cond (BitVec.ofNat 64 (leNat bs)) v = false) :
    waitRead s asid cond va v = (.ok (BitVec.ofNat 64 (leNat bs)), s) := by
  unfold waitRead
  rw [hr]
  exact if_neg (by simp [h])

end

theorem waitBody_met {d t : State} {asid r : Nat} {b : List Byte}
    (h : waitRead d asid (word64 b 1 % 4) (BitVec.ofNat 64 (word64 b 2)) (BitVec.ofNat 64 (word64 b 3)) = (.error (.answer 0 r []), t)) :
    waitBody d asid b = (.answer 0 r [], t) := by
  have field : nfld (cmdWord b 1) 0 2 = word64 b 1 % 4 := cmd_fields ..
  unfold waitBody
  dsimp only
  rw [field]
  unfold cmdWord
  rw [h]

theorem waitBody_unmet {d t : State} {asid : Nat} {b : List Byte} {x : W64}
    (h : waitRead d asid (word64 b 1 % 4) (BitVec.ofNat 64 (word64 b 2)) (BitVec.ofNat 64 (word64 b 3)) = (.ok x, t)) :
    waitBody d asid b = (.work (.wait (word64 b 1 % 4) (BitVec.ofNat 64 (word64 b 2)) (BitVec.ofNat 64 (word64 b 3))
      (waitEnd d (word64 b 1 / 2 ^ 32 % 2 ^ 32)) x), t) := by
  have field : nfld (cmdWord b 1) 0 2 = word64 b 1 % 4 := cmd_fields ..
  unfold waitBody
  dsimp only
  rw [field]
  unfold cmdWord
  rw [h]; rfl

section
variable {s t : State} {q cond : Nat} {i : InCmd} {va v last x : W64} {till : Option Nat}
  (hi : (s.net.queue q).inprog.find? InCmd.isWait = some i) (hw : i.work = .wait cond va v till last)
include hi hw

theorem waitPoll_met {r : Nat} (h : waitRead s i.asid cond va v = (.error (.answer 0 r []), t)) :
    waitPoll s q = finishCmd t q i 0 r [] := by
  unfold waitPoll
  rw [hi]
  dsimp only
  rw [hw]
  dsimp only
  rw [h]

theorem waitPoll_unmet (h : waitRead s i.asid cond va v = (.ok x, t)) : waitPoll s q = waitGoOn t q i cond va v till x := by
  unfold waitPoll
  rw [hi]
  dsimp only
  rw [hw]
  dsimp only
  rw [h]

end

theorem waitLate_iff (s : State) (till : Option Nat) : waitLate s till = true ↔ ∃ t, till = some t ∧ t ≤ s.io.clock := by
  cases till <;> simp [waitLate]

/-! ## ATTEST, FWLOAD and FREEZE (03 R72, R73, R76, R77) -/

theorem attest_row (c : Cmd) : InRow c 11 48 66 := ⟨by decide, by decide, rfl, rfl⟩
theorem fwload_row (c : Cmd) : InRow c 12 32 67 := ⟨by decide, by decide, rfl, rfl⟩
theorem freeze_row (c : Cmd) : InRow c 13 8 68 := ⟨by decide, by decide, rfl, rfl⟩

/-- The words before the measurements, MEAS[1] to MEAS[3], the nonce and the signature (R76). -/
theorem attestReport_length (s : State) {nonce : List Byte} (h : nonce.length = 32) : (attestReport s nonce).length = 2612 := by
  simp [attestReport, List.length_flatMap, leBytes_length, h]

theorem imageOk_svn {rd : Nat → Nat → List Byte} {t least : Nat} {root : BitVec 256} (h : imageOk rd t root least = true) :
    least ≤ (imgHdr rd).svn := by
  unfold imageOk at h
  simp only [Bool.and_eq_true, decide_eq_true_eq] at h
  tauto

/-- The type of an image that FWLOAD names, and its slot (R73). -/
def loadType (b : List Byte) : Nat := word64 b 1 % 4
def loadSlot (i : Io) (b : List Byte) : Nat := fwSlot i (loadType b) (word64 b 1 / 4 % 4)

/-- FWLOAD names an image type, a slot that the part did not boot from, and no more bytes than the slot holds (R73). -/
structure Loads (i : Io) (b : List Byte) : Prop where
  typed : loadType b ≠ 0
  named : word64 b 1 / 4 % 4 ≠ 3
  spare : loadSlot i b ≠ bootedSlot i (loadType b)
  fits : word64 b 3 ≤ slotSize (loadType b)

theorem fwloadBody_read {d : State} {asid : Nat} {b img : List Byte} {ch : Chip} (L : Loads d.io b)
    (hr : cmdRead d.chip asid (word64 b 2) (word64 b 3) = (.ok img, ch)) :
    fwloadBody d asid true b =
      let r := fwload { d with chip := ch } (loadType b) (loadSlot d.io b) ((word64 b 1).testBit 4) img
      (.code r.1, r.2) := by
  have type : nfld (word64 b 1) 0 2 = loadType b := cmd_fields ..
  have slot : fwSlot d.io (loadType b) (nfld (word64 b 1) 2 2) = loadSlot d.io b := rfl
  have passes : ¬(loadType b = 0 ∨ nfld (word64 b 1) 2 2 = 3 ∨ loadSlot d.io b = bootedSlot d.io (loadType b) ∨
      word64 b 3 > slotSize (loadType b)) := by
    rintro (h | h | h | h)
    · exact L.typed h
    · exact L.named h
    · exact L.spare h
    · exact absurd L.fits (Nat.not_le.2 h)
  unfold fwloadBody cmdWord
  dsimp only
  rw [type, slot, if_neg (by decide), if_neg passes, hr]

section
variable {s : State} {t slot : Nat} {commit : Bool} {img : List Byte}

theorem fwload_rollback (h : (imgHdr (imgRd img)).svn < fusedSvn s.io t) : fwload s t slot commit img = (0x0A, s) := if_pos h

theorem fwload_bad (h : fusedSvn s.io t ≤ (imgHdr (imgRd img)).svn)
    (bad : imageOk (imgRd img) t s.io.fuseRoot (fusedSvn s.io t) = false) :
    fwload s t slot commit img = (9, s) :=
  (if_neg (Nat.not_lt.2 h)).trans (if_pos (by simp [bad]))

/-- An image that passes as read is written, and looked at again in its slot (R73). -/
theorem fwload_good (ok : imageOk (imgRd img) t s.io.fuseRoot (fusedSvn s.io t) = true) : fwload s t slot commit img =
    if imageOk (flashRd { s.io with flash := fwWritten s.io t slot img } (slotBase t slot)) t s.io.fuseRoot (fusedSvn s.io t) = true then
      (0, s.modIo fun i => fwCommit { i with flash := fwWritten i t slot img } t commit (imgHdr (imgRd img)).svn)
    else (9, s.modIo fun i => { i with flash := fwErased i t slot }) := by
  refine (if_neg (Nat.not_lt.2 (imageOk_svn ok))).trans ((if_neg (by simp [ok])).trans ?_)
  cases imageOk (flashRd { s.io with flash := fwWritten s.io t slot img } (slotBase t slot)) t s.io.fuseRoot (fusedSvn s.io t) <;> rfl

end

/-- COMMIT changes the counter of the type only, where the image's SVN is above it. -/
theorem fwCommit_eq (i : Io) (t : Nat) (commit : Bool) (svn : Nat) : fwCommit i t commit svn = { i with
    fuseSvn := if commit = true ∧ fusedSvn i t < svn then i.fuseSvn.setIfInBounds (t - 1) (max (fusedSvn i t) (min svn 63))
      else i.fuseSvn } := by
  unfold fwCommit
  split <;> rfl

theorem fwload_body {s : State} {q : Nat} {c : Cmd} {img : List Byte} {ch : Chip} (sup : (s.net.queue q).sup = true)
    (L : Loads s.io c.bytes) (hr : cmdRead s.chip (s.net.queue q).asid (word64 c.bytes 2) (word64 c.bytes 3) = (.ok img, ch))
    {st : Nat} {u : State}
    (hf : fwload { takeCmd s q with chip := ch } (loadType c.bytes) (loadSlot s.io c.bytes) ((word64 c.bytes 1).testBit 4) img = (st, u)) :
    bodyNow s q c 12 = (.code st, u) := by
  show fwloadBody _ _ (s.net.queue q).sup c.bytes = _
  rw [sup]
  refine (fwloadBody_read (d := takeCmd s q) L hr).trans ?_
  exact congrArg (fun r : Nat × State => (CmdRes.code r.1, r.2)) hf

theorem freezeBody_sup (d : State) : freezeBody d true = (.silent, freeze d 1) := rfl
theorem freezeBody_other (d : State) : freezeBody d false = (.code 3, d) := rfl

/-- FREEZE of a supervisor's queue has no answer: what is left is the trigger. -/
theorem freeze_command {s : State} {q : Nat} {c : Cmd} (h : Begins s q c 13 8) (sup : (s.net.queue q).sup = true) :
    command s 68 = freeze (takeCmd s q) 1 := by
  refine cmd_silent h ?_ (by decide) (by decide) rfl rfl
  show freezeBody _ (s.net.queue q).sup = _
  rw [sup]; exact freezeBody_sup _

/-- Settles O38, command by command. -/
theorem commandsSignalWaitAttestFwloadFreeze : Obligations.CommandsSignalWaitAttestFwloadFreeze := by
  refine ⟨⟨?signal, ?waitevent, ?poll⟩, ?attest, ?fwload, ?freeze⟩
  case signal =>
    intro s q p c ch h walk found free
    have A : SignalAt s.chip (s.net.queue q).asid (word64 c.bytes 2) p ch := ⟨walk, found, free⟩
    refine ⟨fun fput aligned => ⟨fun bad => congrArg Host.Outcome.next ?_, fun ok empty => congrArg Host.Outcome.next ?_,
        fun ok full => congrArg Host.Outcome.next ?_⟩,
      fun dcdec aligned => ⟨fun bad => congrArg Host.Outcome.next ?_, fun ok positive => congrArg Host.Outcome.next ?_,
        fun ok zero => congrArg Host.Outcome.next ?_⟩⟩
    · exact (signal_row c fput).refused h (by decide) (signalBody_eq fput (A.fput_poisoned aligned bad _))
    · exact (signal_row c fput).answers h (signalBody_eq fput ((A.fput_clean aligned ok _).trans (if_neg (ne_true_of_eq_false empty))))
    · exact (signal_row c fput).refused h (by decide) (signalBody_eq fput ((A.fput_clean aligned ok _).trans (if_pos full)))
    · exact (signal_row c dcdec).refused h (by decide) (signalBody_eq dcdec (A.dcdec_poisoned aligned bad _))
    · exact (signal_row c dcdec).answers h (signalBody_eq dcdec ((A.dcdec_clean aligned ok _).trans (if_neg positive)))
    · exact (signal_row c dcdec).refused h (by decide) (signalBody_eq dcdec ((A.dcdec_clean aligned ok _).trans (if_pos zero)))
  case waitevent =>
    intro s q c bs ch h hr
    have word : (BitVec.ofNat 64 (word64 c.bytes 2)).toNat = word64 c.bytes 2 := Nat.mod_eq_of_lt (word_lt ..)
    rw [← word] at hr
    refine ⟨fun met => congrArg Host.Outcome.next ?_, fun unmet => congrArg Host.Outcome.next ?_⟩
    · exact (waitevent_row c).answers h (waitBody_met (waitRead_met (s := takeCmd s q) hr met))
    · exact (waitevent_row c).works h (by nofun) (waitBody_unmet (waitRead_unmet (s := takeCmd s q) hr unmet))
  case poll =>
    intro s q cond i va v last till bs ch hp hi hw hr
    refine ⟨fun met => ?_, fun unmet late => ?_, fun unmet early => ?_⟩
    · rw [exec_waiteventPoll hp, waitPoll_met hi hw (waitRead_met hr met)]
    · rw [exec_waiteventPoll hp, waitPoll_unmet hi hw (waitRead_unmet hr unmet)]
      exact congrArg Host.Outcome.next (if_pos ((waitLate_iff ..).2 late))
    · rw [exec_waiteventPoll hp, waitPoll_unmet hi hw (waitRead_unmet hr unmet)]
      exact congrArg Host.Outcome.next (if_neg (mt (waitLate_iff ..).1 early))
  case attest =>
    intro s q c ps ch h
    have nonce : (c.bytes.drop 16).length = 32 := by rw [List.length_drop, h.len]
    have size := attestReport_length s nonce
    exact ⟨size, fun walk hr free => congrArg Host.Outcome.next
      ((attest_row c).answers h (congrArg (onChipBody (takeCmd s q)) (cmdWrite_ok size walk hr free 2612)))⟩
  case fwload =>
    intro s q c img ch h sup
    dsimp only
    intro typed named spare fits hr
    have L : Loads s.io c.bytes := ⟨typed, named, spare, fits⟩
    refine ⟨fun low => congrArg Host.Outcome.next ?_, fun high bad => congrArg Host.Outcome.next ?_,
      fun ok => congrArg Host.Outcome.next ?_⟩
    · exact (fwload_row c).refused h (by decide) (fwload_body sup L hr (fwload_rollback low))
    · exact (fwload_row c).refused h (by decide) (fwload_body sup L hr (fwload_bad high bad))
    · have body := fwload_good (s := { takeCmd s q with chip := ch }) (slot := loadSlot s.io c.bytes)
        (commit := (word64 c.bytes 1).testBit 4) (t := loadType c.bytes) ok
      split at body
      · rw [if_pos ‹_›]
        refine ((fwload_row c).answers h (fwload_body sup L hr body)).trans ?_
        simp only [State.modIo, fwCommit_eq]; rfl
      · rw [if_neg ‹_›]
        exact cmd_refused h (fwload_body sup L hr body) (by decide) (by decide) (by decide) rfl rfl
  case freeze =>
    intro s q c h
    have live : (takeCmd s q).io.phase ≠ .reset ∧ (takeCmd s q).io.phase ≠ .frozen := by
      show s.io.phase ≠ .reset ∧ s.io.phase ≠ .frozen
      rw [h.running]; decide
    refine ⟨fun sup first => ⟨fun edge => ?_, fun early => ?_⟩, fun nosup => congrArg Host.Outcome.next ?_⟩
    · exact congrArg Host.Outcome.next ((freeze_command h sup).trans (freeze_at_edge (s := takeCmd s q) 1 live.1 live.2 first edge))
    · refine congrArg Host.Outcome.next ((freeze_command h sup).trans ?_)
      rw [freeze_before_edge (s := takeCmd s q) 1 live.1 live.2 (by rw [show (takeCmd s q).io.frzPend = none from first]; rfl) early,
        show (takeCmd s q).io.frzPend = none from first]; rfl
    · refine (freeze_row c).refused h (t := s.chip) (by decide) ?_
      show freezeBody _ (s.net.queue q).sup = _
      rw [nosup]; exact freezeBody_other _

end Sys2Proof.Proofs.Command
end

section
/-! PROOFS. The task units and the watchdog (spec/04_scheduler.md): asks for work and bindings, ageing, saves, adoptions that are bound
or moved, the watchdog and its LIMIT. -/

namespace Sys2Proof.Proofs.Scheduler
open Sys2Proof.Machine Sys2Proof.Laws

/-! ## The rows -/

theorem exec_coreWorkAsk {s : State} (h : s.io.phase = .running) (d c : Nat) :
    exec (.coreWorkAsk d c) s = .next (s.modChip fun x => coreWorkAsk x d c) := congrArg Host.Outcome.next (onChip_running h _)
theorem exec_crewBindingComplete {s : State} (h : s.io.phase = .running) (d c task : Nat) :
    exec (.crewBindingComplete d c task) s = .next (s.modChip fun x => bindingComplete x d c task) :=
  congrArg Host.Outcome.next (onChip_running h _)
theorem exec_ageingRise {s : State} (h : s.io.phase = .running) (d : Nat) :
    exec (.ageingRise d) s = .next (s.modChip fun x => ageDie x d) := congrArg Host.Outcome.next (onChip_running h _)
theorem exec_crewSave {s : State} (h : s.io.phase = .running) (task : Nat) :
    exec (.crewSave task) s = .next (s.modChip fun x => crewSave x task) := congrArg Host.Outcome.next (onChip_running h _)
theorem exec_adoptedCrewBind {s : State} (h : s.io.phase = .running) (d : Nat) :
    exec (.adoptedCrewBind d) s = .next (s.modChip fun x => adoptedCrewBind x d) := congrArg Host.Outcome.next (onChip_running h _)
theorem exec_crewMigration {s : State} (h : s.io.phase = .running) (d : Nat) :
    exec (.crewMigration d) s = .next (s.modChip fun x => crewMigration x d) := congrArg Host.Outcome.next (onChip_running h _)

/-- An operation that leaves the compute part as it is leaves the machine as it is. -/
theorem onChip_same {s : State} {f : Chip → Chip} (h : f s.chip = s.chip) : onChip s f = s := by
  unfold onChip; rw [h]; split <;> rfl

/-! ## Asks for work (R97, R98) -/

theorem slotTaken_iff {s : Chip} {d : Nat} : slotTaken s d = true ↔ (s.die d).slotUsed = true ∨ (s.die d).adopting ≠ [] := by
  simp [slotTaken]

theorem coreWorkAsk_taken {s : Chip} {d : Nat} (h : slotTaken s d = true) (c : Nat) : coreWorkAsk s d c = s := if_pos (.inl h)

/-- The cores of a die that come before a core in rotating order. -/
def aheadOf (s : Chip) (d c : Nat) : List Nat := ((List.range 16).map fun k => ((s.die d).lastAsk + 1 + k) % 16).takeWhile (· != c)

/-- The queues, the ask pointer and the L2 once a core has taken an entry's task and its record has been read. -/
def asked (s : Chip) (d c : Nat) (k : Take) : Chip :=
  ((dequeue s d k.level k.place k.entry).modDie d fun y => { y with lastAsk := c }).recRead k.entry.task

/-- The record of a task that comes from a cursor gets the cursor's level and ENQCC (R88). -/
def cursorRecord (s : Chip) (k : Take) : Chip :=
  if k.entry.cursor then
    (s.recMod0 k.entry.task fun w => w64Put w 53 3 k.level).recWr k.entry.task 0x30 (BitVec.ofNat 64 k.entry.enq)
  else s

/-- The compute part as a core's ask leaves it to the binding. -/
def readyToBind (s : Chip) (d c : Nat) (k : Take) : Chip :=
  recordBound (cursorRecord (asked s d c k) k) k.entry.task stParked d c (k.res.ctxs.headD 0)

theorem coreWorkAsk_binds {s : Chip} {d c : Nat} {k : Take} {l : Launch} (free : slotTaken s d = false)
    (ctxs : freeCtxs (s.core d c) ≠ []) (first : ∀ j ∈ aheadOf s d c, askServed s d j = false)
    (take : takeFor s d c = some k) (hl : s.launchOf k.entry.task = some l) (unheld : takeHeld s d k.entry.task = false)
    (ready : recState (s.recRd k.entry.task 0) = stReady) :
    coreWorkAsk s d c = bindCrew (readyToBind s d c k) d c l 0 false ((s.recRd k.entry.task 0).getLsbD 57) k.res := by
  have turn : ¬ (slotTaken s d = true ∨ (freeCtxs (s.core d c)).isEmpty = true ∨ (aheadOf s d c).any (askServed s d) = true) := by
    rintro (h | h | h)
    · rw [free] at h; cases h
    · exact ctxs (List.isEmpty_iff.1 h)
    · obtain ⟨j, hj, hs⟩ := List.any_eq_true.1 h
      rw [first j hj] at hs; cases hs
  refine (if_neg turn).trans ?_
  rw [take]
  dsimp only
  rw [hl]
  dsimp only
  rw [unheld, if_neg (by decide), ready, if_neg (by decide), if_neg (by simp)]
  rfl

/-- The ask pointer is not touched by a store of the task units. -/
theorem lastAsk_wrote {s t : Chip} (h : Wrote s t) (d : Nat) : (t.die d).lastAsk = (s.die d).lastAsk := by
  obtain ⟨l2, hd⟩ := h.die d; rw [hd]
theorem lastAsk_recMod0 (s : Chip) (task : Nat) (f : W64 → W64) (d : Nat) : ((s.recMod0 task f).die d).lastAsk = (s.die d).lastAsk := by
  unfold Chip.recMod0
  dsimp only
  split
  · rfl
  · exact lastAsk_wrote (wrote_recWr ..) d

theorem wrote_recRead (s : Chip) (task : Nat) : Wrote s (s.recRead task) := by
  unfold Chip.recRead
  split
  · exact wrote_noteRec ..
  · exact .rfl

theorem records_recordBound (s : Chip) (task st d c x : Nat) : Records s (recordBound s task st d c x) := records_recMod0 s task _
theorem lastAsk_recordBound (s : Chip) (task st d c x e : Nat) : ((recordBound s task st d c x).die e).lastAsk = (s.die e).lastAsk :=
  lastAsk_recMod0 s task _ e

theorem records_readyToBind (s : Chip) (d c : Nat) (k : Take) : Records s (readyToBind s d c k) := by
  have ask : Records s (asked s d c k) := by
    unfold asked
    exact ((records_dequeue ..).trans (records_modDie _ _ fun y => ⟨_, _, c, _, rfl⟩)).trans (records_recRead ..)
  refine (ask.trans ?_).trans (records_recordBound ..)
  unfold cursorRecord
  split
  · exact (records_recMod0 ..).trans (wrote_recWr ..).records
  · exact .rfl

theorem lastAsk_readyToBind (s : Chip) (d c : Nat) (k : Take) : ((readyToBind s d c k).die d).lastAsk = c := by
  have ask : ((asked s d c k).die d).lastAsk = c := by
    unfold asked; rw [lastAsk_wrote (wrote_recRead ..), modDie_same]
  refine (lastAsk_recordBound ..).trans ?_
  unfold cursorRecord
  split
  · rw [lastAsk_wrote (wrote_recWr ..), lastAsk_recMod0, ask]
  · exact ask

/-- What a core would take is what its entry's crew takes, all its members, when no image is saved. -/
theorem takeFor_res {s : Chip} {d c : Nat} {k : Take} {l : Launch} (take : takeFor s d c = some k)
    (hl : s.launchOf k.entry.task = some l) (fresh : (s.recRd k.entry.task 0).getLsbD 57 = false) :
    pickRes s d c l k.entry.task l.members [] = some k.res := by
  unfold takeFor at take
  split at take
  · cases take
  · rename_i lv n e _
    split at take
    · cases take
    · rename_i m hm
      obtain ⟨r, hr, rfl⟩ := Option.map_eq_some_iff.1 take
      rw [fresh, if_neg (by decide)] at hr
      cases hm.symm.trans hl
      exact hr

theorem bindCrew_fresh (s : Chip) (d c : Nat) (l : Launch) (host : Nat) (saving : Bool) (r : Reserved) :
    bindCrew s d c l host saving false r = bindFresh (s.modDie d fun y => { y with slotUsed := true }) d c l host saving r := rfl

theorem zip_range_take {α : Type} (n : Nat) (xs : List α) : (List.range n).zip (xs.take n) = (List.range n).zip xs := by
  have all : (List.range n).take n = List.range n := List.take_of_length_le List.length_range.le
  calc (List.range n).zip (xs.take n) = ((List.range n).take n).zip (xs.take n) := by rw [all]
    _ = ((List.range n).zip xs).take n := List.take_zipWith.symm
    _ = (List.range n).zip xs := List.take_of_length_le (by simp)

/-! ## The end of a binding (R91) -/

/-- A context whose sixteen cycles are over. -/
def initialised (now : Nat) (k : Ctx) : Ctx := if k.readyAt ≤ now then { k with readyAt := 0 } else k

theorem modCtx_now (s : Chip) (d c x : Nat) (f : Ctx → Ctx) : (s.modCtx d c x f).now = s.now := by
  unfold Chip.modCtx; split <;> rfl

theorem ctx_modCtx_other {s : Chip} {d c x y : Nat} (f : Ctx → Ctx) (h : y ≠ x) : (s.modCtx d c x f).ctx? d c y = s.ctx? d c y := by
  unfold Chip.modCtx
  split
  · exact ctx_setCtx_other _ _ h
  · rfl

theorem ctx_initialised {d c : Nat} (ps : List (Nat × Nat)) : ∀ {s : Chip} {y : Nat} {x : Ctx}, s.ctx? d c y = some x → x.readyAt ≤ s.now →
    (y ∈ ps.map (·.2) ∨ x.readyAt = 0) →
    ∃ k, (ps.foldl (fun s p => s.modCtx d c p.2 (initialised s.now)) s).ctx? d c y = some k ∧ k.readyAt = 0 := by
  induction ps with
  | nil => intro s y x hx _ done; exact ⟨x, hx, done.resolve_left (by simp)⟩
  | cons p ps ih =>
    intro s y x hx due done
    rw [List.foldl_cons]
    by_cases e : y = p.2
    · subst e
      refine ih (x := { x with readyAt := 0 }) ?_ (Nat.zero_le _) (.inr rfl)
      rw [modCtx_some _ hx, ctx_setCtx_same, initialised, if_pos due]
    · refine ih ((ctx_modCtx_other _ e).trans hx) (by rw [modCtx_now]; exact due) (done.imp_left fun h => ?_)
      exact (List.mem_cons.1 h).resolve_left e

theorem bindingComplete_readies {s : Chip} {d c task : Nat} {cr : Crew} (crew : (s.core d c).crews.find? task = some cr)
    {p : Nat × Nat} (hp : p ∈ cr.ctxs) {x : Ctx} (hx : s.ctx? d c p.2 = some x) (due : x.readyAt ≤ s.now) :
    ∃ k, (bindingComplete s d c task).ctx? d c p.2 = some k ∧ k.readyAt = 0 := by
  unfold bindingComplete
  rw [crew]
  dsimp only
  rw [(kp_idle ..).ctx]
  exact ctx_initialised cr.ctxs hx due (.inl (List.mem_map_of_mem hp))

/-- Settles O40: the ask binds on a chip that differs from the one before in records and queues only (records_readyToBind). -/
theorem coreAsksAndBinds : Obligations.CoreAsksAndBinds := by
  refine ⟨?_, fun s d c taken => congrArg Host.Outcome.next (onChip_same (coreWorkAsk_taken (slotTaken_iff.2 taken) c)), ?_⟩
  · intro s d c k l hp unused alone take ctxs first task hl unheld ready fresh
    have free : slotTaken s.chip d = false := by simp [slotTaken, unused, alone]
    obtain ⟨htask, hctxs, -⟩ := pickRes_spec (takeFor_res take hl fresh)
    have records := records_readyToBind s.chip d c k
    have cores (a b : Nat) : (readyToBind s.chip d c k).core a b = s.chip.core a b := core_of_cores records.cores a b
    have asks := coreWorkAsk_binds free ctxs first take hl unheld ready
    rw [fresh, bindCrew_fresh] at asks
    obtain ⟨cr, crew, hnt, hcs, -, -, bound, stand⟩ := bindFresh_crew
      ((readyToBind s.chip d c k).modDie d fun y => { y with slotUsed := true }) d c l 0 false k.res
      (hctxs ▸ (freeCtxs_nodup _).sublist (List.take_sublist _ _))
      (fun y hy => (congrArg (fun co : Core => co.ctxs.find? y) (cores d c)).trans
        (free_none (List.mem_of_mem_take (hctxs ▸ hy))))
    rw [htask] at crew bound
    refine ⟨_, cr, exec_coreWorkAsk hp d c, ?_⟩
    rw [modChip_chip, asks]
    refine ⟨?_, ?_, crew, hnt, ?_, fun p hq => ?_, fun y x hx => stand y x ?_⟩
    · rw [bindFresh_die, modDie_same]; exact lastAsk_readyToBind ..
    · rw [bindFresh_die, modDie_same]
    · rw [hcs, hctxs, ← hnt, zip_range_take]
    · obtain ⟨x, hx, t, m, r⟩ := bound p hq
      exact ⟨x, hx, t, m, r.trans (congrArg (· + 16) records.now)⟩
    · exact (ctx_of_cores records.cores ..).trans hx
  · intro s d c task cr hp crew due
    refine ⟨_, exec_crewBindingComplete hp d c task, fun p hq => ?_⟩
    obtain ⟨x, hx, past⟩ := due p hq
    exact bindingComplete_readies crew hq hx past

/-! ## Ageing (R95, R96) -/

/-- What ageing leaves of a level: below 6 the entries that have not waited their time, then those that rise from the level below. -/
theorem ageDie_level (s : Chip) (d : Nat) {lv : Nat} (h : lv < 8) :
    qOf (ageDie s d) d lv = joined s.now ((qOf s d lv).filter fun e => !(decide (lv < 6) && aged s e))
      (if 1 ≤ lv ∧ lv ≤ 6 then ((qOf s d (lv - 1)).filter (aged s)).map (risen s.now) else []) := by
  obtain ⟨kept, stay⟩ := ageing_fold1 s d (List.range 6) s List.nodup_range .rfl fun _ _ => rfl
  refine (ageing_fold2 s d (List.range 6) _ List.nodup_range kept.now lv).trans ?_
  have left : ∀ q, q = (if lv ∈ List.range 6 then (qOf s d lv).filter (fun e => !aged s e) else qOf s d lv) →
      q = (qOf s d lv).filter fun e => !(decide (lv < 6) && aged s e) := by
    rintro q rfl
    by_cases low : lv < 6 <;> simp [low]
  rw [left _ (stay lv)]
  by_cases up : 1 ≤ lv ∧ lv ≤ 6
  · rw [if_pos up, if_pos ⟨up.1, List.mem_range.2 (by omega)⟩]
  · rw [if_neg up, if_neg (by rw [List.mem_range]; omega)]
    rfl

/-- Settles O41, from the two passes of ageing: what leaves each level (ageing_fold1), what joins it (ageing_fold2). -/
theorem ageingRaisesLevels : Obligations.AgeingRaisesLevels := by
  intro s d hp
  refine ⟨_, exec_ageingRise hp d, rfl, rfl, fun lv h => ?_⟩
  intro stay up
  have level := ageDie_level s.chip d h
  unfold joined at level
  simp only [List.isEmpty_iff] at level
  exact level

/-! ## Saves (R101, 11 R292) -/

theorem crewSave_saves {s : Chip} {d c task : Nat} {l : Launch} {cr : Crew} {held : Bool} (hl : s.launchOf task = some l)
    (crew : s.findCrew task = some (d, c, cr)) (pre : l.preempting = some held) (stays : cr.moveTo = none) (saving : cr.saving = true)
    (quiet : crewQuiet s d c cr (fun t => taskSlot t == taskSlot task) = true) :
    crewSave s task = idleChoice (saveCrew (crewBoundary s d c cr) d c task held true) d c := by
  unfold crewSave
  rw [hl, crew]
  dsimp only
  rw [pre]
  dsimp only
  rw [stays, saving, quiet]
  rfl

theorem clearWaitLink_cores (s : Chip) (task : Nat) : (clearWaitLink s task).cores = s.cores :=
  ((wrote_recWr ..).trans (wrote_recWr ..)).cores

/-- A chip whose memory holds a crew's image, with what the save keeps of its contexts, which were those of the core co. -/
def imaged (t : Chip) (co : Core) (d c : Nat) (cr : Crew) : Chip :=
  { t.modCore d c fun co => endFences co cr with kept := keepCtxs co cr t.kept }

/-- A save whose image has been written leaves the cores as the freeing of the crew does: what follows are records and counts. -/
theorem saveCrew_cores {s t : Chip} {d c task : Nat} {l : Launch} {cr : Crew} (held again : Bool) (hl : s.launchOf task = some l)
    (crew : (s.core d c).crews.find? task = some cr)
    (stored : let x := cr.ctxs.foldl (fun s p => cancelDeferrals s d c p.2) s
      storeSegs x d l.asid task (l.saveVa task) (crewSegs x.now (x.core d c) l cr) = .ok t) :
    ∃ v, (saveCrew s d c task held again).cores = (freeCrew v d c cr false).cores := by
  refine ⟨imaged t ((cr.ctxs.foldl (fun s p => cancelDeferrals s d c p.2) s).core d c) d c cr, ?_⟩
  unfold saveCrew
  rw [hl, crew]
  dsimp only at stored ⊢
  rw [stored]
  cases again with
  | true => exact (enqueueTask_cores ..).trans ((modLaunch_cores ..).trans ((recMod0_cores ..).trans (clearWaitLink_cores ..)))
  | false => exact (modLaunch_cores ..).trans ((recMod0_cores ..).trans (clearWaitLink_cores ..))

/-- Settles O42: what a save does to the cores is to free the crew (saveCrew_cores). -/
theorem crewSaveFreesTheCrew : Obligations.CrewSaveFreesTheCrew := by
  refine ⟨fun s d c task l cr held hp hl crew pre stays saving quiet => ?_, fun s t d c task l cr held again hl crew own => ?_⟩
  · rw [exec_crewSave hp]
    exact congrArg (fun x => Host.Outcome.next { s with chip := x }) (crewSave_saves hl crew pre stays saving quiet)
  · intro x stored u
    obtain ⟨v, cores⟩ := saveCrew_cores held again hl crew stored
    obtain ⟨gone, free⟩ := freeCrew_gone v d c cr false
    exact ⟨by rw [core_of_cores cores, ← own]; exact gone, fun p hq => (ctx_of_cores cores ..).trans (free p hq)⟩

/-! ## Adoptions bound and moved (R98, 05 R125, R130) -/

theorem slotAdoption_used {s : Chip} {d : Nat} (h : (s.die d).slotUsed = true) : slotAdoption s d = none := if_pos h

/-- The adoption that the slot goes to is one of an UNSTARTED task, or its crew has come to rest. -/
theorem slotAdoption_bindable {s : Chip} {d : Nat} {p : PendAdopt} (h : slotAdoption s d = some p) :
    p.moveFrom.isNone = true ∨ moveReady s p = true := by
  unfold slotAdoption at h
  split at h
  · cases h
  · simpa using List.find?_some h

theorem moveReady_crew {s : Chip} {p : PendAdopt} {d c : Nat} {l : Launch} {cr : Crew} (ready : moveReady s p = true)
    (moved : p.moveFrom = some (d, c)) (hl : s.launchOf p.task = some l) (crew : (s.core d c).crews.find? p.task = some cr) :
    crewQuiet s d c cr (· == p.task) = true ∧ l.killed = false := by
  simpa [moveReady, moved, hl, crew] using ready

theorem adoptedCrewBind_binds {s : Chip} {d : Nat} {p : PendAdopt} {l : Launch} {r : Reserved} (slot : slotAdoption s d = some p)
    (unstarted : p.moveFrom = none) (hl : s.launchOf p.task = some l) (live : s.taskEnded p.task = false)
    (res : (s.core d p.core).reserved.find? (fun (r : Reserved) => r.task == p.task) = some r) :
    adoptedCrewBind s d = adoptArrived (bindCrew (dropPend s d p) d p.core l (w64Get (s.recRd p.task 8) 0 32) p.saving
      ((s.recRd p.task 0).getLsbD 57) r) d p := by
  have hres : p.res s d = r := by unfold PendAdopt.res; rw [res]; rfl
  unfold adoptedCrewBind
  rw [slot]
  dsimp only
  rw [unstarted, Option.isNone_none, if_pos rfl]
  unfold bindAdopted
  rw [hl]
  dsimp only
  rw [live, hres, if_neg (by decide)]

theorem crewMigration_moves {s : Chip} {d d0 c0 : Nat} {p : PendAdopt} {l : Launch} {cr : Crew} (slot : slotAdoption s d = some p)
    (moved : p.moveFrom = some (d0, c0)) (hl : s.launchOf p.task = some l) (crew : (s.core d0 c0).crews.find? p.task = some cr) :
    crewMigration s d = moveCrew s d d0 c0 p l cr := by
  unfold crewMigration
  rw [slot]
  dsimp only
  rw [moved, Option.isSome_some, if_pos rfl]
  unfold moveAdopted
  rw [moved, hl]
  dsimp only
  rw [crew]

/-- An arrival is noted on the adoption stack alone. -/
theorem adoptArrived_core (s : Chip) (d : Nat) (p : PendAdopt) : (adoptArrived s d p).core d p.core =
    { s.core d p.core with adopt := (s.core d p.core).adopt.map fun (e : AdoptEntry) =>
        if e.task = p.task then { e with pending := false } else e } := modCore_same ..
theorem adoptArrived_ctx (s : Chip) (d : Nat) (p : PendAdopt) (x : Nat) :
    (adoptArrived s d p).ctx? d p.core x = s.ctx? d p.core x := by
  unfold Chip.ctx?; rw [adoptArrived_core]
theorem adoptArrived_die (s : Chip) (d : Nat) (p : PendAdopt) (e : Nat) : (adoptArrived s d p).die e = s.die e := rfl

theorem dropPend_die (s : Chip) (d : Nat) (p : PendAdopt) :
    (dropPend s d p).die d = { s.die d with adopting := (s.die d).adopting.erase p } :=
  modDie_same s d fun y => { y with adopting := y.adopting.erase p }

/-- Settles O43: the slot's adoption says why it can be bound; the binding is bindFresh, the move is moveCrew. -/
theorem adoptedCrewsBind : Obligations.AdoptedCrewsBind := by
  refine ⟨fun s d p l r hp slot unstarted hl live res fresh => ?_, fun s d d0 c0 p l cr hp slot moved hl crew => ?_, fun s d used => ?_⟩
  · have htask : r.task = p.task := by simpa using List.find?_some res
    have binds := adoptedCrewBind_binds slot unstarted hl live res
    rw [fresh, bindCrew_fresh] at binds
    obtain ⟨cr, crew, hnt, hcs, bound⟩ := bindFresh_bound ((dropPend s.chip d p).modDie d fun y => { y with slotUsed := true }) d p.core l
      (w64Get (s.chip.recRd p.task 8) 0 32) p.saving r
    rw [htask] at crew bound
    refine ⟨_, cr, exec_adoptedCrewBind hp d, ?_⟩
    rw [modChip_chip, binds]
    refine ⟨?_, ?_, ?_, hnt, hcs, fun q hq => ?_⟩
    · rw [adoptArrived_die, bindFresh_die, modDie_same, dropPend_die]
    · rw [adoptArrived_die, bindFresh_die, modDie_same]
    · rw [adoptArrived_core]; exact crew
    · rw [adoptArrived_ctx]; exact bound q hq
  · have rest := (slotAdoption_bindable slot).resolve_left (by simp [moved])
    obtain ⟨quiet, alive⟩ := moveReady_crew rest moved hl crew
    refine ⟨quiet, alive, ?_⟩
    rw [exec_crewMigration hp]
    exact congrArg (fun x => Host.Outcome.next { s with chip := x }) (crewMigration_moves slot moved hl crew)
  · have shut := slotAdoption_used used
    exact ⟨congrArg Host.Outcome.next (onChip_same (by unfold adoptedCrewBind; rw [shut])),
      congrArg Host.Outcome.next (onChip_same (by unfold crewMigration; rw [shut]))⟩

/-! ## The watchdog (R106, R107, 11 R280, R296) -/

theorem exec_watchdogFire_early {s : State} {d c : Nat}
    (h : (s.chip.core d c).wdLimit = 0 ∨ (s.chip.core d c).wdCount < (s.chip.core d c).wdLimit) :
    exec (.watchdogFire d c) s = .next s := congrArg Host.Outcome.next (onChip_same (if_pos h))

theorem exec_watchdogFire_due {s : State} {d c : Nat} (hp : s.io.phase = .running) (on : (s.chip.core d c).wdLimit ≠ 0)
    (due : (s.chip.core d c).wdLimit ≤ (s.chip.core d c).wdCount) :
    exec (.watchdogFire d c) s = .next (s.modChip fun x => fireWatchdog x d c) := by
  refine congrArg Host.Outcome.next ((onChip_running hp _).trans ?_)
  exact congrArg (fun x => ({ s with chip := x } : State)) (if_neg (by omega))

/-- The core's watchdog count and one of its contexts. -/
structure At (s : Chip) (d c x n : Nat) (k : Ctx) : Prop where
  count : (s.core d c).wdCount = n
  ctx : s.ctx? d c x = some k

theorem At.of_cores {s t : Chip} {d c x n : Nat} {k : Ctx} (h : At s d c x n k) (e : t.cores = s.cores) : At t d c x n k :=
  ⟨by rw [core_of_cores e]; exact h.count, (ctx_of_cores e ..).trans h.ctx⟩
theorem At.set {s : Chip} {d c x n : Nat} {k : Ctx} (h : At s d c x n k) (k' : Ctx) : At (s.setCtx d c x k') d c x n k' :=
  ⟨(setCtx_wd ..).trans h.count, ctx_setCtx_same ..⟩
theorem At.kept {s t : Chip} {d c x n : Nat} {k : Ctx} (h : At s d c x n k) (e : Kp s t) : At t d c x n k :=
  ⟨(e.h d c).2.trans h.count, (e.ctx d c x).trans h.ctx⟩
theorem At.main {s : Chip} {d c x n : Nat} {k : Ctx} (h : At s d c x n k) (f : Half → Half) :
    At (s.modHalf ⟨d, c, x, false⟩ f) d c x n { k with main := f k.main } := by
  rw [modHalf_some (w := ⟨d, c, x, false⟩) f h.ctx]
  exact h.set _

theorem At.frozen {s : Chip} {d c x n : Nat} {k : Ctx} (h : At s d c x n k) (m : Nat) :
    At (addFrozen s d c x m) d c x n { k with frozencc := k.frozencc + BitVec.ofNat 64 m } := by
  unfold addFrozen
  rw [h.ctx]
  exact (h.set _).of_cores (modLaunch_cores ..)

theorem At.unwaited {s : Chip} {d c x n : Nat} {k k0 : Ctx} (h : At s d c x n k) (whole : k0.spare = none) :
    At (unwait s ⟨d, c, x, false⟩ k0) d c x n { k with main := { k.main with block := none, retryAt := none } } := by
  obtain ⟨z, hz, hu⟩ := unwait_cores h.ctx whole
  exact ((h.of_cores hz).set _).of_cores hu

/-- A context released from its freeze when active cycles have passed, the landings that it froze for abandoned, and from its retry
timer; its main half then waits for b. -/
def released (k : Ctx) (active : Nat) (b : Option Block) : Ctx :=
  { k.dropLate.thawed with
    frozencc := k.frozencc + BitVec.ofNat 64 (k.frozenFor active)
    main := { k.dropLate.thawed.main with block := b, retryAt := none } }

theorem released_whole {k : Ctx} (whole : k.spare = none) (active : Nat) (b : Option Block) : (released k active b).spare = none := by
  show k.spare.map (fun (h : Half) => { h with frozenAt := none }) = none
  rw [whole, Option.map_none]

/-- The chip on which WATCHDOG is taken in a half: the freeze has ended and been counted, and so has the wait. -/
def watchdogReady (s : Chip) (w : HalfId) (k : Ctx) : Chip :=
  let s := addFrozen (s.setCtx w.die w.core w.ctx k.dropLate.thawed) w.die w.core w.ctx (k.frozenFor s.active)
  if (k.half w.spare).block.isSome then unwait s w k else s.modHalf w fun h => { h with retryAt := none }

theorem watchdogTrap_eq (s : Chip) (w : HalfId) (k : Ctx) : watchdogTrap s w k = idleChoice (takeTrap (watchdogReady s w k) w
    ⟨0x0D, 0, 0, 0, 0⟩ false (boundarySite (watchdogReady s w k) w (k.half w.spare))) w.die w.core := rfl

theorem At.release {s : Chip} {d c x n : Nat} {k : Ctx} (h : At s d c x n k) (whole : k.spare = none) :
    At (watchdogReady s ⟨d, c, x, false⟩ k) d c x n (released k s.active none) := by
  have thawed := (h.set k.dropLate.thawed).frozen (k.frozenFor s.active)
  unfold watchdogReady
  dsimp only
  split
  · exact thawed.unwaited whole
  · rename_i blocked
    have free : k.main.block = none := Option.not_isSome_iff_eq_none.1 blocked
    have out : At _ d c x n (released k s.active k.main.block) := thawed.main fun h => { h with retryAt := none }
    rw [free] at out
    exact out

/-- In a half that no handler has taken over, WATCHDOG goes to the supervisor handler whatever TDELEG and TVEC say. -/
theorem handlerOf_watchdog {h : Half} (normal : h.hm = 0) (en : vecEn h.stvec = true) : handlerOf h 0x0D = some (2, vecAddr h.stvec) := by
  simp [handlerOf, normal, en]

/-- A context that has entered the supervisor handler by a trap of its main half. -/
def trapped (k : Ctx) (cause : Cause) (nores : Bool) (site : TrapSite) : Ctx :=
  enterHandler { k with main := { k.main.writeTrap false false cause nores site with hold := none } } false 2 (vecAddr k.main.stvec)

theorem At.trap {s : Chip} {d c x n : Nat} {k : Ctx} (h : At s d c x n k) (whole : k.spare = none) (normal : k.main.hm = 0)
    (en : vecEn k.main.stvec = true) {cause : Cause} (code : cause.code = 0x0D) (nores : Bool) (site : TrapSite) :
    At (takeTrap s ⟨d, c, x, false⟩ cause nores site) d c x n (trapped k cause nores site) := by
  have goes : takeTrap s ⟨d, c, x, false⟩ cause nores site = s.setCtx d c x (trapped k cause nores site) := by
    unfold takeTrap
    rw [show s.ctxOf? ⟨d, c, x, false⟩ = some k from h.ctx]
    dsimp only
    rw [show k.half false = k.main from rfl, code, handlerOf_watchdog normal en, whole]
    rfl
  rw [goes]
  exact h.set _

theorem trapped_hm (k : Ctx) (cause : Cause) (nores : Bool) (site : TrapSite) : (trapped k cause nores site).main.hm = 2 :=
  setHm_hm _ 2 (by decide)

theorem causeWord_code (h : Half) (split spare : Bool) (code detail : Nat) (nores : Bool) :
    w64Get (causeWord h split spare code detail nores) 0 8 = code % 256 := by
  unfold causeWord w64Get
  rw [BitVec.toNat_ofNat]
  split_ifs <;> omega

theorem trapped_code (k : Ctx) (cause : Cause) (nores : Bool) (site : TrapSite) :
    w64Get (trapped k cause nores site).main.cause 0 8 = cause.code % 256 :=
  (getPut_apart _ 10 2 2 0 8 (.inl (by decide)) (by decide)).trans (causeWord_code ..)

theorem fireWatchdog_traps {s : Chip} {d c x : Nat} {k : Ctx} (named : watchdogCtx (s.core d c) = some x) (hk : s.ctx? d c x = some k)
    (whole : k.spare = none) (free : k.main.hold = none) :
    fireWatchdog s d c = watchdogTrap (s.modCore d c fun co => { co with wdCount := 0 }) ⟨d, c, x, false⟩ k := by
  have hk' : (s.modCore d c fun co => { co with wdCount := 0 }).ctx? d c x = some k := by
    unfold Chip.ctx?; rw [modCore_same]; exact hk
  have main : boundaryHalf k = false := by unfold boundaryHalf; rw [whole]
  unfold fireWatchdog
  rw [named]
  dsimp only
  unfold fireAt
  rw [hk']
  dsimp only
  rw [main, if_neg (by rw [show k.half false = k.main from rfl, free]; decide)]

/-- Settles O44: the fire sets the count to 0 and the context is first released, then trapped; the choice of a context keeps both (Kp). -/
theorem watchdogFires : Obligations.WatchdogFires := by
  refine ⟨fun s d c x k hp on due named hk whole free normal en => ?_, fun s d c early => exec_watchdogFire_early early⟩
  have start : At (s.chip.modCore d c fun co => { co with wdCount := 0 }) d c x 0 k :=
    ⟨by rw [modCore_same], by unfold Chip.ctx?; rw [modCore_same]; exact hk⟩
  have ready := start.release whole
  have fires := fireWatchdog_traps named hk whole free
  rw [watchdogTrap_eq] at fires
  obtain ⟨count, ctx⟩ := ((ready.trap (cause := ⟨0x0D, 0, 0, 0, 0⟩) (released_whole whole ..) normal en rfl false _).kept (kp_idle ..)).of_cores
    (congrArg Chip.cores fires)
  refine ⟨_, _, exec_watchdogFire_due hp on due, count, ctx, ?_⟩
  obtain ⟨hs, hc, hq, ht, hv, hk, hh, hf, hpc, -, -, ha⟩ := enter_regs _ (released k s.chip.active none).main ⟨0x0D, 0, 0, 0, 0⟩ false _ 2
    (vecAddr k.main.stvec)
  exact ⟨hpc, trapped_hm .., trapped_code .., ha, rfl, rfl, hs, hc, hq, ht, hv, hk, hh, hf⟩

/-- WDOG as written, in the words of R106. -/
theorem wdogWritten_low (v : W64) : wdogWritten (w64Get v 0 32) =
    if 1 ≤ v.toNat % 2 ^ 32 ∧ v.toNat % 2 ^ 32 ≤ 65535 then 65536 else v.toNat % 2 ^ 32 := by
  unfold wdogWritten w64Get
  rw [pow_zero, Nat.div_one]

theorem wdogWritten_lt {x : Nat} (h : x < 2 ^ 32) : wdogWritten x < 2 ^ 32 := by
  unfold wdogWritten; split <;> omega

theorem sysRead_wdog (s : Chip) (w : HalfId) (k : Ctx) : sysRead s w k 0x106 = BitVec.ofNat 64 (s.coreOf w).wdLimit := rfl

theorem sysRead_written_wdog {s : Chip} {w : HalfId} {k : Ctx} (h : s.ctxOf? w = some k) (v : W64) :
    sysRead (sysWrite s w 0x106 v) w k 0x106 = BitVec.ofNat 64 (wdogWritten (w64Get v 0 32)) := by
  rw [sysRead_wdog, sw106 v h, Chip.coreOf, modCore_same]

/-- Settles O59: WDOG reads LIMIT as it was written (wdogWritten), and the row compares the count with it. -/
theorem watchdogLimit : Obligations.WatchdogLimit := by
  refine ⟨fun d c => rfl, rfl, rfl, fun s w k _ => sysRead_wdog s w k, fun s w k v h => ?_, fun s d c early => exec_watchdogFire_early early,
    fun s d c hp on due => exec_watchdogFire_due hp on due⟩
  intro low
  rw [sysRead_written_wdog h]
  refine ⟨congrArg _ (wdogWritten_low v), Nat.div_eq_of_lt ?_⟩
  have small : wdogWritten (w64Get v 0 32) < 2 ^ 32 := wdogWritten_lt (Nat.mod_lt _ (by decide))
  rw [BitVec.toNat_ofNat]
  exact (Nat.mod_le _ _).trans_lt small

end Sys2Proof.Proofs.Scheduler
end

section
/-! PROOFS. Helping (spec/05_helping.md): end notices, flush timers, and the answers that reach bundles held for them. -/

namespace Sys2Proof.Proofs.Helping
open Sys2Proof.Machine Sys2Proof.Laws Sys2Proof.Proofs.Scheduler

/-! ## The rows -/

theorem exec_endNotice {s : State} (h : s.io.phase = .running) (d slice task : Nat) :
    exec (.endNotice d slice task) s = .next (s.modChip fun x => endNotice x d slice task) :=
  congrArg Host.Outcome.next (onChip_running h _)
theorem exec_nodeFlushTimer {s : State} (h : s.io.phase = .running) (d slice p : Nat) :
    exec (.nodeFlushTimer d slice p) s = .next (s.modChip fun x => nodeFlush x d slice p) :=
  congrArg Host.Outcome.next (onChip_running h _)
theorem exec_heldAnswerArrival {s : State} (h : s.io.phase = .running) (d c n : Nat) :
    exec (.heldAnswerArrival d c n) s = .next (s.modChip fun x => heldAnswer x (runningHalf x d c n)) :=
  congrArg Host.Outcome.next (onChip_running h _)
theorem exec_waitingAnswerArrival {s : State} (h : s.io.phase = .running) (d c n : Nat) :
    exec (.waitingAnswerArrival d c n) s = .next (s.modChip fun x => waitingAnswer x (runningHalf x d c n)) :=
  congrArg Host.Outcome.next (onChip_running h _)

/-! ## End notices (R132, R133) -/

/-- An ended task whose effects have not all performed keeps its notices. -/
theorem endNotice_unquiet {s : Chip} {task : Nat} (loud : taskQuiet s task = false) (d slice : Nat) : endNotice s d slice task = s := by
  unfold endNotice
  split
  · rfl
  · exact if_pos (by rw [loud]; simp)

/-- The operations deferred at a slice (R118). -/
def deferralsAt (s : Chip) (d slice : Nat) : List Deferral := (s.die d).deferrals.filter fun f => f.slice == slice

theorem endNotice_resolves {s : Chip} {d slice task : Nat} {l : Launch} (hl : s.launches.find? (taskSlot task) = some l)
    (notice : (32 * d + slice, task) ∈ l.notices) (quiet : taskQuiet s task = true)
    (free : ∀ f ∈ deferralsAt s d slice, s.storeHeld (lineOf f.p) = false) :
    endNotice s d slice task =
      ((deferralsAt s d slice).foldl (fun s f => resolveEnded s f.kind f.p f.va f.asid task) s).modLaunch (taskSlot task) fun l =>
        { l with notices := l.notices.erase (32 * d + slice, task) } := by
  have unheld : ((deferralsAt s d slice).any fun f => s.storeHeld (lineOf f.p)) = false :=
    List.any_eq_false.2 fun f hf => by simp [free f hf]
  unfold endNotice
  rw [hl]
  dsimp only
  rw [← deferralsAt, List.contains_iff_mem.2 notice, quiet, unheld]
  exact if_neg (by decide)

/-! ## Flush timers (R115, R116) -/

theorem nodeFlush_early {s : Chip} {d slice p : Nat} {t : FlushTimer} (timer : timerOf (s.die d) slice p = some t)
    (early : s.now < t.fireAt) : nodeFlush s d slice p = s := by
  unfold nodeFlush
  rw [timer]
  exact if_pos (.inr (.inl early))

theorem nodeFlush_due {s : Chip} {d slice p : Nat} {t : FlushTimer} (timer : timerOf (s.die d) slice p = some t)
    (runs : t.waiting = false) (due : t.fireAt ≤ s.now) (free : s.storeHeld (lineOf p) = false) :
    nodeFlush s d slice p = nodeCheck (disarm s p) p t.va t.asid (nodeCount s p t.asid) true := by
  unfold nodeFlush
  rw [timer]
  exact if_neg (by simp [runs, free, due])

/-- Settles O46: the notice's deferrals are resolved when nothing holds it (endNotice_resolves), the timer fires when it is due
(nodeFlush_due), and each stands otherwise. -/
theorem endNoticesAndNodeTimers : Obligations.EndNoticesAndNodeTimers := by
  refine ⟨fun s d slice task l hp hl notice quiet => ?_, fun s d slice task loud => ?_, fun s d slice p t hp timer => ⟨?_, ?_⟩⟩
  · intro ds free r
    rw [exec_endNotice hp]
    exact congrArg (fun x => Host.Outcome.next { s with chip := x }) (endNotice_resolves hl notice quiet free)
  · exact congrArg Host.Outcome.next (onChip_same (endNotice_unquiet loud d slice))
  · intro runs due free
    rw [exec_nodeFlushTimer hp]
    exact congrArg (fun x => Host.Outcome.next { s with chip := x }) (nodeFlush_due timer runs due free)
  · exact fun early => congrArg Host.Outcome.next (onChip_same (nodeFlush_early timer early))

/-! ## Bundles held for an answer -/

/-- The half w of the context k is held for the request q, whose answer has not come. -/
structure HeldFor (s : Chip) (w : HalfId) (k : Ctx) (q : Req) (b : Bundle) : Prop where
  ctx : s.ctxOf? w = some k
  hold : (k.half w.spare).hold = some ⟨q, none, b⟩

/-- A row of the issuing context's main half names it. -/
theorem runningHalf_main {s : Chip} {d c x : Nat} (turn : (s.core d c).running = some x) : runningHalf s d c 0 = ⟨d, c, x, false⟩ := by
  unfold runningHalf; rw [turn]; rfl

/-! ## Sync-object operations that wait (R119) -/

section
variable {s : Chip} {w : HalfId} {k : Ctx} {o : SyncKind} {p : Nat} {va v : W64} {rrpv : Option Nat} {b : Bundle}

theorem waitingAnswer_answered (held : HeldFor s w k (.sync o p va v rrpv) b) (waits : (Req.sync o p va v rrpv).waits = true)
    (free : opFree s w (launchAsid s k.task 0) (.sync o p va v rrpv) = true) {a : Answer} {y : Chip}
    (done : syncAt (s.l2Access p rrpv) o p va v ⟨w, k.task, launchAsid s k.task 0⟩ = (.answer a, y)) :
    waitingAnswer s w = setAnswer y w a := by
  unfold waitingAnswer
  rw [held.ctx]
  dsimp only
  rw [held.hold]
  dsimp only
  rw [waits, free, if_neg (by decide), done]

/-- A half that blocks writes its task's record (R121), so a claim on that record's line holds the answer; a half of a split gang
writes none (06 R167). -/
theorem waitingAnswer_blocks (held : HeldFor s w k (.sync o p va v rrpv) b) (waits : (Req.sync o p va v rrpv).waits = true)
    (free : opFree s w (launchAsid s k.task 0) (.sync o p va v rrpv) = true) {owner : Nat} {y z : Chip} {df : Bool}
    (wait : syncAt (s.l2Access p rrpv) o p va v ⟨w, k.task, launchAsid s k.task 0⟩ = (.wait owner, y))
    (record : k.spare = none → y.recHeld k.task = false)
    (defer : deferAt y o p va ⟨w, k.task, launchAsid s k.task 0⟩ = (df, z)) :
    waitingAnswer s w = blockedDog (blockHalf z w (waitBlock (k.half w.spare) o va p owner df b)) w := by
  have unheld : ¬ (k.spare.isNone = true ∧ y.recHeld k.task = true) := fun ⟨whole, h⟩ => by
    rw [record (Option.isNone_iff_eq_none.1 whole)] at h; cases h
  unfold waitingAnswer
  rw [held.ctx]
  dsimp only
  rw [held.hold]
  dsimp only
  rw [waits, free, if_neg (by decide), wait]
  dsimp only
  rw [if_neg unheld, defer]

end

/-! ## Requests that do not wait (16 R413, 17 R416, R431 to R433) -/

theorem heldAnswer_performs {s : Chip} {w : HalfId} {k : Ctx} {q : Req} {b : Bundle} (held : HeldFor s w k q b)
    (prompt : q.waits = false) : heldAnswer s w = performHeld s w k q := by
  unfold heldAnswer
  rw [held.ctx]
  dsimp only
  rw [held.hold]
  dsimp only
  rw [prompt, if_neg (by decide)]

theorem performHeld_atomic {s y : Chip} {w : HalfId} {op : Irnov.AtOp} {width : Nat} {lanes : List AtLane}
    {vals : List (Nat × Nat)} {f : Flags} (free : ∀ l ∈ lanes, rangeFree s w (l.p, width) = true)
    (done : atomicMem s op width false lanes = (vals, f, y)) (k : Ctx) :
    performHeld s w k (.atomic op width lanes) =
      setAnswer (dropL1 y w (lanes.map fun l => lineOf l.p)) w { Answer.ok 0 with lanes := vals, flags := f } := by
  have clear : (lanes.any fun l => !rangeFree s w (l.p, width)) = false := List.any_eq_false.2 fun l hl => by simp [free l hl]
  unfold performHeld
  dsimp only
  rw [clear, if_neg (by decide), done]

/-- A held bundle of the issuing context whose request performs takes the machine to where the performing takes the chip. -/
theorem exec_heldAnswerArrival_performs {s : State} {d c x : Nat} {k : Ctx} {q : Req} {b : Bundle} {t : Chip}
    (hp : s.io.phase = .running) (turn : (s.chip.core d c).running = some x) (held : HeldFor s.chip ⟨d, c, x, false⟩ k q b)
    (prompt : q.waits = false) (performs : performHeld s.chip ⟨d, c, x, false⟩ k q = t) :
    exec (.heldAnswerArrival d c 0) s = .next { s with chip := t } := by
  rw [exec_heldAnswerArrival hp, State.modChip, runningHalf_main turn, heldAnswer_performs held prompt, performs]

/-- Settles O52, request by request: a wait is answered or blocks (waitingAnswer_answered, waitingAnswer_blocks); HARVEST, ADPIN,
ADUNPIN and atomics perform (exec_heldAnswerArrival_performs). -/
theorem answersReachBundles : Obligations.AnswersReachBundles := by
  refine ⟨fun s d c x p k o va v b rrpv hp turn hk hold => ?waiting, fun s d c x k q b hp turn hk hold => ?prompt⟩
  case waiting =>
    intro w r waits free
    have held : HeldFor s.chip w k (.sync o p va v rrpv) b := ⟨hk, hold⟩
    rw [exec_waitingAnswerArrival hp, State.modChip, runningHalf_main turn]
    refine ⟨fun a y done => ?_, fun owner y df z wait record defer => ?_⟩
    · rw [waitingAnswer_answered held waits free done]
    · rw [waitingAnswer_blocks held waits free wait record defer]; rfl
  case prompt =>
    intro w asid
    have held : HeldFor s.chip w k q b := ⟨hk, hold⟩
    have performs {t : Chip} (prompt : q.waits = false) := exec_heldAnswerArrival_performs (t := t) hp turn held prompt
    refine ⟨?harvest, ?adpin, ?adunpin, ?late, ?atomic⟩
    case harvest => rintro rfl gathered; exact performs rfl (harvested s.chip w k gathered)
    case adpin => rintro key slot v t rfl inTurn pinned; exact performs rfl (adpinned s.chip w k key slot inTurn pinned)
    case adunpin => rintro tag v t rfl inTurn unpinned; exact performs rfl (adunpinned s.chip w k tag inTurn unpinned)
    case late =>
      intro adapter past
      have prompt : q.waits = false := by rcases adapter with ⟨_, _, rfl⟩ | ⟨_, rfl⟩ <;> rfl
      exact performs prompt (adapters_late s.chip w k q past adapter)
    case atomic => rintro op width lanes vals f y rfl free done; exact performs rfl (performHeld_atomic free done k)

end Sys2Proof.Proofs.Helping
end

section
/-! PROOFS. Gangs (spec/06_gang.md): bundles that compute or have a bad header, the data of loads, stores that perform. -/

namespace Sys2Proof.Proofs.Gang
open Sys2Proof.Machine Sys2Proof.Laws

/-! ## The rows -/

theorem whileRunning_running {s : State} (h : s.io.phase = .running) (f : State → State) : whileRunning s f = f s := if_pos h

theorem exec_loadDataArrival {s : State} (h : s.io.phase = .running) (d c x id : Nat) :
    exec (.loadDataArrival d c x id []) s = .next (s.modChip fun y => loadDataArrival y d c x id) :=
  congrArg Host.Outcome.next ((whileRunning_running h _).trans (by rw [ecc_none]))
theorem exec_storePerform {s : State} (h : s.io.phase = .running) (d c k : Nat) :
    exec (.storePerform d c k []) s = .next (s.modChip fun y => storePerform y d c k) :=
  congrArg Host.Outcome.next ((whileRunning_running h _).trans (by rw [ecc_none]))

/-! ## Bundles (R152, 12 R314) -/

/-- A reserved bit of the header is found before any syllable is decoded. -/
theorem issueFetched_badHeader {s : State} {d c x : Nat} {k : Ctx} {cr : Crew} {b : Bundle} {y : Chip}
    (attempt : Attempts s d c x k cr b y) (bad : b.badHeader = true) :
    issueFetched y ⟨d, c, x, false⟩ b =
      takeTrap (y.modCore d c fun co => co.used false) ⟨d, c, x, false⟩ ⟨2, 0, 0, 0, 0⟩ false ⟨0, 0, b.pres⟩ := by
  obtain ⟨ctx, crew⟩ := attempt.kept
  obtain ⟨-, -, -, -, resid⟩ := attempt.free
  have whole : b.effective (k.half false) = b.pres := by
    unfold Bundle.effective
    rw [show (k.half false).resid = none from resid]
    exact pres_and b
  unfold issueFetched
  rw [show y.ctxOf? ⟨d, c, x, false⟩ = some k from ctx, Option.getD_some,
    show (y.coreOf ⟨d, c, x, false⟩).crews.find? k.task = some cr from crew]
  dsimp only
  rw [if_pos bad, whole]
  rfl

/-- Settles O47: the attempt reaches the fetched bundle (issue_attempt), which retires (bundle_fetched) or traps by its header. -/
theorem computingBundlesRetire : Obligations.ComputingBundlesRetire := by
  refine ⟨fun s d c x n k cr b y i out issues decoded computes once untrapped => ?_, fun s d c x k cr b y attempt bad => ?_⟩
  · obtain ⟨ctx, crew⟩ := issues.kept
    obtain ⟨hold, -, -, -, resid⟩ := issues.free
    obtain ⟨first, last⟩ := issues.slot
    rw [issue_attempt issues.toAttempts, bundle_fetched ctx crew issues.whole issues.normal hold resid first last issues.header decoded
      computes once untrapped (.inr trivial)]
  · rw [issue_attempt attempt, issueFetched_badHeader attempt bad]

/-! ## A core's held stores as a load sees them (08 R207, R210) -/

theorem overlayPath_of_path {co co' : Core} (h : co'.path = co.path) (see : PathEntry → Bool) (p : Nat) (bs : List Byte) :
    overlayPath co' see p bs = overlayPath co see p bs := by
  unfold overlayPath; rw [h]

/-- Marking entries as observed (R215) changes neither their stores nor whose they are. -/
theorem overlayPath_markSeen (co : Core) (x : Nat) (lines : List Nat) (y : Nat) (spare : Bool) (seq p : Nat) (bs : List Byte) :
    overlayPath (markSeen co x lines) (fun e => !e.later y spare seq) p bs = overlayPath co (fun e => !e.later y spare seq) p bs := by
  unfold overlayPath markSeen
  rw [List.foldl_map]
  congr 1
  funext bs e
  obtain ⟨_, z, _, _, _, op, seen⟩ := e
  cases op with
  | store q sb r =>
    by_cases marked : (z != x && (linesOf q sb.length).any lines.contains && !seen.contains x) = true
    · simp only [if_pos marked]; rfl
    · simp only [if_neg marked]
  | _ => rfl

theorem fillL1_path (s : Chip) (d c line : Nat) : ((fillL1 s d c line).core d c).path = (s.core d c).path := by
  unfold fillL1
  split
  · rfl
  · rw [modCore_same]

/-- What memory and the core's held stores, but the half's own later ones, give for a part of a load. -/
def homeBytes (s : Chip) (d c x : Nat) (spare : Bool) (seq : Nat) (p : LoadPart) : List Byte :=
  overlayPath (s.core d c) (fun e => !e.later x spare seq) p.p (s.rdMem p.p p.bytes)

/-- A landing's data with such a part extended and placed in it (06 R155). -/
def landHome (s : Chip) (d c x : Nat) (spare : Bool) (seq : Nat) (v : Vector W32 256) (p : LoadPart) : Vector W32 256 :=
  landPut v p.lane p.wide (extVal p.signed p.bytes (leNat (homeBytes s d c x spare seq p)))

theorem arrivePart_homeBytes (s : Chip) (d c x : Nat) (l : Landing) (p : LoadPart) (spare : Bool) (seq : Nat) (q : LoadPart) :
    homeBytes (arrivePart d c x (l, s) p).2 d c x spare seq q = homeBytes s d c x spare seq q := by
  have mem : (arrivePart d c x (l, s) p).2.rdMem q.p q.bytes = s.rdMem q.p q.bytes := by
    unfold Chip.rdMem; rw [(arrivePart_spec d c x l s p).1.mem]
  have marked : ((s.l2Access p.p p.rrpv).modCore d c fun co => markSeen co x [lineOf p.p]).core d c =
      markSeen (s.core d c) x [lineOf p.p] := by rw [modCore_same, core_of_cores (l2_cores ..)]
  have path : ((arrivePart d c x (l, s) p).2.core d c).path = (markSeen (s.core d c) x [lineOf p.p]).path := by
    unfold arrivePart
    dsimp only
    split
    · rw [fillL1_path, marked]
    · rw [marked]
  unfold homeBytes
  rw [mem, overlayPath_of_path path, overlayPath_markSeen]

/-! ## The data of a landing (06 R155, 08 R204) -/

theorem arrivePart_data {s : Chip} {d c : Nat} {p : LoadPart} (home : p.home = true ∨ l1Find (s.core d c).l1 (lineOf p.p) = none)
    (x : Nat) (l : Landing) : (arrivePart d c x (l, s) p).1.data = landHome s d c x l.spare l.seq l.data p := by
  rw [(arrivePart_spec d c x l s p).2.1, partBytes_home home]
  rfl

/-- Parts served at home come one after another as if at once: none changes what the next one reads. -/
theorem arriveParts_data {d c x : Nat} : ∀ {ps : List LoadPart} (l : Landing) (s : Chip), (∀ p ∈ ps, p.home = true) →
    (ps.foldl (arrivePart d c x) (l, s)).1.data = ps.foldl (landHome s d c x l.spare l.seq) l.data := by
  intro ps
  induction ps with
  | nil => intro l s _; rfl
  | cons p ps ih =>
    intro l s home
    have same : landHome (arrivePart d c x (l, s) p).2 d c x l.spare l.seq = landHome s d c x l.spare l.seq := by
      funext v q
      unfold landHome
      rw [arrivePart_homeBytes]
    rw [List.foldl_cons, List.foldl_cons, ← arrivePart_data (.inl (home p List.mem_cons_self)) x l, ← same]
    exact ih _ _ fun q hq => home q (List.mem_cons_of_mem _ hq)

theorem arriveAll_arrived (s : Chip) (d c x : Nat) (l : Landing) : Arrived s (arriveAll s d c x l).2 d c :=
  (arriveParts_spec d c x l.parts _ s).1
theorem arriveAll_id (s : Chip) (d c x : Nat) (l : Landing) : (arriveAll s d c x l).1.id = l.id :=
  (arriveParts_spec d c x l.parts { l with parts := [], behind := false } s).2.2
theorem arriveParts_behind (d c x : Nat) : ∀ (ps : List LoadPart) (l : Landing) (s : Chip),
    (ps.foldl (arrivePart d c x) (l, s)).1.behind = l.behind := by
  intro ps
  induction ps with
  | nil => intro l s; rfl
  | cons p ps ih => intro l s; exact ih ..
theorem arriveAll_hasData (s : Chip) (d c x : Nat) (l : Landing) : (arriveAll s d c x l).1.hasData = true := by
  have parts : (arriveAll s d c x l).1.parts = [] := (arriveParts_spec d c x l.parts { l with parts := [], behind := false } s).2.1
  have behind : (arriveAll s d c x l).1.behind = false := arriveParts_behind d c x l.parts { l with parts := [], behind := false } s
  unfold Landing.hasData
  rw [parts, behind]
  rfl

theorem arriveAll_data {s : Chip} {l : Landing} (home : ∀ p ∈ l.parts, p.home = true) (d c x : Nat) :
    (arriveAll s d c x l).1.data = l.parts.foldl (landHome s d c x l.spare l.seq) l.data :=
  arriveParts_data { l with parts := [], behind := false } s home

theorem arriveAll_single {s : Chip} {d c : Nat} {l : Landing} {p : LoadPart} (only : l.parts = [p])
    (absent : l1Find (s.core d c).l1 (lineOf p.p) = none) (x : Nat) :
    (arriveAll s d c x l).1.data = landHome s d c x l.spare l.seq l.data p := by
  unfold arriveAll
  rw [only]
  exact arrivePart_data (.inr absent) x _

/-- A context with one of its landings replaced. -/
def landed (k : Ctx) (id : Nat) (l : Landing) : Ctx :=
  { k with landings := k.landings.map fun m => if m.id = id then l else m }

theorem mem_landed_same {k : Ctx} {id : Nat} {m l : Landing} (h : m ∈ k.landings) (named : m.id = id) : l ∈ (landed k id l).landings :=
  List.mem_map.2 ⟨m, h, if_pos named⟩
theorem mem_landed_other {k : Ctx} {id : Nat} {m l : Landing} (h : m ∈ k.landings) (other : m.id ≠ id) : m ∈ (landed k id l).landings :=
  List.mem_map.2 ⟨m, h, if_neg other⟩

section
variable {s : Chip} {d c x id : Nat} {k : Ctx} {l : Landing}

theorem arriveData_lands (hk : s.ctx? d c x = some k) (opened : k.landings.find? (fun (m : Landing) => m.id == id) = some l)
    (due : l.hasData = false) (kept : l.dropped = false) (near : l.spilled = false) (free : arrivalBlocked s d c k l = false) :
    arriveData s d c x id = (arriveAll s d c x l).2.setCtx d c x (landed k id (arriveAll s d c x l).1) := by
  have there : (arriveAll s d c x l).2.ctx? d c x = some k := ((arriveAll_arrived s d c x l).ctx x).trans hk
  unfold arriveData
  rw [hk]
  dsimp only
  rw [opened]
  dsimp only
  rw [if_neg (by simp [due, free]), near, if_neg Bool.false_ne_true, modCtx_some _ there, kept, if_neg Bool.false_ne_true]
  rfl

/-- The ends of its halves' freezes leave memory, the other contexts, and of a context all but what says how long it was frozen. -/
theorem thawHalves_spec (hk : s.ctx? d c x = some k) :
    let t := thaw (thaw s ⟨d, c, x, false⟩) ⟨d, c, x, true⟩
    t.mem = s.mem ∧ (∀ y, y ≠ x → t.ctx? d c y = s.ctx? d c y) ∧ ∃ k', t.ctx? d c x = some k' ∧ Thawed k k' := by
  obtain ⟨mem, others, k1, main, thawed⟩ := thaw_spec s ⟨d, c, x, false⟩ k hk
  obtain ⟨mem', others', k2, both, thawed'⟩ := thaw_spec _ ⟨d, c, x, true⟩ k1 main
  exact ⟨mem'.trans mem, fun y hy => (others' y hy).trans (others y hy), k2, both, thawed.trans thawed'⟩

theorem loadDataArrival_context (bound : x < 128) :
    loadDataArrival s d c x id = thaw (thaw (arriveData s d c x id) ⟨d, c, x, false⟩) ⟨d, c, x, true⟩ := if_neg (by omega)

/-- The data of a load lands: memory and the other contexts stand, and its own but for the landing and what a freeze that ends there
counts. -/
theorem loadDataArrival_lands (hk : s.ctx? d c x = some k) (bound : x < 128)
    (opened : k.landings.find? (fun (m : Landing) => m.id == id) = some l) (due : l.hasData = false) (kept : l.dropped = false)
    (near : l.spilled = false) (free : arrivalBlocked s d c k l = false) :
    (loadDataArrival s d c x id).mem = s.mem ∧ (∀ y, y ≠ x → (loadDataArrival s d c x id).ctx? d c y = s.ctx? d c y) ∧
    ∃ k', (loadDataArrival s d c x id).ctx? d c x = some k' ∧ Thawed (landed k id (arriveAll s d c x l).1) k' := by
  have arrived := arriveAll_arrived s d c x l
  obtain ⟨mem, others, thawed⟩ := thawHalves_spec (ctx_setCtx_same (arriveAll s d c x l).2 d c x (landed k id (arriveAll s d c x l).1))
  rw [loadDataArrival_context bound, arriveData_lands hk opened due kept near free]
  exact ⟨mem.trans arrived.mem, fun y hy => (others y hy).trans ((ctx_setCtx_other _ _ hy).trans (arrived.ctx y)), thawed⟩

end

/-! ## Stores that perform (08 R207) -/

/-- The compute part with the k-th entry of a core's store path gone. -/
def offPath (s : Chip) (d c k : Nat) : Chip := s.modCore d c fun co => { co with path := co.path.eraseIdx k }

theorem offPath_arrived (s : Chip) (d c k : Nat) : Arrived s (offPath s d c k) d c := arrived_modCore _ _ _ _ fun _ => rfl
theorem offPath_path (s : Chip) (d c k : Nat) : ((offPath s d c k).core d c).path = (s.core d c).path.eraseIdx k := by
  unfold offPath; rw [modCore_same]

theorem storePerform_ready {s : Chip} {d c k : Nat} {e : PathEntry} (entry : (s.core d c).path[k]? = some e)
    (ready : pathReady s d c k e = true) : storePerform s d c k = settleIfences (performPath (offPath s d c k) d c e) d c := by
  unfold storePerform
  rw [entry]
  dsimp only
  rw [ready]
  rfl

theorem exec_storePerform_ready {s : State} {d c k : Nat} {e : PathEntry} (hp : s.io.phase = .running)
    (entry : (s.chip.core d c).path[k]? = some e) (ready : pathReady s.chip d c k e = true) :
    exec (.storePerform d c k []) s = .next { s with chip := settleIfences (performPath (offPath s.chip d c k) d c e) d c } := by
  rw [exec_storePerform hp, State.modChip, storePerform_ready entry ready]

theorem performPath_store {s : Chip} {d c p : Nat} {e : PathEntry} {bs : List Byte} {rrpv : Option Nat} (store : e.op = .store p bs rrpv) :
    performPath s d c e = (s.l2Access p rrpv).wrMem p bs := by
  unfold performPath; rw [store]

theorem rdMem_of_mem {s t : Chip} (h : t.mem = s.mem) (q n : Nat) : t.rdMem q n = s.rdMem q n := by
  unfold Chip.rdMem; rw [h]

/-- A store that leaves the path and performs: its bytes are in memory, the rest of memory, of the path and of the contexts stands. -/
theorem performPath_offPath {s : Chip} {d c p : Nat} {e : PathEntry} {bs : List Byte} {rrpv : Option Nat} (store : e.op = .store p bs rrpv)
    (k : Nat) :
    let t := performPath (offPath s d c k) d c e
    t.rdMem p bs.length = bs ∧ (∀ q n, q + n ≤ p ∨ p + bs.length ≤ q → t.rdMem q n = s.rdMem q n) ∧
      (t.core d c).path = (s.core d c).path.eraseIdx k ∧ ∀ y, t.ctx? d c y = s.ctx? d c y := by
  have out := (offPath_arrived s d c k).trans (arrived_l2 _ p d c rrpv)
  rw [performPath_store store]
  refine ⟨rdMem_wrMem_same .., fun q n apart => ?_, ?_, fun y => ?_⟩
  · exact (rdMem_wrMem_apart _ _ apart).trans (rdMem_of_mem out.mem q n)
  · rw [core_of_cores (wrMem_cores ..), core_of_cores (l2_cores ..), offPath_path]
  · exact (ctx_of_cores (wrMem_cores ..) ..).trans (out.ctx y)

/-- Settles O50: a load's data lands (loadDataArrival_lands) as memory and the held stores give it (arriveAll_data, arriveAll_single);
a store that is ready leaves the path and performs (performPath_offPath), and IFENCEs that waited for it end (settled_ifences). -/
theorem loadsAndStores : Obligations.LoadsAndStores := by
  refine ⟨?load, ?store, fun s d c k e hp entry ready => exec_storePerform_ready hp entry ready⟩
  case load =>
    intro s d c x id k l hp hk bound opened due kept near free put
    obtain ⟨mem, others, k', hk', landings, main, v, kk, h, f⟩ := loadDataArrival_lands hk bound opened due kept near free
    have named : l.id = id := by simpa using List.find?_some opened
    refine ⟨_, k', (arriveAll s.chip d c x l).1, exec_loadDataArrival hp d c x id, hk', ?_, (arriveAll_id ..).trans named,
      arriveAll_hasData .., mem, fun m hm other => ?_, main, v, kk, h, f, others, fun home => arriveAll_data home d c x,
      fun p only absent => arriveAll_single only absent x⟩
    · rw [landings]; exact mem_landed_same (List.mem_of_find?_eq_some opened) named
    · rw [landings]; exact mem_landed_other hm other
  case store =>
    intro s d c k p e bs rrpv hp entry store ready
    obtain ⟨written, apart, path, ctx⟩ := performPath_offPath (s := s.chip) (d := d) (c := c) store k
    have settled := settled_ifences (performPath (offPath s.chip d c k) d c e) d c
    refine ⟨_, exec_storePerform_ready hp entry ready, ?_, fun q n h => ?_, settled.path.trans path, fun y => ?_⟩
    · exact (rdMem_of_mem settled.mem ..).trans written
    · exact (rdMem_of_mem settled.mem ..).trans (apart q n h)
    · rw [settled.ctx, ctx]

end Sys2Proof.Proofs.Gang
end

section
/-! PROOFS. Memory (spec/07_memory.md): physical addresses and their homes, walks that fill the TLBs, gathered bits written back. -/

namespace Sys2Proof.Proofs.Memory
open Sys2Proof.Machine Sys2Proof.Laws Sys2Proof.Proofs.Scheduler

/-! ## Homes (R185, R186) -/

/-- P[14:12] as from_local chooses it for a granule of a die (R186). -/
def homeBits (d hi : Nat) : Nat := d ^^^ (hi % 8) ^^^ (hi / 8 % 8) ^^^ (hi / 64 % 8)

theorem homeBits_lt {d : Nat} (hd : d < 8) (hi : Nat) : homeBits d hi < 8 :=
  Nat.xor_lt_two_pow (n := 3) (xor3_lt hd (Nat.mod_lt _ (by decide)) (Nat.mod_lt _ (by decide))) (Nat.mod_lt _ (by decide))

theorem homeBits_homeBits (d hi : Nat) : homeBits (homeBits d hi) hi = d := xor_cancel ..

theorem homeHash_eq (a : Nat) : homeHash a = homeBits (a / 2 ^ 12 % 8) (a / 2 ^ 15) := by
  unfold homeHash homeBits
  rw [show a / 2 ^ 18 = a / 2 ^ 15 / 8 by omega, show a / 2 ^ 21 = a / 2 ^ 15 / 64 by omega]

theorem homeHash_lt (a : Nat) : homeHash a < 8 := homeHash_eq a ▸ homeBits_lt (Nat.mod_lt _ (by decide)) _

theorem fromLocal_eq {x : Nat} (hx : x < 2 ^ 37) (d : Nat) :
    fromLocal d x = x % 2 ^ 12 + homeBits d (x / 2 ^ 12) * 2 ^ 12 + x / 2 ^ 12 * 2 ^ 15 := by
  unfold fromLocal homeBits
  rw [Nat.mod_eq_of_lt (show x / 2 ^ 12 < 2 ^ 25 by omega)]

theorem homeDie_fromLocal {d x : Nat} (hd : d < 8) (hx : x < 2 ^ 37) : homeDie (fromLocal d x) = d := by
  have bits := homeBits_lt hd (x / 2 ^ 12)
  have eq := fromLocal_eq hx d
  have granule : fromLocal d x / 2 ^ 15 = x / 2 ^ 12 := by omega
  have middle : fromLocal d x / 2 ^ 12 % 8 = homeBits d (x / 2 ^ 12) := by omega
  unfold homeDie
  rw [homeHash_eq, granule, middle, homeBits_homeBits]

/-- The device address of R185 undoes from_local. -/
theorem deviceAddr_fromLocal {d x : Nat} (hd : d < 8) (hx : x < 2 ^ 37) :
    fromLocal d x / 2 ^ 15 * 4096 + fromLocal d x % 4096 = x := by
  have := homeBits_lt hd (x / 2 ^ 12)
  rw [fromLocal_eq hx]
  omega

theorem fromLocal_lt {d x : Nat} (hd : d < 8) (hx : x < Config.homeBytes) : fromLocal d x < Config.memBytes := by
  unfold Config.homeBytes at hx
  unfold Config.memBytes
  have := homeBits_lt hd (x / 2 ^ 12)
  rw [fromLocal_eq (by omega)]
  omega

/-- An address is its low 12 bits, the bits that its home and its granule give, and its granule. -/
theorem fromLocal_homeDie {p : Nat} (hp : p < Config.memBytes) : fromLocal (homeDie p) (p / 2 ^ 15 * 4096 + p % 4096) = p := by
  unfold Config.memBytes at hp
  have bits : homeBits (homeDie p) (p / 2 ^ 15) = p / 2 ^ 12 % 8 := by
    unfold homeDie; rw [homeHash_eq, homeBits_homeBits]
  rw [fromLocal_eq (by omega), show (p / 2 ^ 15 * 4096 + p % 4096) / 2 ^ 12 = p / 2 ^ 15 by omega, bits]
  omega

theorem setBit_all : ∀ k < 8, setBit 0xFF 8 k = k := by decide

/-- The IMASK view of all dies takes an address to its own home (R186). -/
theorem canonical_allDies (d a : Nat) : canonical 0xFF 2 d a = canonical 0xFF 0 d a := by
  have count : popcount 8 0xFF = 8 := by decide
  have hash := homeHash_lt a
  show (if a < popcount 8 0xFF * Config.homeBytes then _ else none) = if a < Config.memBytes then some a else none
  rw [count, show 8 * Config.homeBytes = Config.memBytes from rfl]
  split
  case isTrue inside =>
    rw [Nat.mod_eq_of_lt hash, setBit_all _ hash, Nat.div_eq_of_lt hash, Nat.div_self (by decide), Nat.mul_one, Nat.add_zero]
    exact congrArg some (fromLocal_homeDie inside)
  case isFalse => rfl

/-- Settles O57: from_local and the pair of home die and device address undo each other (homeDie_fromLocal, deviceAddr_fromLocal,
fromLocal_homeDie), and the IMASK view of all dies is from_local of that pair (canonical_allDies). -/
theorem addressHomes : Obligations.AddressHomes := by
  refine ⟨fun d x hd hx => ?_, fun p hp => ⟨homeHash_lt p, ?_, fromLocal_homeDie hp⟩, canonical_allDies⟩
  · have wide : x < 2 ^ 37 := Nat.lt_trans hx (by decide)
    exact ⟨fromLocal_lt hd hx, homeDie_fromLocal hd wide, deviceAddr_fromLocal hd wide⟩
  · exact Nat.xor_lt_two_pow (n := 5) (Nat.mod_lt _ (by decide)) (Nat.mod_lt _ (by decide))

/-! ## Walks (R195, R196, R202) -/

theorem exec_pageWalk {s : State} (h : s.io.phase = .running) (d c asid va fetch : Nat) :
    exec (.pageWalk d c asid va fetch) s = .next (s.modChip fun x => pageWalk x d c asid va (fetch == 1)) :=
  congrArg Host.Outcome.next (onChip_running h _)

/-- A core's TLB for data or for fetch (R196), and the kind of access whose miss a PAGE_WALK serves there. -/
def ownTlb (fetch : Bool) (co : Core) : List TlbEnt := if fetch then co.itlb else co.dtlb
def missAcc (fetch : Bool) : Acc := if fetch then .fetch else .load

/-- The miss and the walk are counted (R202). -/
def walkCounted (co : Core) : Core := { co with tlbMiss := co.tlbMiss + 1, walks := co.walks + 1 }

/-- A translation enters one of a core's TLBs that has room. -/
def ownFilled (fetch : Bool) (e : TlbEnt) (co : Core) : Core :=
  if fetch then { co with itlb := e :: co.itlb } else { co with dtlb := e :: co.dtlb }

/-- A walk that a core's miss begins: it is counted, and the table entries are read through the L2. -/
def walked (s : Chip) (d c asid va : Nat) : Chip :=
  touchWalk ((s.modCore d c fun co => { co with tlbMiss := co.tlbMiss + 1 }).modCore d c fun co => { co with walks := co.walks + 1 }) asid va

/-- What a walk found enters the die's shared TLB. -/
def sharedInsert (s : Chip) (d : Nat) (e : TlbEnt) : Chip :=
  let (t, s) := tlbInsert s (s.die d).stlb 16384 e
  s.modDie d fun y => { y with stlb := t }

/-- What a walk found enters the core's own TLB. -/
def ownInsert (fetch : Bool) (s : Chip) (d c : Nat) (e : TlbEnt) : Chip :=
  if fetch then
    let (t, s) := tlbInsert s (s.core d c).itlb 128 e
    s.modCore d c fun co => { co with itlb := t }
  else
    let (t, s) := tlbInsert s (s.core d c).dtlb 512 e
    s.modCore d c fun co => { co with dtlb := t }

theorem walked_core (s : Chip) (d c asid va : Nat) : (walked s d c asid va).core d c = walkCounted (s.core d c) := by
  unfold walked; rw [touchWalk_core, modCore_same, modCore_same]; rfl
theorem walked_stlb (s : Chip) (d c asid va : Nat) : ((walked s d c asid va).die d).stlb = (s.die d).stlb := touchWalk_stlb ..
theorem walked_mem (s : Chip) (d c asid va : Nat) : (walked s d c asid va).mem = s.mem := touchWalk_mem ..

theorem sharedInsert_room {s : Chip} {d : Nat} (room : (s.die d).stlb.length < 16384) (e : TlbEnt) :
    sharedInsert s d e = s.modDie d fun y => { y with stlb := e :: y.stlb } := by
  unfold sharedInsert; rw [tlbInsert_room e room]; rfl

theorem ownInsert_room {s : Chip} {d c : Nat} {fetch : Bool}
    (room : (ownTlb fetch (s.core d c)).length < if fetch then 128 else 512) (e : TlbEnt) :
    ownInsert fetch s d c e = s.modCore d c (ownFilled fetch e) := by
  unfold ownInsert
  cases fetch with
  | true => rw [show tlbInsert s (s.core d c).itlb 128 e = _ from tlbInsert_room e room]; rfl
  | false => rw [show tlbInsert s (s.core d c).dtlb 512 e = _ from tlbInsert_room e room]; rfl

section Miss
variable {s : Chip} {d c asid va : Nat} {fetch : Bool}

theorem pageWalk_hit {e : TlbEnt} (hit : tlbFind (ownTlb fetch (s.core d c)) asid va = some e) : pageWalk s d c asid va fetch = s :=
  if_pos (by rw [show tlbFind (if fetch then _ else _) asid va = some e from hit]; rfl)

variable (miss : tlbFind (ownTlb fetch (s.core d c)) asid va = none)

include miss in
theorem pageWalk_miss (free : walkHeld s d (ownTlb fetch (s.core d c)) asid va = false) :
    pageWalk s d c asid va fetch = (xlCore s d c (missAcc fetch) asid va).2 :=
  if_neg (by
    rw [show tlbFind (if fetch then _ else _) asid va = none from miss, show walkHeld s d (if fetch then _ else _) asid va = false from free]
    decide)

variable (shared : tlbFind (s.die d).stlb asid va = none)
include miss shared

/-- A miss in both TLBs: only what the walk finds, and the access may use, enters them. -/
theorem xlCore_walked : (xlCore s d c (missAcc fetch) asid va).2 = (walk s asid va).elim (walked s d c asid va) fun e =>
    if (permFail e.pte (missAcc fetch)).isSome then walked s d c asid va
    else ownInsert fetch (sharedInsert (walked s d c asid va) d e) d c e := by
  have kind : (missAcc fetch == .fetch) = fetch := by cases fetch <;> rfl
  unfold xlCore
  dsimp only
  rw [kind, show tlbFind (if fetch = true then _ else _) asid va = none from miss, modCore_die, shared, walk_modCore, walk_modCore]
  cases walk s asid va with
  | none => rfl
  | some e =>
    dsimp only [Option.elim]
    split
    · rfl
    · rfl

variable (free : walkHeld s d (ownTlb fetch (s.core d c)) asid va = false)
include free

theorem pageWalk_fault (fault : ∀ e, walk s asid va = some e → (permFail e.pte (missAcc fetch)).isSome = true) :
    pageWalk s d c asid va fetch = walked s d c asid va := by
  rw [pageWalk_miss miss free, xlCore_walked miss shared]
  cases found : walk s asid va with
  | none => rfl
  | some e => exact if_pos (fault e found)

theorem pageWalk_fill {e : TlbEnt} (found : walk s asid va = some e) (allowed : permFail e.pte (missAcc fetch) = none)
    (room : (ownTlb fetch (s.core d c)).length < if fetch then 128 else 512) (sharedRoom : (s.die d).stlb.length < 16384) :
    let t := pageWalk s d c asid va fetch
    t.core d c = ownFilled fetch e (walkCounted (s.core d c)) ∧ (t.die d).stlb = e :: (s.die d).stlb ∧ t.mem = s.mem := by
  have counted : (sharedInsert (walked s d c asid va) d e).core d c = walkCounted (s.core d c) := by
    rw [sharedInsert_room (by rw [walked_stlb]; exact sharedRoom), modDie_core, walked_core]
  rw [pageWalk_miss miss free, xlCore_walked miss shared, found]
  dsimp only [Option.elim]
  rw [allowed, if_neg (by decide), ownInsert_room (by rw [counted]; cases fetch <;> exact room), modCore_same, counted, modCore_die,
    sharedInsert_room (by rw [walked_stlb]; exact sharedRoom), modDie_same]
  exact ⟨rfl, congrArg (e :: ·) (walked_stlb ..), walked_mem ..⟩
end Miss

theorem ctx_of_ctxs {s t : Chip} {d c : Nat} (h : (t.core d c).ctxs = (s.core d c).ctxs) (x : Nat) : t.ctx? d c x = s.ctx? d c x := by
  unfold Chip.ctx?; rw [h]

/-- What a walk finds is a leaf of a page that holds the address, and gives it a physical address (R195). -/
theorem walk_spec {s : Chip} {asid va : Nat} {e : TlbEnt} (found : walk s asid va = some e) :
    e.asid = asid % 4096 ∧ e.vpn = va / 2 ^ e.size ∧ e.size ∈ [30, 21, 12] ∧ pteV e.pte = true ∧ (e.phys va).isSome = true := by
  unfold walk at found
  dsimp only at found
  split at found
  case isTrue => cases found
  case isFalse =>
    obtain ⟨leaf, levels, kept⟩ := Option.bind_eq_some_iff.1 found
    split at kept
    case isTrue phys =>
      obtain rfl := Option.some.inj kept
      obtain ⟨own, page, size, valid⟩ := walkLevels_spec _ _ (fun _ h => h) levels
      exact ⟨own, page, size, valid, phys⟩
    case isFalse => cases kept

/-! ## Gathered bits (R199) -/

theorem exec_gatheredBitsFlush {s : State} (h : s.io.phase = .running) : exec .gatheredBitsFlush s = .next (s.modChip gatheredFlush) :=
  congrArg Host.Outcome.next (onChip_running h _)

/-- The leaf entry still maps what it mapped when it was walked. -/
def SameLeaf (x pte : W64) : Prop := pteV x = true ∧ pteFrame x = pteFrame pte ∧ ptePl x = ptePl pte ∧ pteDie x = pteDie pte

section WriteBack
variable {s : Chip} {e : TlbEnt}

theorem writeBack_same (bits : e.gA = true ∨ e.gD = true) (same : SameLeaf (s.rd64 e.pteP) e.pte) :
    writeBack s e = s.wr64 e.pteP (s.rd64 e.pteP ||| (if e.gA then 0x20 else 0) ||| (if e.gD then 0x40 else 0)) := by
  unfold writeBack
  rw [if_neg (by rcases bits with h | h <;> simp [h])]
  exact if_pos same

theorem writeBack_changed (changed : ¬SameLeaf (s.rd64 e.pteP) e.pte) : writeBack s e = s := by
  unfold writeBack
  split
  · rfl
  · exact if_neg changed

theorem writeBack_apart {q : Nat} (bits : e.gA = true ∨ e.gD = true) (apart : q + 8 ≤ e.pteP ∨ e.pteP + 8 ≤ q) :
    (writeBack s e).rd64 q = s.rd64 q := by
  by_cases same : SameLeaf (s.rd64 e.pteP) e.pte
  · rw [writeBack_same bits same, rd64_wr64_apart _ _ apart]
  · rw [writeBack_changed same]
end WriteBack

/-- Settles O51: a walk fills both TLBs (pageWalk_fill) or none (pageWalk_fault), a hit needs none (pageWalk_hit), what it finds is a
valid leaf of the address (walk_spec); gathered bits go to a leaf that has not changed and nowhere else (writeBack_same,
writeBack_changed, writeBack_apart). -/
theorem walksAndGatheredBits : Obligations.WalksAndGatheredBits := by
  refine ⟨⟨?load, ?fetch, ?fault, ?hit, fun s asid va e => walk_spec⟩, fun s hp => exec_gatheredBitsFlush hp, fun s e bits => ?bits⟩
  case load =>
    intro s d c asid va e hp miss shared found allowed free room sharedRoom
    obtain ⟨core, stlb, mem⟩ := pageWalk_fill (fetch := false) miss shared free found allowed room sharedRoom
    exact ⟨_, exec_pageWalk hp .., congrArg Core.dtlb core, stlb, congrArg Core.walks core, congrArg Core.tlbMiss core, mem,
      (congrArg Core.itlb core :), ctx_of_ctxs (congrArg Core.ctxs core :)⟩
  case fetch =>
    intro s d c asid va e hp miss shared found allowed free room sharedRoom
    obtain ⟨core, stlb, mem⟩ := pageWalk_fill (fetch := true) miss shared free found allowed room sharedRoom
    exact ⟨_, exec_pageWalk hp .., congrArg Core.itlb core, stlb, mem, (congrArg Core.dtlb core :), ctx_of_ctxs (congrArg Core.ctxs core :)⟩
  case fault =>
    intro s d c asid va hp miss shared free fault
    have core := walked_core s.chip d c asid va
    refine ⟨_, exec_pageWalk hp .., ?_⟩
    rw [State.modChip, show (0 == 1) = false from rfl, pageWalk_fault (fetch := false) miss shared free fault]
    exact ⟨(congrArg Core.dtlb core :), (congrArg Core.itlb core :), walked_stlb .., walked_mem .., (congrArg Core.walks core :),
      ctx_of_ctxs (congrArg Core.ctxs core :)⟩
  case hit =>
    exact fun s d c asid va e hit => congrArg Host.Outcome.next (onChip_same (pageWalk_hit (fetch := false) hit))
  case bits =>
    exact ⟨fun same => by rw [writeBack_same bits same, rd64_wr64_same], writeBack_changed, fun q => writeBack_apart bits⟩

end Sys2Proof.Proofs.Memory
end

section
/-! PROOFS. Ordering (spec/08_ordering.md): claimed lines that are written, async operations that complete. -/

namespace Sys2Proof.Proofs.Ordering
open Sys2Proof.Machine Sys2Proof.Laws

/-! ## The rows -/

theorem exec_asyncCompletion {s : State} (h : s.io.phase = .running) (id : Nat) :
    exec (.asyncCompletion id) s = .next (s.modChip fun y => asyncComplete y id) :=
  congrArg Host.Outcome.next (onChip_running h _)
theorem exec_claimedLineWrite {s : State} (h : s.io.phase = .running) (id line : Nat) :
    exec (.claimedLineWrite id line) s = .next (s.modChip fun y => claimedWrite y id line) :=
  congrArg Host.Outcome.next (onChip_running h _)

theorem async?_id {s : Chip} {id : Nat} {a : Async} (found : s.async? id = some a) : a.id = id := by
  simpa using List.find?_some found

/-! ## Completion (R225, 16 R400) -/

/-- An operation's chunks, stored one after another. -/
def storeChunks (s : Chip) (a : Async) (cs : List Chunk) : Chip := cs.foldl (fun s k => writeChunk s a k) s

/-- The issuing core without its L1's copies of the operation's destination lines. -/
def dropL1Lines (s : Chip) (a : Async) : Chip :=
  s.modCore a.who.die a.who.core fun co => { co with l1 := (asyncLines a).foldl l1Invalidate co.l1 }

theorem dropL1Lines_ctx (s : Chip) (a : Async) : (dropL1Lines s a).ctx? a.who.die a.who.core a.who.ctx =
    s.ctx? a.who.die a.who.core a.who.ctx :=
  (arrived_modCore s a.who.die a.who.core (fun co => { co with l1 := (asyncLines a).foldl l1Invalidate co.l1 }) fun _ => rfl).ctx _

/-- The compute part as the last chunks of an operation are stored and it is gone, with the windows that it was the last to use. -/
def asyncGone (s : Chip) (a : Async) (cs : List Chunk) : Chip :=
  let s := dropL1Lines (storeChunks s a cs) a
  settleLeft { s with asyncs := s.asyncs.filter fun (b : Async) => b.id != a.id } a.who.die a.who.core

/-- The bytes that a completed operation has still to count against its barrier, counted. -/
def countRest (s : Chip) (a : Async) : Chip :=
  if a.bytes = 0 ∧ a.ecode = 0 then s else countBytes s a a.bytes a.ecode a.erow

/-- The flag of a completed operation, set unless another operation of its instruction is in progress. -/
def raiseFlag (s : Chip) (a : Async) : Chip :=
  match a.sync with
  | .flag n => if s.asyncs.any fun (b : Async) => b.group == a.group then s
      else setFlag s a.who.die a.who.core a.who.ctx a.who.task n
  | .barrier _ => s

theorem asyncGone_asyncs (s : Chip) (a : Async) (cs : List Chunk) :
    (asyncGone s a cs).asyncs = s.asyncs.filter fun (b : Async) => b.id != a.id :=
  (settleLeft_keeps ..).1.trans (congrArg (List.filter _) (fold_chunks a cs s).1)
theorem asyncGone_ctx (s : Chip) (a : Async) : (asyncGone s a []).ctx? a.who.die a.who.core a.who.ctx =
    s.ctx? a.who.die a.who.core a.who.ctx :=
  ((settleLeft_keeps ..).2.2.1.ctx ..).trans (dropL1Lines_ctx s a)

theorem countRest_asyncs (s : Chip) (a : Async) : (countRest s a).asyncs = s.asyncs := by
  unfold countRest
  split
  · rfl
  · exact (countBytes_keeps ..).1
theorem countRest_none {a : Async} (bytes : a.bytes = 0) (ecode : a.ecode = 0) (s : Chip) : countRest s a = s := if_pos ⟨bytes, ecode⟩

theorem raiseFlag_asyncs (s : Chip) (a : Async) : (raiseFlag s a).asyncs = s.asyncs := by
  unfold raiseFlag
  split
  · split
    · rfl
    · exact setFlag_asyncs ..
  · rfl
theorem raiseFlag_last {s : Chip} {a : Async} {n : Nat} (sync : a.sync = .flag n) (last : ∀ b ∈ s.asyncs, b.group ≠ a.group) :
    raiseFlag s a = setFlag s a.who.die a.who.core a.who.ctx a.who.task n := by
  unfold raiseFlag
  rw [sync]
  exact if_neg (by simpa using last)

theorem setFlag_ctx {s : Chip} {d c x : Nat} {k : Ctx} (hk : s.ctx? d c x = some k) (n : Nat) :
    (setFlag s d c x k.task n).ctx? d c x = some { k with f := k.f ||| BitVec.ofNat 32 (2 ^ (n % 32)) } := by
  unfold setFlag
  rw [hk]
  dsimp only
  rw [if_pos rfl, ctx_setCtx_same]

/-- An operation with every claim written and every row acknowledged, whose sources have been read. -/
structure Completes (s : Chip) (id : Nat) (a : Async) (cs : List Chunk) : Prop where
  found : s.async? id = some a
  written : a.claims = []
  turn : asyncTurn s a = true
  out : a.out = some cs
  acked : a.unacked = 0
  clean : a.poison = none

theorem asyncComplete_completes {s : Chip} {id : Nat} {a : Async} {cs : List Chunk} (h : Completes s id a cs) :
    asyncComplete s id = raiseFlag (countRest (asyncGone s a cs) a) a := by
  obtain ⟨found, written, turn, out, acked, clean⟩ := h
  unfold asyncComplete
  rw [found]
  dsimp only
  rw [if_neg (by simp [written, turn]), read_done out]
  dsimp only
  rw [if_neg (not_not.2 acked), clean, out, ← async?_id found]
  rfl

theorem asyncComplete_gone {s : Chip} {id : Nat} {a : Async} {cs : List Chunk} (h : Completes s id a cs) :
    (asyncComplete s id).async? id = none := by
  rw [asyncComplete_completes h]
  unfold Chip.async?
  rw [raiseFlag_asyncs, countRest_asyncs, asyncGone_asyncs, async?_id h.found]
  exact find_filter_ne ..

theorem asyncGone_last {s : Chip} {a : Async} (last : ∀ b ∈ s.asyncs, b.group = a.group → b.id = a.id) (cs : List Chunk) :
    ∀ b ∈ (asyncGone s a cs).asyncs, b.group ≠ a.group := by
  intro b hb same
  rw [asyncGone_asyncs, List.mem_filter] at hb
  obtain ⟨there, other⟩ := hb
  exact absurd (last b there same) (by simpa using other)

theorem asyncComplete_flag {s : Chip} {id n : Nat} {a : Async} {k : Ctx} (h : Completes s id a []) (ecode : a.ecode = 0)
    (sync : a.sync = .flag n) (last : ∀ b ∈ s.asyncs, b.group = a.group → b.id = id) (bytes : a.bytes = 0)
    (hk : s.ctx? a.who.die a.who.core a.who.ctx = some k) (serves : k.task = a.who.task) :
    (asyncComplete s id).ctx? a.who.die a.who.core a.who.ctx = some { k with f := k.f ||| BitVec.ofNat 32 (2 ^ (n % 32)) } := by
  rw [← async?_id h.found] at last
  rw [asyncComplete_completes h, countRest_none bytes ecode, raiseFlag_last sync (asyncGone_last last []), ← serves]
  exact setFlag_ctx ((asyncGone_ctx s a).trans hk) n

/-! ## The write of a claimed line (R222) -/

/-- The chunks that an operation stores into a line of global memory. -/
def inLine (line : Nat) (k : Chunk) : Bool := k.glob && lineOf k.addr == line

/-- The bytes of these chunks. -/
def lineBytes (line : Nat) (cs : List Chunk) : Nat := (cs.filter (inLine line)).foldl (fun n k => n + k.bytes.length) 0

/-- An operation as it has written a line: the claim is released. -/
def lineWritten (a : Async) (line : Nat) (cs : List Chunk) : Async :=
  { a with claims := a.claims.filter (· != line), bytes := a.bytes - lineBytes line cs, seen := line :: a.seen
           out := some (cs.filter fun k => !inLine line k) }

/-- The operation's chunks of a line stored, and its engine's request for the line counted (07 R202). -/
def storeLine (s : Chip) (a : Async) (line : Nat) (cs : List Chunk) : Chip :=
  let s := storeChunks s a (cs.filter (inLine line))
  if lineBytes line cs = 0 ∨ a.seen.contains line then s else countReq s a.who.die a.who.core (128 * line)

/-- Bytes that are written count against the operation's barrier. -/
def countWritten (s : Chip) (a : Async) (n : Nat) : Chip := if n = 0 then s else countBytes s a n 0 0

theorem countWritten_keeps (s : Chip) (a : Async) (n : Nat) :
    (countWritten s a n).asyncs = s.asyncs ∧ (countWritten s a n).mem = s.mem := by
  unfold countWritten
  split
  · exact ⟨rfl, rfl⟩
  · exact countBytes_keeps ..

/-- Counting a request touches the counters of a core only. -/
theorem storeLine_eq_storeChunks (s : Chip) (a : Async) (line : Nat) (cs : List Chunk) :
    let t := storeChunks s a (cs.filter (inLine line))
    (storeLine s a line cs).asyncs = t.asyncs ∧ (storeLine s a line cs).held = t.held ∧ (storeLine s a line cs).mem = t.mem := by
  unfold storeLine
  dsimp only
  split <;> exact ⟨rfl, rfl, rfl⟩

theorem storeLine_asyncs (s : Chip) (a : Async) (line : Nat) (cs : List Chunk) : (storeLine s a line cs).asyncs = s.asyncs :=
  (storeLine_eq_storeChunks ..).1.trans (fold_chunks a _ s).1
theorem storeLine_held (s : Chip) (a : Async) (line : Nat) (cs : List Chunk) : (storeLine s a line cs).held = s.held :=
  (storeLine_eq_storeChunks ..).2.1.trans (fold_held a _ s)
theorem storeLine_mem {a : Async} (plain : a.plan.op = 0) (s : Chip) (line : Nat) (cs : List Chunk) : (storeLine s a line cs).mem =
    (cs.filter (inLine line)).foldl (fun m k => m.write memDflt k.addr k.bytes) s.mem := by
  refine (storeLine_eq_storeChunks ..).2.2.trans ((fold_chunks a _ s).2 plain fun k hk => ?_)
  obtain ⟨-, mine⟩ := List.mem_filter.1 hk
  exact (Bool.and_eq_true_iff.1 mine).1

/-- An operation that has read its sources and may write one of the lines that it claims. -/
structure WritesLine (s : Chip) (id line : Nat) (a : Async) (cs : List Chunk) : Prop where
  found : s.async? id = some a
  claimed : line ∈ a.claims
  turn : asyncTurn s a = true
  free : lineFree s a line = true
  out : a.out = some cs

section
variable {s : Chip} {id line : Nat} {a : Async} {cs : List Chunk}

theorem claimedWrite_writes (h : WritesLine s id line a cs) : claimedWrite s id line =
    countWritten (settleHeld ((storeLine s a line cs).modAsync id fun _ => lineWritten a line cs)) a (lineBytes line cs) := by
  obtain ⟨found, claimed, turn, free, out⟩ := h
  unfold claimedWrite
  rw [found]
  dsimp only
  rw [if_neg (by simp [claimed, turn]), read_done out]
  dsimp only
  rw [if_neg (by simp [free]), out]
  rfl

theorem claimedWrite_async (h : WritesLine s id line a cs) : (claimedWrite s id line).async? id = some (lineWritten a line cs) := by
  have named : (lineWritten a line cs).id = id := (async?_id h.found :)
  have there : (storeLine s a line cs).async? id = some a := (congrArg (List.find? _) (storeLine_asyncs ..)).trans h.found
  rw [claimedWrite_writes h]
  unfold Chip.async?
  rw [(countWritten_keeps ..).1, settleHeld_asyncs]
  exact find_map_set _ id named there

theorem not_mem_claims_lineWritten (a : Async) (line : Nat) (cs : List Chunk) : line ∉ (lineWritten a line cs).claims := by
  simp [lineWritten]

/-- Where no store of a task unit waits, memory changes by the operation's own bytes only. -/
theorem claimedWrite_mem (h : WritesLine s id line a cs) (plain : a.plan.op = 0) (unheld : s.held = []) : (claimedWrite s id line).mem =
    (cs.filter (inLine line)).foldl (fun m k => m.write memDflt k.addr k.bytes) s.mem := by
  have idle : ((storeLine s a line cs).modAsync id fun _ => lineWritten a line cs).held = [] := (storeLine_held ..).trans unheld
  rw [claimedWrite_writes h, (countWritten_keeps ..).2, settleHeld_none idle]
  exact storeLine_mem plain ..
end

/-- Settles O53: an operation that completes is gone (asyncComplete_gone) and its instruction's last one sets the flag
(asyncComplete_flag); a claimed line that is written is released (claimedWrite_async) with its bytes in memory (claimedWrite_mem). -/
theorem asyncOperations : Obligations.AsyncOperations := by
  refine ⟨?gone, ?flag, ?line⟩
  case gone =>
    intro s id a cs hp found written turn out acked clean
    exact ⟨_, exec_asyncCompletion hp id, asyncComplete_gone ⟨found, written, turn, out, acked, clean⟩⟩
  case flag =>
    intro s id n a k hp found written turn out acked clean ecode sync last bytes hk serves
    exact ⟨_, exec_asyncCompletion hp id,
      asyncComplete_flag ⟨found, written, turn, out, acked, clean⟩ ecode sync last bytes hk serves⟩
  case line =>
    intro s id line a cs hp found claimed turn free out plain
    have writes : WritesLine s.chip id line a cs := ⟨found, claimed, turn, free, out⟩
    exact ⟨_, lineWritten a line cs, exec_claimedLineWrite hp id line, claimedWrite_async writes, not_mem_claims_lineWritten a line cs,
      claimedWrite_mem writes plain⟩

end Sys2Proof.Proofs.Ordering
end

section
/-! PROOFS. Traps (spec/11_traps.md): the trap state that a trap writes, handler entry, RESUME, the POISON boundary trap; and the end of an
array instruction (spec/15_tile.md). -/

namespace Sys2Proof.Proofs.Traps
open Sys2Proof.Machine Sys2Proof.Laws Sys2Proof.Proofs.Scheduler

/-! ## The rows -/

theorem exec_asyncPoisonTrap {s : State} (h : s.io.phase = .running) (d c x : Nat) :
    exec (.asyncPoisonTrap d c x) s = .next (s.modChip fun y => contextBoundary y d c x) :=
  congrArg Host.Outcome.next (onChip_running h _)
theorem exec_arrayInstructionEnd {s : State} (h : s.io.phase = .running) (d c k : Nat) :
    exec (.arrayInstructionEnd d c k) s = .next (s.modChip fun x => arrayEnd x d c k) :=
  congrArg Host.Outcome.next (onChip_running h _)

/-! ## The trap state (R276 to R279) -/

theorem hm_lt (h : Half) : h.hm < 4 := Nat.mod_lt _ (by decide)

/-- A field of one bit is that bit. -/
theorem bit_of_field {x : W64} {i : Nat} {b : Bool} (h : w64Get x i 1 = b.toNat) : x.getLsbD i = b := by
  rw [bit_of, show x.toNat / 2 ^ i % 2 = b.toNat from h]
  cases b <;> rfl

/-- The fields of CAUSE (R277), for a word that is their sum. -/
theorem cause_fields {code nested nores hm half detail : Nat} (h1 : code < 256) (h2 : nested < 2) (h3 : nores < 2) (h4 : hm < 4)
    (h5 : half < 2) (h6 : detail < 256) :
    let x := BitVec.ofNat 64 (code + nested * 2 ^ 8 + nores * 2 ^ 9 + hm * 2 ^ 10 + half * 2 ^ 12 + detail * 2 ^ 16)
    w64Get x 0 8 = code ∧ w64Get x 8 1 = nested ∧ w64Get x 9 1 = nores ∧ w64Get x 10 2 = hm ∧ w64Get x 12 1 = half ∧
      w64Get x 16 8 = detail ∧ w64Get x 24 40 = 0 := by
  unfold w64Get
  simp only [BitVec.toNat_ofNat]
  refine ⟨?_, ?_, ?_, ?_, ?_, ?_, ?_⟩ <;> omega

theorem toNat_mul_eq_ite (b : Bool) (n : Nat) : b.toNat * n = if b then n else 0 := by cases b <;> simp

/-- CAUSE as a trap writes it holds the mode of its half, a code and a DETAIL, and says whether the half was in a user handler, whether
RESUME is barred and whether it is the spare half. -/
theorem causeWord_fields (h : Half) (split spare nores : Bool) {code detail : Nat} (hc : code < 256) (hd : detail < 256) :
    let x := causeWord h split spare code detail nores
    w64Get x 0 8 = code ∧ x.getLsbD 8 = decide (h.hm = 1) ∧ x.getLsbD 9 = nores ∧ w64Get x 10 2 = h.hm ∧
      x.getLsbD 12 = (split && spare) ∧ w64Get x 16 8 = detail ∧ w64Get x 24 40 = 0 := by
  have sum : causeWord h split spare code detail nores = BitVec.ofNat 64 (code + (decide (h.hm = 1)).toNat * 2 ^ 8 +
      nores.toNat * 2 ^ 9 + h.hm * 2 ^ 10 + (split && spare).toNat * 2 ^ 12 + detail * 2 ^ 16) := by
    simp only [causeWord, Nat.mod_eq_of_lt hc, Nat.mod_eq_of_lt hd, toNat_mul_eq_ite, decide_eq_true_eq, Bool.and_eq_true]
  obtain ⟨field0, field8, field9, field10, field12, field16, field24⟩ := cause_fields (nested := (decide (h.hm = 1)).toNat)
    (nores := nores.toNat) (half := (split && spare).toNat) hc (Bool.toNat_lt _) (Bool.toNat_lt _) (hm_lt h) (Bool.toNat_lt _) hd
  rw [← sum] at field0 field8 field9 field10 field12 field16 field24
  exact ⟨field0, bit_of_field field8, bit_of_field field9, field10, bit_of_field field12, field16, field24⟩

/-- TRAPX as a trap writes it (R279). -/
theorem trapxWord_fields (h : Half) {e : Cause} {site : TrapSite} (hs : e.slot < 8) (hl : e.lane < 256) (hk : site.kreg < 8) :
    let x := trapxWord h e site
    w64Get x 0 16 = h.mask.toNat ∧ w64Get x 16 3 = e.slot ∧ w64Get x 32 3 = site.kreg ∧ w64Get x 35 7 = site.resid.toNat ∧
      w64Get x 56 8 = e.lane := by
  have fields := trapx_bits h.mask.isLt hs hk site.resid.isLt hl
  simpa only [trapxWord, Nat.mod_eq_of_lt hs, Nat.mod_eq_of_lt hl, Nat.mod_eq_of_lt hk] using fields

/-- Writing HM leaves the other bits of CAUSE. -/
theorem setHm_bit (h : Half) (m : Nat) {i : Nat} (low : i ≠ 10) (high : i ≠ 11) : (h.setHm m).cause.getLsbD i = h.cause.getLsbD i := by
  unfold Half.setHm
  rw [put_bit _ _ _ _ _ (by decide), if_neg (by omega)]

/-! ## Where a trap goes (R280) -/

/-- The user handler takes a cause: the half is in no handler, TDELEG delegates the code, which is not WATCHDOG's, and TVEC is
enabled. -/
abbrev Delegated (h : Half) (code : Nat) : Prop := h.hm = 0 ∧ h.tdeleg.getLsbD code = true ∧ code ≠ 0x0D ∧ vecEn h.tvec = true

theorem handlerOf_user {h : Half} {code : Nat} (user : Delegated h code) : handlerOf h code = some (1, vecAddr h.tvec) := by
  unfold handlerOf
  rw [if_neg (by rw [user.1]; decide), if_pos user]
theorem handlerOf_supervisor {h : Half} {code : Nat} (outside : h.hm ≠ 2) (other : ¬ Delegated h code) (en : vecEn h.stvec = true) :
    handlerOf h code = some (2, vecAddr h.stvec) := by
  unfold handlerOf
  rw [if_neg outside, if_neg other, if_pos en]
theorem handlerOf_unclaimed {h : Half} {code : Nat} (nowhere : h.hm = 2 ∨ (¬ Delegated h code ∧ vecEn h.stvec = false)) :
    handlerOf h code = none := by
  unfold handlerOf
  rcases nowhere with inside | ⟨other, off⟩
  · rw [if_pos inside]
  · rw [if_neg other, if_neg (show ¬ vecEn h.stvec = true by rw [off]; decide), ite_self]

/-- A whole context with its trap state written. -/
def trapWritten (k : Ctx) (e : Cause) (nores : Bool) (site : TrapSite) : Ctx :=
  { k with main := { k.main.writeTrap false false e nores site with hold := none } }
@[simp] theorem trapWritten_spare (k : Ctx) (e : Cause) (nores : Bool) (site : TrapSite) :
    (trapWritten k e nores site).spare = k.spare := rfl

section
variable {s : Chip} {d c x : Nat} {k : Ctx} (hk : s.ctx? d c x = some k) (whole : k.spare = none)
include hk whole

theorem takeTrap_enters {e : Cause} {m : Nat} {vec : W64} (goes : handlerOf k.main e.code = some (m, vec)) (nores : Bool)
    (site : TrapSite) : takeTrap s ⟨d, c, x, false⟩ e nores site =
      s.setCtx d c x (enterHandler (trapWritten k e nores site) false m vec) := by
  unfold takeTrap
  rw [show s.ctxOf? ⟨d, c, x, false⟩ = some k from hk]
  dsimp only
  rw [show k.half false = k.main from rfl, goes, whole]
  rfl

theorem takeTrap_ends {e : Cause} (goes : handlerOf k.main e.code = none) (nores : Bool) (site : TrapSite) :
    takeTrap s ⟨d, c, x, false⟩ e nores site =
      unclaimed (s.setCtx d c x (trapWritten k e nores site)) ⟨d, c, x, false⟩ e.code := by
  unfold takeTrap
  rw [show s.ctxOf? ⟨d, c, x, false⟩ = some k from hk]
  dsimp only
  rw [show k.half false = k.main from rfl, goes, whole]
  rfl
end

/-- A context whose main half enters a handler: what is left of a bundle in progress is given up, and the landings are rebased (log 27). -/
theorem enterHandler_main (k : Ctx) (m : Nat) (vec : W64) : ∃ ls, enterHandler k false m vec = { k with
    main := { k.main.setHm m with pc := vec, hcount := 0, resid := none, resuming := none, hold := none }, landings := ls } := ⟨_, rfl⟩
@[simp] theorem enterHandler_spare (k : Ctx) (m : Nat) (vec : W64) : (enterHandler k false m vec).spare = k.spare := rfl

/-! ## RESUME (R282) -/

/-- A context that has returned from a handler: the bundle at TRAPA is due with the syllables r. -/
def resumed (k : Ctx) (r : BitVec 7) : Ctx :=
  { k with main := { k.main.setHm 0 with
      trapx := w64Put k.main.trapx 35 7 r.toNat, pc := k.main.trapa &&& ~~~ 31, resid := some r, resuming := none } }

/-- The syllables that are left when a RESUME takes those of m, but for literals, out of RESID. -/
def residLeft (s : Chip) (w : HalfId) (h : Half) (m : BitVec 7) : BitVec 7 :=
  h.trapx.extractLsb' 35 7 &&& ~~~ (m &&& ~~~ litsAt s w h (h.trapa &&& ~~~ 31))

section
variable {s : Chip} {d c x : Nat} {k : Ctx} (hk : s.ctx? d c x = some k)
include hk

theorem resume_returns (allowed : k.main.cause.getLsbD 9 = false) (m : BitVec 7) : resume s ⟨d, c, x, false⟩ m =
    s.setCtx d c x (resumed k (residLeft s ⟨d, c, x, false⟩ k.main m)) := by
  unfold resume
  rw [show s.ctxOf? ⟨d, c, x, false⟩ = some k from hk]
  exact if_neg (by rw [show k.half false = k.main from rfl, allowed]; decide)

theorem resume_barred (barred : k.main.cause.getLsbD 9 = true) (m : BitVec 7) : resume s ⟨d, c, x, false⟩ m =
    unclaimed s ⟨d, c, x, false⟩ (w64Get k.main.cause 0 8) := by
  unfold resume
  rw [show s.ctxOf? ⟨d, c, x, false⟩ = some k from hk]
  exact if_pos barred
end

theorem resumed_resid (k : Ctx) (r : BitVec 7) : (resumed k r).main.trapx.extractLsb' 35 7 = r := extract_put _ _ _ _ (by decide)

theorem resumed_trapx_bit (k : Ctx) (r : BitVec 7) {i : Nat} (outside : i < 35 ∨ 42 ≤ i) :
    (resumed k r).main.trapx.getLsbD i = k.main.trapx.getLsbD i :=
  (put_bit _ _ _ _ _ (by decide)).trans (if_neg (by omega))

/-- Settles O58: the words of the trap state by their fields (causeWord_fields, trapxWord_fields), the way by handlerOf, the entered
context by enterHandler_main; RESUME by resume_returns and resume_barred. -/
theorem trapEntryAndResume : Obligations.TrapEntryAndResume := by
  refine ⟨fun s d c x k e nores site hk whole hcode hdetail hslot hlane hkreg => ⟨?state, fun m vec way => ?enters, fun way => ?ends⟩,
    fun s d c x k m hk whole => ⟨fun allowed => ?returns, fun barred => resume_barred hk barred m⟩⟩
  case state =>
    obtain ⟨code, nested, noResume, mode, spare, detail, rest⟩ := causeWord_fields k.main false false nores hcode hdetail
    exact ⟨code, nested, noResume, mode, spare, detail, rest, rfl, rfl, rfl, trapxWord_fields k.main hslot hlane hkreg⟩
  case enters =>
    obtain ⟨goes, small⟩ : handlerOf k.main e.code = some (m, vec) ∧ m < 4 := by
      rcases way with ⟨-, user, rfl, rfl⟩ | ⟨outside, other, en, rfl, rfl⟩
      · exact ⟨handlerOf_user user, by decide⟩
      · exact ⟨handlerOf_supervisor outside other en, by decide⟩
    obtain ⟨ls, entered⟩ := enterHandler_main (trapWritten k e nores site) m vec
    refine ⟨_, ls, takeTrap_enters hk whole goes nores site, ?_⟩
    rw [entered]
    refine ⟨setHm_hm (trapWritten k e nores site).main m small,
      fun i low high => setHm_bit (trapWritten k e nores site).main m low high, ?_⟩
    simp only [trapWritten, Half.setHm, Half.writeTrap]
  case ends => exact takeTrap_ends hk whole (handlerOf_unclaimed way) nores site
  case returns =>
    refine ⟨_, resume_returns hk allowed m, setHm_hm _ 0 (by decide), resumed_resid .., fun i outside => resumed_trapx_bit k _ outside,
      fun i low high => setHm_bit k.main 0 low high, ?_⟩
    rw [resumed_resid]
    rfl

/-! ## The POISON boundary trap (R285) -/

/-- A context whose POISON is about to be taken: neither it nor a wait of its main half stands any more (log 122). -/
def poisonTaken (k : Ctx) : Ctx :=
  { k with main := { k.main with
      poison := none, block := none, retryAt := if k.main.block.isSome then none else k.main.retryAt } }
@[simp] theorem poisonTaken_spare (k : Ctx) : (poisonTaken k).spare = k.spare := rfl

/-- The chip on which POISON is taken in the main half of a context. -/
def poisonReady (s : Chip) (w : HalfId) (k : Ctx) : Chip :=
  let s := s.modHalf w fun h => { h with poison := none }
  if k.main.block.isSome then unwait s w k else s

theorem poisonReady_ctx {s : Chip} {d c x : Nat} {k : Ctx} (hk : s.ctx? d c x = some k) (whole : k.spare = none) :
    (poisonReady s ⟨d, c, x, false⟩ k).ctx? d c x = some (poisonTaken k) := by
  unfold poisonReady poisonTaken
  rw [modHalf_some (w := ⟨d, c, x, false⟩) _ hk]
  dsimp only
  split
  case isTrue blocked =>
    obtain ⟨z, -, waits⟩ := unwait_cores (ctx_setCtx_same s d c x (k.setHalf false { k.main with poison := none })) whole
    rw [show k.half false = k.main from rfl, ctx_of_cores waits, ctx_setCtx_same]
    rfl
  case isFalse free =>
    have unblocked : k.main.block = none := Option.not_isSome_iff_eq_none.1 free
    rw [ctx_setCtx_same, ← unblocked]
    rfl

/-- A half that takes POISON of the granule at v at its next boundary (R285): WATCHDOG, which comes first, does not wait, and no
answer, landing or join holds the half. -/
structure PoisonDue (h : Half) (v : W64) : Prop where
  poison : h.poison = some v
  hold : h.hold = none
  wdog : h.wdog = false
  thawed : h.frozenAt = none
  here : h.arrived = false
  alive : h.ended = false

section
variable {s : Chip} {d c x : Nat} {k : Ctx} {v : W64} (hk : s.ctx? d c x = some k) (whole : k.spare = none) (due : PoisonDue k.main v)
include hk whole due

theorem boundaryTrap_poison : ∃ site, boundaryTrap s ⟨d, c, x, false⟩ =
    some (takeTrap (poisonReady s ⟨d, c, x, false⟩ k) ⟨d, c, x, false⟩ ⟨0x0F, 0, v, 0, 0⟩ true site) := by
  refine ⟨boundarySite (poisonReady s ⟨d, c, x, false⟩ k) ⟨d, c, x, false⟩ k.main, ?_⟩
  unfold boundaryTrap
  rw [show s.ctxOf? ⟨d, c, x, false⟩ = some k from hk]
  dsimp only
  rw [show k.half false = k.main from rfl, whole, due.hold, due.wdog, due.poison]
  rfl

/-- The boundary of a bound context with POISON due in its main half enters the half's handler for POISON, and then the core chooses
if it issues nothing. -/
theorem contextBoundary_poison {l : Launch} {m : Nat} {vec : W64} (hl : s.launchOf k.task = some l) (unkilled : l.killed = false)
    (bound : k.readyAt = 0) (goes : handlerOf k.main 0x0F = some (m, vec)) : ∃ site, (contextBoundary s d c x).ctx? d c x =
      some (enterHandler (trapWritten (poisonTaken k) ⟨0x0F, 0, v, 0, 0⟩ true site) false m vec) := by
  obtain ⟨site, trap⟩ := boundaryTrap_poison hk whole due
  rw [takeTrap_enters (e := ⟨0x0F, 0, v, 0, 0⟩) (poisonReady_ctx hk whole) whole goes] at trap
  refine ⟨site, ?_⟩
  unfold contextBoundary
  rw [hk]
  dsimp only
  rw [hl]
  dsimp only
  rw [if_neg (by simp [bound, unkilled]), (kp_idle ..).ctx]
  simp only [hk]
  rw [if_neg (by simp [Ctx.half, due.hold, due.thawed, due.here, due.alive]), trap, Option.getD_some, ctx_setCtx_same]
  dsimp only
  rw [if_pos (by simp [whole])]
  exact ctx_setCtx_same ..
end

/-! ## The end of an array instruction (R371, R370, 10 R271) -/

/-- The flags of one array instruction of a whole context enter its FSTAT. -/
theorem arrayFlags_one {r : ArrayRun} {k : Ctx} (whole : k.spare = none) (task : k.task = r.task) :
    arrayFlags [r] r.ctx k = { k with main := k.main.orFstat r.flags } := by
  unfold arrayFlags
  have main : (r.spare && k.spare.isSome) = false := by rw [whole]; exact Bool.and_false _
  rw [List.filter_cons_of_pos (by simp [task]), List.filter_nil, List.foldl_cons, List.foldl_nil, main]
  rfl

/-- The chip with an array instruction of a core out of its list and its flags in its context's FSTAT. -/
def arrayOut (s : Chip) (d c k : Nat) (r : ArrayRun) : Chip :=
  (s.modCore d c fun co => { co with arrays := co.arrays.eraseIdx k }).modCtx d c r.ctx (arrayFlags [r] r.ctx)

theorem arrayEnd_due {s : Chip} {d c k : Nat} {r : ArrayRun} (running : (s.core d c).arrays[k]? = some r) (ended : r.endAt ≤ s.now) :
    arrayEnd s d c k = unmark (settleLeft (arrayOut s d c k r) d c) d c := by
  unfold arrayEnd
  rw [running]
  exact if_neg (Nat.not_lt.2 ended)

section
variable {s : Chip} {d c k : Nat} {r : ArrayRun} {x : Ctx} (hx : s.ctx? d c r.ctx = some x) (whole : x.spare = none)
  (task : x.task = r.task)
include hx whole task

theorem arrayOut_eq : arrayOut s d c k r = (s.modCore d c fun co => { co with arrays := co.arrays.eraseIdx k }).setCtx d c r.ctx
    { x with main := x.main.orFstat r.flags } := by
  have hx' : (s.modCore d c fun co => { co with arrays := co.arrays.eraseIdx k }).ctx? d c r.ctx = some x := by
    unfold Chip.ctx?; rw [modCore_same]; exact hx
  unfold arrayOut
  rw [modCtx_some _ hx', arrayFlags_one whole task]

theorem arrayOut_ctx : (arrayOut s d c k r).ctx? d c r.ctx = some { x with main := x.main.orFstat r.flags } := by
  rw [arrayOut_eq hx whole task, ctx_setCtx_same]
theorem arrayOut_mem : (arrayOut s d c k r).mem = s.mem := by
  rw [arrayOut_eq hx whole task]; rfl
theorem arrayOut_arrays : ((arrayOut s d c k r).core d c).arrays = (s.core d c).arrays.eraseIdx k := by
  rw [arrayOut_eq hx whole task]
  unfold Chip.setCtx
  dsimp only
  rw [core_setCore_same, modCore_same]
end

/-- What the end of a due array instruction leaves: memory, the other array instructions, and the context with the flags in FSTAT, with
the data of what stood behind the marks if it was the last, and perhaps thawed. -/
theorem arrayEnd_spec {s : Chip} {d c k : Nat} {r : ArrayRun} {x : Ctx} (running : (s.core d c).arrays[k]? = some r)
    (ended : r.endAt ≤ s.now) (hx : s.ctx? d c r.ctx = some x) (whole : x.spare = none) (task : x.task = r.task) :
    (arrayEnd s d c k).mem = s.mem ∧ ((arrayEnd s d c k).core d c).arrays = (s.core d c).arrays.eraseIdx k ∧
    let come : List Landing := if (s.core d c).arrays.eraseIdx k = [] then x.landings.map (fun (l : Landing) => { l with behind := false })
      else x.landings
    ∃ x', (arrayEnd s d c k).ctx? d c r.ctx = some x' ∧ Thawed { x with main := x.main.orFstat r.flags, landings := come } x' := by
  obtain ⟨-, mem, keeps, arrays⟩ := settleLeft_keeps (arrayOut s d c k r) d c
  have out := (keeps.ctx d c r.ctx).trans (arrayOut_ctx hx whole task)
  have left := arrays.trans (arrayOut_arrays hx whole task)
  obtain ⟨mem', arrays', thawed⟩ := unmark_spec _ d c r.ctx _ out
  rw [left] at thawed
  rw [arrayEnd_due running ended]
  exact ⟨mem'.trans (mem.trans (arrayOut_mem hx whole task)), arrays'.trans left, thawed⟩

/-- Settles O54: the boundary enters the supervisor handler from the context without its POISON and its wait (contextBoundary_poison),
and arrayEnd_spec says what the end of an array instruction leaves. -/
theorem boundaryTrapsAndArrays : Obligations.BoundaryTrapsAndArrays := by
  refine ⟨?poison, ?array⟩
  case poison =>
    intro s d c x k l v hp hk hl unkilled bound whole hold thawed here alive wdog poison normal undelegated en
    have goes : handlerOf k.main 0x0F = some (2, vecAddr k.main.stvec) :=
      handlerOf_supervisor (by omega) (fun user => by rw [user.2.1] at undelegated; cases undelegated) en
    obtain ⟨site, entered⟩ := contextBoundary_poison hk whole ⟨poison, hold, wdog, thawed, here, alive⟩ hl unkilled bound goes
    obtain ⟨hs, hc, hq, ht, hv, hk, hh, hf, hpc, hpoison, htrapv, htrapa⟩ := enter_regs (poisonTaken k) (poisonTaken k).main
      ⟨0x0F, 0, v, 0, 0⟩ true site 2 (vecAddr k.main.stvec)
    obtain ⟨-, -, noResume, -⟩ := causeWord_fields (poisonTaken k).main false false true (code := 0x0F) (detail := 0)
      (by decide) (by decide)
    exact ⟨_, _, exec_asyncPoisonTrap hp d c x, entered, hpoison, rfl, hpc, trapped_hm (poisonTaken k) ⟨0x0F, 0, v, 0, 0⟩ true site,
      trapped_code (poisonTaken k) ⟨0x0F, 0, v, 0, 0⟩ true site, (setHm_bit _ 2 (by decide) (by decide)).trans noResume, htrapv, htrapa,
      hs, hc, hq, ht, hv, hk, hh, hf⟩
  case array =>
    intro s d c k r x hp running ended hx task whole
    obtain ⟨mem, arrays, x', hx', landings, main, hv, hk, hh, hf⟩ := arrayEnd_spec running ended hx whole task
    have fstat : x'.main.fstat = x.main.fstat ||| r.flags.setWidth 64 := by rw [main]; rfl
    refine ⟨_, x', exec_arrayInstructionEnd hp d c k, arrays, hx', fstat, ?_, hv, hk, hh, hf, mem, landings⟩
    rw [fstat]
    exact main

end Sys2Proof.Proofs.Traps
end

section
/-! PROOFS. The encoding of instructions (spec/12_encoding.md): the round trip of Irnov's words, SYSW of the system registers, the
hardwired registers, words from the manual. -/

namespace Sys2Proof.Proofs.Encoding
open Sys2Proof.Machine Sys2Proof.Laws Sys2Proof.Irnov

/-! ## The word of an instruction, in its slot (12 R298, R307) -/

theorem bind_must_some {α : Type} {o : Option α} {p : α → Bool} {x : α} :
    (do let w ← o; must (p w) w) = some x ↔ o = some x ∧ p x = true := by
  simp only [bind, Option.bind_eq_some_iff, must_some]
  constructor
  · rintro ⟨w, ho, hp, rfl⟩; exact ⟨ho, hp⟩
  · rintro ⟨ho, hp⟩; exact ⟨x, ho, hp, rfl⟩

section
variable {env : DecEnv} {n : Nat} {w : W32}

theorem encodeSlot_s {i : SIns} : encodeSlot env n (.s i) = some w ↔
    encS env i = some w ∧ (n = 2 ∨ n = 1 ∧ s1Only (opcode w) = false) :=
  bind_must_some.trans (and_congr_right' (by simp))
theorem encodeSlot_v {i : VIns} : encodeSlot env n (.v i) = some w ↔ encV env i = some w ∧ (n = 3 ∨ n = 4) :=
  bind_must_some.trans (and_congr_right' (by simp))
theorem encodeSlot_m {i : MIns} : encodeSlot env n (.m i) = some w ↔ encM env i = some w ∧ n = 5 :=
  bind_must_some.trans (and_congr_right' (by simp))
theorem encodeSlot_x {i : XIns} : encodeSlot env n (.x i) = some w ↔ encX i = some w ∧ n = 6 :=
  bind_must_some.trans (and_congr_right' (by simp))
theorem encodeSlot_d {i : DIns} : encodeSlot env n (.d i) = some w ↔ encD env i = some w ∧ n = 7 :=
  bind_must_some.trans (and_congr_right' (by simp))

/-- The decoder reads the encoder's word, by the laws of the five slot classes. -/
theorem decWord_encodeSlot {i : Ins} (h : encodeSlot env n i = some w) : decWord env n w = some i := by
  cases i with
  | s i =>
    obtain ⟨he, rfl | ⟨rfl, h1⟩⟩ := encodeSlot_s.mp h
    · simp [decWord, decS_encS he]
    · simp [decWord, decS_encS he, h1]
  | v i => obtain ⟨he, rfl | rfl⟩ := encodeSlot_v.mp h <;> simp [decWord, decV_encV he]
  | m i => obtain ⟨he, rfl⟩ := encodeSlot_m.mp h; simp [decWord, decM_encM he]
  | x i => obtain ⟨he, rfl⟩ := encodeSlot_x.mp h; simp [decWord, decX_encX he]
  | d i => obtain ⟨he, rfl⟩ := encodeSlot_d.mp h; simp [decWord, decD_encD he]

/-- The instruction of a word in syllable n is of the class that the syllable holds, and in slot 1 outside the S1-only group. -/
inductive OfSlot (env : DecEnv) (w : W32) : Nat → Ins → Prop
  | s1 {i : SIns} : decS env w = some i → s1Only (opcode w) = false → OfSlot env w 1 (.s i)
  | s2 {i : SIns} : decS env w = some i → OfSlot env w 2 (.s i)
  | v3 {i : VIns} : decV env w = some i → OfSlot env w 3 (.v i)
  | v4 {i : VIns} : decV env w = some i → OfSlot env w 4 (.v i)
  | m {i : MIns} : decM env w = some i → OfSlot env w 5 (.m i)
  | x {i : XIns} : decX w = some i → OfSlot env w 6 (.x i)
  | d {i : DIns} : decD env w = some i → OfSlot env w 7 (.d i)

theorem decWord_some {i : Ins} (h1 : 1 ≤ n) (h7 : n ≤ 7) (h : decWord env n w = some i) : OfSlot env w n i := by
  interval_cases n
  · rw [decWord] at h
    split at h
    · cases h
    · next group => obtain ⟨x, hx, rfl⟩ := Option.map_eq_some_iff.mp h; exact .s1 hx (Bool.eq_false_iff.mpr group)
  · obtain ⟨x, hx, rfl⟩ := Option.map_eq_some_iff.mp h; exact .s2 hx
  · obtain ⟨x, hx, rfl⟩ := Option.map_eq_some_iff.mp h; exact .v3 hx
  · obtain ⟨x, hx, rfl⟩ := Option.map_eq_some_iff.mp h; exact .v4 hx
  · obtain ⟨x, hx, rfl⟩ := Option.map_eq_some_iff.mp h; exact .m hx
  · obtain ⟨x, hx, rfl⟩ := Option.map_eq_some_iff.mp h; exact .x hx
  · obtain ⟨x, hx, rfl⟩ := Option.map_eq_some_iff.mp h; exact .d hx

theorem OfSlot.assigned {i : Ins} (h : OfSlot env w n i) : slotAssigned n (opcode w) = true := by
  cases h with
  | s1 h _ | s2 h => exact sAssigned_of_decS h
  | v3 h | v4 h => exact vAssigned_of_decV h
  | m h => exact mAssigned_of_decM h
  | x h => exact xAssigned_of_decX h
  | d h => exact dAssigned_of_decD h

/-- What a word decodes to has a word in the same syllable: a word of slot 1 decodes outside the S1-only group, and so does the
encoder's word of the same instruction. -/
theorem OfSlot.encodes {i : Ins} (h : OfSlot env w n i) : ∃ x, encodeSlot env n i = some x := by
  cases h with
  | s1 h group =>
    obtain ⟨x, hx⟩ := encS_decS h
    have same : s1Only (opcode x) = s1Only (opcode w) := (s1Only_decS (decS_encS hx)).trans (s1Only_decS h).symm
    exact ⟨x, encodeSlot_s.mpr ⟨hx, .inr ⟨rfl, same.trans group⟩⟩⟩
  | s2 h => obtain ⟨x, hx⟩ := encS_decS h; exact ⟨x, encodeSlot_s.mpr ⟨hx, .inl rfl⟩⟩
  | v3 h => obtain ⟨x, hx⟩ := encV_decV h; exact ⟨x, encodeSlot_v.mpr ⟨hx, .inl rfl⟩⟩
  | v4 h => obtain ⟨x, hx⟩ := encV_decV h; exact ⟨x, encodeSlot_v.mpr ⟨hx, .inr rfl⟩⟩
  | m h => obtain ⟨x, hx⟩ := encM_decM h; exact ⟨x, encodeSlot_m.mpr ⟨hx, rfl⟩⟩
  | x h => obtain ⟨x, hx⟩ := encX_decX h; exact ⟨x, encodeSlot_x.mpr ⟨hx, rfl⟩⟩
  | d h => obtain ⟨x, hx⟩ := encD_decD h; exact ⟨x, encodeSlot_d.mpr ⟨hx, rfl⟩⟩

/-- An assigned opcode leaves UNIMPL out: the syllable decodes as its word does. -/
theorem decodeSyllable_of_decWord {i : Ins} (h1 : 1 ≤ n) (h7 : n ≤ 7) (h : decWord env n w = some i) :
    decodeSyllable env n w = .ok i := by
  rw [decodeSyllable, (decWord_some h1 h7 h).assigned, h]; rfl

end

/-- Settles O2, from the laws of the five classes: encoder then decoder (decWord_encodeSlot), and decoder then encoder
(OfSlot.encodes). -/
theorem irnovRoundTrip : Obligations.IrnovRoundTrip := by
  intro env n i h1 h7
  have reads : ∀ w, encodeSlot env n i = some w → decodeSyllable env n w = .ok i := fun w h =>
    decodeSyllable_of_decWord h1 h7 (decWord_encodeSlot h)
  exact ⟨reads, reads _, fun w h => (decWord_some h1 h7 (decodeSyllable_ok h)).encodes⟩

/-! ## SYSW (12 R313): its bundle retires -/

theorem sysDenied_of_level {r level : Nat} (h : r < 0x100 ∨ level = 7) (m : Half) : sysDenied r (m.supervisor level) = false := by
  rcases h with low | rfl
  · simp [sysDenied, low]
  · simp [sysDenied, Half.supervisor]

/-- The entry of an address space that a change has reached. -/
theorem modSpace_space (s : Chip) (a : Nat) (f : ASpace → ASpace) : (modSpace s a f).space a = f (s.space a) := getD_put_same

/-- The compute part as the bundle of a SYSW has retired and counted, its register not yet written. -/
def countedSysw (y : Chip) (d c x : Nat) (k : Ctx) : Chip :=
  countBundle (y.setCtx d c x (k.retired .none y.now)) ⟨d, c, x, false⟩ k.task

theorem countedSysw_ctx (y : Chip) (d c x : Nat) (k : Ctx) : (countedSysw y d c x k).ctx? d c x = some (k.retired .none y.now) :=
  count_ctx ..

/-- SYSW names no general register, so its context retires as that of a bundle without writes, and then the register is written. -/
theorem retire_sysw {y : Chip} {d c x r : Nat} {k : Ctx} {b : Bundle} {a : Src} {locs : List Loc} (hk : y.ctx? d c x = some k)
    (normal : k.main.hm = 0) (free : k.main.hold = none) :
    retire y ⟨d, c, x, false⟩ b k ⟨k, locs, [(2, .none)], some (.sysw r a), none, none⟩ none false =
      joinAndYield (sysWrite (countedSysw y d c x k) ⟨d, c, x, false⟩ r (opv k.main a)) ⟨d, c, x, false⟩ b k := by
  have outside : ((k.half false).hm == 0) = true := by simp [Ctx.half, normal]
  have left : (controlOut k (k.retireOne false true y.now [] 0 false false) false k.main.pc (some (.sysw r a))).1 =
      k.retired .none y.now := retired_eq free .none y.now
  have writes : Issue.writes ⟨k, locs, [(2, .none)], some (.sysw r a), none, none⟩ [] = [] := rfl
  have flags : Issue.flags ⟨k, locs, [(2, .none)], some (.sysw r a), none, none⟩ 0 = 0 := by
    simp [Issue.flags, slotFlags, SlotOut.none]
  have alloc : Issue.unalloc ⟨k, locs, [(2, .none)], some (.sysw r a), none, none⟩ = false := rfl
  unfold retire
  simp only [performM, outside, performCtl, writes, flags, alloc]
  rw [modCtx_some _ hk, modCtx_set, count_modCtx]
  exact congrArg (fun k' => joinAndYield (sysWrite (countBundle (y.setCtx d c x k') _ _) _ _ _) _ _ _) left

/-- A fetched bundle of one SYSW that is not denied retires: it waits for no answer, nothing holds it, and it raises no flag. -/
theorem issueFetched_sysw {s : State} {d c x r : Nat} {k : Ctx} {cr : Crew} {b : Bundle} {y : Chip} {a : Src}
    (h : Issues s d c x 2 k cr b y) (hd : ∀ bars nt, decodeSlot ⟨b, k.budget, bars, nt⟩ 2 = .ok (.s (.sysw r a)))
    (allowed : sysDenied r (k.main.supervisor (launchLevel y k.task)) = false) :
    issueFetched y ⟨d, c, x, false⟩ b =
      joinAndYield (sysWrite (countedSysw y d c x k) ⟨d, c, x, false⟩ r (opv k.main a)) ⟨d, c, x, false⟩ b k := by
  obtain ⟨hk, hcr⟩ := h.kept
  obtain ⟨free, -, -, -, resid⟩ := h.free
  obtain ⟨-, -, -, hbad⟩ := header_bits h.slot.1 h.slot.2 h.header
  have hkk : y.ctxOf? ⟨d, c, x, false⟩ = some k := hk
  have hcc : (y.coreOf ⟨d, c, x, false⟩).crews.find? k.task = some cr := hcr
  have hhalf : k.half false = k.main := rfl
  have effective : b.effective k.main = b.pres := by unfold Bundle.effective; rw [resid]; exact pres_and b
  have issuing : b.issuing b.pres = [2] := by
    have sole := sole_syls h.slot.1 h.slot.2 h.header
    rwa [show b.pres &&& ((127 : BitVec 7) ||| b.lit) = b.pres from pres_and b] at sole
  have wake : wakeTaken k.main ⟨b, k.budget, cr.bars.length, cr.nt⟩ [2] = none := by simp [wakeTaken, waitsAt]
  unfold issueFetched
  simp only [hkk, hcc, Option.getD_some, hhalf, hbad, effective, issuing, wake, free, Bool.false_eq_true, if_false, Option.bind_none]
  rw [show (Option.orElse (none : Option Answer) fun _ => none) = none from rfl, sysw_syl hd allowed]
  have held : issueHeld y ⟨d, c, x, false⟩ k
      ⟨k, insWrites (.s (.sysw r a)), [(2, .none)], some (.sysw r a), none, none⟩ = false := rfl
  have quiet : fpTrap k.main [(2, .none)] = none := by simp [fpTrap, SlotOut.none]
  simp only [issueOk, held, Bool.false_eq_true, if_false, hhalf, quiet, issueGo]
  exact retire_sysw hk h.normal free

/-- The compute part once the bundle of a SYSW has retired with its register written and k' as its context; the core's next accesses
are later ones. -/
def afterSysw (y : Chip) (d c x r : Nat) (k : Ctx) (v : W64) (k' : Ctx) : Chip :=
  ((sysWrite (countedSysw y d c x k) ⟨d, c, x, false⟩ r v).setCtx d c x k').modCore d c fun co => { co with seq := co.seq + 1 }

section
variable {y : Chip} {d c x r : Nat} {k k' : Ctx} {v : W64}

theorem afterSysw_ctx : (afterSysw y d c x r k v k').ctx? d c x = some k' := by
  unfold afterSysw Chip.ctx?; rw [modCore_same]; exact ctx_setCtx_same ..
theorem afterSysw_space {a : Nat} {f : ASpace → ASpace}
    (h : sysWrite (countedSysw y d c x k) ⟨d, c, x, false⟩ r v = modSpace (countedSysw y d c x k) a f) :
    (afterSysw y d c x r k v k').space a = f (y.space a) :=
  (congrArg (Chip.space · a) h).trans (modSpace_space ..)
theorem afterSysw_watchdog : ((afterSysw y d c x r k v k').core d c).wdLimit =
      ((sysWrite (countedSysw y d c x k) ⟨d, c, x, false⟩ r v).core d c).wdLimit ∧
    ((afterSysw y d c x r k v k').core d c).wdCount =
      ((sysWrite (countedSysw y d c x k) ⟨d, c, x, false⟩ r v).core d c).wdCount := by
  unfold afterSysw Chip.setCtx; rw [modCore_same, core_setCore_same]; exact ⟨rfl, rfl⟩

end

theorem reseed_gens {k : Ctx} (whole : k.spare = none) (v : W64) (e : Fin 16) :
    (reseed k false v).gens[e] = seedOf (v.setWidth 32) e.val := by
  simp [reseed, whole]

theorem sysWrite_srseed {z : Chip} {w : HalfId} {k : Ctx} (v : W64) (h : z.ctxOf? w = some k) :
    sysWrite z w 0x005 v = z.setCtx w.die w.core w.ctx (reseed k w.spare v) := by
  unfold sysWrite; rw [h]; rfl

/-- A bundle of one SYSW that is not denied issues: its register is written, and its context goes on with the next bundle. -/
theorem exec_bundleIssue_sysw {s : State} {d c x r : Nat} {k : Ctx} {cr : Crew} {b : Bundle} {y : Chip} {a : Src}
    (h : Issues s d c x 2 k cr b y) (hd : ∀ bars nt, decodeSlot ⟨b, k.budget, bars, nt⟩ 2 = .ok (.s (.sysw r a)))
    (allowed : sysDenied r (k.main.supervisor (launchLevel y k.task)) = false) :
    ∃ k', (sysWrite (countedSysw y d c x k) ⟨d, c, x, false⟩ r (opv k.main a)).ctx? d c x = some k' ∧ k'.main.pc = k.main.pc + 32 ∧
      (sysWrite (countedSysw y d c x k) ⟨d, c, x, false⟩ r (opv k.main a)).mem = y.mem ∧
      exec (.bundleIssue d c 0) s = .next { s with chip := afterSysw y d c x r k (opv k.main a) k' } := by
  have whole : (k.retired .none y.now).spare = none := (apply_spare h.whole []).1
  obtain ⟨k', ctx, whole', pc, mem⟩ := sysw_ctx (r := r) (v := opv k.main a) (countedSysw_ctx y d c x k) whole
  refine ⟨k', ctx, pc (.inr trivial), mem, ?_⟩
  rw [issue_attempt h.toAttempts, issueFetched_sysw h hd allowed,
    join_end (header_bits h.slot.1 h.slot.2 h.header).2.2.1 ctx whole']
  rfl

/-- Settles O49: the bundle retires and its register is written (exec_bundleIssue_sysw); each register's clause is sysWrite of that
register, and its row of the table is the same issue (next_sysw). -/
theorem systemRegisterWrites : Obligations.SystemRegisterWrites := by
  intro s d c x r k cr b y l a h hd live level v sp
  have allowed : sysDenied r (k.main.supervisor (launchLevel y k.task)) = false := by
    rw [launchLevel, live]; exact sysDenied_of_level level k.main
  obtain ⟨k', ctx, pc, mem, run⟩ := exec_bundleIssue_sysw h hd allowed
  have start : (countedSysw y d c x k).ctxOf? ⟨d, c, x, false⟩ = some (k.retired .none y.now) := countedSysw_ctx ..
  have row : ∀ regs : List Nat, regs.contains r = true →
      Host.Outcome.next (issueSysw s d c 0 regs) = .next { s with chip := afterSysw y d c x r k v k' } :=
    fun regs hr => (congrArg Host.Outcome.next (next_sysw h hd regs hr)).trans run
  refine ⟨_, k', run, afterSysw_ctx, pc, mem, ?_, ?_, ?_, ?_, ?_⟩
  · rintro rfl
    refine ⟨row [0x005] rfl, fun e => ?_⟩
    rw [sysWrite_srseed v start, ctx_setCtx_same, Option.some.injEq] at ctx
    rw [← ctx]
    exact reseed_gens (apply_spare h.whole []).1 v e
  · rintro rfl
    exact ⟨row [0x103] rfl, afterSysw_space (sw103 v start)⟩
  · rintro rfl
    exact ⟨row [0x104, 0x105] rfl, afterSysw_space (sw104 v start)⟩
  · rintro rfl
    exact ⟨row [0x104, 0x105] rfl, afterSysw_space (sw105 v start)⟩
  · rintro rfl
    refine ⟨row [0x106] rfl, ?_⟩
    rw [afterSysw_watchdog.1, afterSysw_watchdog.2, sw106 v start, modCore_same]
    exact ⟨rfl, Proofs.Scheduler.wdogWritten_low v⟩

/-! ## The hardwired registers (12 R304, 06 R143) -/

/-- A register that a slot writes is none of the discarded ones. -/
theorem not_discarded_of_mem {i : Ins} {l : Loc} (h : l ∈ insWrites i) : l.discarded = false := by
  have := (List.mem_filter.mp h).2
  simpa using this

/-- Writes of hardwired registers leave the context as it is. -/
theorem applyWrs_hardwired (k : Ctx) (x : W64) (b : Bool) (q : BitVec 16) (lanes bits : BitVec 256) :
    applyWrs k false [.s 0 x, .c 0 b, .q 0 q, .k 0 lanes bits] = k := rfl

/-- Settles O56: the accessors test for register 0 (R304), and insWrites leaves out what Loc.discarded names. -/
theorem hardwiredRegisters : Obligations.HardwiredRegisters := by
  refine ⟨fun h => ⟨rfl, rfl, rfl, fun _ => rfl, fun _ => rfl, fun _ => rfl⟩, fun k => ⟨rfl, fun _ _ => rfl⟩, fun i l hl => ?_,
    fun _ _ _ => rfl, applyWrs_hardwired⟩
  have kept := not_discarded_of_mem hl
  refine ⟨?_, ?_, ?_, ?_⟩ <;> rintro rfl <;> cases kept

/-! ## Words from the manual -/

/-- Settles O3: a closed computation of the two decoders. -/
theorem wordsDecode : Obligations.WordsDecode := by
  unfold Obligations.WordsDecode
  decide +kernel

end Sys2Proof.Proofs.Encoding
end

section
/-! PROOFS. Scalar instructions (spec/13_scalar_control.md): an integer instruction alone in a bundle. -/

namespace Sys2Proof.Proofs.ScalarControl
open Sys2Proof.Machine Sys2Proof.Laws

/-! ## The write of a scalar register (06 R143) -/

/-- Of a half, the write of a scalar register changes that register and the mark of those written, and nothing else. -/
theorem wrS_fields (h : Half) (n : Nat) (x : W64) :
    h.wrS n x = { h with s := (h.wrS n x).s, sWritten := (h.wrS n x).sWritten } := by
  unfold Half.wrS
  split <;> rfl

@[simp] theorem rdS_zero (h : Half) : h.rdS 0 = 0 := if_pos rfl

/-! ## Retirement with one scalar write (06 R152) -/

/-- A bundle whose one write is of a scalar register writes it in the main half. -/
theorem applyWrs_scalar (k : Ctx) (n : Nat) (x : W64) : applyWrs k false [.s n x] = { k with main := k.main.wrS n x } := rfl

theorem retired_scalar_same {n : Nat} (k : Ctx) (x : W64) (now : Nat) (named : n ≠ 0) (bound : n < 160) :
    (k.retired (.one (.s n x)) now).main.rdS n = x := rdS_wrS_same k.main n x named bound

theorem retired_scalar_other {n m : Nat} (k : Ctx) (x : W64) (now : Nat) (other : m ≠ n) :
    (k.retired (.one (.s n x)) now).main.rdS m = k.main.rdS m := rdS_wrS_other k.main n m x other

/-- Retirement with one scalar write and no flag: but for that register, the mark of those written and the progress of the half (pc,
count, end of the residue, time of the retirement), the context stands. -/
theorem retired_scalar_fields (k : Ctx) (n : Nat) (x : W64) (now : Nat) :
    k.retired (.one (.s n x)) now =
      { k with
        main := { k.main with
          s := (k.main.wrS n x).s, sWritten := (k.main.wrS n x).sWritten, pc := k.main.pc + 32, count := k.main.count + 1
          resid := none, lastRetire := now }
        lastRetire := now } := by
  have noflags : k.main.fstat ||| (SlotOut.one (.s n x)).flags.setWidth 64 = k.main.fstat := BitVec.or_zero
  unfold Ctx.retired
  rw [show (SlotOut.one (.s n x)).wr = [.s n x] from rfl, applyWrs_scalar, wrS_fields]
  dsimp only
  rw [noflags]

/-! ## Memory behind a retired bundle -/

theorem afterRetire_mem (y : Chip) (d c x : Nat) (k : Ctx) : (y.afterRetire d c x k).mem = y.mem := rfl

/-! ## The integer instruction (13 R324, R325) -/

/-- What an integer instruction writes to its sD. -/
def aluResult (k : Ctx) (op : Irnov.AluOp) (dst : Nat) (a1 a2 : Irnov.Src) : W64 :=
  aluOp op k.main.pc (k.main.rdS dst) (opv k.main a1) (opv k.main a2)

theorem computed_alu (k : Ctx) (op : Irnov.AluOp) (dst : Nat) (a1 a2 : Irnov.Src) :
    computed k (.s (.alu op dst a1 a2)) = some (.one (.s dst (aluResult k op dst a1 a2))) := rfl

/-- An integer instruction raises no flag and names one destination once, so its bundle retires with that write. -/
theorem exec_bundleIssue_alu {s : State} {d c x n dst : Nat} {k : Ctx} {cr : Crew} {b : Bundle} {y : Chip} {op : Irnov.AluOp}
    {a1 a2 : Irnov.Src} (issues : Issues s d c x n k cr b y) (decoded : b.ins k cr n = .ok (.s (.alu op dst a1 a2))) :
    exec (.bundleIssue d c 0) s =
      .next { s with chip := y.afterRetire d c x (k.retired (.one (.s dst (aluResult k op dst a1 a2))) y.now) } :=
  Gang.computingBundlesRetire.1 s d c x n k cr b y _ _ issues decoded (computed_alu ..) (alu_writes op dst a1 a2)
    fun _ => BitVec.zero_and

/-- Settles O48: the bundle retires with the one write of sD (exec_bundleIssue_alu), which s0 discards (rdS_zero); what else the
statement names is among the fields that stand (retired_scalar_fields). -/
theorem integerInstructions : Obligations.IntegerInstructions := by
  intro s d c x n dst k cr b y op a1 a2 issues decoded
  refine ⟨_, _, exec_bundleIssue_alu issues decoded, after_ctx .., afterRetire_mem .., retired_scalar_same k _ _, rdS_zero _,
    fun m other => retired_scalar_other k _ _ other, ?_⟩
  rw [retired_scalar_fields]
  exact ⟨rfl, rfl, rfl, rfl, rfl, rfl, rfl, rfl, rfl, rfl, rfl⟩

end Sys2Proof.Proofs.ScalarControl
end

section
/-! PROOFS. The tile (spec/15_tile.md): a forced eviction from a die's adapter table. -/

namespace Sys2Proof.Proofs.Tile
open Sys2Proof.Machine Sys2Proof.Laws

/-! ## Forced eviction (15 R377) -/

theorem exec_adapterForceEvict (d n : Nat) (s : State) :
    exec (.adapterForceEvict d n) s = .next (writeWord s (0x120000 + 0x4000 * d + 0x10 * n) (2 ^ 62)) := rfl

/-- The first word of entry n of die d's table: a write with bit 62 set, while the part is not frozen, evicts the entry. -/
theorem mgmtWrite_adapter {s : State} {d n : Nat} {w : W64} (hd : d < 8) (hn : n < 1024) (evict : w.toNat.testBit 62 = true)
    (unfrozen : s.io.phase ≠ .frozen) :
    mgmtWrite s (0x120000 + 0x4000 * d + 0x10 * n) w = (true, { s with chip := forceEvict s.chip d n }) := by
  unfold mgmtWrite
  dsimp only
  iterate 9 rw [if_neg (by omega)]
  rw [if_pos (by omega), if_pos ⟨by omega, evict, unfrozen⟩,
    show (0x120000 + 0x4000 * d + 0x10 * n - 0x120000) / 0x4000 = d by omega,
    show (0x120000 + 0x4000 * d + 0x10 * n) % 0x4000 / 0x10 = n by omega]
  rfl

theorem writeWord_adapter {s : State} {d n : Nat} (hd : d < 8) (hn : n < 1024) (hr : s.io.phase ≠ .reset)
    (hf : s.io.phase ≠ .frozen) :
    writeWord s (0x120000 + 0x4000 * d + 0x10 * n) (2 ^ 62) = { s with chip := forceEvict s.chip d n } := by
  rw [word_written _ _ _ hr, mgmtWrite_adapter hd hn (by decide) hf]

theorem forceEvict_valid {c : Chip} {d n : Nat} (h : ((c.die d).adapters.getD n .empty).v = true) :
    let a := (c.die d).adapters.getD n .empty
    forceEvict c d n = c.setDie d { c.die d with
      adapters := (c.die d).adapters.put n { a with v := false, refcnt := 0, gen := (a.gen + 1) % 64 } } :=
  congrArg (c.setDie d) (if_pos h)

theorem forceEvict_invalid {c : Chip} {d n : Nat} (h : ((c.die d).adapters.getD n .empty).v = false) :
    forceEvict c d n = c.setDie d (c.die d) := by
  refine congrArg (c.setDie d) (if_neg ?_)
  rw [h]
  exact Bool.false_ne_true

/-- Settles O31: the row is the write of an entry's word with bit 62 set (writeWord_adapter), and what that write does follows the
entry's V (forceEvict_valid, forceEvict_invalid). -/
theorem adapterForceEvict : Obligations.AdapterForceEvict := by
  intro s d n hd hn hr hf y a z
  rw [exec_adapterForceEvict, writeWord_adapter hd hn hr hf]
  refine ⟨fun valid => ?_, fun invalid => ?_⟩
  · rw [forceEvict_valid valid]
  · rw [forceEvict_invalid invalid]

end Sys2Proof.Proofs.Tile
end

section
/-! PROOFS. Records of steps and the step itself (spec/95_what_each_step_holds.md, spec/opcode_table.json; log 1): encoding and decoding
agree, a step runs the record that is due, a machine whose agenda holds steps only never stops. -/

namespace Sys2Proof.Proofs.Records
open Sys2Proof.Machine Sys2Proof.Laws

/-! ## The record of a step -/

open RecordRow in
theorem recordRow (i : Instr) : Statement i := by
  cases i
  exacts [perstRelease, perstAssert, bootPhaseComplete _, frzRequest, thermalTrip, linkFlitCrcError .., linkRetrainFailure ..,
    ethernetLinkUp _, ethernetLinkDown _, throttleStep .., recordRefresh _, refresh .., rowDisturbRefresh .., patrolScrub ..,
    spareRowRemap .., interfaceCalibration .., gatheredBitsFlush, frameDropped _, pfcFrame _, mread _, mwrite _, mreplyReceived _,
    epochWrite _, queueDisable .., ringEnable .., ringDisable .., flashErase _, flashProgram _, flashNoOp _, flashOpComplete,
    stagingBufferWrite _, adapterForceEvict .., jtagBypass, jtagIdcode, jtagSamplePreload, jtagExtest, jtagRoselect _, jtagRodata,
    vorbyCmd _, vorbyRead _, vorbyWrite _, vorbyAtomic _, vorbyReply _, vorbyNack _, vorbyEvent _, vorbyPcopy _, vorbyPlpull _,
    vorbyAck _, ackTimer .., rtoExpiry .., cmdNop, cmdRead, cmdWrite, cmdLaunch, cmdPreemptMode0, cmdPreemptMode1,
    cmdPreemptMode2, cmdPreemptMode3, cmdKill, cmdTlbinv, cmdHarvest, cmdPlace, cmdSignalFput, cmdSignalDcdec, cmdWaitevent,
    waiteventPoll _, cmdAttest, cmdFwload, cmdFreeze, completionRecordWrite _, eventTimerExpiry _, coreWorkAsk ..,
    crewBindingComplete .., ageingRise _, crewSave _, watchdogFire .., chainWalk .., adoptedCrewBind _, crewMigration _,
    nackRetryExpiry .., endNotice .., nodeFlushTimer .., waitingAnswerArrival .., heldAnswerArrival .., loadDataArrival ..,
    storePerform .., pageWalk .., asyncCompletion _, asyncPoisonTrap .., arrayInstructionEnd .., conversionStep .., bundleIssue ..,
    srseedWrite .., ptbaseWrite .., defaultVectorWrite .., wdogWrite .., pfcPauseExpiry .., claimedLineWrite ..]

theorem bitOf_bit (x : Bool) : bitOf (if x then 1 else 0) = some x := by cases x <;> rfl

/-- A row whose operands are a frame, and what it makes of them. -/
theorem build_frame (f : RxFrame) (g : RxFrame → Instr) :
    (bitOf (if f.fcsOk then 1 else 0)).map (fun k => g ⟨f.port, k, f.bytes⟩) = some (g f) := by
  rw [bitOf_bit]; rfl

/-- The decoder makes the step of what its record holds. -/
theorem build_of_record (i : Instr) :
    buildInstr i.record.row (i.record.fields.map (·.2)) (i.record.tail.getD []) = some i := by
  cases i
  case bootPhaseComplete o => cases o <;> rfl
  case frameDropped f | pfcFrame f | mread f | mwrite f | mreplyReceived f | vorbyCmd f | vorbyRead f | vorbyWrite f |
      vorbyAtomic f | vorbyReply f | vorbyNack f | vorbyEvent f | vorbyPcopy f | vorbyPlpull f | vorbyAck f =>
    exact build_frame f _
  all_goals rfl

/-! ## Operands fit their widths -/

/-- A record whose operands have the bytes that they need, and whose list has a length of 16 bits. -/
structure Fits (r : Record) : Prop where
  fields : ∀ e ∈ r.fields, e.2 < 256 ^ e.1
  tail : ∀ b, r.tail = some b → b.length < 65536

theorem boot_fits {o : BootOutcome} (h : o.wf = true) : Fits (Instr.bootPhaseComplete o).record := by
  refine ⟨?_, nofun⟩
  cases o
  all_goals
    simp only [BootOutcome.wf, Bool.and_eq_true, decide_eq_true_eq] at h
    simp [Instr.record, bootFields]
  all_goals omega

theorem frame_fits {f : RxFrame} (h : f.wf = true) (row : Nat) : Fits ⟨row, frameFields f, some f.bytes⟩ := by
  simp only [RxFrame.wf, Bool.and_eq_true, decide_eq_true_eq] at h
  obtain ⟨port, bytes⟩ := h
  refine ⟨?_, fun b e => by cases e; exact bytes⟩
  simp only [frameFields, List.forall_mem_cons]
  refine ⟨by omega, by cases f.fcsOk <;> decide, by simp⟩

theorem errs_short {errs : List Byte} (h : errsWf errs = true) : errs.length ≤ 256 := by
  simp only [errsWf, Bool.and_eq_true, decide_eq_true_eq] at h
  exact h.1

theorem record_fits {i : Instr} (h : i.WellFormed) : Fits i.record := by
  cases i
  case bootPhaseComplete o => exact boot_fits h
  case frameDropped f | pfcFrame f | mread f | mwrite f | mreplyReceived f | vorbyCmd f | vorbyRead f | vorbyWrite f |
      vorbyAtomic f | vorbyReply f | vorbyNack f | vorbyEvent f | vorbyPcopy f | vorbyPlpull f | vorbyAck f =>
    exact frame_fits h _
  all_goals
    simp only [Instr.WellFormed, Instr.wf, ctxWf, halfWf, coreWf, Bool.and_eq_true, decide_eq_true_eq] at h
  case recordRefresh b | stagingBufferWrite b =>
    exact ⟨nofun, fun _ e => by cases e; omega⟩
  case loadDataArrival d c x id errs | storePerform d c k errs =>
    have short := errs_short h.2
    refine ⟨?_, fun _ e => by cases e; omega⟩
    simp [Instr.record]; omega
  all_goals
    refine ⟨?_, nofun⟩
    simp [Instr.record]
  all_goals omega

/-! ## Encoding and decoding agree (log 1) -/

theorem decode_encode {i : Instr} (h : i.WellFormed) : decode (encode i) = .ok i := by
  obtain ⟨row, layout, -⟩ := recordRow i
  have fits := record_fits h
  exact decode_record (by omega) layout fits.fields fits.tail (build_of_record i) h

/-- What stands in a record that decodes: a row of the table, the row's operands, its list where it has one, and zeros; the step is
the one that the row makes of them. -/
theorem decode_parts {b : List Byte} {i : Instr} (h : decode b = .ok i) :
    ∃ (row : Byte) (bytes rest zeros list : List Byte) (ws vs : List Nat) (listed : Bool), b = row :: bytes ∧
      rowLayout row.toNat = some (ws, listed) ∧ readFields ws bytes = some (vs, rest) ∧
      (if listed then readTail rest else some ([], rest)) = some (list, zeros) ∧ ¬ zeros.any (· != 0) = true ∧
      buildInstr row.toNat vs list = some i := by
  unfold decode at h
  split at h
  · cases h
  rename_i row bytes
  dsimp only at h
  split at h
  · cases h
  rename_i ws listed layout
  split at h
  · cases h
  rename_i vs rest fields
  split at h
  · cases h
  rename_i list zeros tail
  split at h
  · cases h
  rename_i blank
  split at h
  · cases h
  rename_i j build
  split at h
  · cases h
    exact ⟨row, bytes, rest, zeros, list, ws, vs, listed, rfl, layout, fields, tail, blank, build⟩
  · cases h

/-- A list that was read, or the absence of one, lies before the zeros as it is laid out. -/
theorem tail_laid {listed : Bool} {rest list zeros : List Byte}
    (h : (if listed then readTail rest else some ([], rest)) = some (list, zeros)) :
    (listed = false → list = []) ∧ rest = tailBytes (if listed then some list else none) ++ zeros := by
  cases listed with
  | false => cases h; exact ⟨fun _ => rfl, rfl⟩
  | true => exact ⟨nofun, readTail_inv h⟩

theorem decoded_encode {b : List Byte} {i : Instr} (h : decode b = .ok i) : ∃ n, b = encode i ++ List.replicate n 0 := by
  obtain ⟨row, bytes, rest, zeros, list, ws, vs, listed, rfl, layout, fields, tail, blank, build⟩ := decode_parts h
  obtain ⟨length, laid⟩ := readFields_inv ws bytes vs rest fields
  obtain ⟨unlisted, listLaid⟩ := tail_laid tail
  refine ⟨zeros.length, ?_⟩
  have record := build_record layout length unlisted build
  rw [encode, record, BitVec.ofNat_toNat, BitVec.setWidth_eq, ← zeros_suffix blank, laid, listLaid, List.cons_append, List.append_assoc]

/-- Settles O1: what a step's record holds reads back (decode_encode), and what decodes is laid out so (decoded_encode). -/
theorem recordEncoding : Obligations.RecordEncoding :=
  ⟨fun _ => decode_encode, fun _ _ h => ⟨decode_wf h, decoded_encode h⟩⟩

/-! ## The record that is due -/

theorem step_ok {s : State} {p : Pending} {t : List Pending} {i : Instr} (head : s.agenda = p :: t) (due : p.wait = 0)
    (decoded : decode p.record = .ok i) : step s = exec i { s with agenda := t } := by
  simp only [step, step_due head due, decoded]

theorem step_error {s : State} {p : Pending} {t : List Pending} {e : DecodeError} (head : s.agenda = p :: t) (due : p.wait = 0)
    (bad : decode p.record = .error e) : step s = .fault (.badRecord e) := by
  simp only [step, step_due head due, bad]

theorem decode_of_tableWord {nbits w : Nat} {i : Instr} (h : decodeTableWord nbits w = some i) :
    decode (recordOfWord nbits w) = .ok i := by
  unfold decodeTableWord at h
  split at h
  · cases h; assumption
  · cases h

/-- Settles O4: a record placed as the next one is due, and the agenda behind it is the one before. -/
theorem stepRunsTheDueRecord : Obligations.StepRunsTheDueRecord :=
  ⟨fun _ _ _ _ => step_ok, fun _ _ _ _ => step_error, fun _ => Package.step_idle,
    fun s _ _ _ word => step_ok (s := placeRecord s _) rfl rfl (decode_of_tableWord word)⟩

/-! ## Agendas of steps only -/

theorem perstFall_agenda (s : State) : (perstFall s).agenda = s.agenda := by
  unfold perstFall
  rcases perstDue_cases (s.modIo fun i => { i with perstAt := some (edgeCycle i.refEdge) }) with stands | ⟨low, -⟩
  · rw [stands]; rfl
  · rw [low]; rfl

theorem exec_agenda {i : Instr} {s t : State} (wf : i.WellFormed) (h : exec i s = .next t) : t.agenda = s.agenda := by
  by_cases fall : i = .perstAssert
  · subst fall
    cases h
    exact perstFall_agenda s
  · exact (goes_exec i fall wf s t h).2

theorem waitDown_safe {l : List Pending} (h : ∀ p ∈ l, ∃ i, decode p.record = .ok i) :
    ∀ p ∈ waitDown l, ∃ i, decode p.record = .ok i := by
  cases l with
  | nil => exact h
  | cons p t =>
    rw [waitDown, List.forall_mem_cons]
    exact List.forall_mem_cons.1 h

theorem tick_safe {s : State} (h : s.Safe) : (tick s).Safe := by
  rw [State.Safe, tick_agenda]
  exact waitDown_safe h

/-- Settles O5: a due record is a step, every step has a next state (exec_next) and leaves the rest of the agenda (exec_agenda); a clock
period only counts the first wait down (tick_safe). -/
theorem safeMachineNeverStops : Obligations.SafeMachineNeverStops := by
  intro s safe
  by_cases idle : s.idle
  · exact ⟨tick s, Package.step_idle idle, tick_safe safe⟩
  · simp only [State.idle, not_forall, not_not] at idle
    obtain ⟨p, t, head, due⟩ := idle
    obtain ⟨i, decoded⟩ := safe p (by rw [head]; exact List.mem_cons_self)
    obtain ⟨u, run⟩ := exec_next i { s with agenda := t }
    refine ⟨u, (step_ok head due decoded).trans run, fun q rest => safe q ?_⟩
    rw [exec_agenda (decode_wf decoded) run] at rest
    rw [head]
    exact List.mem_cons_of_mem p rest

end Sys2Proof.Proofs.Records
end
